-- ==== Sys2Proof/Word.lean ====
section
/-! DEFINITION. The word types of the Balcel B24: bytes, 32-bit register words, 64-bit values and lane masks (R5, R154). -/

namespace Sys2Proof

/-- One byte of memory. -/
abbrev Byte := BitVec 8

/-- One 32-bit register word (v, s or sc register). -/
abbrev Word := BitVec 32

/-- One 64-bit value: a register pair, an h-register image, a control register. -/
abbrev DWord := BitVec 64

/-- A lane mask, bit L for lane L (R154); with W = 32 the upper half is zero. -/
abbrev Mask := BitVec 64

end Sys2Proof
end

