-- ==== Sys2Proof/Syntax.lean ====
section
/-! DEFINITION. The instructions of the device: one constructor of `Instr` for every row of spec/opcode_table.json.
Program instructions (07 to 10) carry a header (guard and prefix mark, R176 to R185); copy-chain entries (04), queue
commands (11) carry the fields of their entry; the remaining rows are events, whose operands name the object
the event befalls and the choices the spec leaves to the agent that causes it. -/

namespace Sys2Proof

/-- Register classes of R179. -/
inductive Cls where | v | s | h | q
deriving DecidableEq, Repr

/-- A register operand: class and number (R179). -/
structure Opnd where
  cls : Cls
  n : Nat
deriving DecidableEq, Repr

/-- What every program instruction carries: GUARD[53], GUARD[52:50] (R177), and whether an EXT prefix stands before the word
(R184, R185: the instruction is then 16 bytes long). -/
structure Hdr where
  neg : Bool
  gp : Nat
  ext : Bool
deriving DecidableEq, Repr

/-- Integer types, Table 05-3. -/
inductive IT where | z32 | s32 | z64 | s64 | z8 | s8 | z4 | s4
deriving DecidableEq, Repr

/-- Floating-point formats, Table 05-1. -/
inductive FT where | f32 | f16 | bf16 | f64 | e4m3 | e5m2 | e3m2 | e2m3 | e2m1 | f16x2 | bf16x2
deriving DecidableEq, Repr

/-- Rounding codes, Table 05-5. -/
inductive RM where | dyn | rne | rz | ru | rd | rna | ro
deriving DecidableEq, Repr

/-- Access spaces, Table 01-2. -/
inductive Space where | glob | scr | loc | par
deriving DecidableEq, Repr

/-- Access sizes, Table 07-4. -/
inductive Sz where | z8 | s8 | z16 | s16 | b32 | b64 | b128
deriving DecidableEq, Repr

/-- Order codes, Table 03-2; `acqrel` is code 10, `str` code 11. -/
inductive Order where | plain | rlx | acqrel | str
deriving DecidableEq, Repr

/-- Scopes, Table 03-3; `none` is code 000. -/
inductive Scope where | none | grp | blk | prt | sys
deriving DecidableEq, Repr

/-- The fields a memory instruction shares (Table 07-4, R80, R40, R78). -/
structure Acc where
  sp : Space
  sz : Sz
  col : Bool
  ord : Order
  scope : Scope
  nl : Bool
  a16 : Bool
deriving DecidableEq, Repr

/-- Special registers of Table 07-5. -/
inductive SReg where
  | tidx | tidy | tidz | lane | gwidth | group | blkx | blky | blkz | core | bulkhead | world | amask | time | cycle
  | fpm | fpst | tcause | tinst | tmask | tpc | taddr | tinfo
deriving DecidableEq, Repr

/-- A WAITR timeout: an immediate or an s register (R215). -/
inductive Timeout where
  | imm (n : Nat)
  | reg (n : Nat)
deriving DecidableEq, Repr

/-- A shift amount: a register or a constant (R227). -/
inductive ShAmt where
  | reg (o : Opnd)
  | imm (n : Nat)
deriving DecidableEq, Repr

/-- The lane selector of RDLANE and WRLANE: a register or a constant (Table 09-8). -/
inductive LaneSel where
  | reg (o : Opnd)
  | imm (n : Nat)
deriving DecidableEq, Repr

/-- The four forms of MOVP (R265). -/
inductive MovpForm where
  | get (d : Opnd) (p : Nat)
  | put (p : Nat) (a : Opnd)
  | getAll (d : Opnd)
  | putAll (a : Opnd)
deriving DecidableEq, Repr

/-- Register classes reached by RDREG and WRREG (R266). -/
inductive RegSel where | v | s | h | p | sc
deriving DecidableEq, Repr

/-- Element widths of PACK and UNPACK (R262). -/
inductive EW where | w4 | w6 | w8 | w16
deriving DecidableEq, Repr

/-- Integer comparisons of ICMP (R230). -/
inductive ICmp where | eq | ne | lt | le | gt | ge
deriving DecidableEq, Repr

/-- Comparisons of FCMP (Table 10-4). -/
inductive FCmp where | eq | ne | lt | le | gt | ge | num | nan | equ | neu | ltu | leu | gtu | geu
deriving DecidableEq, Repr

/-- LOPI operations (R232). -/
inductive LOp where | and | or | xor | andn
deriving DecidableEq, Repr

/-- SHFL modes (Table 09-8). -/
inductive ShMode where | idx | up | down | xor
deriving DecidableEq, Repr

/-- VOTE modes. -/
inductive VoteMode where | ballot | any | all
deriving DecidableEq, Repr

/-- Integer operations of REDUX and SCAN (R253). -/
inductive RedOp where | add | min | max | and | or | xor
deriving DecidableEq, Repr

/-- Float operations of FREDUX and FSCAN. -/
inductive FRedOp where | add | min | max
deriving DecidableEq, Repr

/-- A destination that is a register or a predicate, as the mode says (VOTE, MATCH). -/
inductive VDst where
  | reg (o : Opnd)
  | pred (p : Nat)
deriving DecidableEq, Repr

/-- Selectors of ATOM and RED (Table 09-4). -/
inductive AtomOp where | add | minz | maxz | mins | maxs | and | or | xor | inc | dec
deriving DecidableEq, Repr

/-- Selectors of ATOMF and REDF (Table 09-4). -/
inductive AtomFOp where | addF32 | addF16x2 | addBF16x2 | addF64 | minF32 | maxF32
deriving DecidableEq, Repr

/-- Operations of SEMSIG (R251) and of the SIGNAL command (Table 11-3). -/
inductive SigOp where | add | or | set
deriving DecidableEq, Repr

/-- Semaphore comparisons (R114). -/
inductive SemCmp where | eq | ne | ge | gt | le | lt | ges | gts | les | lts | all | any
deriving DecidableEq, Repr

/-- Matrix types, Table 10-7. -/
inductive MT where | f16 | bf16 | e4m3 | e5m2 | e3m2 | e2m3 | e2m1 | s8 | s4
deriving DecidableEq, Repr

/-- Header of a copy-chain entry (Table 04-1) without TYPE. -/
structure CHdr where
  ssp : Bool
  dsp : Bool
  so : Bool
  dor : Bool
  nl : Bool
  tr : Bool
  esz : Nat
deriving DecidableEq, Repr

/-- A launch record (Table 11-2). `rsvd` says that some byte, flag or field that the record must hold as zero is not. -/
structure LaunchRec where
  flags : BitVec 8
  kidx : Nat
  gx : Nat
  gy : Nat
  gz : Nat
  bx : Nat
  byy : Nat
  bz : Nat
  scratch : Nat
  argSize : Nat
  mode : DWord
  argPtr : DWord
  semAddr : DWord
  semVal : DWord
  dumpAddr : DWord
  dumpSize : Nat
  watchdog : Nat
  rsvd : Bool
deriving DecidableEq, Repr

/-- An imposition entry as REPLACE writes it (Table 11-5). -/
structure ImpEntry where
  kent : Nat
  valid : Bool
  obj : DWord
  data : DWord
deriving DecidableEq, Repr

/-- The name of a group: launch identity, linear block index, group index in the block. -/
structure Gid where
  lid : Nat
  blk : Nat
  gi : Nat
deriving DecidableEq, Repr

/-- Who issues a management command or owns a control page: PF0 or the host function of a world (R373, R377). -/
inductive Fn where
  | pf0
  | vf (w : Nat)
deriving DecidableEq, Repr

/-- One local area named by WORLD-CREATE: bulkhead and base physical address (R14). -/
structure LocalArea where
  bulk : Nat
  base : Nat
deriving DecidableEq, Repr

/-- What a host-link completion carries (R375). -/
inductive HostStatus where
  | ok (data : List Byte)
  | ur
  | ca
deriving DecidableEq, Repr

/-- The operation of an inbound fabric request (R378, R380). -/
inductive FabOp where
  | read (size : Nat)
  | write (bytes : List Byte)
  | atom (op : AtomOp) (size : Nat) (b : DWord)
  | atomf (op : AtomFOp) (b : DWord)
  | xchg (size : Nat) (b : DWord)
  | cas (size : Nat) (b new : DWord)
  | semsig (op : SigOp) (v : DWord)
deriving DecidableEq, Repr

/-- Completion status of a fabric transaction this package sent (R380, R381). -/
inductive FabStatus where
  | ok (data : List Byte)
  | ownership
  | down
deriving DecidableEq, Repr

/-- A host access with the way it came: whether on the function's IDE stream with the T bit set (R376). -/
structure Tlp (α : Type) where
  dst : α
  tee : Bool
deriving DecidableEq, Repr

/-- What comes at the head of a flit: its sequence number and the number up to which it acknowledges (R378). -/
structure FlitHead where
  seq : Nat
  ack : Nat
deriving DecidableEq, Repr

/-- How a peer authenticates at link training: the nonce it sends, and its signature over the nonce of this end (R379). -/
structure LinkProof where
  nonce : List Byte
  sig : List Byte
deriving DecidableEq, Repr

/-- The payload of a flit that passed its checks: a completion of request `id`; an inbound request, with its source and destination packages, DESTPART
and offset, which the row FABRIC_REQUEST then applies; the peer's refusal of the oldest flit that it has not acknowledged; or a link matter of no
architectural effect (R378). -/
inductive FlitBody where
  | completion (id : Nat) (st : FabStatus)
  | request (src dest part off : Nat) (op : FabOp)
  | refusal
  | other
deriving DecidableEq, Repr

/-- A host access through BAR2 (R374). -/
inductive ApOp where
  | read (size : Nat)
  | write (bytes : List Byte)
deriving DecidableEq, Repr

/-- A firmware command of the package owner (R377, R382). -/
inductive FwCmd where
  | stage (version : Nat) (signed : Bool)
  | advance (version : Nat)
deriving DecidableEq, Repr

/-- One outside input admitted under replay mode (R371). -/
inductive ReplayIn where
  | hostWrite (addr : Nat) (payload : List Byte)
  | control (off : Nat) (value : DWord)
  | tail (lvl : Nat) (value : DWord)
  | fabric (addr : Nat) (payload : List Byte)
deriving DecidableEq, Repr

/-- The instructions, commands and events of spec/opcode_table.json, one constructor a row. -/
inductive Instr where
  -- control flow (08)
  | nop (hd : Hdr)
  | bra (hd : Hdr) (u : Bool) (disp : BitVec 40)
  | brx (hd : Hdr) (u : Bool) (a : Opnd)
  | call (hd : Hdr) (disp : BitVec 40)
  | callx (hd : Hdr) (a : Opnd)
  | ret (hd : Hdr)
  | loop (hd : Hdr) (d : Opnd) (disp : Word)
  | exit (hd : Hdr)
  | waitr (hd : Hdr) (pd : Nat) (a : Opnd) (t : Timeout)
  | waitrTimeout (g : Gid) (pc : Nat)
  | sync (hd : Hdr) (a : Opnd)
  | yield (hd : Hdr)
  | pause (hd : Hdr) (n : Nat)
  | pauseEnd (g : Gid)
  | brk (hd : Hdr) (code : Word)
  | trap (hd : Hdr) (code : Word)
  | tret (hd : Hdr) (next : Bool)
  | emul (hd : Hdr) (op : Nat) (body : Nat) (pre : Nat)
  -- integer (08)
  | iadd (hd : Hdr) (t : IT) (sat : Bool) (d a b : Opnd)
  | isub (hd : Hdr) (t : IT) (sat : Bool) (d a b : Opnd)
  | iaddc (hd : Hdr) (t : IT) (ci : Bool) (pc : Nat) (d a b : Opnd)
  | ineg (hd : Hdr) (t : IT) (sat : Bool) (d a : Opnd)
  | iabs (hd : Hdr) (t : IT) (sat : Bool) (d a : Opnd)
  | imin (hd : Hdr) (t : IT) (d a b : Opnd)
  | imax (hd : Hdr) (t : IT) (d a b : Opnd)
  | imul (hd : Hdr) (t : IT) (d a b : Opnd)
  | imulh (hd : Hdr) (t : IT) (d a b : Opnd)
  | imad (hd : Hdr) (t : IT) (d a b c : Opnd)
  | imadw (hd : Hdr) (t : IT) (d a b c : Opnd)
  | idiv (hd : Hdr) (t : IT) (d a b : Opnd)
  | irem (hd : Hdr) (t : IT) (d a b : Opnd)
  | isad (hd : Hdr) (t : IT) (d a b c : Opnd)
  | iscadd (hd : Hdr) (t : IT) (d a b : Opnd) (k : Nat)
  | idp4 (hd : Hdr) (sa bs : Bool) (d a b c : Opnd)
  | iaddi (hd : Hdr) (t : IT) (sat : Bool) (d a : Opnd) (imm : Word)
  | imuli (hd : Hdr) (t : IT) (d a : Opnd) (imm : Word)
  -- logic, bit, compare (08); `w` says 64-bit operands
  | and (hd : Hdr) (w : Bool) (d a b : Opnd)
  | or (hd : Hdr) (w : Bool) (d a b : Opnd)
  | xor (hd : Hdr) (w : Bool) (d a b : Opnd)
  | andn (hd : Hdr) (w : Bool) (d a b : Opnd)
  | orn (hd : Hdr) (w : Bool) (d a b : Opnd)
  | not (hd : Hdr) (w : Bool) (d a : Opnd)
  | shl (hd : Hdr) (w : Bool) (d a : Opnd) (b : ShAmt)
  | shr (hd : Hdr) (w : Bool) (d a : Opnd) (b : ShAmt)
  | sar (hd : Hdr) (w : Bool) (d a : Opnd) (b : ShAmt)
  | rot (hd : Hdr) (w : Bool) (d a : Opnd) (b : ShAmt)
  | fshl (hd : Hdr) (w : Bool) (d a b c : Opnd)
  | bfx (hd : Hdr) (t : IT) (d a pos len : Opnd)
  | bfi (hd : Hdr) (w : Bool) (d a b c : Opnd)
  | popc (hd : Hdr) (w : Bool) (d a : Opnd)
  | clz (hd : Hdr) (w : Bool) (d a : Opnd)
  | ctz (hd : Hdr) (w : Bool) (d a : Opnd)
  | brev (hd : Hdr) (w : Bool) (d a : Opnd)
  | prmt (hd : Hdr) (d a b c : Opnd)
  | icmp (hd : Hdr) (cmp : ICmp) (t : IT) (pd : Nat) (a b : Opnd)
  | plut (hd : Hdr) (pd pa pb : Nat) (lut : Nat)
  | pick (hd : Hdr) (w : Bool) (d a b : Opnd) (pc : Nat)
  | lopi (hd : Hdr) (op : LOp) (w : Bool) (d a : Opnd) (imm : Word)
  -- moves and conversions (10)
  | mov (hd : Hdr) (w : Bool) (d a : Opnd)
  | movi (hd : Hdr) (w : Bool) (d : Opnd) (imm : DWord)
  | movs (hd : Hdr) (d : Opnd) (r : SReg)
  | movp (hd : Hdr) (f : MovpForm)
  | rdreg (hd : Hdr) (cl : RegSel) (d a : Opnd)
  | wrreg (hd : Hdr) (cl : RegSel) (a b : Opnd)
  | cvtf (hd : Hdr) (dt st : FT) (sat de8 se8 : Bool) (rm : RM) (d a : Opnd)
  | cvtfi (hd : Hdr) (t : IT) (st : FT) (rm : RM) (d a : Opnd)
  | cvtif (hd : Hdr) (dt : FT) (t : IT) (rm : RM) (d a : Opnd)
  | pack (hd : Hdr) (ew : EW) (k : Nat) (d a b c : Opnd)
  | unpack (hd : Hdr) (ew : EW) (sx : Bool) (j : Nat) (d a : Opnd)
  | rdmode (hd : Hdr) (fpst : Bool) (d : Opnd)
  | wrmode (hd : Hdr) (fpst : Bool) (a : Opnd)
  | rdsc (hd : Hdr) (d : Opnd) (sc : Nat)
  | wrsc (hd : Hdr) (sc : Nat) (a : Opnd)
  | addrg (hd : Hdr) (d : Opnd) (imm : Word)
  -- float (10)
  | fadd (hd : Hdr) (ft : FT) (rm : RM) (d a b : Opnd)
  | fsub (hd : Hdr) (ft : FT) (rm : RM) (d a b : Opnd)
  | fmul (hd : Hdr) (ft : FT) (rm : RM) (d a b : Opnd)
  | ffma (hd : Hdr) (ft : FT) (rm : RM) (d a b c : Opnd)
  | fmin (hd : Hdr) (ft : FT) (d a b : Opnd)
  | fmax (hd : Hdr) (ft : FT) (d a b : Opnd)
  | fminm (hd : Hdr) (ft : FT) (d a b : Opnd)
  | fmaxm (hd : Hdr) (ft : FT) (d a b : Opnd)
  | fabs (hd : Hdr) (ft : FT) (d a : Opnd)
  | fneg (hd : Hdr) (ft : FT) (d a : Opnd)
  | fcpys (hd : Hdr) (ft : FT) (d a b : Opnd)
  | fcmp (hd : Hdr) (cmp : FCmp) (ft : FT) (pd : Nat) (a b : Opnd)
  | fclass (hd : Hdr) (ft : FT) (d a : Opnd)
  | frint (hd : Hdr) (ft : FT) (rm : RM) (exact : Bool) (d a : Opnd)
  | fdiv (hd : Hdr) (ft : FT) (rm : RM) (d a b : Opnd)
  | fsqrt (hd : Hdr) (ft : FT) (rm : RM) (d a : Opnd)
  | frcp (hd : Hdr) (rm : RM) (d a : Opnd)
  | frsq (hd : Hdr) (rm : RM) (d a : Opnd)
  | fscale (hd : Hdr) (ft : FT) (rm : RM) (d a b : Opnd)
  | fdot2 (hd : Hdr) (ft : FT) (rm : RM) (d a b c : Opnd)
  | fex2 (hd : Hdr) (rm : RM) (d a : Opnd)
  | flg2 (hd : Hdr) (rm : RM) (d a : Opnd)
  | fsinp (hd : Hdr) (rm : RM) (d a : Opnd)
  | fcosp (hd : Hdr) (rm : RM) (d a : Opnd)
  | ftanh (hd : Hdr) (rm : RM) (d a : Opnd)
  | fsigm (hd : Hdr) (rm : RM) (d a : Opnd)
  | hmov (hd : Hdr) (ft : FT) (rm : RM) (sat : Bool) (d a : Opnd)
  -- cross-lane (09)
  | shfl (hd : Hdr) (mode : ShMode) (w : Bool) (d a b : Opnd) (seg : Nat)
  | rdlane (hd : Hdr) (w : Bool) (d a : Opnd) (b : LaneSel)
  | wrlane (hd : Hdr) (d a : Opnd) (b : LaneSel)
  | vote (hd : Hdr) (mode : VoteMode) (d : VDst) (pa : Nat) (m : Opnd)
  | matchl (hd : Hdr) (all : Bool) (w : Bool) (d : VDst) (a m : Opnd)
  | redux (hd : Hdr) (op : RedOp) (t : IT) (d a m : Opnd)
  | fredux (hd : Hdr) (op : FRedOp) (ft : FT) (rm : RM) (d a m : Opnd)
  | scan (hd : Hdr) (op : RedOp) (t : IT) (excl : Bool) (d a m : Opnd)
  | fscan (hd : Hdr) (op : FRedOp) (ft : FT) (rm : RM) (excl : Bool) (d a m : Opnd)
  | elect (hd : Hdr) (d : Opnd) (pd : Nat) (m : Opnd)
  | regroup (hd : Hdr) (blk : Bool) (pd : Nat)
  -- memory (09)
  | ld (hd : Hdr) (acc : Acc) (off : Word) (d a : Opnd)
  | st (hd : Hdr) (acc : Acc) (off : Word) (d a : Opnd)
  | lds (hd : Hdr) (acc : Acc) (stride : Word) (d a : Opnd)
  | sts (hd : Hdr) (acc : Acc) (stride : Word) (d a : Opnd)
  | ldt (hd : Hdr) (col : Bool) (pitch : Word) (d a : Opnd)
  | stt (hd : Hdr) (col : Bool) (pitch : Word) (d a : Opnd)
  | put (hd : Hdr) (acc : Acc) (off : Word) (d a : Opnd)
  | pref (hd : Hdr) (col : Bool) (off : Word) (a : Opnd)
  | lease (hd : Hdr) (col : Bool) (off : Word) (d a : Opnd)
  | szero (hd : Hdr) (col : Bool) (off : Word) (d a : Opnd)
  -- atomics (09); `b` is the number of the v register B
  | atom (hd : Hdr) (acc : Acc) (op : AtomOp) (d a : Opnd) (b : Nat)
  | atomf (hd : Hdr) (acc : Acc) (op : AtomFOp) (d a : Opnd) (b : Nat)
  | xchg (hd : Hdr) (acc : Acc) (d a : Opnd) (b : Nat)
  | cas (hd : Hdr) (acc : Acc) (d a : Opnd) (b : Nat)
  | red (hd : Hdr) (acc : Acc) (op : AtomOp) (a : Opnd) (b : Nat)
  | redf (hd : Hdr) (acc : Acc) (op : AtomFOp) (a : Opnd) (b : Nat)
  | backoff (hd : Hdr) (d : Opnd) (base cap : Nat)
  -- synchronisation (09)
  | fence (hd : Hdr) (async : Bool) (ord : Order) (scope : Scope)
  | bar (hd : Hdr) (id count : Nat)
  | bararr (hd : Hdr) (id count : Nat)
  | sstep (hd : Hdr)
  | sstarr (hd : Hdr)
  | sstwait (hd : Hdr)
  | qstat (hd : Hdr) (d : Opnd) (q : Nat)
  | queueStallRelease (g : Gid)
  | semsig (hd : Hdr) (op : SigOp) (scr : Bool) (ord : Order) (scope : Scope) (off : Word) (d a : Opnd)
  | semwait (hd : Hdr) (cmp : SemCmp) (scr : Bool) (ord : Order) (scope : Scope) (off : Word) (d a : Opnd)
  | semwaitRelease (pa : Nat)
  | semwaitPoll (g : Gid) (lane : Nat)
  -- matrix (10); `ts` holds the two sc register numbers when TS = 1
  | mma (hd : Hdr) (ty : MT) (n64 acc mx : Bool) (ts : Option (Nat × Nat)) (d a b : Nat)
  | mmas (hd : Hdr) (ty : MT) (n64 acc mx : Bool) (ts : Option (Nat × Nat)) (acol bcol areg breg : Bool) (d a b : Nat)
  | mmasp (hd : Hdr) (ty : MT) (n64 acc mx : Bool) (ts : Option (Nat × Nat)) (acol bcol areg breg k4 : Bool) (d a b : Nat)
  | mzero (hd : Hdr) (n64 : Bool) (d : Nat)
  | mwait (hd : Hdr) (n : Nat)
  | mfence (hd : Hdr)
  | matrixCompletion (g : Gid)
  -- async and system (09)
  | cpchain (hd : Hdr) (a : Opnd)
  | cpwait (hd : Hdr) (n : Nat)
  | cptest (hd : Hdr) (d : Opnd) (pd : Nat)
  | launch (hd : Hdr) (d a : Opnd)
  | gettime (hd : Hdr) (ord : Bool) (d : Opnd)
  | perfrd (hd : Hdr) (d : Opnd) (k : Nat)
  | trace (hd : Hdr) (a : Opnd) (code : Nat)
  -- copy-chain entries (04)
  | chainCopy1d (h : CHdr) (len : Nat) (src dst : DWord)
  | chainCopy2d (h : CHdr) (rows rowBytes : Nat) (sstride dstride : Word) (src dst : DWord)
  | chainGather (h : CHdr) (count rowBytes idxOff tstride : Nat) (src dst : DWord)
  | chainScatter (h : CHdr) (count rowBytes idxOff tstride : Nat) (src dst : DWord)
  | chainFill (h : CHdr) (count : Nat) (value dst : DWord)
  | chainLoop (count back : Nat)
  | ifsem (h : CHdr) (op : SemCmp) (skip : Nat) (value addr : DWord)
  | chainSignal (scr wick : Bool) (addend addr : DWord)
  | chainEnd
  | chainCompletion (id : Nat)
  -- homes (01)
  | storeArrival (id delay : Nat)
  | writeCompletion (id : Nat)
  | fill (core line dur : Nat) (own : Bool)
  | leaseExpiry (core line : Nat)
  | ownershipRecall (core line : Nat)
  | beaconDrainComplete (part dom : Nat)
  -- queue commands and the dispatcher (11)
  | cmdLaunch (r : LaunchRec)
  | cmdWait (op : SemCmp) (addr value : DWord)
  | cmdSignal (op : SigOp) (addr value : DWord)
  | replace (kidx : Nat) (e : ImpEntry)
  | cmdFence
  | cmdBarrier (mask : BitVec 4)
  | deviceQueueEntry (part : Nat)
  | blockPlacement (part : Nat)
  | blockClearComplete (lid blk : Nat)
  | launchCompletion (lid : Nat)
  | launchAbort (lid : Nat) (cause : Nat)
  | watchdogExpiry (lid : Nat)
  | dumpWrite (lid : Nat)
  | translation (w kidx : Nat) (w64 : Bool) (resid : Nat) (safe : Bool)
  | galleyReoptimise (id resid : Nat)
  | translationIntegrity (g : Gid)
  | actRollback (g : Gid)
  -- pre-emption and frames (12, 14)
  | preemptGo (w : Nat)
  | preemptResume (w : Nat)
  | contextSave (w : Nat)
  | contextRestore (w : Nat)
  | frameEdge (part : Nat)
  | edgeGapEnd (part : Nat)
  -- host register writes with a row of their own (02, 11, 12, 13, 14, 15)
  | qtailWrite (w lvl : Nat) (value : DWord)
  | qctlResume (w lvl : Nat)
  | qctlSkip (w lvl : Nat)
  | qctlClr (w lvl : Nat)
  | dqerrClear (w : Nat)
  | tlbinvGo (w : Nat)
  | tlbinvComplete (part : Nat)
  | pageFaultRecord (w : Nat)
  | fqans (w id : Nat) (all cancel : Bool)
  | fqctlEnClear (w : Nat)
  | fqctlClr (w : Nat)
  | trqGo (w kidx : Nat) (w64 : Bool) (resid : Nat) (safe : Bool)
  | trqExport (w kidx : Nat) (w64 : Bool) (resid : Nat) (safe : Bool)
  | dbgctlAccept (w : Nat)
  | dbgctlRevoke (w : Nat)
  | dbghaltGo (w : Nat)
  | dbghaltResume (w : Nat)
  | dbghaltStep (w : Nat)
  | dbgselGo (w : Nat)
  | breakpoint (g : Gid) (n : Nat)
  | watchpoint (g : Gid) (n : Nat) (addr : DWord)
  | stopRecord (w : Nat)
  | profcGo (w count : Nat)
  | profcClear (w : Nat)
  | replayInput (part : Nat) (x : ReplayIn)
  | registerWrite (fn : Tlp Fn) (off : Nat) (value : DWord)
  | currentLimiterFreeze (b : Nat) (issued : List (List Nat))
  -- containment (02)
  | bulkheadFencing (b reason : Nat)
  | hangDetection (b : Nat)
  | bulkheadFenced (b : Nat)
  | bulkheadResetComplete (b : Nat)
  -- management (02, 14, 15, 16)
  | partitionForm (fn : Fn) (bulks : List Nat) (owner : Nat)
  | partitionDissolve (fn : Fn) (part : Nat)
  | gate (fn : Fn) (part : Nat)
  | ungate (fn : Fn) (part : Nat)
  | fabricRoute (fn : Fn) (part peer : Nat) (entry : Word)
  | worldCreate (fn : Fn) (w frame : Nat) (conf : Bool) (areas : List LocalArea)
  | worldTeardown (fn : Fn) (w : Nat)
  | frameSet (fn : Fn) (slots : List Byte)
  | debugOffer (fn : Fn) (w : Nat)
  | debugOfferLapse (w : Nat)
  | debugRevoke (fn : Fn) (w : Nat)
  | replayEnable (fn : Fn)
  | resetMode (fn : Fn) (held : Bool)
  | bulkheadReset (fn : Fn) (b : Nat)
  | pageAssign (fn : Fn) (page count : Nat) (w : Option Nat) (allw sealed_ : Bool)
  | ownershipChange (page : Nat)
  | windowOfferLapse (offer : Nat)
  | windowCloseComplete (part slot : Nat)
  | hostAccessTimeout (id : Nat)
  | emberRead (fn : Fn) (b seq : Nat)
  | windowOffer (fn : Fn) (importer page count : Nat) (two : Bool)
  | windowAccept (fn : Fn) (offer : Nat)
  | windowClose (fn : Fn) (slot : Nat)
  -- evidence (14)
  | getVersion (w : Nat)
  | getCapabilities (w : Nat)
  | negotiateAlgorithms (w : Nat)
  | getDigests (w : Nat)
  | getCertificate (w slot off len : Nat)
  | challenge (w : Nat) (nonce : List Byte)
  | getMeasurements (w : Nat) (nonce : List Byte) (index : Nat)
  | keyExchange (w : Nat) (nonce : List Byte)
  | finish (w : Nat) (ok : Bool)
  | heartbeat (w : Nat)
  | keyUpdate (w : Nat)
  | endSession (w : Nat)
  | chunkSend (w : Nat) (bytes : List Byte) (last : Bool)
  | chunkGet (w seq : Nat)
  | unsupportedRequest (w code : Nat)
  -- TDISP, host link, fabric, boot, power (16)
  | lockInterface (w : Nat)
  | getDeviceInterfaceReport (w : Nat)
  | startInterface (w : Nat)
  | stopInterface (w : Nat)
  | ideIntegrityFailure (w : Nat)
  | apertureAccess (w : Tlp Nat) (off : Nat) (op : ApOp)
  | linkTraining (port peerPort peerPkg : Nat) (chain : List Byte) (proof : LinkProof)
  | flitReceive (port : Nat) (head : FlitHead) (crcOk : Bool) (body : FlitBody)
  | fabricRequest (port src dest part off : Nat) (op : FabOp)
  | portDown (port : Nat)
  | coldBoot (error : Nat)
  | thermalLimit (b temp : Nat)
  | hostReadCompletion (id : Nat) (st : HostStatus)
  | firmwareCommand (fn : Fn) (c : FwCmd)
  | junctionTemperatureRecovery (b : Nat)
deriving DecidableEq, Repr

end Sys2Proof
end

