-- ==== Sys2Proof/Config.lean ====
section
/-! DEFINITION. What the spec leaves to an implementation or leaves open: free values without a body, and the fixed figures of the
UB-B24A. Nothing can be proved of a free value; each is named in the assumption log. -/

namespace Sys2Proof.Config

/-! ### Free values (LOG 3): the first argument is `State.fresh`, the others tell the uses of one step apart. -/

/-- Bits of register `reg` in lane `lane` where R98 leaves them undefined. -/
opaque freeReg (n lane reg : Nat) : Word

/-- A choice the spec leaves open: which of two byte values (R21, R99), which of two translations (R64). -/
opaque freeBool (n k : Nat) : Bool

/-- A 64-bit value the spec leaves open. -/
opaque freeDWord (n k : Nat) : DWord

/-- How far a core performance counter (Table 15-4) that depends on the native schedule has moved since it was last read (R367). -/
opaque counter (n core k : Nat) : DWord

/-- The current limit that Oneveto sets a bulkhead from its rail budget, also while it is lowered (R369, R384). -/
opaque currentLimit (bulk : Nat) (lowered : Bool) : Nat

/-- How far count `word` of a loop record has moved since its last GO (R368). -/
opaque profileWord (n galley rec word : Nat) : DWord

/-- PCSTART, PCEND and BUNDLES of a loop record: what the proof table and the loop body of a galley fix (R368). -/
opaque loopShape (galley rec word : Nat) : Word

/-- Number of loop records of a galley (R368): one for each native loop, and one for the code outside loops. -/
opaque loopRecords (galley : Nat) : Nat

/-- BUNDLE and SCHED of a stop record (R364, Table 15-2). -/
opaque bundleOf (galley : Nat) (pc : Word) : Word
opaque schedOf (galley : Nat) (pc : Word) : Word

/-- Result of an elementary function whose rounding the model's enclosures did not decide (LOG 20). -/
opaque elemOpen (fn : Nat) (x : DWord) (rm : Nat) (h : Bool) : DWord

/-! ### Cryptography (LOG 21): signatures and certificates are functions of which only their use is modelled. -/

/-- ECDSA signature by the device key (R351). -/
opaque sign (m : List Byte) : List Byte

/-- ECDSA signature by the translator's key over a stamped galley (R332, R333): r and s. -/
opaque signGalley (m : List Byte) : List Byte

/-- The same in the 96 bytes of the header. -/
def galleySig (m : List Byte) : List Byte := (signGalley m ++ List.replicate 96 0).take 96

/-- Other signatures that the translator's key verifies. -/
opaque alsoSigned (sig m : List Byte) : Bool

/-- Does the translator's public key verify the signature over the bytes (R332)? -/
def verifies (sig m : List Byte) : Bool := sig = galleySig m || alsoSigned sig m

/-- The device identity chain of certificate slot 0 (R351). -/
opaque certChain : List Byte

/-- The registry entry of the one ExtAsym algorithm (R351). -/
opaque extAsym : List Byte

/-- Bytes of a message that one chunk carries (R351). -/
opaque spdmChunk : Nat

/-- What digest `i` of Table 14-4, 1 to 4, covers in a package that booted firmware of a version. -/
opaque bootImage (i firmware : Nat) : List Byte

/-- The nonce of a link training of this end, and the AES-256-GCM key that the two ends agree (R379). -/
opaque linkNonce (n : Nat) : List Byte
opaque linkKey (n : Nat) (chain : List Byte) : List Byte

/-- Does an identity chain end at the Urdety root whose hash the ROM holds; the device public key that it certifies; does that key verify a signature (R379)? -/
opaque chainRooted (chain : List Byte) : Bool
opaque chainKey (chain : List Byte) : List Byte
opaque keyVerifies (key sig m : List Byte) : Bool

/-- Body of a stamped galley (Table 13-3), for the bytes of its key and of what else tells galleys of one key apart. -/
opaque galleyBody (key : List Byte) : List Byte

/-! ### Fixed figures -/

/-- The configured package number (R379). -/
opaque packageNumber : Nat

/-- STEPPING of R326. -/
def stepping : Nat := 0x0B24A001

/-- TRVER of R326, measured at boot. -/
opaque trver : Nat

def bulkheads : Nat := 24
/-- HBM bytes of a bulkhead (R48). -/
def hbmBytes : Nat := 0x600000000
/-- Base of the slices (Table 01-1). -/
def sliceBase : Nat := 0x010000000000
/-- Bytes of one slice. -/
def sliceBytes : Nat := 0x200000
/-- Squares that blocks can have (R18). -/
def squares : Nat := 480
/-- Base of the fabric peer windows. -/
def peerBase : Nat := 0x020000000000
/-- End of the fabric peer windows, exclusive. -/
def peerEnd : Nat := 0x2020000000000
/-- Base of the host windows. -/
def hostBase : Nat := 0x8000000000000
/-- End of the physical space, exclusive. -/
def physEnd : Nat := 0x10000000000000
/-- Offset of a bulkhead's POT in its HBM (R65). -/
def potOffset : Nat := 0x5FE000000
/-- Bytes of HBM below the POT that hold the tag area of R120 and the context area of R324 in every bulkhead (LOG 22). -/
def tagContextBytes : Nat := 0x80000000
/-- Bytes of one world's local area in a bulkhead (R14). -/
def localAreaBytes : Nat := 0x60000000
/-- Edge gap in ns (R345). -/
def edgeGap : Nat := 160000
/-- Longest lease in ns (R35). -/
def leaseMax : Nat := 16384
/-- Outstanding host accesses fail after this many ns (R375). -/
def hostTimeout : Nat := 50000000

end Sys2Proof.Config
end

