-- ==== Sys2Proof/WellFormed.lean ====
section
/-! DEFINITION. The static rules of the program instructions (R179 to R183, and the static rule of each description), as the list of
reason codes of Table 07-8 that an instruction offends against, and well-formedness: no offence, and every field fits its place. -/

namespace Sys2Proof

/-- The bound on a register number of each class (R179). -/
def Cls.bound : Cls → Nat
  | .v => 65536
  | .s => 65536
  | .h => 8
  | .q => 16

/-- Reason 0x06 unless the class is allowed and the number in range; reason 0x07 unless the base is a multiple of `k` (R181). -/
def regRule (cs : List Cls) (k : Nat) (o : Opnd) : List Nat :=
  (if cs.contains o.cls && decide (o.n < o.cls.bound) then [] else [0x06]) ++ (if o.n % k = 0 then [] else [0x07])

/-- Reason `r` where `bad` holds. -/
def offence (r : Nat) (bad : Bool) : List Nat := if bad then [r] else []

/-- An operand of 32 bits (q allowed) or of 64 bits (a pair of v or s) in the integer, logic and move groups (R183, R205). -/
def dataRule (w : Bool) (o : Opnd) : List Nat := if w then regRule [.v, .s] 2 o else regRule [.v, .s, .q] 1 o

/-- An operand of type F32, where h is legal (R272). -/
def f32Rule (o : Opnd) : List Nat := regRule [.v, .s, .h, .q] 1 o

/-- An operand the instruction wants in class s: v is reason 0x09 where its rule says so (R238, R242, R253, R257), another class 0x06. -/
def sRule (k : Nat) (o : Opnd) : List Nat :=
  if o.cls = .v then [0x09] ++ (if o.n % k = 0 then [] else [0x07]) else regRule [.s] k o

/-- A destination that must be v: an s destination is reason 0x08 (R182, R235, R255). -/
def vDstRule (k : Nat) (o : Opnd) : List Nat :=
  if o.cls = .s then [0x08] ++ (if o.n % k = 0 then [] else [0x07]) else regRule [.v] k o

/-- R182: an s destination needs every source uniform. -/
def sDst (d : Opnd) (srcs : List Opnd) : List Nat :=
  offence 0x08 (d.cls = .s && !(srcs.all fun o => o.cls = .s))

/-- Width in bits of an integer type (Table 05-3). -/
def IT.bits : IT → Nat
  | .z32 | .s32 => 32
  | .z64 | .s64 => 64
  | .z8 | .s8 => 8
  | .z4 | .s4 => 4

def IT.signed : IT → Bool
  | .s32 | .s64 | .s8 | .s4 => true
  | _ => false

def IT.wide (t : IT) : Bool := t.bits = 64

/-- One of the four word types of R205. -/
def IT.word (t : IT) : Bool := t.bits = 32 || t.bits = 64

/-- The types of "all six" in Table 10-3. -/
def FT.six : FT → Bool
  | .f32 | .f16 | .bf16 | .f64 | .f16x2 | .bf16x2 => true
  | _ => false

/-- F32, F16, BF16 and F64. -/
def FT.four : FT → Bool
  | .f32 | .f16 | .bf16 | .f64 => true
  | _ => false

def FT.x2 : FT → Bool
  | .f16x2 | .bf16x2 => true
  | _ => false

/-- The operand rule of a float type: pairs for F64, h only for F32, q only where the operand is 32 bits wide (R267, R272). -/
def fRule (t : FT) (o : Opnd) : List Nat :=
  match t with
  | .f32 => f32Rule o
  | .f64 => regRule [.v, .s] 2 o
  | .f16x2 | .bf16x2 => regRule [.v, .s, .q] 1 o
  | _ => regRule [.v, .s] 1 o

/-- The same without h (conversions, R262, R267); `e8` says that the operand is an E8M0 scale. -/
def cvtRule (t : FT) (e8 : Bool) (o : Opnd) : List Nat :=
  match t with
  | .f64 => regRule [.v, .s] 2 o
  | .f32 | .f16x2 | .bf16x2 => regRule (if e8 then [.v, .s] else [.v, .s, .q]) 1 o
  | _ => regRule [.v, .s] 1 o

/-- The integer operand of a conversion: q only where it is 32 bits wide (R267). -/
def intRule (t : IT) (o : Opnd) : List Nat := if t.word then dataRule t.wide o else regRule [.v, .s] 1 o

def ShAmt.rule (w : Bool) : ShAmt → List Nat
  | .reg o => regRule [.v, .s, .q] 1 o
  | .imm n => offence 0x09 (decide ((if w then 64 else 32) ≤ n))

def ShAmt.srcs : ShAmt → List Opnd
  | .reg o => [o]
  | .imm _ => []

/-- A lane mask operand in the control group: v or s, a pair when W = 64 (R154, R206). -/
def maskRule (w64 : Bool) (o : Opnd) : List Nat := regRule [.v, .s] (if w64 then 2 else 1) o

/-- A member mask of the cross-lane group: class s (R253). -/
def memberRule (w64 : Bool) (o : Opnd) : List Nat := sRule (if w64 then 2 else 1) o

/-- Bytes moved by a lane (Table 09-1). -/
def Sz.bytes : Sz → Nat
  | .z8 | .s8 => 1
  | .z16 | .s16 => 2
  | .b32 => 4
  | .b64 => 8
  | .b128 => 16

/-- Registers that carry the data, and the alignment of their base (Table 09-1). -/
def Sz.regs : Sz → Nat
  | .b64 => 2
  | .b128 => 4
  | _ => 1

def Sz.signedLoad : Sz → Bool
  | .s8 | .s16 => true
  | _ => false

/-- The address operand of R233: a pair in global space. -/
def addrRule (sp : Space) (o : Opnd) : List Nat :=
  regRule [.v, .s] (if sp = .glob then 2 else 1) o

/-- The address operand of LDS, STS: class s (R238). -/
def sAddrRule (sp : Space) (o : Opnd) : List Nat := sRule (if sp = .glob then 2 else 1) o

/-- R80: plain without scope, every other order with one. -/
def ordRule (o : Order) (sc : Scope) : List Nat :=
  offence 0x04 (decide ((o = .plain) ≠ (sc = .none)))

def loadRule (a : Acc) : List Nat :=
  ordRule a.ord a.scope ++ offence 0x04 (a.nl && a.sp ≠ .glob) ++ offence 0x04 (a.a16 && a.sz ≠ .b128)

def storeRule (a : Acc) : List Nat :=
  ordRule a.ord a.scope ++ offence 0x04 (a.nl || a.sp = .par || a.sz.signedLoad) ++ offence 0x04 (a.a16 && a.sz ≠ .b128)

/-- R243, Table 03-2: atomics need an order, global or scratch space and no NL. -/
def atomRule (a : Acc) : List Nat :=
  ordRule a.ord a.scope ++
  offence 0x04 (a.ord = .plain || a.nl || a.sp = .loc || a.sp = .par || (a.sz ≠ .b32 && a.sz ≠ .b64))

def AtomFOp.size : AtomFOp → Sz
  | .addF64 => .b64
  | _ => .b32

/-- Kept elements per row image: K of Table 10-7. -/
def MT.k : MT → Nat
  | .f16 | .bf16 => 32
  | .e2m1 | .s4 => 128
  | _ => 64

/-- Registers of one row or column image of `n` elements. -/
def MT.regsOf (t : MT) (n : Nat) : Nat :=
  match t with
  | .f16 | .bf16 => n / 2
  | .e4m3 | .e5m2 | .s8 => n / 4
  | .e3m2 | .e2m3 => n * 6 / 32
  | .e2m1 | .s4 => n / 8

def MT.mxOk : MT → Bool
  | .e4m3 | .e5m2 | .e3m2 | .e2m3 | .e2m1 => true
  | _ => false

def MT.isInt : MT → Bool
  | .s8 | .s4 => true
  | _ => false

/-- The logical depth Kl of R286: K for MMA and MMAS, K × 128 / Z for MMASP. -/
def MT.depth (t : MT) (sparse k4 : Bool) : Nat :=
  if sparse then t.k * (if k4 then 4 else 2) else t.k

/-- Registers of the A fragment per lane (R282, R286): row data, masks, scales. -/
def aRegs (t : MT) (sparse k4 mx : Bool) : Nat :=
  let kl := t.depth sparse k4
  t.regsOf t.k + (if sparse then 4 * (kl / 128) else 0) +
  (if mx then (if sparse then (kl + 127) / 128 else 1) else 0)

/-- Columns of B that one lane holds (R282). -/
def bCols (w64 n64 : Bool) : Nat := if !w64 && n64 then 2 else 1

/-- Scale registers of one B column. -/
def bScaleRegs (t : MT) (sparse k4 mx : Bool) : Nat :=
  if mx then (if sparse then (t.depth sparse k4 + 127) / 128 else 1) else 0

def bRegs (w64 n64 : Bool) (t : MT) (sparse k4 mx : Bool) : Nat :=
  bCols w64 n64 * (t.regsOf (t.depth sparse k4) + bScaleRegs t sparse k4 mx)

/-- Do the register ranges [a, a + m) and [b, b + n) meet? -/
def meets (a m b n : Nat) : Bool := decide (a < b + n) && decide (b < a + m)

/-- The static rules of MMA, MMAS and MMASP (R279 to R286). -/
def matRule (w64 : Bool) (hd : Hdr) (ty : MT) (n64 mx : Bool) (ts : Option (Nat × Nat)) (sparse areg breg k4 : Bool)
    (d a b : Nat) : List Nat :=
  let nd := if n64 then 64 else 32
  let na := aRegs ty sparse k4 mx
  let nb := bRegs w64 n64 ty sparse k4 mx
  offence 0x06 (decide (65536 < d + nd) || (areg && decide (65536 < a + na)) || (breg && decide (65536 < b + nb))) ++
  offence 0x07 (d % 4 ≠ 0 || (if areg then a % 4 else a % 2) ≠ 0 || (if breg then b % 4 else b % 2) ≠ 0) ++
  offence 0x09 (hd.neg || hd.gp ≠ 0) ++
  offence 0x09 ((mx && !ty.mxOk) || (ts.isSome && ty.isInt)) ++
  offence 0x09 (sparse && ((ty.depth sparse k4) % 128 ≠ 0)) ++
  offence 0x09 ((areg && meets d nd a na) || (breg && meets d nd b nb) || (areg && breg && meets a na b nb))

/-- 32-bit words of a special register (Table 06-1, Table 12-2); masks have W bits. -/
def SReg.words (w64 : Bool) : SReg → Nat
  | .amask | .tmask => if w64 then 2 else 1
  | .time | .cycle | .taddr | .tinfo => 2
  | .tinst => 4
  | _ => 1

/-- Is the special register uniform (Table 06-1, Table 12-2, R140, R145)? -/
def SReg.uniform : SReg → Bool
  | .tidx | .tidy | .tidz | .lane | .fpst | .taddr => false
  | _ => true

/-- The reason codes of Table 07-8 (0x04 to 0x09) that a program instruction offends against, with W = 64 when `w64`.
Events have none. -/
def Instr.faults (w64 : Bool) : Instr → List Nat
  | .brx _ _ a => regRule [.v, .s] 1 a
  | .callx _ a => regRule [.v, .s] 1 a
  | .loop _ d _ => regRule [.v, .s] 1 d
  | .waitr _ _ a t => maskRule w64 a ++ (match t with | .imm _ => [] | .reg n => offence 0x06 (decide (65536 ≤ n)))
  | .sync _ a => maskRule w64 a
  | .tret hd _ => offence 0x09 (hd.neg || hd.gp ≠ 0)
  | .iadd _ t _ d a b | .isub _ t _ d a b | .imin _ t d a b | .imax _ t d a b | .imul _ t d a b | .imulh _ t d a b
  | .idiv _ t d a b | .irem _ t d a b =>
    offence 0x04 (!t.word) ++ dataRule t.wide d ++ dataRule t.wide a ++ dataRule t.wide b ++ sDst d [a, b]
  | .iaddc _ t ci pc d a b =>
    offence 0x04 (!t.word) ++ dataRule t.wide d ++ dataRule t.wide a ++ dataRule t.wide b ++ sDst d [a, b] ++
    offence 0x08 (d.cls = .s && ci && pc ≠ 0)
  | .ineg _ t sat d a =>
    offence 0x04 (!t.word) ++ dataRule t.wide d ++ dataRule t.wide a ++ sDst d [a] ++ offence 0x09 (sat && !t.signed)
  | .iabs _ t _ d a =>
    offence 0x04 (!(t.word && t.signed)) ++ dataRule t.wide d ++ dataRule t.wide a ++ sDst d [a]
  | .imad _ t d a b c | .isad _ t d a b c =>
    offence 0x04 (!t.word) ++ dataRule t.wide d ++ dataRule t.wide a ++ dataRule t.wide b ++ dataRule t.wide c ++
    sDst d [a, b, c]
  | .imadw _ t d a b c =>
    offence 0x04 (t.bits ≠ 32) ++ dataRule true d ++ dataRule false a ++ dataRule false b ++ dataRule true c ++
    sDst d [a, b, c]
  | .iscadd _ t d a b k =>
    offence 0x04 (!t.word) ++ dataRule t.wide d ++ dataRule t.wide a ++ dataRule t.wide b ++ sDst d [a, b] ++
    offence 0x09 (decide (t.bits ≤ k))
  | .idp4 _ _ _ d a b c =>
    dataRule false d ++ dataRule false a ++ dataRule false b ++ dataRule false c ++ sDst d [a, b, c]
  | .iaddi _ t _ d a _ | .imuli _ t d a _ =>
    offence 0x04 (!t.word) ++ dataRule t.wide d ++ dataRule t.wide a ++ sDst d [a]
  | .and _ w d a b | .or _ w d a b | .xor _ w d a b | .andn _ w d a b | .orn _ w d a b =>
    dataRule w d ++ dataRule w a ++ dataRule w b ++ sDst d [a, b]
  | .not _ w d a | .brev _ w d a => dataRule w d ++ dataRule w a ++ sDst d [a]
  | .shl _ w d a b | .shr _ w d a b | .sar _ w d a b | .rot _ w d a b =>
    dataRule w d ++ dataRule w a ++ b.rule w ++ sDst d (a :: b.srcs)
  | .fshl _ w d a b c =>
    dataRule w d ++ dataRule w a ++ dataRule w b ++ dataRule false c ++ sDst d [a, b, c]
  | .bfx _ t d a pos len =>
    offence 0x04 (!t.word) ++ dataRule t.wide d ++ dataRule t.wide a ++ dataRule false pos ++ dataRule false len ++
    sDst d [a, pos, len]
  | .bfi _ w d a b c =>
    dataRule w d ++ dataRule w a ++ dataRule w b ++ dataRule false c ++ sDst d [a, b, c]
  | .popc _ w d a | .clz _ w d a | .ctz _ w d a => dataRule false d ++ dataRule w a ++ sDst d [a]
  | .prmt _ d a b c => dataRule false d ++ dataRule false a ++ dataRule false b ++ dataRule false c ++ sDst d [a, b, c]
  | .icmp _ _ t _ a b => offence 0x04 (!t.word) ++ dataRule t.wide a ++ dataRule t.wide b
  | .pick _ w d a b pc =>
    dataRule w d ++ dataRule w a ++ dataRule w b ++ sDst d [a, b] ++ offence 0x08 (d.cls = .s && pc ≠ 0)
  | .lopi _ _ w d a _ => dataRule w d ++ dataRule w a ++ sDst d [a]
  | .mov _ w d a => dataRule w d ++ dataRule w a ++ sDst d [a]
  | .movi _ w d _ => dataRule w d
  | .movs _ d r => regRule [.v, .s] (r.words w64) d ++ offence 0x08 (d.cls = .s && !r.uniform)
  | .movp _ f =>
    match f with
    | .get d _ | .getAll d => if d.cls = .s then [0x08] else regRule [.v, .q] 1 d
    | .put _ a | .putAll a => regRule [.v, .s, .q] 1 a
  | .rdreg _ cl d a =>
    regRule [.v, .s] (if cl = .h then 2 else 1) d ++ regRule [.v, .s] 1 a ++ sDst d [a] ++
    offence 0x09 (d.cls = .s && !((cl = .s || cl = .sc) && a.cls = .s))
  | .wrreg _ cl a b =>
    regRule [.v, .s] 1 a ++ regRule [.v, .s] (if cl = .h then 2 else 1) b ++
    offence 0x09 ((cl = .s || cl = .sc) && !(a.cls = .s && b.cls = .s))
  | .cvtf _ dt sf _ de8 se8 rm d a =>
    offence 0x04 (dt.x2 != sf.x2) ++ offence 0x04 (de8 && dt ≠ .f32) ++ offence 0x04 (se8 && sf ≠ .f32) ++
    offence 0x04 (de8 && rm = .ro) ++ cvtRule dt de8 d ++ cvtRule sf se8 a ++ sDst d [a] ++ offence 0x09 (de8 && se8)
  | .cvtfi _ t sf _ d a => offence 0x04 sf.x2 ++ intRule t d ++ cvtRule sf false a ++ sDst d [a]
  | .cvtif _ dt t _ d a => offence 0x04 dt.x2 ++ cvtRule dt false d ++ intRule t a ++ sDst d [a]
  | .pack _ ew k d a b c =>
    dataRule false d ++ dataRule false a ++ dataRule false b ++ dataRule false c ++ sDst d [a, b, c] ++
    offence 0x09 (match ew with | .w4 => decide (3 < k) | .w6 | .w8 => decide (1 < k) | .w16 => decide (0 < k))
  | .unpack _ ew _ j d a =>
    dataRule false d ++ dataRule false a ++ sDst d [a] ++
    offence 0x09 (match ew with | .w4 => decide (7 < j) | .w6 | .w8 => decide (3 < j) | .w16 => decide (1 < j))
  | .rdmode _ fpst d => regRule [.v, .s] 1 d ++ offence 0x08 (fpst && d.cls = .s)
  | .wrmode _ fpst a => if fpst then regRule [.v, .s, .q] 1 a else if a.cls = .s || a.cls = .h then regRule [.s] 1 a else regRule [.v, .q] 1 a ++ [0x09]
  | .rdsc _ d _ => regRule [.v, .s] 1 d
  | .wrsc _ _ a => regRule [.s] 1 a
  | .addrg _ d _ => regRule [.v, .s] 2 d
  | .fadd _ ft rm d a b | .fsub _ ft rm d a b | .fmul _ ft rm d a b =>
    offence 0x04 (!ft.six || rm = .ro) ++ fRule ft d ++ fRule ft a ++ fRule ft b ++ sDst d [a, b]
  | .ffma _ ft rm d a b c =>
    offence 0x04 (!ft.six || rm = .ro) ++ fRule ft d ++ fRule ft a ++ fRule ft b ++ fRule ft c ++ sDst d [a, b, c]
  | .fmin _ ft d a b | .fmax _ ft d a b | .fminm _ ft d a b | .fmaxm _ ft d a b | .fcpys _ ft d a b =>
    offence 0x04 (!ft.six) ++ fRule ft d ++ fRule ft a ++ fRule ft b ++ sDst d [a, b]
  | .fabs _ ft d a | .fneg _ ft d a => offence 0x04 (!ft.six) ++ fRule ft d ++ fRule ft a ++ sDst d [a]
  | .fcmp _ _ ft _ a b => offence 0x04 (!ft.four) ++ fRule ft a ++ fRule ft b
  | .fclass _ ft d a => offence 0x04 (!ft.four) ++ regRule [.v, .s, .q] 1 d ++ fRule ft a ++ sDst d [a]
  | .frint _ ft rm _ d a => offence 0x04 (!ft.six || rm = .ro) ++ fRule ft d ++ fRule ft a ++ sDst d [a]
  | .fdiv _ ft rm d a b =>
    offence 0x04 (!(ft = .f32 || ft = .f64) || rm = .ro) ++ fRule ft d ++ fRule ft a ++ fRule ft b ++ sDst d [a, b]
  | .fsqrt _ ft rm d a =>
    offence 0x04 (!(ft = .f32 || ft = .f64) || rm = .ro) ++ fRule ft d ++ fRule ft a ++ sDst d [a]
  | .frcp _ rm d a | .frsq _ rm d a | .fex2 _ rm d a | .flg2 _ rm d a | .fsinp _ rm d a | .fcosp _ rm d a
  | .ftanh _ rm d a | .fsigm _ rm d a => offence 0x04 (rm = .ro) ++ f32Rule d ++ f32Rule a ++ sDst d [a]
  | .fscale _ ft rm d a b =>
    offence 0x04 (!ft.four || rm = .ro) ++ fRule ft d ++ fRule ft a ++ regRule [.v, .s, .q] 1 b ++ sDst d [a, b]
  | .fdot2 _ ft rm d a b c =>
    offence 0x04 (!ft.x2 || rm = .ro) ++ f32Rule d ++ regRule [.v, .s, .q] 1 a ++ regRule [.v, .s, .q] 1 b ++ f32Rule c ++
    sDst d [a, b, c]
  | .hmov _ ft rm _ d a =>
    offence 0x04 (!ft.four || rm = .ro) ++
    (if d.cls = .h then regRule [.h] 1 d else cvtRule ft false d) ++ (if a.cls = .h then regRule [.h] 1 a else cvtRule ft false a) ++
    offence 0x08 (d.cls = .s && a.cls ≠ .s) ++ offence 0x09 (d.cls ≠ .h && a.cls ≠ .h)
  | .shfl _ _ w d a b seg =>
    vDstRule (if w then 2 else 1) d ++ regRule [.v] (if w then 2 else 1) a ++ regRule [.v, .s] 1 b ++
    offence 0x09 (!([1, 2, 4, 8, 16, 32].contains seg || (w64 && seg = 64)))
  | .rdlane _ w d a b =>
    regRule [.v, .s] (if w then 2 else 1) d ++ regRule [.v] (if w then 2 else 1) a ++
    (match b with | .reg o => regRule [.s] 1 o | .imm _ => [])
  | .wrlane _ d a b => regRule [.v] 1 d ++ regRule [.s] 1 a ++ (match b with | .reg o => regRule [.s] 1 o | .imm _ => [])
  | .vote _ mode d _ m =>
    memberRule w64 m ++ (match mode, d with | .ballot, .reg o => maskRule w64 o | _, _ => [])
  | .matchl _ _ w d a m =>
    regRule [.v] (if w then 2 else 1) a ++ memberRule w64 m ++
    (match d with | .reg o => vDstRule (if w64 then 2 else 1) o | .pred _ => [])
  | .redux _ _ t d a m =>
    offence 0x04 (!t.word) ++ regRule [.v, .s] (if t.wide then 2 else 1) d ++
    regRule [.v, .s] (if t.wide then 2 else 1) a ++ memberRule w64 m
  | .fredux _ _ ft rm d a m =>
    offence 0x04 (!ft.four || rm = .ro) ++ regRule [.v, .s] (if ft = .f64 then 2 else 1) d ++
    regRule [.v] (if ft = .f64 then 2 else 1) a ++ memberRule w64 m
  | .scan _ _ t _ d a m =>
    offence 0x04 (!t.word) ++ vDstRule (if t.wide then 2 else 1) d ++ regRule [.v] (if t.wide then 2 else 1) a ++
    memberRule w64 m
  | .fscan _ _ ft rm _ d a m =>
    offence 0x04 (!ft.four || rm = .ro) ++ vDstRule (if ft = .f64 then 2 else 1) d ++
    regRule [.v] (if ft = .f64 then 2 else 1) a ++ memberRule w64 m
  | .elect _ d _ m => regRule [.v, .s] 1 d ++ memberRule w64 m
  | .regroup hd _ _ => offence 0x09 (hd.neg || hd.gp ≠ 0)
  | .ld _ acc _ d a => loadRule acc ++ vDstRule acc.sz.regs d ++ addrRule acc.sp a
  | .st _ acc _ d a => storeRule acc ++ regRule [.v, .s] acc.sz.regs d ++ addrRule acc.sp a
  | .lds _ acc _ d a => loadRule acc ++ vDstRule acc.sz.regs d ++ sAddrRule acc.sp a
  | .sts _ acc _ d a => storeRule acc ++ regRule [.v, .s] acc.sz.regs d ++ sAddrRule acc.sp a
  | .ldt _ _ _ d a => vDstRule 16 d ++ regRule [.s] 1 a
  | .stt _ _ _ d a => regRule [.v] 16 d ++ regRule [.s] 1 a
  | .put _ acc _ d a =>
    offence 0x04 (acc.sp ≠ .glob || acc.ord = .acqrel || acc.ord = .str || acc.nl || acc.sz.signedLoad || acc.a16) ++
    ordRule acc.ord acc.scope ++ regRule [.v, .s] acc.sz.regs d ++ addrRule .glob a
  | .pref _ _ _ a => addrRule .glob a
  | .lease _ _ _ d a => regRule [.v, .s] 1 d ++ addrRule .glob a
  | .szero _ _ _ d a => sRule 1 a ++ sRule 1 d
  | .atom _ acc _ d a b =>
    atomRule acc ++ vDstRule acc.sz.regs d ++ addrRule acc.sp a ++ regRule [.v] acc.sz.regs ⟨.v, b⟩
  | .atomf _ acc op d a b =>
    atomRule acc ++ offence 0x04 (acc.sz ≠ op.size) ++ vDstRule acc.sz.regs d ++ addrRule acc.sp a ++
    regRule [.v] acc.sz.regs ⟨.v, b⟩
  | .xchg _ acc d a b => atomRule acc ++ vDstRule acc.sz.regs d ++ addrRule acc.sp a ++ regRule [.v] acc.sz.regs ⟨.v, b⟩
  | .cas _ acc d a b =>
    atomRule acc ++ vDstRule acc.sz.regs d ++ addrRule acc.sp a ++ regRule [.v] (2 * acc.sz.regs) ⟨.v, b⟩
  | .red _ acc _ a b => atomRule acc ++ addrRule acc.sp a ++ regRule [.v] acc.sz.regs ⟨.v, b⟩
  | .redf _ acc op a b =>
    atomRule acc ++ offence 0x04 (acc.sz ≠ op.size) ++ addrRule acc.sp a ++ regRule [.v] acc.sz.regs ⟨.v, b⟩
  | .backoff _ d _ cap => regRule [.v, .s] 1 d ++ offence 0x09 (decide (16 < cap))
  | .fence _ _ ord sc => offence 0x04 (ord = .plain || ord = .rlx) ++ ordRule ord sc
  | .qstat _ d _ => regRule [.v, .s] 1 d
  | .semsig _ _ scr ord sc _ d a | .semwait _ _ scr ord sc _ d a =>
    offence 0x04 (ord = .plain) ++ ordRule ord sc ++ regRule [.v, .s] 2 d ++ addrRule (if scr then .scr else .glob) a
  | .mma hd ty n64 _ mx ts d a b => matRule w64 hd ty n64 mx ts false true true false d a b
  | .mmas hd ty n64 _ mx ts _ _ areg breg d a b =>
    matRule w64 hd ty n64 mx ts false areg breg false d a b ++ offence 0x09 (areg && breg)
  | .mmasp hd ty n64 _ mx ts _ _ areg breg k4 d a b => matRule w64 hd ty n64 mx ts true areg breg k4 d a b
  | .mzero hd n64 d =>
    offence 0x06 (decide (65536 < d + (if n64 then 64 else 32))) ++ offence 0x07 (d % 4 ≠ 0) ++
    offence 0x09 (hd.neg || hd.gp ≠ 0)
  | .mwait _ n => offence 0x09 (decide (8 < n))
  | .cpchain _ a => sRule 1 a
  | .cpwait _ n => offence 0x09 (decide (8 < n))
  | .cptest _ d _ => regRule [.v, .s] 1 d
  | .launch _ d a => regRule [.v, .s] 1 d ++ sRule 2 a
  | .gettime _ _ d => regRule [.v, .s] 2 d
  | .perfrd _ d _ => regRule [.v, .s] 2 d
  | .trace _ a _ => regRule [.v, .s] 1 a
  | _ => []

/-- Is the constructor a program instruction (07 to 10), issued by a group? -/
def Instr.isProgram : Instr → Bool
  | .waitrTimeout .. | .pauseEnd .. | .queueStallRelease .. | .semwaitRelease .. | .semwaitPoll .. | .matrixCompletion .. => false
  | .nop .. | .bra .. | .brx .. | .call .. | .callx .. | .ret .. | .loop .. | .exit .. | .waitr .. | .sync .. | .yield ..
  | .pause .. | .brk .. | .trap .. | .tret .. | .emul .. | .iadd .. | .isub .. | .iaddc .. | .ineg .. | .iabs .. | .imin ..
  | .imax .. | .imul .. | .imulh .. | .imad .. | .imadw .. | .idiv .. | .irem .. | .isad .. | .iscadd .. | .idp4 ..
  | .iaddi .. | .imuli .. | .and .. | .or .. | .xor .. | .andn .. | .orn .. | .not .. | .shl .. | .shr .. | .sar .. | .rot ..
  | .fshl .. | .bfx .. | .bfi .. | .popc .. | .clz .. | .ctz .. | .brev .. | .prmt .. | .icmp .. | .plut .. | .pick .. | .lopi ..
  | .mov .. | .movi .. | .movs .. | .movp .. | .rdreg .. | .wrreg .. | .cvtf .. | .cvtfi .. | .cvtif .. | .pack .. | .unpack ..
  | .rdmode .. | .wrmode .. | .rdsc .. | .wrsc .. | .addrg .. | .fadd .. | .fsub .. | .fmul .. | .ffma .. | .fmin .. | .fmax ..
  | .fminm .. | .fmaxm .. | .fabs .. | .fneg .. | .fcpys .. | .fcmp .. | .fclass .. | .frint .. | .fdiv .. | .fsqrt .. | .frcp ..
  | .frsq .. | .fscale .. | .fdot2 .. | .fex2 .. | .flg2 .. | .fsinp .. | .fcosp .. | .ftanh .. | .fsigm .. | .hmov .. | .shfl ..
  | .rdlane .. | .wrlane .. | .vote .. | .matchl .. | .redux .. | .fredux .. | .scan .. | .fscan .. | .elect .. | .regroup ..
  | .ld .. | .st .. | .lds .. | .sts .. | .ldt .. | .stt .. | .put .. | .pref .. | .lease .. | .szero .. | .atom .. | .atomf ..
  | .xchg .. | .cas .. | .red .. | .redf .. | .backoff .. | .fence .. | .bar .. | .bararr .. | .sstep .. | .sstarr .. | .sstwait ..
  | .qstat .. | .semsig .. | .semwait .. | .mma .. | .mmas .. | .mmasp .. | .mzero .. | .mwait .. | .mfence .. | .cpchain ..
  | .cpwait .. | .cptest .. | .launch .. | .gettime .. | .perfrd .. | .trace .. => true
  | _ => false

/-- Is the constructor a copy-chain entry (04)? -/
def Instr.isEntry : Instr → Bool
  | .chainCopy1d .. | .chainCopy2d .. | .chainGather .. | .chainScatter .. | .chainFill .. | .chainLoop .. | .ifsem ..
  | .chainSignal .. | .chainEnd => true
  | _ => false

/-- Is the constructor a queue command (11)? -/
def Instr.isCommand : Instr → Bool
  | .cmdLaunch .. | .cmdWait .. | .cmdSignal .. | .replace .. | .cmdFence | .cmdBarrier .. => true
  | _ => false

end Sys2Proof
end

