-- ==== Sys2Proof/Decode.lean ====
section
/-! DEFINITION. Decoder and encoder of program words (07, and the encoding tables of 08 to 10), copy-chain entries (Tables 04-1 to 04-3) and
queue commands (Tables 11-2, 11-3). A word is first split into fields; the opcode makes an instruction of them; the encoder gives
the word of that instruction back, and every bit in which the two words differ is a reserved bit that is set. -/

namespace Sys2Proof

/-! ### Bits -/

/-- Bits [lo + n - 1 : lo] of a number. -/
def field (w lo n : Nat) : Nat := w / 2 ^ lo % 2 ^ n

def bit (w i : Nat) : Bool := w / 2 ^ i % 2 = 1

def b2n (b : Bool) : Nat := if b then 1 else 0

/-- The value of `n` bits read as two's complement. -/
def signed (n v : Nat) : Int := if v % 2 ^ n < 2 ^ (n - 1) then (v % 2 ^ n : Nat) else (v % 2 ^ n : Nat) - (2 ^ n : Nat)

/-- Sign extension of the low `n` bits to `m` bits, as a bit vector. -/
def sext (n m v : Nat) : BitVec m := (BitVec.ofNat n v).signExtend m

/-- Little-endian bytes of a number (R5). -/
def toBytes : Nat → Nat → List Byte
  | 0, _ => []
  | n + 1, v => BitVec.ofNat 8 v :: toBytes n (v / 256)

/-- The number that little-endian bytes hold (R5). -/
def ofBytes : List Byte → Nat
  | [] => 0
  | b :: bs => b.toNat + 256 * ofBytes bs

/-! ### Codes -/

def Cls.code : Cls → Nat
  | .v => 0 | .s => 1 | .h => 2 | .q => 3
def Cls.ofCode : Nat → Cls
  | 0 => .v | 1 => .s | 2 => .h | _ => .q
def IT.code : IT → Nat
  | .z32 => 0 | .s32 => 1 | .z64 => 2 | .s64 => 3 | .z8 => 4 | .s8 => 5 | .z4 => 6 | .s4 => 7
def IT.ofCode : Nat → IT
  | 0 => .z32 | 1 => .s32 | 2 => .z64 | 3 => .s64 | 4 => .z8 | 5 => .s8 | 6 => .z4 | _ => .s4
def FT.code : FT → Nat
  | .f32 => 0 | .f16 => 1 | .bf16 => 2 | .f64 => 3 | .e4m3 => 4 | .e5m2 => 5 | .e3m2 => 6 | .e2m3 => 7 | .e2m1 => 8
  | .f16x2 => 9 | .bf16x2 => 10
def FT.ofCode : Nat → Option FT
  | 0 => some .f32 | 1 => some .f16 | 2 => some .bf16 | 3 => some .f64 | 4 => some .e4m3 | 5 => some .e5m2
  | 6 => some .e3m2 | 7 => some .e2m3 | 8 => some .e2m1 | 9 => some .f16x2 | 10 => some .bf16x2 | _ => none
def RM.code : RM → Nat
  | .dyn => 0 | .rne => 1 | .rz => 2 | .ru => 3 | .rd => 4 | .rna => 5 | .ro => 6
def RM.ofCode : Nat → Option RM
  | 0 => some .dyn | 1 => some .rne | 2 => some .rz | 3 => some .ru | 4 => some .rd | 5 => some .rna | 6 => some .ro
  | _ => none
/-- The two-bit rounding field of the float Q format without a prefix (R188). -/
def RM.code2 : RM → Nat
  | .rne => 1 | .rz => 2 | .rna => 3 | _ => 0
def RM.ofCode2 : Nat → RM
  | 1 => .rne | 2 => .rz | 3 => .rna | _ => .dyn
def Space.code : Space → Nat
  | .glob => 0 | .scr => 1 | .loc => 2 | .par => 3
def Space.ofCode : Nat → Space
  | 0 => .glob | 1 => .scr | 2 => .loc | _ => .par
def Sz.code : Sz → Nat
  | .z8 => 0 | .s8 => 1 | .z16 => 2 | .s16 => 3 | .b32 => 4 | .b64 => 5 | .b128 => 6
def Sz.ofCode : Nat → Option Sz
  | 0 => some .z8 | 1 => some .s8 | 2 => some .z16 | 3 => some .s16 | 4 => some .b32 | 5 => some .b64 | 6 => some .b128
  | _ => none
def Order.code : Order → Nat
  | .plain => 0 | .rlx => 1 | .acqrel => 2 | .str => 3
def Order.ofCode : Nat → Order
  | 0 => .plain | 1 => .rlx | 2 => .acqrel | _ => .str
def Scope.code : Scope → Nat
  | .none => 0 | .grp => 1 | .blk => 2 | .prt => 3 | .sys => 4
def Scope.ofCode : Nat → Option Scope
  | 0 => some .none | 1 => some .grp | 2 => some .blk | 3 => some .prt | 4 => some .sys | _ => none
def SReg.code : SReg → Nat
  | .tidx => 0 | .tidy => 1 | .tidz => 2 | .lane => 3 | .gwidth => 4 | .group => 5 | .blkx => 6 | .blky => 7 | .blkz => 8
  | .core => 9 | .bulkhead => 10 | .world => 11 | .amask => 12 | .time => 13 | .cycle => 14 | .fpm => 15 | .fpst => 16
  | .tcause => 17 | .tinst => 18 | .tmask => 19 | .tpc => 20 | .taddr => 21 | .tinfo => 22
def SReg.ofCode : Nat → Option SReg
  | 0 => some .tidx | 1 => some .tidy | 2 => some .tidz | 3 => some .lane | 4 => some .gwidth | 5 => some .group
  | 6 => some .blkx | 7 => some .blky | 8 => some .blkz | 9 => some .core | 10 => some .bulkhead | 11 => some .world
  | 12 => some .amask | 13 => some .time | 14 => some .cycle | 15 => some .fpm | 16 => some .fpst | 17 => some .tcause
  | 18 => some .tinst | 19 => some .tmask | 20 => some .tpc | 21 => some .taddr | 22 => some .tinfo | _ => none
def RegSel.code : RegSel → Nat
  | .v => 0 | .s => 1 | .h => 2 | .p => 3 | .sc => 4
def RegSel.ofCode : Nat → Option RegSel
  | 0 => some .v | 1 => some .s | 2 => some .h | 3 => some .p | 4 => some .sc | _ => none
def EW.code : EW → Nat
  | .w4 => 0 | .w6 => 1 | .w8 => 2 | .w16 => 3
def EW.ofCode : Nat → Option EW
  | 0 => some .w4 | 1 => some .w6 | 2 => some .w8 | 3 => some .w16 | _ => none
def ICmp.code : ICmp → Nat
  | .eq => 0 | .ne => 1 | .lt => 2 | .le => 3 | .gt => 4 | .ge => 5
def ICmp.ofCode : Nat → Option ICmp
  | 0 => some .eq | 1 => some .ne | 2 => some .lt | 3 => some .le | 4 => some .gt | 5 => some .ge | _ => none
def FCmp.code : FCmp → Nat
  | .eq => 0 | .ne => 1 | .lt => 2 | .le => 3 | .gt => 4 | .ge => 5 | .num => 6 | .nan => 7 | .equ => 8 | .neu => 9
  | .ltu => 10 | .leu => 11 | .gtu => 12 | .geu => 13
def FCmp.ofCode : Nat → Option FCmp
  | 0 => some .eq | 1 => some .ne | 2 => some .lt | 3 => some .le | 4 => some .gt | 5 => some .ge | 6 => some .num
  | 7 => some .nan | 8 => some .equ | 9 => some .neu | 10 => some .ltu | 11 => some .leu | 12 => some .gtu | 13 => some .geu
  | _ => none
def LOp.code : LOp → Nat
  | .and => 0 | .or => 1 | .xor => 2 | .andn => 3
def LOp.ofCode : Nat → LOp
  | 0 => .and | 1 => .or | 2 => .xor | _ => .andn
def ShMode.code : ShMode → Nat
  | .idx => 0 | .up => 1 | .down => 2 | .xor => 3
def ShMode.ofCode : Nat → ShMode
  | 0 => .idx | 1 => .up | 2 => .down | _ => .xor
def RedOp.code : RedOp → Nat
  | .add => 0 | .min => 1 | .max => 2 | .and => 3 | .or => 4 | .xor => 5
def RedOp.ofCode : Nat → Option RedOp
  | 0 => some .add | 1 => some .min | 2 => some .max | 3 => some .and | 4 => some .or | 5 => some .xor | _ => none
def FRedOp.code : FRedOp → Nat
  | .add => 0 | .min => 1 | .max => 2
def FRedOp.ofCode : Nat → Option FRedOp
  | 0 => some .add | 1 => some .min | 2 => some .max | _ => none
def AtomOp.code : AtomOp → Nat
  | .add => 0 | .minz => 1 | .maxz => 2 | .mins => 3 | .maxs => 4 | .and => 5 | .or => 6 | .xor => 7 | .inc => 8 | .dec => 9
def AtomOp.ofCode : Nat → Option AtomOp
  | 0 => some .add | 1 => some .minz | 2 => some .maxz | 3 => some .mins | 4 => some .maxs | 5 => some .and | 6 => some .or
  | 7 => some .xor | 8 => some .inc | 9 => some .dec | _ => none
def AtomFOp.code : AtomFOp → Nat
  | .addF32 => 0 | .addF16x2 => 1 | .addBF16x2 => 2 | .addF64 => 3 | .minF32 => 4 | .maxF32 => 5
def AtomFOp.ofCode : Nat → Option AtomFOp
  | 0 => some .addF32 | 1 => some .addF16x2 | 2 => some .addBF16x2 | 3 => some .addF64 | 4 => some .minF32
  | 5 => some .maxF32 | _ => none
def SigOp.code : SigOp → Nat
  | .add => 0 | .or => 1 | .set => 2
def SigOp.ofCode : Nat → Option SigOp
  | 0 => some .add | 1 => some .or | 2 => some .set | _ => none
def SemCmp.code : SemCmp → Nat
  | .eq => 0 | .ne => 1 | .ge => 2 | .gt => 3 | .le => 4 | .lt => 5 | .ges => 6 | .gts => 7 | .les => 8 | .lts => 9 | .all => 10
  | .any => 11
def SemCmp.ofCode : Nat → Option SemCmp
  | 0 => some .eq | 1 => some .ne | 2 => some .ge | 3 => some .gt | 4 => some .le | 5 => some .lt | 6 => some .ges
  | 7 => some .gts | 8 => some .les | 9 => some .lts | 10 => some .all | 11 => some .any | _ => none
def MT.code : MT → Nat
  | .f16 => 1 | .bf16 => 2 | .e4m3 => 4 | .e5m2 => 5 | .e3m2 => 6 | .e2m3 => 7 | .e2m1 => 8 | .s8 => 13 | .s4 => 15
def MT.ofCode : Nat → Option MT
  | 1 => some .f16 | 2 => some .bf16 | 4 => some .e4m3 | 5 => some .e5m2 | 6 => some .e3m2 | 7 => some .e2m3
  | 8 => some .e2m1 | 13 => some .s8 | 15 => some .s4 | _ => none

/-! ### Fields of a word and its prefix -/

/-- The body formats of Table 07-2; `X` is format R with X redefined (R192, R288), `T` is M in the atomic opcodes (R178). -/
inductive Fmt where | R | X | Q | I | M | T | L | B
deriving DecidableEq, Repr

/-- Table 07-6. -/
def fmtOf (op : Nat) : Option Fmt :=
  match op / 64 with
  | 0 => if op = 0 ∨ op = 3 ∨ op = 5 ∨ op = 6 ∨ op = 8 ∨ op = 10 ∨ op = 11 ∨ op = 14 then some .R
         else if op = 2 ∨ op = 4 then some .B
         else if op = 7 ∨ op = 9 ∨ op = 12 ∨ op = 13 ∨ op = 15 then some .I else none
  | 1 => if op = 0x49 ∨ op = 0x4A ∨ op = 0x4D ∨ op = 0x4E ∨ op = 0x4F then some .Q
         else if op = 0x50 ∨ op = 0x51 then some .I else if op ≤ 0x51 then some .R else none
  | 2 => if op = 0x8A ∨ op = 0x8B ∨ op = 0x8C ∨ op = 0x91 ∨ op = 0x94 then some .Q
         else if op = 0x95 then some .I else if op ≤ 0x95 then some .R else none
  | 3 => if op = 0xC1 then some .L else if op = 0xC9 then some .Q else if op = 0xCF then some .I
         else if op ≤ 0xCF then some .R else none
  | 4 => if op = 0x103 ∨ op = 0x113 then some .Q else if op ≤ 0x113 then some .R else none
  | 5 => if op ≤ 0x146 then some .R else none
  | 6 => if op = 0x180 then some .Q else if op ≤ 0x18A then some .R else none
  | 7 => if op ≤ 0x1C9 then some .M else none
  | 8 => if op ≤ 0x205 then some .T else if op = 0x206 then some .I else none
  | 9 => if op = 0x240 ∨ op = 0x247 ∨ op = 0x248 then some .M else if op = 0x241 ∨ op = 0x242 then some .I
         else if op ≤ 0x248 then some .R else none
  | 10 => if op ≤ 0x282 ∨ op = 0x285 then some .X else if op = 0x283 then some .I else if op = 0x284 then some .R else none
  | 11 => if op = 0x2C1 ∨ op = 0x2C6 then some .I else if op ≤ 0x2C6 then some .R else none
  | _ => none

/-- The fields that the formats name, prefix bits joined to them (R178, R184, R186). `imm` is the immediate, offset, displacement or
atomic selector as encoded; `x` is X[4:0], in format X all of X; `aux` is AUX where the opcode uses it, `rmx` IMM-hi[4:2]. -/
structure Flds where
  op : Nat
  hd : Hdr
  mod : Nat := 0
  d : Opnd := ⟨.v, 0⟩
  a : Opnd := ⟨.v, 0⟩
  b : Opnd := ⟨.v, 0⟩
  c : Opnd := ⟨.v, 0⟩
  x : Nat := 0
  imm : Nat := 0
  ordf : Nat := 0
  k : Nat := 0
  aux : Nat := 0
  rmx : Nat := 0
deriving DecidableEq, Repr

/-- The instruction word of the fields (Tables 07-1, 07-2). -/
def Flds.word (f : Flds) (fm : Fmt) : Nat :=
  f.op * 2 ^ 54 + (b2n f.hd.neg * 8 + f.hd.gp) * 2 ^ 50 + f.mod * 2 ^ 44 +
  match fm with
  | .R => f.d.n % 2048 * 2 ^ 33 + f.a.n % 2048 * 2 ^ 22 + f.b.n % 2048 * 2 ^ 11 +
          (f.d.cls.code * 512 + f.a.cls.code * 128 + f.b.cls.code * 32 + f.x)
  | .X => f.d.n % 2048 * 2 ^ 33 + f.a.n % 2048 * 2 ^ 22 + f.b.n % 2048 * 2 ^ 11 + f.x
  | .Q => f.d.n % 2048 * 2 ^ 33 + f.a.n % 2048 * 2 ^ 22 + f.b.n % 2048 * 2 ^ 11 + f.c.n % 2048
  | .I => f.d.n % 2048 * 2 ^ 33 + f.a.n % 2048 * 2 ^ 22 + f.imm % 2 ^ 22
  | .M => f.d.n % 2048 * 2 ^ 33 + f.a.n % 2048 * 2 ^ 22 + f.ordf * 2 ^ 16 + f.imm % 2 ^ 16
  | .T => f.d.n % 2048 * 2 ^ 33 + f.a.n % 2048 * 2 ^ 22 + f.ordf * 2 ^ 16 + f.imm * 2 ^ 11 + f.b.n % 2048
  | .L => f.d.n % 2048 * 2 ^ 33 + f.imm % 2 ^ 32
  | .B => f.k * 2 ^ 42 + f.imm

/-- The EXT word of the fields (Tables 07-3, 07-3A). -/
def Flds.extWord (f : Flds) (fm : Fmt) : Nat :=
  2 ^ 54 +
  match fm with
  | .R => f.d.n / 2048 * 2 ^ 45 + f.a.n / 2048 * 2 ^ 40 + f.b.n / 2048 * 2 ^ 35
  | .X => f.d.n / 2048 * 2 ^ 45 + f.a.n / 2048 * 2 ^ 40 + f.b.n / 2048 * 2 ^ 35 + f.aux * 2 ^ 24
  | .Q => f.d.n / 2048 * 2 ^ 45 + f.a.n / 2048 * 2 ^ 40 + f.b.n / 2048 * 2 ^ 35 + f.c.n / 2048 * 2 ^ 30 +
          (f.d.cls.code * 16 + f.a.cls.code * 4 + f.b.cls.code) * 2 ^ 24 + f.rmx * 4 + f.c.cls.code
  | .I => f.d.n / 2048 * 2 ^ 45 + f.a.n / 2048 * 2 ^ 40 + (f.d.cls.code * 16 + f.a.cls.code * 4) * 2 ^ 24 + f.imm / 2 ^ 22
  | .M => f.d.n / 2048 * 2 ^ 45 + f.a.n / 2048 * 2 ^ 40 + (f.d.cls.code * 16 + f.a.cls.code * 4 + f.aux) * 2 ^ 24 +
          f.imm / 2 ^ 16
  | .T => f.d.n / 2048 * 2 ^ 45 + f.a.n / 2048 * 2 ^ 40 + f.b.n / 2048 * 2 ^ 35 +
          (f.d.cls.code * 16 + f.a.cls.code * 4) * 2 ^ 24
  | .L => f.d.n / 2048 * 2 ^ 45 + f.d.cls.code * 16 * 2 ^ 24 + f.imm / 2 ^ 32
  | .B => 0

/-- A register field of the word with its high bits and its class. -/
def regField (w e lo ehi cls : Nat) : Opnd := ⟨Cls.ofCode cls, field w lo 11 + 2048 * field e ehi 5⟩

/-- Split a word and its prefix (0 when there is none) into fields. -/
def splitWord (fm : Fmt) (w : Nat) (pre : Option Nat) : Flds :=
  let e := pre.getD 0
  let hd : Hdr := ⟨bit w 53, field w 50 3, pre.isSome⟩
  let op := field w 54 10
  let mod := field w 44 6
  match fm with
  | .R => { op, hd, mod, d := regField w e 33 45 (field w 9 2), a := regField w e 22 40 (field w 7 2),
            b := regField w e 11 35 (field w 5 2), x := field w 0 5 }
  | .X => { op, hd, mod, d := regField w e 33 45 0, a := regField w e 22 40 0, b := regField w e 11 35 0, x := field w 0 11,
            aux := field e 24 6 }
  | .Q => { op, hd, mod, d := regField w e 33 45 (field e 28 2), a := regField w e 22 40 (field e 26 2),
            b := regField w e 11 35 (field e 24 2), c := regField w e 0 30 (field e 0 2), rmx := field e 2 3 }
  | .I => { op, hd, mod, d := regField w e 33 45 (field e 28 2), a := regField w e 22 40 (field e 26 2),
            imm := field w 0 22 + 2 ^ 22 * field e 0 10 }
  | .M => { op, hd, mod, d := regField w e 33 45 (field e 28 2), a := regField w e 22 40 (field e 26 2), ordf := field w 16 6,
            imm := field w 0 16 + 2 ^ 16 * field e 0 16, aux := field e 24 1 }
  | .T => { op, hd, mod, d := regField w e 33 45 (field e 28 2), a := regField w e 22 40 (field e 26 2), ordf := field w 16 6,
            imm := field w 11 5, b := regField w e 0 35 0 }
  | .L => { op, hd, mod, d := regField w e 33 45 (field e 28 2), imm := field w 0 32 + 2 ^ 32 * field e 0 24 }
  | .B => { op, hd, mod, k := field w 42 2, imm := field w 0 40 }

/-! ### The encoder -/

/-- The immediate of format I as encoded: 32 bits with a prefix, 22 without. -/
def encI (hd : Hdr) (imm : Word) : Nat := if hd.ext then imm.toNat else imm.toNat % 2 ^ 22

def encM (hd : Hdr) (off : Word) : Nat := if hd.ext then off.toNat else off.toNat % 2 ^ 16

def itMod (t : IT) (lo : Nat) : Nat := t.code * 4 + lo
def wMod (w : Bool) (lo : Nat) : Nat := (if w then 8 else 0) + lo
def ftMod (t : FT) (lo : Nat) : Nat := t.code * 4 + lo
def rmX (r : RM) (lo : Nat) : Nat := r.code * 4 + lo
def vn (n : Nat) : Opnd := ⟨.v, n⟩

def Acc.mod (a : Acc) : Nat := a.sz.code * 8 + a.sp.code * 2 + b2n a.col
def Acc.ordf (a : Acc) : Nat := a.ord.code * 16 + a.scope.code * 2 + b2n a.nl

/-- Fields of a float Q instruction: the rounding mode stands in MOD[45:44] without a prefix, in IMM-hi[4:2] with one (R188). -/
def fldsFQ (op : Nat) (hd : Hdr) (ft : FT) (rm : RM) (d a b c : Opnd) : Flds :=
  if hd.ext then { op, hd, mod := ftMod ft 0, d, a, b, c, rmx := rm.code }
  else { op, hd, mod := ftMod ft rm.code2, d, a, b, c }

def fldsSh (op : Nat) (hd : Hdr) (t : IT) (d a : Opnd) : ShAmt → Flds
  | .reg o => { op, hd, mod := itMod t 0, d, a, b := o }
  | .imm n => { op, hd, mod := itMod t 0, d, a, b := vn n, x := 16 }

def matX (acc n64 : Bool) (ts : Option (Nat × Nat)) : Nat :=
  b2n acc * 1024 + b2n n64 * 512 + match ts with | none => 0 | some (p, q) => 256 + p * 16 + q

def laneFld : LaneSel → Opnd × Nat
  | .reg o => (o, 0)
  | .imm n => (vn n, 16)

def vdst : VDst → Opnd
  | .reg o => o
  | .pred p => vn p

/-- The fields of a program instruction, from the encoding tables of 08 to 10. -/
def Instr.flds : Instr → Flds
  | .nop hd => { op := 0x000, hd }
  | .bra hd u disp => { op := 0x002, hd, k := b2n u, imm := disp.toNat }
  | .brx hd u a => { op := 0x003, hd, a, x := 16 * b2n u }
  | .call hd disp => { op := 0x004, hd, imm := disp.toNat }
  | .callx hd a => { op := 0x005, hd, a }
  | .ret hd => { op := 0x006, hd }
  | .loop hd d disp => { op := 0x007, hd, d, imm := encI hd disp }
  | .exit hd => { op := 0x008, hd }
  | .waitr hd pd a t =>
    match t with
    | .imm n => { op := 0x009, hd, mod := pd * 8, a, imm := n }
    | .reg r => { op := 0x009, hd, mod := pd * 8 + 4, a, d := vn r }
  | .sync hd a => { op := 0x00A, hd, a }
  | .yield hd => { op := 0x00B, hd }
  | .brk hd code => { op := 0x00C, hd, imm := code.toNat }
  | .trap hd code => { op := 0x00D, hd, imm := code.toNat }
  | .tret hd next => { op := 0x00E, hd, x := b2n next }
  | .pause hd n => { op := 0x00F, hd, imm := n }
  | .iadd hd t sat d a b => { op := 0x040, hd, mod := itMod t (b2n sat), d, a, b }
  | .isub hd t sat d a b => { op := 0x041, hd, mod := itMod t (b2n sat), d, a, b }
  | .iaddc hd t ci pc d a b => { op := 0x042, hd, mod := itMod t (2 * b2n ci), d, a, b, x := pc }
  | .ineg hd t sat d a => { op := 0x043, hd, mod := itMod t (b2n sat), d, a }
  | .iabs hd t sat d a => { op := 0x044, hd, mod := itMod t (b2n sat), d, a }
  | .imin hd t d a b => { op := 0x045, hd, mod := itMod t 0, d, a, b }
  | .imax hd t d a b => { op := 0x046, hd, mod := itMod t 0, d, a, b }
  | .imul hd t d a b => { op := 0x047, hd, mod := itMod t 0, d, a, b }
  | .imulh hd t d a b => { op := 0x048, hd, mod := itMod t 0, d, a, b }
  | .imad hd t d a b c => { op := 0x049, hd, mod := itMod t 0, d, a, b, c }
  | .imadw hd t d a b c => { op := 0x04A, hd, mod := itMod t 0, d, a, b, c }
  | .idiv hd t d a b => { op := 0x04B, hd, mod := itMod t 0, d, a, b }
  | .irem hd t d a b => { op := 0x04C, hd, mod := itMod t 0, d, a, b }
  | .isad hd t d a b c => { op := 0x04D, hd, mod := itMod t 0, d, a, b, c }
  | .iscadd hd t d a b k => { op := 0x04E, hd, mod := itMod t 0, d, a, b, c := vn k }
  | .idp4 hd sa bs d a b c => { op := 0x04F, hd, mod := (if sa then 20 else 16) + 2 * b2n bs, d, a, b, c }
  | .iaddi hd t sat d a imm => { op := 0x050, hd, mod := itMod t (b2n sat), d, a, imm := encI hd imm }
  | .imuli hd t d a imm => { op := 0x051, hd, mod := itMod t 0, d, a, imm := encI hd imm }
  | .and hd w d a b => { op := 0x080, hd, mod := wMod w 0, d, a, b }
  | .or hd w d a b => { op := 0x081, hd, mod := wMod w 0, d, a, b }
  | .xor hd w d a b => { op := 0x082, hd, mod := wMod w 0, d, a, b }
  | .andn hd w d a b => { op := 0x083, hd, mod := wMod w 0, d, a, b }
  | .orn hd w d a b => { op := 0x084, hd, mod := wMod w 0, d, a, b }
  | .not hd w d a => { op := 0x085, hd, mod := wMod w 0, d, a }
  | .shl hd w d a b => fldsSh 0x086 hd (if w then .z64 else .z32) d a b
  | .shr hd w d a b => fldsSh 0x087 hd (if w then .z64 else .z32) d a b
  | .sar hd w d a b => fldsSh 0x088 hd (if w then .s64 else .s32) d a b
  | .rot hd w d a b => fldsSh 0x089 hd (if w then .z64 else .z32) d a b
  | .fshl hd w d a b c => { op := 0x08A, hd, mod := wMod w 0, d, a, b, c }
  | .bfx hd t d a b c => { op := 0x08B, hd, mod := itMod t 0, d, a, b, c }
  | .bfi hd w d a b c => { op := 0x08C, hd, mod := wMod w 0, d, a, b, c }
  | .popc hd w d a => { op := 0x08D, hd, mod := wMod w 0, d, a }
  | .clz hd w d a => { op := 0x08E, hd, mod := wMod w 0, d, a }
  | .ctz hd w d a => { op := 0x08F, hd, mod := wMod w 0, d, a }
  | .brev hd w d a => { op := 0x090, hd, mod := wMod w 0, d, a }
  | .prmt hd d a b c => { op := 0x091, hd, d, a, b, c }
  | .icmp hd cmp t pd a b => { op := 0x092, hd, mod := itMod t 0, d := vn pd, a, b, x := cmp.code * 4 }
  | .plut hd pd pa pb lut => { op := 0x093, hd, d := vn pd, a := vn pa, b := vn pb, x := lut }
  | .pick hd w d a b pc => { op := 0x094, hd, mod := wMod w 0, d, a, b, c := vn pc }
  | .lopi hd op w d a imm => { op := 0x095, hd, mod := wMod w op.code, d, a, imm := encI hd imm }
  | .mov hd w d a => { op := 0x0C0, hd, mod := b2n w, d, a }
  | .movi hd w d imm =>
    { op := 0x0C1, hd, mod := b2n w, d, imm := if hd.ext && w then imm.toNat % 2 ^ 56 else imm.toNat % 2 ^ 32 }
  | .movs hd d r => { op := 0x0C2, hd, d, a := vn r.code }
  | .movp hd f =>
    match f with
    | .get d p => { op := 0x0C3, hd, mod := 0, d, a := vn p }
    | .put p a => { op := 0x0C3, hd, mod := 1, d := vn p, a }
    | .getAll d => { op := 0x0C3, hd, mod := 2, d }
    | .putAll a => { op := 0x0C3, hd, mod := 3, a }
  | .rdreg hd cl d a => { op := 0x0C4, hd, mod := cl.code, d, a }
  | .wrreg hd cl a b => { op := 0x0C5, hd, mod := cl.code, a, b }
  | .cvtf hd dt sf sat de8 se8 rm d a =>
    { op := 0x0C6, hd, mod := ftMod dt 0, d, a, b := vn (sf.code + 16 * b2n sat + 32 * b2n de8 + 64 * b2n se8), x := rmX rm 0 }
  | .cvtfi hd t sf rm d a => { op := 0x0C7, hd, mod := itMod t 0, d, a, b := vn sf.code, x := rmX rm 0 }
  | .cvtif hd dt t rm d a => { op := 0x0C8, hd, mod := ftMod dt 0, d, a, b := vn t.code, x := rmX rm 0 }
  | .pack hd ew k d a b c => { op := 0x0C9, hd, mod := ew.code * 8 + k, d, a, b, c }
  | .unpack hd ew sx j d a => { op := 0x0CA, hd, mod := ew.code * 8 + 2 * b2n sx, d, a, b := vn j }
  | .rdmode hd fpst d => { op := 0x0CB, hd, mod := b2n fpst, d }
  | .wrmode hd fpst a => { op := 0x0CC, hd, mod := b2n fpst, a }
  | .rdsc hd d sc => { op := 0x0CD, hd, d, a := vn sc }
  | .wrsc hd sc a => { op := 0x0CE, hd, d := vn sc, a }
  | .addrg hd d imm => { op := 0x0CF, hd, d, imm := imm.toNat }
  | .fadd hd ft rm d a b => { op := 0x100, hd, mod := ftMod ft 0, d, a, b, x := rmX rm 0 }
  | .fsub hd ft rm d a b => { op := 0x101, hd, mod := ftMod ft 0, d, a, b, x := rmX rm 0 }
  | .fmul hd ft rm d a b => { op := 0x102, hd, mod := ftMod ft 0, d, a, b, x := rmX rm 0 }
  | .ffma hd ft rm d a b c => fldsFQ 0x103 hd ft rm d a b c
  | .fmin hd ft d a b => { op := 0x104, hd, mod := ftMod ft 0, d, a, b }
  | .fmax hd ft d a b => { op := 0x105, hd, mod := ftMod ft 0, d, a, b }
  | .fminm hd ft d a b => { op := 0x106, hd, mod := ftMod ft 0, d, a, b }
  | .fmaxm hd ft d a b => { op := 0x107, hd, mod := ftMod ft 0, d, a, b }
  | .fabs hd ft d a => { op := 0x108, hd, mod := ftMod ft 0, d, a }
  | .fneg hd ft d a => { op := 0x109, hd, mod := ftMod ft 0, d, a }
  | .fcpys hd ft d a b => { op := 0x10A, hd, mod := ftMod ft 0, d, a, b }
  | .fcmp hd cmp ft pd a b => { op := 0x10B, hd, mod := ftMod ft (cmp.code / 4), d := vn pd, a, b, x := cmp.code % 4 }
  | .fclass hd ft d a => { op := 0x10C, hd, mod := ftMod ft 0, d, a }
  | .frint hd ft rm exact d a => { op := 0x10D, hd, mod := ftMod ft 0, d, a, x := rmX rm (b2n exact) }
  | .fdiv hd ft rm d a b => { op := 0x10E, hd, mod := ftMod ft 0, d, a, b, x := rmX rm 0 }
  | .fsqrt hd ft rm d a => { op := 0x10F, hd, mod := ftMod ft 0, d, a, x := rmX rm 0 }
  | .frcp hd rm d a => { op := 0x110, hd, d, a, x := rmX rm 0 }
  | .frsq hd rm d a => { op := 0x111, hd, d, a, x := rmX rm 0 }
  | .fscale hd ft rm d a b => { op := 0x112, hd, mod := ftMod ft 0, d, a, b, x := rmX rm 0 }
  | .fdot2 hd ft rm d a b c => fldsFQ 0x113 hd ft rm d a b c
  | .fex2 hd rm d a => { op := 0x140, hd, d, a, x := rmX rm 0 }
  | .flg2 hd rm d a => { op := 0x141, hd, d, a, x := rmX rm 0 }
  | .fsinp hd rm d a => { op := 0x142, hd, d, a, x := rmX rm 0 }
  | .fcosp hd rm d a => { op := 0x143, hd, d, a, x := rmX rm 0 }
  | .ftanh hd rm d a => { op := 0x144, hd, d, a, x := rmX rm 0 }
  | .fsigm hd rm d a => { op := 0x145, hd, d, a, x := rmX rm 0 }
  | .hmov hd ft rm sat d a => { op := 0x146, hd, mod := ftMod ft 0, d, a, x := rmX rm (b2n sat) }
  | .shfl hd mode w d a b seg => { op := 0x180, hd, mod := 4 * b2n w + mode.code, d, a, b, c := vn seg }
  | .rdlane hd w d a b => { op := 0x181, hd, mod := 4 * b2n w, d, a, b := (laneFld b).1, x := (laneFld b).2 }
  | .wrlane hd d a b => { op := 0x182, hd, d, a, b := (laneFld b).1, x := (laneFld b).2 }
  | .vote hd mode d pa m =>
    { op := 0x183, hd, mod := match mode with | .ballot => 0 | .any => 1 | .all => 2, d := vdst d, a := vn pa, b := m }
  | .matchl hd all w d a m => { op := 0x184, hd, mod := 4 * b2n w + b2n all, d := vdst d, a, b := m }
  | .redux hd op t d a m => { op := 0x185, hd, mod := itMod t 0, d, a, b := m, x := op.code * 4 }
  | .fredux hd op ft rm d a m => { op := 0x186, hd, mod := ftMod ft op.code, d, a, b := m, x := rmX rm 0 }
  | .scan hd op t excl d a m => { op := 0x187, hd, mod := itMod t 0, d, a, b := m, x := op.code * 4 + 2 * b2n excl }
  | .fscan hd op ft rm excl d a m => { op := 0x188, hd, mod := ftMod ft op.code, d, a, b := m, x := rmX rm (2 * b2n excl) }
  | .regroup hd blk pd => { op := 0x189, hd, d := vn pd, x := b2n blk }
  | .elect hd d pd m => { op := 0x18A, hd, d, a := vn pd, b := m }
  | .ld hd acc off d a => { op := 0x1C0, hd, mod := acc.mod, d, a, ordf := acc.ordf, imm := encM hd off, aux := b2n acc.a16 }
  | .st hd acc off d a => { op := 0x1C1, hd, mod := acc.mod, d, a, ordf := acc.ordf, imm := encM hd off, aux := b2n acc.a16 }
  | .lds hd acc off d a => { op := 0x1C2, hd, mod := acc.mod, d, a, ordf := acc.ordf, imm := encM hd off, aux := b2n acc.a16 }
  | .sts hd acc off d a => { op := 0x1C3, hd, mod := acc.mod, d, a, ordf := acc.ordf, imm := encM hd off, aux := b2n acc.a16 }
  | .ldt hd col off d a => { op := 0x1C4, hd, mod := 34 + b2n col, d, a, imm := encM hd off }
  | .stt hd col off d a => { op := 0x1C5, hd, mod := 34 + b2n col, d, a, imm := encM hd off }
  | .put hd acc off d a => { op := 0x1C6, hd, mod := acc.mod, d, a, ordf := acc.ordf, imm := encM hd off }
  | .pref hd col off a => { op := 0x1C7, hd, mod := b2n col, a, imm := encM hd off }
  | .lease hd col off d a => { op := 0x1C8, hd, mod := b2n col, d, a, imm := encM hd off }
  | .szero hd col off d a => { op := 0x1C9, hd, mod := 34 + b2n col, d, a, imm := encM hd off }
  | .atom hd acc op d a b => { op := 0x200, hd, mod := acc.mod, d, a, b := vn b, ordf := acc.ordf, imm := op.code }
  | .atomf hd acc op d a b => { op := 0x201, hd, mod := acc.mod, d, a, b := vn b, ordf := acc.ordf, imm := op.code }
  | .xchg hd acc d a b => { op := 0x202, hd, mod := acc.mod, d, a, b := vn b, ordf := acc.ordf }
  | .cas hd acc d a b => { op := 0x203, hd, mod := acc.mod, d, a, b := vn b, ordf := acc.ordf }
  | .red hd acc op a b => { op := 0x204, hd, mod := acc.mod, a, b := vn b, ordf := acc.ordf, imm := op.code }
  | .redf hd acc op a b => { op := 0x205, hd, mod := acc.mod, a, b := vn b, ordf := acc.ordf, imm := op.code }
  | .backoff hd d base cap => { op := 0x206, hd, d, imm := base + cap * 2048 }
  | .fence hd async ord sc => { op := 0x240, hd, mod := 32 * b2n async, ordf := ord.code * 16 + sc.code * 2 }
  | .bar hd id count => { op := 0x241, hd, imm := id + count * 256 }
  | .bararr hd id count => { op := 0x242, hd, imm := id + count * 256 }
  | .sstep hd => { op := 0x243, hd }
  | .sstarr hd => { op := 0x244, hd }
  | .sstwait hd => { op := 0x245, hd }
  | .qstat hd d q => { op := 0x246, hd, d, a := vn q }
  | .semsig hd op scr ord sc off d a =>
    { op := 0x247, hd, mod := op.code * 4 + 2 * b2n scr, d, a, ordf := ord.code * 16 + sc.code * 2, imm := encM hd off }
  | .semwait hd cmp scr ord sc off d a =>
    { op := 0x248, hd, mod := cmp.code * 4 + 2 * b2n scr, d, a, ordf := ord.code * 16 + sc.code * 2, imm := encM hd off }
  | .mma hd ty n64 acc mx ts d a b =>
    { op := 0x280, hd, mod := ty.code * 4 + b2n mx, d := vn d, a := vn a, b := vn b, x := matX acc n64 ts }
  | .mmas hd ty n64 acc mx ts acol bcol areg breg d a b =>
    { op := 0x281, hd, mod := ty.code * 4 + 2 * b2n acol + b2n bcol, d := vn d, a := vn a, b := vn b, x := matX acc n64 ts,
      aux := 8 * b2n areg + 4 * b2n breg + b2n mx }
  | .mmasp hd ty n64 acc mx ts acol bcol areg breg k4 d a b =>
    { op := 0x282, hd, mod := ty.code * 4 + 2 * b2n acol + b2n bcol, d := vn d, a := vn a, b := vn b, x := matX acc n64 ts,
      aux := 16 * b2n k4 + 8 * b2n areg + 4 * b2n breg + b2n mx }
  | .mwait hd n => { op := 0x283, hd, imm := n }
  | .mfence hd => { op := 0x284, hd }
  | .mzero hd n64 d => { op := 0x285, hd, d := vn d, x := 512 * b2n n64 }
  | .cpchain hd a => { op := 0x2C0, hd, a }
  | .cpwait hd n => { op := 0x2C1, hd, imm := n }
  | .cptest hd d pd => { op := 0x2C2, hd, d, a := vn pd }
  | .launch hd d a => { op := 0x2C3, hd, d, a }
  | .gettime hd ord d => { op := 0x2C4, hd, d, x := b2n ord }
  | .perfrd hd d k => { op := 0x2C5, hd, d, a := vn k }
  | .trace hd a code => { op := 0x2C6, hd, a, imm := code }
  | _ => { op := 0x3FF, hd := ⟨false, 0, false⟩ }

/-- The words of a program instruction: its word, and its EXT prefix when it has one; none for events. -/
def encode (i : Instr) : Option (Nat × Option Nat) :=
  match i with
  | .emul hd op body pre =>
    some ((0x300 + op) * 2 ^ 54 + (b2n hd.neg * 8 + hd.gp) * 2 ^ 50 + body, if hd.ext then some (2 ^ 54 + pre) else none)
  | i =>
    if i.isProgram then
      match fmtOf i.flds.op with
      | some fm => some (i.flds.word fm, if i.flds.hd.ext then some (i.flds.extWord fm) else none)
      | none => none
    else none

/-- The fields that a word without prefix cannot hold (R180, R184). -/
def Flds.needsExt (f : Flds) (fm : Fmt) : Bool :=
  f.extWord fm ≠ 2 ^ 54

/-! ### The decoder -/

/-- What an opcode makes of the fields: an instruction, the bits of the word that hold a reserved code, and the bits of the prefix that do
(reason 0x04 of Table 07-8). -/
structure Cand where
  i : Instr
  bad : Nat := 0
  badX : Nat := 0

/-- Bits [lo + n - 1 : lo] set when the code there is reserved. -/
def badBits (isBad : Bool) (lo n : Nat) : Nat := if isBad then (2 ^ n - 1) * 2 ^ lo else 0

def Flds.it (f : Flds) : IT := IT.ofCode (f.mod / 4 % 8)
def Flds.lo (f : Flds) : Nat := f.mod % 4
/-- Z32 or Z64 in the logic group; another IT is a reserved value (R205). -/
def Flds.wide (f : Flds) : Bool := f.mod / 4 % 8 = 2
def Flds.badW (f : Flds) : Nat := badBits (f.mod / 4 % 8 ≠ 0 && f.mod / 4 % 8 ≠ 2) 46 3
def Flds.ft (f : Flds) : FT := (FT.ofCode (f.mod / 4)).getD .f32
def Flds.badFT (f : Flds) : Nat := badBits (FT.ofCode (f.mod / 4)).isNone 46 4
def Flds.rm (f : Flds) : RM := (RM.ofCode (f.x / 4)).getD .dyn
def Flds.badRM (f : Flds) : Nat := badBits (RM.ofCode (f.x / 4)).isNone 2 3
def Flds.rmQ (f : Flds) : RM := if f.hd.ext then (RM.ofCode f.rmx).getD .dyn else RM.ofCode2 f.lo
def Flds.badRMQ (f : Flds) : Nat := if f.hd.ext then badBits (RM.ofCode f.rmx).isNone 2 3 else 0
def Flds.num (o : Opnd) (n : Nat) : Nat := o.n % n
def Flds.immI (f : Flds) : Word := if f.hd.ext then BitVec.ofNat 32 f.imm else sext 22 32 f.imm
def Flds.offM (f : Flds) : Word := if f.hd.ext then BitVec.ofNat 32 f.imm else sext 16 32 f.imm
def Flds.acc (f : Flds) : Acc :=
  ⟨Space.ofCode (f.mod / 2 % 4), (Sz.ofCode (f.mod / 8)).getD .z8, f.mod % 2 = 1, Order.ofCode (f.ordf / 16 % 4),
   (Scope.ofCode (f.ordf / 2 % 8)).getD .none, f.ordf % 2 = 1, f.aux % 2 = 1⟩
def Flds.badScope (f : Flds) : Nat := badBits (Scope.ofCode (f.ordf / 2 % 8)).isNone 17 3
def Flds.badAcc (f : Flds) : Nat := badBits (Sz.ofCode (f.mod / 8)).isNone 47 3 + f.badScope
/-- LDT, STT, SZERO, PREF and LEASE fix SZ, SP and ORD; another value is reason 0x04 (R236). -/
def Flds.badFixed (f : Flds) (sz sp : Nat) : Nat :=
  badBits (f.mod / 8 ≠ sz) 47 3 + badBits (f.mod / 2 % 4 ≠ sp) 45 2 + badBits (f.ordf ≠ 0) 16 6
def Flds.ts (f : Flds) : Option (Nat × Nat) := if f.x / 256 % 2 = 1 then some (f.x / 16 % 16, f.x % 16) else none
def Flds.laneSel (f : Flds) : LaneSel := if f.x / 16 % 2 = 1 then .imm (f.b.n % 64) else .reg f.b
def Flds.shAmt (f : Flds) : ShAmt := if f.x / 16 % 2 = 1 then .imm (f.b.n % 64) else .reg f.b

def Flds.candControl (f : Flds) : Cand :=
  match f.op with
  | 0x002 => ⟨.bra f.hd (f.k = 1) (BitVec.ofNat 40 f.imm), badBits (1 < f.k) 42 2, 0⟩
  | 0x003 => ⟨.brx f.hd (f.x / 16 % 2 = 1) f.a, 0, 0⟩
  | 0x004 => ⟨.call f.hd (BitVec.ofNat 40 f.imm), badBits (0 < f.k) 42 2, 0⟩
  | 0x005 => ⟨.callx f.hd f.a, 0, 0⟩
  | 0x006 => ⟨.ret f.hd, 0, 0⟩
  | 0x007 => ⟨.loop f.hd f.d f.immI, 0, 0⟩
  | 0x008 => ⟨.exit f.hd, 0, 0⟩
  | 0x009 => ⟨.waitr f.hd (f.mod / 8) f.a (if f.mod / 4 % 2 = 1 then .reg f.d.n else .imm f.imm), 0, 0⟩
  | 0x00A => ⟨.sync f.hd f.a, 0, 0⟩
  | 0x00B => ⟨.yield f.hd, 0, 0⟩
  | 0x00C => ⟨.brk f.hd (BitVec.ofNat 32 f.imm), 0, 0⟩
  | 0x00D => ⟨.trap f.hd (BitVec.ofNat 32 f.imm), 0, 0⟩
  | 0x00E => ⟨.tret f.hd (f.x % 2 = 1), 0, 0⟩
  | 0x00F => ⟨.pause f.hd f.imm, 0, 0⟩
  | _ => ⟨.nop f.hd, 0, 0⟩

def Flds.candInteger (f : Flds) : Cand :=
  let sat := f.lo % 2 = 1
  match f.op with
  | 0x040 => ⟨.iadd f.hd f.it sat f.d f.a f.b, 0, 0⟩
  | 0x041 => ⟨.isub f.hd f.it sat f.d f.a f.b, 0, 0⟩
  | 0x042 => ⟨.iaddc f.hd f.it (f.lo / 2 = 1) (f.x % 8) f.d f.a f.b, 0, 0⟩
  | 0x043 => ⟨.ineg f.hd f.it sat f.d f.a, 0, 0⟩
  | 0x044 => ⟨.iabs f.hd f.it sat f.d f.a, 0, 0⟩
  | 0x045 => ⟨.imin f.hd f.it f.d f.a f.b, 0, 0⟩
  | 0x046 => ⟨.imax f.hd f.it f.d f.a f.b, 0, 0⟩
  | 0x047 => ⟨.imul f.hd f.it f.d f.a f.b, 0, 0⟩
  | 0x048 => ⟨.imulh f.hd f.it f.d f.a f.b, 0, 0⟩
  | 0x049 => ⟨.imad f.hd f.it f.d f.a f.b f.c, 0, 0⟩
  | 0x04A => ⟨.imadw f.hd f.it f.d f.a f.b f.c, 0, 0⟩
  | 0x04B => ⟨.idiv f.hd f.it f.d f.a f.b, 0, 0⟩
  | 0x04C => ⟨.irem f.hd f.it f.d f.a f.b, 0, 0⟩
  | 0x04D => ⟨.isad f.hd f.it f.d f.a f.b f.c, 0, 0⟩
  | 0x04E => ⟨.iscadd f.hd f.it f.d f.a f.b (f.c.n % 64), 0, 0⟩
  | 0x04F => ⟨.idp4 f.hd (f.mod / 4 % 8 = 5) (f.lo / 2 = 1) f.d f.a f.b f.c, badBits (f.mod / 8 % 4 ≠ 2) 46 3, 0⟩
  | 0x050 => ⟨.iaddi f.hd f.it sat f.d f.a f.immI, 0, 0⟩
  | _ => ⟨.imuli f.hd f.it f.d f.a f.immI, 0, 0⟩

def Flds.candLogic (f : Flds) : Cand :=
  let w := f.wide
  match f.op with
  | 0x080 => ⟨.and f.hd w f.d f.a f.b, f.badW, 0⟩
  | 0x081 => ⟨.or f.hd w f.d f.a f.b, f.badW, 0⟩
  | 0x082 => ⟨.xor f.hd w f.d f.a f.b, f.badW, 0⟩
  | 0x083 => ⟨.andn f.hd w f.d f.a f.b, f.badW, 0⟩
  | 0x084 => ⟨.orn f.hd w f.d f.a f.b, f.badW, 0⟩
  | 0x085 => ⟨.not f.hd w f.d f.a, f.badW, 0⟩
  | 0x086 => ⟨.shl f.hd w f.d f.a f.shAmt, f.badW, 0⟩
  | 0x087 => ⟨.shr f.hd w f.d f.a f.shAmt, f.badW, 0⟩
  | 0x088 => ⟨.sar f.hd (f.mod / 4 % 8 = 3) f.d f.a f.shAmt, badBits (f.mod / 4 % 8 ≠ 1 && f.mod / 4 % 8 ≠ 3) 46 3, 0⟩
  | 0x089 => ⟨.rot f.hd w f.d f.a f.shAmt, f.badW, 0⟩
  | 0x08A => ⟨.fshl f.hd w f.d f.a f.b f.c, f.badW, 0⟩
  | 0x08B => ⟨.bfx f.hd f.it f.d f.a f.b f.c, 0, 0⟩
  | 0x08C => ⟨.bfi f.hd w f.d f.a f.b f.c, f.badW, 0⟩
  | 0x08D => ⟨.popc f.hd w f.d f.a, f.badW, 0⟩
  | 0x08E => ⟨.clz f.hd w f.d f.a, f.badW, 0⟩
  | 0x08F => ⟨.ctz f.hd w f.d f.a, f.badW, 0⟩
  | 0x090 => ⟨.brev f.hd w f.d f.a, f.badW, 0⟩
  | 0x091 => ⟨.prmt f.hd f.d f.a f.b f.c, badBits (f.mod / 4 % 8 ≠ 0) 46 3, 0⟩
  | 0x092 => ⟨.icmp f.hd ((ICmp.ofCode (f.x / 4)).getD .eq) f.it (f.d.n % 8) f.a f.b, badBits (ICmp.ofCode (f.x / 4)).isNone 2 3, 0⟩
  | 0x093 => ⟨.plut f.hd (f.d.n % 8) (f.a.n % 8) (f.b.n % 8) (f.x % 16), 0, 0⟩
  | 0x094 => ⟨.pick f.hd w f.d f.a f.b (f.c.n % 8), f.badW, 0⟩
  | _ => ⟨.lopi f.hd (LOp.ofCode f.lo) w f.d f.a f.immI, f.badW, 0⟩

def Flds.movpForm (f : Flds) : MovpForm :=
  match f.lo with
  | 0 => .get f.d (f.a.n % 8)
  | 1 => .put (f.d.n % 8) f.a
  | 2 => .getAll f.d
  | _ => .putAll f.a

/-- The immediate of MOVI (R263): 32 bits zero-extended, or with .B64 and a prefix 56 bits sign-extended. -/
def Flds.immL (f : Flds) : DWord :=
  if f.hd.ext && f.mod % 2 = 1 then sext 56 64 f.imm else BitVec.ofNat 64 (f.imm % 2 ^ 32)

def Flds.candMove (f : Flds) : Cand :=
  let b64 := f.mod % 2 = 1
  match f.op with
  | 0x0C0 => ⟨.mov f.hd b64 f.d f.a, 0, 0⟩
  | 0x0C1 => ⟨.movi f.hd b64 f.d f.immL, 0, 0⟩
  | 0x0C2 => ⟨.movs f.hd f.d ((SReg.ofCode (f.a.n % 2048)).getD .tidx), badBits (SReg.ofCode (f.a.n % 2048)).isNone 22 11, 0⟩
  | 0x0C3 => ⟨.movp f.hd f.movpForm, 0, 0⟩
  | 0x0C4 => ⟨.rdreg f.hd ((RegSel.ofCode (f.mod % 8)).getD .v) f.d f.a, badBits (RegSel.ofCode (f.mod % 8)).isNone 44 3, 0⟩
  | 0x0C5 => ⟨.wrreg f.hd ((RegSel.ofCode (f.mod % 8)).getD .v) f.a f.b, badBits (RegSel.ofCode (f.mod % 8)).isNone 44 3, 0⟩
  | 0x0C6 => ⟨.cvtf f.hd f.ft ((FT.ofCode (f.b.n % 16)).getD .f32) (bit f.b.n 4) (bit f.b.n 5) (bit f.b.n 6) f.rm f.d f.a,
              f.badFT + badBits (FT.ofCode (f.b.n % 16)).isNone 11 4 + f.badRM, 0⟩
  | 0x0C7 => ⟨.cvtfi f.hd f.it ((FT.ofCode (f.b.n % 16)).getD .f32) f.rm f.d f.a,
              badBits (FT.ofCode (f.b.n % 16)).isNone 11 4 + f.badRM, 0⟩
  | 0x0C8 => ⟨.cvtif f.hd f.ft (IT.ofCode (f.b.n % 8)) f.rm f.d f.a, f.badFT + f.badRM, 0⟩
  | 0x0C9 => ⟨.pack f.hd ((EW.ofCode (f.mod / 8)).getD .w4) f.lo f.d f.a f.b f.c, badBits (EW.ofCode (f.mod / 8)).isNone 47 3, 0⟩
  | 0x0CA => ⟨.unpack f.hd ((EW.ofCode (f.mod / 8)).getD .w4) (f.lo / 2 = 1) (f.b.n % 16) f.d f.a,
              badBits (EW.ofCode (f.mod / 8)).isNone 47 3, 0⟩
  | 0x0CB => ⟨.rdmode f.hd b64 f.d, 0, 0⟩
  | 0x0CC => ⟨.wrmode f.hd b64 f.a, 0, 0⟩
  | 0x0CD => ⟨.rdsc f.hd f.d (f.a.n % 16), 0, 0⟩
  | 0x0CE => ⟨.wrsc f.hd (f.d.n % 16) f.a, 0, 0⟩
  | _ => ⟨.addrg f.hd f.d (BitVec.ofNat 32 f.imm), 0, 0⟩

def Flds.candFloat (f : Flds) : Cand :=
  let cmp := f.lo * 4 + f.x % 4
  match f.op with
  | 0x100 => ⟨.fadd f.hd f.ft f.rm f.d f.a f.b, f.badFT + f.badRM, 0⟩
  | 0x101 => ⟨.fsub f.hd f.ft f.rm f.d f.a f.b, f.badFT + f.badRM, 0⟩
  | 0x102 => ⟨.fmul f.hd f.ft f.rm f.d f.a f.b, f.badFT + f.badRM, 0⟩
  | 0x103 => ⟨.ffma f.hd f.ft f.rmQ f.d f.a f.b f.c, f.badFT, f.badRMQ⟩
  | 0x104 => ⟨.fmin f.hd f.ft f.d f.a f.b, f.badFT, 0⟩
  | 0x105 => ⟨.fmax f.hd f.ft f.d f.a f.b, f.badFT, 0⟩
  | 0x106 => ⟨.fminm f.hd f.ft f.d f.a f.b, f.badFT, 0⟩
  | 0x107 => ⟨.fmaxm f.hd f.ft f.d f.a f.b, f.badFT, 0⟩
  | 0x108 => ⟨.fabs f.hd f.ft f.d f.a, f.badFT, 0⟩
  | 0x109 => ⟨.fneg f.hd f.ft f.d f.a, f.badFT, 0⟩
  | 0x10A => ⟨.fcpys f.hd f.ft f.d f.a f.b, f.badFT, 0⟩
  | 0x10B => ⟨.fcmp f.hd ((FCmp.ofCode cmp).getD .eq) f.ft (f.d.n % 8) f.a f.b,
              f.badFT + badBits (FCmp.ofCode cmp).isNone 44 2 + badBits (FCmp.ofCode cmp).isNone 0 2, 0⟩
  | 0x10C => ⟨.fclass f.hd f.ft f.d f.a, f.badFT, 0⟩
  | 0x10D => ⟨.frint f.hd f.ft f.rm (f.x % 2 = 1) f.d f.a, f.badFT + f.badRM, 0⟩
  | 0x10E => ⟨.fdiv f.hd f.ft f.rm f.d f.a f.b, f.badFT + f.badRM, 0⟩
  | 0x10F => ⟨.fsqrt f.hd f.ft f.rm f.d f.a, f.badFT + f.badRM, 0⟩
  | 0x110 => ⟨.frcp f.hd f.rm f.d f.a, badBits (f.mod / 4 ≠ 0) 46 4 + f.badRM, 0⟩
  | 0x111 => ⟨.frsq f.hd f.rm f.d f.a, badBits (f.mod / 4 ≠ 0) 46 4 + f.badRM, 0⟩
  | 0x112 => ⟨.fscale f.hd f.ft f.rm f.d f.a f.b, f.badFT + f.badRM, 0⟩
  | _ => ⟨.fdot2 f.hd f.ft f.rmQ f.d f.a f.b f.c, f.badFT, f.badRMQ⟩

def Flds.candElem (f : Flds) : Cand :=
  let bad := badBits (f.mod / 4 ≠ 0) 46 4 + f.badRM
  match f.op with
  | 0x140 => ⟨.fex2 f.hd f.rm f.d f.a, bad, 0⟩
  | 0x141 => ⟨.flg2 f.hd f.rm f.d f.a, bad, 0⟩
  | 0x142 => ⟨.fsinp f.hd f.rm f.d f.a, bad, 0⟩
  | 0x143 => ⟨.fcosp f.hd f.rm f.d f.a, bad, 0⟩
  | 0x144 => ⟨.ftanh f.hd f.rm f.d f.a, bad, 0⟩
  | 0x145 => ⟨.fsigm f.hd f.rm f.d f.a, bad, 0⟩
  | _ => ⟨.hmov f.hd f.ft f.rm (f.x % 2 = 1) f.d f.a, f.badFT + f.badRM, 0⟩

def Flds.candLane (f : Flds) : Cand :=
  let w := f.mod / 4 % 2 = 1
  let fop := FRedOp.ofCode f.lo
  let op := RedOp.ofCode (f.x / 4)
  match f.op with
  | 0x180 => ⟨.shfl f.hd (ShMode.ofCode f.lo) w f.d f.a f.b (f.c.n % 128), 0, 0⟩
  | 0x181 => ⟨.rdlane f.hd w f.d f.a f.laneSel, 0, 0⟩
  | 0x182 => ⟨.wrlane f.hd f.d f.a f.laneSel, 0, 0⟩
  | 0x183 =>
    match f.lo with
    | 0 => ⟨.vote f.hd .ballot (.reg f.d) (f.a.n % 8) f.b, 0, 0⟩
    | 1 => ⟨.vote f.hd .any (.pred (f.d.n % 8)) (f.a.n % 8) f.b, 0, 0⟩
    | 2 => ⟨.vote f.hd .all (.pred (f.d.n % 8)) (f.a.n % 8) f.b, 0, 0⟩
    | _ => ⟨.vote f.hd .ballot (.reg f.d) (f.a.n % 8) f.b, badBits true 44 2, 0⟩
  | 0x184 =>
    if f.mod % 2 = 1 then ⟨.matchl f.hd true w (.pred (f.d.n % 8)) f.a f.b, 0, 0⟩
    else ⟨.matchl f.hd false w (.reg f.d) f.a f.b, 0, 0⟩
  | 0x185 => ⟨.redux f.hd (op.getD .add) f.it f.d f.a f.b, badBits op.isNone 2 3, 0⟩
  | 0x186 => ⟨.fredux f.hd (fop.getD .add) f.ft f.rm f.d f.a f.b, f.badFT + badBits fop.isNone 44 2 + f.badRM, 0⟩
  | 0x187 => ⟨.scan f.hd (op.getD .add) f.it (f.x / 2 % 2 = 1) f.d f.a f.b, badBits op.isNone 2 3, 0⟩
  | 0x188 => ⟨.fscan f.hd (fop.getD .add) f.ft f.rm (f.x / 2 % 2 = 1) f.d f.a f.b,
              f.badFT + badBits fop.isNone 44 2 + f.badRM, 0⟩
  | 0x189 => ⟨.regroup f.hd (f.x % 2 = 1) (f.d.n % 8), 0, 0⟩
  | _ => ⟨.elect f.hd f.d (f.a.n % 8) f.b, 0, 0⟩

def Flds.candMem (f : Flds) : Cand :=
  match f.op with
  | 0x1C0 => ⟨.ld f.hd f.acc f.offM f.d f.a, f.badAcc, 0⟩
  | 0x1C1 => ⟨.st f.hd f.acc f.offM f.d f.a, f.badAcc, 0⟩
  | 0x1C2 => ⟨.lds f.hd f.acc f.offM f.d f.a, f.badAcc, 0⟩
  | 0x1C3 => ⟨.sts f.hd f.acc f.offM f.d f.a, f.badAcc, 0⟩
  | 0x1C4 => ⟨.ldt f.hd (f.mod % 2 = 1) f.offM f.d f.a, f.badFixed 4 1, 0⟩
  | 0x1C5 => ⟨.stt f.hd (f.mod % 2 = 1) f.offM f.d f.a, f.badFixed 4 1, 0⟩
  | 0x1C6 => ⟨.put f.hd { f.acc with a16 := false } f.offM f.d f.a, f.badAcc, 0⟩
  | 0x1C7 => ⟨.pref f.hd (f.mod % 2 = 1) f.offM f.a, f.badFixed 0 0, 0⟩
  | 0x1C8 => ⟨.lease f.hd (f.mod % 2 = 1) f.offM f.d f.a, f.badFixed 0 0, 0⟩
  | _ => ⟨.szero f.hd (f.mod % 2 = 1) f.offM f.d f.a, f.badFixed 4 1, 0⟩

def Flds.candAtom (f : Flds) : Cand :=
  let acc := f.acc
  let op := AtomOp.ofCode f.imm
  let fop := AtomFOp.ofCode f.imm
  match f.op with
  | 0x200 => ⟨.atom f.hd acc (op.getD .add) f.d f.a f.b.n, f.badAcc + badBits op.isNone 11 5, 0⟩
  | 0x201 => ⟨.atomf f.hd acc (fop.getD .addF32) f.d f.a f.b.n, f.badAcc + badBits fop.isNone 11 5, 0⟩
  | 0x202 => ⟨.xchg f.hd acc f.d f.a f.b.n, f.badAcc + badBits (f.imm ≠ 0) 11 5, 0⟩
  | 0x203 => ⟨.cas f.hd acc f.d f.a f.b.n, f.badAcc + badBits (f.imm ≠ 0) 11 5, 0⟩
  | 0x204 => ⟨.red f.hd acc (op.getD .add) f.a f.b.n, f.badAcc + badBits op.isNone 11 5, 0⟩
  | 0x205 => ⟨.redf f.hd acc (fop.getD .addF32) f.a f.b.n, f.badAcc + badBits fop.isNone 11 5, 0⟩
  | _ => ⟨.backoff f.hd f.d (f.imm % 2048) (f.imm / 2048 % 32), 0, 0⟩

def Flds.candSync (f : Flds) : Cand :=
  let ord := Order.ofCode (f.ordf / 16 % 4)
  let sc := (Scope.ofCode (f.ordf / 2 % 8)).getD .none
  let scr := f.lo / 2 = 1
  match f.op with
  | 0x240 => ⟨.fence f.hd (f.mod / 32 = 1) ord sc, f.badScope, 0⟩
  | 0x241 => ⟨.bar f.hd (f.imm % 16) (f.imm / 256 % 16384), 0, 0⟩
  | 0x242 => ⟨.bararr f.hd (f.imm % 16) (f.imm / 256 % 16384), 0, 0⟩
  | 0x243 => ⟨.sstep f.hd, 0, 0⟩
  | 0x244 => ⟨.sstarr f.hd, 0, 0⟩
  | 0x245 => ⟨.sstwait f.hd, 0, 0⟩
  | 0x246 => ⟨.qstat f.hd f.d (f.a.n % 16), 0, 0⟩
  | 0x247 => ⟨.semsig f.hd ((SigOp.ofCode (f.mod / 4)).getD .add) scr ord sc f.offM f.d f.a,
              badBits (SigOp.ofCode (f.mod / 4)).isNone 46 4 + f.badScope, 0⟩
  | _ => ⟨.semwait f.hd ((SemCmp.ofCode (f.mod / 4)).getD .eq) scr ord sc f.offM f.d f.a,
          badBits (SemCmp.ofCode (f.mod / 4)).isNone 46 4 + f.badScope, 0⟩

def Flds.candMatrix (f : Flds) : Cand :=
  let ty := (MT.ofCode (f.mod / 4)).getD .f16
  let badTy := badBits (MT.ofCode (f.mod / 4)).isNone 46 4
  let acc := bit f.x 10
  let n64 := bit f.x 9
  match f.op with
  | 0x280 => ⟨.mma f.hd ty n64 acc (f.lo = 1) f.ts f.d.n f.a.n f.b.n, badTy + badBits (1 < f.lo) 44 2, 0⟩
  | 0x281 => ⟨.mmas f.hd ty n64 acc (f.aux % 4 = 1) f.ts (f.lo / 2 = 1) (f.lo % 2 = 1) (bit f.aux 3) (bit f.aux 2)
              f.d.n f.a.n f.b.n, badTy, badBits (1 < f.aux % 4) 24 2⟩
  | 0x282 => ⟨.mmasp f.hd ty n64 acc (f.aux % 4 = 1) f.ts (f.lo / 2 = 1) (f.lo % 2 = 1) (bit f.aux 3) (bit f.aux 2)
              (bit f.aux 4) f.d.n f.a.n f.b.n, badTy, badBits (1 < f.aux % 4) 24 2⟩
  | 0x283 => ⟨.mwait f.hd f.imm, 0, 0⟩
  | 0x284 => ⟨.mfence f.hd, 0, 0⟩
  | _ => ⟨.mzero f.hd n64 f.d.n, 0, 0⟩

def Flds.candAsync (f : Flds) : Cand :=
  match f.op with
  | 0x2C0 => ⟨.cpchain f.hd f.a, 0, 0⟩
  | 0x2C1 => ⟨.cpwait f.hd f.imm, 0, 0⟩
  | 0x2C2 => ⟨.cptest f.hd f.d (f.a.n % 8), 0, 0⟩
  | 0x2C3 => ⟨.launch f.hd f.d f.a, 0, 0⟩
  | 0x2C4 => ⟨.gettime f.hd (f.x % 2 = 1) f.d, 0, 0⟩
  | 0x2C5 => ⟨.perfrd f.hd f.d (f.a.n % 2048), 0, 0⟩
  | _ => ⟨.trace f.hd f.a (f.imm % 65536), 0, 0⟩

def Flds.cand (f : Flds) : Cand :=
  match f.op / 64 with
  | 0 => f.candControl
  | 1 => f.candInteger
  | 2 => f.candLogic
  | 3 => f.candMove
  | 4 => f.candFloat
  | 5 => f.candElem
  | 6 => f.candLane
  | 7 => f.candMem
  | 8 => f.candAtom
  | 9 => f.candSync
  | 10 => f.candMatrix
  | _ => f.candAsync

/-- FT 0x6 and 0x7 and the opcodes that Prapin 1.0 lacks (R341, Table 13-6). -/
def Instr.newFT : Instr → Bool
  | .cvtf _ dt sf _ _ _ _ _ _ => dt = .e3m2 || dt = .e2m3 || sf = .e3m2 || sf = .e2m3
  | .cvtfi _ _ sf _ _ _ => sf = .e3m2 || sf = .e2m3
  | .cvtif _ dt _ _ _ _ => dt = .e3m2 || dt = .e2m3
  | .mma _ ty _ _ _ _ _ _ _ => ty = .e3m2 || ty = .e2m3
  | .mmas _ ty _ _ _ _ _ _ _ _ _ _ _ => ty = .e3m2 || ty = .e2m3
  | _ => false

/-- The ORD field of a format. A value that its instruction does not accept is a reserved code, never a reserved bit (Table 07-7, R236). -/
def Fmt.ordMask : Fmt → Nat
  | .M => 0x3F0000
  | .T => 0x3F0000
  | _ => 0

/-- Reasons of Table 07-8 for a word whose opcode is assigned: reserved bits (0x03), reserved codes (0x04), prefix misuse (0x05) and the static
rules of WellFormed. -/
def reasons (v10 w64 : Bool) (fm : Fmt) (w : Nat) (pre : Option Nat) (c : Cand) : List Nat :=
  offence 0x03 (decide ((w ^^^ c.i.flds.word fm) % 2 ^ 64 &&& (2 ^ 64 - 1 - (c.bad ||| fm.ordMask)) ≠ 0)) ++
  offence 0x04 (decide ((w ^^^ c.i.flds.word fm) &&& fm.ordMask ≠ 0)) ++
  offence 0x04 (decide (c.bad ≠ 0 ∨ c.badX ≠ 0)) ++
  offence 0x04 (v10 && c.i.newFT) ++
  (match pre with
   | none => []
   | some e => offence 0x05 (decide ((e ^^^ c.i.flds.extWord fm) % 2 ^ 64 &&& (2 ^ 64 - 1 - c.badX) ≠ 0) ||
                             decide (fm = .B) || decide (c.i.flds.op = 0))) ++
  c.i.faults w64

/-- The lowest reason of a list. -/
def lowest : List Nat → Option Nat
  | [] => none
  | r :: rs => match lowest rs with
    | none => some r
    | some m => some (if r ≤ m then r else m)

/-- Decode one instruction: its word, and the EXT prefix when one stands before it. An error is the reason code of Table 07-8 (R195).
`v10` says that the object is Prapin 1.0 (R341), `w64` that W = 64. Total on all numbers below 2^64. -/
def decodeWord (v10 w64 : Bool) (w : Nat) (pre : Option Nat) : Except Nat Instr :=
  let op := field w 54 10
  if 0x300 ≤ op ∧ op < 0x3F0 then
    .ok (.emul ⟨bit w 53, field w 50 3, pre.isSome⟩ (op - 0x300) (w % 2 ^ 50) (pre.getD 0 % 2 ^ 54))
  else if 0x3F0 ≤ op then .error 0x02
  else if op = 1 then .error 0x05
  else if v10 ∧ (op = 0x282 ∨ op = 0x189 ∨ op = 0x1C8) then .error 0x01
  else
    match fmtOf op with
    | none => .error 0x01
    | some fm =>
      let c := (splitWord fm w pre).cand
      match lowest (reasons v10 w64 fm w pre c) with
      | none => .ok c.i
      | some r => .error r

/-- The decoder on an instruction numbered as spec/opcode_table.json numbers its bits: bit 0 is the least significant bit of the first word,
the second word of a prefixed pair follows at bit 64. -/
def decodeTableWord (_nbits w : Nat) : Option Instr :=
  let first := w % 2 ^ 64
  let r := if field first 54 10 = 1 then decodeWord false false (w / 2 ^ 64 % 2 ^ 64) (some first)
           else decodeWord false false first none
  match r with
  | .ok i => some i
  | .error _ => none

/-- Is a 32-bit immediate the sign extension of its low `n` bits (R186)? -/
def shortImm (n : Nat) (x : Word) : Bool := x = (x.setWidth n).signExtend 32

def ShAmt.inRange : ShAmt → Bool
  | .imm n => n < 64
  | .reg _ => true

def LaneSel.inRange : LaneSel → Bool
  | .imm n => n < 64
  | .reg _ => true

def VDst.inRange : VDst → Bool
  | .pred p => p < 8
  | .reg _ => true

/-- Every number and immediate of an instruction lies in the range of its field (Table 07-2, R179, R184, R186, and the encoding tables of 08 to 10). -/
def Instr.inRange : Instr → Bool
  | .nop hd | .bra hd _ _ | .call hd _ => !hd.ext
  | .loop hd _ x => hd.ext || shortImm 22 x
  | .waitr hd pd _ t => decide (pd < 8) && (match t with | .imm n => hd.ext || decide (n < 2 ^ 22) | .reg _ => true)
  | .brk hd code | .trap hd code => hd.ext || decide (code.toNat < 2 ^ 22)
  | .pause hd n => hd.ext || decide (n < 2 ^ 22)
  | .iaddc _ _ _ pc _ _ _ => pc < 8
  | .iscadd _ _ _ _ _ k => k < 64
  | .iaddi hd _ _ _ _ imm | .imuli hd _ _ _ imm | .lopi hd _ _ _ _ imm => hd.ext || shortImm 22 imm
  | .shl _ _ _ _ b | .shr _ _ _ _ b | .sar _ _ _ _ b | .rot _ _ _ _ b => b.inRange
  | .icmp _ _ _ pd _ _ | .fcmp _ _ _ pd _ _ | .elect _ _ pd _ | .regroup _ _ pd | .cptest _ _ pd => pd < 8
  | .plut _ pd pa pb lut => decide (pd < 8) && decide (pa < 8) && decide (pb < 8) && decide (lut < 16)
  | .pick _ _ _ _ _ pc => pc < 8
  | .movi hd w _ imm => if hd.ext && w then imm = (imm.setWidth 56).signExtend 64 else decide (imm.toNat < 2 ^ 32)
  | .movp _ f => (match f with | .get _ p => decide (p < 8) | .put p _ => decide (p < 8) | _ => true)
  | .rdsc _ _ sc | .wrsc _ sc _ => sc < 16
  | .addrg hd _ imm => hd.ext || decide (imm.toNat < 2 ^ 22)
  | .pack _ _ k _ _ _ _ => k < 4
  | .unpack _ _ _ j _ _ => j < 16
  | .shfl _ _ _ _ _ _ seg => seg < 128
  | .rdlane _ _ _ _ b | .wrlane _ _ _ b => b.inRange
  | .ffma hd _ rm _ _ _ _ | .fdot2 hd _ rm _ _ _ _ => hd.ext || (rm = .dyn || rm = .rne || rm = .rz || rm = .rna)
  | .vote _ mode d pa _ => d.inRange && decide (pa < 8) && (match d with | .reg _ => mode = .ballot | .pred _ => mode ≠ .ballot)
  | .matchl _ all _ d _ _ => d.inRange && (match d with | .reg _ => !all | .pred _ => all)
  | .ld hd _ off _ _ | .st hd _ off _ _ | .lds hd _ off _ _ | .sts hd _ off _ _ | .ldt hd _ off _ _ | .stt hd _ off _ _ | .pref hd _ off _
  | .lease hd _ off _ _ | .szero hd _ off _ _ | .semsig hd _ _ _ _ off _ _ | .semwait hd _ _ _ _ off _ _ => hd.ext || shortImm 16 off
  | .put hd acc off _ _ => !acc.a16 && (hd.ext || shortImm 16 off)
  | .atom _ acc _ _ _ _ | .atomf _ acc _ _ _ _ | .xchg _ acc _ _ _ | .cas _ acc _ _ _ | .red _ acc _ _ _ | .redf _ acc _ _ _ => !acc.a16
  | .backoff _ _ base cap => decide (base < 2048) && decide (cap < 32)
  | .bar _ id count | .bararr _ id count => decide (id < 16) && decide (count < 16384)
  | .qstat _ _ q => q < 16
  | .mma _ _ _ _ _ ts _ _ _ | .mmas _ _ _ _ _ ts _ _ _ _ _ _ _ | .mmasp _ _ _ _ _ ts _ _ _ _ _ _ _ _ =>
    (match ts with | some x => decide (x.1 < 16) && decide (x.2 < 16) | none => true)
  | .perfrd _ _ k => k < 2048
  | .trace _ _ code => code < 65536
  | _ => true

/-- Well-formed: no static rule is broken, the encoder gives words, and the fields fit them. -/
def Instr.fits (i : Instr) : Bool :=
  match i with
  | .emul hd op body pre =>
    hd.gp < 8 && op < 0xF0 && body < 2 ^ 50 && pre < 2 ^ 54 && (hd.ext || pre = 0)
  | i =>
    i.isProgram &&
    match fmtOf i.flds.op with
    | none => false
    | some fm =>
      i.flds.hd.gp < 8 && i.flds.mod < 64 && i.flds.d.n < 65536 && i.flds.a.n < 65536 && i.flds.b.n < 65536 &&
      i.flds.c.n < 65536 && i.flds.ordf < 64 && i.flds.k < 4 && i.flds.rmx < 8 && i.flds.aux < 64 &&
      (match fm with
       | .R => i.flds.x < 32 | .X => i.flds.x < 2048
       | .I => i.flds.imm < 2 ^ 32 | .M => i.flds.imm < 2 ^ 32 | .T => i.flds.imm < 32 | .L => i.flds.imm < 2 ^ 56
       | .B => i.flds.imm < 2 ^ 40 | .Q => true) &&
      (i.flds.hd.ext || !i.flds.needsExt fm)

/-- A well-formed program instruction: it breaks no static rule (for W = 64 when `w64`), and every operand has a value its encoding admits. -/
def Instr.wf (w64 : Bool) (i : Instr) : Bool :=
  i.isProgram && (i.faults w64).isEmpty && i.fits && i.inRange

/-! ### Copy-chain entries -/

def CHdr.enc (h : CHdr) (ty : Nat) : Nat :=
  ty + b2n h.ssp * 2 ^ 8 + b2n h.dsp * 2 ^ 9 + b2n h.so * 2 ^ 10 + b2n h.dor * 2 ^ 11 + b2n h.nl * 2 ^ 12 + b2n h.tr * 2 ^ 13 +
  h.esz * 2 ^ 14

def CHdr.zero : CHdr := ⟨false, false, false, false, false, false, 0⟩

/-- The 256 bits of a chain entry (Tables 04-1 to 04-3). -/
def encodeEntry : Instr → Option Nat
  | .chainCopy1d h len src dst =>
    some (h.enc 1 + len * 2 ^ 32 + src.toNat * 2 ^ 128 + dst.toNat * 2 ^ 192)
  | .chainCopy2d h rows rb ss ds src dst =>
    some (h.enc 2 + rows * 2 ^ 16 + rb * 2 ^ 32 + ss.toNat * 2 ^ 64 + ds.toNat * 2 ^ 96 + src.toNat * 2 ^ 128 +
      dst.toNat * 2 ^ 192)
  | .chainGather h count rb io ts src dst =>
    some (h.enc 3 + count * 2 ^ 16 + rb * 2 ^ 32 + io * 2 ^ 64 + ts * 2 ^ 96 + src.toNat * 2 ^ 128 + dst.toNat * 2 ^ 192)
  | .chainScatter h count rb io ts src dst =>
    some (h.enc 4 + count * 2 ^ 16 + rb * 2 ^ 32 + io * 2 ^ 64 + ts * 2 ^ 96 + src.toNat * 2 ^ 128 + dst.toNat * 2 ^ 192)
  | .chainFill h count value dst => some (h.enc 5 + count * 2 ^ 32 + value.toNat * 2 ^ 64 + dst.toNat * 2 ^ 192)
  | .chainLoop count back => some (6 + count * 2 ^ 16 + back * 2 ^ 32)
  | .ifsem h op skip value addr =>
    some (h.enc 7 + op.code * 2 ^ 16 + skip * 2 ^ 32 + value.toNat * 2 ^ 64 + addr.toNat * 2 ^ 128)
  | .chainSignal scr wick addend addr =>
    some (8 + b2n scr * 2 ^ 8 + b2n wick * 2 ^ 16 + addend.toNat * 2 ^ 64 + addr.toNat * 2 ^ 128)
  | .chainEnd => some 0
  | _ => none

def entryHdr (e : Nat) : CHdr := ⟨bit e 8, bit e 9, bit e 10, bit e 11, bit e 12, bit e 13, field e 14 2⟩

/-- The entry that 256 bits name, reserved bits dropped; none for a reserved TYPE or OP. -/
def entryCand (e : Nat) : Option Instr :=
  let h := entryHdr e
  let dw (lo : Nat) : DWord := BitVec.ofNat 64 (field e lo 64)
  let w (lo : Nat) : Word := BitVec.ofNat 32 (field e lo 32)
  match field e 0 8 with
  | 0 => some .chainEnd
  | 1 => some (.chainCopy1d { h with tr := false, esz := 0 } (field e 32 32) (dw 128) (dw 192))
  | 2 => some (.chainCopy2d h (field e 16 16) (field e 32 16) (w 64) (w 96) (dw 128) (dw 192))
  | 3 => some (.chainGather { h with tr := false, esz := 0 } (field e 16 16) (field e 32 16) (field e 64 32) (field e 96 32)
               (dw 128) (dw 192))
  | 4 => some (.chainScatter { h with tr := false, esz := 0 } (field e 16 16) (field e 32 16) (field e 64 32) (field e 96 32)
               (dw 128) (dw 192))
  | 5 => some (.chainFill { CHdr.zero with dsp := h.dsp, dor := h.dor, esz := h.esz } (field e 32 32) (dw 64) (dw 192))
  | 6 => some (.chainLoop (field e 16 16) (field e 32 16))
  | 7 => match SemCmp.ofCode (field e 16 4) with
    | some op => some (.ifsem { CHdr.zero with ssp := h.ssp, nl := h.nl } op (field e 32 16) (dw 64) (dw 128))
    | none => none
  | 8 => some (.chainSignal h.ssp (bit e 16) (dw 64) (dw 128))
  | _ => none

/-- The element size of ESZ (Table 04-1). -/
def CHdr.elem (h : CHdr) : Nat := 2 ^ h.esz

/-- The static checks of R110: scratch addresses fit 32 bits, a transposed row is whole elements, SIGNAL with WICK has no address. -/
def entryOk : Instr → Bool
  | .chainCopy1d h _ src dst | .chainGather h _ _ _ _ src dst | .chainScatter h _ _ _ _ src dst =>
    (!h.ssp || src.toNat < 2 ^ 32) && (!h.dsp || dst.toNat < 2 ^ 32)
  | .chainCopy2d h _ rb _ _ src dst =>
    (!h.ssp || src.toNat < 2 ^ 32) && (!h.dsp || dst.toNat < 2 ^ 32) && (!h.tr || rb % h.elem = 0)
  | .chainFill h _ _ dst => !h.dsp || dst.toNat < 2 ^ 32
  | .chainLoop _ back => back ≠ 0
  | .ifsem h _ _ _ addr => !h.ssp || addr.toNat < 2 ^ 32
  | .chainSignal scr wick _ addr => if wick then addr = 0 && !scr else !scr || addr.toNat < 2 ^ 32
  | _ => true

/-- Decode a chain entry; none is the ILLEGAL stop of R110. -/
def decodeEntry (e : Nat) : Option Instr :=
  match entryCand e with
  | none => none
  | some i => if encodeEntry i = some e ∧ entryOk i then some i else none

/-! ### Queue commands -/

/-- The 1,024 bits of a launch record (Table 11-2), reserved bytes zero. -/
def LaunchRec.enc (r : LaunchRec) : Nat :=
  1 + r.flags.toNat * 2 ^ 8 + r.kidx * 2 ^ 32 + r.gx * 2 ^ 64 + r.gy * 2 ^ 96 + r.gz * 2 ^ 112 + r.bx * 2 ^ 128 +
  r.byy * 2 ^ 144 + r.bz * 2 ^ 160 + r.scratch * 2 ^ 192 + r.argSize * 2 ^ 224 + r.mode.toNat * 2 ^ 256 +
  r.argPtr.toNat * 2 ^ 320 + r.semAddr.toNat * 2 ^ 384 + r.semVal.toNat * 2 ^ 448 + r.dumpAddr.toNat * 2 ^ 512 +
  r.dumpSize * 2 ^ 576 + r.watchdog * 2 ^ 608

/-- The record that 128 bytes hold. -/
def decodeRec (e : Nat) : LaunchRec :=
  let r : LaunchRec :=
    { flags := BitVec.ofNat 8 (field e 8 8), kidx := field e 32 32, gx := field e 64 32, gy := field e 96 16, gz := field e 112 16,
      bx := field e 128 16, byy := field e 144 16, bz := field e 160 16, scratch := field e 192 32, argSize := field e 224 32,
      mode := BitVec.ofNat 64 (field e 256 64), argPtr := BitVec.ofNat 64 (field e 320 64),
      semAddr := BitVec.ofNat 64 (field e 384 64), semVal := BitVec.ofNat 64 (field e 448 64),
      dumpAddr := BitVec.ofNat 64 (field e 512 64), dumpSize := field e 576 32, watchdog := field e 608 32, rsvd := false }
  { r with rsvd := decide (r.enc ≠ e) }

/-- The 1,024 bits of a queue command (Tables 11-2, 11-3). -/
def encodeCommand : Instr → Option Nat
  | .cmdLaunch r => some r.enc
  | .cmdWait op addr value => some (2 + op.code * 2 ^ 8 + addr.toNat * 2 ^ 64 + value.toNat * 2 ^ 128)
  | .cmdSignal op addr value => some (3 + op.code * 2 ^ 8 + addr.toNat * 2 ^ 64 + value.toNat * 2 ^ 128)
  | .replace kidx e =>
    some (4 + kidx * 2 ^ 32 + e.kent * 2 ^ 64 + b2n e.valid * 2 ^ 95 + e.obj.toNat * 2 ^ 128 + e.data.toNat * 2 ^ 192)
  | .cmdFence => some 5
  | .cmdBarrier mask => some (6 + mask.toNat * 2 ^ 8)
  | _ => none

/-- Decode a queue entry; none stops the queue with code 0x01 (R297). -/
def decodeCommand (e : Nat) : Option Instr :=
  let dw (lo : Nat) : DWord := BitVec.ofNat 64 (field e lo 64)
  let c : Option Instr :=
    match field e 0 8 with
    | 2 => match SemCmp.ofCode (field e 8 4) with
      | some op => some (.cmdWait op (dw 64) (dw 128))
      | none => none
    | 3 => match SigOp.ofCode (field e 8 2) with
      | some op => some (.cmdSignal op (dw 64) (dw 128))
      | none => none
    | 4 => if field e 32 32 < 4096 then
        some (.replace (field e 32 32) ⟨field e 64 16, bit e 95, dw 128, dw 192⟩) else none
    | 5 => some .cmdFence
    | 6 => some (.cmdBarrier (BitVec.ofNat 4 (field e 8 4)))
    | _ => none
  if field e 0 8 = 1 then some (.cmdLaunch (decodeRec e))
  else match c with
    | none => none
    | some i => if encodeCommand i = some e then some i else none

/-- Every field of a chain entry lies in its range, and the header bits that its type does not use are zero (Tables 04-1 and 04-3). -/
def Instr.entryFits : Instr → Bool
  | .chainCopy1d h len _ _ => !h.tr && decide (h.esz = 0) && decide (len < 2 ^ 32)
  | .chainCopy2d h rows n _ _ _ _ => decide (h.esz < 4) && decide (rows < 2 ^ 16) && decide (n < 2 ^ 16)
  | .chainGather h count n o t _ _ | .chainScatter h count n o t _ _ =>
    !h.tr && decide (h.esz = 0) && decide (count < 2 ^ 16) && decide (n < 2 ^ 16) && decide (o < 2 ^ 32) && decide (t < 2 ^ 32)
  | .chainFill h count _ _ => !h.ssp && !h.so && !h.nl && !h.tr && decide (h.esz < 4) && decide (count < 2 ^ 32)
  | .chainLoop count back => decide (count < 2 ^ 16) && decide (back < 2 ^ 16)
  | .ifsem h _ skip _ _ => !h.dsp && !h.so && !h.dor && !h.tr && decide (h.esz = 0) && decide (skip < 2 ^ 16)
  | .chainSignal _ _ _ _ | .chainEnd => true
  | _ => false

/-- Every field of a queue command lies in its range (Tables 11-2, 11-3, 11-5). -/
def Instr.commandFits : Instr → Bool
  | .cmdLaunch r =>
    decide (r.kidx < 2 ^ 32) && decide (r.gx < 2 ^ 32) && decide (r.gy < 2 ^ 16) && decide (r.gz < 2 ^ 16) && decide (r.bx < 2 ^ 16) &&
    decide (r.byy < 2 ^ 16) && decide (r.bz < 2 ^ 16) && decide (r.scratch < 2 ^ 32) && decide (r.argSize < 2 ^ 32) && decide (r.dumpSize < 2 ^ 32) &&
    decide (r.watchdog < 2 ^ 32) && !r.rsvd
  | .replace kidx e => decide (kidx < 4096) && decide (e.kent < 2 ^ 16)
  | .cmdWait _ _ _ | .cmdSignal _ _ _ | .cmdFence | .cmdBarrier _ => true
  | _ => false

end Sys2Proof
end

