-- ==== Sys2Proof/Machine/State.lean ====
section
/-! DEFINITION. The state of the package as plain data: everything INVENTORY.md lists under State, the reasons a step can stop, and
the state at power-on. -/

namespace Sys2Proof.Machine

/-- Sparse storage in canonical form: keys strictly rising, no entry zero; an unlisted key reads as zero. -/
abbrev SMap (w : Nat) := List (Nat × BitVec w)

/-- Memory by physical address: the cells of `Host.Cell`, an unlisted byte is zero (R51, LOG 2). -/
abbrev Memory := List Host.Cell

/-! ### Groups -/

/-- What the lanes of a parked fragment wait for (R158, R167, R168, R170, R171, R220, R248, R249, R252). `waitr` holds for each lane its
member mask and remaining cycles, `sync` its member mask, `semwait` its virtual address, physical address and comparison value. -/
inductive Park where
  | waitr (pd : Nat) (ws : List (Nat × Mask × Nat))
  | sync (ws : List (Nat × Mask))
  | coll
  | regroup (blk : Bool) (pd : Nat)
  | bar (id : Nat)
  | step
  | semwait (cmp : SemCmp) (scr : Bool) (ord : Order) (ws : List (Nat × Nat × Nat × DWord))
  | tret (next : Bool)
deriving DecidableEq, Repr

/-- A fragment of a PC table (R158, R159): `head` is the number of instructions it may still issue as head, `yield` the lanes of other
fragments that a YIELD still waits for (R217), `park` the length of the instruction it is parked at and what it waits for. -/
structure Frag where
  pc : Word
  mask : Mask
  wait : Nat
  head : Nat
  yield : Option Mask
  park : Option (Nat × Park)
deriving DecidableEq, Repr

/-- A lane that has arrived at a collective, with the values it read there: A, and the predicate of VOTE. -/
structure Arrival where
  lane : Nat
  a : DWord
  pred : Bool
deriving DecidableEq, Repr

/-- An open instance of a collective operation (R170). -/
structure Coll where
  pc : Word
  len : Nat
  ins : Instr
  mask : Option Mask
  fpm : Word
  arrived : List Arrival
  passed : Mask
deriving DecidableEq, Repr

/-- A scratch byte that was overwritten, with the value before, which an operand fetch may still return (R99). -/
structure OldByte where
  pa : Nat
  old : Byte
deriving DecidableEq, Repr

/-- An outstanding matrix instruction (R98, R284): the captured sc values, offset and pitch of its scratch operands (R283); `done` once it
has completed (it stays as a hazard until its MWAIT); `corrupt` when an operand or its accumulator was written, or read undefined bits,
before MWAIT; `bad` lanes with wrong sparsity masks (R287); `at_` the serial number at its issue, which tells earlier writes of the group
from later ones; `olds` the values that its own fetch may still return (R99); `inst` its words, for a trap frame (R32); `dirty` the registers, by first number and count, that
earlier outstanding ones write as their D, which it reads as undefined bits (R98). -/
structure Mat where
  ins : Instr
  pc : Word
  sa : Word
  sb : Word
  offA : Nat
  pA : Nat
  offB : Nat
  pB : Nat
  at_ : Nat
  done : Bool
  corrupt : Bool
  bad : Mask
  olds : List OldByte
  inst : BitVec 128
  dirty : List (Nat × Nat)
deriving DecidableEq, Repr

/-- Trap frame (R309, Table 12-2). -/
structure TrapFrame where
  cause : Word
  inst : BitVec 128
  mask : Mask
  pc : Word
  addr : SMap 64
  info : DWord
deriving DecidableEq, Repr

/-- A running handler (R312, R220): the lanes that entered it and have not exited, and the length of the instruction at %tpc. -/
structure Handler where
  lanes : Mask
  len : Nat
deriving DecidableEq, Repr

/-- Writes of a group that failed with BULKHEAD-DOWN and are not yet reported (R314). -/
structure PendErr where
  addr : DWord
  lsize : Nat
  count : Nat
deriving DecidableEq, Repr

/-- Reasons of a debugger stop (Table 15-2); a step names the lanes of the fragment that it issues. -/
inductive StopReason where | brk | bp (n : Nat) | wp (n : Nat) | step (m : Mask) | halt
deriving DecidableEq, Repr

/-- A debugger stop of a group (R361 to R364): `written` once its record is in the ring or waits for it, `pending` for a stop met while the world
was being sealed (R357), `len` the length a BRK advances by at its resumption. -/
structure Stop where
  reason : StopReason
  time : DWord
  mask : Mask
  pc : Word
  addr : DWord
  len : Nat
  parked : Bool
  inHandler : Bool
  pending : Bool
  written : Bool
deriving DecidableEq, Repr

/-- The result of one lane of an atomic (R244): the write in flight that executes it and the old value once it has; `down` when it met
BULKHEAD-DOWN. -/
structure Await where
  lane : Nat
  id : Nat
  va : Nat
  got : Option DWord
  down : Bool
deriving DecidableEq, Repr

/-- A fault record that is not written yet (R316): the lowest faulting address on its page, whether the access writes, the package time of the
fault. -/
structure Owed where
  addr : Nat
  write : Bool
  time : Nat
deriving DecidableEq, Repr

/-- Why a group or chain waits whole (R316, R101, R375, R244): fault records to be written or answered, requests sent out, or atomics in
flight whose results go to `words` registers of D. -/
inductive Hold where
  | replay (owed : List Owed) (recs : List (Nat × Nat)) (cancelled : List Nat)
  | ext (reqs : List (Nat × Nat))
  | atom (d : Opnd) (words : Nat) (scr : Bool) (act : Mask) (ls : List Await)
deriving DecidableEq, Repr

/-- A unit of a load that one lane has read before the others (R77, R79): its physical address and bytes. -/
structure Ahead where
  lane : Nat
  pa : Nat
  bytes : List Byte
deriving DecidableEq, Repr

/-- A held instruction: the fragment that issued it (its PC, mask, length and words), and what it waits for. In `Hold.replay`, an outstanding record
has its identifier and address, and `cancelled` holds the page numbers answered CANCEL; in `Hold.ext`, a request is found by lane × 32 + the number of its piece. -/
structure Stuck where
  pc : Word
  mask : Mask
  len : Nat
  inst : BitVec 128
  hold : Hold
deriving DecidableEq, Repr

/-- A group of a resident block (INVENTORY, Group). Register maps are keyed by register × 64 + lane for v and h, by register for s
and sc, by lane for p (bit i is pi), %fpst and the threads' linear indices. `pause` is the
remaining count of PAUSE or BACKOFF, 0 until PAUSE_END. `covers` holds per lane the writes an acq_rel fence has ordered before its later writes (R85), `strongT` the time of its last strong write (R86), `ahead` the units that lanes
have read already of the load that issues next (R79), `freed` the parked lanes, with their PC and the length of its instruction, whose wait has ended while
a handler runs or the debugger holds the group (R312, R362). `stopNext` is a debugger stop that takes place once the instruction
now held or stepped has issued (R362, R363). -/
structure Group where
  gid : Gid
  v : SMap 32
  s : SMap 32
  h : SMap 64
  p : SMap 8
  sc : SMap 32
  fpm : Word
  fpst : SMap 32
  rets : List (Nat × List Word)
  live : Mask
  tids : List (Nat × Nat)
  frags : List Frag
  colls : List Coll
  arrived : Mask
  mats : List Mat
  olds : List OldByte
  frame : TrapFrame
  handler : Option Handler
  err : Option PendErr
  pause : Option Nat
  qwait : Bool
  covers : List (Nat × List Nat)
  strongT : List (Nat × Nat)
  ahead : List Ahead
  freed : List (Word × Nat × Mask)
  stop : Option Stop
  pass : Bool
  stopNext : Option StopReason
  stuck : Option Stuck
  safe : Bool
deriving DecidableEq, Repr

/-! ### Blocks, chains, launches -/

/-- A register-mapped queue (R128): its number, depth and entries oldest first, each a map from lane to word. -/
structure Queue where
  n : Nat
  depth : Nat
  entries : List (SMap 32)
deriving DecidableEq, Repr

/-- An open barrier phase (R248): its count, the arrivals made, and the (group, lane) pairs that made them. -/
structure Phase where
  id : Nat
  count : Nat
  made : Nat
  who : List (Nat × Nat)
deriving DecidableEq, Repr

/-- A resident block: core, first square, scratch bytes S (R19), the clear of R20 still running, queues, groups stalled on queues oldest
first, each with its queue and whether it pushes (R130), open barrier phases, and the local slot of each thread (R14). `saved` holds its scratch while its world is saved. -/
structure Block where
  lid : Nat
  idx : Nat
  core : Nat
  square : Nat
  scratch : Nat
  clearing : Bool
  queues : List Queue
  stalled : List (Nat × Nat × Bool)
  phases : List Phase
  slots : List Nat
  saved : List Byte
deriving DecidableEq, Repr

/-- A stopped chain (R117): cause code, failing address, and the access fields of %tinfo (Table 12-3). -/
structure ChainStop where
  cause : Nat
  addr : DWord
  info : DWord
deriving DecidableEq, Repr

/-- A copy chain (R103, R104). Its position (R107) is `entry`, `unit` (row × 2^32 + the 128 B block within the row), the entry as it was read
(R95) with the index of the present row of GATHER and SCATTER, and its loop stack of (index, remaining), top first; `turn` is the number of the turn in
which it last ran (R105); `ahead` the words and bytes of its present unit that it has read already (R77): physical address and bytes. -/
structure Chain where
  id : Nat
  gid : Gid
  lanes : Mask
  core : Nat
  pc : Word
  base : Nat
  entry : Nat
  unit : Nat
  ent : Option (BitVec 256)
  idx : Nat
  loops : List (Nat × Nat)
  turn : Nat
  ended : Bool
  stop : Option ChainStop
  stuck : Option Hold
  ahead : List (Nat × List Byte)
deriving DecidableEq, Repr

/-- A kernel entry (Table 07-14). -/
structure Kernel where
  entry : Word
  traph : Word
  emulh : Word
  scratch : Nat
  argSize : Nat
  mode : Word
  widths : Nat
  queues : List (Nat × Nat)
deriving DecidableEq, Repr

/-- What a launch binds of a code object: VERSION, FLAGS, TEXT words, CONST bytes, the kernel and its index, and the bytes that its code hash
digests (R326). -/
structure Object where
  version : Nat
  isPublic : Bool
  text : List DWord
  const : List Byte
  kernel : Kernel
  kent : Nat
  hash : List Byte
deriving DecidableEq, Repr

/-- A galley key (R327): `code` holds the bytes that the code hash digests, `mode` bits [11:0] of %fpm; STEPPING and TRVER are the same for
every key. -/
structure GalleyKey where
  code : List Byte
  devmode : Nat
  kent : Nat
  w64 : Bool
  mode : Nat
  part : Option Nat
  world : Option Nat
deriving DecidableEq, Repr

/-- A galley of the store (R327 to R331): identity, key, residency limit, safe mode, re-optimised, generation; `used` once a launch that binds it has run since
installation or CLEAR, `loops` what its loop records have counted since then, by record × 64 + number of the count (R368); `since` the instant of its
installation (R331). -/
structure Galley where
  id : Nat
  key : GalleyKey
  resid : Nat
  safe : Bool
  reopt : Bool
  gen : Nat
  used : Bool
  loops : List (Nat × Nat)
  since : Nat
deriving DecidableEq, Repr

/-- Where a launch stands (R304, R305); a launch whose semaphore has been written is in the machine no longer. -/
inductive LStatus where
  | running
  | aborting (cause sub : Nat) (nested teardown dumped : Bool) (time : DWord)
deriving DecidableEq, Repr

/-- A launch (INVENTORY, Launch). `lvl` is the host queue it came from, or none for the device queue; `safe` the safe-mode galley to which
its groups move (R336). -/
structure Launch where
  lid : Nat
  tag : Nat
  world : Nat
  part : Nat
  lvl : Option Nat
  cmd : Nat
  rcd : LaunchRec
  obj : Object
  data : DWord
  galley : Nat
  resid : Nat
  w64 : Bool
  start : Nat
  watch : Nat
  nextBlk : Nat
  waited : Nat
  dom : Option Nat
  holds : List (Nat × Nat)
  failed : Bool
  safe : Option Nat
  status : LStatus
deriving DecidableEq, Repr

/-! ### Memory system -/

/-- Who issued a write (R76): a thread, a chain, or another agent. -/
inductive Writer where
  | thread (g : Gid) (lane : Nat)
  | chain (id : Nat)
  | dispatcher (part : Nat)
  | host (w : Nat)
  | fabric (port : Nat)
deriving DecidableEq, Repr

/-- Wick classes (Table 04-6). -/
inductive WClass where | store | put | chain | remote | other
deriving DecidableEq, Repr

/-- What a write does at its home: bytes, a read-modify-write of 8 bytes (SEMSIG, SIGNAL), or an atomic. -/
inductive WOp where
  | bytes (bs : List Byte)
  | sem (op : SigOp) (v : DWord)
  | rmw (op : AtomOp) (size : Nat) (b : DWord)
  | rmwf (op : AtomFOp) (b : DWord)
  | xchg (size : Nat) (b : DWord)
  | cas (size : Nat) (b new : DWord)
deriving DecidableEq, Repr

/-- A write in flight (R36, R83, R85, R131): `after` must have performed no later, `strong` for a strong store (R86), `tc` once it has arrived, `va` the
virtual address for reports, `ext` the request that carries it to a host or a peer, `full` the words of which the lanes of its instruction together
write every byte (R28), `ent` the index of the chain entry that made it (R73). The units of one line's write are one transaction `txn`, of which `begun` says that a
part has passed the gates (R53). -/
structure Pend where
  id : Nat
  src : Writer
  lid : Nat
  core : Nat
  cls : WClass
  va : DWord
  pa : Nat
  op : WOp
  after : List Nat
  strong : Bool
  tc : Option Nat
  ext : Option Nat
  full : List Nat
  ent : Nat
  txn : Nat
  begun : Bool
deriving DecidableEq, Repr

/-- A lease-cache line of a core (R33 to R35, R43): line number, end of lease, owned; `par` the launch to whose end the lease of a param line lasts (R41). -/
structure Lease where
  core : Nat
  line : Nat
  tEnd : Nat
  owned : Bool
  par : Option Nat
deriving DecidableEq, Repr

/-- A cached translation (R62): core, first page, log2 of the page count, first physical page, writable. -/
structure TlbEntry where
  core : Nat
  page : Nat
  order : Nat
  pfn : Nat
  w : Bool
deriving DecidableEq, Repr

/-- What is asked of a host or a peer package (R101, R375, R378, R380). -/
inductive ExtOp where
  | read (size : Nat)
  | write (bs : List Byte)
  | flush
  | atom (op : AtomOp) (size : Nat) (b : DWord)
  | atomf (op : AtomFOp) (b : DWord)
  | xchg (size : Nat) (b : DWord)
  | cas (size : Nat) (b new : DWord)
  | sem (op : SigOp) (v : DWord)
deriving DecidableEq, Repr

/-- An answer from outside: data, a refusal (OWNERSHIP) or BULKHEAD-DOWN. -/
inductive ExtReply where
  | ok (bs : List Byte)
  | ownership
  | down
deriving DecidableEq, Repr

/-- An access sent to the host link or a fabric port and its answer; `poll` names the lane of a SEMWAIT whose poll it is (R252). A request to a peer carries this
package's number as its source, the peer's as its destination, and the DESTPART of the route (R380); `flit` is the sequence number of the flit that carries it, none
while the port's buffer has no room (R378). -/
structure ExtReq where
  id : Nat
  host : Bool
  world : Nat
  port : Nat
  peer : Nat
  dpart : Nat
  addr : Nat
  op : ExtOp
  sent : Nat
  flit : Option Nat
  poll : Option (Gid × Nat)
  reply : Option ExtReply
deriving DecidableEq, Repr

/-- A range of POT entries (R65, Table 02-7): first physical page, number of pages, the entry; the newest range that holds a page counts. -/
structure PotRange where
  page : Nat
  count : Nat
  entry : Word
deriving DecidableEq, Repr

/-- A page change in progress (R69): pages, the entry to write, zero fill, T_own. -/
structure PageChange where
  page : Nat
  count : Nat
  entry : Word
  fill : Bool
  since : Nat
deriving DecidableEq, Repr

/-! ### Worlds -/

/-- An outstanding fault record (R316): identifier, and the group or chain that waits. -/
structure FaultRec where
  id : Nat
  src : Writer
deriving DecidableEq, Repr

/-- TDI states (R376). -/
inductive Tdi where | unlocked | locked | run
deriving DecidableEq, Repr

/-- State of an SPDM connection (R351). -/
structure Spdm where
  version : Bool
  caps : Bool
  algs : Bool
  session : Bool
  finished : Bool
  large : List Byte
  chunk : Nat
deriving DecidableEq, Repr

/-- Beacon domain states (Table 04-5). -/
inductive DomState where | free | opened | draining | ending
deriving DecidableEq, Repr

/-- A beacon domain (R123 to R127): holder, state, step, the writes and chains DRAINING still waits for, and those that the DRAINING of the next step waits for,
issued after an arrival by groups that have ended since (R100). -/
structure Domain where
  idx : Nat
  holder : Option Nat
  st : DomState
  step : Nat
  owed : List Nat
  chains : List Nat
  nextOwed : List Nat
  nextChains : List Nat
deriving DecidableEq, Repr

/-- A saved context (R324): the groups with the order in which their cores serve them (R162), the blocks and chains of the world, and its beacon
domains; `bad` when a word is uncorrectable
(R74), `tamper` when its seal does not verify (R325). -/
structure SavedCtx where
  groups : List Group
  rr : List Gid
  blocks : List Block
  chains : List Chain
  doms : List Domain
  bad : Bool
  tamper : Bool
deriving DecidableEq, Repr

/-- A recorded BARRIER at a queue's head (Table 11-3): its level, head index and the recorded sequence numbers per level. -/
structure BarrierRec where
  lvl : Nat
  tails : List (Nat × Nat)
deriving DecidableEq, Repr

/-- A valid imposition entry: what REPLACE wrote, and the object it validated (R298, R299). -/
structure Bound where
  ent : ImpEntry
  obj : Object
deriving DecidableEq, Repr

/-- A debugger's access to memory that has not ended (R360): the launch and the group through which it goes, the address, and for a write its data. -/
structure DbgReq where
  lid : Nat
  gid : Gid
  va : Nat
  wr : Bool
  dat : DWord
deriving DecidableEq, Repr

/-- A stop record that waits for the ring, and the group's earlier writes that must have performed before it (R364). -/
structure StopEntry where
  after : List Nat
  bytes : List Byte
deriving DecidableEq, Repr

/-- A world (INVENTORY, World). `ctl` holds its control page by offset; `imp` its imposition table; `taken` per level the number of
commands that HEAD has passed; `ready` per level for how many ns its head has been ready while the world was scheduled (R300); `modes` the
mode word last launched per KIDX (R329); `tdiLeft` once its interface has left RUN and does not run again (R376); `stopq` the stop records that wait for
room, oldest first (R364); `query` the key of a GO of TRQ that has no answer yet (R329); `swaps` the keys of the galleys that entries named which the last
REPLACE changed, with its instant (R331); `tailAt` the number of the first write that follows the last TAIL write (R293); `dbgExt` the request that a
debugger's access has sent out, `dbgReq` that access while BUSY is set (R360); `atOnce` a GO that came while the world was descheduled, SAVED at once (R348); `torn` once it has been torn down (R303), when only its teardown report is left. -/
structure World where
  w : Nat
  part : Nat
  conf : Bool
  frame : Nat
  areas : List LocalArea
  ctl : SMap 64
  imp : List (Nat × Bound)
  nextTag : Nat
  ctx : Option SavedCtx
  hostSaved : Bool
  atOnce : Bool
  busy : Bool
  resuming : Bool
  faults : List FaultRec
  nextFault : Nat
  offerTime : Option Nat
  tdi : Tdi
  tdiLeft : Bool
  stopq : List StopEntry
  spdm : Spdm
  modes : List (Nat × Word)
  barriers : List BarrierRec
  taken : List (Nat × Nat)
  ready : List (Nat × Nat)
  gens : List (GalleyKey × Nat)
  query : Option GalleyKey
  swaps : Nat × List GalleyKey
  tailAt : Nat
  dbgExt : Option Nat
  dbgReq : Option DbgReq
  torn : Bool
deriving DecidableEq, Repr

/-! ### Partitions, bulkheads, package -/

/-- Window descriptor (Table 02-3). -/
structure Window where
  two : Bool
  exporter : Nat
  importer : Nat
  pages : Nat
  base : Nat
deriving DecidableEq, Repr

/-- A window offer (R54). -/
structure Offer where
  id : Nat
  exporter : Nat
  importer : Nat
  page : Nat
  count : Nat
  two : Bool
  time : Nat
deriving DecidableEq, Repr

/-- A window slot of a partition: index, descriptor, and T_close once closing (R57). -/
structure Slot where
  idx : Nat
  win : Window
  closing : Option Nat
deriving DecidableEq, Repr

/-- Frame phases of a partition (R345 to R347): idle, a world in its frame with its end, or an edge gap with its end. -/
inductive Phase2 where
  | idle
  | frame (slot : Nat) (world : Nat) (began until_ : Nat)
  | gap (next : Option (Nat × Nat)) (until_ : Nat)
deriving DecidableEq, Repr

/-- A device-queue entry (R302), with the ns for which it has been ready as its world's oldest. -/
structure DevEntry where
  world : Nat
  bytes : List Byte
  ready : Nat
deriving DecidableEq, Repr

/-- A partition (INVENTORY, Partition). `lockTurn` counts the turns of the lockstep schedule (R370); `markDue` says that an overflow of the replay log is still to be
marked (R371). -/
structure Partition where
  id : Nat
  bulks : List Nat
  owner : Nat
  autoReset : Bool
  ptroot : DWord
  tlbva : DWord
  busy : Option Nat
  busyVa : DWord
  busyerr : Bool
  slots : List Slot
  frames : List Byte
  pendFrames : Option (List Byte)
  phase : Phase2
  doms : List Domain
  devq : List DevEntry
  cursor : Nat
  routes : SMap 32
  replay : Bool
  replayOn : Option (Nat × Nat)
  replayRegs : SMap 64
  replaySeq : Nat
  lockTurn : Nat
  markDue : Bool
  gated : Bool
deriving DecidableEq, Repr

/-- Containment states (Table 02-10); a bulkhead in no partition is held in reset with its rail gated (R49). -/
inductive BState where | off | running | fencing | fenced | resetting
deriving DecidableEq, Repr

/-- An ember record (R372). -/
structure Ember where
  time : DWord
  seq : Nat
  code : Nat
  bulk : Nat
  core : Nat
  world : Nat
  data : DWord
deriving DecidableEq, Repr

/-- A bulkhead (INVENTORY, Bulkhead): `since` is the time its state was entered, `reason` and `word` of its fence (R70, R74). -/
structure Bulk where
  b : Nat
  st : BState
  since : Nat
  reason : Nat
  word : Bool
  ember : List Ember
  seq : Nat
  corrected : Nat
  lowered : Bool
deriving DecidableEq, Repr

/-- An inbound request that an accepted flit carried, not applied yet (R378, R380): source and destination package, DESTPART, offset, operation. -/
structure FabReq where
  src : Nat
  dest : Nat
  part : Nat
  off : Nat
  op : FabOp
deriving DecidableEq, Repr

/-- A fabric port (R353, R378, R379): 0 down, 1 up, 2 held down; peer port, package and key digest; the link key; the next sequence number expected and the failed
replays of that flit; the flits sent and not acknowledged, each with the request that it carries, the next one's number, and the refusals of the oldest in a row;
the requests received and not applied, oldest first. -/
structure Port where
  n : Nat
  st : Nat
  peerPort : Nat
  peer : Nat
  digest : List Byte
  key : List Byte
  seq : Nat
  fails : Nat
  out : List (Nat × Nat)
  oseq : Nat
  ofails : Nat
  inbox : List FabReq
deriving DecidableEq, Repr

/-- What an outside requester is answered: a management command's status, data, a Completer Abort, Unsupported Request, a fabric completion (R374, R376, R377, R380). -/
inductive Reply where
  | status (ok : Bool)
  | data (bs : List Byte)
  | abort
  | ur
  | fabric (st : FabStatus)
deriving DecidableEq, Repr

/-- A management command that waits (R377): one that has been begun and must wait for something, or any other that has come behind it. -/
inductive Managed where
  | dissolve (fn : Fn) (part : Nat)
  | gate (fn : Fn) (part : Nat)
  | offer (fn : Fn) (importer page count : Nat) (two : Bool)
  | accept (fn : Fn) (id : Nat)
  | close (fn : Fn) (slot : Nat)
  | behind (i : Instr)
deriving DecidableEq, Repr

/-! ### Who is acting -/

/-- The fragment that issues (R159): its group, PC, mask and instruction length, and the words for %tinst. -/
structure Issuer where
  gid : Gid
  pc : Word
  mask : Mask
  len : Nat
  inst : BitVec 128
deriving DecidableEq, Repr

/-- The queue command being taken: world and level. -/
structure Taking where
  world : Nat
  lvl : Nat
deriving DecidableEq, Repr

/-- One act of one agent (LOG 1); `early` is the read of one unit of a group's next load by one of its lanes (R79), `earlyChain` that of one word or byte of a
chain's unit (R77). -/
inductive Act where
  | issue (g : Gid)
  | early (g : Gid) (lane pa n : Nat)
  | chain (id : Nat)
  | earlyChain (id pa n : Nat)
  | command (w lvl : Nat)
  | event (i : Instr)
  | idle
deriving DecidableEq, Repr

/-- A turn: the package time in ns and the core cycles that pass, then the act. -/
structure Turn where
  dt : Nat
  dc : Nat
  act : Act
deriving DecidableEq, Repr

/-- Why a step stops. Every one is raised only for data that no machine holds, so each is safe: no claim about a machine rests on it. -/
inductive Fault where
  /-- Raised by every program instruction executed while no fragment is issuing: safe. -/
  | noIssuer
  /-- Raised by every copy-chain entry executed while no chain is running: safe. -/
  | noEngine
  /-- Raised by every queue command executed while no command is being taken: safe. -/
  | noCommand
deriving DecidableEq, Repr

/-- Why a step is refused. -/
inductive Refusal where
  /-- Raised only by a refused arm of `exec`, for an instruction that has no meaning yet: safe. -/
  | notModelled (mnemonic : String)
deriving DecidableEq, Repr

/-- The package. `arrays` is counter 39 of every core, `counts` the other counters of Table 15-4 by core × 64 + k (R367); `mgmt` holds the management commands that wait,
in order of arrival (R377). -/
structure State where
  -- time and identities
  now : Nat
  cycles : Nat
  cycBase : SMap 64
  retired : SMap 32
  arrays : SMap 64
  counts : SMap 64
  serial : Nat
  fresh : Nat
  -- memory system
  mem : Memory
  eccBad : List Nat
  eccSoft : List Nat
  tagBad : List Nat
  written : List Nat
  pend : List Pend
  leases : List Lease
  lmax : List (Nat × Nat)
  tlb : List TlbEntry
  ext : List ExtReq
  -- ownership
  pot : List PotRange
  access : SMap 32
  changes : List PageChange
  offers : List Offer
  -- programs
  groups : List Group
  rr : List Gid
  blocks : List Block
  chains : List Chain
  launches : List Launch
  -- tenants
  parts : List Partition
  worlds : List World
  bulks : List Bulk
  -- package
  galleys : List Galley
  safeKeys : List GalleyKey
  translating : List (Nat × Nat × GalleyKey)
  frozen : List Nat
  boot : DWord
  firmware : Nat
  staged : Option (Nat × Bool)
  fused : Nat
  stored : List (List Nat × Nat)
  ports : List Port
  reply : Option Reply
  mgmt : List Managed
  -- the model's own
  agenda : List Turn
  issuer : Option Issuer
  engine : Option Nat
  cmd : Option Taking
deriving DecidableEq, Repr

/-- Power-on, before COLD_BOOT (R382): nothing is booted, formed or placed; every register word that Table 16-5 and the POT give is at its
reset value, every bulkhead is in reset with its rail gated (R49), every port is down (LOG 4). -/
def State.reset : State where
  now := 0
  cycles := 0
  cycBase := []
  retired := []
  arrays := []
  counts := []
  serial := 0
  fresh := 0
  mem := []
  eccBad := []
  eccSoft := []
  tagBad := []
  written := []
  pend := []
  leases := []
  lmax := []
  tlb := []
  ext := []
  pot := []
  access := []
  changes := []
  offers := []
  groups := []
  rr := []
  blocks := []
  chains := []
  launches := []
  parts := []
  worlds := []
  bulks := (List.range 24).map fun b =>
    { b := b, st := .off, since := 0, reason := 0, word := false, ember := [], seq := 0, corrected := 0, lowered := false }
  galleys := []
  safeKeys := []
  translating := []
  frozen := []
  boot := 0
  firmware := 0
  staged := none
  fused := 0
  stored := []
  ports := (List.range 12).map fun n =>
    { n := n, st := 0, peerPort := 0, peer := 0, digest := [], key := [], seq := 0, fails := 0, out := [], oseq := 0, ofails := 0, inbox := [] }
  reply := none
  mgmt := []
  agenda := []
  issuer := none
  engine := none
  cmd := none

end Sys2Proof.Machine
end

