-- ==== Sys2Proof/Machine/Ops.lean ====
section
/-! DEFINITION. The named operations over storage, registers and PC tables, trap entry and return, and launch abort. -/

namespace Sys2Proof.Machine

/-- The outcome of a step of this machine. -/
abbrev Out := Host.Outcome State Fault Refusal

/-! ### Sparse storage -/

/-- The value at a key; an unlisted key reads as zero. -/
def SMap.get {w : Nat} : SMap w → Nat → BitVec w
  | [], _ => 0
  | (a, v) :: r, k => if a = k then v else SMap.get r k

/-- Put a value at a key, in its place in the order. -/
def SMap.insert {w : Nat} : SMap w → Nat → BitVec w → SMap w
  | [], k, v => [(k, v)]
  | (a, x) :: r, k, v =>
    if k < a then (k, v) :: (a, x) :: r
    else if k = a then (k, v) :: r
    else (a, x) :: SMap.insert r k v

/-- Set a key, keeping the canonical form: a key set to zero is not listed. -/
def SMap.set {w : Nat} (m : SMap w) (k : Nat) (v : BitVec w) : SMap w := if v = 0 then m.filter fun e => e.1 ≠ k else SMap.insert m k v

/-- Keys rising from `lo`, no entry zero. -/
def SMap.wfFrom {w : Nat} : Nat → SMap w → Bool
  | _, [] => true
  | lo, (a, v) :: r => decide (lo ≤ a) && decide (v ≠ 0) && SMap.wfFrom (a + 1) r

/-- The canonical form. -/
def SMap.wf {w : Nat} (m : SMap w) : Bool := SMap.wfFrom 0 m

/-- The canonical form of memory. -/
def Memory.wf (m : Memory) : Bool := SMap.wf (w := 8) m

/-- Drop every key that `f` selects: those keys then read as zero. -/
def SMap.drop {w : Nat} (m : SMap w) (f : Nat → Bool) : SMap w := m.filter fun e => !f e.1

/-- One byte of memory. -/
def Memory.get (m : Memory) (a : Nat) : Byte := SMap.get (w := 8) m a

/-- Write one byte of memory. -/
def Memory.set (m : Memory) (a : Nat) (v : Byte) : Memory := SMap.set (w := 8) m a v

/-- `n` bytes of memory from `a`. -/
def Memory.read (m : Memory) : Nat → Nat → List Byte
  | _, 0 => []
  | a, n + 1 => Memory.get m a :: Memory.read m (a + 1) n

/-- Write bytes of memory from `a`. -/
def Memory.write (m : Memory) : Nat → List Byte → Memory
  | _, [] => m
  | a, b :: bs => Memory.write (Memory.set m a b) (a + 1) bs

/-- Zero every byte that `f` selects (R20, R51, R69). -/
def Memory.zero (m : Memory) (f : Nat → Bool) : Memory := SMap.drop (w := 8) m f

/-! ### Association lists -/

/-- The value listed for a number, or a default. -/
def look {α : Type} (d : α) : List (Nat × α) → Nat → α
  | [], _ => d
  | (a, v) :: r, k => if a = k then v else look d r k

/-- Replace the value listed for a number. -/
def put {α : Type} (l : List (Nat × α)) (k : Nat) (v : α) : List (Nat × α) := (k, v) :: l.filter fun e => e.1 ≠ k

/-! ### Lanes -/

/-- The lanes of a mask, ascending (R154). -/
def lanes (m : Mask) : List Nat := (List.range 64).filter fun i => m.getLsbD i

/-- The mask of a list of lanes. -/
def maskOf : List Nat → Mask
  | [] => 0
  | l :: ls => BitVec.ofNat 64 (2 ^ l) ||| maskOf ls

def inMask (m : Mask) (l : Nat) : Bool := m.getLsbD l

def popcount (m : Mask) : Nat := (lanes m).length

/-! ### Finding and changing the parts of the state -/

def State.group? (s : State) (g : Gid) : Option Group := s.groups.find? fun x => x.gid = g
def State.modGroup (s : State) (g : Gid) (f : Group → Group) : State :=
  { s with groups := s.groups.map fun x => if x.gid = g then f x else x }
def State.block? (s : State) (lid idx : Nat) : Option Block := s.blocks.find? fun x => x.lid = lid && x.idx = idx
def State.modBlock (s : State) (lid idx : Nat) (f : Block → Block) : State :=
  { s with blocks := s.blocks.map fun x => if x.lid = lid && x.idx = idx then f x else x }
def State.launch? (s : State) (lid : Nat) : Option Launch := s.launches.find? fun x => x.lid = lid
def State.modLaunch (s : State) (lid : Nat) (f : Launch → Launch) : State :=
  { s with launches := s.launches.map fun x => if x.lid = lid then f x else x }
def State.chain? (s : State) (id : Nat) : Option Chain := s.chains.find? fun x => x.id = id
def State.modChain (s : State) (id : Nat) (f : Chain → Chain) : State :=
  { s with chains := s.chains.map fun x => if x.id = id then f x else x }
def State.world? (s : State) (w : Nat) : Option World := s.worlds.find? fun x => x.w = w
def State.modWorld (s : State) (w : Nat) (f : World → World) : State :=
  { s with worlds := s.worlds.map fun x => if x.w = w then f x else x }
def State.part? (s : State) (p : Nat) : Option Partition := s.parts.find? fun x => x.id = p
def State.modPart (s : State) (p : Nat) (f : Partition → Partition) : State :=
  { s with parts := s.parts.map fun x => if x.id = p then f x else x }
def State.bulk? (s : State) (b : Nat) : Option Bulk := s.bulks.find? fun x => x.b = b
def State.modBulk (s : State) (b : Nat) (f : Bulk → Bulk) : State :=
  { s with bulks := s.bulks.map fun x => if x.b = b then f x else x }
def State.galley? (s : State) (id : Nat) : Option Galley := s.galleys.find? fun x => x.id = id

/-- The bulkhead of a core (R48). -/
def bulkOf (core : Nat) : Nat := core / 32

/-- One control-page register of a world. -/
def World.reg (x : World) (off : Nat) : DWord := SMap.get x.ctl off
def World.setReg (x : World) (off : Nat) (v : DWord) : World := { x with ctl := SMap.set x.ctl off v }
/-- Replace bits [lo + n - 1 : lo] of a control-page register. -/
def World.setField (x : World) (off lo n v : Nat) : World :=
  let r := (x.reg off).toNat
  x.setReg off (BitVec.ofNat 64 (r - field r lo n * 2 ^ lo + v % 2 ^ n * 2 ^ lo))
def World.fieldOf (x : World) (off lo n : Nat) : Nat := field (x.reg off).toNat lo n

/-- Add an event to a bulkhead's ember log, keeping the last 4,096 (R372). -/
def State.ember (s : State) (b code core world : Nat) (data : DWord) : State :=
  s.modBulk b fun x =>
    let e : Ember := ⟨BitVec.ofNat 64 s.now, x.seq, code, b, core, world, data⟩
    { x with ember := (x.ember ++ [e]).drop (x.ember.length + 1 - 4096), seq := x.seq + 1 }

/-! ### The issuing fragment -/

/-- What a program instruction acts on: the issuing fragment, its group, block and launch. -/
structure Ctx where
  is : Issuer
  g : Group
  b : Block
  l : Launch

/-- What an issuing fragment acts on. -/
def State.ctxOf (s : State) (is : Issuer) : Option Ctx :=
  match s.group? is.gid, s.block? is.gid.lid is.gid.blk, s.launch? is.gid.lid with
  | some g, some b, some l => some ⟨is, g, b, l⟩
  | _, _, _ => none

def State.ctx? (s : State) : Option Ctx :=
  match s.issuer with
  | none => none
  | some is => s.ctxOf is

/-- Run a program instruction for the issuing fragment. -/
def withIssuer (s : State) (f : Ctx → Out) : Out :=
  match s.ctx? with
  | none => .fault .noIssuer
  | some c => f c

def Ctx.w64 (c : Ctx) : Bool := c.l.w64
def Ctx.width (c : Ctx) : Nat := if c.l.w64 then 64 else 32
def Ctx.gid (c : Ctx) : Gid := c.is.gid
def Ctx.core (c : Ctx) : Nat := c.b.core

/-- One predicate of a lane: p0 reads 1 (R177, R265). -/
def Group.pred (g : Group) (lane i : Nat) : Bool := i = 0 || (SMap.get g.p lane).getLsbD i

/-- Write a predicate; a write to p0 is discarded. -/
def Group.setPred (g : Group) (lane i : Nat) (v : Bool) : Group :=
  if i = 0 then g else
    let x := (SMap.get g.p lane).toNat
    { g with p := SMap.set g.p lane (BitVec.ofNat 8 (x - field x i 1 * 2 ^ i + b2n v * 2 ^ i)) }

/-- Does the guard hold in a lane (R177)? -/
def Group.guard (g : Group) (hd : Hdr) (lane : Nat) : Bool := g.pred lane hd.gp != hd.neg

/-- Act: the lanes of the fragment whose guard holds (R159). -/
def Ctx.act (c : Ctx) (hd : Hdr) : Mask := maskOf ((lanes c.is.mask).filter fun l => c.g.guard hd l)

/-! ### Registers -/

/-- The v registers that an outstanding matrix instruction names: D, then A and B when they are registers (R98). -/
def matRanges (w64 : Bool) (i : Instr) : List (Nat × Nat) :=
  match i with
  | .mma _ ty n64 _ mx _ d a b =>
    [(d, if n64 then 64 else 32), (a, aRegs ty false false mx), (b, bRegs w64 n64 ty false false mx)]
  | .mmas _ ty n64 _ mx _ _ _ areg breg d a b =>
    [(d, if n64 then 64 else 32)] ++ (if areg then [(a, aRegs ty false false mx)] else []) ++
    (if breg then [(b, bRegs w64 n64 ty false false mx)] else [])
  | .mmasp _ ty n64 _ mx _ _ _ areg breg k4 d a b =>
    [(d, if n64 then 64 else 32)] ++ (if areg then [(a, aRegs ty true k4 mx)] else []) ++
    (if breg then [(b, bRegs w64 n64 ty true k4 mx)] else [])
  | .mzero _ n64 d => [(d, if n64 then 64 else 32)]
  | _ => []

/-- Does a matrix instruction not yet waited for name v register `r`? -/
def Mat.names (w64 : Bool) (m : Mat) (r : Nat) : Bool :=
  (matRanges w64 m.ins).any fun e => decide (e.1 ≤ r) && decide (r < e.1 + e.2)

def Group.hazard (g : Group) (w64 : Bool) (r : Nat) : Bool := g.mats.any fun m => m.names w64 r

/-- Read v register `r` of a lane: free bits while a matrix instruction holds it (R98, LOG 3). -/
def Ctx.readV (c : Ctx) (fresh lane r : Nat) : Word :=
  if c.g.hazard c.w64 r then Config.freeReg fresh lane r else SMap.get c.g.v (r * 64 + lane)

/-- Write v register `r` of a lane; while a matrix instruction holds it the register and that result are left undefined (R98). -/
def Group.writeV (g : Group) (w64 : Bool) (fresh lane r : Nat) (x : Word) : Group :=
  if g.hazard w64 r then
    { g with
      v := SMap.set g.v (r * 64 + lane) (Config.freeReg fresh lane r)
      mats := g.mats.map fun m => if m.names w64 r then { m with corrupt := true } else m }
  else { g with v := SMap.set g.v (r * 64 + lane) x }

/-- A register of class v or s, `k` words wide (1 or 2), in a lane; h as its 64-bit image. -/
def Ctx.readReg (c : Ctx) (fresh k lane : Nat) (o : Opnd) : DWord :=
  match o.cls with
  | .v => if k = 2 then c.readV fresh lane (o.n + 1) ++ c.readV fresh lane o.n
          else (c.readV fresh lane o.n).setWidth 64
  | .s => if k = 2 then SMap.get c.g.s (o.n + 1) ++ SMap.get c.g.s o.n else (SMap.get c.g.s o.n).setWidth 64
  | .h => SMap.get c.g.h (o.n * 64 + lane)
  | .q => 0

/-- Write a register of class v, s or h in a lane. -/
def Group.writeReg (g : Group) (w64 : Bool) (fresh k lane : Nat) (o : Opnd) (x : DWord) : Group :=
  match o.cls with
  | .v => let g := g.writeV w64 fresh lane o.n (x.setWidth 32)
          if k = 2 then g.writeV w64 fresh lane (o.n + 1) (x.extractLsb' 32 32) else g
  | .s => let t := SMap.set g.s o.n (x.setWidth 32)
          { g with s := if k = 2 then SMap.set t (o.n + 1) (x.extractLsb' 32 32) else t }
  | .h => { g with h := SMap.set g.h (o.n * 64 + lane) x }
  | .q => g

/-- Set sticky flags in a lane (R145). -/
def Group.flag (g : Group) (lane : Nat) (fl : Word) : Group :=
  { g with fpst := SMap.set g.fpst lane (SMap.get g.fpst lane ||| fl) }

/-! ### PC tables -/

/-- A running fragment at a PC, with wait 0. -/
def mkFrag (pc : Word) (m : Mask) : Frag := { pc := pc, mask := m, wait := 0, head := 0, yield := none, park := none }

/-- May two fragments of one PC be one (R160)? Both unparked, or both parked, on the same side of a running handler. -/
def Frag.joins (hl : Mask) (a b : Frag) : Bool :=
  a.pc = b.pc && a.park.isSome == b.park.isSome && decide ((a.mask &&& hl = 0) = (b.mask &&& hl = 0))

/-- The waits of two fragments parked at one convergence point. -/
def joinPark : Option (Nat × Park) → Option (Nat × Park) → Option (Nat × Park)
  | some (n, .waitr pd xs), some (_, .waitr _ ys) => some (n, .waitr pd (xs ++ ys))
  | some (n, .sync xs), some (_, .sync ys) => some (n, .sync (xs ++ ys))
  | some (n, .semwait c sc o xs), some (_, .semwait _ _ _ ys) => some (n, .semwait c sc o (xs ++ ys))
  | a, _ => a

/-- Add a fragment, merging it with the one it joins (R159, R160, R217). -/
def addFrag (hl : Mask) : List Frag → Frag → List Frag
  | [], f => if f.mask = 0 then [] else [f]
  | x :: xs, f =>
    if f.mask = 0 then x :: xs
    else if x.joins hl f then
      { x with mask := x.mask ||| f.mask, wait := min x.wait f.wait, head := 0, yield := none, park := joinPark x.park f.park } :: xs
    else x :: addFrag hl xs f

def addFrags (hl : Mask) (fs : List Frag) : List Frag → List Frag
  | [] => fs
  | n :: ns => addFrags hl (addFrag hl fs n) ns

/-- The lanes of a running handler; none is 0. -/
def Group.hlanes (g : Group) : Mask := match g.handler with | none => 0 | some h => h.lanes

/-- May a fragment issue at all: unparked, and not held by a running handler (R312)? -/
def Group.active (g : Group) (f : Frag) : Bool :=
  f.park.isNone && (g.hlanes = 0 || f.mask &&& g.hlanes ≠ 0)

/-- The fragment with the lowest PC. -/
def lowestPc : List Frag → Option Frag
  | [] => none
  | f :: fs => match lowestPc fs with | none => some f | some x => if x.pc.toNat < f.pc.toNat then some x else some f

/-- The fragment with the largest wait, ties to the lowest PC. -/
def largestWait : List Frag → Option Frag
  | [] => none
  | f :: fs =>
    match largestWait fs with
    | none => some f
    | some x => if x.wait > f.wait || (x.wait = f.wait && x.pc.toNat < f.pc.toNat) then some x else some f

/-- The choice of R159, with the mark of R217; true when the fragment has just become the head. A mark waits for no fragment that a running handler holds
(DESIGN CHOICE, LOG 125). -/
def Group.choose (g : Group) : Option (Frag × Bool) :=
  let fs := g.frags.filter g.active
  match fs.find? (fun f => 0 < f.head) with
  | some f => some (f, false)
  | none =>
    match largestWait (fs.filter fun f => 4096 ≤ f.wait) with
    | some f => some (f, true)
    | none =>
      let others (f : Frag) : Mask := fs.foldl (fun m x => if x.pc = f.pc then m else m ||| x.mask) 0
      let free := fs.filter fun f => match f.yield with | none => true | some m => m &&& others f = 0
      match lowestPc (if free.isEmpty then fs else free) with
      | some f => some (f, false)
      | none => none

/-- What is left of a YIELD mark (R217): the lanes it waits for that still lie in an unparked fragment, and in one that was no part of a merge
between `old` and `new`; no mark when none is left. -/
def keepMark (old new : List Frag) (f : Frag) : Frag :=
  match f.yield with
  | none => f
  | some y =>
    let still := new.foldl (fun m x => if x.park.isNone then m ||| x.mask else m) 0
    let merged := old.foldl (fun m x => if new.any fun z => x.mask &&& z.mask ≠ 0 && z.mask &&& ~~~ x.mask ≠ 0 then m ||| x.mask else m) 0
    let y := y &&& still &&& ~~~ merged &&& ~~~ f.mask
    { f with yield := if y = 0 then none else some y }

/-- Put new fragments into a table: the YIELD marks end that this ends (R217). -/
def joinFrags (hl : Mask) (fs news : List Frag) : List Frag :=
  let r := addFrags hl fs news
  r.map (keepMark fs r)

/-- A fragment that comes in without a mark takes over the mark of the fragment that issued (R217). -/
def Frag.marked (mark : Option Mask) (n : Frag) : Frag := if n.park.isNone && n.yield.isNone then { n with yield := mark } else n

/-- The only fragment that comes in goes on with the head's count (R159). -/
def headed (head : Nat) : List Frag → List Frag
  | [n] => if n.park.isNone then [{ n with head := head }] else [n]
  | ns => ns

/-- The fragments after an issue of the lanes `m` at `pc` (R159): they are taken out of their fragment (lanes that have joined it since it issued
stay there), the waits of the others that are not parked and every mark move on, and the given fragments come in with wait 0. A fragment that keeps
all its lanes stays the head and keeps its mark. What lanes have read ahead is used up. -/
def Group.issued (g : Group) (pc : Word) (m : Mask) (news : List Frag) : Group :=
  let mine (f : Frag) : Bool := f.pc = pc && f.park.isNone && f.mask &&& m ≠ 0
  let was := g.frags.find? mine
  let head := match was with | none => 0 | some f => f.head - 1
  let mark := was.bind fun f => f.yield
  let rest := (g.frags.map fun f =>
    if mine f then { f with mask := f.mask &&& ~~~ m, head := 0 }
    else
      let y := f.yield.map fun y => y &&& ~~~ m
      if f.park.isNone then { f with wait := f.wait + 1, yield := y } else { f with yield := y }).filter fun f => f.mask ≠ 0
  { g with frags := joinFrags g.hlanes rest (headed head (news.map (Frag.marked mark))), pass := false, stuck := none, ahead := [] }

/-- The next fragments of a set of lanes: one for each distinct next PC (R160). -/
def spread (next : Nat → Word) : List Nat → List Frag
  | [] => []
  | l :: ls => addFrag 0 (spread next ls) (mkFrag (next l) (maskOf [l]))

/-- Lanes leave a parked fragment and continue at `pc + len`. -/
def Group.letGo (g : Group) (pc : Word) (m : Mask) (len : Nat) : Group :=
  let fs := g.frags.map fun f =>
    if f.pc = pc && f.park.isSome then
      { f with mask := f.mask &&& ~~~ m,
               park := match f.park with
                 | some (n, .waitr pd ws) => some (n, .waitr pd (ws.filter fun x => !inMask m x.1))
                 | some (n, .sync ws) => some (n, .sync (ws.filter fun x => !inMask m x.1))
                 | some (n, .semwait c sc o ws) => some (n, .semwait c sc o (ws.filter fun x => !inMask m x.1))
                 | x => x }
    else f
  { g with frags := joinFrags g.hlanes (fs.filter fun f => f.mask ≠ 0) [mkFrag (pc + BitVec.ofNat 32 len) m] }

/-- The lanes of a mask that neither a debugger stop (R362) nor a running handler keeps parked (R312). -/
def Group.loose (g : Group) (m : Mask) : Mask := if g.stop.isSome then 0 else if g.hlanes = 0 then m else m &&& g.hlanes

/-- Lanes whose wait has ended continue at `pc + len` (R170, R248, R252, R125); lanes that a running handler or a debugger stop keeps parked do so when it
ends (R312, R362). -/
def Group.release (g : Group) (pc : Word) (m : Mask) (len : Nat) : Group :=
  let now := g.loose m
  let g1 := g.letGo pc now len
  if m = now then g1 else { g1 with freed := g1.freed ++ [(pc, len, m &&& ~~~ now)] }

/-! ### Launch abort and containment -/

/-- A beacon domain that nobody holds (Table 04-5). -/
def Domain.freed (d : Domain) : Domain :=
  { d with holder := none, st := .free, step := 0, owed := [], chains := [], nextOwed := [], nextChains := [] }

/-- Stop a launch at once (R305, R317): its groups issue nothing more, its chains write nothing more; what is in flight performs. A beacon
domain it holds becomes FREE (R125). A launch that is already aborting or over is left. -/
def State.abort (s : State) (lid cause sub : Nat) (nested teardown : Bool) : State :=
  match s.launch? lid with
  | none => s
  | some l =>
    match l.status with
    | .running =>
      let s := s.modLaunch lid fun x =>
        { x with status := .aborting cause sub nested teardown false (BitVec.ofNat 64 s.now), dom := none,
                 holds := [] }
      let s := { s with chains := s.chains.filter fun k => k.gid.lid ≠ lid }
      let s := s.modPart l.part fun p =>
        { p with doms := p.doms.map fun d =>
            if d.holder = some lid then d.freed else d }
      match s.part? l.part with
      | none => s
      | some p => s.ember (p.bulks.headD 0) 0x08 0xFFFF l.world (BitVec.ofNat 64 cause)
    | _ => s

/-- A bulkhead fences itself (R70, R71): FENCING begins. An error that is no word of storage is logged with page 0 (Table 15-7). -/
def State.fence (s : State) (b reason : Nat) (word : Bool) : State :=
  match s.bulk? b with
  | some x =>
    if x.st = .running then
      let s1 := if reason = 1 && !word then s.ember b 0x02 0xFFFF 0xFF 0 else s
      (s1.modBulk b fun x => { x with st := .fencing, since := s.now, reason := reason, word := word }).ember b 0x03 0xFFFF 0xFF
        (BitVec.ofNat 64 reason)
    else s
  | none => s

/-! ### Traps (R308 to R312) -/

/-- Cause codes of Table 12-1. -/
def Cause.illegal : Nat := 0x01
def Cause.emul : Nat := 0x02
def Cause.uniform : Nat := 0x03
def Cause.fetch : Nat := 0x04
def Cause.align : Nat := 0x05
def Cause.bounds : Nat := 0x06
def Cause.page : Nat := 0x07
def Cause.ownership : Nat := 0x08
def Cause.uncorrectable : Nat := 0x09
def Cause.integrity : Nat := 0x0A
def Cause.sparse : Nat := 0x0B
def Cause.down : Nat := 0x0C
def Cause.brk : Nat := 0x0D
def Cause.trap : Nat := 0x0E
def Cause.contained : Nat := 0x20
def Cause.watchdog : Nat := 0x21

/-- Value of the kernel entry's handler field when the kernel has none (Table 07-14). -/
def noHandler : Word := 0xFFFFFFFF

/-- The handler that takes a cause (Table 12-1, R311): the emulation handler for EMUL when it is enabled, else the trap handler when it is
enabled; UNCORRECTABLE has none. FLAGS[3] is TRAPEN and FLAGS[4] EMULEN (R295). -/
def Launch.handlerOf (l : Launch) (cause : Nat) : Option Word :=
  let trapEn := l.rcd.flags.getLsbD 3 && l.obj.kernel.traph ≠ noHandler
  let emulEn := l.rcd.flags.getLsbD 4 && l.obj.kernel.emulh ≠ noHandler
  if cause = Cause.uncorrectable then none
  else if cause = Cause.emul && emulEn then some l.obj.kernel.emulh
  else if trapEn then some l.obj.kernel.traph
  else none

/-- Trap entry: the frame is written; without a handler, or inside one, the launch is aborted (R311); otherwise the lanes `e` become one
fragment at the handler's entry and the other lanes of the fragment go on at the next instruction (R312). -/
def takeTrap (c : Ctx) (cause : Nat) (faulting : Mask) (e : Mask) (info : DWord) (addr : Nat → DWord) (s : State) : State :=
  let frame : TrapFrame :=
    { cause := BitVec.ofNat 32 cause, inst := c.is.inst, mask := faulting, pc := c.is.pc,
      addr := (lanes faulting).foldl (fun m l => SMap.set m l (addr l)) [], info := info }
  let s := s.modGroup c.gid fun g => { g with frame := frame }
  if c.g.handler.isSome then
    if cause = Cause.uncorrectable then s.abort c.gid.lid Cause.contained cause true false else s.abort c.gid.lid cause 0 true false
  else
    match c.l.handlerOf cause with
    | none =>
      if cause = Cause.uncorrectable then s.abort c.gid.lid Cause.contained cause false false
      else s.abort c.gid.lid cause 0 false false
    | some h =>
      s.modGroup c.gid fun g =>
        let g := { g with handler := if e = 0 then none else some { lanes := e, len := c.is.len } }
        let out := c.is.mask &&& ~~~ e
        g.issued c.is.pc c.is.mask
          [mkFrag h e, mkFrag (c.is.pc + BitVec.ofNat 32 c.is.len) out]

/-- A run-time ILLEGAL (R195, reason 0x10) on the named lanes, entered by Act. -/
def illegalRun (c : Ctx) (m act : Mask) (s : State) : State := takeTrap c Cause.illegal m act 0x10 (fun _ => 0) s

/-- Resume after a handler (R220): every lane that waits at a TRET goes to %tpc, or past the instruction there; the parked lanes whose wait ended while
the handler ran go on too (R312). The YIELD marks end that a merge ends (R217). -/
def Group.tretDone (g : Group) : Group :=
  match g.handler with
  | none => g
  | some h =>
    let at_ (next : Bool) : Mask := g.frags.foldl (fun m f =>
      match f.park with
      | some (_, .tret n) => if n = next then m ||| f.mask else m
      | _ => m) 0
    let again := at_ false
    let past := at_ true
    if (again ||| past) &&& h.lanes = h.lanes then
      let fs := g.frags.filter fun f => match f.park with | some (_, .tret _) => false | _ => true
      g.freed.foldl (fun g e => g.letGo e.1 e.2.2 e.2.1)
        { g with
          handler := none
          freed := []
          frags := let r := addFrags 0 [] (fs ++ [mkFrag g.frame.pc again, mkFrag (g.frame.pc + BitVec.ofNat 32 h.len) past]); r.map (keepMark fs r) }
    else g

/-! ### Completion of an instruction -/

/-- The array time of one transfer in core cycles (R25, R30): the byte runs that it touches, by slice offset; with `col` in columns, and with
`store` a line that holds a partly written word counts twice. Bit 8 × i of a mask is byte i of a square; the lines of a square are 32 masks. -/
def arrayTime (col store : Bool) (rs : List (Nat × Nat)) : Nat :=
  let base := (rs.foldl (fun m r => min m r.1) (2 ^ 32)) / 4096 * 4096
  let bytes := rs.foldl (fun m r => m ||| (2 ^ r.2 - 1) <<< (r.1 - base)) 0
  let ones := (2 ^ 4096 - 1) / 15
  let line (i : Nat) : Nat := if col then (2 ^ 4096 - 1) / (2 ^ 128 - 1) * 15 * 2 ^ (4 * i) else (2 ^ 128 - 1) * 2 ^ (128 * i)
  let squares := (List.range (Nat.log2 bytes / 4096 + 1)).map fun q =>
    let x := bytes >>> (4096 * q) % 2 ^ 4096
    if x = 0 then 0
    else
      let some1 := (x ||| x >>> 1 ||| x >>> 2 ||| x >>> 3) &&& ones
      let part := some1 ^^^ (x &&& x >>> 1 &&& x >>> 2 &&& x >>> 3 &&& ones)
      (List.range 32).foldl (fun n i =>
        n + b2n (decide (some1 &&& line i ≠ 0)) + b2n (store && decide (part &&& line i ≠ 0))) 0
  (List.range 8).foldl (fun m k =>
    max m (((List.range squares.length).zip squares).foldl (fun n e => if e.1 % 8 = k then n + e.2 else n) 0)) 0

/-- Count the array time of a transfer in its core's counter (R367). -/
def State.useArrays (s : State) (core : Nat) (col store : Bool) (rs : List (Nat × Nat)) : State :=
  if rs.isEmpty then s
  else { s with arrays := SMap.set s.arrays core (SMap.get s.arrays core + BitVec.ofNat 64 (arrayTime col store rs)) }

/-- A counter of a core moves on (Table 15-4). -/
def State.addCount (s : State) (core k n : Nat) : State :=
  { s with counts := SMap.set s.counts (core * 64 + k) (SMap.get s.counts (core * 64 + k) + BitVec.ofNat 64 n) }

/-- The core has retired one more instruction (R371). -/
def State.count (s : State) (core : Nat) : State := { s with retired := SMap.set s.retired core (SMap.get s.retired core + 1) }

/-- The fragment has issued: its lanes are now in the given fragments (R160). -/
def advance (c : Ctx) (news : List Frag) (s : State) : State :=
  (s.modGroup c.gid fun g => g.issued c.is.pc c.is.mask news).count c.core

/-- Every lane of the issuing fragment goes to its next PC (R160, R204). -/
def retireTo (c : Ctx) (next : Nat → Word) (s : State) : State := advance c (spread next (lanes c.is.mask)) s

/-- PC + len. -/
def Ctx.after (c : Ctx) : Word := c.is.pc + BitVec.ofNat 32 c.is.len

/-- Every lane continues at the next instruction (R204). -/
def retire (c : Ctx) (s : State) : State := advance c [mkFrag c.after c.is.mask] s

/-- The lanes `m` park at the instruction; the other lanes of the fragment go on (R158, R166). -/
def parkAt (c : Ctx) (m : Mask) (p : Park) (s : State) : State :=
  advance c [{ mkFrag c.is.pc m with park := some (c.is.len, p) }, mkFrag c.after (c.is.mask &&& ~~~ m)] s

/-- The instruction is not issued now and is tried again at a later turn of its group. -/
def stall (s : State) : Out := .next s

end Sys2Proof.Machine
end

