-- ==== Sys2Proof/Machine/Operands.lean ====
section
/-! DEFINITION. Operand forms: queues as sources and destinations (R128 to R130), sources read lane by lane, results written, and the common
shape of R204 that every arithmetic instruction takes. -/

namespace Sys2Proof.Machine

/-! ### Queues (R128 to R130) -/

def Block.queue? (b : Block) (n : Nat) : Option Queue := b.queues.find? fun q => q.n = n
def Block.setQueue (b : Block) (n : Nat) (es : List (SMap 32)) : Block :=
  { b with queues := b.queues.map fun q => if q.n = n then { q with entries := es } else q }

/-- What popping gives: an undeclared queue, an empty one, or the block after it and the entry. -/
inductive Popped where
  | undeclared
  | stall (n : Nat)
  | ok (b : Block) (e : SMap 32)

/-- Must group `gi` let another group go first at a queue: one that has stalled there before it (R130)? -/
def Block.behind (b : Block) (gi n : Nat) (push : Bool) : Bool :=
  match b.stalled.find? fun x => x.2.1 = n && x.2.2 == push with
  | none => false
  | some x => x.1 ≠ gi

def Block.pop (b : Block) (gi n : Nat) : Popped :=
  match b.queue? n with
  | none => .undeclared
  | some q =>
    match q.entries with
    | [] => .stall n
    | e :: es => if b.behind gi n false then .stall n else .ok (b.setQueue n es) e

/-- The sources of an instruction: what each lane reads. -/
inductive Fetched where
  | undeclared
  | stall (n : Nat)
  | ok (b : Block) (vals : List (Nat → DWord))

/-- Read operands in order, popping queues in that order (R129); each operand comes with its width in registers. -/
def Ctx.fetch (c : Ctx) (fresh : Nat) : Block → List (Opnd × Nat) → Fetched
  | b, [] => .ok b []
  | b, (o, k) :: os =>
    match o.cls with
    | .q =>
      match b.pop c.is.gid.gi o.n with
      | .undeclared => .undeclared
      | .stall n => .stall n
      | .ok b' e =>
        match Ctx.fetch c fresh b' os with
        | .ok b'' vs => .ok b'' ((fun l => (SMap.get e l).setWidth 64) :: vs)
        | r => r
    | _ =>
      match Ctx.fetch c fresh b os with
      | .ok b'' vs => .ok b'' ((fun l => c.readReg fresh k l o) :: vs)
      | r => r

/-- The group stalls on a queue and joins the end of the order in which the block's stalled groups are served there (R130); what it stalled on before no
longer counts. -/
def queueStall (c : Ctx) (n : Nat) (push : Bool) (s : State) : Out :=
  .next ((s.modGroup c.gid fun g => { g with qwait := true }).modBlock c.gid.lid c.gid.blk fun b =>
    if b.stalled.any (fun x => x = (c.gid.gi, n, push)) then b
    else { b with stalled := (b.stalled.filter fun x => x.1 ≠ c.gid.gi) ++ [(c.gid.gi, n, push)] })

/-- The queue stall of a group is over. -/
def unstall (c : Ctx) (s : State) : State :=
  (s.modGroup c.gid fun g => { g with qwait := false }).modBlock c.gid.lid c.gid.blk fun b =>
    { b with stalled := b.stalled.filter fun x => x.1 ≠ c.gid.gi }

/-- Has every write of these lanes performed, PUTs and chains apart (R90, R97)? Exited threads of the group count as lanes 64 and above. -/
def State.settled (s : State) (g : Gid) (m : Mask) : Bool :=
  s.pend.all fun p => match p.src with
    | .thread x l => !(x = g && p.cls ≠ .put && (inMask m l || decide (64 ≤ l)))
    | _ => true

/-- Have the writes of the threads of the groups that a REGROUP concerns performed, as far as their groups have retired (R90, R171)? -/
def State.retiredSettled (s : State) (g : Gid) (blk : Bool) : Bool :=
  s.pend.all fun p => match p.src with
    | .thread x _ => !(x.lid = g.lid && x.blk = g.blk && (blk || x.gi / 2 = g.gi / 2) && p.cls ≠ .put && (s.group? x).isNone)
    | _ => true

/-- Have the atomics of the lanes performed: every one, or with `strongOnly` the strong ones? An atomic has a read event (R83), which an acq_rel
fence follows, and a strong one comes before every later access (Table 03-4). -/
def State.atomsDone (s : State) (g : Gid) (m : Mask) (strongOnly : Bool) : Bool :=
  s.pend.all fun p => match p.src, p.op with
    | .thread _ _, .bytes _ => true
    | .thread x l, _ => !(x = g && inMask m l && (p.strong || !strongOnly))
    | _, _ => true

/-- What one lane of an instruction computes: its result, a predicate it writes, the flags it raises. -/
structure LaneOut where
  d : DWord := 0
  p : Option (Nat × Bool) := none
  fl : Word := 0

/-- Write the results of lanes into the group: an s destination once, with the value of the lowest lane (R182). -/
def Group.writeOuts (g : Group) (w64 : Bool) (fresh : Nat) (d : Option (Opnd × Nat)) (f : Nat → LaneOut) (act : List Nat) : Group :=
  let g := act.foldl (fun g l =>
    let o := f l
    let g := match o.p with | none => g | some (i, v) => g.setPred l i v
    let g := if o.fl = 0 then g else g.flag l o.fl
    match d with
    | some (dst, k) => if dst.cls = .v || dst.cls = .h then g.writeReg w64 fresh k l dst o.d else g
    | none => g) g
  match d, act with
  | some (dst, k), l :: _ => if dst.cls = .s then g.writeReg w64 fresh k l dst (f l).d else g
  | _, _ => g

/-- Write the results of the lanes of Act into the group. -/
def Ctx.writeLanes (c : Ctx) (fresh : Nat) (d : Option (Opnd × Nat)) (f : Nat → LaneOut) (act : List Nat) (g : Group) : Group :=
  g.writeOuts c.w64 fresh d f act

/-- The common shape of R204: queues popped, none before all can proceed (R129; DEDUCED, LOG 120), every lane of Act reads, every lane computes, every lane writes, a queue destination is
pushed, every lane of the fragment goes on. A push follows the earlier writes of its lanes (Table 03-5). -/
def alu (hd : Hdr) (d : Option (Opnd × Nat)) (srcs : List (Opnd × Nat)) (f : Ctx → Nat → List DWord → LaneOut) (s : State) : Out :=
  withIssuer s fun c =>
    let act := c.act hd
    if act = 0 then .next (retire c s)
    else
      match c.fetch s.fresh c.b srcs with
      | .undeclared => .next (illegalRun c act act s)
      | .stall n => queueStall c n false s
      | .ok b vs =>
        let out (l : Nat) : LaneOut := f c l (vs.map fun v => v l)
        let s1 := (unstall c s).modGroup c.gid (c.writeLanes s.fresh d out (lanes act))
        let s2 := s1.modBlock c.gid.lid c.gid.blk fun x => { x with queues := b.queues }
        match d with
        | some (⟨.q, n⟩, _) =>
          match b.queue? n with
          | none => .next (illegalRun c act act s)
          | some q =>
            if q.depth ≤ q.entries.length || c.b.behind c.gid.gi n true then queueStall c n true s
            else if !s.settled c.gid act then stall s
            else
              let e : SMap 32 := (lanes act).foldl (fun m l => SMap.set m l ((out l).d.setWidth 32)) []
              .next (retire c (s2.modBlock c.gid.lid c.gid.blk fun x => x.setQueue n (q.entries ++ [e])))
        | _ => .next (retire c s2)

end Sys2Proof.Machine
end

