-- ==== Sys2Proof/Machine/Flags.lean ====
section
/-! DEFINITION. Number formats, exact results, rounding and the sticky flags (05): every rounded operation forms an exact value and rounds it
once here. -/

namespace Sys2Proof.Machine

/-! ### Flags of %fpst (Table 05-7) -/

def flIV : Word := 1
def flDZ : Word := 2
def flOF : Word := 4
def flUF : Word := 8
def flNX : Word := 16

/-- A flag where a condition holds. -/
def flagIf (b : Bool) (f : Word) : Word := if b then f else 0

/-! ### The mode word (Table 05-6) -/

def Mode.rnd (fpm : Word) : Nat := field fpm.toNat 0 3
def Mode.ftzi (fpm : Word) : Bool := fpm.getLsbD 3
def Mode.ftzo (fpm : Word) : Bool := fpm.getLsbD 4
def Mode.nanp (fpm : Word) : Bool := fpm.getLsbD 5
def Mode.chr (fpm : Word) : Bool := fpm.getLsbD 6
def Mode.lftz (fpm : Word) : Bool := fpm.getLsbD 8
def Mode.lmin (fpm : Word) : Bool := fpm.getLsbD 9
def Mode.lrna (fpm : Word) : Bool := fpm.getLsbD 10
def Mode.lsat (fpm : Word) : Bool := fpm.getLsbD 11

/-- Does a conversion to a format saturate (R146)? -/
def Mode.sat (fpm : Word) (t : FT) (sat : Bool) : Bool := sat || ((t = .e4m3 || t = .e5m2) && Mode.lsat fpm)

/-- What a write or a mode word stores: reserved bits zero, RND of 000, 110 and 111 as 001 (R140). -/
def modeWord (x : Word) : Word :=
  let y := x.toNat % 4096
  let rnd := if y % 8 = 0 || y % 8 = 6 || y % 8 = 7 then 1 else y % 8
  BitVec.ofNat 32 (y - y % 8 - field y 7 1 * 128 + rnd)

/-- %fpm at block start for a mode word and an object's VERSION (R140, R341). -/
def startMode (version : Nat) (mode : Word) : Word :=
  if version = 0x0100 then modeWord mode ||| 0xF00 else modeWord mode

end Sys2Proof.Machine
namespace Sys2Proof

/-- A rounding code with DYN resolved by %fpm.RND (R139). -/
def RM.resolve (rm : RM) (fpm : Word) : RM :=
  match rm with
  | .dyn => match Machine.Mode.rnd fpm with | 2 => .rz | 3 => .ru | 4 => .rd | 5 => .rna | _ => .rne
  | r => r

/-- DYN of CVTF, CVTFI and CVTIF: RNA under LRNA (R146). -/
def RM.resolveCvt (rm : RM) (fpm : Word) : RM := if rm = .dyn && Machine.Mode.lrna fpm then .rna else rm.resolve fpm

end Sys2Proof
namespace Sys2Proof.Machine

/-! ### Formats (Table 05-1) -/

/-- Specials of a format: as IEEE, the one NaN of E4M3, or none. -/
inductive Specials where | ieee | e4m3 | none
deriving DecidableEq, Repr

/-- A format: exponent bits, fraction bits, bias, specials. -/
structure Fm where
  e : Nat
  f : Nat
  bias : Nat
  sp : Specials
deriving DecidableEq, Repr

end Sys2Proof.Machine
namespace Sys2Proof

def FT.fm : FT → Machine.Fm
  | .f32 => ⟨8, 23, 127, .ieee⟩
  | .f16 | .f16x2 => ⟨5, 10, 15, .ieee⟩
  | .bf16 | .bf16x2 => ⟨8, 7, 127, .ieee⟩
  | .f64 => ⟨11, 52, 1023, .ieee⟩
  | .e4m3 => ⟨4, 3, 7, .e4m3⟩
  | .e5m2 => ⟨5, 2, 15, .ieee⟩
  | .e3m2 => ⟨3, 2, 3, .none⟩
  | .e2m3 => ⟨2, 3, 1, .none⟩
  | .e2m1 => ⟨2, 1, 1, .none⟩

/-- Does flushing apply to the type (R142)? -/
def FT.flushes : FT → Bool
  | .f32 | .f16 | .bf16 | .f16x2 | .bf16x2 => true
  | _ => false

/-- Has the format signalling NaNs (R134)? -/
def FT.signals : FT → Bool
  | .e4m3 | .e5m2 | .e3m2 | .e2m3 | .e2m1 => false
  | _ => true

end Sys2Proof
namespace Sys2Proof.Machine

def Fm.bits (m : Fm) : Nat := 1 + m.e + m.f
/-- Exponent of the smallest normal value. -/
def Fm.emin (m : Fm) : Int := 1 - (m.bias : Int)
/-- Significand and unit exponent of the largest finite value. -/
def Fm.maxSig (m : Fm) : Nat := if m.sp = .e4m3 then 14 else 2 ^ (m.f + 1) - 1
def Fm.maxExp (m : Fm) : Int :=
  (if m.sp = .ieee then (2 ^ m.e - 2 : Nat) else (2 ^ m.e - 1 : Nat) : Int) - (m.bias : Int) - (m.f : Int)

/-- A value: NaN with sign, signalling mark and payload aligned to 52 bits; infinity; zero; or ±m × 2^e with m > 0. -/
inductive FV where
  | nan (neg snan : Bool) (pay : Nat)
  | inf (neg : Bool)
  | zero (neg : Bool)
  | fin (neg : Bool) (m : Nat) (e : Int)
deriving DecidableEq, Repr

def FV.isNan : FV → Bool | .nan _ _ _ => true | _ => false
def FV.isSnan : FV → Bool | .nan _ s _ => s | _ => false
def FV.neg : FV → Bool | .nan n _ _ => n | .inf n => n | .zero n => n | .fin n _ _ => n
def FV.setNeg (n : Bool) : FV → FV
  | .nan _ s p => .nan n s p | .inf _ => .inf n | .zero _ => .zero n | .fin _ m e => .fin n m e

/-- Decode the low bits of a register (R133, R134). -/
def decodeF (t : FT) (x : Nat) : FV :=
  let m := t.fm
  let neg := bit x (m.e + m.f)
  let ex := field x m.f m.e
  let fr := field x 0 m.f
  let top := 2 ^ m.e - 1
  if ex = 0 then (if fr = 0 then .zero neg else .fin neg fr (m.emin - m.f))
  else if ex = top && m.sp = .ieee then
    (if fr = 0 then .inf neg else .nan neg (t.signals && !bit fr (m.f - 1)) (fr * 2 ^ (52 - m.f)))
  else if ex = top && m.sp = .e4m3 && fr = 7 then .nan neg false (7 * 2 ^ 49)
  else .fin neg (2 ^ m.f + fr) ((ex : Int) - m.bias - m.f)

/-- Decode an h register (Table 05-11). -/
def decodeH (x : Nat) : FV :=
  let neg := bit x 63
  let ex := field x 52 11
  let fr := field x 5 47
  if ex = 0 then .zero neg
  else if ex = 0x7FF then (if fr = 0 then .inf neg else .nan neg (!bit fr 46) (fr * 32))
  else .fin neg (2 ^ 47 + fr) ((ex : Int) - 1023 - 47)

/-- The image that WRREG stores in an h register (R266). -/
def hImage (x : DWord) : DWord :=
  let n := x.toNat
  if field n 52 11 = 0 then BitVec.ofNat 64 (b2n (bit n 63) * 2 ^ 63) else BitVec.ofNat 64 (n - n % 32)

/-- FTZI: a subnormal input reads as zero (R142). -/
def flushIn (fpm : Word) (m : Fm) (v : FV) : FV :=
  match v with
  | .fin n k e => if Mode.ftzi fpm && decide ((Nat.log2 k : Int) + e < m.emin) then .zero (n && Mode.lftz fpm) else v
  | _ => v

/-- Has a value the form of an F32 value: is it a multiple of the least subnormal? -/
def FV.isF32 (v : FV) : Bool :=
  match v with
  | .fin _ k e => decide (-149 ≤ e) || k % 2 ^ (-149 - e).toNat = 0
  | _ => true

/-- An input operand of type `t` in a register of class `cl`: h at full value (R150), but for the F32 values that it holds under CHR = 1, which FTZI flushes
(R142). -/
def inF (fpm : Word) (t : FT) (cl : Cls) (x : DWord) : FV :=
  if cl = .h then
    let v := decodeH x.toNat
    if Mode.chr fpm && v.isF32 then flushIn fpm FT.f32.fm v else v
  else
    let v := decodeF t x.toNat
    if t.flushes then flushIn fpm t.fm v else v

/-! ### Exact results -/

/-- A positive exact number: the exponent of its leading bit, and for each k the integer part of x × 2^k with whether something is cut. -/
structure Mag where
  lg : Int
  tr : Int → Nat × Bool

/-- m × 2^e. -/
def Mag.dy (m : Nat) (e : Int) : Mag where
  lg := (Nat.log2 m : Int) + e
  tr k := if 0 ≤ e + k then (m * 2 ^ (e + k).toNat, false)
          else (m / 2 ^ (-(e + k)).toNat, m % 2 ^ (-(e + k)).toNat ≠ 0)

/-- a / b × 2^e. -/
def Mag.ratio (a b : Nat) (e : Int) : Mag where
  lg := let d := (Nat.log2 a : Int) - (Nat.log2 b : Int)
        (if a * 2 ^ (-d).toNat ≥ b * 2 ^ d.toNat then d else d - 1) + e
  tr k := let a' := a * 2 ^ (e + k).toNat
          let b' := b * 2 ^ (-(e + k)).toNat
          (a' / b', a' % b' ≠ 0)

/-- Integer square root, from the bit below `i` down. -/
def isqrtGo (n : Nat) : Nat → Nat → Nat
  | 0, r => r
  | i + 1, r => if (r + 2 ^ i) * (r + 2 ^ i) ≤ n then isqrtGo n i (r + 2 ^ i) else isqrtGo n i r

def isqrt (n : Nat) : Nat := isqrtGo n (Nat.log2 n / 2 + 1) 0

/-- √(m × 2^e). -/
def Mag.sqrt (m : Nat) (e : Int) : Mag :=
  let (m, e) := if e % 2 = 0 then (m, e) else (2 * m, e - 1)
  { lg := ((Nat.log2 m : Int) + e) / 2
    tr := fun k =>
      let n := e + 2 * k
      let a := m * 2 ^ n.toNat
      let d := 2 ^ (-n).toNat
      let r := isqrt (a / d)
      (r, r * r * d ≠ a) }

/-- 1 / √(m × 2^e). -/
def Mag.rsqrt (m : Nat) (e : Int) : Mag :=
  let tr (k : Int) : Nat × Bool :=
    let n := 2 * k - e
    let a := 2 ^ n.toNat
    let d := m * 2 ^ (-n).toNat
    let r := isqrt (a / d)
    (r, r * r * d ≠ a)
  let k0 : Int := ((Nat.log2 m : Int) + e) / 2 + 4
  { lg := (Nat.log2 (tr k0).1 : Int) - k0, tr := tr }

/-- An exact result: a NaN with the operand it comes from, an infinity, a zero, or a nonzero number. -/
inductive EX where
  | nan (src : Option (Bool × Nat))
  | inf (neg : Bool)
  | zero (neg : Bool)
  | num (neg : Bool) (m : Mag)

/-- A value as an exact result. -/
def FV.ex : FV → EX
  | .nan n _ p => .nan (some (n, p))
  | .inf n => .inf n
  | .zero n => .zero n
  | .fin n m e => .num n (Mag.dy m e)

/-- Integer × 2^e as an exact result; `z` is the sign of an exact zero. -/
def exInt (x : Int) (e : Int) (z : Bool) : EX :=
  if x = 0 then .zero z else .num (decide (x < 0)) (Mag.dy x.natAbs e)

/-! ### Rounding (R139) -/

/-- Round x × 2^-q to an integer: the result and whether it is inexact. -/
def roundAt (rm : RM) (neg : Bool) (m : Mag) (q : Int) : Nat × Bool :=
  let (t, cut) := m.tr (1 - q)
  let n := t / 2
  let half := t % 2 = 1
  let inx := half || cut
  let up := match rm with
    | .rz => false
    | .ru => inx && !neg
    | .rd => inx && neg
    | .rna => half
    | .ro => inx && n % 2 = 0
    | _ => half && (cut || n % 2 = 1)
  (if up then n + 1 else n, inx)

/-- A significand of f + 1 bits after a carry out of the top. -/
def renorm (f n : Nat) (q : Int) : Nat × Int := if n = 2 ^ (f + 1) then (2 ^ f, q + 1) else (n, q)

/-- Bits of a finite value n × 2^q of a format, n below 2^(f+1), q at least the exponent of a subnormal's unit. -/
def Fm.pack (m : Fm) (neg : Bool) (n : Nat) (q : Int) : Nat :=
  b2n neg * 2 ^ (m.e + m.f) + ((q - (m.emin - m.f)).toNat * 2 ^ m.f + n)

def Fm.maxBits (m : Fm) (neg : Bool) : Nat := m.pack neg m.maxSig m.maxExp

/-- Bits of an infinity (IEEE formats). -/
def Fm.infBits (m : Fm) (neg : Bool) : Nat := b2n neg * 2 ^ (m.e + m.f) + (2 ^ m.e - 1) * 2 ^ m.f

/-- Bits of a NaN result (R134, R143). -/
def Fm.nanBits (m : Fm) (t8 : Bool) (fpm : Word) (src : Option (Bool × Nat)) : Nat :=
  match src with
  | some (neg, pay) =>
    if Mode.nanp fpm then
      if t8 then (if neg then 0xFF else 0x7F)
      else m.infBits neg + (2 ^ (m.f - 1) + field pay (52 - m.f) (m.f - 1))
    else if t8 then 0x7F else m.infBits false + 2 ^ (m.f - 1)
  | none => if t8 then 0x7F else m.infBits false + 2 ^ (m.f - 1)

end Sys2Proof.Machine
namespace Sys2Proof

/-- Does an overflow under this rounding deliver the largest finite value (R272, Table 05-8)? Under RO the truncated result cannot reach
infinity (LOG 7). -/
def RM.overMax (rm : RM) (neg : Bool) : Bool :=
  match rm with
  | .rz | .ro => true
  | .ru => neg
  | .rd => !neg
  | _ => false

end Sys2Proof
namespace Sys2Proof.Machine

/-- Round an exact result to a type (R139, R142, R143, R145, Table 05-8). -/
def outF (t : FT) (fpm : Word) (rm : RM) (sat : Bool) (x : EX) : Nat × Word :=
  let m := t.fm
  let t8 := t = .e4m3 || t = .e5m2
  match x with
  | .nan src => if m.sp = .none then (0, flIV) else (m.nanBits t8 fpm src, 0)
  | .inf neg =>
    match m.sp with
    | .ieee => if sat then (m.maxBits neg, flOF ||| flNX) else (m.infBits neg, 0)
    | .e4m3 => (if sat then m.maxBits neg else 0x7F, flOF ||| flNX)
    | .none => (m.maxBits neg, flOF ||| flNX)
  | .zero neg => (b2n neg * 2 ^ (m.e + m.f), 0)
  | .num neg g =>
    let (n, inx) := roundAt rm neg g (g.lg - m.f)
    let (n, q) := renorm m.f n (g.lg - m.f)
    if q > m.maxExp || (q = m.maxExp && n > m.maxSig) then
      let bits := match m.sp with
        | .ieee => if sat || rm.overMax neg then m.maxBits neg else m.infBits neg
        | .e4m3 => if sat then m.maxBits neg else if neg then 0xFF else 0x7F
        | .none => m.maxBits neg
      (bits, flOF ||| flNX)
    else if q < m.emin - m.f then
      if Mode.ftzo fpm && t.flushes then (b2n (neg && Mode.lftz fpm) * 2 ^ (m.e + m.f), flUF ||| flNX)
      else
        let (n, inx) := roundAt rm neg g (m.emin - m.f)
        (m.pack neg n (m.emin - m.f), flagIf inx (flUF ||| flNX))
    else (m.pack neg n q, flagIf inx flNX)

/-- An h image of a finite value with a 48-bit significand. -/
def hPack (neg : Bool) (n : Nat) (q : Int) : Nat :=
  b2n neg * 2 ^ 63 + (q + 47 + 1023).toNat * 2 ^ 52 + (n - 2 ^ 47) * 32

/-- The h image that holds an F32 value exactly. -/
def hOfF32 (x : Nat) : Nat :=
  match decodeF .f32 x with
  | .nan n _ p => b2n n * 2 ^ 63 + 0x7FF * 2 ^ 52 + p
  | .inf n => b2n n * 2 ^ 63 + 0x7FF * 2 ^ 52
  | .zero n => b2n n * 2 ^ 63
  | .fin n m e => hPack n (m * 2 ^ (47 - Nat.log2 m)) (e - (47 - Nat.log2 m : Nat))

/-- Round an exact result into an h register (R150); its canonical NaN is that of F64 (LOG 118). -/
def outH (fpm : Word) (rm : RM) (x : EX) : Nat × Word :=
  if Mode.chr fpm then
    let (b, fl) := outF .f32 fpm rm false x
    (hOfF32 b, fl)
  else
    match x with
    | .nan src =>
      match src with
      | some (neg, pay) =>
        if Mode.nanp fpm then (b2n neg * 2 ^ 63 + 0x7FF * 2 ^ 52 + (2 ^ 46 + field pay 5 46) * 32, 0)
        else (0x7FF8000000000000, 0)
      | none => (0x7FF8000000000000, 0)
    | .inf neg => (b2n neg * 2 ^ 63 + 0x7FF * 2 ^ 52, 0)
    | .zero neg => (b2n neg * 2 ^ 63, 0)
    | .num neg g =>
      let (n, inx) := roundAt .rne neg g (g.lg - 47)
      let (n, q) := renorm 47 n (g.lg - 47)
      if q + 47 < -1022 then (b2n neg * 2 ^ 63, flUF ||| flNX)
      else if q + 47 > 1023 then (b2n neg * 2 ^ 63 + 0x7FF * 2 ^ 52, flOF ||| flNX)
      else (hPack neg n q, flagIf inx flNX)

/-- Round into a register of class `cl` holding type `t` (R150, R272). -/
def outR (t : FT) (cl : Cls) (fpm : Word) (rm : RM) (x : EX) : Nat × Word :=
  if cl = .h then outH fpm rm x else outF t fpm rm false x

/-! ### Exact operations -/

/-- IV for a signalling operand. -/
def snanFlag (vs : List FV) : Word := flagIf (vs.any FV.isSnan) flIV

/-- The NaN result of the first NaN operand, if any (R143). -/
def firstNan (vs : List FV) : Option EX := (vs.find? FV.isNan).map FV.ex

/-- Signed significand over a common exponent. -/
def FV.scaled (v : FV) (e0 : Int) : Int :=
  match v with
  | .fin n m e => let x : Int := m * 2 ^ (e - e0).toNat; if n then -x else x
  | _ => 0

def FV.exp? : FV → Option Int
  | .fin _ _ e => some e
  | _ => none

/-- Exact sum of values without NaN: infinities of both signs are invalid; the sign of an exact zero is that of equal zero operands, else − under
RD and + otherwise (R272); `rm` is the rounding that the instruction names, also for an h destination (LOG 117). -/
def sumF (rm : RM) (vs : List FV) : EX × Word :=
  let pos := vs.any fun v => match v with | .inf n => !n | _ => false
  let ngs := vs.any fun v => match v with | .inf n => n | _ => false
  if pos && ngs then (.nan none, flIV)
  else if pos then (.inf false, 0)
  else if ngs then (.inf true, 0)
  else
    let e0 := (vs.filterMap FV.exp?).foldl min 0
    let x := (vs.map fun v => v.scaled e0).foldl (· + ·) 0
    let z := if vs.all FV.neg then true else if vs.all (fun v => !v.neg) then false else rm = .rd
    (exInt x e0 z, 0)

/-- Exact product; none for 0 × Inf. Neither operand is NaN. -/
def mulF (a b : FV) : Option FV :=
  let n := a.neg != b.neg
  match a, b with
  | .inf _, .zero _ => none
  | .zero _, .inf _ => none
  | .inf _, _ => some (.inf n)
  | _, .inf _ => some (.inf n)
  | .zero _, _ => some (.zero n)
  | _, .zero _ => some (.zero n)
  | .fin _ m e, .fin _ k f => some (.fin n (m * k) (e + f))
  | _, _ => none

def fAdd (rm : RM) (a b : FV) : EX × Word :=
  match firstNan [a, b] with
  | some x => (x, snanFlag [a, b])
  | none => sumF rm [a, b]

def fMul (a b : FV) : EX × Word :=
  match firstNan [a, b] with
  | some x => (x, snanFlag [a, b])
  | none => match mulF a b with | some v => (v.ex, 0) | none => (.nan none, flIV)

/-- a × b + c (R272: 0 × Inf sets IV even beside a quiet NaN c). -/
def fFma (rm : RM) (a b c : FV) : EX × Word :=
  let bad := match a, b with | .inf _, .zero _ => true | .zero _, .inf _ => true | _, _ => false
  match firstNan [a, b, c] with
  | some x => (x, snanFlag [a, b, c] ||| flagIf bad flIV)
  | none =>
    match mulF a b with
    | none => (.nan none, flIV)
    | some p => sumF rm [p, c]

/-- a0 × b0 + a1 × b1 + c (R276): 0 × Inf and a sum of opposite infinities set IV, beside a NaN as well. -/
def fDot2 (rm : RM) (a0 b0 a1 b1 c : FV) : EX × Word :=
  let bad (a b : FV) : Bool := match a, b with | .inf _, .zero _ => true | .zero _, .inf _ => true | _, _ => false
  let prod (a b : FV) : Option FV := if a.isNan || b.isNan then none else mulF a b
  let terms := [prod a0 b0, prod a1 b1, if c.isNan then none else some c].filterMap id
  match firstNan [a0, a1, b0, b1, c] with
  | some x => (x, snanFlag [a0, a1, b0, b1, c] ||| flagIf (bad a0 b0 || bad a1 b1) flIV ||| (sumF rm terms).2)
  | none =>
    match mulF a0 b0, mulF a1 b1 with
    | some p, some q => sumF rm [p, q, c]
    | _, _ => (.nan none, flIV)

def fDiv (a b : FV) : EX × Word :=
  let n := a.neg != b.neg
  match firstNan [a, b] with
  | some x => (x, snanFlag [a, b])
  | none =>
    match a, b with
    | .inf _, .inf _ => (.nan none, flIV)
    | .zero _, .zero _ => (.nan none, flIV)
    | .inf _, _ => (.inf n, 0)
    | _, .inf _ => (.zero n, 0)
    | .zero _, _ => (.zero n, 0)
    | _, .zero _ => (.inf n, flDZ)
    | .fin _ m e, .fin _ k f => (.num n (Mag.ratio m k (e - f)), 0)
    | _, _ => (.nan none, flIV)

def fSqrt (a : FV) : EX × Word :=
  match a with
  | .nan _ s _ => (a.ex, flagIf s flIV)
  | .zero n => (.zero n, 0)
  | .inf false => (.inf false, 0)
  | .fin false m e => (.num false (Mag.sqrt m e), 0)
  | _ => (.nan none, flIV)

def fRcp (a : FV) : EX × Word :=
  match a with
  | .nan _ s _ => (a.ex, flagIf s flIV)
  | .zero n => (.inf n, flDZ)
  | .inf n => (.zero n, 0)
  | .fin n m e => (.num n (Mag.ratio 1 m (-e)), 0)

def fRsq (a : FV) : EX × Word :=
  match a with
  | .nan _ s _ => (a.ex, flagIf s flIV)
  | .zero n => (.inf n, flDZ)
  | .inf false => (.zero false, 0)
  | .fin false m e => (.num false (Mag.rsqrt m e), 0)
  | _ => (.nan none, flIV)

/-- Order of two values without NaN; −0 equals +0. -/
def cmpF (a b : FV) : Ordering :=
  let r : FV → Int := fun v => match v with
    | .inf true => -2 | .fin true _ _ => -1 | .fin false _ _ => 1 | .inf false => 2 | _ => 0
  if r a < r b then .lt else if r a > r b then .gt
  else
    match a, b with
    | .fin _ _ e, .fin _ _ f => compare (a.scaled (min e f)) (b.scaled (min e f))
    | _, _ => .eq

/-- a below b with −0 below +0 (R144). -/
def ltZ (a b : FV) : Bool := cmpF a b = .lt || (cmpF a b = .eq && a.neg && !b.neg)

/-- The four minimum and maximum operations (R144). `num` for FMIN and FMAX, `mx` for the maximum. A signalling NaN sets IV in all four (Table 05-7; LOG 116). -/
def fMinMax (fpm : Word) (num mx : Bool) (a b : FV) : EX × Word :=
  let iv := snanFlag [a, b]
  let nan := match firstNan [a, b] with | some x => x | none => .nan none
  let pick : EX := if mx then (if ltZ a b then b.ex else a.ex) else (if ltZ b a then b.ex else a.ex)
  if num then
    if Mode.lmin fpm then
      if a.isSnan || b.isSnan then (nan, iv)
      else if a.isNan && b.isNan then (nan, iv)
      else if a.isNan then (b.ex, iv)
      else if b.isNan then (a.ex, iv)
      else (if mx then (if cmpF a b = .lt then b.ex else a.ex) else (if cmpF b a = .lt then b.ex else a.ex), iv)
    else if a.isNan && b.isNan then (nan, iv)
    else if a.isNan then (b.ex, iv)
    else if b.isNan then (a.ex, iv)
    else (pick, iv)
  else if a.isNan || b.isNan then (nan, iv)
  else (pick, iv)

/-- Does a comparison of Table 10-4 hold, and does it set IV? -/
def fCmp (c : FCmp) (a b : FV) : Bool × Word :=
  let un := a.isNan || b.isNan
  let o := cmpF a b
  let sig := snanFlag [a, b]
  let anyNan := flagIf un flIV
  match c with
  | .eq => (!un && o = .eq, sig)
  | .ne => (!un && o ≠ .eq, sig)
  | .lt => (!un && o = .lt, anyNan)
  | .le => (!un && o ≠ .gt, anyNan)
  | .gt => (!un && o = .gt, anyNan)
  | .ge => (!un && o ≠ .lt, anyNan)
  | .num => (!un, sig)
  | .nan => (un, sig)
  | .equ => (un || o = .eq, sig)
  | .neu => (un || o ≠ .eq, sig)
  | .ltu => (un || o = .lt, sig)
  | .leu => (un || o ≠ .gt, sig)
  | .gtu => (un || o = .gt, sig)
  | .geu => (un || o ≠ .lt, sig)

/-- Round to an integral value (R275): the value and whether it differs. -/
def fRint (rm : RM) (v : FV) : FV × Bool :=
  match v with
  | .fin n m e =>
    if 0 ≤ e then (v, false)
    else
      let (k, inx) := roundAt rm n (Mag.dy m e) 0
      (if k = 0 then .zero n else .fin n k 0, inx)
  | _ => (v, false)

/-- Class mask of FCLASS (R274); `sub` says the encoding is subnormal. -/
def fClass (v : FV) (sub : Bool) : Nat :=
  match v with
  | .inf true => 1
  | .fin true _ _ => if sub then 4 else 2
  | .zero true => 8
  | .zero false => 16
  | .fin false _ _ => if sub then 32 else 64
  | .inf false => 128
  | .nan _ true _ => 256
  | .nan _ false _ => 512

end Sys2Proof.Machine
namespace Sys2Proof

/-- Ends of an integer type's range (Table 05-3). -/
def IT.lo (t : IT) : Int := if t.signed then -(2 ^ (t.bits - 1) : Nat) else 0
def IT.hi (t : IT) : Int := if t.signed then (2 ^ (t.bits - 1) : Nat) - 1 else (2 ^ t.bits : Nat) - 1

/-- The integer that a type reads from the low bits of a register (R205, R267). -/
def IT.val (t : IT) (x : DWord) : Int := if t.signed then Sys2Proof.signed t.bits x.toNat else (x.toNat % 2 ^ t.bits : Nat)

end Sys2Proof
namespace Sys2Proof.Machine

/-- An integer modulo 2^n as a 64-bit value, zero-extended. -/
def wrapTo (n : Nat) (x : Int) : DWord := BitVec.ofNat 64 (x % (2 ^ n : Nat)).toNat

end Sys2Proof.Machine
namespace Sys2Proof

/-- A result of type `t` in its register: Z zero-extended, S sign-extended to 32 bits when narrower (R267). -/
def IT.store (t : IT) (x : Int) : DWord := if t.bits = 64 then Machine.wrapTo 64 x else Machine.wrapTo 32 x

end Sys2Proof
namespace Sys2Proof.Machine

/-- Conversion to an integer type (R147). -/
def fToInt (t : IT) (rm : RM) (v : FV) : DWord × Word :=
  match v with
  | .nan _ _ _ => (0, flIV)
  | .inf n => (t.store (if n then t.lo else t.hi), flIV)
  | .zero _ => (0, 0)
  | .fin n m e =>
    let (k, inx) := roundAt rm n (Mag.dy m e) 0
    let x : Int := if n then -(k : Int) else k
    if x < t.lo then (t.store t.lo, flIV)
    else if x > t.hi then (t.store t.hi, flIV)
    else (t.store x, flagIf inx flNX)

/-- Conversion to E8M0 (R146). -/
def outE8 (rm : RM) (v : FV) : Nat × Word :=
  match v with
  | .nan _ s _ => (0xFF, flagIf s flIV)
  | .inf _ => (0xFF, flOF ||| flNX)
  | .zero _ => (0, 0)
  | .fin _ m e =>
    let lg : Int := (Nat.log2 m : Int) + e
    let exact := m = 2 ^ Nat.log2 m
    let mid := 2 * m = 3 * 2 ^ Nat.log2 m
    let above := 2 * m > 3 * 2 ^ Nat.log2 m
    let up := !exact && (match rm with
      | .rz | .rd => false
      | .ru => true
      | .rna => mid || above
      | _ => above || (mid && (lg + 127) % 2 ≠ 0))
    let k := if up then lg + 1 else lg
    if k > 127 then (254, flOF ||| flNX)
    else if k < -127 then (0, flUF ||| flNX)
    else ((k + 127).toNat, flagIf (!exact) flNX)

/-- Value of an E8M0 field (R135). -/
def decodeE8 (x : Nat) : FV := if x % 256 = 0xFF then .nan false false (2 ^ 51) else .fin false 1 ((x % 256 : Nat) - 127)

end Sys2Proof.Machine
end

