-- ==== Sys2Proof/Machine/Integer.lean ====
section
/-! DEFINITION. Integer arithmetic (08, R221 to R225). -/

namespace Sys2Proof.Machine

/-- Registers of a 32-bit or 64-bit operand. -/
def regsW (w : Bool) : Nat := if w then 2 else 1

/-- The common effect of R221: the exact value of the operands, clamped under SAT, modulo 2^n. -/
def intOp (hd : Hdr) (t : IT) (sat : Bool) (d : Opnd) (srcs : List Opnd) (f : List Int → Int) (s : State) : Out :=
  let k := regsW t.wide
  alu hd (some (d, k)) (srcs.map fun o => (o, k))
    (fun _ _ vs =>
      let r := f (vs.map t.val)
      { d := wrapTo t.bits (if sat then min (max r t.lo) t.hi else r) }) s

/-- A two-operand function of a list of values. -/
def two (f : Int → Int → Int) : List Int → Int
  | [a, b] => f a b
  | _ => 0

def three (f : Int → Int → Int → Int) : List Int → Int
  | [a, b, c] => f a b c
  | _ => 0

def one (f : Int → Int) : List Int → Int
  | [a] => f a
  | _ => 0

/-- Quotient rounded toward zero; a divisor of zero gives −1 or, for a negative dividend, +1 (Table 05-4): modulo 2^n, all ones for a Z type. MIN ÷ −1
wraps to MIN. -/
def quot (a b : Int) : Int := if b = 0 then (if a < 0 then 1 else -1) else a.tdiv b

/-- Remainder with the sign of the dividend; a divisor of zero gives the dividend (Table 05-4). -/
def remn (a b : Int) : Int := if b = 0 then a else a.tmod b

/-- An immediate of R224: sign-extended to the width of the type and then read by Val as any operand (R205, R221). -/
def immVal (t : IT) (imm : Word) : Int := t.val (imm.signExtend 64)

/-- IADD (R221). -/
def execIadd (hd : Hdr) (t : IT) (sat : Bool) (d a b : Opnd) (s : State) : Out := intOp hd t sat d [a, b] (two fun x y => x + y) s

/-- ISUB (R221). -/
def execIsub (hd : Hdr) (t : IT) (sat : Bool) (d a b : Opnd) (s : State) : Out := intOp hd t sat d [a, b] (two fun x y => x - y) s

/-- IADDC (R222). -/
def execIaddc (hd : Hdr) (t : IT) (ci : Bool) (pc : Nat) (d a b : Opnd) (s : State) : Out :=
  let k := regsW t.wide
  alu hd (some (d, k)) [(a, k), (b, k)]
    (fun c l vs =>
      let x := (vs.map fun v => v.toNat % 2 ^ t.bits).sum + b2n (ci && c.g.pred l pc)
      { d := BitVec.ofNat 64 (x % 2 ^ t.bits), p := some (pc, decide (2 ^ t.bits ≤ x)) }) s

/-- INEG (R221). -/
def execIneg (hd : Hdr) (t : IT) (sat : Bool) (d a : Opnd) (s : State) : Out := intOp hd t sat d [a] (one fun x => -x) s

/-- IABS (R221). -/
def execIabs (hd : Hdr) (t : IT) (sat : Bool) (d a : Opnd) (s : State) : Out := intOp hd t sat d [a] (one fun x => x.natAbs) s

/-- IMIN (R221). -/
def execImin (hd : Hdr) (t : IT) (d a b : Opnd) (s : State) : Out := intOp hd t false d [a, b] (two fun x y => min x y) s

/-- IMAX (R221). -/
def execImax (hd : Hdr) (t : IT) (d a b : Opnd) (s : State) : Out := intOp hd t false d [a, b] (two fun x y => max x y) s

/-- IMUL (R221). -/
def execImul (hd : Hdr) (t : IT) (d a b : Opnd) (s : State) : Out := intOp hd t false d [a, b] (two fun x y => x * y) s

/-- IMULH (R221): the upper half of the product. -/
def execImulh (hd : Hdr) (t : IT) (d a b : Opnd) (s : State) : Out :=
  intOp hd t false d [a, b] (two fun x y => (x * y).fdiv (2 ^ t.bits : Nat)) s

/-- IMAD (R221). -/
def execImad (hd : Hdr) (t : IT) (d a b c : Opnd) (s : State) : Out := intOp hd t false d [a, b, c] (three fun x y z => x * y + z) s

/-- IMADW (Table 08-4): 32-bit factors, a 64-bit addend and result. -/
def execImadw (hd : Hdr) (t : IT) (d a b c : Opnd) (s : State) : Out :=
  alu hd (some (d, 2)) [(a, 1), (b, 1), (c, 2)]
    (fun _ _ vs =>
      match vs with
      | [x, y, z] => { d := wrapTo 64 (t.val x * t.val y + z.toNat) }
      | _ => {}) s

/-- IDIV (R225, Table 05-4). -/
def execIdiv (hd : Hdr) (t : IT) (d a b : Opnd) (s : State) : Out := intOp hd t false d [a, b] (two quot) s

/-- IREM (R225, Table 05-4). -/
def execIrem (hd : Hdr) (t : IT) (d a b : Opnd) (s : State) : Out := intOp hd t false d [a, b] (two remn) s

/-- ISAD (R221). -/
def execIsad (hd : Hdr) (t : IT) (d a b c : Opnd) (s : State) : Out :=
  intOp hd t false d [a, b, c] (three fun x y z => (x - y).natAbs + z) s

/-- ISCADD (R224). -/
def execIscadd (hd : Hdr) (t : IT) (d a b : Opnd) (k : Nat) (s : State) : Out :=
  intOp hd t false d [a, b] (two fun x y => x * (2 ^ k : Nat) + y) s

/-- Byte `i` of a 32-bit value, signed or not. -/
def byteVal (sg : Bool) (x : DWord) (i : Nat) : Int :=
  let b := field x.toNat (8 * i) 8
  if sg then signed 8 b else (b : Int)

/-- IDP4 (R223). -/
def execIdp4 (hd : Hdr) (sa bs : Bool) (d a b c : Opnd) (s : State) : Out :=
  alu hd (some (d, 1)) [(a, 1), (b, 1), (c, 1)]
    (fun _ _ vs =>
      match vs with
      | [x, y, z] =>
        { d := wrapTo 32 ((z.toNat % 2 ^ 32 : Nat) + ((List.range 4).map fun i => byteVal sa x i * byteVal bs y i).foldl (· + ·) (0 : Int)) }
      | _ => {}) s

/-- IADDI (R221, R224). -/
def execIaddi (hd : Hdr) (t : IT) (sat : Bool) (d a : Opnd) (imm : Word) (s : State) : Out :=
  intOp hd t sat d [a] (one fun x => x + immVal t imm) s

/-- IMULI (R221, R224). -/
def execImuli (hd : Hdr) (t : IT) (d a : Opnd) (imm : Word) (s : State) : Out :=
  intOp hd t false d [a] (one fun x => x * immVal t imm) s

end Sys2Proof.Machine
end

