-- ==== Sys2Proof/Machine/Logic.lean ====
section
/-! DEFINITION. Logic, bit and compare (08, R226 to R232). -/

namespace Sys2Proof.Machine

/-- Width in bits. -/
def bitsW (w : Bool) : Nat := if w then 64 else 32

/-- An operand as an unsigned number of its width. -/
def natW (w : Bool) (x : DWord) : Nat := x.toNat % 2 ^ bitsW w

/-- The shape of R226: a function of values of n bits, modulo 2^n. -/
def logicOp (hd : Hdr) (w : Bool) (d : Opnd) (srcs : List Opnd) (f : List DWord → DWord) (s : State) : Out :=
  alu hd (some (d, regsW w)) (srcs.map fun o => (o, regsW w)) (fun _ _ vs => { d := wrapTo (bitsW w) (f vs).toNat }) s

def two64 (f : DWord → DWord → DWord) : List DWord → DWord
  | [a, b] => f a b
  | _ => 0

/-- AND (Table 08-5). -/
def execAnd (hd : Hdr) (w : Bool) (d a b : Opnd) (s : State) : Out := logicOp hd w d [a, b] (two64 fun x y => x &&& y) s

/-- OR (Table 08-5). -/
def execOr (hd : Hdr) (w : Bool) (d a b : Opnd) (s : State) : Out := logicOp hd w d [a, b] (two64 fun x y => x ||| y) s

/-- XOR (Table 08-5). -/
def execXor (hd : Hdr) (w : Bool) (d a b : Opnd) (s : State) : Out := logicOp hd w d [a, b] (two64 fun x y => x ^^^ y) s

/-- ANDN (Table 08-5). -/
def execAndn (hd : Hdr) (w : Bool) (d a b : Opnd) (s : State) : Out := logicOp hd w d [a, b] (two64 fun x y => x &&& ~~~ y) s

/-- ORN (Table 08-5). -/
def execOrn (hd : Hdr) (w : Bool) (d a b : Opnd) (s : State) : Out := logicOp hd w d [a, b] (two64 fun x y => x ||| ~~~ y) s

/-- NOT (Table 08-5). -/
def execNot (hd : Hdr) (w : Bool) (d a : Opnd) (s : State) : Out :=
  logicOp hd w d [a] (fun vs => match vs with | [x] => ~~~ x | _ => 0) s

/-- The shape of a shift (R227): a register or constant amount. -/
def shiftOp (hd : Hdr) (w : Bool) (d a : Opnd) (b : ShAmt) (f : Nat → Nat → Nat) (s : State) : Out :=
  match b with
  | .reg o =>
    alu hd (some (d, regsW w)) [(a, regsW w), (o, 1)]
      (fun _ _ vs => match vs with | [x, y] => { d := wrapTo (bitsW w) (f (natW w x) (y.toNat % 2 ^ 32)) } | _ => {}) s
  | .imm n =>
    alu hd (some (d, regsW w)) [(a, regsW w)]
      (fun _ _ vs => match vs with | [x] => { d := wrapTo (bitsW w) (f (natW w x) n) } | _ => {}) s

/-- a rotated left by k in n bits. -/
def rotl (n a k : Nat) : Nat := (a * 2 ^ (k % n) + a / 2 ^ (n - k % n)) % 2 ^ n

/-- Arithmetic shift right in n bits, as an unsigned number (R227). -/
def sarN (n a k : Nat) : Nat := ((signed n a).fdiv ((2 ^ min k n : Nat) : Int) % (2 ^ n : Nat)).toNat

/-- SHL (R227). -/
def execShl (hd : Hdr) (w : Bool) (d a : Opnd) (b : ShAmt) (s : State) : Out :=
  shiftOp hd w d a b (fun x k => if k < bitsW w then x * 2 ^ k else 0) s

/-- SHR (R227). -/
def execShr (hd : Hdr) (w : Bool) (d a : Opnd) (b : ShAmt) (s : State) : Out :=
  shiftOp hd w d a b (fun x k => if k < bitsW w then x / 2 ^ k else 0) s

/-- SAR (R227). -/
def execSar (hd : Hdr) (w : Bool) (d a : Opnd) (b : ShAmt) (s : State) : Out := shiftOp hd w d a b (fun x k => sarN (bitsW w) x k) s

/-- ROT (R227). -/
def execRot (hd : Hdr) (w : Bool) (d a : Opnd) (b : ShAmt) (s : State) : Out := shiftOp hd w d a b (fun x k => rotl (bitsW w) x k) s

/-- FSHL (R227): the upper half of a:b shifted left by c mod n. -/
def execFshl (hd : Hdr) (w : Bool) (d a b c : Opnd) (s : State) : Out :=
  let n := bitsW w
  alu hd (some (d, regsW w)) [(a, regsW w), (b, regsW w), (c, 1)]
    (fun _ _ vs =>
      match vs with
      | [x, y, z] => { d := wrapTo n ((natW w x * 2 ^ n + natW w y) * 2 ^ (z.toNat % 2 ^ 32 % n) / 2 ^ n : Nat) }
      | _ => {}) s

/-- BFX (R228). -/
def execBfx (hd : Hdr) (t : IT) (d a pos len : Opnd) (s : State) : Out :=
  alu hd (some (d, regsW t.wide)) [(a, regsW t.wide), (pos, 1), (len, 1)]
    (fun _ _ vs =>
      match vs with
      | [x, p, l] =>
        let p := p.toNat % 256
        let e := min (p + l.toNat % 256) t.bits
        if e ≤ p then {}
        else
          let f := field x.toNat p (e - p)
          { d := wrapTo t.bits (if t.signed then signed (e - p) f else (f : Int)) }
      | _ => {}) s

/-- BFI (R228). -/
def execBfi (hd : Hdr) (w : Bool) (d a b c : Opnd) (s : State) : Out :=
  alu hd (some (d, regsW w)) [(a, regsW w), (b, regsW w), (c, 1)]
    (fun _ _ vs =>
      match vs with
      | [x, y, z] =>
        let p := z.toNat % 256
        let e := min (p + field z.toNat 8 8) (bitsW w)
        let x := natW w x
        if e ≤ p then { d := BitVec.ofNat 64 x }
        else { d := BitVec.ofNat 64 (x - field x p (e - p) * 2 ^ p + y.toNat % 2 ^ (e - p) * 2 ^ p) }
      | _ => {}) s

/-- The shape of a count: an n-bit source and a 32-bit result. -/
def countOp (hd : Hdr) (w : Bool) (d a : Opnd) (f : Nat → Nat) (s : State) : Out :=
  alu hd (some (d, 1)) [(a, regsW w)]
    (fun _ _ vs => match vs with | [x] => { d := BitVec.ofNat 64 (f (natW w x)) } | _ => {}) s

/-- POPC (Table 08-5). -/
def execPopc (hd : Hdr) (w : Bool) (d a : Opnd) (s : State) : Out :=
  countOp hd w d a (fun x => ((List.range (bitsW w)).filter fun i => bit x i).length) s

/-- CLZ (Table 08-5). -/
def execClz (hd : Hdr) (w : Bool) (d a : Opnd) (s : State) : Out :=
  countOp hd w d a (fun x => if x = 0 then bitsW w else bitsW w - 1 - Nat.log2 x) s

/-- CTZ (Table 08-5). -/
def execCtz (hd : Hdr) (w : Bool) (d a : Opnd) (s : State) : Out :=
  countOp hd w d a (fun x => ((List.range (bitsW w)).find? fun i => bit x i).getD (bitsW w)) s

/-- BREV (Table 08-5). -/
def execBrev (hd : Hdr) (w : Bool) (d a : Opnd) (s : State) : Out :=
  alu hd (some (d, regsW w)) [(a, regsW w)]
    (fun _ _ vs =>
      match vs with
      | [x] => { d := BitVec.ofNat 64 ((List.range (bitsW w)).map fun i => b2n (bit x.toNat i) * 2 ^ (bitsW w - 1 - i)).sum }
      | _ => {}) s

/-- One byte of PRMT (R229) from the eight bytes of b:a. -/
def permByte (x sel : Nat) : Nat :=
  let y := field x (8 * (sel % 8)) 8
  if bit sel 3 then (if bit y 7 then 0xFF else 0) else y

/-- PRMT (R229). -/
def execPrmt (hd : Hdr) (d a b c : Opnd) (s : State) : Out :=
  alu hd (some (d, 1)) [(a, 1), (b, 1), (c, 1)]
    (fun _ _ vs =>
      match vs with
      | [x, y, z] =>
        let ba := natW false x + natW false y * 2 ^ 32
        { d := BitVec.ofNat 64 ((List.range 4).map fun i => permByte ba (field z.toNat (4 * i) 4) * 2 ^ (8 * i)).sum }
      | _ => {}) s

/-- The six comparisons (R230). -/
def icmpOf (c : ICmp) (a b : Int) : Bool :=
  match c with
  | .eq => a = b
  | .ne => a ≠ b
  | .lt => a < b
  | .le => a ≤ b
  | .gt => a > b
  | .ge => a ≥ b

/-- ICMP (R230). -/
def execIcmp (hd : Hdr) (cmp : ICmp) (t : IT) (pd : Nat) (a b : Opnd) (s : State) : Out :=
  alu hd none [(a, regsW t.wide), (b, regsW t.wide)]
    (fun _ _ vs => match vs with | [x, y] => { p := some (pd, icmpOf cmp (t.val x) (t.val y)) } | _ => {}) s

/-- PLUT (R231). -/
def execPlut (hd : Hdr) (pd pa pb lut : Nat) (s : State) : Out :=
  alu hd none [] (fun c l _ => { p := some (pd, bit lut (2 * b2n (c.g.pred l pa) + b2n (c.g.pred l pb))) }) s

/-- PICK (R232). -/
def execPick (hd : Hdr) (w : Bool) (d a b : Opnd) (pc : Nat) (s : State) : Out :=
  alu hd (some (d, regsW w)) [(a, regsW w), (b, regsW w)]
    (fun c l vs => match vs with | [x, y] => { d := if c.g.pred l pc then x else y } | _ => {}) s

/-- LOPI (R232). -/
def execLopi (hd : Hdr) (op : LOp) (w : Bool) (d a : Opnd) (imm : Word) (s : State) : Out :=
  let m : DWord := imm.signExtend 64
  logicOp hd w d [a] (fun vs =>
    match vs with
    | [x] => match op with | .and => x &&& m | .or => x ||| m | .xor => x ^^^ m | .andn => x &&& ~~~ m
    | _ => 0) s

end Sys2Proof.Machine
end

