-- ==== Sys2Proof/Machine/Move.lean ====
section
/-! DEFINITION. Moves and conversions (10, R262 to R271). -/

namespace Sys2Proof.Machine

/-! ### Special registers -/

/-- Package time and core cycle at which the replay of a partition's world began (R370). -/
def State.replayFrom (s : State) (part : Nat) : Option (Nat × Nat) :=
  match s.part? part with
  | none => none
  | some p => p.replayOn

/-- Replay cycles of a partition: the turns of its lockstep schedule (R370). -/
def State.replayCycles (s : State) (part : Nat) : Nat := match s.part? part with | some p => p.lockTurn | none => 0

/-- The package time a thread reads (R157), replay time in replay mode (R370). -/
def State.timeOf (s : State) (part : Nat) : Nat :=
  match s.replayFrom part with
  | some (t0, _) => t0 + s.replayCycles part
  | none => s.now

/-- %cycle of a core (R157): cycles since its last reset, replay cycles in replay mode (R370). -/
def State.cycleOf (s : State) (part core : Nat) : Nat :=
  match s.replayFrom part with
  | some _ => s.replayCycles part
  | none => s.cycles - (SMap.get s.cycBase core).toNat

/-- Words of a 64-bit value, lowest first. -/
def words2 (x : Nat) : List Word := [BitVec.ofNat 32 x, BitVec.ofNat 32 (x / 2 ^ 32)]

/-- A mask in one or two words. -/
def maskWords (w64 : Bool) (m : Mask) : List Word := if w64 then words2 m.toNat else [BitVec.ofNat 32 m.toNat]

/-- The words of a special register in a lane (R157, R309). -/
def Ctx.special (c : Ctx) (s : State) (l : Nat) (r : SReg) : List Word :=
  let one (n : Nat) : List Word := [BitVec.ofNat 32 n]
  let t := look 0 c.g.tids l
  let bx := c.l.rcd.bx
  let byy := c.l.rcd.byy
  let gx := c.l.rcd.gx
  let gy := c.l.rcd.gy
  match r with
  | .tidx => one (t % bx)
  | .tidy => one (t / bx % byy)
  | .tidz => one (t / bx / byy)
  | .lane => one l
  | .gwidth => one c.width
  | .group => one c.gid.gi
  | .blkx => one (c.gid.blk % gx)
  | .blky => one (c.gid.blk / gx % gy)
  | .blkz => one (c.gid.blk / gx / gy)
  | .core => one c.core
  | .bulkhead => one (bulkOf c.core)
  | .world => one c.l.world
  | .amask => maskWords c.w64 c.is.mask
  | .time => words2 (s.timeOf c.l.part)
  | .cycle => words2 (s.cycleOf c.l.part c.core)
  | .fpm => [c.g.fpm]
  | .fpst => [SMap.get c.g.fpst l]
  | .tcause => [c.g.frame.cause]
  | .tinst => words2 (c.g.frame.inst.toNat % 2 ^ 64) ++ words2 (c.g.frame.inst.toNat / 2 ^ 64)
  | .tmask => maskWords c.w64 c.g.frame.mask
  | .tpc => [c.g.frame.pc]
  | .taddr => words2 (SMap.get c.g.frame.addr l).toNat
  | .tinfo => words2 c.g.frame.info.toNat

/-- Write consecutive registers of class v (per lane) or s (once, the lowest lane's value). -/
def Group.writeWords (g : Group) (w64 : Bool) (fresh : Nat) (d : Opnd) (f : Nat → List Word) (act : List Nat) : Group :=
  let row (g : Group) (l : Nat) : Group :=
    ((List.range (f l).length).zip (f l)).foldl (fun g e => g.writeReg w64 fresh 1 l ⟨d.cls, d.n + e.1⟩ (e.2.setWidth 64)) g
  match d.cls with
  | .s => match act with | l :: _ => row g l | [] => g
  | _ => act.foldl row g

/-! ### Meanings -/

/-- MOV (R263). -/
def execMov (hd : Hdr) (w : Bool) (d a : Opnd) (s : State) : Out := logicOp hd w d [a] (fun vs => vs.headD 0) s

/-- MOVI (R263). -/
def execMovi (hd : Hdr) (w : Bool) (d : Opnd) (imm : DWord) (s : State) : Out :=
  alu hd (some (d, regsW w)) [] (fun _ _ _ => { d := imm }) s

/-- MOVS (R264). -/
def execMovs (hd : Hdr) (d : Opnd) (r : SReg) (s : State) : Out :=
  withIssuer s fun c =>
    let act := c.act hd
    .next (retire c (s.modGroup c.gid fun g => g.writeWords c.w64 s.fresh d (fun l => c.special s l r) (lanes act)))

/-- The byte of predicates p7 to p0 of a lane. -/
def Group.predByte (g : Group) (l : Nat) : Nat := ((List.range 8).map fun i => b2n (g.pred l i) * 2 ^ i).sum

/-- MOVP (R265). -/
def execMovp (hd : Hdr) (f : MovpForm) (s : State) : Out :=
  match f with
  | .get d p => alu hd (some (d, 1)) [] (fun c l _ => { d := BitVec.ofNat 64 (b2n (c.g.pred l p)) }) s
  | .put p a => alu hd none [(a, 1)] (fun _ _ vs => { p := some (p, decide ((vs.headD 0).toNat % 2 ^ 32 ≠ 0)) }) s
  | .getAll d => alu hd (some (d, 1)) [] (fun c l _ => { d := BitVec.ofNat 64 (c.g.predByte l) }) s
  | .putAll a =>
    withIssuer s fun c =>
      let act := c.act hd
      if act = 0 then .next (retire c s)
      else
        match c.fetch s.fresh c.b [(a, 1)] with
        | .undeclared => .next (illegalRun c act act s)
        | .stall n => queueStall c n false s
        | .ok b vs =>
          let v (l : Nat) : Nat := ((vs.headD fun _ => 0) l).toNat
          let s1 := (unstall c s).modGroup c.gid fun g =>
            (lanes act).foldl (fun g l => { g with p := SMap.set g.p l (BitVec.ofNat 8 (field (v l) 1 7 * 2)) }) g
          .next (retire c (s1.modBlock c.gid.lid c.gid.blk fun x => { x with queues := b.queues }))

/-- Highest register number of a class reached by RDREG and WRREG (R266). -/
def RegSel.limit : RegSel → Nat
  | .v | .s => 65535
  | .h | .p => 7
  | .sc => 15

/-- RDREG (R266). -/
def execRdreg (hd : Hdr) (cl : RegSel) (d a : Opnd) (s : State) : Out :=
  withIssuer s fun c =>
    let act := c.act hd
    let n (l : Nat) : Nat := (c.readReg s.fresh 1 l a).toNat
    let bad := (lanes act).filter fun l => decide (RegSel.limit cl < n l)
    if c.g.handler.isNone then .next (illegalRun c c.is.mask c.is.mask s)
    else if !bad.isEmpty then .next (illegalRun c (maskOf bad) act s)
    else
      let x (l : Nat) : List Word :=
        match cl with
        | .v => [c.readV s.fresh l (n l)]
        | .s => [SMap.get c.g.s (n l)]
        | .h => words2 (SMap.get c.g.h (n l * 64 + l)).toNat
        | .p => [BitVec.ofNat 32 (b2n (c.g.pred l (n l)))]
        | .sc => [SMap.get c.g.sc (n l)]
      .next (retire c (s.modGroup c.gid fun g => g.writeWords c.w64 s.fresh d x (lanes act)))

/-- WRREG (R266). -/
def execWrreg (hd : Hdr) (cl : RegSel) (a b : Opnd) (s : State) : Out :=
  withIssuer s fun c =>
    let act := c.act hd
    let n (l : Nat) : Nat := (c.readReg s.fresh 1 l a).toNat
    let x (l : Nat) : DWord := c.readReg s.fresh (if cl = .h then 2 else 1) l b
    let bad := (lanes act).filter fun l => decide (RegSel.limit cl < n l)
    if c.g.handler.isNone then .next (illegalRun c c.is.mask c.is.mask s)
    else if !bad.isEmpty then .next (illegalRun c (maskOf bad) act s)
    else
      .next (retire c (s.modGroup c.gid fun g =>
        match cl with
        | .v => (lanes act).foldl (fun g l => g.writeV c.w64 s.fresh l (n l) ((x l).setWidth 32)) g
        | .p => (lanes act).foldl (fun g l => g.setPred l (n l) (bit (x l).toNat 0)) g
        | .h => (lanes act).foldl (fun g l => { g with h := SMap.set g.h (n l * 64 + l) (hImage (x l)) }) g
        | .s => match lanes act with | l :: _ => { g with s := SMap.set g.s (n l) ((x l).setWidth 32) } | [] => g
        | .sc => match lanes act with | l :: _ => { g with sc := SMap.set g.sc (n l) ((x l).setWidth 32) } | [] => g))

/-- Registers of an operand of a float type (R267). -/
def regsF (t : FT) : Nat := if t = .f64 then 2 else 1

/-- Bits of a type in its register. -/
def bitsOf (t : FT) (x : DWord) : Nat := x.toNat % 2 ^ t.fm.bits

/-- One element of CVTF: source bits to destination bits and flags (R146, R267). Between equal types an infinity is delivered unchanged, but for E4M3 and
E5M2. -/
def cvtOne (fpm : Word) (dt st : FT) (sat de8 se8 : Bool) (rm : RM) (x : Nat) : Nat × Word :=
  let r := rm.resolveCvt fpm
  let v := if se8 then decodeE8 x else inF fpm st .v (BitVec.ofNat 64 x)
  if de8 then outE8 r v
  else
    let iv := snanFlag [v]
    let same := dt = st && !se8 && dt ≠ .e4m3 && dt ≠ .e5m2
    let o := outF dt fpm r (!same && Mode.sat fpm dt sat) v.ex
    (o.1, iv ||| o.2)

/-- CVTF (R267). -/
def execCvtf (hd : Hdr) (dt st : FT) (sat de8 se8 : Bool) (rm : RM) (d a : Opnd) (s : State) : Out :=
  alu hd (some (d, regsF dt)) [(a, regsF st)]
    (fun c _ vs =>
      let x := vs.headD 0
      if dt.x2 then
        let lo := cvtOne c.g.fpm dt st sat de8 se8 rm (field x.toNat 0 16)
        let hi := cvtOne c.g.fpm dt st sat de8 se8 rm (field x.toNat 16 16)
        { d := BitVec.ofNat 64 (lo.1 + hi.1 * 2 ^ 16), fl := lo.2 ||| hi.2 }
      else
        let o := cvtOne c.g.fpm dt st sat de8 se8 rm (if se8 then x.toNat % 256 else bitsOf st x)
        { d := BitVec.ofNat 64 o.1, fl := o.2 }) s

/-- CVTFI (R267, R147). -/
def execCvtfi (hd : Hdr) (t : IT) (st : FT) (rm : RM) (d a : Opnd) (s : State) : Out :=
  alu hd (some (d, regsW t.wide)) [(a, regsF st)]
    (fun c _ vs =>
      let o := fToInt t (rm.resolveCvt c.g.fpm) (inF c.g.fpm st .v (vs.headD 0))
      { d := o.1, fl := o.2 }) s

/-- CVTIF (R267). -/
def execCvtif (hd : Hdr) (dt : FT) (t : IT) (rm : RM) (d a : Opnd) (s : State) : Out :=
  alu hd (some (d, regsF dt)) [(a, regsW t.wide)]
    (fun c _ vs =>
      let o := outF dt c.g.fpm (rm.resolveCvt c.g.fpm) (Mode.sat c.g.fpm dt false) (exInt (t.val (vs.headD 0)) 0 false)
      { d := BitVec.ofNat 64 o.1, fl := o.2 }) s

/-- Bits of an element width (R262). -/
def EW.bits : EW → Nat
  | .w4 => 4 | .w6 => 6 | .w8 => 8 | .w16 => 16

/-- Replace element `m` of a word (R268). -/
def setElem (e x m v : Nat) : Nat := x - field x (e * m) e * 2 ^ (e * m) + v % 2 ^ e * 2 ^ (e * m)

/-- PACK (R268). -/
def execPack (hd : Hdr) (ew : EW) (k : Nat) (d a b c : Opnd) (s : State) : Out :=
  let e := EW.bits ew
  alu hd (some (d, 1)) [(a, 1), (b, 1), (c, 1)]
    (fun _ _ vs =>
      match vs with
      | [x, y, z] => { d := BitVec.ofNat 64 (setElem e (setElem e (z.toNat % 2 ^ 32) (2 * k) x.toNat) (2 * k + 1) y.toNat) }
      | _ => {}) s

/-- UNPACK (R268). -/
def execUnpack (hd : Hdr) (ew : EW) (sx : Bool) (j : Nat) (d a : Opnd) (s : State) : Out :=
  let e := EW.bits ew
  alu hd (some (d, 1)) [(a, 1)]
    (fun _ _ vs =>
      let y := field (vs.headD 0).toNat (e * j) e
      { d := wrapTo 32 (if sx then signed e y else (y : Int)) }) s

/-- RDMODE (R269). -/
def execRdmode (hd : Hdr) (fpst : Bool) (d : Opnd) (s : State) : Out :=
  alu hd (some (d, 1)) [] (fun c l _ => { d := (if fpst then SMap.get c.g.fpst l else c.g.fpm).setWidth 64 }) s

/-- WRMODE (R269). -/
def execWrmode (hd : Hdr) (fpst : Bool) (a : Opnd) (s : State) : Out :=
  withIssuer s fun c =>
    let act := c.act hd
    if act = 0 then .next (retire c s)
    else
      match c.fetch s.fresh c.b [(a, 1)] with
      | .undeclared => .next (illegalRun c act act s)
      | .stall n => queueStall c n false s
      | .ok b vs =>
        let v (l : Nat) : Word := ((vs.headD fun _ => 0) l).setWidth 32
        let s1 := (unstall c s).modGroup c.gid fun g =>
          if fpst then (lanes act).foldl (fun g l => { g with fpst := SMap.set g.fpst l (BitVec.ofNat 32 ((v l).toNat % 32)) }) g
          else { g with fpm := modeWord (v ((lanes act).headD 0)) }
        .next (retire c (s1.modBlock c.gid.lid c.gid.blk fun x => { x with queues := b.queues }))

/-- RDSC (R270). -/
def execRdsc (hd : Hdr) (d : Opnd) (sc : Nat) (s : State) : Out :=
  alu hd (some (d, 1)) [] (fun c _ _ => { d := (SMap.get c.g.sc sc).setWidth 64 }) s

/-- WRSC (R270). -/
def execWrsc (hd : Hdr) (sc : Nat) (a : Opnd) (s : State) : Out :=
  withIssuer s fun c =>
    if c.act hd = 0 then .next (retire c s)
    else
      .next (retire c (s.modGroup c.gid fun g => { g with sc := SMap.set g.sc sc ((c.readReg s.fresh 1 0 a).setWidth 32) }))

/-- ADDRG (R271). -/
def execAddrg (hd : Hdr) (d : Opnd) (imm : Word) (s : State) : Out :=
  alu hd (some (d, 2)) [] (fun c _ _ => { d := c.l.data + imm.setWidth 64 }) s

end Sys2Proof.Machine
end

