-- ==== Sys2Proof/Machine/Access.lean ====
section
/-! DEFINITION. Address translation, page ownership, the checks of a group's access and its parking for replay (01, 02, 12), reads with the
reader's own writes in flight, and the writes put in flight. -/

namespace Sys2Proof.Machine

/-! ### Physical map (Table 01-1) -/

/-- The region of a physical address; `peer` gives package and offset, `host` the host address. -/
inductive Region where
  | hbm (b : Nat)
  | slice (core off : Nat)
  | peer (p off : Nat)
  | host (h : Nat)
  | nothing
deriving DecidableEq, Repr

def region (pa : Nat) : Region :=
  if pa < 24 * Config.hbmBytes then .hbm (pa / Config.hbmBytes)
  else if Config.sliceBase ≤ pa ∧ pa < Config.sliceBase + 768 * Config.sliceBytes then
    .slice ((pa - Config.sliceBase) / Config.sliceBytes) ((pa - Config.sliceBase) % Config.sliceBytes)
  else if Config.peerBase ≤ pa ∧ pa < Config.peerEnd then .peer ((pa - Config.peerBase) / 2 ^ 36) ((pa - Config.peerBase) % 2 ^ 36)
  else if Config.hostBase ≤ pa ∧ pa < Config.physEnd then .host (pa - Config.hostBase)
  else .nothing

/-- The bulkhead that holds a physical address. -/
def homeBulk (pa : Nat) : Option Nat :=
  match region pa with
  | .hbm b => some b
  | .slice c _ => some (bulkOf c)
  | _ => none

/-- Physical address of a byte of a block's scratch (R19, R23). -/
def Block.scratchPa (b : Block) (off : Nat) : Nat := Config.sliceBase + b.core * Config.sliceBytes + b.square * 4096 + off

/-- The 128 B line of a physical address. -/
def lineOf (pa : Nat) : Nat := pa / 128

/-! ### Page ownership (R65 to R68) -/

/-- An entry whose page no agent owns (Table 02-7). -/
def unowned : Word := 0x1F

/-- The POT entry of a physical page: that of the newest range that holds it. -/
def State.potEntry (s : State) (page : Nat) : Nat :=
  match s.pot.find? fun r => decide (r.page ≤ page) && decide (page < r.page + r.count) with
  | some r => r.entry.toNat
  | none => unowned.toNat

def State.setPot (s : State) (page count : Nat) (entry : Word) : State :=
  { s with pot := ⟨page, count, entry⟩ :: s.pot.filter fun r => !(decide (page ≤ r.page) && decide (r.page + r.count ≤ page + count)) }

/-- A POT entry (Table 02-7). -/
def potOf (owner world : Nat) (allw sealed_ window galley reserved : Bool) (idx : Nat) : Word :=
  BitVec.ofNat 32 (owner + world * 2 ^ 5 + b2n allw * 2 ^ 11 + b2n sealed_ * 2 ^ 12 + b2n window * 2 ^ 13 + b2n galley * 2 ^ 14 +
    b2n reserved * 2 ^ 15 + idx * 2 ^ 16)

/-- Masters of Table 02-8: a core's program access, its native fetch, a copy engine, a translation core that reads code objects or writes galleys, a
host function, a fabric port. -/
inductive Master where | core | native | copy | trans | galley | host | fabric
deriving DecidableEq, Repr

/-- Is the access-table entry of a source valid (R68)? A target that no page entry describes asks no more. -/
def State.maySend (s : State) (src : Nat) : Bool := bit (SMap.get s.access src).toNat 31

/-- Does the access table let source `src` reach pages of `owner` (R68, Table 02-9)? -/
def State.mayReach (s : State) (src owner : Nat) (win : Bool) : Bool :=
  let e := (SMap.get s.access src).toNat
  bit e 31 && (if win then bit e 24 else bit e owner)

/-- The window condition of R56: a valid descriptor of importer `p` admits the page, and the POT names the exporter's slot of it. -/
def State.windowOk (s : State) (p page : Nat) (e : Nat) (write : Bool) : Bool :=
  match s.part? p with
  | none => false
  | some x =>
    x.slots.any fun t =>
      t.closing.isNone && t.win.importer = p && decide (t.win.base ≤ page) && decide (page < t.win.base + t.win.pages) &&
      (!write || t.win.two) && t.win.exporter = field e 0 5 &&
      (match s.part? (field e 0 5) with
       | none => false
       | some y => y.slots.any fun u => u.idx = field e 16 3 && u.win = t.win && u.closing.isNone)

/-- The POT check of Table 02-8 for a master that acts for partition `p` and world `w` from source `src`; `atom` for atomics, SIGNAL and
IFSEM, which no copy engine makes on a sealed page. -/
def State.owns (s : State) (m : Master) (p w src page : Nat) (write atom : Bool) : Bool :=
  let e := s.potEntry page
  let owner := field e 0 5
  let allw := bit e 11
  let sealed_ := bit e 12
  let galley := bit e 14
  let reserved := bit e 15
  let mine := owner = p && (allw || field e 5 6 = w)
  let plain := mine && !sealed_ && !galley && !reserved
  let cipher := owner = p && sealed_ && !allw && field e 5 6 = w && !galley && !reserved && !atom
  match m with
  | .core => (plain && s.mayReach src owner false) || (bit e 13 && s.mayReach src owner true && s.windowOk p page e write)
  | .native => galley && !write && s.maySend src
  | .galley => galley && s.maySend src && bit (SMap.get s.access src).toNat 25
  | .copy | .trans =>
    ((plain || cipher) && s.mayReach src owner false) || (bit e 13 && s.mayReach src owner true && s.windowOk p page e write)
  | .host => plain && s.mayReach src owner false
  | .fabric => owner = p && allw && !sealed_ && !galley && !reserved && !bit e 13 && s.mayReach src owner false

/-- Is the page reached through a window, so that no lease cache holds its lines (R56)? -/
def State.throughWindow (s : State) (p page : Nat) : Bool := bit (s.potEntry page) 13 && field (s.potEntry page) 0 5 ≠ p

/-- Is a word of [pa, pa + n) uncorrectable (R27, R32)? -/
def State.badWord (s : State) (pa n : Nat) : Bool :=
  s.eccBad.any fun x => decide (x + 4 > pa) && decide (x < pa + n)

/-- Does a bulkhead answer BULKHEAD-DOWN: fenced, in reset or gated (Table 02-10, R383)? -/
def State.isDown (s : State) (b : Nat) : Bool :=
  match s.bulk? b with
  | none => true
  | some x => (x.st ≠ .running && x.st ≠ .fencing) ||
      s.parts.any fun p => p.gated && p.bulks.contains b

/-- Is a window into a bulkhead suspended (R75): does partition `p` reach the page of a bulkhead that is not RUNNING through a window? -/
def State.suspended (s : State) (p pa : Nat) : Bool :=
  s.throughWindow p (pa / 4096) && (match (homeBulk pa).bind s.bulk? with | none => false | some x => x.st ≠ .running)

/-- A single-bit error in a word that is read, among those that `f` selects, is corrected, written back and logged (R31). -/
def State.scrubBy (s : State) (f : Nat → Bool) (pa n : Nat) : State :=
  let hit (x : Nat) : Bool := f x && decide (x + 4 > pa) && decide (x < pa + n)
  if s.eccSoft.any hit then
    (s.eccSoft.filter hit).foldl (fun s x =>
      match homeBulk x with
      | some b => (s.modBulk b fun k => { k with corrected := k.corrected + 1 }).ember b 0x01 0xFFFF 0xFF (BitVec.ofNat 64 (x / 4096))
      | none => s) { s with eccSoft := s.eccSoft.filter fun x => !hit x }
  else s

def State.scrub (s : State) (pa n : Nat) : State := s.scrubBy (fun _ => true) pa n

/-- An uncorrectable word at a physical address has been met: it is logged, and the bulkhead that stores it fences itself (R70, Table 15-7). -/
def State.fenceWord (s : State) (pa core world : Nat) : State :=
  match homeBulk pa with
  | none => s
  | some b => (s.ember b 0x02 core world (BitVec.ofNat 64 (pa / 4096))).fence b 1 true

/-! ### Translation (R58 to R61) -/

/-- May the walker of source `src` read the table at a physical address (R61, R68)? -/
def State.tableOk (s : State) (p src pa : Nat) : Bool :=
  let e := s.potEntry (pa / 4096)
  (homeBulk pa).isSome && field e 0 5 = p && bit e 11 && !bit e 12 && !bit e 14 && !bit e 15 && s.mayReach src p false

/-- One page-table entry as the walker of source `src` reads it, or a kind of Table 02-5: WALK where the read is not allowed or meets an uncorrectable
word; 5 stands for BULKHEAD-DOWN from the bulkhead that holds the table (R71, LOG 106). -/
def State.readPte (s : State) (p src pa : Nat) : Except Nat Nat :=
  if !s.tableOk p src pa then .error 4
  else if (match homeBulk pa with | none => false | some b => s.isDown b) then .error 5
  else if s.badWord pa 8 then .error 4
  else .ok (ofBytes (Memory.read s.mem pa 8))

/-- Is an entry well formed at its level (Table 02-4)? -/
def pteFormat (lvl e : Nat) (ps : Bool) : Bool :=
  field e 4 8 = 0 && field e 52 12 = 0 &&
  (match lvl with
   | 0 => bit e 1 && (!ps || field e 12 4 = 0)
   | 1 => !bit e 3 && (!bit e 1 || field e 12 9 = 0)
   | 2 => !bit e 3 && (!bit e 1 || field e 12 18 = 0)
   | _ => !bit e 3 && !bit e 1)

/-- A walk from a table of level `lvl` (R58, R59): the physical address, W, and log2 of the bytes mapped; or a kind of Table 02-5. PS64 in an invalid first
entry makes no run of the others (DESIGN CHOICE, LOG 113). -/
def State.walkFrom (s : State) (p src va : Nat) : Nat → Nat → Except Nat (Nat × Bool × Nat)
  | 0, t =>
    let i := field va 12 9
    match s.readPte p src (t + 8 * (i / 16 * 16)) with
    | .error k => .error k
    | .ok f =>
      if bit f 0 && bit f 3 then
        if pteFormat 0 f true then .ok (field f 12 40 * 4096 + va % 65536, bit f 2, 16) else .error 3
      else
        match s.readPte p src (t + 8 * i) with
        | .error k => .error k
        | .ok e =>
          if !bit e 0 then .error 0
          else if pteFormat 0 e false then .ok (field e 12 40 * 4096 + va % 4096, bit e 2, 12) else .error 3
  | lvl + 1, t =>
    let i := field va (12 + 9 * (lvl + 1)) (if lvl = 2 then 13 else 9)
    match s.readPte p src (t + 8 * i) with
    | .error k => .error k
    | .ok e =>
      if !bit e 0 then .error 0
      else if !pteFormat (lvl + 1) e false then .error 3
      else if bit e 1 then .ok (field e 12 40 * 4096 + va % 2 ^ (12 + 9 * (lvl + 1)), bit e 2, 12 + 9 * (lvl + 1))
      else State.walkFrom s p src va lvl (field e 12 40 * 4096)

/-- A full walk of a partition's tables from PTROOT. -/
def State.walk (s : State) (p src va : Nat) : Except Nat (Nat × Bool × Nat) :=
  match s.part? p with
  | none => .error 0
  | some x =>
    let r := x.ptroot.toNat
    if bit r 0 then s.walkFrom p src va 3 (field r 16 36 * 65536) else .error 0

/-- The addresses of the entries that a walk from a table of level `lvl` reads (R58, R59). -/
def State.tableReads (s : State) (p src va : Nat) : Nat → Nat → List Nat
  | 0, t =>
    let i := field va 12 9
    let a := t + 8 * (i / 16 * 16)
    match s.readPte p src a with
    | .ok f => if bit f 0 && bit f 3 then [a] else [a, t + 8 * i]
    | .error _ => [a]
  | lvl + 1, t =>
    let a := t + 8 * field va (12 + 9 * (lvl + 1)) (if lvl = 2 then 13 else 9)
    match s.readPte p src a with
    | .ok e => if bit e 0 && pteFormat (lvl + 1) e false && !bit e 1 then a :: State.tableReads s p src va lvl (field e 12 40 * 4096) else [a]
    | .error _ => [a]

/-- What a walk does besides its result: single-bit errors in the entries it reads are corrected (R31), and an uncorrectable word among them fences its
bulkhead (R70). -/
def State.noteWalk (s : State) (p src va : Nat) : State :=
  match s.part? p with
  | none => s
  | some x =>
    let r := x.ptroot.toNat
    if !bit r 0 || (s.eccSoft.isEmpty && s.eccBad.isEmpty) then s
    else
      (s.tableReads p src va 3 (field r 16 36 * 65536)).foldl (fun t a =>
        match t.eccBad.find? fun w => decide (w + 4 > a) && decide (w < a + 8) with
        | some w => if s.tableOk p src a then t.fenceWord w 0xFFFF 0xFF else t
        | none => if s.tableOk p src a then t.scrub a 8 else t) s

/-- Translate for a core: a cached entry that still agrees with the tables changes nothing; where they disagree, either may be used until an
invalidation ends (R62, R64, LOG 5). -/
def State.translate (s : State) (core : Option Nat) (p src va : Nat) : Except Nat (Nat × Bool) :=
  let fresh := match s.walk p src va with
    | .ok (pa, w, _) => Except.ok (pa, w)
    | .error k => .error k
  match core with
  | none => fresh
  | some c =>
    match s.tlb.find? fun e => e.core = c && decide (e.page ≤ va / 4096) && decide (va / 4096 < e.page + 2 ^ e.order) with
    | none => fresh
    | some e =>
      let old := Except.ok ((e.pfn + (va / 4096 - e.page)) * 4096 + va % 4096, e.w)
      match fresh with
      | .ok x => if x = ((e.pfn + (va / 4096 - e.page)) * 4096 + va % 4096, e.w) then fresh
                 else if Config.freeBool s.fresh (va / 4096) then old else fresh
      | .error _ => if Config.freeBool s.fresh (va / 4096) then old else fresh

/-- Keep the translation of a page that a core has used (R62). -/
def State.cache (s : State) (core p va : Nat) : State :=
  if s.tlb.any fun e => e.core = core && decide (e.page ≤ va / 4096) && decide (va / 4096 < e.page + 2 ^ e.order) then s
  else
    match s.walk p (bulkOf core) va with
    | .error _ => s
    | .ok (pa, w, lg) =>
      { s.noteWalk p (bulkOf core) va with tlb := ⟨core, va / 4096 / 2 ^ (lg - 12) * 2 ^ (lg - 12), lg - 12, pa / 4096 / 2 ^ (lg - 12) * 2 ^ (lg - 12), w⟩ :: s.tlb }

/-! ### Checks of one access -/

/-- Why a lane fails (Table 01-3, Table 02-5); BULKHEAD-DOWN comes last (R73, LOG 6). -/
inductive Fail where
  | align | bounds | page (kind : Nat) | own | unc | down
deriving DecidableEq, Repr

def Fail.rank : Fail → Nat
  | .align => 0 | .bounds => 1 | .page k => 2 + k | .own => 10 | .unc => 11 | .down => 12

def Fail.cause : Fail → Nat
  | .align => Cause.align | .bounds => Cause.bounds | .page _ => Cause.page | .own => Cause.ownership
  | .unc => Cause.uncorrectable | .down => Cause.down

/-- A run of bytes of an access in one page: where it lies, or its literal bytes (constants, R15), or local storage (R14). -/
structure Piece where
  va : Nat
  pa : Nat
  len : Nat
  lit : Option (List Byte) := none
  loc : Bool := false
deriving DecidableEq, Repr

/-- Cut [a, a + n) at page boundaries, into at most `fuel` runs. -/
def cutRuns : Nat → Nat → Nat → List (Nat × Nat)
  | 0, _, _ => []
  | fuel + 1, a, n =>
    if n = 0 then []
    else
      let k := min n (4096 - a % 4096)
      (a, k) :: cutRuns fuel (a + k) (n - k)

/-- Cut [a, a + n) at page boundaries. -/
def cutPages (a n : Nat) : List (Nat × Nat) := cutRuns (n / 4096 + 2) a n

/-- Is a peer window populated for a partition (R10, R380)? -/
def State.peerUp (s : State) (p peer : Nat) : Option Nat :=
  match s.part? p with
  | none => none
  | some x =>
    let r := (SMap.get x.routes peer).toNat
    let port := field r 1 4
    if bit r 0 && s.ports.any (fun q => q.n = port && q.st = 1) && peer ≠ Config.packageNumber then some port else none

/-- May a world reach host windows (R376)? Not after its interface has left RUN, until it runs again. -/
def State.hostOk (s : State) (w : Nat) : Bool :=
  match s.world? w with
  | none => false
  | some x => !x.tdiLeft

/-- Where one page's worth of a global access goes. `reads` says that the access consumes the data (R32), `sent` that its requests to the host and to peers have gone
out already, so that the answer to them decides (R381). -/
def State.checkPiece (s : State) (m : Master) (core : Option Nat) (p w src : Nat) (cancelled : List Nat)
    (write reads atom : Bool) (va n : Nat) (sent : Bool := false) : Except Fail Piece :=
  if 2 ^ 52 ≤ va then .error (.page 2)
  else if cancelled.contains (va / 4096) then .error (.page 0)
  else
    match s.translate core p src va with
    | .error k => .error (if k = 5 then .down else .page k)
    | .ok (pa, wr) =>
      if write && !wr then .error (.page 1)
      else
        match region pa with
        | .nothing => .error .own
        | .peer q _ => if sent || (s.peerUp p q).isSome && s.maySend src && m ≠ .host && m ≠ .fabric then .ok { va := va, pa := pa, len := n } else .error .own
        | .host _ => if sent || s.hostOk w && s.maySend src && m ≠ .host && m ≠ .fabric then .ok { va := va, pa := pa, len := n } else .error .own
        | _ =>
          if !s.owns m p w src (pa / 4096) write atom then .error .own
          else if reads && s.badWord pa n then .error .unc
          else if reads && ((match homeBulk pa with | none => false | some b => s.isDown b) || s.suspended p pa) then .error .down
          else .ok { va := va, pa := pa, len := n }

/-- The worse-placed of two failures does not count: the one with the higher precedence is reported (R17). -/
def joinChecks (a : Except Fail Piece) (b : Except Fail (List Piece)) : Except Fail (List Piece) :=
  match a, b with
  | .ok x, .ok xs => .ok (x :: xs)
  | .error e, .error f => .error (if e.rank ≤ f.rank then e else f)
  | .error e, _ => .error e
  | _, .error f => .error f

/-- A global access of `n` bytes at `va`. -/
def State.checkGlobal (s : State) (m : Master) (core : Option Nat) (p w src : Nat) (cancelled : List Nat)
    (write reads atom : Bool) (va n : Nat) (sent : Bool := false) : Except Fail (List Piece) :=
  ((cutPages va n).map fun c => (c.1 % 2 ^ 64, c.2)).foldr
    (fun c r => joinChecks (s.checkPiece m core p w src cancelled write reads atom c.1 c.2 sent) r) (.ok [])

/-- Physical base of a thread's local slot (R14). -/
def State.localBase (s : State) (c : Ctx) (lane : Nat) : Nat :=
  let area := match s.world? c.l.world with
    | none => 0
    | some w => match w.areas.find? fun a => a.bulk = bulkOf c.core with | none => 0 | some a => a.base
  area + c.core % 32 * 0x3000000 + (c.b.slots.getD (look 0 c.g.tids lane) 0) * 0x4000

/-- Would reading local bytes meet an uncorrectable word or a line whose tag does not match (R14, R32)? A line whose written bit is clear is not read. -/
def State.badLocal (s : State) (pa n : Nat) : Bool :=
  (s.eccBad.any fun x => decide (x + 4 > pa) && decide (x < pa + n) && s.written.contains (lineOf x)) ||
  s.tagBad.any fun l => decide (pa / 128 ≤ l) && decide (l * 128 < pa + n) && s.written.contains l

/-- Pages a CANCEL answer has refused for the instruction being issued again (R316). -/
def Ctx.cancelled (c : Ctx) : List Nat :=
  match c.g.stuck with
  | some ⟨_, _, _, _, .replay _ _ xs⟩ => xs
  | _ => []

/-- Have the requests of the instruction being issued again gone out (R375, R378)? -/
def Ctx.answering (c : Ctx) : Bool :=
  match c.g.stuck with
  | some ⟨_, _, _, _, .ext _⟩ => true
  | _ => false

/-- One lane's access in any space (R11, R15, R16). -/
def State.checkLane (s : State) (c : Ctx) (sp : Space) (write reads : Bool) (lane a n : Nat) : Except Fail (List Piece) :=
  match sp with
  | .glob => s.checkGlobal .core (some c.core) c.l.part c.l.world (bulkOf c.core) c.cancelled write reads false a n c.answering
  | .scr =>
    if a + n ≤ c.b.scratch then
      let pa := c.b.scratchPa a
      if reads && s.badWord pa n then .error .unc else .ok [{ va := a, pa := pa, len := n }]
    else .error .bounds
  | .loc =>
    if a + n ≤ 0x4000 then
      let pa := s.localBase c lane + a
      if reads && s.badLocal pa n then .error .unc
      else .ok [{ va := a, pa := pa, len := n, loc := true }]
    else .error .bounds
  | .par =>
    let args := c.l.rcd.argSize
    let cs := c.l.obj.const
    let inArg (i : Nat) : Bool := decide (i < args)
    let inCon (i : Nat) : Bool := decide (0x8000 ≤ i) && decide (i < 0x8000 + cs.length)
    if (List.range n).all fun i => inArg (a + i) || inCon (a + i) then
      let na := ((List.range n).filter fun i => inArg (a + i)).length
      let con : List Piece :=
        if na = n then [] else [{ va := a + na, pa := 0, len := n - na, lit := some ((cs.drop (a + na - 0x8000)).take (n - na)) }]
      if na = 0 then .ok con
      else
        match s.checkGlobal .core (some c.core) c.l.part c.l.world (bulkOf c.core) c.cancelled false true false
            ((c.l.rcd.argPtr.toNat + a) % 2 ^ 64) na c.answering with
        | .error f => .error f
        | .ok ps => .ok (ps ++ con)
    else .error .bounds

/-- Natural alignment where the order requires it (R78). -/
def mustAlign (ord : Order) (a16 : Bool) : Bool := ord ≠ .plain || a16

/-- log2 of an access size. -/
def lgSize : Nat → Nat
  | 1 => 0 | 2 => 1 | 4 => 2 | 8 => 3 | 16 => 4 | 32 => 5 | 64 => 6 | 128 => 7 | _ => 0

/-- %tinfo of a lane access (Table 12-3). -/
def memInfo (sp : Space) (n : Nat) (write : Bool) (kind : Nat) : DWord :=
  BitVec.ofNat 64 (sp.code + lgSize n * 4 + b2n write * 32 + kind * 256)

/-- The world's fault queue is enabled (R315). -/
def State.fqEnabled (s : State) (w : Nat) : Bool :=
  match s.world? w with
  | none => false
  | some x => bit (x.reg 0x308).toNat 8

/-- The first address of each distinct page, in lane order (R316). -/
def firstPerPage : List Nat → List Nat → List Nat
  | _, [] => []
  | seen, a :: as => if seen.contains (a / 4096) then firstPerPage seen as else a :: firstPerPage (a / 4096 :: seen) as

/-- The physical addresses of an access, for naming the uncorrectable word that it met. -/
def State.physOf (s : State) (c : Ctx) (sp : Space) (lane a n : Nat) : List (Nat × Nat) :=
  match sp with
  | .scr => [(c.b.scratchPa a, n)]
  | .loc => [(s.localBase c lane + a, n)]
  | _ =>
    let a := if sp = .par then c.l.rcd.argPtr.toNat + a else a
    (cutPages a n).filterMap fun x => match s.translate (some c.core) c.l.part (bulkOf c.core) (x.1 % 2 ^ 64) with
      | .ok (pa, _) => some (pa, x.2)
      | .error _ => none

/-- Fence for the uncorrectable word that a lane's access has met; a local line that is not written has not been read (R14). -/
def State.fenceAccess (s : State) (c : Ctx) (sp : Space) (lane a n : Nat) : State :=
  let ps := s.physOf c sp lane a n
  let hit (p : Nat × Nat) (x : Nat) : Bool := decide (x + 4 > p.1) && decide (x < p.1 + p.2) && (sp ≠ .loc || s.written.contains (lineOf x))
  match ps.find? fun p => s.eccBad.any (hit p) with
  | some p => s.fenceWord ((s.eccBad.find? (hit p)).getD p.1) c.core c.l.world
  | none => match ps with | p :: _ => s.fenceWord p.1 c.core c.l.world | [] => s

/-- What the failure of lanes leads to besides the trap: the fence of an uncorrectable word that they have met, in memory or in a walk (R70). -/
def State.afterFault (s : State) (c : Ctx) (sp : Space) (n : Nat) (f : Fail) (sel : List (Nat × Nat × Fail)) : State :=
  match f with
  | .unc => sel.foldl (fun s x => s.fenceAccess c sp x.1 x.2.1 n) s
  | .page 4 => sel.foldl (fun s x =>
      (cutPages (if sp = .par then c.l.rcd.argPtr.toNat + x.2.1 else x.2.1) n).foldl (fun s e => s.noteWalk c.l.part (bulkOf c.core) (e.1 % 2 ^ 64)) s) s
  | _ => s

/-- What the failing lanes of an access lead to (R17, R315, R316): one cause on the lanes that have it, or the group parks for replay. Of a lane with several
failing words, as an LDT or STT makes them, %taddr shows the first that has the cause (DESIGN CHOICE, LOG 126).
Each entry is a lane, its address and its failure; `pages` gives each lane's addresses on the pages that fail with NOTPRESENT. -/
def memFault (c : Ctx) (act : Mask) (sp : Space) (n : Nat) (write : Bool) (fails : List (Nat × Nat × Fail)) (pages : List (Nat × Nat))
    (s : State) : Out :=
  let best := fails.foldl (fun b f => min b f.2.2.rank) 100
  let sel := fails.filter fun f => f.2.2.rank = best
  match sel with
  | [] => .next s
  | (_, _, f) :: _ =>
    let kind := match f with | .page k => k | _ => 0
    let gone := sel.filter fun x => pages.any fun e => e.1 = x.1 && c.cancelled.contains (e.2 / 4096)
    let sel := if gone.isEmpty then sel else gone
    let m := maskOf (sel.map fun x => x.1)
    if f = .page 0 && gone.isEmpty && c.l.rcd.flags.getLsbD 1 && s.fqEnabled c.l.world then
      let named := sel.flatMap fun x => (pages.filter fun e => e.1 = x.1).map fun e => e.2
      let owed := (firstPerPage [] named).map fun a => ⟨a, write, s.now⟩
      .next (s.modGroup c.gid fun g =>
        { g with stuck := some ⟨c.is.pc, c.is.mask, c.is.len, c.is.inst, .replay owed [] []⟩, ahead := [] })
    else
      let s1 := takeTrap c f.cause m act (memInfo sp n write kind)
        (fun l => match sel.find? fun x => x.1 = l with | none => 0 | some x => BitVec.ofNat 64 x.2.1) s
      .next (s1.afterFault c sp n f sel)

/-- Addresses of an access on the pages that are not present, or that a CANCEL has refused, for the fault records. -/
def State.badPages (s : State) (c : Ctx) (sp : Space) (a n : Nat) : List Nat :=
  let a := if sp = .par then c.l.rcd.argPtr.toNat + a else a
  ((cutPages a n).filter fun x =>
      match s.translate (some c.core) c.l.part (bulkOf c.core) (x.1 % 2 ^ 64) with | .error 0 => true | _ => c.cancelled.contains (x.1 / 4096)).map
    fun x => x.1 % 2 ^ 64

/-- The check of every lane of an access (R17, R78): lane, address, and its pieces or its failure. -/
def State.laneChecks (s : State) (c : Ctx) (sp : Space) (n : Nat) (write reads aligned : Bool) (reqs : List (Nat × Nat)) :
    List (Nat × Nat × Except Fail (List Piece)) :=
  reqs.map fun r => (r.1, r.2, if aligned && r.2 % n ≠ 0 then Except.error Fail.align else s.checkLane c sp write reads r.1 r.2 n)

/-- Check every lane of an access (R17, R234): the pieces of each lane, or the outcome of the failure. Each request is a lane and its
address. It waits for the strong atomics of its lanes (Table 03-4). -/
def withLanes (c : Ctx) (act : Mask) (sp : Space) (n : Nat) (write reads aligned : Bool) (reqs : List (Nat × Nat)) (s : State)
    (k : List (Nat × List Piece) → Out) : Out :=
  let res := s.laneChecks c sp n write reads aligned reqs
  let fails := res.filterMap fun r => match r.2.2 with | .error f => some (r.1, r.2.1, f) | .ok _ => none
  if fails.isEmpty && !s.atomsDone c.gid act true then stall s
  else if fails.isEmpty then
    k (res.filterMap fun r => match r.2.2 with | .ok ps => some (r.1, ps) | .error _ => none)
  else
    memFault c act sp n write fails (fails.flatMap fun f => (s.badPages c sp f.2.1 n).map fun p => (f.1, p)) s

/-! ### Reads -/

/-- Does a write in flight touch [pa, pa + n)? -/
def Pend.size (p : Pend) : Nat :=
  match p.op with
  | .bytes bs => bs.length
  | .sem _ _ => 8
  | .rmw _ n _ => n
  | .rmwf op _ => op.size.bytes
  | .xchg n _ => n
  | .cas n _ _ => n

def Pend.touches (p : Pend) (pa n : Nat) : Bool := p.ext.isNone && decide (p.pa < pa + n) && decide (pa < p.pa + p.size)

/-- The latest own write in flight to a byte, in program order (R38, R84). -/
def ownWrite (src : Writer → Bool) (pa : Nat) : List Pend → Option Pend
  | [] => none
  | p :: ps =>
    match ownWrite src pa ps with
    | some q => if src p.src && p.touches pa 1 && decide (q.id < p.id) then some p else some q
    | none => if src p.src && p.touches pa 1 then some p else none

/-- Is a physical byte scratch of a resident block (R19)? -/
def State.isScratch (s : State) (pa : Nat) : Bool := s.blocks.any fun b => decide (b.scratchPa 0 ≤ pa) && decide (pa < b.scratchPa 0 + b.scratch)

/-- The byte that a copy chain is writing to a scratch byte, if one is in flight (R21). -/
def State.chainByte (s : State) (pa : Nat) : Option Byte :=
  if s.isScratch pa then
    match s.pend.find? fun p => (match p.src with | .chain _ => true | _ => false) && p.touches pa 1 with
    | some p => match p.op with | .bytes bs => bs[pa - p.pa]? | _ => none
    | none => none
  else none

/-- One byte as its reader sees it; none while a read-modify-write of the reader's own is in flight there. A scratch byte that a copy chain is
writing reads as either value, byte by byte, for each reader `k` of the step (R21, LOG 3). -/
def State.readByte (s : State) (src : Writer → Bool) (k pa : Nat) : Option Byte :=
  match ownWrite src pa s.pend with
  | none =>
    match s.chainByte pa with
    | some b => some (if Config.freeBool s.fresh (pa * 1024 + k) then b else Memory.get s.mem pa)
    | none => some (Memory.get s.mem pa)
  | some p =>
    match p.op with
    | .bytes bs => bs[pa - p.pa]?
    | _ => none

/-- `n` bytes as their reader sees them. -/
def State.readBytes (s : State) (src : Writer → Bool) (k pa : Nat) : Nat → Option (List Byte)
  | 0 => some []
  | n + 1 =>
    match s.readByte src k pa, State.readBytes s src k (pa + 1) n with
    | some b, some bs => some (b :: bs)
    | _, _ => none

/-- A local byte: zero while its line's written bit is clear (R14). -/
def State.readLocal (s : State) (pa n : Nat) : List Byte :=
  (List.range n).map fun i => if s.written.contains (lineOf (pa + i)) then Memory.get s.mem (pa + i) else 0

/-- Is a piece at the host or at a peer? -/
def Piece.outside (p : Piece) : Bool :=
  match region p.pa with
  | .peer _ _ => p.lit.isNone && !p.loc
  | .host _ => p.lit.isNone && !p.loc
  | _ => false

/-- The byte that a lane has read ahead of the load that issues (R79). -/
def Ctx.early (c : Ctx) (lane pa : Nat) : Option Byte :=
  match c.g.ahead.find? fun a => a.lane = lane && decide (a.pa ≤ pa) && decide (pa < a.pa + a.bytes.length) with
  | some a => a.bytes[pa - a.pa]?
  | none => none

/-- `n` bytes as a lane's load reads them: those read ahead as they were then, the others now (R77, R79). -/
def State.laneBytes (s : State) (c : Ctx) (lane pa : Nat) : Nat → Option (List Byte)
  | 0 => some []
  | n + 1 =>
    let b := match c.early lane pa with
      | some b => some b
      | none => s.readByte (fun w => w = .thread c.gid lane) lane pa
    match b, State.laneBytes s c lane (pa + 1) n with
    | some b, some bs => some (b :: bs)
    | _, _ => none

/-- DESTPART of a partition's route to a peer (Table 16-3). -/
def State.destPart (s : State) (p peer : Nat) : Nat :=
  match s.part? p with
  | none => 0
  | some x => field (SMap.get x.routes peer).toNat 5 5

/-- Flits that a port may have sent and not had acknowledged (R378). -/
def flitBuffer : Nat := 128

/-- Requests to peers that have no flit yet go into the buffers of their ports, oldest first, as far as these have room (R378). -/
def State.fillFlits (s : State) : List ExtReq → State
  | [] => s
  | e :: es =>
    let s1 := if e.host || e.flit.isSome || e.reply.isSome then s
      else
        match s.ports.find? fun q => q.n = e.port && q.st = 1 && decide (q.out.length < flitBuffer) with
        | none => s
        | some q =>
          { s with
            ports := s.ports.map fun (x : Port) => if x.n = q.n then { x with out := x.out ++ [(x.oseq, e.id)], oseq := (x.oseq + 1) % 4096 } else x
            ext := s.ext.map fun (x : ExtReq) => if x.id = e.id then { x with flit := some q.oseq } else x }
    State.fillFlits s1 es

/-- Send a request to the host or a peer (R375, R378, R380). -/
def State.send (s : State) (p w : Nat) (pa : Nat) (op : ExtOp) : State :=
  let mk (host : Bool) (port peer dpart addr : Nat) : ExtReq := ⟨s.serial, host, w, port, peer, dpart, addr, op, s.now, none, none, none⟩
  let add (e : ExtReq) : State := { s with ext := s.ext ++ [e], serial := s.serial + 1 }
  match region pa with
  | .host h => add (mk true 0 0 0 h)
  | .peer q off => let e := mk false ((s.peerUp p q).getD 0) q (s.destPart p q) off; (add e).fillFlits [e]
  | _ => add (mk true 0 0 0 0)

/-! ### Writes -/

/-- Does a request count in a wick counter until it is answered: an atomic in STORE, a SEMSIG to a peer in REMOTE (R131, R251)? -/
def ExtReq.countsIn (e : ExtReq) (cls : WClass) : Bool :=
  match e.op with
  | .atom _ _ _ => cls = .store
  | .atomf _ _ => cls = .store
  | .xchg _ _ => cls = .store
  | .cas _ _ _ => cls = .store
  | .sem _ _ => cls = if e.host then .store else .remote
  | _ => false

/-- Atomics and semaphore signals that a group has at a host or a peer, unanswered (R131, R244, R251). -/
def State.atomsOut (s : State) (g : Group) (cls : WClass) : Nat :=
  match g.stuck with
  | some ⟨_, _, _, _, .ext rs⟩ => (rs.filter fun r => s.ext.any fun e => e.id = r.2 && e.reply.isNone && e.countsIn cls).length
  | _ => 0

/-- The same for all groups of a launch on a core. -/
def State.outAtoms (s : State) (lid core : Nat) (cls : WClass) : Nat :=
  ((s.groups.filter fun g => g.gid.lid = lid && (match s.block? lid g.gid.blk with | some b => b.core = core | none => false)).map fun g =>
    s.atomsOut g cls).sum

/-- Number of writes of a class that a launch has in flight on a core (R131). -/
def State.wick (s : State) (lid core : Nat) (cls : WClass) : Nat :=
  (s.pend.filter fun p => p.lid = lid && p.core = core && p.cls = cls).length +
    (if cls = .store || cls = .remote then s.outAtoms lid core cls else 0)

/-- Put one write in flight. `full` are the words that the lanes of its instruction write wholly together, `ent` the index of its chain entry, `txn` its transaction
when it is not one of its own. -/
def State.issue (s : State) (src : Writer) (lid core : Nat) (cls : WClass) (va : Nat) (pa : Nat) (op : WOp) (after : List Nat)
    (strong : Bool) (full : List Nat := []) (ent : Nat := 0) (txn : Option Nat := none) : State :=
  { s with
    pend := s.pend ++ [⟨s.serial, src, lid, core, cls, BitVec.ofNat 64 va, pa, op, after, strong, none, none, full, ent, txn.getD s.serial, false⟩]
    serial := s.serial + 1 }

/-- The writes of a source that a new write to [pa, pa + n) must follow in coherence order (R83, first row of Table 03-4); PUTs are ordered only
among themselves (R97, LOG 10). -/
def State.sameBytes (s : State) (src : Writer) (put : Bool) (pa n : Nat) : List Nat :=
  (s.pend.filter fun p => p.src = src && (p.cls = .put) == put && p.touches pa n).map fun p => p.id

/-- Every write of a source in flight that ordinary ordering covers: PUTs are left out (R97), of a release of SYS scope too, whether they go through a window or not
(DESIGN CHOICE, LOG 115). -/
def State.ownWrites (s : State) (src : Writer) : List Nat :=
  (s.pend.filter fun p => p.src = src && p.cls ≠ .put).map fun p => p.id

/-- The words that the lanes of one instruction write wholly together, though none of its single-copy-atomic units does (R28). -/
def fullWords (rs : List (Nat × Nat)) : List Nat :=
  let covers (r : Nat × Nat) (a : Nat) : Bool := decide (r.1 ≤ a) && decide (a < r.1 + r.2)
  ((rs.flatMap fun r => (List.range (r.2 / 4 + 2)).map fun i => r.1 / 4 * 4 + 4 * i).eraseDups).filter fun w =>
    ((List.range 4).all fun i => rs.any fun r => covers r (w + i)) &&
    !(rs.any fun r => decide (4 ≤ r.2) && r.1 % r.2 = 0 && covers r w)

/-- Cut bytes at the single-copy-atomic units of Table 03-1: offset and bytes of each unit. -/
def units (aligned : Bool) (bs : List Byte) (whole : Bool) : List (Nat × List Byte) :=
  if aligned then
    if bs.length = 16 && !whole then [(0, bs.take 8), (8, bs.drop 8)] else [(0, bs)]
  else (List.range bs.length).map fun i => (i, [bs.getD i 0])

/-- A posted write to the host or a peer. A host write is acknowledged by the flush sent after it (R101, R375). -/
def State.sendWrite (s : State) (p w : Nat) (src : Writer) (lid core : Nat) (cls : WClass) (va pa : Nat) (op : WOp) (x : ExtOp)
    (strong : Bool) (ent : Nat := 0) : State :=
  let s1 := s.send p w pa x
  let s2 := match region pa, x with
    | .host _, .write _ => s1.send p w pa .flush
    | _, _ => s1
  { s2 with
    pend := s2.pend ++ [⟨s2.serial, src, lid, core, cls, BitVec.ofNat 64 va, pa, op, [], strong, none, some (s2.serial - 1), [], ent, s2.serial, false⟩]
    serial := s2.serial + 1 }

/-- The identities that a write must follow: those given, the thread's own to the same bytes, and those of the lower lanes of the same
instruction, whose identities start at `base` (R29, R83). -/
def State.mustFollow (s : State) (src : Writer) (lid : Nat) (cls : WClass) (base : Nat) (after : List Nat) (pa n : Nat) : List Nat :=
  after ++ s.sameBytes src (cls = .put) pa n ++
    (s.pend.filter fun q => q.touches pa n && q.src ≠ src && decide (base ≤ q.id) && q.lid = lid).map fun q => q.id

/-- Put the write of one piece in flight, unit by unit; the units of one line are one transaction (R53). To the host or a peer it is sent as a request (R375,
R378). -/
def State.issuePiece (s : State) (c : Ctx) (cls : WClass) (lane : Nat) (base : Nat) (strong whole : Bool) (after : List Nat)
    (p : Piece) (bs : List Byte) (aligned : Bool) (full : List Nat) : State :=
  let src := Writer.thread c.gid lane
  let txn := s.serial
  if p.outside then s.sendWrite c.l.part c.l.world src c.l.lid c.core cls p.va p.pa (.bytes bs) (.write bs) strong
  else
    (units aligned bs whole).foldl
      (fun s u => s.issue src c.l.lid c.core cls (p.va + u.1) (p.pa + u.1) (.bytes u.2)
        (s.mustFollow src c.l.lid cls base after (p.pa + u.1) u.2.length) strong
        (full.filter fun w => decide (w < p.pa + u.1 + u.2.length) && decide (p.pa + u.1 < w + 4)) 0 (some txn)) s

/-- Write local bytes: the thread alone can see them, so they are written at once; the first write to a line of the slot writes the whole line, the
rest of it with zeros, so that no error of its words is left (R13, R14). Later writes clear the errors of words that they cover (R28). -/
def State.writeLocal (s : State) (pa : Nat) (bs : List Byte) : State :=
  let s := (List.range bs.length).foldl (fun s i =>
    let ln := lineOf (pa + i)
    if s.written.contains ln then s
    else
      { s with
        mem := Memory.zero s.mem (fun a => a / 128 = ln)
        written := ln :: s.written
        eccBad := s.eccBad.filter fun x => lineOf x ≠ ln
        eccSoft := s.eccSoft.filter fun x => lineOf x ≠ ln
        tagBad := s.tagBad.filter fun l => l ≠ ln }) s
  let whole (x : Nat) : Bool := decide (pa ≤ x) && decide (x + 4 ≤ pa + bs.length)
  let part (x : Nat) : Bool := !whole x && decide (x + 4 > pa) && decide (x < pa + bs.length)
  let s1 := (s.scrubBy part pa bs.length)
  let s2 := { s1 with
    mem := Memory.write s1.mem pa bs
    eccBad := s1.eccBad.filter fun x => !whole x
    eccSoft := s1.eccSoft.filter fun x => !whole x }
  match s.eccBad.find? part with
  | some x => s2.fenceWord x 0xFFFF 0xFF
  | none => s2

end Sys2Proof.Machine
end

