-- ==== Sys2Proof/Machine/Home.lean ====
section
/-! DEFINITION. The homes of lines (R33 to R46): arrival and completion of writes, the read-modify-writes they perform, failures of writes to a
fenced bulkhead (R73), and what a foreign scratch write leaves for the operand fetch (R99). -/

namespace Sys2Proof.Machine

/-! ### Read-modify-writes (Table 09-4, R251) -/

/-- New value of an integer atomic of `n` bytes. -/
def atomNew (op : AtomOp) (n m b : Nat) : Nat :=
  let md := 2 ^ (8 * n)
  let sm := signed (8 * n) m
  let sb := signed (8 * n) b
  match op with
  | .add => (m + b) % md
  | .minz => min m b
  | .maxz => max m b
  | .mins => if sb < sm then b else m
  | .maxs => if sm < sb then b else m
  | .and => (BitVec.ofNat 64 m &&& BitVec.ofNat 64 b).toNat
  | .or => (BitVec.ofNat 64 m ||| BitVec.ofNat 64 b).toNat
  | .xor => (BitVec.ofNat 64 m ^^^ BitVec.ofNat 64 b).toNat
  | .inc => if m ≥ b then 0 else m + 1
  | .dec => if m = 0 || m > b then b else m - 1

/-- A float sum as an atomic forms it: RNE, subnormals kept, canonical NaN, no flag (R244). -/
def atomSum (t : FT) (m b : Nat) : Nat := (outF t 1 .rne false (fAdd .rne (decodeF t m) (decodeF t b)).1).1

/-- New value of a float atomic. -/
def atomfNew (op : AtomFOp) (m b : Nat) : Nat :=
  match op with
  | .addF32 => atomSum .f32 m b
  | .addF16x2 => atomSum .f16 (m % 2 ^ 16) (b % 2 ^ 16) + atomSum .f16 (m / 2 ^ 16) (b / 2 ^ 16) * 2 ^ 16
  | .addBF16x2 => atomSum .bf16 (m % 2 ^ 16) (b % 2 ^ 16) + atomSum .bf16 (m / 2 ^ 16) (b / 2 ^ 16) * 2 ^ 16
  | .addF64 => atomSum .f64 m b
  | .minF32 => (outF .f32 1 .rne false (fMinMax 1 true false (decodeF .f32 m) (decodeF .f32 b)).1).1
  | .maxF32 => (outF .f32 1 .rne false (fMinMax 1 true true (decodeF .f32 m) (decodeF .f32 b)).1).1

/-- New value of a semaphore (R115, R251, Table 11-3). -/
def semNew (op : SigOp) (m v : DWord) : DWord :=
  match op with
  | .add => m + v
  | .or => m ||| v
  | .set => v

/-- A semaphore comparison (R114, R252). -/
def semTest (op : SemCmp) (m v : DWord) : Bool :=
  match op with
  | .eq => m = v
  | .ne => m ≠ v
  | .ge => v.ule m
  | .gt => v.ult m
  | .le => m.ule v
  | .lt => m.ult v
  | .ges => v.sle m
  | .gts => v.slt m
  | .les => m.sle v
  | .lts => m.slt v
  | .all => m &&& v = v
  | .any => m &&& v ≠ 0

/-! ### Memory changes -/

/-- Is a physical address in a sealed page (R120)? -/
def State.isSealed (s : State) (pa : Nat) : Bool := bit (s.potEntry (pa / 4096)) 12

/-- What a write to a slice byte leaves behind for operand fetches (R99): another agent's write may stay unseen by every group of that core
that has not executed an MFENCE since; the group's own write is seen by the matrix instructions issued after it, and may stay unseen by
those issued before it. -/
def State.keepOlds (s : State) (src : Writer) (id pa n : Nat) : State :=
  match region pa with
  | .slice core _ =>
    let news : List OldByte := (List.range n).map fun i => ⟨pa + i, Memory.get s.mem (pa + i)⟩
    let hit (o : OldByte) : Bool := decide (pa ≤ o.pa) && decide (o.pa < pa + n)
    { s with groups := s.groups.map fun g =>
        let own := match src with | .thread x _ => decide (x = g.gid) | _ => false
        let here := match s.block? g.gid.lid g.gid.blk with | none => false | some b => decide (b.core = core)
        if own then
          { g with
            mats := g.mats.map fun m =>
              if m.at_ ≤ id then { m with olds := m.olds ++ g.olds.filter hit ++ news } else { m with olds := m.olds.filter fun o => !hit o }
            olds := g.olds.filter fun o => !hit o }
        else if here then { g with olds := g.olds ++ news }
        else g }
  | _ => s

/-- Store bytes at their home: words wholly written become clean, a partly written uncorrectable word fences its bulkhead (R28, R32, R70), a
wholly written sealed line gets a new tag (R121). `id` is the number of the write. -/
def State.storeBytes (s : State) (src : Writer) (id pa : Nat) (bs : List Byte) : State :=
  let s := s.keepOlds src id pa bs.length
  let s := if pa % 4 = 0 then s else s.scrub pa 1
  let s := if (pa + bs.length) % 4 = 0 then s else s.scrub (pa + bs.length - 1) 1
  let whole (x : Nat) : Bool := decide (pa ≤ x) && decide (x + 4 ≤ pa + bs.length)
  let part (x : Nat) : Bool := !whole x && decide (x + 4 > pa) && decide (x < pa + bs.length)
  let s1 := { s with
    mem := Memory.write s.mem pa bs
    eccBad := s.eccBad.filter fun x => !whole x
    eccSoft := s.eccSoft.filter fun x => !whole x && !part x
    tagBad := s.tagBad.filter fun l => !(decide (pa ≤ l * 128) && decide (l * 128 + 128 ≤ pa + bs.length)) }
  match s.eccBad.find? part with
  | some x => s1.fenceWord x 0xFFFF 0xFF
  | none => s1

/-- Change groups wherever they are, resident or in a saved context. -/
def State.modGroupAny (s : State) (g : Gid) (f : Group → Group) : State :=
  let up (x : Group) : Group := if x.gid = g then f x else x
  { s with
    groups := s.groups.map up
    worlds := s.worlds.map fun w =>
      { w with ctx := match w.ctx with | none => none | some c => some { c with groups := c.groups.map up } } }

def State.groupAny? (s : State) (g : Gid) : Option Group :=
  match s.group? g with
  | some x => some x
  | none => (s.worlds.findSome? fun w => match w.ctx with | none => none | some c => c.groups.find? fun x => x.gid = g)

/-- Change chains wherever they are. -/
def State.modChainAny (s : State) (id : Nat) (f : Chain → Chain) : State :=
  let up (x : Chain) : Chain := if x.id = id then f x else x
  { s with
    chains := s.chains.map up
    worlds := s.worlds.map fun w =>
      { w with ctx := match w.ctx with | none => none | some c => some { c with chains := c.chains.map up } } }

/-- Stop a chain (R117), unless it has already stopped. -/
def Chain.halt (k : Chain) (cause : Nat) (addr info : DWord) : Chain :=
  match k.stop with
  | some _ => k
  | none => { k with stop := some ⟨cause, addr, info⟩, stuck := none }

/-- %tinfo of a chain, without POS, which is filled in at the report (Table 12-3, R118). -/
def chainInfo (space lsize : Nat) (write : Bool) (kind idx : Nat) : DWord :=
  BitVec.ofNat 64 (space + lsize * 4 + b2n write * 32 + kind * 256 + idx % 65536 * 2 ^ 32 + 2 ^ 60)

/-- A write of the group has completed with BULKHEAD-DOWN: it is to be reported (R314). -/
def Group.failed (g : Group) (va : DWord) (n : Nat) : Group :=
  { g with err := match g.err with
      | none => some ⟨va, lgSize n, 1⟩
      | some e => some { e with count := e.count + 1 } }

/-- A debugger's write that is out has been refused (R360): ERR, offsets of Table 15-1. -/
def State.failDebug (s : State) (p : Pend) : State :=
  { s with worlds := s.worlds.map fun (x : World) =>
      if p.ext.isSome && x.dbgExt = p.ext then
        { ((x.setField 0x6C0 5 1 0).setField 0x6C0 6 1 1) with dbgExt := none, dbgReq := none }
      else x }

/-- A write has completed with BULKHEAD-DOWN (R73, R314); of a host's write FNSTAT.BHDOWN tells (Table 16-2). -/
def State.failWrite (s : State) (p : Pend) : State :=
  match p.src with
  | .thread g _ =>
    match s.groupAny? g with
    | some _ => s.modGroupAny g fun x => x.failed p.va p.size
    | none => s.modLaunch p.lid fun l => { l with failed := true }
  | .chain id => s.modChainAny id fun k => k.halt Cause.down p.va (chainInfo 0 (lgSize p.size) true 0 p.ent)
  | .host w => s.modWorld w fun x => x.setField 0xA08 1 1 1
  | .dispatcher _ => s.failDebug p
  | .fabric _ => s

/-- Words that the lanes of one instruction write wholly together are written without being read (R28). -/
def State.overwrite (s : State) (ws : List Nat) : State :=
  if ws.isEmpty then s
  else { s with eccBad := s.eccBad.filter fun x => !ws.contains x, eccSoft := s.eccSoft.filter fun x => !ws.contains x }

/-- Perform a write at its home (R36). -/
def State.perform (s : State) (p : Pend) : State :=
  match homeBulk p.pa with
  | none => s
  | some b =>
    if s.isDown b then s.failWrite p
    else
      let s := match p.op with | .bytes _ => s | _ => s.scrub p.pa p.size
      match p.op with
      | .bytes bs =>
        let badTag := s.isSealed p.pa && s.tagBad.contains (lineOf p.pa) && !(p.pa % 128 = 0 && bs.length = 128)
        if badTag then
          match p.src with
          | .chain id => s.modChainAny id fun k => k.halt Cause.integrity p.va (chainInfo 0 (lgSize bs.length) true 0 p.ent)
          | _ => s
        else (s.overwrite p.full).storeBytes p.src p.id p.pa bs
      | .sem op v =>
        let m := BitVec.ofNat 64 (ofBytes (Memory.read s.mem p.pa 8))
        s.storeBytes p.src p.id p.pa (toBytes 8 (semNew op m v).toNat)
      | .rmw op n b => s.storeBytes p.src p.id p.pa (toBytes n (atomNew op n (ofBytes (Memory.read s.mem p.pa n)) b.toNat))
      | .rmwf op b =>
        s.storeBytes p.src p.id p.pa (toBytes op.size.bytes (atomfNew op (ofBytes (Memory.read s.mem p.pa op.size.bytes)) b.toNat))
      | .xchg n b => s.storeBytes p.src p.id p.pa (toBytes n b.toNat)
      | .cas n b new =>
        if ofBytes (Memory.read s.mem p.pa n) = b.toNat % 2 ^ (8 * n) then s.storeBytes p.src p.id p.pa (toBytes n new.toNat) else s

/-! ### Arrival and completion (R36, R85) -/

end Sys2Proof.Machine
namespace Sys2Proof

def LaunchRec.blocks (r : LaunchRec) : Nat := r.gx * r.gy * r.gz

end Sys2Proof
namespace Sys2Proof.Machine

/-- Has a launch no thread any more (R132)? -/
def State.threadsDone (s : State) (l : Launch) : Bool :=
  decide (l.rcd.blocks ≤ l.nextBlk) && (s.blocks.all fun b => b.lid ≠ l.lid) &&
  s.worlds.all fun x => match x.ctx with | some c => c.blocks.all fun b => b.lid ≠ l.lid | none => true

/-- Does a line hold arguments that a launch reads under a lease to its end, that of its last thread (R41, LOG 133)? -/
def State.parHeld (s : State) (line : Nat) : Bool :=
  s.leases.any fun l => l.line = line && (match l.par.bind s.launch? with | some x => x.status = .running && !s.threadsDone x | none => false)

/-- May a write arrive: every write it must follow has arrived, and no lease to a launch's end is on its line (R41)? -/
def State.mayArrive (s : State) (p : Pend) : Bool :=
  p.tc.isNone && p.ext.isNone && (p.after.all fun i => s.pend.all fun q => q.id ≠ i || q.tc.isSome) && !s.parHeld (lineOf p.pa)

/-- Time of the last strong write of a source (R86). -/
def State.lastStrong (s : State) (src : Writer) : Nat :=
  match src with
  | .thread g l => match s.groupAny? g with | none => 0 | some x => look 0 x.strongT l
  | _ => 0

/-- T_c of an arriving write: at least `delay` from now, not before L_max of its line, not before any T_c of the line, not before the writes
it follows; later than the thread's last strong write when it is strong itself (R36, R85, R86). -/
def State.tcOf (s : State) (p : Pend) (delay : Nat) : Nat :=
  let line := lineOf p.pa
  let t0 := max (s.now + delay) (look 0 s.lmax line)
  let t1 := s.pend.foldl (fun t q => match q.tc with
    | some x => if lineOf q.pa = line || p.after.contains q.id then max t x else t
    | none => t) t0
  if p.strong then max t1 (s.lastStrong p.src + 1) else t1

/-- Are two writes units of one transaction (R53)? -/
def Pend.sameTxn (p q : Pend) : Bool := p.src = q.src && p.txn = q.txn && lineOf p.pa = lineOf q.pa

/-- STORE_ARRIVAL: the home fixes the completion time; the write takes its place behind those that arrived before it, and its transaction has passed the gates. -/
def State.arrive (s : State) (p : Pend) (delay : Nat) : State :=
  let t := s.tcOf p delay
  let s1 := { s with
    pend := ((s.pend.filter fun q => q.id ≠ p.id).map fun q => if p.sameTxn q then { q with begun := true } else q) ++ [{ p with tc := some t, begun := true }]
    leases := s.leases.map fun l => if l.line = lineOf p.pa then { l with owned := false } else l }
  if p.strong then
    match p.src with
    | .thread g l => s1.modGroupAny g fun x => { x with strongT := put x.strongT l t }
    | _ => s1
  else s1

/-- The arrived writes of a line in arrival order. -/
def State.lineQueue (s : State) (line : Nat) : List Pend :=
  s.pend.filter fun q => q.tc.isSome && q.ext.isNone && lineOf q.pa = line

/-- May a write perform: its T_c has come, every write it must follow has performed, and it is the first of its line? -/
def State.mayPerform (s : State) (p : Pend) : Bool :=
  match p.tc with
  | none => false
  | some t => decide (t ≤ s.now) && (p.after.all fun i => s.pend.all fun q => q.id ≠ i) && (match s.lineQueue (lineOf p.pa) with | q :: _ => q.id = p.id | [] => false)

/-! ### Results of atomics (R244) -/

/-- Does an instruction wait for the result of a write? -/
def Hold.awaits (h : Hold) (id : Nat) : Bool :=
  match h with
  | .atom _ _ _ _ ls => ls.any fun x => x.id = id && x.got.isNone && !x.down
  | _ => false

/-- The group that waits for the result of a write. -/
def State.waiter (s : State) (id : Nat) : Option Gid :=
  (s.groups.find? fun g => match g.stuck with | some t => t.hold.awaits id | none => false).map fun g => g.gid

/-- Record the result of an atomic, or that it met BULKHEAD-DOWN. -/
def Group.receiveOld (g : Group) (id : Nat) (old : Option DWord) : Group :=
  match g.stuck with
  | some ⟨pc, m, n, w, .atom d k sc act ls⟩ =>
    { g with stuck := some ⟨pc, m, n, w, .atom d k sc act (ls.map fun (x : Await) =>
        if x.id = id then { x with got := old, down := old.isNone } else x)⟩ }
  | _ => g

/-- Once every lane has its result, D is written and the fragment goes on; a lane that met BULKHEAD-DOWN faults (R73). -/
def State.land (s : State) (gid : Gid) : State :=
  match s.group? gid with
  | none => s
  | some g =>
    match g.stuck with
    | some ⟨pc, m, n, w, .atom d k sc act ls⟩ =>
      if ls.all fun x => x.got.isSome || x.down then
        match s.ctxOf ⟨gid, pc, m, n, w⟩ with
        | none => s
        | some c =>
          let bad := ls.filter fun x => x.down
          if bad.isEmpty then
            retire c (s.modGroup gid fun g =>
              ls.foldl (fun g (x : Await) => g.writeReg c.w64 s.fresh k x.lane d (x.got.getD 0)) { g with stuck := none })
          else
            takeTrap c Cause.down (maskOf (bad.map fun x => x.lane)) act (BitVec.ofNat 64 ((if sc then 1 else 0) + (k + 1) * 4 + 32))
              (fun l => match bad.find? fun x => x.lane = l with | some x => BitVec.ofNat 64 x.va | none => 0) s
      else s
    | _ => s

/-- The value that an atomic reads at its home; none while the home is down. -/
def State.oldValue (s : State) (p : Pend) : Option DWord :=
  match homeBulk p.pa with
  | none => none
  | some b => if s.isDown b then none else some (BitVec.ofNat 64 (ofBytes (Memory.read s.mem p.pa p.size)))

/-- WRITE_COMPLETION: the write performs and is in flight no longer; an atomic delivers its result. -/
def State.completeWrite (s : State) (p : Pend) : State :=
  let s1 := { s with pend := s.pend.filter fun q => q.id ≠ p.id }
  match s.waiter p.id with
  | none => s1.perform p
  | some g =>
    let old := s.oldValue p
    let s2 := if old.isNone then s1 else s1.perform p
    (s2.modGroup g fun x => x.receiveOld p.id old).land g

/-- The partition for which a write is in flight. -/
def State.pendPart (s : State) (p : Pend) : Option Nat :=
  match p.src with
  | .dispatcher q => some q
  | .fabric _ => none
  | .host w => (s.world? w).map fun x => x.part
  | _ => (s.launch? p.lid).map fun l => l.part

/-- Does a write meet a suspended window: it reaches, through a window, a bulkhead that is not RUNNING, and no part of its transaction has passed the
gates before (R75)? -/
def State.turnedAway (s : State) (p : Pend) : Bool :=
  !p.begun && (match s.pendPart p with | some q => s.suspended q p.pa | none => false)

/-- A write fails with BULKHEAD-DOWN on its way (R73, R75). -/
def State.failPend (s : State) (p : Pend) : State :=
  let s1 := { s with pend := s.pend.filter fun q => q.id ≠ p.id }
  match s.waiter p.id with
  | none => s1.failWrite p
  | some g => (s1.modGroup g fun x => x.receiveOld p.id none).land g

/-- A write reaches its home, or the window that turns it away. -/
def State.reach (s : State) (p : Pend) (delay : Nat) : State := if s.turnedAway p then s.failPend p else s.arrive p delay

def State.pend? (s : State) (id : Nat) : Option Pend := s.pend.find? fun p => p.id = id

/-- The write that performs first among those whose T_c has come by `t`: the smallest T_c, then the order of arrival. -/
def firstDue (t : Nat) : List Pend → Option Pend
  | [] => none
  | p :: ps =>
    match p.tc, firstDue t ps with
    | some x, none => if p.ext.isNone && decide (x ≤ t) then some p else none
    | some x, some q => if p.ext.isNone && decide (x ≤ t) && decide (x ≤ q.tc.getD 0) then some p else some q
    | none, r => r

/-- Every write whose T_c has come by `t` performs, each at its T_c (R36, R83). `n` bounds their number. -/
def State.performDue (t : Nat) : Nat → State → State
  | 0, s => s
  | n + 1, s =>
    match firstDue t s.pend with
    | none => s
    | some p => State.performDue t n (({ s with now := max s.now (p.tc.getD 0) } : State).completeWrite p)

/-- Every write that `f` selects arrives, as soon as it may. `n` bounds their number. -/
def State.arriveAll (f : Pend → Bool) : Nat → State → State
  | 0, s => s
  | n + 1, s =>
    match s.pend.find? fun p => f p && s.mayArrive p with
    | none => s
    | some p => State.arriveAll f n (s.reach p 0)

/-- The writes that `f` selects wait no longer for writes to the host or a peer that are not answered, nor for leases on their lines (DESIGN CHOICE,
LOG 132). -/
def State.cutLoose (s : State) (f : Pend → Bool) : State :=
  let outside (i : Nat) : Bool := s.pend.any fun q => q.id = i && q.ext.isSome
  let lines := (s.pend.filter f).map fun p => lineOf p.pa
  { s with
    pend := s.pend.map fun (p : Pend) => if f p then { p with after := p.after.filter fun i => !outside i } else p
    leases := s.leases.filter fun l => l.par.isNone || !lines.contains l.line }

/-- Time passes until every write that `f` selects has performed, with all that are due by then: what a halt waits for (R323, R346). -/
def State.drain (s : State) (f : Pend → Bool) : State :=
  let s1 := State.arriveAll f s.pend.length (s.cutLoose f)
  let t := s1.pend.foldl (fun t p => if f p && p.ext.isNone then max t (p.tc.getD 0) else t) s1.now
  { (State.performDue t s1.pend.length s1) with now := t }

end Sys2Proof.Machine
end

