-- ==== Sys2Proof/Machine/Settle.lean ====
section
/-! DEFINITION. What completes when lanes have arrived or exited: collective operations (R170, R255, R152), WAITR and SYNC (R167, R168), TRET (R220),
barriers (R248), REGROUP (R171 to R173), beacon steps (R124, R125); and the end of groups and blocks (R156). -/

namespace Sys2Proof.Machine

/-! ### Collective operations -/

/-- Integer reduction of Table 09-8 with its identity. -/
def redIdentity (op : RedOp) (t : IT) : Int :=
  match op with
  | .add | .or | .xor => 0
  | .and => if t.signed then -1 else t.hi
  | .min => t.hi
  | .max => t.lo

def redStep (op : RedOp) (t : IT) (a b : Int) : Int :=
  let w : DWord → DWord → DWord := match op with
    | .and => fun x y => x &&& y
    | .or => fun x y => x ||| y
    | _ => fun x y => x ^^^ y
  match op with
  | .add => t.val (wrapTo t.bits (a + b))
  | .min => if b < a then b else a
  | .max => if a < b then b else a
  | _ => t.val (w (wrapTo t.bits a) (wrapTo t.bits b))

/-- One node of the float tree: the rounded combination and its flags (R152). -/
def fNode (op : FRedOp) (t : FT) (fpm : Word) (rm : RM) (a b : Nat) : Nat × Word :=
  let x := inF fpm t .v (BitVec.ofNat 64 a)
  let y := inF fpm t .v (BitVec.ofNat 64 b)
  let r := match op with
    | .add => fAdd rm x y
    | .min => fMinMax fpm true false x y
    | .max => fMinMax fpm true true x y
  let o := outF t fpm rm false r.1
  (o.1, r.2 ||| o.2)

/-- Pairs of neighbours combined. -/
def fLevel (f : Nat → Nat → Nat × Word) : List Nat → List Nat × Word
  | a :: b :: r => let x := f a b; let y := fLevel f r; (x.1 :: y.1, x.2 ||| y.2)
  | l => (l, 0)

/-- The levels of the tree from the leaves up, with the flags of every node. -/
def fTree (f : Nat → Nat → Nat × Word) : Nat → List Nat → List (List Nat) × Word
  | 0, l => ([l], 0)
  | n + 1, l => let u := fLevel f l; let r := fTree f n u.1; (l :: r.1, u.2 ||| r.2)

/-- Bits of the identity of a float reduction: −0, +Inf, −Inf. -/
def fIdentity (op : FRedOp) (t : FT) : Nat :=
  match op with
  | .add => 2 ^ (t.fm.e + t.fm.f)
  | .min => t.fm.infBits false
  | .max => t.fm.infBits true

/-- The combination of the blocks that cover `n` leaves, largest first (R152). -/
def fPrefix (f : Nat → Nat → Nat × Word) (tree : List (List Nat)) (n : Nat) : Nat → Nat → Option Nat → Word → Option Nat × Word
  | 0, _, p, fl => (p, fl)
  | m + 1, a, p, fl =>
    if bit n m then
      let x := (tree.getD m []).getD (a / 2 ^ m) 0
      match p with
      | none => fPrefix f tree n m (a + 2 ^ m) (some x) fl
      | some q => let r := f q x; fPrefix f tree n m (a + 2 ^ m) (some r.1) (fl ||| r.2)
    else fPrefix f tree n m a p fl

/-- What each arrived lane of a completed instance receives (R255). -/
def collOut (width : Nat) (c : Coll) (lane : Nat) : LaneOut :=
  let here := c.arrived.filter fun a => a.lane < width
  let mine := match here.find? fun a => a.lane = lane with | some a => a.a | none => 0
  let leaves (op : FRedOp) (t : FT) : List Nat := (List.range width).map fun l =>
    match here.find? fun a => a.lane = l with
    | some a => a.a.toNat % 2 ^ t.fm.bits
    | none => fIdentity op t
  let lg := if width = 64 then 6 else 5
  match c.ins with
  | .vote _ mode d _ _ =>
    match mode, d with
    | .any, .pred p => { p := some (p, here.any fun a => a.pred) }
    | .all, .pred p => { p := some (p, here.all fun a => a.pred) }
    | _, _ => { d := maskOf ((here.filter fun a => a.pred).map fun a => a.lane) }
  | .matchl _ _ _ d _ _ =>
    match d with
    | .pred p => { p := some (p, here.all fun a => here.all fun b => a.a = b.a) }
    | .reg _ => { d := maskOf ((here.filter fun a => a.a = mine).map fun a => a.lane) }
  | .redux _ op t _ _ _ =>
    { d := t.store (here.foldl (fun x a => redStep op t x (t.val a.a)) (redIdentity op t)) }
  | .scan _ op t excl _ _ _ =>
    let l := here.filter fun a => if excl then a.lane < lane else a.lane ≤ lane
    { d := t.store (l.foldl (fun x a => redStep op t x (t.val a.a)) (redIdentity op t)) }
  | .fredux _ op t rm _ _ _ =>
    let f := fNode op t c.fpm (rm.resolve c.fpm)
    let r := fTree f lg (leaves op t)
    { d := BitVec.ofNat 64 ((r.1.getLastD []).headD 0), fl := r.2 }
  | .fscan _ op t rm excl _ _ _ =>
    let f := fNode op t c.fpm (rm.resolve c.fpm)
    let r := fTree f lg (leaves op t)
    let n := if excl then lane else lane + 1
    let x := fPrefix f r.1 n (lg + 1) 0 none 0
    { d := BitVec.ofNat 64 (x.1.getD (fIdentity op t)), fl := r.2 ||| x.2 }
  | .elect _ _ pd _ =>
    let e := (here.map fun a => a.lane).foldl min 64
    { d := BitVec.ofNat 64 e, p := some (pd, lane = e) }
  | _ => {}

/-- The register destination of a collective and its width. -/
def collDst (w64 : Bool) (i : Instr) : Option (Opnd × Nat) :=
  let m := if w64 then 2 else 1
  match i with
  | .vote _ .ballot (.reg o) _ _ => some (o, m)
  | .matchl _ _ _ (.reg o) _ _ => some (o, m)
  | .redux _ _ t d _ _ => some (d, if t.wide then 2 else 1)
  | .scan _ _ t _ d _ _ => some (d, if t.wide then 2 else 1)
  | .fredux _ _ ft _ d _ _ => some (d, if ft = .f64 then 2 else 1)
  | .fscan _ _ ft _ _ d _ _ => some (d, if ft = .f64 then 2 else 1)
  | .elect _ d _ _ => some (d, 1)
  | _ => none

/-- Has every member of an open instance arrived, passed or exited (R170)? -/
def Coll.ready (c : Coll) (live : Mask) : Bool :=
  match c.mask with
  | none => false
  | some m => m &&& live &&& ~~~ (maskOf (c.arrived.map fun a => a.lane)) &&& ~~~ c.passed = 0

/-- Complete an instance: the arrived lanes receive the result and go on. -/
def Group.finishColl (g : Group) (w64 : Bool) (fresh : Nat) (c : Coll) : Group :=
  let i := c.arrived.map fun a => a.lane
  let g1 := g.writeOuts w64 fresh (collDst w64 c.ins) (collOut (if w64 then 64 else 32) c)
    ((List.range 64).filter fun l => i.contains l)
  { g1.release c.pc (maskOf i) c.len with colls := g.colls.filter fun x => x.pc ≠ c.pc }

/-! ### WAITR, SYNC -/

/-- The lanes that are parked at a PC, on either side of a running handler: those that have arrived there (R166). -/
def Group.parkedAt (g : Group) (pc : Word) : Mask :=
  g.frags.foldl (fun m f => if f.pc = pc && f.park.isSome then m ||| f.mask else m) 0

/-- Lanes of a parked fragment whose members have all arrived, which `here` have, or exited (R167, R168). -/
def metLanes (live here : Mask) (f : Frag) : Mask :=
  match f.park with
  | some (_, .waitr _ ws) => maskOf ((ws.filter fun x => x.2.1 &&& live &&& ~~~ here = 0).map fun x => x.1)
  | some (_, .sync ws) => maskOf ((ws.filter fun x => x.2 &&& live &&& ~~~ here = 0).map fun x => x.1)
  | _ => 0

/-- Release the lanes of one parked fragment that have converged, but for those that a handler or a debugger stop keeps parked (R312, R362). -/
def Group.meet (g : Group) (f : Frag) : Group :=
  let m := g.loose (metLanes g.live (g.parkedAt f.pc) f)
  if m = 0 then g
  else
    match f.park with
    | some (n, .waitr pd _) => (((lanes m).foldl (fun g l => g.setPred l pd true) g).release f.pc m n)
    | some (n, _) => g.release f.pc m n
    | none => g

/-- Release lanes whose time has run out (R167); `late` selects the deadlines that count. Lanes that a handler or a debugger stop keeps parked wait for its
end (R312, R362). -/
def Group.timeOut (g : Group) (late : Nat → Bool) (f : Frag) : Group :=
  match f.park with
  | some (n, .waitr pd ws) =>
    let m := g.loose (maskOf ((ws.filter fun x => late x.2.2).map fun x => x.1))
    if m = 0 then g else (((lanes m).foldl (fun g l => g.setPred l pd false) g).release f.pc m n)
  | _ => g

/-- Everything inside a group that arrivals and exits complete. While a handler runs, an instance with arrived lanes outside it waits (R312). -/
def Group.settle (g : Group) (w64 : Bool) (fresh : Nat) : Group :=
  let g := g.tretDone
  let free (c : Coll) : Bool := let m := maskOf (c.arrived.map fun a => a.lane); g.loose m = m
  let g := (g.colls.filter fun c => c.ready g.live && free c).foldl (fun g c => g.finishColl w64 fresh c) g
  g.frags.foldl (fun g f => g.meet f) g

/-! ### Barriers -/

/-- Release every lane parked at a barrier of the block, but for the lanes `but` of one group. -/
def State.releaseBar (s : State) (lid blk id : Nat) (who : Gid) (but : Mask) : State :=
  { s with groups := s.groups.map fun g =>
      if g.gid.lid = lid && g.gid.blk = blk then
        g.frags.foldl (fun g f => match f.park with
          | some (n, .bar i) => if i = id then g.release f.pc (if g.gid = who then f.mask &&& ~~~ but else f.mask) n else g
          | _ => g) g
      else g }

/-- The groups of a block. -/
def State.groupsOf (s : State) (lid blk : Nat) : List Group := s.groups.filter fun g => g.gid.lid = lid && g.gid.blk = blk

/-- Complete every open phase of count 0 that all live lanes of the block have reached (R248). -/
def State.settleBars (s : State) (lid blk : Nat) : State :=
  match s.block? lid blk with
  | none => s
  | some b =>
    (b.phases.filter fun p => p.count = 0 &&
        (s.groupsOf lid blk).all fun g => (lanes g.live).all fun l => p.who.contains (g.gid.gi, l)).foldl
      (fun s p => (s.releaseBar lid blk p.id ⟨lid, blk, 0⟩ 0).modBlock lid blk fun b => { b with phases := b.phases.filter fun x => x.id ≠ p.id }) s

/-! ### REGROUP -/

/-- The lanes of a group that have arrived at a REGROUP at this PC and of this form. -/
def Group.regroupAt (g : Group) (pc : Word) (blk : Bool) : Mask :=
  g.frags.foldl (fun m f => match f.park with
    | some (_, .regroup b _) => if f.pc = pc && b == blk then m ||| f.mask else m
    | _ => m) 0

/-- Copy a thread's registers, predicates, flags, return addresses, arrival flag and identity into lane `l` of `g` (R172). -/
def Group.receive (g : Group) (l : Nat) (src : Group) (k : Nat) : Group :=
  let mv {w : Nat} (m n : SMap w) : SMap w :=
    let m := m.filter fun e => e.1 % 64 ≠ l
    (n.filter fun e => e.1 % 64 = k).foldl (fun m e => SMap.set m (e.1 / 64 * 64 + l) e.2) m
  { g with
    v := mv g.v src.v
    h := mv g.h src.h
    p := SMap.set g.p l (SMap.get src.p k)
    fpst := SMap.set g.fpst l (SMap.get src.fpst k)
    rets := put g.rets l (look [] src.rets k)
    tids := put g.tids l (look 0 src.tids k)
    covers := put g.covers l (look [] src.covers k)
    strongT := put g.strongT l (look 0 src.strongT k)
    arrived := if inMask src.arrived k then g.arrived ||| maskOf [l] else g.arrived &&& ~~~ maskOf [l]
    live := g.live ||| maskOf [l] }

/-- A position that its thread has left: its registers read as zero (R169). -/
def Group.vacate (g : Group) (l : Nat) : Group :=
  { g with
    v := g.v.filter fun e => e.1 % 64 ≠ l
    h := g.h.filter fun e => e.1 % 64 ≠ l
    p := SMap.set g.p l 0
    fpst := SMap.set g.fpst l 0
    rets := put g.rets l []
    covers := put g.covers l []
    strongT := put g.strongT l 0
    arrived := g.arrived &&& ~~~ maskOf [l]
    live := g.live &&& ~~~ maskOf [l] }

/-- Every live lane goes on after a REGROUP as one fragment, with pd. -/
def Group.regrouped (g : Group) (pc : Word) (len pd : Nat) (v : Bool) : Group :=
  let g := (lanes g.live).foldl (fun g l => g.setPred l pd v) g
  { g with frags := addFrag 0 [] (mkFrag (pc + BitVec.ofNat 32 len) g.live) }

/-- Writes in flight and barrier arrivals move with their threads (R172, R38, R248): `f` gives the new place of a thread of the block. -/
def State.retag (s : State) (lid blk : Nat) (f : Nat → Nat → Nat × Nat) : State :=
  let s := { s with pend := s.pend.map fun (p : Pend) => match p.src with
    | .thread g l => if g.lid = lid && g.blk = blk then { p with src := .thread ⟨lid, blk, (f g.gi l).1⟩ (f g.gi l).2 } else p
    | _ => p }
  s.modBlock lid blk fun b => { b with phases := b.phases.map fun (p : Phase) => { p with who := p.who.map fun x => f x.1 x.2 } }

/-- Replace a group. -/
def State.setGroup (s : State) (g : Group) : State := s.modGroup g.gid fun _ => g

/-- Take a retired group out of the machine. A failed write that it has not reported will be reported no more: its launch fails (R314). -/
def State.removeGroup (s : State) (g : Gid) : State :=
  let owes := s.groups.any fun x => x.gid = g && x.err.isSome
  { s with
    groups := s.groups.filter fun x => x.gid ≠ g
    rr := s.rr.filter fun x => x ≠ g
    launches := s.launches.map fun l => if owes && l.lid = g.lid then { l with failed := true } else l }

/-! ### Beacon -/

/-- Has a group arrived: every live lane has its flag set (R124)? -/
def Group.hasArrived (g : Group) : Bool := g.live &&& ~~~ g.arrived = 0

/-- The writes and chains of a group that a step it has just arrived at must wait for (R100). -/
def State.oweDomain (s : State) (g : Gid) : State :=
  match s.launch? g.lid with
  | none => s
  | some l =>
    match l.dom with
    | none => s
    | some d =>
      let ks := (s.chains.filter fun k => k.gid = g).map fun k => k.id
      let ps := (s.pend.filter fun p => match p.src with
        | .thread x _ => x = g && p.cls = .put
        | .chain id => ks.contains id
        | _ => false).map fun p => p.id
      s.modPart l.part fun p =>
        { p with doms := p.doms.map fun x => if x.idx = d then { x with owed := x.owed ++ ps, chains := x.chains ++ ks } else x }

/-- The writes and chains in flight of a group that has arrived at a step and then ends, but for those that the step owes: the next step must wait for them
(R100, R125). -/
def State.oweNext (s : State) (g : Gid) : State :=
  match s.launch? g.lid with
  | none => s
  | some l =>
    match l.dom with
    | none => s
    | some d =>
      let ks := (s.chains.filter fun k => k.gid = g).map fun k => k.id
      let ps := (s.pend.filter fun p => match p.src with
        | .thread x _ => x = g && p.cls = .put
        | .chain id => ks.contains id
        | _ => false).map fun p => p.id
      s.modPart l.part fun p =>
        { p with doms := p.doms.map fun x => if x.idx = d then
            { x with nextOwed := x.nextOwed ++ ps.filter fun i => !x.owed.contains i
                     nextChains := x.nextChains ++ ks.filter fun i => !x.chains.contains i }
          else x }

/-- Last arrival: OPEN becomes DRAINING (Table 04-5). -/
def State.settleDomain (s : State) (lid : Nat) : State :=
  match s.launch? lid with
  | none => s
  | some l =>
    match l.dom with
    | none => s
    | some d =>
      if (s.groups.filter fun g => g.gid.lid = lid).all Group.hasArrived then
        s.modPart l.part fun p =>
          { p with doms := p.doms.map fun x => if x.idx = d && x.st = .opened then { x with st := .draining } else x }
      else s

/-- A group whose lanes without a flag a REGROUP has moved away has thereby arrived, and its domain waits for its writes (R100, R126). -/
def State.oweMoved (s : State) (was : List Group) : State :=
  was.foldl (fun s g => match s.group? g.gid with
    | some x => if !g.hasArrived && x.hasArrived then s.oweDomain g.gid else s
    | none => s) s

/-! ### The moves of a REGROUP -/

/-- The moves of a REGROUP.PAIR merge: the i-th live lane of the odd group goes to the i-th free lane of the even one. -/
def pairMoves (width : Nat) (a b : Group) : List (Nat × Nat) :=
  (lanes b.live).zip ((List.range width).filter fun l => !inMask a.live l)

/-- REGROUP.PAIR (R171, R172) for groups 2k and 2k + 1 of a block. -/
def State.regroupPair (s : State) (width : Nat) (lid blk k : Nat) (pc : Word) (len pd : Nat) : State :=
  let ga := s.group? ⟨lid, blk, 2 * k⟩
  let gb := s.group? ⟨lid, blk, 2 * k + 1⟩
  match ga, gb with
  | some a, some b =>
    if a.live ≠ 0 && b.live ≠ 0 && popcount a.live + popcount b.live ≤ width && a.fpm = b.fpm then
      let ms := pairMoves width a b
      let a' := ms.foldl (fun g m => g.receive m.2 b m.1) a
      let s := s.retag lid blk fun gi l =>
        match ms.find? fun m => gi = 2 * k + 1 && m.1 = l with
        | some m => (2 * k, m.2)
        | none => (gi, l)
      ((s.setGroup (a'.regrouped pc len pd true)).removeGroup b.gid).oweMoved [a]
    else (s.setGroup (a.regrouped pc len pd false)).setGroup (b.regrouped pc len pd false)
  | some a, none => s.setGroup (a.regrouped pc len pd false)
  | none, some b => s.setGroup (b.regrouped pc len pd false)
  | none, none => s

/-- REGROUP.BLOCK (R173): the n-th live thread in order of (group, lane) goes to lane n mod W of the (n div W)-th live group. -/
def State.regroupBlock (s : State) (width : Nat) (lid blk : Nat) (pc : Word) (len pd : Nat) : State :=
  let gs := (List.range 32).filterMap fun i => match s.group? ⟨lid, blk, i⟩ with
    | some g => if g.live = 0 then none else some g
    | none => none
  match gs with
  | [] => s
  | g0 :: _ =>
    if gs.all fun g => g.fpm = g0.fpm then
      let th : List (Group × Nat) := gs.flatMap fun g => (lanes g.live).map fun l => (g, l)
      let mine (i : Nat) : List (Nat × (Group × Nat)) :=
        ((List.range th.length).zip th).filterMap fun e => if e.1 / width = i then some (e.1 % width, e.2) else none
      let build (i : Nat) (g : Group) : Group :=
        let cleared := (lanes g.live).foldl (fun x l =>
          if (mine i).any fun e => e.1 = l && e.2.1.gid = g.gid && e.2.2 = l then x else x.vacate l) g
        (mine i).foldl (fun x e => if e.2.1.gid = g.gid && e.2.2 = e.1 then x else x.receive e.1 e.2.1 e.2.2) cleared
      let news := ((List.range gs.length).zip gs).map fun e => build e.1 e.2
      let s := s.retag lid blk fun gi l =>
        match ((List.range th.length).zip th).find? fun e => e.2.1.gid.gi = gi && e.2.2 = l with
        | none => (gi, l)
        | some e => (((gs.getD (e.1 / width) g0).gid).gi, e.1 % width)
      (news.foldl (fun s g => if g.live = 0 then s.removeGroup g.gid else s.setGroup (g.regrouped pc len pd true)) s).oweMoved gs
    else gs.foldl (fun s g => s.setGroup (g.regrouped pc len pd false)) s

/-- The first REGROUP of a group that is parked there: PC, form, length and pd. -/
def Group.regroupPark (g : Group) : Option (Word × Bool × Nat × Nat) :=
  g.frags.findSome? fun f => match f.park with | some (n, .regroup b pd) => some (f.pc, b, n, pd) | _ => none

/-- Complete a REGROUP that every live lane concerned has reached (R171, R173); a group that the debugger has halted keeps its lanes parked (R362). -/
def State.settleRegroup (s : State) (width : Nat) (g : Gid) : State :=
  match s.group? g with
  | none => s
  | some x =>
    match x.regroupPark with
    | none => s
    | some (pc, blk, len, pd) =>
      let all := if blk then s.groupsOf g.lid g.blk
        else (s.groupsOf g.lid g.blk).filter fun y => y.gid.gi / 2 = g.gi / 2
      if all.all fun y => y.stop.isNone && y.live &&& ~~~ (y.regroupAt pc blk) = 0 then
        if blk then s.regroupBlock width g.lid g.blk pc len pd else s.regroupPair width g.lid g.blk (g.gi / 2) pc len pd
      else s

/-! ### Ends -/

/-- Everything that the arrival or exit of lanes of a group can complete. -/
def settle (g : Gid) (s : State) : State :=
  match s.launch? g.lid with
  | none => s
  | some l =>
    let s := s.modGroup g fun x => x.settle l.w64 s.fresh
    let s := s.settleBars g.lid g.blk
    let s := (s.groupsOf g.lid g.blk).foldl (fun s x => s.settleRegroup (if l.w64 then 64 else 32) x.gid) s
    s.settleDomain g.lid

/-- A group with no live lane retires; a block whose groups have all retired ends: its squares, queues and local slots are free again (R156). -/
def endGroups (lid blk : Nat) (s : State) : State :=
  let gone := (s.groupsOf lid blk).filter fun g => g.live = 0
  let s := gone.foldl (fun s g => s.removeGroup g.gid) s
  if (s.groupsOf lid blk).isEmpty then { s with blocks := s.blocks.filter fun b => !(b.lid = lid && b.idx = blk) } else s

end Sys2Proof.Machine
end

