-- ==== Sys2Proof/Machine/MatEngine.lean ====
section
/-! DEFINITION. The matrix engine: operand images, the scratch operand fetch, runs and sums, completion (R98, R99, R151, R279 to R288), and what an
MWAIT counts (R287, R289). -/

namespace Sys2Proof.Machine

/-! ### Operands -/

/-- Shape of a matrix operation: type, N, ACC, MX, sparse with its Z choice, D, and the operands with whether each is a register fragment. -/
structure MatOp where
  ty : MT
  n : Nat
  acc : Bool
  mx : Bool
  ts : Bool
  sparse : Bool
  k4 : Bool
  areg : Bool
  breg : Bool
  acol : Bool
  bcol : Bool
  d : Nat
  a : Nat
  b : Nat

/-- The shape that an instruction names; MZERO has none. -/
def matOp : Instr → Option MatOp
  | .mma _ ty n64 acc mx ts d a b => some ⟨ty, if n64 then 64 else 32, acc, mx, ts.isSome, false, false, true, true, false, false, d, a, b⟩
  | .mmas _ ty n64 acc mx ts acol bcol areg breg d a b => some ⟨ty, if n64 then 64 else 32, acc, mx, ts.isSome, false, false, areg, breg, acol, bcol, d, a, b⟩
  | .mmasp _ ty n64 acc mx ts acol bcol areg breg k4 d a b => some ⟨ty, if n64 then 64 else 32, acc, mx, ts.isSome, true, k4, areg, breg, acol, bcol, d, a, b⟩
  | _ => none

/-- First accumulator register and their number. -/
def matDst : Instr → Nat × Nat
  | .mzero _ n64 d => (d, if n64 then 64 else 32)
  | i => match matOp i with | some o => (o.d, o.n) | none => (0, 0)

end Sys2Proof.Machine
namespace Sys2Proof

/-- Bits of one matrix element. -/
def MT.bits : MT → Nat
  | .f16 | .bf16 => 16
  | .e4m3 | .e5m2 | .s8 => 8
  | .e3m2 | .e2m3 => 6
  | .e2m1 | .s4 => 4

/-- The float format of a matrix type. -/
def MT.ft : MT → FT
  | .f16 => .f16 | .bf16 => .bf16 | .e4m3 => .e4m3 | .e5m2 => .e5m2 | .e3m2 => .e3m2 | .e2m3 => .e2m3 | _ => .e2m1

end Sys2Proof
namespace Sys2Proof.Machine

/-- Logical depth. -/
def MatOp.depth (o : MatOp) : Nat := o.ty.depth o.sparse o.k4
/-- Runs of 32 along the depth (R151, R286). -/
def MatOp.runs (o : MatOp) : Nat := o.depth / 32
/-- Bytes of the row data of A. -/
def MatOp.aData (o : MatOp) : Nat := o.ty.k * o.ty.bits / 8
/-- Bytes of A's masks in a row. -/
def MatOp.aMasks (o : MatOp) : Nat := if o.sparse then o.depth / 8 else 0
/-- Bytes of a row image of A in scratch (R283). -/
def MatOp.aImage (o : MatOp) : Nat := o.aData + o.aMasks + (if o.mx then o.runs else 0)
/-- Rows of B in scratch: the depth, and one row of scales for each run. -/
def MatOp.bRows (o : MatOp) : Nat := o.depth + (if o.mx then o.runs else 0)
/-- Bytes of row `k` of B in scratch. -/
def MatOp.bRow (o : MatOp) (k : Nat) : Nat := if k < o.depth then o.n * o.ty.bits / 8 else o.n

/-- One byte as the operand fetch of a matrix instruction sees it (R99): the group's own earlier writes in flight are seen, its later ones and
values overwritten without an MFENCE may be (LOG 3). -/
def State.fetchByte (s : State) (g : Group) (m : Mat) (pa : Nat) : Byte :=
  let mine (w : Writer) : Bool := match w with | .thread x _ => x = g.gid | _ => false
  let byteOf (p : Pend) : Byte := match p.op with | .bytes bs => bs.getD (pa - p.pa) 0 | _ => Memory.get s.mem pa
  let pick (k : Nat) (a b : Byte) : Byte := if Config.freeBool s.fresh (pa * 1024 + k) then a else b
  let olds := ((m.olds ++ g.olds).filter fun o => o.pa = pa).map fun o => o.old
  let now0 := match s.chainByte pa with | some b => pick 1023 b (Memory.get s.mem pa) | none => Memory.get s.mem pa
  let v0 := ((List.range olds.length).zip olds).foldl (fun v e => pick e.1 e.2 v) now0
  let v1 := match ownWrite mine pa (s.pend.filter fun p => decide (p.id < m.at_)) with | some p => byteOf p | none => v0
  match ownWrite mine pa (s.pend.filter fun p => decide (m.at_ ≤ p.id)) with | some p => pick 1022 (byteOf p) v1 | none => v1

/-- `n` fetched bytes at a scratch offset. -/
def State.fetchBytes (s : State) (g : Group) (b : Block) (m : Mat) (off n : Nat) : List Byte :=
  (List.range n).map fun i => s.fetchByte g m (b.scratchPa (off + i))

/-- Bytes of consecutive v registers of a lane position (R169). -/
def Group.regBytes (g : Group) (lane r n : Nat) : List Byte :=
  (List.range n).flatMap fun i => toBytes 4 (SMap.get g.v ((r + i) * 64 + lane)).toNat

/-- Row `i` of A: row data, masks, and a scale byte for each run. -/
def State.aRow (s : State) (g : Group) (b : Block) (m : Mat) (o : MatOp) (i : Nat) : Nat × List Nat × List Nat :=
  let masksOf (bs : List Byte) : List Nat := (List.range (o.aMasks / 16)).map fun k => ofBytes ((bs.drop (16 * k)).take 16)
  let scalesOf (bs : List Byte) : List Nat := (List.range o.runs).map fun r => (bs.getD r 0).toNat
  if o.areg then
    let bs := g.regBytes i o.a (aRegs o.ty o.sparse o.k4 o.mx)
    (ofBytes (bs.take o.aData), masksOf (bs.drop o.aData), scalesOf (bs.drop (o.aData + o.aMasks)))
  else
    let bs := s.fetchBytes g b m (m.offA + i * m.pA) o.aImage
    (ofBytes (bs.take o.aData), masksOf (bs.drop o.aData), scalesOf (bs.drop (o.aData + o.aMasks)))

/-- A column of B held in registers: its elements as one string of bits, and its scales (R282). -/
def Group.bColReg (g : Group) (w64 : Bool) (o : MatOp) (j : Nat) : Nat × List Nat :=
  let nd := o.ty.regsOf o.depth
  let ns := bScaleRegs o.ty o.sparse o.k4 o.mx
  let cols := bCols w64 (o.n = 64)
  let lane := if cols = 2 then j % 32 else j
  let q := if cols = 2 then j / 32 else 0
  (ofBytes (g.regBytes lane (o.b + q * nd) nd),
   (g.regBytes lane (o.b + cols * nd + q * ns) ns).map fun x => x.toNat)

/-- Elements of B: for each row k the value bits of each column, and for each run the scales, read from scratch row by row. -/
def State.bRowsScratch (s : State) (g : Group) (b : Block) (m : Mat) (o : MatOp) : List Nat :=
  (List.range o.bRows).map fun k => ofBytes (s.fetchBytes g b m (m.offB + k * m.pB) (o.bRow k))

/-- The bits of the logical elements of a row of A: sparse rows spread the kept elements, the others are zero (R286). -/
def spreadRow (o : MatOp) (row : Nat) (masks : List Nat) : List Nat :=
  let e := o.ty.bits
  if o.sparse then
    let z := if o.k4 then 32 else 64
    (List.range masks.length).flatMap fun gi =>
      let mk := masks.getD gi 0
      (List.range 128).map fun t =>
        if bit mk t then field row (e * (gi * z + (((List.range t).filter fun u => bit mk u).length))) e else 0
  else (List.range o.depth).map fun k => field row (e * k) e

/-! ### One element (R151) -/

/-- Exact sum of products of one run; none is NaN. -/
def runSum (ty : MT) (as bs : List Nat) : Option FV :=
  let ps := (as.zip bs).map fun x =>
    let a := decodeF ty.ft x.1
    let b := decodeF ty.ft x.2
    if a.isNan || b.isNan then none else mulF a b
  if ps.any Option.isNone then none
  else
    let vs := ps.filterMap id
    let pos := vs.any fun v => match v with | .inf n => !n | _ => false
    let ngs := vs.any fun v => match v with | .inf n => n | _ => false
    if pos && ngs then none
    else if pos then some (.inf false)
    else if ngs then some (.inf true)
    else
      let e0 := (vs.filterMap FV.exp?).foldl min 0
      let x : Int := (vs.map fun v => v.scaled e0).foldl (· + ·) 0
      some (if x = 0 then .zero false else .fin (decide (x < 0)) x.natAbs e0)

/-- A scaling step; none is NaN. -/
def scaleStep (t : Option FV) (v : FV) : Option FV :=
  match t with
  | none => none
  | some x => if v.isNan then none else mulF x v

/-- c + T rounded to F32 RNE. -/
def addRun (c : Word) (t : Option FV) : Word :=
  let cv := decodeF .f32 c.toNat
  match t with
  | none => 0x7FC00000
  | some x =>
    if cv.isNan then 0x7FC00000
    else
      let r := match (sumF .rne [cv, x]).1 with | .zero _ => EX.zero false | e => e
      BitVec.ofNat 32 (outF .f32 1 .rne false r).1

/-- Element c(i, j). -/
def matElem (o : MatOp) (sa sb : Word) (a : List Nat) (ascale : List Nat) (b : List Nat) (bscale : List Nat) (c : Word) : Word :=
  if o.ty.isInt then
    let e := o.ty.bits
    let x := ((a.zip b).map fun p => signed e p.1 * signed e p.2).foldl (· + ·) (0 : Int)
    (wrapTo 32 (signed 32 c.toNat + x)).setWidth 32
  else
    (List.range o.runs).foldl (fun c r =>
      let t := runSum o.ty ((a.drop (32 * r)).take 32) ((b.drop (32 * r)).take 32)
      let t := if o.mx then scaleStep (scaleStep t (decodeE8 (ascale.getD r 0))) (decodeE8 (bscale.getD r 0)) else t
      let t := if o.ts then scaleStep (scaleStep t (decodeF .f32 sa.toNat)) (decodeF .f32 sb.toNat) else t
      addRun c t) c

/-! ### Completion (R284) -/

/-- Write every accumulator register of the live lanes. -/
def Group.writeAcc (g : Group) (d n : Nat) (f : Nat → Nat → Word) : Group :=
  { g with v := (lanes g.live).foldl (fun v i =>
      (List.range n).foldl (fun v j => SMap.set v ((d + j) * 64 + i) (f i j)) v) g.v }

/-- Free bits in an accumulator (R98, LOG 3). -/
def Group.scramble (g : Group) (fresh : Nat) (m : Mat) : Group :=
  g.writeAcc (matDst m.ins).1 (matDst m.ins).2 fun i j => Config.freeReg fresh i ((matDst m.ins).1 + j)

/-- Has an instruction later than `m` completed and written register `r` (R284)? -/
def Group.rewritten (g : Group) (m : Mat) (r : Nat) : Bool :=
  g.mats.any fun x => decide (m.at_ < x.at_) && x.done && x.bad = 0 && decide ((matDst x.ins).1 ≤ r) && decide (r < (matDst x.ins).1 + (matDst x.ins).2)

/-- Free bits in what an accumulator still holds of an instruction's result (R98, R289). -/
def Group.spoil (g : Group) (fresh : Nat) (m : Mat) : Group :=
  g.writeAcc (matDst m.ins).1 (matDst m.ins).2 fun i j =>
    let r := (matDst m.ins).1 + j
    if g.rewritten m r then SMap.get g.v (r * 64 + i) else Config.freeReg fresh i r

/-- The group as an instruction reads it that names registers which hold undefined bits (R98). -/
def Group.blurred (g : Group) (fresh : Nat) (m : Mat) : Group :=
  m.dirty.foldl (fun g e => g.writeAcc e.1 e.2 fun i j => Config.freeReg fresh i (e.1 + j)) g

/-- The scratch bytes of A's image (R283): offset and length of each row. -/
def MatOp.aRuns (o : MatOp) (w : Nat) (m : Mat) : List (Nat × Nat) :=
  if o.areg then [] else (List.range w).map fun i => (m.offA + i * m.pA, o.aImage)

/-- The runs of B's image. -/
def MatOp.bRuns (o : MatOp) (m : Mat) : List (Nat × Nat) :=
  if o.breg then [] else (List.range o.bRows).map fun k => (m.offB + k * m.pB, o.bRow k)

/-- Both images. -/
def MatOp.ranges (o : MatOp) (w : Nat) (m : Mat) : List (Nat × Nat) := o.aRuns w m ++ o.bRuns m

/-- Lanes whose row holds a mask with another popcount than Z (R287). -/
def State.badRows (s : State) (g : Group) (b : Block) (m : Mat) (o : MatOp) : Mask :=
  if o.sparse then
    maskOf ((lanes g.live).filter fun i =>
      (s.aRow g b m o i).2.1.any fun mk => popcount (BitVec.ofNat 64 mk) + popcount (BitVec.ofNat 64 (mk / 2 ^ 64)) ≠ (if o.k4 then 32 else 64))
  else 0

/-- The group after an instruction has completed in it. -/
def State.matResult (s : State) (g : Group) (b : Block) (w64 : Bool) (m : Mat) : Group :=
  if m.corrupt then g.scramble s.fresh m
  else
    match matOp m.ins with
    | none => g.writeAcc (matDst m.ins).1 (matDst m.ins).2 fun _ _ => 0
    | some o =>
      let rows := if o.breg then [] else s.bRowsScratch g b m o
      let cols : List (List Nat × List Nat) := (List.range o.n).map fun j =>
        if o.breg then
          let c := g.bColReg w64 o j
          ((List.range o.depth).map fun k => field c.1 (o.ty.bits * k) o.ty.bits, c.2)
        else
          ((List.range o.depth).map fun k => field (rows.getD k 0) (o.ty.bits * j) o.ty.bits,
           (List.range o.runs).map fun r => field (rows.getD (o.depth + r) 0) (8 * j) 8)
      let as := (List.range 64).map fun i =>
        if inMask g.live i then
          let r := s.aRow g b m o i
          (spreadRow o r.1 r.2.1, r.2.2)
        else ([], [])
      g.writeAcc o.d o.n fun i j =>
        let a := as.getD i ([], [])
        let c := cols.getD j ([], [])
        matElem o m.sa m.sb a.1 a.2 c.1 c.2 (if o.acc then SMap.get g.v ((o.d + j) * 64 + i) else 0)

/-- May a write in flight of the group not be passed by a fetch: an earlier one that is no plain write, or that rewrites an uncorrectable word (R28, R99)? -/
def State.blocksFetch (s : State) (g : Group) (b : Block) (w64 : Bool) (m : Mat) (p : Pend) : Bool :=
  (match p.src with | .thread x _ => x = g.gid | _ => false) && decide (p.id < m.at_) &&
  (match matOp m.ins with
    | none => false
    | some o => (o.ranges (if w64 then 64 else 32) m).any fun r =>
        p.touches (b.scratchPa r.1) r.2 && (!(match p.op with | .bytes _ => true | _ => false) || s.badWord p.pa p.size))

/-- May the fetch of the oldest instruction that has not completed begin (R99)? -/
def State.fetchReady (s : State) (g : Group) (b : Block) (w64 : Bool) : Bool :=
  match g.mats.find? fun m => !m.done with
  | none => true
  | some m => s.pend.all fun p => !s.blocksFetch g b w64 m p

/-- Complete the oldest instruction of a group that has not completed (R284): its accumulator is written, unless a mask is wrong (R287) or the fetch
met an uncorrectable word: the frame names the lanes whose data failed, and containment follows (R32). -/
def State.completeMat (s : State) (g : Group) (b : Block) (w64 : Bool) : State :=
  match g.mats.find? fun m => !m.done with
  | none => s
  | some m =>
    let finish (bad : Mask) (x : Group) : Group :=
      { x with mats := x.mats.map fun y => if y.at_ = m.at_ then { y with done := true, bad := bad } else y }
    match matOp m.ins with
    | none => s.modGroup g.gid fun x => finish 0 (s.matResult x b w64 m)
    | some o =>
      let bad (r : Nat × Nat) : Bool := s.badWord (b.scratchPa r.1) r.2
      match (o.ranges (if w64 then 64 else 32) m).find? bad with
      | some r =>
        let rows := o.aRuns (if w64 then 64 else 32) m
        let failed := if (o.bRuns m).any bad then g.live else g.live &&& maskOf ((List.range rows.length).filter fun i => bad (rows.getD i (0, 0)))
        let inB := !(rows.any bad)
        let frame : TrapFrame :=
          { cause := BitVec.ofNat 32 Cause.uncorrectable, inst := m.inst, mask := failed, pc := m.pc,
            addr := (lanes failed).foldl (fun a l => SMap.set a l (BitVec.ofNat 64 (if inB then m.offB else m.offA))) [],
            info := BitVec.ofNat 64 (b2n inB + 2 * 2 ^ 60) }
        let s1 := (s.modGroup g.gid fun x => { finish 0 x with frame := frame }).abort g.gid.lid Cause.contained Cause.uncorrectable
          g.handler.isSome false
        match (s.eccBad.find? fun x => decide (x + 4 > b.scratchPa r.1) && decide (x < b.scratchPa r.1 + r.2)) with
        | some x => s1.fenceWord x b.core 0xFF
        | none => s1
      | none =>
        let s := (o.ranges (if w64 then 64 else 32) m).foldl (fun s r => s.scrub (b.scratchPa r.1) r.2) s
        let s := (s.useArrays b.core o.acol false (o.aRuns (if w64 then 64 else 32) m)).useArrays b.core o.bcol false (o.bRuns m)
        let bad := s.badRows (g.blurred s.fresh m) b m o
        if bad = 0 then s.modGroup g.gid fun x => finish 0 (s.matResult x b w64 m)
        else s.modGroup g.gid (finish bad)

/-- Time passes until the fetch of a group's next instruction may begin. -/
def State.awaitFetch (s : State) (gid : Gid) : State :=
  match s.group? gid, s.block? gid.lid gid.blk, s.launch? gid.lid with
  | some g, some b, some l =>
    match g.mats.find? fun m => !m.done with
    | none => s
    | some m => if s.fetchReady g b l.w64 then s else s.drain (s.blocksFetch g b l.w64 m)
  | _, _, _ => s

/-- Complete every instruction of a group (R291, R317): at most `fuel` of them. -/
def State.completeMats (s : State) (gid : Gid) : Nat → State
  | 0 => s
  | n + 1 =>
    let s := s.awaitFetch gid
    match s.group? gid, s.block? gid.lid gid.blk, s.launch? gid.lid with
    | some g, some b, some l => if g.mats.all fun m => m.done then s else State.completeMats (s.completeMat g b l.w64) gid n
    | _, _, _ => s

end Sys2Proof.Machine
end

