-- ==== Sys2Proof/Machine/Agent.lean ====
section
/-! DEFINITION. Accesses that the dispatcher, Oneveto and the other agents of the package make on a world's memory, control-page offsets, rings, and
debugger stops (12, 14, 15). -/

namespace Sys2Proof.Machine

/-! ### Offsets of the control page (Tables 02-6, 11-1, 11-7, 12-4, 12-8, 13-1, 14-5, 15-1, 16-2; R302, R303, R366, R368, R371) -/

def rQ (lvl : Nat) : Nat := 0x100 + 0x20 * lvl
def rQCTL (lvl : Nat) : Nat := rQ lvl + 8
def rQTAIL (lvl : Nat) : Nat := rQ lvl + 0x10
def rQHEAD (lvl : Nat) : Nat := rQ lvl + 0x18
def rDQERR : Nat := 0x200
def rDROPPED : Nat := 0x208
def rABORTED : Nat := 0x210
def rSEMFAIL : Nat := 0x218
def rSEMFAILADDR : Nat := 0x220
def rFQBASE : Nat := 0x300
def rFQCTL : Nat := 0x308
def rFQTAIL : Nat := 0x310
def rFQHEAD : Nat := 0x318
def rFQANS : Nat := 0x320
def rPREEMPT : Nat := 0x400
def rTRQ : Nat := 0x500
def rTRINFO : Nat := 0x508
def rTREXP : Nat := 0x510
def rDBGCTL : Nat := 0x600
def rBP (n : Nat) : Nat := 0x610 + 8 * n
def rWPA (n : Nat) : Nat := 0x650 + 16 * n
def rWPC (n : Nat) : Nat := 0x658 + 16 * n
def rDBGHALT : Nat := 0x690
def rDBGBLK : Nat := 0x698
def rDBGRB : Nat := 0x6A0
def rDBGRC : Nat := 0x6A8
def rDBGRT : Nat := 0x6B0
def rDBGRH : Nat := 0x6B8
def rDBGSEL : Nat := 0x6C0
def rDBGADR : Nat := 0x6C8
def rDBGDAT : Nat := 0x6D0
def rTRCCTL : Nat := 0x700
def rTRCB : Nat := 0x708
def rTRCN : Nat := 0x710
def rTRCT : Nat := 0x718
def rTRCH : Nat := 0x720
def rPROFB : Nat := 0x900
def rPROFC : Nat := 0x908
def rAPBASE : Nat := 0xA00
def rFNSTAT : Nat := 0xA08

/-! ### Accesses of agents -/

/-- Sources of R68 by which an agent's accesses are checked: a host function; a copy engine or a translation core of partition `p`. -/
def agentSource (m : Master) (p w : Nat) : Nat :=
  match m with
  | .host => 40 + w
  | .trans => 24
  | _ => p

/-- Is the line free of leases and of writes that have arrived and not performed, so that a write can perform now (R36)? -/
def State.lineFree (s : State) (line : Nat) : Bool := decide (look 0 s.lmax line ≤ s.now) && (s.lineQueue line).isEmpty && !s.parHeld line

/-- Lines of a piece. -/
def linesOf (pa n : Nat) : List Nat := (List.range ((pa + n - 1) / 128 - pa / 128 + 1)).map fun i => pa / 128 + i

/-- What an agent reads at the home of each byte. -/
def State.agentRead (s : State) (m : Master) (p w va n : Nat) : Except Fail (List Byte) :=
  match s.checkGlobal m none p w (agentSource m p w) [] false true false va n with
  | .error f => .error f
  | .ok ps => if ps.any Piece.outside then .error .own else .ok (ps.flatMap fun x => Memory.read s.mem x.pa x.len)

/-- An agent's write, performed at once; none while a line of it is not free (R36). It is checked when it is made, and fails where it meets
BULKHEAD-DOWN or an uncorrectable word (R304). -/
def State.agentWrite (s : State) (m : Master) (p w va : Nat) (bs : List Byte) : Option (Except Fail State) :=
  match s.checkGlobal m none p w (agentSource m p w) [] true true false va bs.length with
  | .error f => some (.error f)
  | .ok ps =>
    if ps.any Piece.outside then some (.error .own)
    else if ps.all fun x => (linesOf x.pa x.len).all s.lineFree then
      some (.ok ((ps.foldl (fun (st : State × List Byte) x =>
        (st.1.storeBytes (.dispatcher p) s.serial x.pa (st.2.take x.len), st.2.drop x.len)) (s, bs)).1))
    else none

/-- What an agent has read: single-bit errors in the words are corrected and logged (R31). -/
def State.agentTouch (s : State) (m : Master) (p w va n : Nat) : State :=
  match s.checkGlobal m none p w (agentSource m p w) [] false true false va n with
  | .error _ => s
  | .ok ps => ps.foldl (fun s x => if x.outside then s else s.scrub x.pa x.len) s

/-- The fence that an uncorrectable word leads to which an agent's access or its walk meets (R32, R70). -/
def State.fenceAgent (s : State) (m : Master) (p w va n : Nat) : State :=
  match s.checkGlobal m none p w (agentSource m p w) [] false true false va n with
  | .error .unc =>
    (cutPages va n).foldl (fun s x =>
      match s.translate none p (agentSource m p w) (x.1 % 2 ^ 64) with
      | .ok (pa, _) => match s.eccBad.find? fun e => decide (e + 4 > pa) && decide (e < pa + x.2) with
        | some e => s.fenceWord e 0xFFFF w
        | none => s
      | .error _ => s) s
  | .error (.page 4) => (cutPages va n).foldl (fun s x => s.noteWalk p (agentSource m p w) (x.1 % 2 ^ 64)) s
  | _ => s

/-- LOG2N of a ring register with its bounds: a value outside acts as the least (Tables 11-1, 12-4, 15-1; R366). -/
def ringLog (x lo hi : Nat) : Nat := if lo ≤ x && x ≤ hi then x else lo

/-- Is a ring of 2^k records full: the next tail would be the head? -/
def ringFull (k head tail : Nat) : Bool := (tail + 1) % 2 ^ k = head % 2 ^ k

/-! ### Debugger stops (R355 to R365) -/

/-- Does the world hold the debug right (R355)? -/
def World.granted (x : World) : Bool := bit (x.reg rDBGCTL).toNat 9

/-- PREEMPT.SAVED and BUSY (Table 12-8, Table 14-3). -/
def World.showsSaved (x : World) : Bool := x.hostSaved && (!x.busy || x.atOnce)
def World.showsBusy (x : World) : Bool := x.hostSaved && x.busy && !x.atOnce

/-- Is the world being sealed (R357): halted or saved and not yet restored? -/
def World.sealing (x : World) : Bool := x.busy || x.ctx.isSome

def StopReason.code : StopReason → Nat
  | .bp _ => 1 | .wp _ => 2 | .step _ => 3 | .halt => 4 | .brk => 5

def StopReason.index : StopReason → Nat
  | .bp n => n | .wp n => n | _ => 0

/-- The galley that a group runs: the one its launch has bound, or the safe-mode galley once the group has moved (R336). -/
def Group.galley (g : Group) (l : Launch) : Nat := if g.safe then l.safe.getD l.galley else l.galley

/-- Stop record (Table 15-2). -/
def stopRecord (l : Launch) (core : Nat) (g : Group) (t : Stop) : List Byte :=
  toBytes 8 t.time.toNat ++ toBytes 8 t.mask.toNat ++ toBytes 4 t.pc.toNat ++ toBytes 4 (Config.bundleOf (g.galley l) t.pc).toNat ++
  toBytes 4 (Config.schedOf (g.galley l) t.pc).toNat ++ toBytes 2 core ++ toBytes 1 g.gid.gi ++ toBytes 1 t.reason.code ++
  toBytes 4 g.gid.blk ++ toBytes 2 l.tag ++ toBytes 2 l.rcd.kidx ++ toBytes 1 t.reason.index ++
  toBytes 1 (b2n t.parked + 2 * b2n t.inHandler + 4 * b2n t.pending) ++ toBytes 6 0 ++ toBytes 8 t.addr.toNat ++ toBytes 8 0

/-- Write the oldest waiting stop record of a world, when the ring has room and the group's writes have performed: it is a release (R364). A record whose address the world may not write is lost
(LOG 30). -/
def State.writeStop (s : State) (w : Nat) : State :=
  match s.world? w with
  | none => s
  | some x =>
    match x.stopq with
    | [] => s
    | r :: rs =>
      let rc := (x.reg rDBGRC).toNat
      let k := ringLog (field rc 0 4) 4 10
      let tail := (x.reg rDBGRT).toNat
      if !bit rc 8 || ringFull k (x.reg rDBGRH).toNat tail then s.modWorld w fun x => x.setField rDBGRC 9 1 1
      else if s.pend.any fun q => r.after.contains q.id then s
      else
        match s.agentWrite .host x.part w ((x.reg rDBGRB).toNat + 64 * (tail % 2 ^ k)) r.bytes with
        | none => s
        | some o =>
          (match o with
            | .ok s' => s'
            | .error _ => s.fenceAgent .host x.part w ((x.reg rDBGRB).toNat + 64 * (tail % 2 ^ k)) 64).modWorld w fun x =>
            { (x.setReg rDBGRT (BitVec.ofNat 64 ((tail + 1) % 2 ^ k))) with stopq := rs }

/-- Write the waiting stop records of a world, at most `n` of them. -/
def State.writeStops (s : State) (w : Nat) : Nat → State
  | 0 => s
  | n + 1 => State.writeStops (s.writeStop w) w n

/-- The record of a group's stop joins those that wait for the ring. -/
def State.queueStop (s : State) (gid : Gid) : State :=
  match s.group? gid, s.launch? gid.lid, s.block? gid.lid gid.blk with
  | some g, some l, some b =>
    match g.stop with
    | some t =>
      if t.written then s
      else (s.modGroup gid fun y => { y with stop := some { t with written := true } }).modWorld l.world fun x =>
        { x with stopq := x.stopq ++ [⟨(s.pend.filter fun p => match p.src with | .thread i _ => i = gid | _ => false).map fun p => p.id, stopRecord l b.core g t⟩] }
    | none => s
  | _, _, _ => s

/-- Stop a group (R361, R362): its matrix instructions complete, it issues nothing until it is released, and its record is written. A group that
has stopped already keeps its stop (Table 15-3). While the world is being sealed the stop is pending (R357). -/
def State.debugStop (s : State) (gid : Gid) (r : StopReason) (mask : Mask) (pc : Word) (addr : DWord) (len : Nat) (parked : Bool) : State :=
  match s.group? gid, s.launch? gid.lid with
  | some g, some l =>
    if g.stop.isSome then s
    else
      let pending := match s.world? l.world with | some x => x.sealing | none => false
      let s := s.completeMats gid 8
      let t : Stop := { reason := r, time := BitVec.ofNat 64 s.now, mask := mask, pc := pc, addr := addr, len := len, parked := parked,
                        inHandler := g.handler.isSome, pending := pending, written := false }
      let s := s.modGroup gid fun g => { g with stopNext := none, stop := some t }
      if pending then s else (s.queueStop gid).writeStop l.world
  | _, _ => s

/-- Where a halted group stands: the fragment that R159 would choose, or a parked one. -/
def Group.standing (g : Group) : Mask × Word × Bool :=
  match g.choose with
  | some (f, _) => (f.mask, f.pc, false)
  | none => match lowestPc g.frags with | some f => (f.mask, f.pc, true) | none => (0, 0, true)

/-- Release a halted group (R363, R219): parked lanes whose wait has ended go on, a BRK goes on after its instruction; the stop is passed over for one
issue. -/
def Group.unstop (g : Group) : Group :=
  match g.stop with
  | none => g
  | some t =>
    let g := g.freed.foldl (fun g e => g.release e.1 e.2.2 e.2.1) { g with stop := none, pass := true, stopNext := none, freed := [] }
    match t.reason, g.frags.find? fun f => f.pc = t.pc && f.park.isNone with
    | .brk, some f => { (g.issued f.pc f.mask [mkFrag (f.pc + BitVec.ofNat 32 t.len) f.mask]) with pass := true }
    | _, _ => g

/-- Does the instruction that a group holds wait for answers or results that must come before it can stop (R362)? -/
def Group.owesResult (g : Group) : Bool :=
  match g.stuck with
  | some t => (match t.hold with | .replay _ _ _ => false | _ => true)
  | none => false

/-- Release a halted group for one instruction, of the fragment that R159 chooses (R363). -/
def Group.stepped (g : Group) : Group :=
  let y := g.unstop
  { y with stopNext := some (.step y.standing.1) }

/-- The lanes that are parked. -/
def Group.parkedLanes (g : Group) : Mask := g.frags.foldl (fun m (f : Frag) => if f.park.isSome then m ||| f.mask else m) 0

/-- The stop that a group waits for takes place: at once for a halt, after one issue for a step, parked when that has parked lanes it issued; not while it owes a
result. -/
def State.nextStop (s : State) (gid : Gid) : State :=
  match s.group? gid with
  | none => s
  | some g =>
    match g.stopNext with
    | none => s
    | some r =>
      let m : Mask := match r with | .step m => m | _ => 0
      if g.owesResult || (m ≠ 0 && g.pass) then s
      else s.debugStop gid r g.standing.1 g.standing.2.1 0 0 (g.standing.2.2 || m &&& g.parkedLanes ≠ 0)

/-- The watchpoint that an access matches (R361, Table 15-1): its number and the lowest matching lane's address. -/
def watchHit (x : World) (scr rd wr : Bool) (n : Nat) (reqs : List (Nat × Nat)) : Option (Nat × Nat) :=
  (List.range 4).findSome? fun i =>
    let c := (x.reg (rWPC i)).toNat
    let lg := min (field c 0 4) 12
    let base := (if bit c 6 then field (x.reg (rWPA i)).toNat 0 32 else field (x.reg (rWPA i)).toNat 0 52) / 2 ^ lg * 2 ^ lg
    if bit c 63 && bit c 6 == scr && ((bit c 4 && rd) || (bit c 5 && wr)) then
      match reqs.find? fun r => decide (r.2 < base + 2 ^ lg) && decide (base < r.2 + n) with
      | some r => some (i, r.2)
      | none => none
    else none

end Sys2Proof.Machine
end

