-- ==== Sys2Proof/Machine/Waits.lean ====
section
/-! DEFINITION. What an instruction waits for or reports before it acts: writes that must have performed (Tables 03-4, 03-5), matrix instructions
(R287, R289), copy chains (R104, R118), and writes that failed (R314). -/

namespace Sys2Proof.Machine

/-- Wait until the earlier writes of the lanes have performed. -/
def afterWrites (c : Ctx) (m : Mask) (s : State) (k : State → Out) : Out := if s.settled c.gid m then k s else stall s

/-- Wait until at most `n` matrix instructions of the group are outstanding; a wrong mask among those waited for is reported (R287, R289). -/
def awaitMats (c : Ctx) (act : Mask) (n : Nat) (s : State) (k : State → Out) : Out :=
  match s.group? c.gid with
  | none => k s
  | some g =>
    let need := g.mats.take (g.mats.length - n)
    if need.any fun m => !m.done then stall s
    else
      match need.find? fun m => m.bad ≠ 0 with
      | some m =>
        let pos := (g.mats.filter fun x => decide (x.at_ < m.at_) && (!x.done || x.bad ≠ 0)).length
        let s := s.modGroup c.gid fun x => { x with mats := x.mats.filter fun y => y.at_ ≠ m.at_ }
        .next (takeTrap c Cause.sparse m.bad act (BitVec.ofNat 64 (m.pc.toNat + pos * 2 ^ 32)) (fun _ => 0) s)
      | none =>
        k (s.modGroup c.gid fun x =>
          let x := (need.filter fun m => m.corrupt).foldl (fun x m => x.spoil s.fresh m) x
          { x with mats := x.mats.drop need.length })

/-- The chains of a group, in issue order. -/
def State.chainsOf (s : State) (g : Gid) : List Chain := s.chains.filter fun k => k.gid = g

/-- Has a chain completed (R104): it has ended or stopped, and every write it made has performed? -/
def State.chainDone (s : State) (k : Chain) : Bool :=
  (k.ended || k.stop.isSome) && s.pend.all fun p => p.src ≠ .chain k.id

/-- Chains at the front of a group's list that can retire: completed, with no fault to report. -/
def State.retirable (s : State) : List Chain → List Nat
  | [] => []
  | k :: ks => if s.chainDone k && k.stop.isNone then k.id :: State.retirable s ks else []

/-- Retire every chain of a group that can retire (R104). -/
def State.retireChains (s : State) (g : Gid) : State :=
  let ids := s.retirable (s.chainsOf g)
  { s with chains := s.chains.filter fun k => !ids.contains k.id }

/-- Report a stopped chain (R118); it retires. -/
def reportChain (c : Ctx) (act : Mask) (k : Chain) (t : ChainStop) (s : State) : Out :=
  let s := { s with chains := s.chains.filter fun x => x.id ≠ k.id }
  .next (takeTrap c t.cause act act t.info (fun _ => t.addr) s)

/-- The oldest chain of a group, when it has completed by a stop. -/
def State.stoppedChain (s : State) (g : Gid) : Option (Chain × ChainStop) :=
  match s.chainsOf g with
  | k :: _ => if s.chainDone k then (match k.stop with | some t => some (k, t) | none => none) else none
  | [] => none

/-- Wait until at most `n` chains of the group are outstanding, reporting a stopped one (R104, R118). -/
def awaitChains (c : Ctx) (act : Mask) (n : Nat) (s : State) (k : State → Out) : Out :=
  let s := s.retireChains c.gid
  if (s.chainsOf c.gid).length ≤ n then k s
  else
    match s.stoppedChain c.gid with
    | some (x, t) => reportChain c act x t s
    | none => stall s

/-- Report writes of the group that failed with BULKHEAD-DOWN (R314, Table 12-3). -/
def reportErr (c : Ctx) (act : Mask) (s : State) (k : State → Out) : Out :=
  match c.g.err with
  | none => k s
  | some e =>
    let info := BitVec.ofNat 64 (e.lsize * 4 + 32 + min e.count 0xFFFF * 2 ^ 32 + 3 * 2 ^ 60)
    .next (takeTrap c Cause.down act act info (fun _ => e.addr) (s.modGroup c.gid fun g => { g with err := none }))

/-- Does another group or lane of the block wait at a convergence point that the exits of threads can complete (R167, R171)? -/
def State.converging (s : State) (lid blk : Nat) : Bool :=
  (s.groupsOf lid blk).any fun g => g.frags.any fun f => match f.park with
    | some (_, .waitr _ _) => true
    | some (_, .sync _) => true
    | some (_, .regroup _ _) => true
    | _ => false

end Sys2Proof.Machine
end

