-- ==== Sys2Proof/Machine/Mem.lean ====
section
/-! DEFINITION. Loads, stores, tile moves, PUT, prefetch and lease requests, scratch zeroing (09, R233 to R242). -/

namespace Sys2Proof.Machine

/-! ### Leases (R34 to R37, R43, R241) -/

/-- Is the line of a physical address kept in the lease cache of a core (R33, R241)? Its page is the partition's own: no lease begins on a page that is
changing its owner (R69), nor on one reached through a window (R56). -/
def State.cacheable (s : State) (core part pa : Nat) : Bool :=
  field (s.potEntry (pa / 4096)) 0 5 = part &&
  (match region pa with
   | .hbm _ => true
   | .slice k _ => k ≠ core
   | _ => false)

/-- Earliest T_c of a write that waits at a line. -/
def State.nextTc (s : State) (line : Nat) : Option Nat :=
  (s.lineQueue line).foldl (fun t p => match t, p.tc with
    | some a, some b => some (min a b)
    | none, x => x
    | x, none => x) none

/-- The other lines of a line's set in a core's lease cache, 128 sets of 16 ways (R33): a line falls in the set of its number mod 128 (DESIGN CHOICE, LOG 107). -/
def State.wayMates (s : State) (core line : Nat) : List Lease :=
  s.leases.filter fun l => l.core = core && l.line % 128 = line % 128 && l.line ≠ line

/-- Room for a line in its set: of 16 other lines, the one that the core does not own whose lease ends first goes (DESIGN CHOICE, LOG 107). -/
def State.evict (s : State) (core line : Nat) : State :=
  let set := s.wayMates core line
  if set.length < 16 then s
  else
    match set.filter fun l => !l.owned with
    | [] => s
    | x :: xs =>
      let first := xs.foldl (fun b l => if l.tEnd < b.tEnd then l else b) x
      { s with leases := s.leases.filter fun l => l ≠ first || l.owned }

/-- Is no lease of a line granted: a core owns it (R43), the core owns every other line of its set, or replay mode gives leases of 0 ns (R370)? -/
def State.noLease (s : State) (core line : Nat) : Bool :=
  s.leases.any (fun l => l.line = line && l.owned) || decide (16 ≤ ((s.wayMates core line).filter fun l => l.owned).length) ||
  s.parts.any fun p => p.replayOn.isSome && p.bulks.contains (bulkOf core)

/-- A fill of a param line (R41): its lease lasts until the launch `lid` ends. -/
def State.fillParam (s : State) (core line lid : Nat) : State :=
  if s.noLease core line || !(s.lineQueue line).isEmpty then s
  else
    let s := s.evict core line
    { s with leases := ⟨core, line, s.now, false, some lid⟩ :: s.leases.filter fun l => !(l.core = core && l.line = line) }

/-- A fill of a line (R35, R37): the lease of `dur` ns ends no later than the T_c of a write that waits, and a later end that the core holds stays. -/
def State.fillLine (s : State) (core line dur : Nat) : State :=
  if s.noLease core line || s.leases.any (fun l => l.core = core && l.line = line && l.par.isSome) then s
  else
    let e0 := s.now + min dur Config.leaseMax
    let e := match s.nextTc line with | some t => min e0 t | none => e0
    if e ≤ s.now then s
    else
      let s := s.evict core line
      let had := match s.leases.find? fun l => l.core = core && l.line = line with | some l => l.tEnd | none => 0
      { s with
        leases := ⟨core, line, max e had, false, none⟩ :: s.leases.filter fun l => !(l.core = core && l.line = line)
        lmax := put s.lmax line (max e (look 0 s.lmax line)) }

/-! ### Addresses, watchpoints -/

/-- The address of a lane (R233). -/
def Ctx.addr (c : Ctx) (fresh : Nat) (sp : Space) (off : Word) (a : Opnd) (l : Nat) : Nat :=
  if sp = .glob then (c.readReg fresh 2 l a + off.signExtend 64).toNat
  else ((c.readReg fresh 1 l a).setWidth 32 + off).toNat

/-- The address of a lane of LDS and STS (R238). -/
def Ctx.strideAddr (c : Ctx) (fresh : Nat) (sp : Space) (stride : Word) (a : Opnd) (l : Nat) : Nat :=
  if sp = .glob then (c.readReg fresh 2 l a + BitVec.ofNat 64 l * stride.signExtend 64).toNat
  else ((c.readReg fresh 1 l a).setWidth 32 + BitVec.ofNat 32 l * stride).toNat

/-- The lanes of an access with the addresses that watchpoints match: a param access at its global addresses (R361). -/
def watchReqs (c : Ctx) (sp : Space) (reqs : List (Nat × Nat)) : List (Nat × Nat) :=
  if sp = .par then (reqs.filter fun r => decide (r.2 < c.l.rcd.argSize)).map fun r => (r.1, (c.l.rcd.argPtr.toNat + r.2) % 2 ^ 64) else reqs

/-- Stop at a watchpoint that the access matches, before any lane acts and before it has issued (R358, R361); local space is never matched. -/
def watched (c : Ctx) (sp : Space) (n : Nat) (rd wr : Bool) (reqs : List (Nat × Nat)) (s : State) (k : State → Out) : Out :=
  match s.world? c.l.world with
  | none => k s
  | some x =>
    if c.g.pass || c.g.owesResult || !x.granted || sp = .loc then k s
    else
      match watchHit x (sp = .scr) rd wr n (watchReqs c sp reqs) with
      | none => k s
      | some (i, a) => .next (s.debugStop c.gid (.wp i) c.is.mask c.is.pc (BitVec.ofNat 64 a) c.is.len false)

/-- Keep the translations that an access has used (R62). -/
def State.cachePieces (s : State) (c : Ctx) (sp : Space) (ps : List Piece) : State :=
  if sp = .scr || sp = .loc then s
  else ps.foldl (fun s p => if p.lit.isSome then s else s.cache c.core c.l.part p.va) s

/-- The runs of an access that lie in a core's own slice, by slice offset. -/
def ownRuns (core : Nat) (ps : List Piece) : List (Nat × Nat) :=
  ps.filterMap fun p =>
    match region p.pa with
    | .slice k o => if k = core && p.lit.isNone && !p.loc then some (o, p.len) else none
    | _ => none

/-- The param lines that an access reads get leases to the launch's end (R41): those that hold arguments and nothing else (DESIGN CHOICE, LOG 133). -/
def State.leasePieces (s : State) (c : Ctx) (sp : Space) (ps : List Piece) : State :=
  if sp = .par then
    let lo := c.l.rcd.argPtr.toNat
    ps.foldl (fun s p =>
      let first := p.va / 128 * 128
      if p.lit.isNone && !p.outside && s.cacheable c.core c.l.part p.pa && decide (lo ≤ first) && decide (first + 128 ≤ lo + c.l.rcd.argSize) then
        s.fillParam c.core (lineOf p.pa) c.l.lid
      else s) s
  else s

/-- What a group access does besides its data: its pages are translated, its param lines are leased, and it takes array time in its core's slice (R25, R30,
R41). -/
def State.touchPieces (s : State) (c : Ctx) (sp : Space) (col store : Bool) (ps : List Piece) : State :=
  ((s.leasePieces c sp ps).cachePieces c sp ps).useArrays c.core col store (ownRuns c.core ps)

/-! ### Requests to the host and to peers (R101, R375, R378) -/

/-- The pieces of an access that lie outside the package, each under its request number. -/
def outsidePieces (ps : List (List Piece)) : List (Nat × Piece) :=
  ((List.range ps.length).zip ps).flatMap fun e =>
    (((List.range e.2.length).zip e.2).filter fun x => x.2.outside).map fun x => (e.1 * 32 + x.1, x.2)

/-- The request that the held instruction sent out for a piece. -/
def Ctx.request (c : Ctx) (key : Nat) : Option Nat :=
  match c.g.stuck with
  | some ⟨_, _, _, _, .ext rs⟩ => (rs.find? fun r => r.1 = key).map fun r => r.2
  | _ => none

/-- The answer to a request. -/
def State.replyOf (s : State) (c : Ctx) (key : Nat) : Option ExtReply :=
  match c.request key with
  | none => none
  | some id => match s.ext.find? fun e => e.id = id with | none => none | some e => e.reply

/-- The answers are used up. -/
def State.dropAnswers (s : State) (c : Ctx) : State :=
  match c.g.stuck with
  | some ⟨_, _, _, _, .ext rs⟩ => { s with ext := s.ext.filter fun e => !(rs.any fun r => r.2 = e.id) }
  | _ => s

/-- Send one request for each piece and hold the group until all are answered. -/
def State.ask (s : State) (c : Ctx) (ps : List (Nat × Piece)) (op : Nat → Piece → ExtOp) : State :=
  let r := ps.foldl (fun (st : State × List (Nat × Nat)) x =>
    (st.1.send c.l.part c.l.world x.2.pa (op x.1 x.2), st.2 ++ [(x.1, st.1.serial)])) (s, [])
  r.1.modGroup c.gid fun g => { g with stuck := some ⟨c.is.pc, c.is.mask, c.is.len, c.is.inst, .ext r.2⟩ }

/-- Wait for the answers to the outside pieces of an access whose requests are `reqs`; a refused one faults its lane (R16, R375, R380), or every lane when one
request serves them all (R260). -/
def outsideDone (c : Ctx) (act : Mask) (sp : Space) (n : Nat) (write : Bool) (reqs : List (Nat × Nat)) (ps : List (List Piece))
    (op : Nat → Piece → ExtOp) (s : State) (k : State → Out) (shared : Bool := false) : Out :=
  let outs := outsidePieces ps
  if outs.isEmpty then k s
  else if outs.any fun x => (c.request x.1).isNone then .next (s.ask c outs op)
  else if outs.any fun x => (s.replyOf c x.1).isNone then stall s
  else
    let fails := outs.flatMap fun x =>
      let rs := if shared then reqs else [reqs.getD (x.1 / 32) (0, 0)]
      match s.replyOf c x.1 with
      | some .ownership => rs.map fun r => (r.1, r.2, Fail.own)
      | some .down => rs.map fun r => (r.1, r.2, Fail.down)
      | _ => []
    if fails.isEmpty then k s else memFault c act sp n write fails [] (s.dropAnswers c)

/-! ### Loads -/

/-- What request number `i` of an access reads, in the order of its pieces; a param byte reads as memory stands (R15; DESIGN CHOICE, LOG 112). -/
def State.gather (s : State) (c : Ctx) (lane i : Nat) : Nat → List Piece → Option (List Byte)
  | _, [] => some []
  | j, p :: ps =>
    let x : Option (List Byte) :=
      match p.lit with
      | some bs => some bs
      | none =>
        if p.loc then some (s.readLocal p.pa p.len)
        else if p.outside then
          match s.replyOf c (i * 32 + j) with
          | some (.ok bs) => some ((bs ++ List.replicate p.len 0).take p.len)
          | _ => none
        else s.laneBytes c lane p.pa p.len
    match x, State.gather s c lane i (j + 1) ps with
    | some a, some b => some (a ++ b)
    | _, _ => none

/-- The data of every request, or none where a lane must wait for an atomic of its own. -/
def State.gatherAll (s : State) (c : Ctx) : Nat → List (Nat × List Piece) → Option (List (Nat × List Byte))
  | _, [] => some []
  | i, (l, ps) :: r =>
    match s.gather c l i 0 ps, State.gatherAll s c (i + 1) r with
    | some b, some bs => some ((l, b) :: bs)
    | _, _ => none

/-- Check, watch, and read: what every load does before it writes registers. -/
def readAll (c : Ctx) (act : Mask) (sp : Space) (n : Nat) (col aligned : Bool) (reqs : List (Nat × Nat)) (s : State)
    (k : List (Nat × List Byte) → State → Out) : Out :=
  withLanes c act sp n false true aligned reqs s fun ps =>
    watched c sp n true false reqs s fun s =>
      outsideDone c act sp n false reqs (ps.map fun x => x.2) (fun _ p => .read p.len) s fun s =>
        match s.gatherAll c 0 ps with
        | none => stall s
        | some bs =>
          let all := ps.flatMap fun x => x.2
          let s1 := all.foldl (fun s (p : Piece) => if p.lit.isSome || p.outside then s
            else s.scrubBy (fun x => !p.loc || s.written.contains (lineOf x)) p.pa p.len) (s.dropAnswers c)
          k bs (s1.touchPieces c sp col false all)

/-- The registers that a load writes (Table 09-1). -/
def loadWords (sz : Sz) (bs : List Byte) : List Word :=
  match sz with
  | .s8 => [BitVec.ofInt 32 (signed 8 (ofBytes bs))]
  | .s16 => [BitVec.ofInt 32 (signed 16 (ofBytes bs))]
  | .b64 => (List.range 2).map fun i => BitVec.ofNat 32 (field (ofBytes bs) (32 * i) 32)
  | .b128 => (List.range 4).map fun i => BitVec.ofNat 32 (field (ofBytes bs) (32 * i) 32)
  | _ => [BitVec.ofNat 32 (ofBytes bs)]

/-- The shape of LD and LDS (R237). Every later access of the thread issues after the load has performed, so the orders of Table 03-4 hold. -/
def loadOp (hd : Hdr) (acc : Acc) (d : Opnd) (addr : Ctx → Nat → Nat) (s : State) : Out :=
  withIssuer s fun c =>
    let act := c.act hd
    if act = 0 then .next (retire c s)
    else
      readAll c act acc.sp acc.sz.bytes acc.col (mustAlign acc.ord acc.a16) ((lanes act).map fun l => (l, addr c l)) s fun bs s =>
        .next (retire c (s.modGroup c.gid fun g =>
          g.writeWords c.w64 s.fresh d (fun l => loadWords acc.sz (look [] bs l)) (lanes act)))

/-- LD (R237). -/
def execLd (hd : Hdr) (acc : Acc) (off : Word) (d a : Opnd) (s : State) : Out :=
  loadOp hd acc d (fun c l => c.addr s.fresh acc.sp off a l) s

/-- LDS (R238). -/
def execLds (hd : Hdr) (acc : Acc) (stride : Word) (d a : Opnd) (s : State) : Out :=
  loadOp hd acc d (fun c l => c.strideAddr s.fresh acc.sp stride a l) s

/-! ### Stores -/

/-- Bytes of consecutive registers from a data operand (Table 09-1). -/
def Ctx.dataBytes (c : Ctx) (fresh l : Nat) (d : Opnd) (n : Nat) : List Byte :=
  ((List.range ((n + 3) / 4)).flatMap fun i => toBytes 4 (c.readReg fresh 1 l ⟨d.cls, d.n + i⟩).toNat).take n

/-- The writes that a new write of a lane must follow by its order: every earlier write for the release class, those that an acq_rel fence has
covered otherwise (Table 03-4). -/
def State.orderAfter (s : State) (c : Ctx) (lane : Nat) (release : Bool) : List Nat :=
  if release then s.ownWrites (.thread c.gid lane) else look [] c.g.covers lane

/-- Must a write outside the package wait, because a write it must follow is in flight (R101)? -/
def State.outsideMustWait (s : State) (c : Ctx) (release : Bool) (ps : List (Nat × List Piece)) : Bool :=
  ps.any fun x => (x.2.any Piece.outside) && (s.orderAfter c x.1 release).any fun i => s.pend.any fun q => q.id = i

/-- Put the writes of one request in flight, piece by piece; local storage is written at once. -/
def State.writePieces (s : State) (c : Ctx) (cls : WClass) (lane base : Nat) (strong whole : Bool) (after : List Nat) (aligned : Bool)
    (full : List Nat) : List Piece → List Byte → State
  | [], _ => s
  | p :: ps, bs =>
    let now := bs.take p.len
    let s1 := if p.loc then s.writeLocal p.pa now else s.issuePiece c cls lane base strong whole after p now aligned full
    State.writePieces s1 c cls lane base strong whole after aligned full ps (bs.drop p.len)

/-- Check, watch, and put in flight: what every store does. `data` gives the bytes of request `i`. It stalls while the wick counter of its class has no
room for all its writes, or stands at 2^20 (R131). -/
def writeAll (c : Ctx) (act : Mask) (sp : Space) (n : Nat) (col aligned : Bool) (cls : WClass) (release strong whole : Bool)
    (reqs : List (Nat × Nat)) (data : Nat → Nat → List Byte) (s : State) : Out :=
  withLanes c act sp n true false aligned reqs s fun ps =>
    watched c sp n false true reqs s fun s =>
      let base := s.serial
      let full := fullWords ((ps.flatMap fun x => x.2).map fun p => (p.pa, p.len))
      let s1 := ((List.range ps.length).zip ps).foldl (fun t e =>
        t.writePieces c cls e.2.1 base strong whole (if cls = .put then [] else s.orderAfter c e.2.1 release)
          ((reqs.getD e.1 (0, 0)).2 % n = 0) full e.2.2 (data e.1 e.2.1)) s
      if s.outsideMustWait c release ps || decide (2 ^ 20 ≤ s.wick c.l.lid c.core cls) || decide (2 ^ 20 < s1.wick c.l.lid c.core cls) then stall s
      else
        .next (retire c (s1.touchPieces c sp col true (ps.flatMap fun x => x.2)))

/-- The shape of ST and STS (R237). -/
def storeOp (hd : Hdr) (acc : Acc) (d : Opnd) (addr : Ctx → Nat → Nat) (s : State) : Out :=
  withIssuer s fun c =>
    let act := c.act hd
    if act = 0 then .next (retire c s)
    else
      writeAll c act acc.sp acc.sz.bytes acc.col (mustAlign acc.ord acc.a16) .store (acc.ord = .acqrel || acc.ord = .str)
        (acc.ord = .str) acc.a16 ((lanes act).map fun l => (l, addr c l)) (fun _ l => c.dataBytes s.fresh l d acc.sz.bytes) s

/-- ST (R237). -/
def execSt (hd : Hdr) (acc : Acc) (off : Word) (d a : Opnd) (s : State) : Out :=
  storeOp hd acc d (fun c l => c.addr s.fresh acc.sp off a l) s

/-- STS (R238). -/
def execSts (hd : Hdr) (acc : Acc) (stride : Word) (d a : Opnd) (s : State) : Out :=
  storeOp hd acc d (fun c l => c.strideAddr s.fresh acc.sp stride a l) s

/-- PUT (R240, R97). -/
def execPut (hd : Hdr) (acc : Acc) (off : Word) (d a : Opnd) (s : State) : Out :=
  withIssuer s fun c =>
    let act := c.act hd
    if act = 0 then .next (retire c s)
    else
      writeAll c act .glob acc.sz.bytes acc.col (acc.ord ≠ .plain) .put false false false
        ((lanes act).map fun l => (l, c.addr s.fresh .glob off a l)) (fun _ l => c.dataBytes s.fresh l d acc.sz.bytes) s

/-! ### Tile moves (R239) -/

/-- The words of a tile move: lane and scratch offset, lane by lane. -/
def tileReqs (c : Ctx) (fresh : Nat) (pitch : Word) (a : Opnd) (act : Mask) : List (Nat × Nat) :=
  (lanes act).flatMap fun l => (List.range 16).map fun j =>
    (l, ((c.readReg fresh 1 l a).setWidth 32 + BitVec.ofNat 32 l * pitch + BitVec.ofNat 32 (4 * j)).toNat)

/-- LDT (R239). -/
def execLdt (hd : Hdr) (col : Bool) (pitch : Word) (d a : Opnd) (s : State) : Out :=
  withIssuer s fun c =>
    let act := c.act hd
    if act = 0 then .next (retire c s)
    else
      readAll c act .scr 4 col false (tileReqs c s.fresh pitch a act) s fun bs s =>
        .next (retire c (s.modGroup c.gid fun g =>
          ((List.range bs.length).zip bs).foldl (fun g e =>
            g.writeV c.w64 s.fresh e.2.1 (d.n + e.1 % 16) (BitVec.ofNat 32 (ofBytes e.2.2))) g))

/-- STT (R239). -/
def execStt (hd : Hdr) (col : Bool) (pitch : Word) (d a : Opnd) (s : State) : Out :=
  withIssuer s fun c =>
    let act := c.act hd
    if act = 0 then .next (retire c s)
    else
      writeAll c act .scr 4 col false .store false false false (tileReqs c s.fresh pitch a act)
        (fun i l => c.dataBytes s.fresh l ⟨d.cls, d.n + i % 16⟩ 4) s

/-! ### PREF and LEASE (R241) -/

/-- The shape of PREF and LEASE (R241). -/
def leaseOp (hd : Hdr) (off : Word) (a : Opnd) (dur : Ctx → Nat → Nat) (s : State) : Out :=
  withIssuer s fun c =>
    let act := c.act hd
    if act = 0 then .next (retire c s)
    else
      withLanes c act .glob 1 false true false ((lanes act).map fun l => (l, c.addr s.fresh .glob off a l)) s fun ps =>
        let s1 := ps.foldl (fun s x => x.2.foldl (fun s p =>
          if s.cacheable c.core c.l.part p.pa then s.fillLine c.core (lineOf p.pa) (dur c x.1) else s) s) s
        .next (retire c (s1.cachePieces c .glob (ps.flatMap fun x => x.2)))

/-- PREF (R241): the home chooses the length of the lease. -/
def execPref (hd : Hdr) (_col : Bool) (off : Word) (a : Opnd) (s : State) : Out :=
  leaseOp hd off a (fun _ l => (Config.freeDWord s.fresh l).toNat % (Config.leaseMax + 1)) s

/-- LEASE (R241). -/
def execLease (hd : Hdr) (_col : Bool) (off : Word) (d a : Opnd) (s : State) : Out :=
  leaseOp hd off a (fun c l => (c.readReg s.fresh 1 l d).toNat % 2 ^ 32) s

/-! ### SZERO (R242) -/

/-- Cut [a, a + n) at the boundaries of 128-byte lines: offset and length of each part. `fuel` bounds their number. -/
def cutLines : Nat → Nat → Nat → List (Nat × Nat)
  | 0, _, _ => []
  | f + 1, a, n =>
    if n = 0 then []
    else
      let k := min n (128 - a % 128)
      (a, k) :: cutLines f (a + k) (n - k)

/-- SZERO (R242): zeros written by every lane of Act, line by line (LOG 11). One that makes more writes than the store counter holds issues once the counter
is 0 (DESIGN CHOICE, LOG 121). -/
def execSzero (hd : Hdr) (col : Bool) (off : Word) (d a : Opnd) (s : State) : Out :=
  withIssuer s fun c =>
    let act := c.act hd
    let l := (lanes act).headD 0
    let o := ((c.readReg s.fresh 1 l a).setWidth 32 + off).toNat
    let n := (c.readReg s.fresh 1 l d).toNat % 2 ^ 32
    if act = 0 || n = 0 then .next (retire c s)
    else if c.b.scratch < o + n then .next (takeTrap c Cause.bounds act act (BitVec.ofNat 64 (1 + 32)) (fun _ => BitVec.ofNat 64 o) s)
    else if !s.atomsDone c.gid act true then stall s
    else
      watched c .scr n false true ((lanes act).map fun l => (l, o)) s fun s =>
        let parts := cutLines (n / 128 + 2) (c.b.scratchPa o) n
        let base := s.serial
        let s1 := (lanes act).foldl (fun t l =>
          parts.foldl (fun t p =>
            let src := Writer.thread c.gid l
            t.issue src c.l.lid c.core .store (o + (p.1 - c.b.scratchPa o)) p.1 (.bytes (List.replicate p.2 0))
              (t.mustFollow src c.l.lid .store base (s.orderAfter c l false) p.1 p.2) false) t) (s.useArrays c.core col true [(o, n)])
        if s.wick c.l.lid c.core .store ≠ 0 && decide (2 ^ 20 < s1.wick c.l.lid c.core .store) then stall s else .next (retire c s1)

end Sys2Proof.Machine
end

