-- ==== Sys2Proof/Machine/Async.lean ====
section
/-! DEFINITION. Copy chains as the program sees them, device-side launches and system access (09, R257 to R261; 15, R366, R367). -/

namespace Sys2Proof.Machine

/-- CPCHAIN (R258, R103, R104). -/
def execCpchain (hd : Hdr) (a : Opnd) (s : State) : Out :=
  withIssuer s fun c =>
    let act := c.act hd
    let o := (c.readReg s.fresh 1 ((lanes act).headD 0) a).toNat % 2 ^ 32
    if act = 0 then .next (retire c s)
    else if o % 32 ≠ 0 then .next (takeTrap c Cause.align act act (memInfo .scr 32 false 0) (fun _ => BitVec.ofNat 64 o) s)
    else
      let s := s.retireChains c.gid
      if 8 ≤ (s.chainsOf c.gid).length then stall s
      else
        let k : Chain :=
          { id := s.serial, gid := c.gid, lanes := act, core := c.core, pc := c.is.pc, base := o, entry := 0, unit := 0, ent := none, idx := 0, loops := [],
            turn := 0, ended := false, stop := none, stuck := none, ahead := [] }
        .next (retire c { s with chains := s.chains ++ [k], serial := s.serial + 1 })

/-- CPWAIT (R259). -/
def execCpwait (hd : Hdr) (n : Nat) (s : State) : Out :=
  withIssuer s fun c =>
    let act := c.act hd
    if act = 0 then .next (retire c s)
    else awaitChains c act n s fun s => reportErr c act s fun s => .next (retire c s)

/-- CPTEST (R259): it does not wait; a stop of the oldest chain is reported once the chain's writes have performed (R96). -/
def execCptest (hd : Hdr) (d : Opnd) (pd : Nat) (s : State) : Out :=
  withIssuer s fun c =>
    let act := c.act hd
    if act = 0 then .next (retire c s)
    else
      let s := s.retireChains c.gid
      let ks := s.chainsOf c.gid
      match s.stoppedChain c.gid with
      | some (k, t) => reportChain c act k t s
      | none =>
        reportErr c act s fun s =>
          let n := ks.length
          .next (retire c (s.modGroup c.gid
            (c.writeLanes s.fresh (some (d, 1)) (fun _ => { d := BitVec.ofNat 64 n, p := some (pd, n = 0) }) (lanes act))))

/-- LAUNCH (R260, R302): the record is read once, for every lane of Act. -/
def execLaunch (hd : Hdr) (d a : Opnd) (s : State) : Out :=
  withIssuer s fun c =>
    let act := c.act hd
    if act = 0 then .next (retire c s)
    else
      afterWrites c act s fun s =>
        let l0 := (lanes act).headD 0
        let va := (c.readReg s.fresh 2 l0 a).toNat
        let reqs := (lanes act).map fun l => (l, va)
        withLanes c act .glob 128 false true true reqs s fun ps =>
          let p0 := (ps.headD (l0, [])).2
          outsideDone c act .glob 128 false reqs [p0] (fun _ p => .read p.len) s (shared := true) fun s =>
            match s.gather c l0 0 0 p0 with
            | none => stall s
            | some bs =>
              let s := p0.foldl (fun s p => if p.outside then s else s.scrub p.pa p.len) ((s.dropAnswers c).cachePieces c .glob p0)
              let full := match s.part? c.l.part with | none => true | some p => decide (1024 ≤ p.devq.length)
              let s1 := if full then s else s.modPart c.l.part fun p => { p with devq := p.devq ++ [⟨c.l.world, bs, 0⟩] }
              .next (retire c (s1.modGroup c.gid
                (c.writeLanes s.fresh (some (d, 1)) (fun _ => { d := BitVec.ofNat 64 (b2n full) }) (lanes act))))

/-- GETTIME (R261). -/
def execGettime (hd : Hdr) (ord : Bool) (d : Opnd) (s : State) : Out :=
  withIssuer s fun c =>
    let act := c.act hd
    if act = 0 then .next (retire c s)
    else if ord && !s.settled c.gid act then stall s
    else
      let t := BitVec.ofNat 64 (s.timeOf c.l.part)
      .next (retire c (s.modGroup c.gid (c.writeLanes s.fresh (some (d, 2)) (fun _ => { d := t }) (lanes act))))

/-- Does Table 15-4 list the counter? -/
def counterListed (k : Nat) : Bool :=
  k ≤ 13 || (16 ≤ k && k ≤ 29) || (32 ≤ k && k ≤ 39) || (48 ≤ k && k ≤ 63)

/-- Does the model follow the counter itself: freeze cycles, rollbacks, array cycles, and the stalls of queues, convergence points, SEMWAIT, PAUSE and freezes? The others
depend on the native schedule (LOG 3). -/
def counterKept (k : Nat) : Bool := k = 34 || k = 35 || k = 36 || k = 39 || (55 ≤ k && k ≤ 59)

/-- What has been counted of a counter. -/
def State.counterOf (s : State) (core k : Nat) : DWord := if k = 39 then SMap.get s.arrays core else SMap.get s.counts (core * 64 + k)

/-- A counter of the native schedule moves on by what it has counted since it was last read. -/
def State.tally (s : State) (core k : Nat) : State :=
  if counterKept k then s else { s with counts := SMap.set s.counts (core * 64 + k) (SMap.get s.counts (core * 64 + k) + Config.counter s.fresh core k) }

/-- PERFRD (R261, R367): an unlisted counter reads 0, and every counter does in replay mode (R370). -/
def execPerfrd (hd : Hdr) (d : Opnd) (k : Nat) (s : State) : Out :=
  let zero (c : Ctx) : Bool := !counterListed k || (s.replayFrom c.l.part).isSome
  let t := match s.ctx? with
    | some c => if c.act hd = 0 || zero c then s else s.tally c.core k
    | none => s
  alu hd (some (d, 2)) [] (fun c _ _ => { d := if zero c then 0 else t.counterOf c.core k }) t

/-- A trace record (R366). -/
def traceRecord (c : Ctx) (now : Nat) (act : Mask) (a : DWord) (code : Nat) : List Byte :=
  toBytes 8 now ++ toBytes 8 act.toNat ++ toBytes 4 c.is.pc.toNat ++ toBytes 2 code ++ toBytes 2 c.core ++ toBytes 4 a.toNat ++
  toBytes 2 c.l.tag ++ toBytes 2 0

/-- Put a record of an agent in flight, as one write a page; one whose address the world may not write is lost (LOG 30). -/
def State.issueRecord (s : State) (p w lid core va : Nat) (bs : List Byte) : State :=
  match s.checkGlobal .host none p w (agentSource .host p w) [] true false false va bs.length with
  | .error _ => s.fenceAgent .host p w va bs.length
  | .ok ps => (ps.foldl (fun (st : State × List Byte) x =>
      (st.1.issue (.dispatcher p) lid core .other x.va x.pa (.bytes (st.2.take x.len)) [] false, st.2.drop x.len)) (s, bs)).1

/-- Write a trace record, or count it as dropped when the ring is full (R366). -/
def State.trace (s : State) (c : Ctx) (act : Mask) (a : DWord) (code : Nat) : State :=
  match s.world? c.l.world with
  | none => s
  | some x =>
    if !bit (x.reg rTRCCTL).toNat 0 then s
    else
      let k := ringLog (x.fieldOf rTRCN 0 4) 4 16
      let tail := x.fieldOf rTRCT 0 16
      if ringFull k (x.fieldOf rTRCH 0 16) tail then
        s.modWorld x.w fun x => x.setField rTRCT 32 16 (min 0xFFFF (x.fieldOf rTRCT 32 16 + 1))
      else
        let va := field (x.reg rTRCB).toNat 5 47 * 32 + 32 * (tail % 2 ^ k)
        (s.issueRecord x.part x.w c.l.lid c.core va (traceRecord c s.now act a code)).modWorld x.w fun x =>
          x.setField rTRCT 0 16 ((tail + 1) % 2 ^ k)

/-- TRACE (R261, R366). -/
def execTrace (hd : Hdr) (a : Opnd) (code : Nat) (s : State) : Out :=
  withIssuer s fun c =>
    let act := c.act hd
    if act = 0 then .next (retire c s)
    else .next (retire c (s.trace c act (c.readReg s.fresh 1 ((lanes act).headD 0) a) code))

end Sys2Proof.Machine
end

