-- ==== Sys2Proof/Machine/Atom.lean ====
section
/-! DEFINITION. Atomics and BACKOFF (09, R243 to R245). An atomic travels to its home as a write in flight that reads and writes there at one
instant (R46); one with a result holds its group until every lane has its old value. -/

namespace Sys2Proof.Machine

/-- The shape of an atomic: what each lane does at a home, and what is sent outside the package; `host` says that a host window carries it (R244). -/
structure AtomShape where
  n : Nat
  host : Bool
  op : Nat → WOp
  out : Nat → ExtOp

/-- The lanes of an atomic that fail (R17, R234): by the checks of every access, at a host window that does not carry it, or for an uncorrectable word
(R32). -/
def AtomShape.fails (sh : AtomShape) (s : State) (res : List (Nat × Nat × Except Fail (List Piece))) : List (Nat × Nat × Fail) :=
  res.filterMap fun r =>
    match r.2.2 with
    | .error f => some (r.1, r.2.1, f)
    | .ok ps =>
      if !sh.host && ps.any fun p => (match region p.pa with | .host _ => p.outside | _ => false) then some (r.1, r.2.1, .own)
      else if ps.any fun p => !p.outside && s.badWord p.pa p.len then some (r.1, r.2.1, .unc)
      else none

/-- The checks of every atomic (R234, R243) and its watchpoints. A `posted` one, which has no result, reports BULKHEAD-DOWN later (R73). -/
def atomChecks (c : Ctx) (act : Mask) (acc : Acc) (sh : AtomShape) (posted : Bool) (reqs : List (Nat × Nat)) (s : State)
    (k : List (Nat × List Piece) → State → Out) : Out :=
  let fails := sh.fails s (s.laneChecks c acc.sp sh.n true (!posted) true reqs)
  if fails.isEmpty then
    withLanes c act acc.sp sh.n true (!posted) true reqs s fun ps =>
      watched c acc.sp sh.n true true reqs s fun s =>
        if s.outsideMustWait c (acc.ord ≠ .rlx) ps then stall s else k ps s
  else memFault c act acc.sp sh.n true fails (fails.flatMap fun f => (s.badPages c acc.sp f.2.1 sh.n).map fun p => (f.1, p)) s

/-- Put one lane's atomic in flight to its home. -/
def State.issueAtom (s : State) (c : Ctx) (acc : Acc) (cls : WClass) (lane base : Nat) (after : List Nat) (op : WOp) (n : Nat) (p : Piece) : State :=
  let src := Writer.thread c.gid lane
  s.issue src c.l.lid c.core cls p.va p.pa op (s.mustFollow src c.l.lid cls base after p.pa n) (acc.ord = .str)

/-- An atomic with a result (R244). -/
def atomResult (hd : Hdr) (acc : Acc) (d a : Opnd) (sh : Ctx → AtomShape) (s : State) : Out :=
  withIssuer s fun c =>
    let act := c.act hd
    if act = 0 then .next (retire c s)
    else
      let sh := sh c
      let reqs := (lanes act).map fun l => (l, c.addr s.fresh acc.sp 0 a l)
      atomChecks c act acc sh false reqs s fun ps s =>
        if 2 ^ 20 < s.wick c.l.lid c.core .store + ps.length then stall s
        else outsideDone c act acc.sp sh.n true reqs (ps.map fun x => x.2) (fun key _ => sh.out ((reqs.getD (key / 32) (0, 0)).1)) s fun s =>
          let base := s.serial
          let r := ((List.range ps.length).zip ps).foldl (fun (st : State × List Await) e =>
            let l := e.2.1
            match e.2.2 with
            | p :: _ =>
              if p.outside then
                let v := match s.replyOf c (e.1 * 32) with | some (.ok bs) => BitVec.ofNat 64 (ofBytes (bs.take sh.n)) | _ => 0
                (st.1, st.2 ++ [⟨l, 0, p.va, some v, false⟩])
              else
                (st.1.issueAtom c acc .store l base (s.orderAfter c l (acc.ord ≠ .rlx)) (sh.op l) sh.n p,
                 st.2 ++ [⟨l, st.1.serial, p.va, none, false⟩])
            | [] => st) (s, [])
          let s1 := (r.1.dropAnswers c).touchPieces c acc.sp acc.col false (ps.flatMap fun x => x.2)
          let t : Stuck := ⟨c.is.pc, c.is.mask, c.is.len, c.is.inst, .atom d (sh.n / 4) (acc.sp = .scr) act r.2⟩
          .next ((s1.modGroup c.gid fun g => { g with stuck := some t, pass := false }).land c.gid)

/-- Requests that met BULKHEAD-DOWN: those of an instruction without result are reported later (R73, R314). -/
def State.postDown (s : State) (c : Ctx) (n : Nat) (outs : List (Nat × Piece)) : State :=
  outs.foldl (fun s x =>
    match s.replyOf c x.1 with
    | some .down =>
      let t := s.modGroup c.gid fun g => g.failed (BitVec.ofNat 64 x.2.va) n
      { t with ext := t.ext.map fun (e : ExtReq) => if c.request x.1 = some e.id then { e with reply := some (.ok []) } else e }
    | _ => s) s

/-- An atomic without result (R244). Where it goes to the host or a peer its group waits for the answers, so that a refusal faults its lanes (R375, R380; DESIGN
CHOICE, LOG 138). -/
def atomPosted (hd : Hdr) (acc : Acc) (cls : Ctx → Piece → WClass) (off : Word) (a : Opnd) (sh : Ctx → AtomShape) (s : State) : Out :=
  withIssuer s fun c =>
    let act := c.act hd
    if act = 0 then .next (retire c s)
    else
      let sh := sh c
      let reqs := (lanes act).map fun l => (l, c.addr s.fresh acc.sp off a l)
      atomChecks c act acc sh true reqs s fun ps s =>
        outsideDone c act acc.sp sh.n true reqs (ps.map fun x => x.2) (fun key _ => sh.out ((reqs.getD (key / 32) (0, 0)).1))
            (s.postDown c sh.n (outsidePieces (ps.map fun x => x.2))) fun s =>
          let base := s.serial
          let s1 := ps.foldl (fun t x =>
            match x.2 with
            | p :: _ => if p.outside then t else t.issueAtom c acc (cls c p) x.1 base (s.orderAfter c x.1 (acc.ord ≠ .rlx)) (sh.op x.1) sh.n p
            | [] => t) s
          if ps.any fun x => x.2.any fun p => decide (2 ^ 20 < s1.wick c.l.lid c.core (cls c p)) then stall s
          else .next (retire c ((s1.dropAnswers c).touchPieces c acc.sp acc.col false (ps.flatMap fun x => x.2)))

/-- Operand B of a lane: `n` bytes from register `b`. -/
def Ctx.bVal (c : Ctx) (fresh n b l : Nat) : DWord := c.readReg fresh (n / 4) l ⟨.v, b⟩

/-- ATOM (R243, R244). -/
def execAtom (hd : Hdr) (acc : Acc) (op : AtomOp) (d a : Opnd) (b : Nat) (s : State) : Out :=
  let n := acc.sz.bytes
  atomResult hd acc d a (fun c => ⟨n, op = .add, fun l => .rmw op n (c.bVal s.fresh n b l), fun l => .atom op n (c.bVal s.fresh n b l)⟩) s

/-- ATOMF (R243, R244). -/
def execAtomf (hd : Hdr) (acc : Acc) (op : AtomFOp) (d a : Opnd) (b : Nat) (s : State) : Out :=
  let n := op.size.bytes
  atomResult hd acc d a (fun c => ⟨n, false, fun l => .rmwf op (c.bVal s.fresh n b l), fun l => .atomf op (c.bVal s.fresh n b l)⟩) s

/-- XCHG (R243, R244). -/
def execXchg (hd : Hdr) (acc : Acc) (d a : Opnd) (b : Nat) (s : State) : Out :=
  let n := acc.sz.bytes
  atomResult hd acc d a (fun c => ⟨n, true, fun l => .xchg n (c.bVal s.fresh n b l), fun l => .xchg n (c.bVal s.fresh n b l)⟩) s

/-- CAS (R243, R244): the new value is in the registers after the comparison value. -/
def execCas (hd : Hdr) (acc : Acc) (d a : Opnd) (b : Nat) (s : State) : Out :=
  let n := acc.sz.bytes
  atomResult hd acc d a (fun c =>
    ⟨n, true, fun l => .cas n (c.bVal s.fresh n b l) (c.bVal s.fresh n (b + n / 4) l),
     fun l => .cas n (c.bVal s.fresh n b l) (c.bVal s.fresh n (b + n / 4) l)⟩) s

/-- RED (R243, R244). -/
def execRed (hd : Hdr) (acc : Acc) (op : AtomOp) (a : Opnd) (b : Nat) (s : State) : Out :=
  let n := acc.sz.bytes
  atomPosted hd acc (fun _ _ => .store) 0 a
    (fun c => ⟨n, false, fun l => .rmw op n (c.bVal s.fresh n b l), fun l => .atom op n (c.bVal s.fresh n b l)⟩) s

/-- REDF (R243, R244). -/
def execRedf (hd : Hdr) (acc : Acc) (op : AtomFOp) (a : Opnd) (b : Nat) (s : State) : Out :=
  let n := op.size.bytes
  atomPosted hd acc (fun _ _ => .store) 0 a
    (fun c => ⟨n, false, fun l => .rmwf op (c.bVal s.fresh n b l), fun l => .atomf op (c.bVal s.fresh n b l)⟩) s

/-- The delay of one lane in core cycles (R245): its count, base and cap. -/
def backoffDelay (core gi lane base cap n : Nat) : Nat :=
  let span := base * 2 ^ min n cap
  let h := (((core * 32 + gi) * 64 + lane) * 0x9E3779B1 + n * 0x85EBCA6B) % 2 ^ 32
  if span = 0 then 0 else span + h % span

/-- BACKOFF (R245). -/
def execBackoff (hd : Hdr) (d : Opnd) (base cap : Nat) (s : State) : Out :=
  withIssuer s fun c =>
    let act := c.act hd
    let n (l : Nat) : Nat := (c.readReg s.fresh 1 l d).toNat % 2 ^ 32
    let delay := ((lanes act).map fun l => backoffDelay c.core c.gid.gi l base cap (n l)).foldl max 0
    let s1 := s.modGroup c.gid fun g =>
      c.writeLanes s.fresh (some (d, 1)) (fun l => { d := BitVec.ofNat 64 (min (n l + 1) 0xFFFFFFFF) }) (lanes act)
        (if delay = 0 then g else { g with pause := some delay })
    .next (retire c s1)

end Sys2Proof.Machine
end

