-- ==== Sys2Proof/Machine/Chain.lean ====
section
/-! DEFINITION. Copy chains as the engine runs them (04, R103 to R122): reading an entry, staging units, control entries, stops, and
completion. -/

namespace Sys2Proof.Machine

/-- Run a copy-chain entry for the chain whose turn it is. -/
def withChain (s : State) (f : Chain → Block → Launch → Out) : Out :=
  match s.engine with
  | none => .fault .noEngine
  | some id =>
    match s.chain? id with
    | none => .fault .noEngine
    | some k =>
      match s.block? k.gid.lid k.gid.blk, s.launch? k.gid.lid with
      | some b, some l => f k b l
      | _, _ => .fault .noEngine

/-! ### Accesses of a chain -/

/-- A global address, or a scratch address, of the engine (R111). -/
def chainAddr (scr : Bool) (a : Int) : Nat := (a % (if scr then 2 ^ 32 else 2 ^ 64)).toNat

/-- Pages that a CANCEL answer has refused for the unit being run again (R316, R119). -/
def Chain.cancelled (k : Chain) : List Nat :=
  match k.stuck with
  | some (.replay _ _ xs) => xs
  | _ => []

/-- The storage errors that a chain can meet: not those of words and sealed lines that a write of its own in flight rewrites whole (R28, R95, R121). -/
def State.healed (s : State) (id : Nat) : State :=
  let whole (lo n : Nat) : Bool := s.pend.any fun q =>
    q.src = .chain id && q.ext.isNone && (match q.op with | .bytes bs => decide (q.pa ≤ lo) && decide (lo + n ≤ q.pa + bs.length) | _ => false)
  { s with eccBad := s.eccBad.filter fun x => !whole x 4, tagBad := s.tagBad.filter fun l => !whole (l * 128) 128 }

/-- The check of one access of a chain (R111, R115). -/
def State.chainCheck (s : State) (k : Chain) (b : Block) (l : Launch) (scr write reads atom : Bool) (a n : Nat) : Except Fail (List Piece) :=
  let s := s.healed k.id
  if scr then
    if a + n ≤ b.scratch then
      if reads && s.badWord (b.scratchPa a) n then .error .unc else .ok [{ va := a, pa := b.scratchPa a, len := n }]
    else .error .bounds
  else s.checkGlobal .copy (some k.core) l.part l.world (bulkOf k.core) k.cancelled write reads atom a n
    (match k.stuck with | some (.ext _) => true | _ => false)

/-- Stop the chain (R117). -/
def stopChain (k : Chain) (cause addr : Nat) (info : DWord) (s : State) : Out :=
  .next (s.modChain k.id fun x => x.halt cause (BitVec.ofNat 64 addr) info)

/-- Scratch offset of the chain's present entry. -/
def Chain.offset (k : Chain) : Nat := k.base + 32 * k.entry

/-- Stop with ILLEGAL: the failing address is the entry's offset (R118). -/
def illegalChain (k : Chain) (s : State) : Out := stopChain k Cause.illegal k.offset (chainInfo 0 0 false 0 k.entry) s

/-- A walk of a chain's access has met an uncorrectable word: its bulkhead fences itself (R70). -/
def State.chainWalk (s : State) (k : Chain) (l : Launch) (a n : Nat) (f : Fail) : State :=
  if f = .page 4 then (cutPages a n).foldl (fun s x => s.noteWalk l.part (bulkOf k.core) (x.1 % 2 ^ 64)) s else s

/-- An access of `n` bytes at `a` fails: NOTPRESENT parks a chain whose faults can be replayed at its unit (R119), anything else stops it. -/
def chainFail (k : Chain) (l : Launch) (scr write : Bool) (a n : Nat) (f : Fail) (s : State) : Out :=
  let s := s.chainWalk k l a n f
  let kind := match f with | .page x => x | _ => 0
  let stop := stopChain k f.cause a (chainInfo (if scr then 1 else 0) (Nat.log2 n) write kind k.entry) s
  if f = .page 0 && l.rcd.flags.getLsbD 1 && s.fqEnabled l.world then
    let pages := (cutPages a n).map fun x => x.1 % 2 ^ 64
    if pages.any fun x => k.cancelled.contains (x / 4096) then stop
    else
      match pages.find? fun x => match s.translate (some k.core) l.part (bulkOf k.core) x with | .error 0 => true | _ => false with
      | some x => .next (s.modChain k.id fun y => { y with stuck := some (.replay [⟨x, write, s.now⟩] [] []), ahead := [] })
      | none => stop
  else stop

/-- The uncorrectable word that an access of a chain has met. -/
def State.chainWord (s : State) (k : Chain) (b : Block) (l : Launch) (scr : Bool) (a n : Nat) : Option Nat :=
  let pa := if scr then some (b.scratchPa a)
    else match s.translate (some k.core) l.part (bulkOf k.core) a with | .ok (pa, _) => some pa | .error _ => none
  pa.bind fun pa => (s.healed k.id).eccBad.find? fun x => decide (x + 4 > pa) && decide (x < pa + n)

/-- A chain has consumed an uncorrectable word: the bulkhead that stores it fences itself (R32, R70). -/
def fencedChain (o : Out) (word : Option Nat) : Out :=
  match o, word with
  | .next s, some x => .next (s.fenceWord x 0xFFFF 0xFF)
  | o, _ => o

/-- Does the access read or partly cover a sealed line whose tag is wrong (R122)? -/
def State.tagWrong (s : State) (ps : List Piece) : Bool :=
  ps.any fun p => s.isSealed p.pa && (linesOf p.pa p.len).any fun l => s.tagBad.contains l

/-- The answer to the request that a chain has sent. -/
def State.chainReply (s : State) (k : Chain) : Option (Nat × Option ExtReply) :=
  match k.stuck with
  | some (.ext ((_, id) :: _)) => (s.ext.find? fun e => e.id = id).map fun e => (id, e.reply)
  | _ => none

/-- Cut a transfer at its single-copy-atomic units: the aligned 4-byte words wholly inside it, other bytes one by one (R77). -/
def cutWords (pa n : Nat) : List (Nat × Nat) :=
  let lo := min ((pa + 3) / 4 * 4) (pa + n)
  let hi := max lo ((pa + n) / 4 * 4)
  ((List.range (lo - pa)).map fun i => (pa + i, 1)) ++ ((List.range ((hi - lo) / 4)).map fun i => (lo + 4 * i, 4)) ++
  ((List.range (pa + n - hi)).map fun i => (hi + i, 1))

/-- What a chain reads of a piece: the units that it has read ahead as they were then, the others now; a semaphore's value at one instant (R77). -/
def State.chainBytes (s : State) (k : Chain) (atom : Bool) (p : Piece) : Option (List Byte) :=
  let own (w : Writer) : Bool := w = .chain k.id
  if k.ahead.isEmpty || atom then s.readBytes own 1023 p.pa p.len
  else
    (cutWords p.pa p.len).foldr (fun c r =>
      let x := match k.ahead.find? fun e => e.1 = c.1 && e.2.length = c.2 with
        | some e => some e.2
        | none => s.readBytes own 1023 c.1 c.2
      match x, r with
      | some u, some v => some (u ++ v)
      | _, _ => none) (some [])

/-- Read [a, a + n), which lies in one 128 B block: the bytes with their physical addresses, once they can be had. A read of the host or a
peer is sent and waited for (R375, R378). -/
def chainRead (k : Chain) (b : Block) (l : Launch) (scr col atom : Bool) (a n : Nat) (s : State)
    (f : List (Nat × Byte) → State → Out) : Out :=
  match s.chainCheck k b l scr false true atom a n with
  | .error e => if e = .unc then fencedChain (chainFail k l scr false a n e s) (s.chainWord k b l scr a n) else chainFail k l scr false a n e s
  | .ok ps =>
    if (s.healed k.id).tagWrong ps then stopChain k Cause.integrity a (chainInfo (if scr then 1 else 0) (Nat.log2 n) false 0 k.entry) s
    else
      match ps.find? Piece.outside with
      | some p =>
        match s.chainReply k with
        | none =>
          .next ((s.send l.part l.world p.pa (.read p.len)).modChain k.id fun y => { y with stuck := some (.ext [(0, s.serial)]) })
        | some (_, none) => stall s
        | some (id, some r) =>
          let s1 := { s with ext := s.ext.filter fun e => e.id ≠ id }
          match r with
          | .ok bs => f ((List.range n).zip ((bs ++ List.replicate n 0).take n) |>.map fun e => (p.pa + e.1, e.2)) s1
          | .ownership => chainFail k l scr false a n .own s1
          | .down => chainFail k l scr false a n .down s1
      | none =>
        let parts := ps.map fun p => ((s.chainBytes k atom p).map fun bs =>
          (List.range p.len).zip bs |>.map fun e => (p.pa + e.1, e.2))
        if parts.any fun x => x.isNone then stall s
        else
          let s1 := ps.foldl (fun s p => s.scrub p.pa p.len) s
          let s2 := if scr then s1.useArrays k.core col false [(a, n)] else ps.foldl (fun s p => s.cache k.core l.part p.va) s1
          f (parts.flatMap fun x => x.getD []) s2

/-- Check the destination runs of a unit (R111, R117): every run before any byte is written. -/
def chainDests (k : Chain) (b : Block) (l : Launch) (scr : Bool) (s : State) : List (Nat × Nat) → Except (Nat × Nat × Fail) (List Piece)
  | [] => .ok []
  | (a, n) :: ds =>
    match s.chainCheck k b l scr true false false a n with
    | .error e => .error (a, n, e)
    | .ok ps =>
      match chainDests k b l scr s ds with
      | .ok qs => .ok (ps ++ qs)
      | e => e

/-- Copy in the order of R111, each byte read before it is written: the bytes for each destination, where a byte written earlier in the unit is
read back. -/
def copyBytes : List (Nat × Byte) → List Nat → List (Nat × Byte)
  | (_, v) :: xs, d :: ds => (d, v) :: copyBytes (xs.map fun e => if e.1 = d then (e.1, v) else e) ds
  | _, _ => []

/-- The writes that a run of a chain's destination makes: a sealed line that it covers whole is one write, with its tag (R121). -/
def chainCuts (sealing : Bool) (pa n : Nat) : List (Nat × Nat) :=
  if sealing then (cutLines n pa n).flatMap fun c => if c.2 = 128 then [c] else cutWords c.1 c.2 else cutWords pa n

/-- Put the writes of a unit in flight, each with the index of its entry (R73, R77, R131); those of one line are one transaction (R53). -/
def State.chainWrites (s : State) (k : Chain) (l : Launch) : List Piece → List Byte → State
  | [], _ => s
  | p :: ps, bs =>
    let src := Writer.chain k.id
    let mine := bs.take p.len
    let txn := s.serial
    let s1 :=
      if p.outside then s.sendWrite l.part l.world src l.lid k.core .chain p.va p.pa (.bytes mine) (.write mine) false k.entry
      else
        (chainCuts (s.isSealed p.pa) p.pa p.len).foldl (fun s c =>
          let o := c.1 - p.pa
          s.issue src l.lid k.core .chain (p.va + o) c.1 (.bytes ((mine.drop o).take c.2)) (s.sameBytes src false c.1 c.2) false [] k.entry (some txn)) s
    State.chainWrites s1 k l ps (bs.drop p.len)

/-- May the engine issue the writes to the given runs, for this launch on its core (R131)? -/
def State.chainRoom (s : State) (k : Chain) (runs : List (Nat × Nat)) : Bool :=
  decide (s.wick k.gid.lid k.core .chain + (runs.map fun r => (cutWords r.1 r.2).length).sum ≤ 2 ^ 20)

/-- Does a piece of a write partly cover a sealed line whose tag is wrong (R117, R122)? -/
def State.tagSpoilt (s : State) (p : Piece) : Bool :=
  s.isSealed p.pa && (cutLines p.len p.pa p.len).any fun c => c.2 ≠ 128 && s.tagBad.contains (lineOf c.1)

/-- Check the destination of a unit (R111, R117, R122), then write. -/
def chainPut (k : Chain) (b : Block) (l : Launch) (scr : Bool) (runs : List (Nat × Nat)) (s : State) (f : List Piece → Out) : Out :=
  match chainDests k b l scr s runs with
  | .error (a, m, e) => chainFail k l scr true a m e s
  | .ok ps =>
    match ps.find? (s.healed k.id).tagSpoilt with
    | some p => stopChain k Cause.integrity p.va (chainInfo (if scr then 1 else 0) (Nat.log2 p.len) true 0 k.entry) s
    | none => f ps

/-! ### Position -/

/-- Go on at another entry. -/
def Chain.goto (k : Chain) (e : Nat) : Chain := { k with entry := e, unit := 0, ent := none, idx := 0, stuck := none, ahead := [] }

def gotoEntry (k : Chain) (e : Nat) (s : State) : Out := .next (s.modChain k.id fun x => x.goto e)

/-- Row and block of the present staging unit. -/
def Chain.row (k : Chain) : Nat := k.unit / 2 ^ 32
def Chain.part (k : Chain) : Nat := k.unit % 2 ^ 32

/-- The unit is done: the next block of the row, the next row, or the next entry. -/
def unitDone (k : Chain) (rows start n : Nat) (s : State) : Out :=
  if (k.part + 1) * 128 < start % 128 + n then .next (s.modChain k.id fun x => { x with unit := x.unit + 1, stuck := none, ahead := [] })
  else if k.row + 1 < rows then .next (s.modChain k.id fun x => { x with unit := (x.row + 1) * 2 ^ 32, stuck := none, ahead := [] })
  else gotoEntry k (k.entry + 1) s

/-- The bytes [lo, hi) of a row of `n` bytes from `start` that lie in its 128 B block number `part` (R112). -/
def blockRange (start n part : Nat) : Nat × Nat :=
  (if part = 0 then 0 else 128 * part - start % 128, min n (128 * (part + 1) - start % 128))

/-- One staging unit of a copy (R111), each of its scratch sides one transfer (R112): of a row of `n` bytes at source `sa`, the block `k.part`; `dst` gives the destination runs of the
bytes [lo, hi) of the row. -/
def copyUnit (k : Chain) (b : Block) (l : Launch) (h : CHdr) (rows sa n : Nat) (dst : Nat → Nat → List (Nat × Nat)) (s : State) : Out :=
  let (lo, hi) := blockRange sa n k.part
  if !s.chainRoom k (dst lo hi) then stall s
  else
    chainRead k b l h.ssp h.so false (chainAddr h.ssp (sa + lo)) (hi - lo) s fun bytes s =>
      chainPut k b l h.dsp (dst lo hi) s fun ps =>
        let out := copyBytes bytes (ps.flatMap fun p => (List.range p.len).map fun i => p.pa + i)
        let s1 := s.chainWrites k l ps (out.map fun e => e.2)
        let s2 := if h.dsp then s1.useArrays k.core h.dor false (dst lo hi) else ps.foldl (fun s p => s.cache k.core l.part p.va) s1
        unitDone k rows sa n s2

/-- CHAIN_COPY1D (R111). -/
def execChainCopy1d (h : CHdr) (len : Nat) (src dst : DWord) (s : State) : Out :=
  withChain s fun k b l =>
    if len = 0 then gotoEntry k (k.entry + 1) s
    else copyUnit k b l h 1 src.toNat len (fun lo hi => [(chainAddr h.dsp (dst.toNat + lo), hi - lo)]) s

/-- Destination runs of the bytes [lo, hi) of row `i` of a COPY2D: one run, or one for each element when transposing (R111). -/
def copy2dRuns (h : CHdr) (dst : Nat) (ds : Int) (i lo hi : Nat) : List (Nat × Nat) :=
  let e := h.elem
  if h.tr then
    (List.range ((hi - 1) / e + 1 - lo / e)).map fun x =>
      let j := lo / e + x
      let f := max lo (j * e)
      (chainAddr h.dsp ((dst : Int) + j * ds + i * e + (f - j * e : Nat)), min hi (j * e + e) - f)
  else [(chainAddr h.dsp ((dst : Int) + i * ds + lo), hi - lo)]

/-- CHAIN_COPY2D (R111). -/
def execChainCopy2d (h : CHdr) (rows rowBytes : Nat) (sstride dstride : Word) (src dst : DWord) (s : State) : Out :=
  withChain s fun k b l =>
    if rows = 0 || rowBytes = 0 then gotoEntry k (k.entry + 1) s
    else
      copyUnit k b l h rows (chainAddr h.ssp ((src.toNat : Int) + k.row * sstride.toInt)) rowBytes
        (copy2dRuns h dst.toNat dstride.toInt k.row) s

/-- Read the index of the present row, once (R111). -/
def withIndex (k : Chain) (b : Block) (l : Launch) (idxOff : Nat) (s : State) (f : Nat → State → Out) : Out :=
  if k.part ≠ 0 || (match k.stuck with | some _ => true | none => false) then f k.idx s
  else
    chainRead k b l true false false (chainAddr true (idxOff + 4 * k.row : Nat)) 4 s fun bs s =>
      let i := ofBytes (bs.map fun e => e.2)
      f i (s.modChain k.id fun x => { x with idx := i })

/-- CHAIN_GATHER (R111). -/
def execChainGather (h : CHdr) (count rowBytes idxOff tstride : Nat) (src dst : DWord) (s : State) : Out :=
  withChain s fun k b l =>
    if count = 0 || rowBytes = 0 then gotoEntry k (k.entry + 1) s
    else
      withIndex k b l idxOff s fun i s =>
        copyUnit k b l h count (chainAddr h.ssp (src.toNat + i * tstride)) rowBytes
          (fun lo hi => [(chainAddr h.dsp (dst.toNat + k.row * rowBytes + lo), hi - lo)]) s

/-- CHAIN_SCATTER (R111). -/
def execChainScatter (h : CHdr) (count rowBytes idxOff tstride : Nat) (src dst : DWord) (s : State) : Out :=
  withChain s fun k b l =>
    if count = 0 || rowBytes = 0 then gotoEntry k (k.entry + 1) s
    else
      withIndex k b l idxOff s fun i s =>
        copyUnit k b l h count (chainAddr h.ssp (src.toNat + k.row * rowBytes)) rowBytes
          (fun lo hi => [(chainAddr h.dsp (dst.toNat + i * tstride + lo), hi - lo)]) s

/-- CHAIN_FILL (R111, R112): units are 128 B blocks of destination. -/
def execChainFill (h : CHdr) (count : Nat) (value dst : DWord) (s : State) : Out :=
  withChain s fun k b l =>
    let e := h.elem
    let n := count * e
    let da := chainAddr h.dsp dst.toNat
    if n = 0 then gotoEntry k (k.entry + 1) s
    else
      let (lo, hi) := blockRange da n k.part
      let a := chainAddr h.dsp (da + lo : Nat)
      if !s.chainRoom k [(a, hi - lo)] then stall s
      else
      chainPut k b l h.dsp [(a, hi - lo)] s fun ps =>
        let bs := (List.range (hi - lo)).map fun i => BitVec.ofNat 8 (field value.toNat (8 * ((lo + i) % e)) 8)
        let s1 := s.chainWrites k l ps bs
        let s2 := if h.dsp then s1.useArrays k.core h.dor false [(a, hi - lo)] else ps.foldl (fun s p => s.cache k.core l.part p.va) s1
        unitDone k 1 da n s2

/-- CHAIN_LOOP (R113). -/
def execChainLoop (count back : Nat) (s : State) : Out :=
  withChain s fun k _ _ =>
    let e := k.entry
    let go (loops : List (Nat × Nat)) (t : Nat) : Out := .next (s.modChain k.id fun x => { x.goto t with loops := loops })
    if back = 0 || e < back then illegalChain k s
    else
      match k.loops.dropWhile fun p => p.1 ≠ e with
      | (_, rem) :: rest => if rem = 0 then go rest (e + 1) else go ((e, rem - 1) :: rest) (e - back)
      | [] =>
        if count = 0 then go k.loops (e + 1)
        else if 2 ≤ k.loops.length then illegalChain k s
        else go ((e, count - 1) :: k.loops) (e - back)

/-- The checks that IFSEM and SIGNAL make of their semaphore (R115): alignment first; a sealed page fails with OWNERSHIP. -/
def semAlign (k : Chain) (scr write : Bool) (a : Nat) (s : State) (f : Out) : Out :=
  if a % 8 ≠ 0 then stopChain k Cause.align a (chainInfo (if scr then 1 else 0) 3 write 0 k.entry) s else f

/-- IFSEM (R114). -/
def execIfsem (h : CHdr) (op : SemCmp) (skip : Nat) (value addr : DWord) (s : State) : Out :=
  withChain s fun k b l =>
    let a := chainAddr h.ssp addr.toNat
    semAlign k h.ssp false a s <|
      chainRead k b l h.ssp false true a 8 s fun bs s =>
        let m := BitVec.ofNat 64 (ofBytes (bs.map fun e => e.2))
        gotoEntry k (k.entry + 1 + (if semTest op m value then 0 else skip)) s

/-- CHAIN_SIGNAL (R115, R131, R132). -/
def execChainSignal (scr wick : Bool) (addend addr : DWord) (s : State) : Out :=
  withChain s fun k b l =>
    if wick then
      let h := (look 0 l.holds k.core : Nat) + addend.toInt
      if h < 0 || 2 ^ 20 ≤ h then illegalChain k s
      else gotoEntry k (k.entry + 1) (s.modLaunch l.lid fun x => { x with holds := put x.holds k.core h.toNat })
    else
      let a := chainAddr scr addr.toNat
      semAlign k scr true a s <|
        match s.chainCheck k b l scr true true true a 8 with
        | .error f =>
          if f = .unc then fencedChain (chainFail k l scr true a 8 f s) (s.chainWord k b l scr a 8) else chainFail k l scr true a 8 f s
        | .ok ps =>
          let src := Writer.chain k.id
          if !s.chainRoom k [(a, 4)] || s.pend.any (fun p => p.src = src && (p.ext.isSome || ps.any Piece.outside)) then stall s
          else
            match ps with
            | [] => gotoEntry k (k.entry + 1) s
            | p :: _ =>
              let s1 :=
                if p.outside then s.sendWrite l.part l.world src l.lid k.core .chain p.va p.pa (.sem .add addend) (.sem .add addend) false k.entry
                else s.issue src l.lid k.core .chain p.va p.pa (.sem .add addend) (s.ownWrites src) false [] k.entry
              gotoEntry k (k.entry + 1) (if scr then s1.useArrays k.core false false [(a, 8)] else s1.cache k.core l.part p.va)

/-- CHAIN_END (R116). -/
def execChainEnd (s : State) : Out :=
  withChain s fun k _ _ => .next (s.modChain k.id fun x => { x with ended := true, ent := none, stuck := none })

/-- CHAIN_COMPLETION (R104): a chain whose writes have reached their T_c retires, with those issued before it that can. -/
def execChainCompletion (id : Nat) (s : State) : Out :=
  match s.chain? id with
  | none => .next s
  | some k => .next (if s.chainDone k then s.retireChains k.gid else s)

/-! ### Reading entries -/

/-- What reading the chain's present entry leads to. -/
inductive EntryRead where
  | done (o : Out)
  | entry (i : Instr) (s : State)

/-- Do writes that the issuing lanes made before CPCHAIN, or earlier entries of the chain, still touch the entry (R95)? -/
def State.entryOwed (s : State) (k : Chain) (pa : Nat) : Bool :=
  s.pend.any fun p => match p.src with
    | .chain id => id = k.id && p.touches pa 32
    | .thread g x => g = k.gid && decide (p.id < k.id) && (inMask k.lanes x || (decide (64 ≤ x) && inMask k.lanes (x - 64))) && p.touches pa 32
    | _ => false

/-- Read the entry of a chain, once (R95, R110). -/
def State.readEntry (s : State) (k : Chain) (b : Block) : EntryRead :=
  let o := k.offset
  let pa := b.scratchPa o
  let info := chainInfo 1 5 false 0 k.entry
  match k.ent with
  | some e =>
    match decodeEntry e.toNat with
    | some i => .entry i s
    | none => .done (illegalChain k s)
  | none =>
    if b.scratch < o + 32 then .done (stopChain k Cause.bounds o info s)
    else if s.entryOwed k pa then .done (stall s)
    else if s.badWord pa 32 then
      .done (fencedChain (stopChain k Cause.uncorrectable o info s) (s.eccBad.find? fun x => decide (x + 4 > pa) && decide (x < pa + 32)))
    else
      match s.readBytes (fun _ => false) 1022 pa 32 with
      | none => .done (stall s)
      | some bs =>
        let e := BitVec.ofNat 256 (ofBytes bs)
        let s1 := ({ s.scrub pa 32 with arrays := SMap.set s.arrays k.core (SMap.get s.arrays k.core + 1) } : State).modChain k.id fun x =>
          { x with ent := some e }
        match decodeEntry e.toNat with
        | some i => .entry i s1
        | none => .done (illegalChain k s1)

/-- May a chain run a unit, its turn aside (R105)? It is one of the 16 oldest of its core that have not ended or stopped, and waits for nothing. -/
def State.chainRuns (s : State) (k : Chain) : Bool :=
  let busy := (s.chains.filter fun x => x.core = k.core && !x.ended && x.stop.isNone).take 16
  busy.any (fun x => x.id = k.id) &&
  (match k.stuck with
   | some (.replay owed recs _) => owed.isEmpty && recs.isEmpty
   | _ => true)

end Sys2Proof.Machine
end

