-- ==== Sys2Proof/Machine/Homes.lean ====
section
/-! DEFINITION. Events at the homes of lines (01, R33 to R46). -/

namespace Sys2Proof.Machine

/-- In replay mode the homes of a partition take requesters in a fixed order and add no delay of their own (R370). -/
def State.replayDelay (s : State) (p : Pend) (delay : Nat) : Nat :=
  if (s.pendPart p).any fun q => s.parts.any fun x => x.id = q && x.replayOn.isSome then 0 else delay

/-- STORE_ARRIVAL (R36): the home of a write assigns its T_c, at least `delay` ns from now. -/
def execStoreArrival (id delay : Nat) (s : State) : Out :=
  match s.pend? id with
  | none => .next s
  | some p => .next (if s.mayArrive p then s.reach p (s.replayDelay p delay) else s)

/-- WRITE_COMPLETION (R36): at its T_c, and after the writes before it at its line, a write performs; its wick counter falls (R131). -/
def execWriteCompletion (id : Nat) (s : State) : Out :=
  match s.pend? id with
  | none => .next s
  | some p => .next (if s.mayPerform p then s.completeWrite p else s)

/-- The partition that holds a core. -/
def State.partOfCore (s : State) (core : Nat) : Option Partition := s.parts.find? fun p => p.bulks.contains (bulkOf core)

/-- FILL (R35, R37, R43): the home of a line serves a core a fill with a lease of up to `dur` ns; or, once L_max has passed and no write waits
there, gives it ownership of the line. Either takes room in the core's lease cache (R33). -/
def execFill (core line dur : Nat) (own : Bool) (s : State) : Out :=
  match s.partOfCore core with
  | none => .next s
  | some p =>
    if !s.cacheable core p.id (line * 128) then .next s
    else if own then
      .next (if s.lineFree line && !(s.leases.any fun l => l.line = line && l.owned) && decide (((s.wayMates core line).filter fun l => l.owned).length < 16) then
          let s := s.evict core line
          { s with leases := ⟨core, line, s.now, true, none⟩ :: s.leases.filter fun l => l.line ≠ line }
        else s)
    else .next (s.fillLine core line dur)

/-- LEASE_EXPIRY (R34): a lease can be used no longer from 2 ns before its end. -/
def execLeaseExpiry (core line : Nat) (s : State) : Out :=
  .next { s with leases := s.leases.filter fun l => !(l.core = core && l.line = line && !l.owned && l.par.isNone && decide (l.tEnd ≤ s.now + 2)) }

/-- OWNERSHIP_RECALL (R43): the core gives the line up; its value is at the home already (R44). -/
def execOwnershipRecall (core line : Nat) (s : State) : Out :=
  .next { s with leases := s.leases.filter fun l => !(l.core = core && l.line = line && l.owned) }

end Sys2Proof.Machine
end

