-- ==== Sys2Proof/Machine/Object.lean ====
section
/-! DEFINITION. Code objects (07, R201 to R203; R339, R340), code hashes and galley keys (R326, R327). -/

namespace Sys2Proof.Machine

/-- A directory entry (Table 07-12). -/
structure Section where
  id : Nat
  off : Nat
  size : Nat
deriving DecidableEq, Repr

/-- `n` bytes at `o` of a string of bytes, as a number. -/
def at_ (bs : List Byte) (o n : Nat) : Nat := ofBytes ((bs.drop o).take n)

/-- Alignment of a section (Table 07-13); 0 for no section. -/
def sectionAlign : Nat → Nat
  | 1 | 2 => 8 | 3 | 8 => 4 | 4 | 5 => 16 | 6 => 1 | 7 => 4096 | _ => 0

/-- The directory, when the header and every entry keep R201. -/
def parseDirectory (hdr dir : List Byte) : Option (List Section) :=
  let n := at_ hdr 6 2
  let ver := at_ hdr 4 2
  let secs : List Section := (List.range n).map fun i => ⟨at_ dir (16 * i) 2, at_ dir (16 * i + 4) 4, at_ dir (16 * i + 8) 4⟩
  let reserved := (List.range n).all fun i => at_ dir (16 * i + 2) 2 = 0 && at_ dir (16 * i + 12) 4 = 0
  let overlap (a b : Section) : Bool := a.size ≠ 0 && b.size ≠ 0 && decide (a.off < b.off + b.size) && decide (b.off < a.off + a.size)
  let apart := secs.all fun a => secs.all fun b => a.id = b.id || !overlap a b
  let body := secs.all fun a => a.size = 0 || decide (16 + 16 * n ≤ a.off)
  if at_ hdr 0 4 = 0x50415250 && (ver = 0x0100 || ver = 0x0101) && decide (1 ≤ n ∧ n ≤ 16) && decide (at_ hdr 8 4 ≤ 1) && at_ hdr 12 4 = 0 &&
      reserved && (secs.map fun x => x.id).Nodup && apart && body && secs.all fun a => sectionAlign a.id ≠ 0 && a.off % sectionAlign a.id = 0
  then some secs else none

/-- A section's bytes, or none of it. -/
def sectionOf (secs : List (Section × List Byte)) (id : Nat) : List Byte :=
  match secs.find? fun x => x.1.id = id with
  | some x => x.2
  | none => []

/-- Is there a name at an offset of STRINGS: does a zero byte follow? -/
def nameAt (strs : List Byte) (o : Nat) : Bool := (strs.drop o).any fun b => b = 0

/-- Does the 64-byte kernel entry at `o` keep R202 and R203? TRAPH and EMULH must be multiples of 8, as ENTRY must (DESIGN CHOICE, LOG 124). -/
def kernelOk (text kern args strs : List Byte) (o : Nat) : Bool :=
  let f (x n : Nat) : Nat := at_ kern (o + x) n
  let pc (x : Nat) : Bool := x % 8 = 0 && decide (x < text.length)
  let handler (x : Nat) : Bool := x = 0xFFFFFFFF || pc x
  let mine := (List.range (f 0x1C 4)).map fun i => 16 * (f 0x18 4 + i)
  let top := mine.foldl (fun m a => max m (at_ args (a + 4) 4 + at_ args (a + 8) 4)) 0
  let depth (n : Nat) : Nat := if bit (f 0x26 2) n then f (0x28 + n) 1 + 1 else 0
  let total := ((List.range 16).map depth).sum
  nameAt strs (f 0 4) && pc (f 4 4) && handler (f 8 4) && handler (f 0xC 4) && decide (f 0x10 4 ≤ 1966080) && f 0x14 4 = top &&
  decide (f 0x14 4 ≤ 0x8000) && decide (16 * (f 0x18 4 + f 0x1C 4) ≤ args.length) && decide (1 ≤ f 0x24 2 ∧ f 0x24 2 ≤ 3) &&
  ((List.range 16).all fun n => bit (f 0x26 2) n || f (0x28 + n) 1 = 0) && f 0x38 8 = 0 &&
  (!bit (f 0x24 2) 0 || decide (total * 32 * 4 ≤ 65536)) && (!bit (f 0x24 2) 1 || decide (total * 64 * 4 ≤ 65536))

/-- Do the sections keep R201 to R203 and R339? -/
def sectionsOk (secs : List (Section × List Byte)) : Bool :=
  let text := sectionOf secs 1
  let kern := sectionOf secs 2
  let args := sectionOf secs 3
  let strs := sectionOf secs 6
  let hints := sectionOf secs 8
  let n := kern.length / 64
  text.length % 8 = 0 && decide (text.length ≤ 0xFFFFFFF8) && decide (0 < n) && kern.length % 64 = 0 && args.length % 16 = 0 &&
  decide ((sectionOf secs 4).length ≤ 32768) && hints.length % 8 = 0 && (strs.isEmpty || strs.getLastD 1 = 0) &&
  ((List.range (args.length / 16)).all fun i => nameAt strs (at_ args (16 * i) 4) && at_ args (16 * i + 12) 4 = 0) &&
  ((List.range n).all fun i => kernelOk text kern args strs (64 * i)) &&
  ((List.range (hints.length / 8)).all fun i =>
    let k := at_ hints (8 * i) 2
    let cnt := at_ kern (64 * k + 0x1C) 4
    decide (k < n) && decide (at_ hints (8 * i + 2) 2 < cnt) && decide (at_ hints (8 * i + 4) 2 < cnt) && at_ hints (8 * i + 6) 2 = 0)

/-- The kernel entry of a valid object (Table 07-14). -/
def kernelAt (kern : List Byte) (o : Nat) : Kernel :=
  let f (x n : Nat) : Nat := at_ kern (o + x) n
  { entry := BitVec.ofNat 32 (f 4 4), traph := BitVec.ofNat 32 (f 8 4), emulh := BitVec.ofNat 32 (f 0xC 4), scratch := f 0x10 4,
    argSize := f 0x14 4, mode := BitVec.ofNat 32 (f 0x20 4), widths := f 0x24 2,
    queues := ((List.range 16).filter fun n => bit (f 0x26 2) n).map fun n => (n, f (0x28 + n) 1 + 1) }

/-- The bytes that the code hash digests (R326): FLAGS, then every section but GALLEYS in ascending ID, each after its ID and SIZE. -/
def hashInput (flags : Nat) (secs : List (Section × List Byte)) : List Byte :=
  toBytes 4 flags ++ [1, 2, 3, 4, 5, 6, 8].flatMap fun id =>
    match secs.find? fun x => x.1.id = id with
    | some x => toBytes 4 id ++ toBytes 4 x.1.size ++ x.2
    | none => []

/-- The 8-byte words of TEXT. -/
def textWords (bs : List Byte) : List DWord := (List.range (bs.length / 8)).map fun i => BitVec.ofNat 64 (at_ bs (8 * i) 8)

/-- Every section of an object, read through `rd`. -/
def readSections (rd : Nat → Nat → Option (List Byte)) : List Section → Option (List (Section × List Byte))
  | [] => some []
  | x :: xs =>
    match rd x.off x.size, readSections rd xs with
    | some b, some r => some ((x, b) :: r)
    | _, _ => none

/-- Read and validate an object whose bytes `rd` gives, for its kernel `kent` (R203, R299); with it the bytes of its GALLEYS section. -/
def parseObject (rd : Nat → Nat → Option (List Byte)) (kent : Nat) : Option (Object × List Byte) :=
  match rd 0 16 with
  | none => none
  | some hdr =>
    match rd 16 (16 * min 16 (at_ hdr 6 2)) with
    | none => none
    | some dir =>
      match parseDirectory hdr dir with
      | none => none
      | some ds =>
        match readSections rd ds with
        | none => none
        | some secs =>
          let kern := sectionOf secs 2
          if sectionsOk secs && decide (64 * kent < kern.length) then
            some ({ version := at_ hdr 4 2, isPublic := bit (at_ hdr 8 4) 0, text := textWords (sectionOf secs 1), const := sectionOf secs 4,
                    kernel := kernelAt kern (64 * kent), kent := kent, hash := hashInput (at_ hdr 8 4) secs }, sectionOf secs 7)
          else none

/-- What the dispatcher reads of an object for a LAUNCH: the kernel entry, through the header and the directory (R296). -/
def readKernel (rd : Nat → Nat → Option (List Byte)) (kent : Nat) : Option Kernel :=
  match (rd 0 16).bind fun hdr => rd 16 (16 * min 16 (at_ hdr 6 2)) with
  | none => none
  | some dir =>
    let secs := (List.range (dir.length / 16)).map fun i => (⟨at_ dir (16 * i) 2, at_ dir (16 * i + 4) 4, at_ dir (16 * i + 8) 4⟩ : Section)
    match secs.find? fun x => x.id = 2 && decide (64 * kent + 64 ≤ x.size) with
    | none => none
    | some x => (rd (x.off + 64 * kent) 64).map fun bs => kernelAt bs 0

/-- The runs of bytes that reading a whole object reads: header, directory, sections. -/
def objectRuns (rd : Nat → Nat → Option (List Byte)) : List (Nat × Nat) :=
  match rd 0 16 with
  | none => []
  | some hdr =>
    let n := min 16 (at_ hdr 6 2)
    match rd 16 (16 * n) with
    | none => [(0, 16)]
    | some dir => (0, 16 + 16 * n) :: (List.range n).map fun i => (at_ dir (16 * i + 4) 4, at_ dir (16 * i + 8) 4)

/-! ### Keys -/

/-- DEVMODE of R326 for a world, without safe mode: replay mode (R370), debug right (R355). -/
def State.devmode (s : State) (x : World) : Nat :=
  b2n (match s.part? x.part with | some p => p.replay | none => false) + 2 * b2n x.granted

/-- The key of a kernel at a width and a mode word (R327); safe mode is part of it once the kernel's key is marked safe (R336). -/
def State.keyOf (s : State) (x : World) (o : Object) (w64 : Bool) (mode : Nat) : GalleyKey :=
  let mode := (startMode o.version (BitVec.ofNat 32 mode)).toNat
  let k : GalleyKey :=
    { code := o.hash, devmode := s.devmode x, kent := o.kent, w64 := w64, mode := mode,
      part := if o.isPublic then none else some x.part, world := if x.conf then some x.w else none }
  if s.safeKeys.contains k then { k with devmode := k.devmode + 4 } else k

/-- The galley of a key: the newest of them (R331). -/
def State.findGalley (s : State) (k : GalleyKey) : Option Galley := s.galleys.find? fun g => g.key = k

/-- The device hash of a key (R326). -/
def deviceHash (devmode : Nat) : List Byte :=
  (sha384 (toBytes 4 Config.stepping ++ toBytes 4 Config.trver ++ toBytes 4 devmode ++ toBytes 4 0)).take 32

/-- The code hash of an object. -/
def Object.codeHash (o : Object) : List Byte := (sha384 o.hash).take 32

/-- Install a galley: the newest of its key; one count more in every world (R329, R331). A galley that no launch has bound and that another
replaces goes (R330), but for the one that a re-optimised galley replaces. -/
def State.installGalley (s : State) (k : GalleyKey) (resid : Nat) (safe reopt : Bool) : State :=
  let kept := if reopt then (s.findGalley k).map fun g => g.id else none
  let old (g : Galley) : Bool := g.key = k && !(s.launches.any fun l => l.galley = g.id || l.safe = some g.id) && kept ≠ some g.id
  let n := match s.galleys.find? fun g => g.key = k with | some g => g.gen + 1 | none => 1
  { s with
    galleys := ⟨s.serial, k, max 1 (min 32 resid), safe, reopt, n, false, [], s.now⟩ :: s.galleys.filter fun g => !old g
    serial := s.serial + 1
    worlds := s.worlds.map fun x =>
      { x with gens := ((k, (match x.gens.find? fun e => e.1 = k with | some e => e.2 | none => 0) + 1) :: x.gens.filter fun e => e.1 ≠ k) } }

end Sys2Proof.Machine
end

