-- ==== Sys2Proof/Machine/Place.lean ====
section
/-! DEFINITION. Placing blocks on cores (06, R153, R155; 01, R14, R19, R20; 11, R301). -/

namespace Sys2Proof

/-! ### Shape of a launch -/

def LaunchRec.threads (r : LaunchRec) : Nat := r.bx * r.byy * r.bz
def LaunchRec.w64 (r : LaunchRec) : Bool := r.flags.getLsbD 0
def LaunchRec.beacon (r : LaunchRec) : Bool := r.flags.getLsbD 2
def LaunchRec.prio (r : LaunchRec) : Nat := field r.flags.toNat 6 2

end Sys2Proof

namespace Sys2Proof.Machine

def Launch.width (l : Launch) : Nat := if l.w64 then 64 else 32

/-- Groups of one block (R153). -/
def groupCount (threads width : Nat) : Nat := (threads + width - 1) / width

/-- Squares of a block's scratch (R19). -/
def squareCount (scratch : Nat) : Nat := (scratch + 4095) / 4096

/-- Bytes of a block's queues (R128). -/
def queueBytes (qs : List (Nat × Nat)) (width : Nat) : Nat := (qs.map fun q => q.2).sum * width * 4

/-- Bytes for queues in a core's reserved squares: what R128 allows one block (LOG 34). -/
def queueArea : Nat := 65536

/-! ### Room (R155) -/

/-- The lowest run of `n` free squares (R19; the lowest of several is a DESIGN CHOICE, LOG 122), of which those in `used` (first square, count) are taken. -/
def freeSquares (used : List (Nat × Nat)) (n : Nat) : Option Nat :=
  (List.range (Config.squares + 1 - n)).find? fun q => used.all fun u => decide (u.1 + u.2 ≤ q) || decide (q + n ≤ u.1) || u.2 = 0

/-- Local slots of a core that are free, at most `n` of them (R14). -/
def freeSlots (used : List Nat) (n : Nat) : List Nat := ((List.range 2048).filter fun i => !used.contains i).take n

/-- The first square for a block of a launch on a core with room for it; none without room. The residency limit counts the groups that run the
same galley (LOG 33). -/
def State.room (s : State) (l : Launch) (core : Nat) : Option Nat :=
  let bs := s.blocks.filter fun b => b.core = core
  let gs := s.groups.filter fun g => bs.any fun b => b.lid = g.gid.lid && b.idx = g.gid.blk
  let mine := gs.filter fun g => match s.launch? g.gid.lid with | some k => k.galley = l.galley | none => false
  let ng := groupCount l.rcd.threads l.width
  let qb := (bs.map fun b => queueBytes (b.queues.map fun q => (q.n, q.depth))
    (match s.launch? b.lid with | some k => k.width | none => 64)).sum
  let running := match s.bulk? (bulkOf core) with | some x => x.st = .running | none => false
  if running && decide (bs.length < 16) && decide (gs.length + ng ≤ 32) && decide (mine.length + ng ≤ l.resid) &&
      decide (qb + queueBytes l.obj.kernel.queues l.width ≤ queueArea) &&
      (freeSlots (bs.flatMap fun b => b.slots) l.rcd.threads).length = l.rcd.threads
  then freeSquares (bs.map fun b => (b.square, squareCount b.scratch)) (squareCount l.rcd.scratch)
  else none

/-- Blocks of a launch that one empty core holds (R296). -/
def emptyCap (r : LaunchRec) (k : Kernel) (resid : Nat) : Nat :=
  let w := if r.w64 then 64 else 32
  let ng := groupCount r.threads w
  let sq := squareCount r.scratch
  let qb := queueBytes k.queues w
  if ng = 0 then 0
  else min (min 16 (min (32 / ng) (resid / ng))) (min (if sq = 0 then 16 else Config.squares / sq) (if qb = 0 then 16 else queueArea / qb))

/-- The cores of a partition in ascending order. -/
def Partition.cores (p : Partition) : List Nat := p.bulks.flatMap fun b => (List.range 32).map fun k => b * 32 + k

/-- The first core with room at or after the cursor, wrapping (R301), with the first square. -/
def State.findCore (s : State) (p : Partition) (l : Launch) : Option (Nat × Nat) :=
  let cs := p.cores
  ((cs.filter fun k => decide (p.cursor ≤ k)) ++ cs.filter fun k => decide (k < p.cursor)).findSome? fun k =>
    (s.room l k).map fun q => (k, q)

/-! ### Placing -/

/-- %fpm at block start (R140, R341). -/
def Launch.fpm (l : Launch) : Word := startMode l.obj.version (l.rcd.mode.setWidth 32)

/-- A group at block start (R153): every register is zero, one fragment at the kernel's entry. -/
def newGroup (l : Launch) (blk gi : Nat) : Group :=
  let w := l.width
  let ts := (List.range w).filter fun i => decide (gi * w + i < l.rcd.threads)
  let m := maskOf ts
  { gid := ⟨l.lid, blk, gi⟩, v := [], s := [], h := [], p := [], sc := [], fpm := l.fpm, fpst := [], rets := [], live := m,
    tids := ts.map fun i => (i, gi * w + i), frags := [mkFrag l.obj.kernel.entry m], colls := [], arrived := 0, mats := [], olds := [],
    frame := { cause := 0, inst := 0, mask := 0, pc := 0, addr := [], info := 0 }, handler := none, err := none, pause := none,
    qwait := false, covers := [], strongT := [], ahead := [], freed := [], stop := none, pass := false, stopNext := none, stuck := none, safe := l.safe.isSome }

/-- Physical base of a local slot of a core for a world (R14). -/
def World.slotBase (x : World) (core slot : Nat) : Nat :=
  (match x.areas.find? fun a => a.bulk = bulkOf core with | none => 0 | some a => a.base) + core % 32 * 0x3000000 + slot * 0x4000

/-- Put the next block of a launch on a core: squares, queues and local slots are given out, the slots' written bits clear, the clear of its
squares begins (R14, R19, R20, R155). The 2 ms of the launch's next block count from here (R301; DESIGN CHOICE, LOG 131). -/
def State.placeBlock (s : State) (l : Launch) (core square : Nat) : State :=
  let w := l.width
  let slots := freeSlots ((s.blocks.filter fun b => b.core = core).flatMap fun b => b.slots) l.rcd.threads
  let b : Block :=
    { lid := l.lid, idx := l.nextBlk, core := core, square := square, scratch := l.rcd.scratch, clearing := true,
      queues := l.obj.kernel.queues.map fun q => ⟨q.1, q.2, []⟩, stalled := [], phases := [], slots := slots, saved := [] }
  let gs := (List.range (groupCount l.rcd.threads w)).map fun gi => newGroup l l.nextBlk gi
  let bases := match s.world? l.world with | none => [] | some x => slots.map fun t => x.slotBase core t / 128
  let s1 := { s with
    blocks := s.blocks ++ [b]
    groups := s.groups ++ gs
    rr := s.rr ++ gs.map fun (g : Group) => g.gid
    written := s.written.filter fun x => !(bases.any fun a => decide (a ≤ x) && decide (x < a + 128)) }
  (s1.modLaunch l.lid fun x => { x with nextBlk := x.nextBlk + 1, waited := if x.waited < 2000000 then 0 else x.waited }).modPart l.part
    fun p => { p with cursor := core + 1 }

/-- Does a launch have blocks that are not placed yet? -/
def Launch.waits (l : Launch) : Bool := l.status = .running && decide (l.nextBlk < l.rcd.blocks)

/-- The eff of a launch (R301). -/
def Launch.eff (l : Launch) : Nat := if 2000000 ≤ l.waited then 4 else match l.lvl with | some n => n | none => l.rcd.prio

/-- Place the first waiting block of a launch, if some core has room. -/
def State.placeOne (s : State) (lid : Nat) : Option State :=
  match s.launch? lid with
  | none => none
  | some l =>
    if !l.waits then none
    else
      match s.part? l.part with
      | none => none
      | some p => (s.findCore p l).map fun c => s.placeBlock l c.1 c.2

/-- Place the blocks of one launch in linear order until one does not fit. -/
def State.placeAll (s : State) (lid : Nat) : Nat → State
  | 0 => s
  | n + 1 => match s.placeOne lid with | none => s | some s' => State.placeAll s' lid n

/-- More blocks than any partition holds. -/
def maxBlocks : Nat := 768 * 16

/-- The waiting launches of a world in order of eff, then of start. -/
def State.waiters (s : State) (w : Nat) : List Launch :=
  let ls := s.launches.filter fun l => l.world = w && l.waits
  [4, 3, 2, 1, 0].flatMap fun e => ls.filter fun l => l.eff = e

/-- One pass over the waiting launches: each places one block if it fits; nothing passes a launch of eff 4 that does not fit (R301). -/
def State.placePass (s : State) : List Launch → State × Bool
  | [] => (s, false)
  | l :: ls =>
    match s.placeOne l.lid with
    | some s' => ((State.placePass s' ls).1, true)
    | none => if l.eff = 4 then (s, false) else State.placePass s ls

def State.placePasses (s : State) (w : Nat) : Nat → State
  | 0 => s
  | n + 1 =>
    match s.placePass (s.waiters w) with
    | (s', true) => State.placePasses s' w n
    | (_, false) => s

/-! ### Scheduled worlds -/

/-- Is it the world's frame, in a partition whose rails are on (R300, R383)? -/
def State.inFrame (s : State) (x : World) : Bool :=
  match s.part? x.part with
  | none => false
  | some p => (match p.phase with | .frame _ w _ _ => w = x.w | _ => false) && !p.gated

/-- Does the dispatcher serve the world: in its frame, not halted or saved (R300, R321)? -/
def State.serves (s : State) (x : World) : Bool := s.inFrame x && !x.busy && x.ctx.isNone && !x.hostSaved && !x.torn

/-- The world in whose frame a partition is. -/
def State.current (s : State) (p : Partition) : Option World :=
  match p.phase with
  | .frame _ w _ _ => s.world? w
  | _ => none

/-- BLOCK_PLACEMENT (R301). -/
def execBlockPlacement (part : Nat) (s : State) : Out :=
  match s.part? part with
  | none => .next s
  | some p =>
    match s.current p with
    | none => .next s
    | some x => .next (if s.serves x then s.placePasses x.w maxBlocks else s)

/-- BLOCK_CLEAR_COMPLETE (R20): once no write to the block's squares is in flight any more, every byte of them is zero and its groups may issue. The clear
checks every word that it passes (R27): a single-bit error is counted (R31), an uncorrectable word fences the bulkhead (R70). Nothing is written in a bulkhead
that is FENCED (R72). -/
def execBlockClearComplete (lid blk : Nat) (s : State) : Out :=
  match s.block? lid blk with
  | none => .next s
  | some b =>
    let lo := b.scratchPa 0
    let hi := lo + squareCount b.scratch * 4096
    if !b.clearing || s.isDown (bulkOf b.core) || s.pend.any (fun p => p.touches lo (hi - lo)) then .next s
    else
      let inside (a : Nat) : Bool := decide (lo ≤ a) && decide (a < hi)
      let s0 := s.scrub lo (hi - lo)
      let s1 := { s0 with mem := Memory.zero s0.mem inside, eccBad := s0.eccBad.filter fun a => !inside a }.modBlock lid blk
        fun b => { b with clearing := false }
      .next (match s.eccBad.find? inside with
        | some x => s1.fenceWord x b.core 0xFF
        | none => s1)

end Sys2Proof.Machine
end

