-- ==== Sys2Proof/Machine/Command.lean ====
section
/-! DEFINITION. Command queues, the dispatcher's commands, launch checks and launch start, the imposition table, the device queue (11). -/

namespace Sys2Proof.Machine

/-! ### Queue registers (Table 11-1) -/

def World.qSize (x : World) (lvl : Nat) : Nat := 2 ^ ringLog (x.fieldOf (rQCTL lvl) 0 5) 4 16
def World.qHead (x : World) (lvl : Nat) : Nat := x.fieldOf (rQHEAD lvl) 0 16
def World.qTail (x : World) (lvl : Nat) : Nat := x.fieldOf (rQTAIL lvl) 0 16
def World.qEn (x : World) (lvl : Nat) : Bool := bit (x.reg (rQCTL lvl)).toNat 8
def World.qStop (x : World) (lvl : Nat) : Bool := bit (x.reg (rQCTL lvl)).toNat 9

/-- Commands between HEAD and TAIL. -/
def World.qLeft (x : World) (lvl : Nat) : Nat := (x.qTail lvl + x.qSize lvl - x.qHead lvl) % x.qSize lvl

/-- The queue has a command at its head that the dispatcher may take (R292, R293). -/
def World.qOpen (x : World) (lvl : Nat) : Bool := x.qEn lvl && !x.qStop lvl && x.qLeft lvl ≠ 0

/-- Does the host link still carry writes that the host made before its last TAIL write (R293)? The dispatcher reads the queue, and what commands name,
behind them. -/
def State.hostOwes (s : State) (x : World) : Bool := s.pend.any fun p => p.src = .host x.w && decide (p.id < x.tailAt)

/-- The 1,024 bits at a queue's head, read under the host-function row (R292). -/
def State.headEntry (s : State) (x : World) (lvl : Nat) : Except Fail Nat :=
  match s.agentRead .host x.part x.w ((x.reg (rQ lvl)).toNat / 128 * 128 % 2 ^ 52 + 128 * x.qHead lvl) 128 with
  | .error f => .error f
  | .ok bs => .ok (ofBytes bs)

/-- A BARRIER that reaches the head of its queue records the TAIL of each queue it names (Table 11-3). -/
def State.noteHead (s : State) (w lvl : Nat) : State :=
  match s.world? w with
  | none => s
  | some x =>
    if !x.qOpen lvl || s.hostOwes x || x.barriers.any (fun b => b.lvl = lvl) then s
    else
      match s.headEntry x lvl with
      | .error _ => s
      | .ok e =>
        match decodeCommand e with
        | some (.cmdBarrier m) =>
          let tails := ((List.range 4).filter fun n => m.getLsbD n && n ≠ lvl).map fun n => (n, look 0 x.taken n + x.qLeft n)
          s.modWorld w fun x => { x with barriers := ⟨lvl, tails⟩ :: x.barriers }
        | _ => s

/-- Every BARRIER that has come to the head of its queue, the host's writes having landed, records the TAILs (R293, Table 11-3). -/
def State.noteHeads (s : State) : State :=
  s.worlds.foldl (fun s (x : World) => (List.range 4).foldl (fun s lvl => s.noteHead x.w lvl) s) s

/-- HEAD passes one command. -/
def State.passHead (s : State) (w lvl : Nat) : State :=
  (s.modWorld w fun x =>
    { (x.setField (rQHEAD lvl) 0 16 ((x.qHead lvl + 1) % x.qSize lvl)) with
      taken := put x.taken lvl (look 0 x.taken lvl + 1), ready := put x.ready lvl 0,
      barriers := x.barriers.filter fun b => b.lvl ≠ lvl }).noteHead w lvl

/-- The queue stops at QHEAD with a code of Table 11-4. -/
def State.stopQueue (s : State) (w lvl code : Nat) : State :=
  s.modWorld w fun x =>
    { ((x.setField (rQCTL lvl) 9 1 1).setField (rQCTL lvl) 16 8 code) with ready := put x.ready lvl 0 }

/-- Run a queue command. -/
def withCmd (s : State) (f : World → Nat → Out) : Out :=
  match s.cmd with
  | none => .fault .noCommand
  | some t =>
    match s.world? t.world with
    | none => .fault .noCommand
    | some x => f x t.lvl

/-! ### Semaphores of the dispatcher -/

/-- Error code of a semaphore access that fails (Table 11-4); a word that cannot be corrected counts as BULKHEAD-DOWN (LOG 35). -/
def semCode (f : Fail) : Nat := match f with | .down => 4 | .unc => 4 | _ => 3

/-- The check of a semaphore address: a code of Table 11-4 or none. A launch's semaphore may hold an uncorrectable word. -/
def State.semCheck (s : State) (x : World) (addr : Nat) : Option Nat :=
  if addr % 8 ≠ 0 then some 3
  else
    match s.checkGlobal .host none x.part x.w (agentSource .host x.part x.w) [] true true false addr 8 with
    | .ok ps => if ps.any Piece.outside then some 3 else none
    | .error .unc => none
    | .error f => some (semCode f)

/-- Record the failure of a completion, rejection or abort semaphore write (Table 11-7). -/
def State.semFailed (s : State) (w cause tag addr : Nat) : State :=
  s.modWorld w fun x =>
    if bit (x.reg rSEMFAIL).toNat 0 then x.setField rSEMFAIL 16 16 (min 0xFFFF (x.fieldOf rSEMFAIL 16 16 + 1))
    else
      (x.setReg rSEMFAIL (BitVec.ofNat 64 (1 + cause * 2 ^ 8 + 2 ^ 16 + tag * 2 ^ 32))).setReg rSEMFAILADDR (BitVec.ofNat 64 (addr % 2 ^ 52))

/-- Write a completion, rejection or abort semaphore (R296, R304, R305); none while its line is not free. -/
def State.writeSem (s : State) (part w addr : Nat) (val : DWord) (tag : Nat) : Option State :=
  match s.agentWrite .host part w addr (toBytes 8 val.toNat) with
  | none => none
  | some (.ok s') => some s'
  | some (.error f) => some ((s.fenceAgent .host part w addr 8).semFailed w f.cause tag addr)

/-- SEMVAL OR 0x8000_0000_0000_0000. -/
def abortVal (v : DWord) : DWord := v ||| BitVec.ofNat 64 (2 ^ 63)

/-! ### Launch checks (R296, Table 11-4) -/

/-- What taking a launch record leads to. -/
inductive Verdict where
  | stop (code : Nat)
  | reject (code : Nat)
  | translate (k : GalleyKey)
  | hold
  | start (b : Bound) (g : Galley) (dom : Option Nat)

/-- The first check of codes 0x11 to 0x16 that a record fails against its kernel. -/
def recordCode (r : LaunchRec) (k : Kernel) : Option Nat :=
  let w := if r.w64 then 64 else 32
  let lo := r.mode.toNat % 2 ^ 32
  if r.rsvd || r.flags.getLsbD 5 || 2 ^ 32 ≤ r.mode.toNat || r.semVal.getLsbD 63 then some 0x11
  else if !bit k.widths (b2n r.w64) then some 0x12
  else if r.blocks = 0 || r.threads = 0 || 32 * w < r.threads then some 0x13
  else if 1966080 < r.scratch || r.scratch < k.scratch then some 0x14
  else if 0x8000 < r.argSize || r.argSize < k.argSize || (r.argSize ≠ 0 && r.argPtr.toNat % 16 ≠ 0) then some 0x15
  else if bit lo 7 || 2 ^ 12 ≤ lo then some 0x16
  else none

/-- The first check of codes 0x17 to 0x1A that it fails, once the galley is known. -/
def State.fitCode (s : State) (r : LaunchRec) (k : Kernel) (g : Galley) (p : Partition) : Option Nat :=
  let cap := emptyCap r k g.resid
  if cap = 0 || (r.beacon && decide (cap * p.cores.length < r.blocks)) then some 0x17
  else if (r.flags.getLsbD 3 && k.traph = noHandler) || (r.flags.getLsbD 4 && k.emulh = noHandler) then some 0x18
  else if r.dumpSize ≠ 0 && r.dumpAddr.toNat % 64 ≠ 0 then some 0x19
  else if r.beacon && p.bulks.any (fun b => match s.bulk? b with | some x => x.st ≠ .running | none => true) then some 0x1A
  else none

/-- Add a started launch (R299, R359): it binds the entry and the galley, takes the next tag, and claims its beacon domain, which opens at
step 0 (Table 04-5). -/
def State.addLaunch (s : State) (x : World) (lvl : Option Nat) (num : Nat) (r : LaunchRec) (b : Bound) (g : Galley) (dom : Option Nat) : State :=
  let l : Launch :=
    { lid := s.serial, tag := x.nextTag, world := x.w, part := x.part, lvl := lvl, cmd := num, rcd := r, obj := b.obj, data := b.ent.data,
      galley := g.id, resid := g.resid, w64 := r.w64, start := s.now, watch := 0, nextBlk := 0, waited := 0, dom := dom, holds := [],
      failed := false, safe := none, status := .running }
  let s1 := { s with launches := s.launches ++ [l], serial := s.serial + 1,
                     galleys := { g with used := true } :: s.galleys.filter fun e => e.id ≠ g.id }
  let s2 := s1.modWorld x.w fun x =>
    { x with nextTag := (x.nextTag + 1) % 65536, modes := put x.modes r.kidx (r.mode.setWidth 32) }
  match dom with
  | none => s2
  | some d => s2.modPart x.part fun p =>
      { p with doms := p.doms.map fun e =>
          if e.idx = d then { e.freed with holder := some l.lid, st := .opened } else e }

/-- Does a waiting launch of eff 4 hold back the blocks of a new launch (R301)? -/
def State.barred (s : State) (w : Nat) : Bool := (s.waiters w).any fun l => l.eff = 4

/-- Start a launch and place what fits: its blocks in their turn among those that wait; those of a launch with a beacon domain in one step, after the waiting
blocks that fit (R301). -/
def State.startLaunch (s : State) (x : World) (lvl : Option Nat) (num : Nat) (r : LaunchRec) (b : Bound) (g : Galley) (dom : Option Nat) : State :=
  if r.beacon then ((s.placePasses x.w maxBlocks).addLaunch x lvl num r b g dom).placeAll s.serial maxBlocks
  else (s.addLaunch x lvl num r b g dom).placePasses x.w maxBlocks

/-- Does every block of a launch with a beacon domain have room at once (R123), when the waiting blocks that fit are placed? -/
def State.fitsWhole (s : State) (x : World) (r : LaunchRec) (b : Bound) (g : Galley) : Bool :=
  let s := s.placePasses x.w maxBlocks
  !s.barred x.w &&
  (match ((s.addLaunch x none 0 r b g none).placeAll s.serial maxBlocks).launch? s.serial with
   | some l => !l.waits
   | none => false)

/-- Are the local areas of a world still to be written under R69 (R14)? -/
def State.areasOwed (s : State) (x : World) : Bool :=
  s.changes.any fun c => x.areas.any fun a => decide (c.page < (a.base + Config.localAreaBytes) / 4096) && decide (a.base / 4096 < c.page + c.count)

/-- A valid imposition entry as a LAUNCH finds it: the dispatcher reads the kernel entry that it names (R296); where that cannot be read, it is as REPLACE
found it (LOG 53). -/
def State.boundNow (s : State) (x : World) (b : Bound) : Bound :=
  let rd (o n : Nat) : Option (List Byte) := match s.agentRead .host x.part x.w ((b.ent.obj.toNat + o) % 2 ^ 64) n with
    | .ok bs => some bs
    | .error _ => none
  match readKernel rd b.ent.kent with
  | some k => { b with obj := { b.obj with kernel := k } }
  | none => b

/-- What reading the kernel entry does besides: single-bit errors are corrected (R31), an uncorrectable word fences its bulkhead (R70). -/
def State.touchBound (s : State) (x : World) (r : LaunchRec) : State :=
  match x.imp.find? fun e => e.1 = r.kidx with
  | none => s
  | some (_, b) =>
    let va (o : Nat) : Nat := (b.ent.obj.toNat + o) % 2 ^ 64
    let rd (o n : Nat) : Option (List Byte) := match s.agentRead .host x.part x.w (va o) n with
      | .ok bs => some bs
      | .error _ => none
    let ent := match (rd 0 16).bind fun hdr => rd 16 (16 * min 16 (at_ hdr 6 2)) with
      | none => []
      | some dir => ((List.range (dir.length / 16)).filter fun i => at_ dir (16 * i) 2 = 2 && decide (64 * b.ent.kent + 64 ≤ at_ dir (16 * i + 8) 4)).take 1
          |>.map fun i => (at_ dir (16 * i + 4) 4 + 64 * b.ent.kent, 64)
    let dirs := match rd 0 16 with | none => [] | some hdr => [(16, 16 * min 16 (at_ hdr 6 2))]
    ((0, 16) :: dirs ++ ent).foldl (fun s e => (s.agentTouch .host x.part x.w (va e.1) e.2).fenceAgent .host x.part x.w (va e.1) e.2) s

/-- Judge a launch record of a world (R296, R300, R328, R123, R71). -/
def State.judge (s : State) (x : World) (r : LaunchRec) : Verdict :=
  match s.semCheck x r.semAddr.toNat with
  | some c => .stop c
  | none =>
    match (x.imp.find? fun e => e.1 = r.kidx), s.part? x.part with
    | some (_, b0), some p =>
      let b := s.boundNow x b0
      match recordCode r b.obj.kernel with
      | some c => .reject c
      | none =>
        let k := s.keyOf x b.obj r.w64 r.mode.toNat
        match s.findGalley k with
        | none => .translate k
        | some g =>
          match s.fitCode r b.obj.kernel g p with
          | some c => .reject c
          | none =>
            if p.bulks.any (fun i => match s.bulk? i with | some y => y.st ≠ .running | none => true) || s.areasOwed x then .hold
            else if !r.beacon then .start b g none
            else
              match p.doms.find? fun d => d.holder.isNone with
              | none => .hold
              | some d => if s.fitsWhole x r b g then .start b g (some d.idx) else .hold
    | _, _ => .reject 0x10

/-- Begin the translation for a key, once (R328). -/
def State.startTranslation (s : State) (w kidx : Nat) (k : GalleyKey) : State :=
  if s.translating.contains (w, kidx, k) then s else { s with translating := s.translating ++ [(w, kidx, k)] }

/-! ### Commands -/

/-- CMD_LAUNCH (R294 to R296). -/
def execCmdLaunch (r : LaunchRec) (s : State) : Out :=
  withCmd s fun x lvl =>
    let t := s.touchBound x r
    match s.judge x r with
    | .stop c => .next (s.stopQueue x.w lvl c)
    | .reject c =>
      match t.writeSem x.part x.w r.semAddr.toNat (abortVal r.semVal) 0xFFFF with
      | none => .next t
      | some s1 => .next ((s1.modWorld x.w fun x => x.setField (rQCTL lvl) 16 8 c).passHead x.w lvl)
    | .translate k => .next (s.startTranslation x.w r.kidx k)
    | .hold => .next s
    | .start b g d => .next ((t.startLaunch x (some lvl) (look 0 x.taken lvl) r b g d).passHead x.w lvl)

/-- The value of a semaphore at its home, or an error code. -/
def State.readSem (s : State) (x : World) (addr : Nat) : Except Nat DWord :=
  if addr % 8 ≠ 0 then .error 3
  else
    match s.agentRead .host x.part x.w addr 8 with
    | .error f => .error (semCode f)
    | .ok bs => .ok (BitVec.ofNat 64 (ofBytes bs))

/-- The error of a semaphore access stops the queue; an aligned read that met an uncorrectable word has fenced its bulkhead (R32). -/
def State.semStopped (s : State) (x : World) (lvl addr code : Nat) : State :=
  (if addr % 8 = 0 then s.fenceAgent .host x.part x.w addr 8 else s).stopQueue x.w lvl code

/-- CMD_WAIT (R297). -/
def execCmdWait (op : SemCmp) (addr value : DWord) (s : State) : Out :=
  withCmd s fun x lvl =>
    match s.readSem x addr.toNat with
    | .error c => .next (s.semStopped x lvl addr.toNat c)
    | .ok m =>
      let s := s.agentTouch .host x.part x.w addr.toNat 8
      .next (if semTest op m value then s.passHead x.w lvl else s)

/-- CMD_SIGNAL (R297): one atomic at the home; everything that this dispatcher executed earlier has performed. -/
def execCmdSignal (op : SigOp) (addr value : DWord) (s : State) : Out :=
  withCmd s fun x lvl =>
    match s.readSem x addr.toNat with
    | .error c => .next (s.semStopped x lvl addr.toNat c)
    | .ok m =>
      let s := s.agentTouch .host x.part x.w addr.toNat 8
      match s.agentWrite .host x.part x.w addr.toNat (toBytes 8 (semNew op m value).toNat) with
      | none => .next s
      | some (.error f) => .next ((s.fenceAgent .host x.part x.w addr.toNat 8).stopQueue x.w lvl (semCode f))
      | some (.ok s1) => .next (s1.passHead x.w lvl)

/-- Stamped galleys of a GALLEYS section that a REPLACE admits (R332); `n` bounds their number, `o` is the offset of the next. -/
def State.admitGalleys (s : State) (x : World) (o : Object) (bs : List Byte) : Nat → Nat → State
  | 0, _ => s
  | n + 1, off =>
    let f (a k : Nat) : Nat := at_ bs (off + a) k
    if bs.length < off + 256 || f 0 4 ≠ 0x594C4147 then s
    else
      let len := f 0xC 4
      let next := off + (256 + len + 4095) / 4096 * 4096
      let sub (a k : Nat) : List Byte := (bs.drop (off + a)).take k
      let good := Config.verifies (sub 0x50 96) (sub 0 0x50 ++ sub 256 len)
      let w64 := f 6 2 = 64
      let key := s.keyOf x { o with kent := f 4 2 } w64 (f 8 4)
      let fits := sub 0x30 32 = o.codeHash && sub 0x10 32 = deviceHash key.devmode && (o.isPublic || !x.conf) && (w64 || f 6 2 = 32) &&
        decide (f 8 4 < 2 ^ 12)
      let s1 :=
        if !good then s.ember ((match s.part? x.part with | some p => p.bulks.headD 0 | none => 0)) 0x07 0xFFFF x.w
          (BitVec.ofNat 64 (ofBytes (o.codeHash.take 8)))
        else if fits then s.installGalley key ((Config.freeDWord s.fresh off).toNat % 32 + 1) (decide (4 ≤ key.devmode)) false
        else s
      State.admitGalleys s1 x o bs n next

/-- The galleys that an entry of a world names, at either width (R329, R331). -/
def State.namedKeys (s : State) (x : World) (kidx : Nat) : List GalleyKey :=
  [false, true].filterMap fun w64 => (x.imp.find? fun e => e.1 = kidx).map fun e => s.keyOf x e.2.obj w64 (look 0 x.modes kidx).toNat

/-- Galleys that were discarded at the instant of their installation count in no generation. -/
def World.uncount (y : World) (lost : List GalleyKey) : World :=
  { y with gens := y.gens.map fun (e : GalleyKey × Nat) => (e.1, e.2 - (lost.filter fun k => k = e.1).length) }

/-- A REPLACE takes effect now: re-optimised galleys that the old entry named and that were installed at this instant are discarded, unless a launch has
bound them, and none is installed for it at this instant (R331). -/
def State.swapped (s : State) (x : World) (kidx : Nat) : State :=
  let ks := s.namedKeys x kidx
  let gone (g : Galley) : Bool := g.reopt && g.since = s.now && ks.contains g.key && !(s.launches.any fun l => l.galley = g.id)
  let lost := (s.galleys.filter gone).map fun g => g.key
  let s1 := { s with
    galleys := s.galleys.filter fun g => !gone g
    worlds := s.worlds.map fun (y : World) => y.uncount lost }
  s1.modWorld x.w fun (y : World) => { y with swaps := (s.now, ks ++ (if y.swaps.1 = s.now then y.swaps.2 else [])) }

/-- REPLACE (R298, R299, R332). -/
def execReplace (kidx : Nat) (e : ImpEntry) (s : State) : Out :=
  withCmd s fun x lvl =>
    if !e.valid then
      .next (((s.swapped x kidx).modWorld x.w fun x => { x with imp := x.imp.filter fun b => b.1 ≠ kidx }).passHead x.w lvl)
    else
      let rd (o n : Nat) : Option (List Byte) := match s.agentRead .trans x.part x.w ((e.obj.toNat + o) % 2 ^ 64) n with
        | .ok bs => some bs
        | .error _ => none
      match if e.obj.toNat % 4096 = 0 then parseObject rd e.kent else none with
      | none => .next (s.stopQueue x.w lvl 5)
      | some (o, gs) =>
        let s0 := (objectRuns rd).foldl (fun s r => s.agentTouch .trans x.part x.w ((e.obj.toNat + r.1) % 2 ^ 64) r.2) (s.swapped x kidx)
        let s1 := s0.modWorld x.w fun x => { x with imp := put x.imp kidx ⟨e, o⟩ }
        .next ((s1.admitGalleys x o gs (gs.length / 4096 + 1) 0).passHead x.w lvl)

/-- Is a launch of a level still in flight, among those of its commands before number `n`? -/
def State.openLaunch (s : State) (w lvl : Nat) (n : Option Nat) : Bool :=
  s.launches.any fun l => l.world = w && l.lvl = some lvl && (match n with | none => true | some k => decide (l.cmd < k))

/-- CMD_FENCE (R297). -/
def execCmdFence (s : State) : Out :=
  withCmd s fun x lvl => .next (if s.openLaunch x.w lvl none then s else s.passHead x.w lvl)

/-- Is a recorded BARRIER satisfied? -/
def State.barrierMet (s : State) (x : World) (b : BarrierRec) : Bool :=
  b.tails.all fun t => decide (t.2 ≤ look 0 x.taken t.1) && !s.openLaunch x.w t.1 (some t.2)

/-- CMD_BARRIER (R297). -/
def execCmdBarrier (_mask : BitVec 4) (s : State) : Out :=
  withCmd s fun x lvl =>
    let s1 := s.noteHead x.w lvl
    match s1.world? x.w with
    | none => .next s1
    | some y =>
      match y.barriers.find? fun b => b.lvl = lvl with
      | some b => .next (if s1.barrierMet y b then s1.passHead x.w lvl else s1)
      | none => .next s1

/-- Is a command ready (R294, R300)? One that will stop its queue or be rejected is; so is a launch whose translation has not begun. -/
def State.cmdReady (s : State) (x : World) (lvl : Nat) (i : Instr) : Bool :=
  match i with
  | .cmdLaunch r =>
    match s.judge x r with
    | .translate k => !s.translating.contains (x.w, r.kidx, k)
    | .hold => false
    | _ => true
  | .cmdWait op addr value =>
    match s.readSem x addr.toNat with
    | .error _ => true
    | .ok m => semTest op m value
  | .cmdFence => !s.openLaunch x.w lvl none
  | .cmdBarrier _ => match x.barriers.find? fun b => b.lvl = lvl with | some b => s.barrierMet x b | none => true
  | _ => true

/-- Is the head of a queue ready? An entry that cannot be read or decoded is: taking it stops the queue. -/
def State.headReady (s : State) (x : World) (lvl : Nat) : Bool :=
  x.qOpen lvl && !s.hostOwes x &&
  (match s.headEntry x lvl with
   | .error _ => true
   | .ok e => match decodeCommand e with | none => true | some i => s.cmdReady x lvl i)

/-! ### The device queue (R302) -/

/-- Take the oldest entry of a world out of a device queue. -/
def dropOldest (w : Nat) : List DevEntry → List DevEntry
  | [] => []
  | e :: es => if e.world = w then es else e :: dropOldest w es

/-- The oldest entry of a world. -/
def Partition.oldest (p : Partition) (w : Nat) : Option DevEntry := p.devq.find? fun e => e.world = w

/-- The code of a rejected or discarded device entry goes to DQERR. -/
def World.dqError (x : World) (code : Nat) : World :=
  (x.setField rDQERR 0 8 code).setField rDQERR 16 16 (min 0xFFFF (x.fieldOf rDQERR 16 16 + 1))

/-- DEVICE_QUEUE_ENTRY (R302): the oldest entry of the scheduled world is started, rejected or discarded. -/
def execDeviceQueueEntry (part : Nat) (s : State) : Out :=
  match s.part? part with
  | none => .next s
  | some p =>
    match s.current p with
    | none => .next s
    | some x =>
      match p.oldest x.w with
      | none => .next s
      | some e =>
        if !s.serves x then .next s
        else
          let n := ofBytes e.bytes
          let gone (s : State) : State := s.modPart part fun p => { p with devq := dropOldest x.w p.devq }
          let err (code : Nat) (s : State) : State := (gone s).modWorld x.w fun x => x.dqError code
          if n % 256 ≠ 1 then .next (err 1 s)
          else
            let r := decodeRec n
            let t := s.touchBound x r
            match s.judge x r with
            | .stop c => .next (err c s)
            | .reject c =>
              match t.writeSem x.part x.w r.semAddr.toNat (abortVal r.semVal) 0xFFFF with
              | none => .next t
              | some s1 => .next (err c s1)
            | .translate k => .next (s.startTranslation x.w r.kidx k)
            | .hold => .next s
            | .start b g d => .next (gone (t.startLaunch x none 0 r b g d))

/-- Is the oldest device entry of a world ready? -/
def State.devReady (s : State) (x : World) (e : DevEntry) : Bool :=
  ofBytes e.bytes % 256 ≠ 1 || s.cmdReady x 4 (.cmdLaunch (decodeRec (ofBytes e.bytes)))

end Sys2Proof.Machine
end

