-- ==== Sys2Proof/Machine/Dump.lean ====
section
/-! DEFINITION. The dump of an aborted launch (12, R317 to R320). -/

namespace Sys2Proof.Machine

/-! ### Registers that a kernel names (Table 12-7) -/

/-- Data operands of one or two registers each. -/
def spanAll (w : Bool) (os : List Opnd) : List (Opnd × Nat) := os.map fun o => (o, if w then 2 else 1)

def spanLane : LaneSel → List (Opnd × Nat)
  | .reg o => [(o, 1)]
  | .imm _ => []

def spanV : VDst → Nat → List (Opnd × Nat)
  | .reg o, n => [(o, n)]
  | .pred _, _ => []

/-- The registers an instruction names, each with the number of registers it spans. -/
def regSpans (w64 : Bool) : Instr → List (Opnd × Nat)
  | .brx _ _ a | .callx _ a | .loop _ a _ => [(a, 1)]
  | .waitr _ _ a t => [(a, if w64 then 2 else 1)] ++ (match t with | .imm _ => [] | .reg n => [(⟨.s, n⟩, 1)])
  | .sync _ a => [(a, if w64 then 2 else 1)]
  | .iadd _ t _ d a b | .isub _ t _ d a b | .iaddc _ t _ _ d a b | .imin _ t d a b | .imax _ t d a b | .imul _ t d a b
  | .imulh _ t d a b | .idiv _ t d a b | .irem _ t d a b | .iscadd _ t d a b _ => spanAll t.wide [d, a, b]
  | .ineg _ t _ d a | .iabs _ t _ d a | .iaddi _ t _ d a _ | .imuli _ t d a _ => spanAll t.wide [d, a]
  | .imad _ t d a b c | .isad _ t d a b c => spanAll t.wide [d, a, b, c]
  | .imadw _ _ d a b c => [(d, 2), (a, 1), (b, 1), (c, 2)]
  | .idp4 _ _ _ d a b c | .prmt _ d a b c | .pack _ _ _ d a b c => spanAll false [d, a, b, c]
  | .and _ w d a b | .or _ w d a b | .xor _ w d a b | .andn _ w d a b | .orn _ w d a b | .pick _ w d a b _ => spanAll w [d, a, b]
  | .not _ w d a | .brev _ w d a | .lopi _ _ w d a _ | .mov _ w d a => spanAll w [d, a]
  | .shl _ w d a b | .shr _ w d a b | .sar _ w d a b | .rot _ w d a b => spanAll w [d, a] ++ spanAll false b.srcs
  | .fshl _ w d a b c => spanAll w [d, a, b] ++ [(c, 1)]
  | .bfi _ w d a b c => spanAll w [d, a, b] ++ [(c, 1)]
  | .bfx _ t d a p l => spanAll t.wide [d, a] ++ [(p, 1), (l, 1)]
  | .popc _ w d a | .clz _ w d a | .ctz _ w d a => [(d, 1)] ++ spanAll w [a]
  | .icmp _ _ t _ a b => spanAll t.wide [a, b]
  | .movi _ w d _ => spanAll w [d]
  | .movs _ d r => [(d, r.words w64)]
  | .movp _ f => (match f with | .get d _ => [(d, 1)] | .getAll d => [(d, 1)] | .put _ a => [(a, 1)] | .putAll a => [(a, 1)])
  | .rdreg _ cl d a => [(d, if cl = .h then 2 else 1), (a, 1)]
  | .wrreg _ cl a b => [(a, 1), (b, if cl = .h then 2 else 1)]
  | .cvtf _ dt sf _ _ _ _ d a => [(d, regsF dt), (a, regsF sf)]
  | .cvtfi _ t sf _ d a => spanAll t.wide [d] ++ [(a, regsF sf)]
  | .cvtif _ dt t _ d a => [(d, regsF dt)] ++ spanAll t.wide [a]
  | .unpack _ _ _ _ d a | .frcp _ _ d a | .frsq _ _ d a | .fex2 _ _ d a | .flg2 _ _ d a | .fsinp _ _ d a | .fcosp _ _ d a
  | .ftanh _ _ d a | .fsigm _ _ d a => spanAll false [d, a]
  | .rdmode _ _ d | .rdsc _ d _ | .qstat _ d _ | .cptest _ d _ | .backoff _ d _ _ => [(d, 1)]
  | .wrmode _ _ a | .wrsc _ _ a | .cpchain _ a | .trace _ a _ => [(a, 1)]
  | .addrg _ d _ | .gettime _ _ d | .perfrd _ d _ => [(d, 2)]
  | .fadd _ ft _ d a b | .fsub _ ft _ d a b | .fmul _ ft _ d a b | .fdiv _ ft _ d a b => [(d, regsF ft), (a, regsF ft), (b, regsF ft)]
  | .ffma _ ft _ d a b c => [(d, regsF ft), (a, regsF ft), (b, regsF ft), (c, regsF ft)]
  | .fmin _ ft d a b | .fmax _ ft d a b | .fminm _ ft d a b | .fmaxm _ ft d a b | .fcpys _ ft d a b =>
    [(d, regsF ft), (a, regsF ft), (b, regsF ft)]
  | .fabs _ ft d a | .fneg _ ft d a | .frint _ ft _ _ d a | .fsqrt _ ft _ d a | .hmov _ ft _ _ d a => [(d, regsF ft), (a, regsF ft)]
  | .fcmp _ _ ft _ a b => [(a, regsF ft), (b, regsF ft)]
  | .fclass _ ft d a => [(d, 1), (a, regsF ft)]
  | .fscale _ ft _ d a b => [(d, regsF ft), (a, regsF ft), (b, 1)]
  | .fdot2 _ _ _ d a b c => spanAll false [d, a, b, c]
  | .shfl _ _ w d a b _ => spanAll w [d, a] ++ [(b, 1)]
  | .rdlane _ w d a b => spanAll w [d, a] ++ spanLane b
  | .wrlane _ d a b => [(d, 1), (a, 1)] ++ spanLane b
  | .vote _ _ d _ m => spanV d (if w64 then 2 else 1) ++ [(m, if w64 then 2 else 1)]
  | .matchl _ _ w d a m => spanV d (if w64 then 2 else 1) ++ spanAll w [a] ++ [(m, if w64 then 2 else 1)]
  | .redux _ _ t d a m | .scan _ _ t _ d a m => spanAll t.wide [d, a] ++ [(m, if w64 then 2 else 1)]
  | .fredux _ _ ft _ d a m | .fscan _ _ ft _ _ d a m => [(d, regsF ft), (a, regsF ft), (m, if w64 then 2 else 1)]
  | .elect _ d _ m => [(d, 1), (m, if w64 then 2 else 1)]
  | .ld _ acc _ d a | .st _ acc _ d a | .lds _ acc _ d a | .sts _ acc _ d a | .put _ acc _ d a =>
    [(d, acc.sz.regs), (a, if acc.sp = .glob then 2 else 1)]
  | .ldt _ _ _ d a | .stt _ _ _ d a => [(d, 16), (a, 1)]
  | .pref _ _ _ a => [(a, 2)]
  | .lease _ _ _ d a => [(d, 1), (a, 2)]
  | .szero _ _ _ d a => [(d, 1), (a, 1)]
  | .atom _ acc _ d a b | .atomf _ acc _ d a b | .xchg _ acc d a b =>
    [(d, acc.sz.regs), (a, if acc.sp = .glob then 2 else 1), (⟨.v, b⟩, acc.sz.regs)]
  | .cas _ acc d a b => [(d, acc.sz.regs), (a, if acc.sp = .glob then 2 else 1), (⟨.v, b⟩, 2 * acc.sz.regs)]
  | .red _ acc _ a b | .redf _ acc _ a b => [(a, if acc.sp = .glob then 2 else 1), (⟨.v, b⟩, acc.sz.regs)]
  | .semsig _ _ scr _ _ _ d a | .semwait _ _ scr _ _ _ d a => [(d, 2), (a, if scr then 1 else 2)]
  | .launch _ d a => [(d, 1), (a, 2)]
  | i =>
    ((matRanges w64 i).map fun e => (⟨.v, e.1⟩, e.2)) ++
    (match matOp i with
     | none => []
     | some o => (if o.areg then [] else [(⟨.s, o.a⟩, 2)]) ++ (if o.breg then [] else [(⟨.s, o.b⟩, 2)]))

/-- One above the highest register of a class that any instruction of TEXT names: NV and NS (LOG 36). -/
def topReg (v10 w64 : Bool) (cl : Cls) : Nat → List DWord → Nat
  | m, [] => m
  | m, w :: ws =>
    match decodeWord v10 w64 w.toNat none with
    | .ok i =>
      topReg v10 w64 cl ((regSpans w64 i).foldl (fun m e => if e.1.cls = cl then max m (e.1.n + e.2) else m) m) ws
    | .error _ =>
      match ws with
      | [] => m
      | x :: xs =>
        if field w.toNat 54 10 = 1 then
          match decodeWord v10 w64 x.toNat (some w.toNat) with
          | .ok i => topReg v10 w64 cl ((regSpans w64 i).foldl (fun m e => if e.1.cls = cl then max m (e.1.n + e.2) else m) m) xs
          | .error _ => topReg v10 w64 cl m xs
        else topReg v10 w64 cl m (x :: xs)

/-! ### Records (R319, Table 12-7) -/

/-- A record with its 16-byte header. -/
def dumpRecord (ty blk gi : Nat) (body : List Byte) : List Byte :=
  toBytes 2 ty ++ toBytes 2 0 ++ toBytes 4 (body.length + 16) ++ toBytes 4 blk ++ toBytes 2 gi ++ toBytes 2 0 ++ body

def frameBody (w : Nat) (g : Group) : List Byte :=
  toBytes 4 g.frame.cause.toNat ++ toBytes 4 g.frame.pc.toNat ++ toBytes 16 g.frame.inst.toNat ++ toBytes 8 g.frame.mask.toNat ++
  toBytes 8 g.frame.info.toNat ++ (List.range w).flatMap fun l => toBytes 8 (SMap.get g.frame.addr l).toNat

/-- Is a group parked for replay at a fragment (R316)? -/
def Group.replayAt (g : Group) (f : Frag) : Bool :=
  match g.stuck with
  | some ⟨pc, m, _, _, .replay _ _ _⟩ => f.pc = pc && f.park.isNone && f.mask &&& m ≠ 0
  | _ => false

def fragsBody (g : Group) : List Byte :=
  toBytes 4 g.frags.length ++ toBytes 4 0 ++ g.frags.flatMap fun (f : Frag) =>
    toBytes 4 f.pc.toNat ++ toBytes 4 (b2n f.park.isSome + 2 * b2n (f.mask &&& g.hlanes ≠ 0) + 4 * b2n (g.replayAt f)) ++
    toBytes 8 f.mask.toNat

def regsBody (w nv ns : Nat) (g : Group) : List Byte :=
  let ls := List.range w
  toBytes 4 nv ++ toBytes 4 ns ++
  ((List.range nv).flatMap fun r => ls.flatMap fun l => toBytes 4 (SMap.get g.v (r * 64 + l)).toNat) ++
  ((List.range ns).flatMap fun r => toBytes 4 (SMap.get g.s r).toNat) ++
  (ls.map fun l => BitVec.ofNat 8 (g.predByte l)) ++
  ((List.range 8).flatMap fun r => ls.flatMap fun l => toBytes 8 (SMap.get g.h (r * 64 + l)).toNat) ++
  ((List.range 16).flatMap fun r => toBytes 4 (SMap.get g.sc r).toNat) ++ toBytes 4 g.fpm.toNat ++
  (ls.flatMap fun l => toBytes 4 (SMap.get g.fpst l).toNat) ++
  ls.flatMap fun l => toBytes 4 (look [] g.rets l).length ++ (look [] g.rets l).flatMap fun (x : Word) => toBytes 4 x.toNat

def queuesBody (w : Nat) (b : Block) : List Byte :=
  b.queues.flatMap fun (q : Queue) => toBytes 1 q.n ++ toBytes 3 0 ++ toBytes 4 q.entries.length ++
    q.entries.flatMap fun e => (List.range w).flatMap fun l => toBytes 4 (SMap.get e l).toNat

/-- The scratch of a block as the dump and the saved context hold it: the data of an uncorrectable word is never delivered (R32), and its bytes are a free value
(DESIGN CHOICE, LOG 134). -/
def State.scratchBytes (s : State) (b : Block) : List Byte :=
  let lo := b.scratchPa 0
  let bytes := Memory.read s.mem lo b.scratch
  if s.badWord lo b.scratch then
    (List.range b.scratch).zip bytes |>.map fun e => if s.badWord (lo + e.1) 1 then (Config.freeDWord s.fresh (lo + e.1)).setWidth 8 else e.2
  else bytes

/-- Reading a block's scratch whole: single-bit errors are corrected (R31), an uncorrectable word fences its bulkhead (R70). -/
def State.readScratch (s : State) (b : Block) : State :=
  let lo := b.scratchPa 0
  let s1 := s.scrub lo b.scratch
  match s.eccBad.find? fun x => decide (x + 4 > lo) && decide (x < lo + b.scratch) with
  | some x => s1.fenceWord x b.core 0xFF
  | none => s1

/-- The records of a launch in their order (R319): by type, then block, then group. -/
def State.dumpRecords (s : State) (l : Launch) : List Byte :=
  let w := l.width
  let bs := ((s.blocks.filter fun b => b.lid = l.lid).map fun b => (b.idx, b)).mergeSort (fun a b => decide (a.1 ≤ b.1)) |>.map fun e => e.2
  let gs : List Group := bs.flatMap fun b => (List.range 32).filterMap fun i => s.group? ⟨l.lid, b.idx, i⟩
  let v10 := l.obj.version = 0x0100
  let nv := topReg v10 l.w64 .v 0 l.obj.text
  let ns := topReg v10 l.w64 .s 0 l.obj.text
  ((gs.filter fun g => g.frame.cause ≠ 0).flatMap fun (g : Group) => dumpRecord 1 g.gid.blk g.gid.gi (frameBody w g)) ++
  (gs.flatMap fun (g : Group) => dumpRecord 2 g.gid.blk g.gid.gi (fragsBody g)) ++
  (gs.flatMap fun (g : Group) => dumpRecord 3 g.gid.blk g.gid.gi (regsBody w nv ns g)) ++
  (bs.flatMap fun (b : Block) => dumpRecord 4 b.idx 0 (s.scratchBytes b)) ++
  bs.flatMap fun (b : Block) => dumpRecord 5 b.idx 0 (queuesBody w b)

/-- Dump header (Table 12-6). -/
def dumpHeader (l : Launch) (cause sub blocks groups required status : Nat) (time : DWord) (failaddr : Nat) : List Byte :=
  toBytes 4 0x504D5544 ++ toBytes 2 1 ++ toBytes 2 l.width ++ toBytes 4 (cause + sub * 2 ^ 8) ++ toBytes 4 (blocks + groups * 2 ^ 16) ++
  toBytes 8 required ++ toBytes 8 status ++ toBytes 8 time.toNat ++ toBytes 4 l.rcd.kidx ++ toBytes 1 l.world ++ toBytes 1 l.part ++
  toBytes 2 0 ++ toBytes 8 failaddr ++ toBytes 8 0

/-! ### Writing (R317, R320) -/

/-- A posted write of an agent to the host or a peer, in parts that one flit carries (R378). -/
def State.sendRun (s : State) (p w lid va pa : Nat) (bs : List Byte) : State :=
  ((cutLines (bs.length / 128 + 2) pa bs.length).foldl (fun (st : State × List Byte) x =>
    let now := st.2.take x.2
    (st.1.sendWrite p w (.dispatcher p) lid 0 .other (va + (x.1 - pa)) x.1 (.bytes now) (.write now) false, st.2.drop x.2)) (s, bs)).1

/-- One write of the dump, within a page, under the copy-engine row; posted when it goes to the host or a peer. None when it fails. -/
def State.dumpPiece (s : State) (l : Launch) (va : Nat) (bs : List Byte) : Option State :=
  match s.checkGlobal .copy none l.part l.world (agentSource .copy l.part l.world) [] true false false va bs.length with
  | .error _ => none
  | .ok ps =>
    let partly := ps.any fun p => s.isSealed p.pa && ((p.pa % 128 ≠ 0 && s.tagBad.contains (lineOf p.pa)) ||
      ((p.pa + p.len) % 128 ≠ 0 && s.tagBad.contains (lineOf (p.pa + p.len))))
    if partly || ps.any (fun p => match homeBulk p.pa with | some b => s.isDown b | none => false) then none
    else some ((ps.foldl (fun (st : State × List Byte) p =>
      let mine := st.2.take p.len
      (if p.outside then st.1.sendRun l.part l.world l.lid p.va p.pa mine
       else st.1.storeBytes (.dispatcher l.part) st.1.serial p.pa mine, st.2.drop p.len)) (s, bs)).1)

/-- Write bytes in ascending order, page by page: the state and, where a write fails, the number of bytes written before it. -/
def State.dumpBytes (s : State) (l : Launch) : Nat → Nat → List Byte → State × Option Nat
  | 0, _, _ => (s, none)
  | n + 1, va, bs =>
    if bs.isEmpty then (s, none)
    else
      let k := min bs.length (4096 - va % 4096)
      match s.dumpPiece l va (bs.take k) with
      | none => (s, some 0)
      | some s1 =>
        match State.dumpBytes s1 l n (va + k) (bs.drop k) with
        | (s2, none) => (s2, none)
        | (s2, some d) => (s2, some (k + d))

/-- Is every page of a buffer a sealed page of the world (R320)? -/
def State.sealedBuffer (s : State) (part w va n : Nat) : Bool :=
  (List.range ((va + n - 1) / 4096 - va / 4096 + 1)).all fun i =>
    match s.translate none part part ((va / 4096 + i) * 4096) with
    | .ok (pa, _) => let e := s.potEntry (pa / 4096); bit e 12 && field e 0 5 = part && field e 5 6 = w
    | .error _ => false

/-- STATUS of a dump. -/
def dumpStatus (valid : Nat) (truncated incomplete nested withheld : Bool) : Nat :=
  valid % 2 ^ 48 + b2n truncated * 2 ^ 48 + b2n incomplete * 2 ^ 49 + b2n nested * 2 ^ 50 + b2n withheld * 2 ^ 51

/-- Are the records of a launch's dump withheld (R320)? -/
def State.withheld (s : State) (l : Launch) : Bool :=
  (match s.world? l.world with | some x => x.conf | none => false) && !s.sealedBuffer l.part l.world l.rcd.dumpAddr.toNat l.rcd.dumpSize

/-- Are the lines that a dump writes free (R36)? -/
def State.dumpFree (s : State) (l : Launch) : Bool :=
  let n := if s.withheld l then 64 else min l.rcd.dumpSize (64 + (s.dumpRecords l).length)
  (cutPages l.rcd.dumpAddr.toNat n).all fun c =>
    match s.checkGlobal .copy none l.part l.world (agentSource .copy l.part l.world) [] true false false (c.1 % 2 ^ 64) c.2 with
    | .error _ => true
    | .ok ps => ps.all fun p => p.outside || (linesOf p.pa p.len).all s.lineFree

/-- The dump of an aborted launch: header, records as far as they fit, then FAILADDR if need be, and STATUS last. -/
def State.writeDump (s : State) (l : Launch) (cause sub : Nat) (nested : Bool) (time : DWord) : State :=
  let va := l.rcd.dumpAddr.toNat
  let size := l.rcd.dumpSize
  let held := s.withheld l
  let recs := s.dumpRecords l
  let nb := if held then 0 else (s.blocks.filter fun b => b.lid = l.lid).length
  let ng := if held then 0 else (s.groups.filter fun g => g.gid.lid = l.lid).length
  let need := 64 + recs.length
  let body := dumpHeader l cause sub nb ng need 0 time 0 ++ (if held then [] else recs.take (size - 64))
  let trunc := !held && decide (size < need)
  let s := if held then s else (s.blocks.filter fun b => b.lid = l.lid).foldl (fun s b => s.readScratch b) s
  match s.dumpBytes l (body.length / 4096 + 2) va body with
  | (s1, none) =>
    match s1.dumpPiece l (va + 0x18) (toBytes 8 (dumpStatus body.length trunc false nested held)) with
    | some s2 => s2
    | none => s1
  | (s1, some d) =>
    match s1.dumpPiece l (va + 0x30) (toBytes 8 (va + d)) with
    | none => s1
    | some s2 =>
      match s2.dumpPiece l (va + 0x18) (toBytes 8 (dumpStatus d trunc true nested held)) with
      | some s3 => s3
      | none => s2

end Sys2Proof.Machine
end

