-- ==== Sys2Proof/Machine/Finish.lean ====
section
/-! DEFINITION. How launches end (11, R304 to R306; 12, R317) and how galleys are made and changed (13). -/

namespace Sys2Proof.Machine

/-- Has a launch nothing in flight any more: no chain, no write, no load or atomic whose result is to come, no HOLD (R132, R244, R323)? -/
def State.drained (s : State) (l : Launch) : Bool :=
  (s.pend.all fun p => p.lid ≠ l.lid) && (s.groups.all fun g => g.gid.lid ≠ l.lid || !g.owesResult) && (s.chains.all fun k => k.gid.lid ≠ l.lid) && l.holds.all fun h => h.2 = 0

/-- A launch leaves the machine: its imposition entry is unbound, its beacon domain free (R304). -/
def State.dropLaunch (s : State) (l : Launch) : State :=
  ({ s with launches := s.launches.filter fun x => x.lid ≠ l.lid, leases := s.leases.filter fun x => x.par ≠ some l.lid } : State).modPart l.part fun p =>
    { p with doms := p.doms.map fun (d : Domain) =>
        if d.holder = some l.lid then d.freed else d }

/-- LAUNCH_COMPLETION (R132, R304): the semaphore is written; a launch with an unreported failed write is aborted instead (R314). -/
def execLaunchCompletion (lid : Nat) (s : State) : Out :=
  match s.launch? lid with
  | none => .next s
  | some l =>
    if l.status ≠ .running || !s.threadsDone l || !s.drained l then .next s
    else if l.failed then .next (s.abort lid Cause.down 0 false false)
    else
      match s.writeSem l.part l.world l.rcd.semAddr.toNat l.rcd.semVal l.tag with
      | none => .next s
      | some s1 => .next (s1.dropLaunch l)

/-- LAUNCH_ABORT (R305), for a cause of Table 12-1; UNCORRECTABLE is never the cause of an abort but CONTAINED, with it as sub-cause (R307). -/
def execLaunchAbort (lid cause : Nat) (s : State) : Out :=
  .next (if cause = Cause.uncorrectable then s.abort lid Cause.contained cause false false
    else if (1 ≤ cause ∧ cause ≤ 14) ∨ cause = Cause.contained ∨ cause = Cause.watchdog then s.abort lid cause 0 false false
    else s)

/-- The limit of a launch's watchdog in ns (Table 11-2). -/
def Launch.limit (l : Launch) : Nat := (if l.rcd.watchdog = 0 then 10000000 else l.rcd.watchdog) * 1000

/-- WATCHDOG_EXPIRY (R306). -/
def execWatchdogExpiry (lid : Nat) (s : State) : Out :=
  match s.launch? lid with
  | none => .next s
  | some l => .next (if l.limit ≤ l.watch then s.abort lid Cause.watchdog 0 false false else s)

/-- Take the groups and blocks of a launch away. -/
def State.clearLaunch (s : State) (lid : Nat) : State :=
  { s with
    groups := s.groups.filter fun (g : Group) => g.gid.lid ≠ lid
    blocks := s.blocks.filter fun b => b.lid ≠ lid
    rr := s.rr.filter fun g => g.lid ≠ lid
    worlds := s.worlds.map fun x => { x with ctx := match x.ctx with
      | none => none
      | some c => some { c with groups := c.groups.filter fun (g : Group) => g.gid.lid ≠ lid, blocks := c.blocks.filter fun b => b.lid ≠ lid } } }

/-- The matrix instructions of every group of a launch complete (R291, R317). -/
def State.finishMats (s : State) (lid : Nat) : State :=
  (s.groups.filter fun g => g.gid.lid = lid).foldl (fun s (g : Group) => s.completeMats g.gid 8) s

/-- DUMP_WRITE (R305, R317): once an aborted launch has drained and the lines of the buffer are free, in its world's frame, its dump is written; then, at a second
turn, its semaphore. Teardown writes neither (R303); a context that was not restored has no dump (R325). -/
def execDumpWrite (lid : Nat) (s : State) : Out :=
  match s.launch? lid with
  | none => .next s
  | some l =>
    match l.status with
    | .running => .next s
    | .aborting cause sub nested teardown dumped time =>
      if !s.drained l then .next s
      else if teardown then .next ((s.clearLaunch lid).dropLaunch l)
      else
        let here := match s.world? l.world with | some x => s.inFrame x && x.ctx.isNone | none => true
        if !here then .next s
        else if !dumped then
          let s1 := s.finishMats lid
          if decide (64 ≤ l.rcd.dumpSize) && !s1.dumpFree l then .next s
          else
          let s2 := if 64 ≤ l.rcd.dumpSize then s1.writeDump l cause sub nested time else s1
          .next ((s2.clearLaunch lid).modLaunch lid fun x => { x with status := .aborting cause sub nested teardown true time })
        else
          match s.writeSem l.part l.world l.rcd.semAddr.toNat (abortVal l.rcd.semVal) l.tag with
          | none => .next s
          | some s1 => .next (s1.dropLaunch l)

/-! ### Galleys (R328 to R337) -/

/-- A query of the galley of a KIDX by the host (R329): the key for the mode word last launched, when the entry is valid. -/
def State.queryKey (s : State) (x : World) (kidx : Nat) (w64 : Bool) : Option GalleyKey :=
  (x.imp.find? fun e => e.1 = kidx).map fun e => s.keyOf x e.2.obj w64 (look 0 x.modes kidx).toNat

/-- TRINFO for a galley (Table 13-1). -/
def World.trInfo (x : World) (g : Galley) : DWord :=
  BitVec.ofNat 64 (g.resid + b2n g.safe * 2 ^ 6 + b2n g.reopt * 2 ^ 7 +
    (match x.gens.find? fun e => e.1 = g.key with | some e => e.2 | none => 0) % 2 ^ 32 * 2 ^ 32)

/-- A stamped galley (Table 13-3). -/
def stampedGalley (g : Galley) : List Byte :=
  let body := Config.galleyBody (toBytes 4 g.key.devmode ++ toBytes 2 g.key.kent ++ toBytes 1 (b2n g.key.w64) ++ toBytes 4 g.key.mode ++
    toBytes 1 (b2n g.safe + 2 * b2n g.reopt) ++ toBytes 4 g.gen ++ g.key.code)
  let hdr := toBytes 4 0x594C4147 ++ toBytes 2 g.key.kent ++ toBytes 2 (if g.key.w64 then 64 else 32) ++ toBytes 4 g.key.mode ++
    toBytes 4 body.length ++ deviceHash g.key.devmode ++ (sha384 g.key.code).take 32
  let all := hdr ++ Config.galleySig (hdr ++ body) ++ List.replicate 80 0 ++ body
  all ++ List.replicate ((4096 - all.length % 4096) % 4096) 0

/-- The query of a world has its answer. -/
def World.answered (x : World) : World := { x with query := none }

/-- The answer to a TRQ GO of a world (R329, R333): VALID and TRINFO; with EXPORT the stamped galley is written, or DENIED set. None while the
lines of the export buffer are not free. -/
def State.answerQuery (s : State) (x : World) (g : Galley) : Option State :=
  let done (denied : Bool) (s : State) : State := s.modWorld x.w fun x =>
    ((((x.setField rTRQ 14 1 0).setField rTRQ 15 1 0).setField rTRQ 16 1 1).setField rTRQ 17 1 (b2n denied)).setReg rTRINFO (x.trInfo g) |>.answered
  if !bit (x.reg rTRQ).toNat 14 then some (done false s)
  else if x.conf then some (done true s)
  else
    match s.agentWrite .host x.part x.w ((x.reg rTREXP).toNat / 4096 * 4096 % 2 ^ 52) (stampedGalley g) with
    | none => none
    | some (.error _) => some (done true s)
    | some (.ok s1) => some (done false s1)

/-- Finish a pending TRQ of a world, once the galley of the key that its GO named is there. -/
def State.settleQuery (s : State) (w : Nat) : State :=
  match s.world? w with
  | none => s
  | some x =>
    match x.query.bind s.findGalley with
    | none => s
    | some g => (s.answerQuery x g).getD s

/-- TRANSLATION (R328, R329): the translation cores finish a galley for a key; what waits for it can go on. -/
def execTranslation (w kidx : Nat) (w64 : Bool) (resid : Nat) (safe : Bool) (s : State) : Out :=
  match s.translating.find? fun t => t.1 = w && t.2.1 = kidx && t.2.2.w64 == w64 with
  | none => .next (s.settleQuery w)
  | some t =>
    let s1 := { s with translating := s.translating.filter fun x => x.2.2 ≠ t.2.2 }
    let s2 := if (s1.findGalley t.2.2).isSome then s1 else s1.installGalley t.2.2 resid (safe || 4 ≤ t.2.2.devmode) false
    .next (s2.settleQuery w)

/-- GALLEY_REOPTIMISE (R331): launches that start from now on bind the new galley; it is discarded when a REPLACE of an entry that names its key has
taken effect at the same instant. -/
def execGalleyReoptimise (id resid : Nat) (s : State) : Out :=
  match s.galley? id with
  | none => .next s
  | some g =>
    if s.worlds.any fun x => x.swaps.1 = s.now && x.swaps.2.contains g.key then .next s
    else .next (s.installGalley g.key resid g.safe true)

/-- TRANSLATION_INTEGRITY (R336, R337): the group rolls back to its commit point, which shows in nothing but time; the kernel's key is marked
safe, a safe-mode galley is made, and the group goes on with it; the other groups of the launch move to it before they issue again (LOG 108). A
safe-mode galley that fails fences its bulkhead. -/
def execTranslationIntegrity (gid : Gid) (s : State) : Out :=
  match s.group? gid, s.launch? gid.lid, s.block? gid.lid gid.blk with
  | some g, some l, some b =>
    match s.galley? l.galley with
    | none => .next s
    | some y =>
      if g.safe || y.safe then .next (s.fence (bulkOf b.core) 1 false)
      else
        let k : GalleyKey := y.key
        let ks : GalleyKey := { k with devmode := k.devmode + 4 }
        let s1 := if s.safeKeys.contains k then s else { s with safeKeys := k :: s.safeKeys }
        let s2 := if (s1.findGalley ks).isSome then s1 else s1.installGalley ks y.resid true false
        let s3 := s2.modLaunch l.lid fun x => { x with safe := (s2.findGalley ks).map fun z => z.id }
        .next (((s3.modGroup gid fun g => { g with safe := true }).addCount b.core 36 1).ember (bulkOf b.core) 0x06 b.core l.world (BitVec.ofNat 64 l.rcd.kidx))
  | _, _, _ => .next s

/-- ACT_ROLLBACK (R93, R94): a rollback is not visible to the program, to other agents or in a trap frame; the core counts it (R367). -/
def execActRollback (g : Gid) (s : State) : Out :=
  match s.block? g.lid g.blk with
  | none => .next s
  | some b => .next (s.addCount b.core 35 1)

end Sys2Proof.Machine
end

