-- ==== Sys2Proof/Machine/Preempt.lean ====
section
/-! DEFINITION. Pre-emption, saved contexts, frames and edges (12, R321 to R325; 14, R344 to R348). -/

namespace Sys2Proof.Machine

/-- The launches of a world. -/
def State.lidsOf (s : State) (w : Nat) : List Nat := (s.launches.filter fun l => l.world = w).map fun l => l.lid

/-- Has everything that the world issued been performed or delivered (R323)? Writes that it sent to a host or a peer may stay out. -/
def State.halted (s : State) (w : Nat) : Bool :=
  let ids := s.lidsOf w
  (s.pend.all fun p => p.ext.isSome || !ids.contains p.lid) &&
  s.groups.all fun (g : Group) => !ids.contains g.gid.lid || !g.owesResult

/-- Save the context of a halted world (R107, R127, R291, R324): its matrix instructions complete; its groups, blocks with their scratch up to
S, chains and beacon domains leave the cores. A word of the scratch that cannot be corrected makes the context one that holds such a word (R32, R70, R74). -/
def State.saveWorld (s : State) (w : Nat) : State :=
  let ids := s.lidsOf w
  let mine (g : Gid) : Bool := ids.contains g.lid
  let s0 := (s.groups.filter fun (g : Group) => mine g.gid).foldl (fun s (g : Group) => s.completeMats g.gid 8) s
  let here := s0.blocks.filter fun b => ids.contains b.lid
  let bad := here.any fun b => s0.badWord (b.scratchPa 0) b.scratch
  let bs := here.map fun (b : Block) => { b with saved := s0.scratchBytes b }
  let s1 := here.foldl (fun s b => s.readScratch b) s0
  let gs := s1.groups.filter fun (g : Group) => mine g.gid
  let ks := s1.chains.filter fun (k : Chain) => mine k.gid
  let held (d : Domain) : Bool := match d.holder with | some l => ids.contains l | none => false
  let rs := s1.rr.filter mine
  let ds := match s1.world? w with
    | none => []
    | some x => match s1.part? x.part with | none => [] | some p => p.doms.filter held
  { s1 with
    groups := s1.groups.filter fun (g : Group) => !mine g.gid
    rr := s1.rr.filter fun g => !mine g
    blocks := s1.blocks.filter fun b => !ids.contains b.lid
    chains := s1.chains.filter fun (k : Chain) => !mine k.gid
    parts := s1.parts.map fun (p : Partition) =>
      { p with doms := p.doms.map fun (d : Domain) =>
          if held d then d.freed else d }
    worlds := s1.worlds.map fun x =>
      if x.w = w then { x with ctx := some ⟨gs, rs, bs, ks, ds, bad, false⟩, busy := false } else x }

/-- Clear every core of a partition (R346): slices, leases, translations, freezes. What a world had there has been saved. A bulkhead that is held FENCED
keeps its slices and registers as they are (R72). -/
def State.clearCores (s : State) (p : Partition) : State :=
  let held (b : Nat) : Bool := match s.bulk? b with | some x => x.st = .fenced | none => false
  let mine (core : Nat) : Bool := p.bulks.contains (bulkOf core) && !held (bulkOf core)
  let inside (a : Nat) : Bool := match region a with | .slice c _ => mine c | _ => false
  { s with
    mem := Memory.zero s.mem inside
    eccBad := s.eccBad.filter fun a => !inside a
    eccSoft := s.eccSoft.filter fun a => !inside a
    leases := s.leases.filter fun l => !mine l.core
    tlb := s.tlb.filter fun e => !mine e.core
    frozen := s.frozen.filter fun c => !mine c }

/-- The lease caches and TLBs of a partition's cores are empty (R325). -/
def State.emptyCaches (s : State) (p : Partition) : State :=
  let mine (core : Nat) : Bool := p.bulks.contains (bulkOf core)
  { s with leases := s.leases.filter fun l => !mine l.core, tlb := s.tlb.filter fun e => !mine e.core }

/-- Put a block back, with its scratch (R325). -/
def State.restoreBlock (s : State) (b : Block) : State :=
  let lo := b.scratchPa 0
  let hi := lo + squareCount b.scratch * 4096
  let inside (a : Nat) : Bool := decide (lo ≤ a) && decide (a < hi)
  { s with
    mem := Memory.write (Memory.zero s.mem inside) lo b.saved
    eccBad := s.eccBad.filter fun a => !inside a
    eccSoft := s.eccSoft.filter fun a => !inside a
    blocks := s.blocks ++ [{ b with saved := [] }] }

/-- An aborted launch of which nothing is resident: it has no dump (R325). -/
def State.noDump (s : State) (lid : Nat) : State :=
  s.modLaunch lid fun x => match x.status with
    | .aborting c sub n t _ tm => { x with status := .aborting c sub n t true tm }
    | .running => x

/-- Restore the context of a world to the cores it left (R325); pending stops are delivered first. A context whose seal does not verify is not
restored: its launches are aborted with INTEGRITY; with CONTAINED, for UNCORRECTABLE, when a word of it is uncorrectable, which fences the bulkhead that
held the word (R70, R74, LOG 60). -/
def State.restoreWorld (s : State) (w : Nat) : State :=
  match s.world? w with
  | none => s
  | some x =>
    match x.ctx with
    | none => s
    | some c =>
      let s0 := s.modWorld w fun x => { x with ctx := none }
      if c.tamper || c.bad then
        let s1 := (s.lidsOf w).foldl (fun s l =>
          if c.tamper then (s.abort l Cause.integrity 0 false false).noDump l else s.abort l Cause.contained Cause.uncorrectable false false) s0
        match c.blocks with
        | b :: _ => if c.bad then s1.fence (bulkOf b.core) 1 true else s1
        | [] => s1
      else
        let s1 := c.blocks.foldl (fun s b => s.restoreBlock b) s0
        let s2 := { s1 with
          groups := s1.groups ++ c.groups
          rr := s1.rr ++ c.rr
          chains := s1.chains ++ c.chains
          parts := s1.parts.map fun (p : Partition) =>
            if p.id = x.part then
              { p with doms := p.doms.map fun (d : Domain) => match c.doms.find? fun (e : Domain) => e.idx = d.idx with | some e => e | none => d }
            else p }
        let s3 := (c.groups.foldl (fun s (g : Group) => s.queueStop g.gid) s2).writeStops w c.groups.length
        c.groups.foldl (fun s (g : Group) => settle g.gid s) s3

/-- Are the bulkheads of the cores that a saved context needs RUNNING? -/
def State.canRestore (s : State) (x : World) : Bool :=
  match x.ctx with
  | none => true
  | some c => c.blocks.all fun b => match s.bulk? (bulkOf b.core) with | some k => k.st = .running | none => false

/-! ### Pre-emption by the host (R321, R348) -/

/-- GO of PREEMPT: in its own frame the world begins to halt; descheduled, it is SAVED at once (Table 14-3), also while the edge still saves it, or once the
edge has put it back for the frame to come. SAVED reads 1 once the context is saved. -/
def preemptGo (w : Nat) (s : State) : Out :=
  match s.world? w with
  | none => .next s
  | some x =>
    if x.hostSaved then .next s
    else
      let s1 := s.modWorld w fun y => { y with hostSaved := true, atOnce := !s.inFrame x }
      if s.inFrame x then .next (s1.modWorld w fun y => { y with busy := x.ctx.isNone })
      else if x.busy || x.ctx.isSome || (s.lidsOf w).isEmpty then .next s1
      else .next (s1.saveWorld w)

/-- RESUME of PREEMPT: in its own frame the restore starts at once; descheduled, the world is restored at its next frame. -/
def preemptResume (w : Nat) (s : State) : Out :=
  match s.world? w with
  | none => .next s
  | some x =>
    if !x.showsSaved then .next s
    else if s.inFrame x then .next (s.modWorld w fun y => { y with resuming := true })
    else .next (s.modWorld w fun y => { y with hostSaved := false, atOnce := false })

/-- CONTEXT_SAVE (R324): once the world has halted. -/
def execContextSave (w : Nat) (s : State) : Out :=
  match s.world? w with
  | none => .next s
  | some x => .next (if x.busy && s.halted w then s.saveWorld w else s)

/-- CONTEXT_RESTORE (R325): at a RESUME in the world's frame; in the gap before its frame, once the outgoing world is saved and the cores are
cleared; or in its frame, once the bulkheads it needs are RUNNING again. -/
def execContextRestore (w : Nat) (s : State) : Out :=
  match s.world? w with
  | none => .next s
  | some x =>
    match s.part? x.part with
    | none => .next s
    | some p =>
      if x.busy || !s.canRestore x || p.gated then .next s
      else if s.inFrame x then
        if x.resuming then .next (((s.modWorld w fun y => { y with hostSaved := false, atOnce := false, resuming := false }).emptyCaches p).restoreWorld w)
        else if x.hostSaved then .next s
        else .next ((s.emptyCaches p).restoreWorld w)
      else
        match p.phase with
        | .gap (some (_, v)) _ =>
          if v = w && x.ctx.isSome && !x.hostSaved && s.worlds.all fun (y : World) => y.part ≠ p.id || !y.busy then
            .next ((s.clearCores p).restoreWorld w)
          else .next s
        | _ => .next s

/-! ### Frames (R344 to R348, R409) -/

/-- The next valid slot after slot `i` and its world (R344). -/
def nextSlot (frames : List Byte) (i : Nat) : Option (Nat × Nat) :=
  (List.range 16).findSome? fun k =>
    let j := (i + 1 + k) % 16
    let b := (frames.getD j 0).toNat
    if bit b 7 then some (j, field b 0 6) else none

/-- Do the valid slots name more than one world (R345)? -/
def hasEdges (frames : List Byte) : Bool :=
  match nextSlot frames 15 with
  | none => false
  | some (_, w) => frames.any fun b => bit b.toNat 7 && field b.toNat 0 6 ≠ w

/-- A frame table without a world. -/
def withoutWorld (w : Nat) (frames : List Byte) : List Byte :=
  frames.map fun b => if bit b.toNat 7 && field b.toNat 0 6 = w then 0 else b

/-- Length of a world's frame in ns. -/
def State.frameNs (s : State) (w : Nat) : Nat := match s.world? w with | some x => x.frame * 1000 | none => 100000

/-- The slots of a world that has been torn down end with its last frame (R344). -/
def State.dropTorn (s : State) (part w : Nat) : State :=
  let gone := s.worlds.any fun (x : World) => x.part = part && x.w = w && x.torn
  let cut (f : List Byte) : List Byte := if gone then withoutWorld w f else f
  s.modPart part fun p => { p with frames := cut p.frames, pendFrames := p.pendFrames.map cut }

/-- A partition that is idle takes a waiting table, and its first frame follows after a gap (R347). -/
def State.startFrames (s : State) (part : Nat) (t : Nat) : State :=
  s.modPart part fun p =>
    if p.phase = .idle && !p.gated then
      let f := p.pendFrames.getD p.frames
      { p with frames := f, pendFrames := none,
               phase := match nextSlot f 15 with | some n => .gap (some n) (t + Config.edgeGap) | none => .idle }
    else p

/-- FRAME_EDGE (R345 to R347): at the end of a frame. Frames of one world join; otherwise the outgoing world begins to halt and the gap begins. A
changed table is taken at an edge, or at any frame's end when the partition has no edges. -/
def execFrameEdge (part : Nat) (s : State) : Out :=
  match s.part? part with
  | none => .next s
  | some p =>
    match p.phase with
    | .frame slot w _ t =>
      if s.now < t || p.gated then .next s
      else
        let joins := hasEdges p.frames && (match nextSlot p.frames slot with | some (_, v) => decide (v = w) | none => false)
        let s1 := if joins then s else s.dropTorn part w
        match s1.part? part with
        | none => .next s1
        | some p1 =>
          let edge := match nextSlot p1.frames slot with | some (_, v) => v ≠ w | none => true
          let take := edge || !hasEdges p1.frames
          let frames := match p1.pendFrames with | some f => if take then f else p1.frames | none => p1.frames
          let s2 := s1.modPart part fun y => { y with frames := frames, pendFrames := if take then none else y.pendFrames }
          let nxt := nextSlot frames slot
          let same := match nxt with | some (_, v) => decide (v = w) | none => false
          match nxt with
          | some (j, v) =>
            if same then .next (s2.modPart part fun y => { y with phase := .frame j w t (t + s2.frameNs w) })
            else
              .next ((s2.modPart part fun y => { y with phase := .gap (some (j, v)) (t + Config.edgeGap) }).modWorld w fun x =>
                { x with busy := x.busy || (x.ctx.isNone && !x.hostSaved) })
          | none =>
            .next ((s2.modPart part fun y => { y with phase := .gap none (t + Config.edgeGap) }).modWorld w fun x =>
              { x with busy := x.busy || (x.ctx.isNone && !x.hostSaved) })
    | _ => .next s

/-- Save every halting world of a partition at once: what is still in flight performs first (R346). -/
def State.saveAll (s : State) (part : Nat) : State :=
  (s.worlds.filter fun (x : World) => x.part = part && x.busy).foldl (fun s (x : World) =>
    let ids := s.lidsOf x.w
    (s.drain fun p => ids.contains p.lid).saveWorld x.w) s

/-- EDGE_GAP_END (R345, R346, R409): the steps of the edge have been done, and the incoming frame begins. -/
def execEdgeGapEnd (part : Nat) (s : State) : Out :=
  match s.part? part with
  | none => .next s
  | some p =>
    match p.phase with
    | .gap nxt t =>
      if s.now < t || p.gated then .next s
      else
        let now := s.now
        let s0 := s.saveAll part
        let s1 := { s0 with now := now }
        match nxt with
        | none => .next (((s1.clearCores p).modPart part fun y => { y with phase := .idle }).startFrames part t)
        | some (j, v) =>
          let ids := s1.lidsOf v
          let here := s1.blocks.any fun b => ids.contains b.lid
          let s2 := if here then s1 else s1.clearCores p
          let s3 := match s2.world? v with
            | some x => if !x.hostSaved && s2.canRestore x then s2.restoreWorld v else s2
            | none => s2
          .next (s3.modPart part fun y => { y with phase := .frame j v t (t + s3.frameNs v) })
    | _ => .next s

end Sys2Proof.Machine
end

