-- ==== Sys2Proof/Machine/Fetch.lean ====
section
/-! DEFINITION. What a group would issue next: the fragment (06, R159), the words at its PC and their decoding (07, R184 to R187, R193, R195),
breakpoints (15, R361). -/

namespace Sys2Proof.Machine

/-- What is found at a fragment's PC. -/
inductive WordAt where
  | ins (i : Instr) (is : Issuer)
  | outside (is : Issuer) (addr : Nat)
  | illegal (is : Issuer) (reason : Nat)

/-- Fetch and decode the instruction of a launch's kernel at a fragment (R185, R187, R195). A PC that is no word of TEXT is outside it. An EXT that is the last word
of TEXT raises FETCH, whatever its own bits are (DESIGN CHOICE, LOG 123). -/
def Launch.fetch (l : Launch) (gid : Gid) (f : Frag) : WordAt :=
  let word (k : Nat) : Option DWord := if f.pc.toNat % 8 = 0 then l.obj.text[f.pc.toNat / 8 + k]? else none
  let is (len : Nat) (inst : Nat) : Issuer := { gid := gid, pc := f.pc, mask := f.mask, len := len, inst := BitVec.ofNat 128 inst }
  let v10 := l.obj.version = 0x0100
  match word 0 with
  | none => .outside (is 8 0) f.pc.toNat
  | some w =>
    if field w.toNat 54 10 = 1 then
      match word 1 with
      | none => .outside (is 16 (w.toNat * 2 ^ 64)) (f.pc.toNat + 8)
      | some x =>
        let me := is 16 (w.toNat * 2 ^ 64 + x.toNat)
        match decodeWord v10 l.w64 x.toNat (some w.toNat) with
        | .ok i => .ins i me
        | .error r => .illegal me r
    else
      match decodeWord v10 l.w64 w.toNat none with
      | .ok i => .ins i (is 8 w.toNat)
      | .error r => .illegal (is 8 w.toNat) r

/-- Does a group hold an instruction all of whose requests to the host and to peers are answered? -/
def State.extDone (s : State) (g : Group) : Bool :=
  match g.stuck with
  | some ⟨_, _, _, _, .ext reqs⟩ => reqs.all fun r => s.ext.any fun e => e.id = r.2 && e.reply.isSome
  | _ => false

/-- May a group issue: its launch runs, its block is clear, its world is served, its bulkhead runs and its core is not frozen; no stop, count, queue
or held result is in its way (R130, R218, R316, R362, R369)? A debugger's write that waits for its line holds the world (R360). A load or atomic whose answers have come
delivers its results also while its launch aborts or its world halts (R317, R323). -/
def State.issuable (s : State) (g : Group) : Bool :=
  match s.launch? g.gid.lid, s.block? g.gid.lid g.gid.blk with
  | some l, some b =>
    (l.status = .running || s.extDone g) && !b.clearing && g.stop.isNone && g.pause.isNone && !g.qwait && !s.frozen.contains b.core &&
    (match s.bulk? (bulkOf b.core) with | some k => k.st = .running || k.st = .fencing | none => false) &&
    (match s.world? l.world with | some x => (s.serves x || (s.extDone g && (x.busy || l.status ≠ .running))) && !bit (x.reg rDBGSEL).toNat 5 | none => false) &&
    (match g.stuck with
     | none => g.choose.isSome
     | some t =>
       match t.hold with
       | .replay owed recs _ => owed.isEmpty && recs.isEmpty
       | .ext _ => s.extDone g
       | .atom .. => false)
  | _, _ => false

/-- The fragment that a group issues: the one it holds, or the choice of R159; a fragment that becomes the head stays it for 256 issues. Lanes that
have joined a held fragment take part in a replay (R160, R316), and in nothing that has issued without them. -/
def Group.next (g : Group) : Option (Frag × Group) :=
  match g.stuck with
  | some t => (g.frags.find? fun f => f.pc = t.pc && f.mask &&& t.mask ≠ 0 && f.park.isNone).map fun f =>
      (match t.hold with | .replay .. => f | _ => { f with mask := t.mask }, g)
  | none =>
    match g.choose with
    | none => none
    | some (f, false) => some (f, g)
    | some (f, true) =>
      some (f, { g with frags := g.frags.map fun (x : Frag) => if x.pc = f.pc && x.mask = f.mask && x.park.isNone then { x with head := 256 } else x })

/-- The breakpoint that stops a launch of a world at a PC (R361, Table 15-1). -/
def bpHit (x : World) (kidx : Nat) (pc : Word) : Option Nat :=
  if !x.granted then none
  else (List.range 8).find? fun n =>
    let r := (x.reg (rBP n)).toNat
    bit r 63 && field r 0 32 = pc.toNat && field r 32 12 = kidx

/-- Which breakpoint stops a group about to issue at a fragment; one that it has been released from is passed over (R363), and an instruction that has issued is
stopped no more (R358). -/
def State.stopsAt (s : State) (g : Group) (f : Frag) : Option Nat :=
  if g.pass || g.owesResult then none
  else
    match s.launch? g.gid.lid with
    | none => none
    | some l => match s.world? l.world with | none => none | some x => bpHit x l.rcd.kidx f.pc

/-- A PC outside TEXT: FETCH on every lane of the fragment (R185, R187). -/
def State.fetchFault (s : State) (is : Issuer) (addr : Nat) : State :=
  match s.ctxOf is with
  | none => s
  | some c => takeTrap c Cause.fetch is.mask is.mask 0 (fun _ => BitVec.ofNat 64 addr) s

/-- A word that is no instruction: ILLEGAL on every lane of the fragment, with its reason (R195). -/
def State.decodeFault (s : State) (is : Issuer) (reason : Nat) : State :=
  match s.ctxOf is with
  | none => s
  | some c => takeTrap c Cause.illegal is.mask is.mask (BitVec.ofNat 64 reason) (fun _ => 0) s

end Sys2Proof.Machine
end

