-- ==== Sys2Proof/Machine/Hostreg.lean ====
section
/-! DEFINITION. What writes to the control page do (02, 11, 12, 13, 15): queues, fault queue, TLB invalidation, galley queries, profiling, and the
replay log of outside inputs (15, R371). -/

namespace Sys2Proof.Machine

/-- The state of an outcome that goes on. -/
def afterOut (o : Out) (s : State) : State := match o with | .next t => t | _ => s

/-- The partition that a host function owns (R377). -/
def State.owned (s : State) (w : Nat) : Option Partition := s.parts.find? fun p => p.owner = w

/-- A world that has not been torn down. -/
def State.live? (s : State) (w : Nat) : Option World := s.worlds.find? fun x => x.w = w && !x.torn

/-- What a read of a register of host function `w` delivers, at a control-page offset (Tables 02-6, 11-1 to 16-2): the translation registers are
the partition's, the same in every function (R63), the replay registers the owner's, the others the world's; write-only bits, reserved
bits and offsets without a register read as zero. The report of a world's teardown can be read until its number is used again (R303, LOG 70). -/
def State.readControl (s : State) (w off : Nat) : DWord :=
  let part := match s.owned w with | some p => some p | none => (s.live? w).bind fun x => s.part? x.part
  if off < 0x100 then
    match part with
    | none => 0
    | some p =>
      if off = 0x000 then p.ptroot
      else if off = 0x008 then p.tlbva
      else if off = 0x010 then BitVec.ofNat 64 (b2n p.busy.isSome * 2 ^ 8 + b2n p.busyerr * 2 ^ 9)
      else 0
  else if 0x800 ≤ off ∧ off < 0x820 then
    match s.owned w with
    | some p => SMap.get p.replayRegs off
    | none => 0
  else
    match s.live? w with
    | none =>
      if off = rDROPPED || off = rABORTED then (match s.worlds.find? fun x => x.w = w with | some x => x.reg off | none => 0) else 0
    | some x =>
      if off = rPREEMPT then BitVec.ofNat 64 (b2n x.showsBusy * 2 ^ 8 + b2n x.showsSaved * 2 ^ 9)
      else if off = rTRQ then x.reg off &&& ~~~ BitVec.ofNat 64 (2 ^ 14)
      else x.reg off

/-! ### The replay log (R371) -/

/-- Write a record of an agent that is no part of a launch, in runs that lie in one page. -/
def State.logRun (s : State) (p w : Nat) : Nat → Nat → List Byte → State
  | 0, _, _ => s
  | n + 1, va, bs =>
    if bs.isEmpty then s
    else
      let k := min bs.length (4096 - va % 4096)
      State.logRun (s.issueRecord p w s.serial 0 va (bs.take k)) p w n (va + k) (bs.drop k)

/-- A record of the replay log. -/
def replayRecord (ty addr seq : Nat) (payload : List Byte) (counts : List Word) : List Byte :=
  toBytes 1 ty ++ toBytes 1 0 ++ toBytes 2 payload.length ++ toBytes 4 0 ++ toBytes 8 addr ++ toBytes 8 seq ++ toBytes 8 0 ++ payload ++
  counts.flatMap fun c => toBytes 4 c.toNat

/-- Put bytes into the log's ring at TAIL, wrapping at its end; the ring has 2^LOG2N bytes (LOG 40). -/
def State.logBytes (s : State) (p : Partition) (bs : List Byte) : State :=
  let n := 2 ^ (SMap.get p.replayRegs 0x808).toNat
  let base := (SMap.get p.replayRegs 0x800).toNat
  let t := (SMap.get p.replayRegs 0x810).toNat % n
  let k := min bs.length (n - t)
  let s1 := s.logRun p.id p.owner (bs.length / 4096 + 2) (base + t) (bs.take k)
  let s2 := s1.logRun p.id p.owner (bs.length / 4096 + 2) base (bs.drop k)
  s2.modPart p.id fun q => { q with replayRegs := SMap.set q.replayRegs 0x810 (BitVec.ofNat 64 ((t + bs.length) % n)) }

/-- Has the log's ring room for `k` more bytes? -/
def Partition.logRoom (p : Partition) (k : Nat) : Bool :=
  let n := 2 ^ (SMap.get p.replayRegs 0x808).toNat
  decide (((SMap.get p.replayRegs 0x810).toNat % n + n - (SMap.get p.replayRegs 0x818).toNat % n) % n + k < n)

/-- Mark an overflow of the log with a record of TYPE 0xFF; while that finds no room it is still to come. -/
def State.logMark (s : State) (part : Nat) : State :=
  match s.part? part with
  | none => s
  | some p =>
    let mark := replayRecord 0xFF 0 p.replaySeq [] []
    let fits := p.logRoom mark.length
    (if fits then s.logBytes p mark else s).modPart part fun q => { q with markDue := !fits }

/-- The mark of an overflow that has found no room yet is tried again. -/
def State.logDue (s : State) (part : Nat) : State :=
  match s.part? part with
  | none => s
  | some p => if p.markDue then s.logMark part else s

/-- A record goes into the log; one that finds no room is lost, which ember event 0x0D and a record of TYPE 0xFF mark. -/
def State.logRecord (s : State) (part ty addr : Nat) (payload : List Byte) : State :=
  match s.part? part with
  | none => s
  | some p =>
    let payload := payload ++ List.replicate ((8 - payload.length % 8) % 8) 0
    let rec_ := replayRecord ty addr p.replaySeq payload (p.cores.map fun c => SMap.get s.retired c)
    if p.logRoom rec_.length then (s.logBytes p rec_).modPart part fun q => { q with replaySeq := q.replaySeq + 1 }
    else (s.logMark part).ember (p.bulks.headD 0) 0x0D 0xFFFF 0xFF (BitVec.ofNat 64 (p.replaySeq - 1))

/-- Log an outside input of a partition in replay mode (R371). -/
def State.logInput (s : State) (part ty addr : Nat) (payload : List Byte) : State :=
  match s.part? part with
  | none => s
  | some p => if p.replayOn.isNone then s else (s.logDue part).logRecord part ty addr payload

/-- Log a control-page write of a function: of a world's, or of a partition owner's to the shared registers. -/
def State.admitCtl (s : State) (w off : Nat) (v : DWord) : State :=
  match (s.live? w).map (fun (x : World) => x.part), (s.owned w).map (fun (p : Partition) => p.id) with
  | none, none => s
  | some part, _ => s.logInput part (if (List.range 4).any fun n => off = rQTAIL n then 3 else 2) off (toBytes 8 v.toNat)
  | none, some part => s.logInput part 2 off (toBytes 8 v.toNat)

/-! ### Pre-emption by the host (R321) -/

/-- PREEMPT_GO (R321). -/
def execPreemptGo (w : Nat) (s : State) : Out := preemptGo w (s.admitCtl w rPREEMPT 1)

/-- PREEMPT_RESUME (R321). -/
def execPreemptResume (w : Nat) (s : State) : Out := preemptResume w (s.admitCtl w rPREEMPT 2)

/-! ### Command queues (R292, R293) -/

def State.queueTail (s : State) (w lvl v : Nat) : State :=
  (s.modWorld w fun x => { x.setField (rQTAIL lvl) 0 16 (v % 2 ^ 16 % x.qSize lvl) with tailAt := s.serial }).noteHead w lvl

/-- RESUME: only while STOP = 1. The command is read anew, behind what the host has written before (Table 11-4). -/
def State.queueResume (s : State) (w lvl : Nat) : State :=
  (s.modWorld w fun x => if x.qStop lvl then { x.setField (rQCTL lvl) 9 1 0 with tailAt := s.serial } else x).noteHead w lvl

/-- SKIP: only while STOP = 1. -/
def State.queueSkip (s : State) (w lvl : Nat) : State :=
  match s.world? w with
  | none => s
  | some x => if x.qStop lvl then (s.modWorld w fun x => x.setField (rQCTL lvl) 9 1 0).passHead w lvl else s

/-- CLR: only while EN = 0. The commands that are dropped count as passed for a BARRIER that has recorded them. -/
def State.queueClear (s : State) (w lvl : Nat) : State :=
  s.modWorld w fun x =>
    if x.qEn lvl then x
    else
      let y := (((x.setField (rQCTL lvl) 9 1 0).setField (rQCTL lvl) 16 8 0).setReg (rQHEAD lvl) 0).setReg (rQTAIL lvl) 0
      { y with taken := put x.taken lvl (look 0 x.taken lvl + x.qLeft lvl), ready := put x.ready lvl 0,
               barriers := x.barriers.filter fun b => b.lvl ≠ lvl }

/-- QTAIL_WRITE. -/
def execQtailWrite (w lvl : Nat) (value : DWord) (s : State) : Out := .next ((s.admitCtl w (rQTAIL lvl) value).queueTail w lvl value.toNat)

/-- QCTL_RESUME. -/
def execQctlResume (w lvl : Nat) (s : State) : Out := .next ((s.admitCtl w (rQCTL lvl) (BitVec.ofNat 64 (2 ^ 24))).queueResume w lvl)

/-- QCTL_SKIP. -/
def execQctlSkip (w lvl : Nat) (s : State) : Out := .next ((s.admitCtl w (rQCTL lvl) (BitVec.ofNat 64 (2 ^ 25))).queueSkip w lvl)

/-- QCTL_CLR. -/
def execQctlClr (w lvl : Nat) (s : State) : Out := .next ((s.admitCtl w (rQCTL lvl) (BitVec.ofNat 64 (2 ^ 26))).queueClear w lvl)

/-- DQERR_CLEAR (R302). -/
def execDqerrClear (w : Nat) (s : State) : Out := .next ((s.admitCtl w rDQERR 0).modWorld w fun x => x.setReg rDQERR 0)

/-! ### TLB invalidation (R63, R64) -/

/-- Is a launch of the partition in flight (R51, R63)? -/
def State.inFlight (s : State) (part : Nat) : Bool := s.launches.any fun l => l.part = part

/-- GO: BUSY is set, and the range that TLBINV_VA names now is the one that goes; ignored while BUSY or through another function than the owner's. -/
def State.tlbGo (s : State) (w : Nat) : State :=
  match s.owned w with
  | none => s
  | some p => if p.busy.isSome then s else s.modPart p.id fun q => { q with busy := some s.serial, busyVa := q.tlbva }

/-- The pages that TLBINV_VA named at the GO: log2 of their number, and the first (Table 02-6). -/
def Partition.invRange (p : Partition) : Nat × Nat :=
  let o := field p.busyVa.toNat 0 6
  (o, field p.busyVa.toNat 12 40 / 2 ^ o * 2 ^ o)

/-- TLBINV_GO. -/
def execTlbinvGo (w : Nat) (s : State) : Out := .next ((s.admitCtl w 0x010 1).tlbGo w)

/-- TLBINV_COMPLETE (R64): once no access that a dropped translation may have served is in flight, the entries of the range go and BUSY clears. -/
def execTlbinvComplete (part : Nat) (s : State) : Out :=
  match s.part? part with
  | none => .next s
  | some p =>
    let (o, first) := p.invRange
    let hit (page n : Nat) : Bool := decide (page < first + 2 ^ o) && decide (first < page + n)
    let owed := s.pend.any (fun x => s.pendPart x = some part && hit (x.va.toNat / 4096) (x.va.toNat % 4096 + x.size + 4095)) ||
      s.ext.any fun e => e.reply.isNone && (match s.world? e.world with | some x => x.part = part | none => false)
    if p.busy.isNone || owed then .next s
    else
      .next ({ s with tlb := s.tlb.filter fun t => !(p.bulks.contains (bulkOf t.core) && hit t.page (2 ^ t.order)) }.modPart part fun q =>
        { q with busy := none })

/-! ### The fault queue (R316) -/

/-- The first identifier from `i` on that no outstanding record has. -/
def freeId (used : List Nat) : Nat → Nat → Option Nat
  | 0, _ => none
  | n + 1, i => if used.contains i then freeId used n ((i + 1) % 65536) else some i

/-- A waiting fault record: who waits, chain or group, where, and its oldest record. -/
structure Waiting where
  src : Writer
  core : Nat
  gi : Nat
  pc : Word
  owed : Owed

/-- The first group or chain of a world that has a record to write. -/
def State.waitingRecord (s : State) (w : Nat) : Option Waiting :=
  let mine (lid : Nat) : Bool := match s.launch? lid with | some l => decide (l.world = w) | none => false
  let g := s.groups.findSome? fun (g : Group) =>
    match g.stuck, s.block? g.gid.lid g.gid.blk with
    | some ⟨pc, _, _, _, .replay (o :: _) _ _⟩, some b => if mine g.gid.lid then some ⟨.thread g.gid 0, b.core, g.gid.gi, pc, o⟩ else none
    | _, _ => none
  match g with
  | some x => some x
  | none => s.chains.findSome? fun (k : Chain) =>
    match k.stuck with
    | some (.replay (o :: _) _ _) => if mine k.gid.lid then some ⟨.chain k.id, k.core, k.gid.gi, k.pc, o⟩ else none
    | _ => none

/-- Change what a group or chain that is parked for replay waits for, wherever it is. -/
def State.modHold (s : State) (src : Writer) (f : Hold → Hold) : State :=
  match src with
  | .thread g _ => s.modGroupAny g fun x =>
    { x with stuck := match x.stuck with | some t => some { t with hold := f t.hold } | none => none }
  | .chain id => s.modChainAny id fun x => { x with stuck := x.stuck.map f }
  | _ => s

/-- Fault record (Table 12-5). -/
def faultRecord (x : Waiting) (id : Nat) : List Byte :=
  toBytes 8 x.owed.addr ++ toBytes 2 id ++ toBytes 1 (b2n x.owed.write + 2 * (match x.src with | .chain _ => 1 | _ => 0)) ++ toBytes 1 x.gi ++
  toBytes 2 x.core ++ toBytes 2 0 ++ toBytes 8 x.pc.toNat ++ toBytes 8 x.owed.time

/-- PAGE_FAULT_RECORD (R316). -/
def execPageFaultRecord (w : Nat) (s : State) : Out :=
  match s.world? w, s.waitingRecord w with
  | some x, some r =>
    let k := ringLog (x.fieldOf rFQCTL 0 4) 4 12
    let tail := (x.reg rFQTAIL).toNat
    if !s.fqEnabled w then .next s
    else if ringFull k (x.reg rFQHEAD).toNat tail then .next (s.modWorld w fun x => x.setField rFQCTL 9 1 1)
    else
      match freeId (x.faults.map fun f => f.id) 65536 x.nextFault with
      | none => .next s
      | some id =>
        match s.agentWrite .host x.part w ((x.reg rFQBASE).toNat + 32 * (tail % 2 ^ k)) (faultRecord r id) with
        | none => .next s
        | some o =>
          let s1 := (match o with
            | .ok t => t
            | .error _ => s.fenceAgent .host x.part w ((x.reg rFQBASE).toNat + 32 * (tail % 2 ^ k)) 32).modWorld w fun (x : World) =>
            { (x.setReg rFQTAIL (BitVec.ofNat 64 ((tail + 1) % 2 ^ k))) with
              faults := x.faults ++ [(⟨id, r.src⟩ : FaultRec)], nextFault := (id + 1) % 65536 }
          .next (s1.modHold r.src fun h => match h with
            | .replay (_ :: os) recs cs => .replay os (recs ++ [(id, r.owed.addr)]) cs
            | h => h)
  | _, _ => .next s

/-- Answer outstanding records. -/
def State.answer (s : State) (w : Nat) (cancel : Bool) (sel : Nat → Bool) : State :=
  match s.world? w with
  | none => s
  | some x =>
    (x.faults.filter fun f => sel f.id).foldl (fun s f =>
      s.modHold f.src fun h => match h with
        | .replay os recs cs =>
          .replay os (recs.filter fun r => r.1 ≠ f.id) (if cancel then cs ++ (recs.filter fun r => r.1 = f.id).map fun r => r.2 / 4096 else cs)
        | h => h) (s.modWorld w fun x => { x with faults := x.faults.filter fun f => !sel f.id })

/-- FQANS (R316). -/
def execFqans (w id : Nat) (all cancel : Bool) (s : State) : Out :=
  .next ((s.admitCtl w rFQANS (BitVec.ofNat 64 (id % 2 ^ 16 + b2n all * 2 ^ 16 + b2n cancel * 2 ^ 17))).answer w cancel
    fun i => all || i = id % 2 ^ 16)

/-- Clearing FQCTL.EN cancels every outstanding record and every record that waits for room (R316). -/
def State.faultsOff (s : State) (w : Nat) : State :=
  let off (h : Hold) : Hold := match h with
    | .replay os recs cs => .replay [] recs (cs ++ os.map fun (o : Owed) => o.addr / 4096)
    | h => h
  let ids := s.lidsOf w
  let upG (g : Group) : Group :=
    if ids.contains g.gid.lid then { g with stuck := match g.stuck with | some t => some { t with hold := off t.hold } | none => none } else g
  let upK (k : Chain) : Chain := if ids.contains k.gid.lid then { k with stuck := k.stuck.map off } else k
  let s1 := { s with
    groups := s.groups.map upG
    chains := s.chains.map upK
    worlds := s.worlds.map fun (x : World) =>
      if x.w = w then
        { (x.setField rFQCTL 8 1 0) with ctx := match x.ctx with
          | some c => some { c with groups := c.groups.map upG, chains := c.chains.map upK }
          | none => none }
      else x }
  s1.answer w true fun _ => true

/-- FQCTL_EN_CLEAR (R316). -/
def execFqctlEnClear (w : Nat) (s : State) : Out := .next ((s.admitCtl w rFQCTL 0).faultsOff w)

/-- CLR: only while EN = 0 (Table 12-4). -/
def State.faultsClear (s : State) (w : Nat) : State :=
  s.modWorld w fun x =>
    if bit (x.reg rFQCTL).toNat 8 then x else ((x.setReg rFQTAIL 0).setReg rFQHEAD 0).setField rFQCTL 9 1 0

/-- FQCTL_CLR (R316). -/
def execFqctlClr (w : Nat) (s : State) : Out := .next ((s.admitCtl w rFQCTL (BitVec.ofNat 64 (2 ^ 10))).faultsClear w)

/-! ### Galley queries (R329, R333) -/

/-- GO of TRQ, ignored while BUSY, when KIDX and W64 are stored all the same: BUSY is set, and cleared at once when the answer is there; what is not translated yet is. An entry that is not valid has no galley:
BUSY clears with VALID 0 (LOG 41). -/
def State.queryGo (s : State) (w kidx : Nat) (w64 export_ : Bool) : State :=
  match s.world? w with
  | none => s
  | some x =>
    if bit (x.reg rTRQ).toNat 15 then s.modWorld w fun x => x.setField rTRQ 0 13 (kidx % 4096 + b2n w64 * 2 ^ 12)
    else
      match s.queryKey x kidx w64 with
      | none => s.modWorld w fun x => x.setReg rTRQ (BitVec.ofNat 64 (kidx % 4096 + b2n w64 * 2 ^ 12))
      | some k =>
        let s1 := s.modWorld w fun x =>
          { x.setReg rTRQ (BitVec.ofNat 64 (kidx % 4096 + b2n w64 * 2 ^ 12 + b2n export_ * 2 ^ 14 + 2 ^ 15)) with query := some k }
        ((if (s1.findGalley k).isSome then s1 else s1.startTranslation w kidx k)).settleQuery w

/-- The translation cores finish a galley of a world's KIDX and width, when one is being made (R328). -/
def State.translated (s : State) (w kidx : Nat) (w64 : Bool) (resid : Nat) (safe : Bool) : State :=
  afterOut (execTranslation w kidx w64 resid safe s) s

/-- TRQ_GO (R329): `resid` and `safe` are what a translation gives. -/
def execTrqGo (w kidx : Nat) (w64 : Bool) (resid : Nat) (safe : Bool) (s : State) : Out :=
  .next (((s.admitCtl w rTRQ (BitVec.ofNat 64 (kidx % 4096 + b2n w64 * 2 ^ 12 + 2 ^ 13))).queryGo w kidx w64 false).translated w (kidx % 4096) w64
    resid safe)

/-- TRQ_EXPORT (R333). -/
def execTrqExport (w kidx : Nat) (w64 : Bool) (resid : Nat) (safe : Bool) (s : State) : Out :=
  .next (((s.admitCtl w rTRQ (BitVec.ofNat 64 (kidx % 4096 + b2n w64 * 2 ^ 12 + 2 ^ 13 + 2 ^ 14))).queryGo w kidx w64 true).translated w (kidx % 4096)
    w64 resid safe)

/-! ### Loop records (R368) -/

/-- The galley that a KIDX and a width of a world name. -/
def State.namedGalley (s : State) (x : World) (kidx : Nat) (w64 : Bool) : Option Galley :=
  (s.queryKey x kidx w64).bind fun k => s.findGalley k

def sat32 (n : Nat) : Nat := min n 0xFFFFFFFF

/-- The counts of a loop record: 0 the bundles issued, 1 ITER, 8 to 21 the bundles whose slot is filled, 32 to 47 the stall cycles. -/
def loopCounts : List Nat := [0, 1] ++ (List.range 14).map (8 + ·) ++ (List.range 16).map (32 + ·)

/-- How far a count has moved since the last GO: it depends on the native schedule (LOG 3); nothing moves while no launch runs, and no slot is filled in more
bundles than are issued. -/
def Galley.moved (g : Galley) (fresh n k : Nat) : Nat :=
  let x := (Config.profileWord fresh g.id n k).toNat
  if !g.used then 0
  else if 8 ≤ k && k < 22 then x % ((Config.profileWord fresh g.id n 0).toNat + 1) else x

/-- The galley with the counts of its `count` records brought up to date; `on` says that a launch still runs in it. -/
def Galley.profiled (g : Galley) (fresh count : Nat) (on : Bool) : Galley :=
  { g with
    used := on
    loops := (List.range count).flatMap fun n => loopCounts.map fun k => (n * 64 + k, look 0 g.loops (n * 64 + k) + g.moved fresh n k) }

/-- One loop record: for every slot FILLED + NOPS is the number of bundles issued, CYCLES is that plus the stalls (R368). Record 0 is that of the code outside
loops. -/
def loopRecord (g : Galley) (n : Nat) : List Byte :=
  let f (k : Nat) : Nat := look 0 g.loops (n * 64 + k)
  let pc (k : Nat) : Nat := if n = 0 then 0xFFFFFFFF else (Config.loopShape g.id n k).toNat
  toBytes 4 (pc 0) ++ toBytes 4 (pc 1) ++ toBytes 4 (Config.loopShape g.id n 2).toNat ++ toBytes 4 0 ++ toBytes 8 (f 1) ++
  toBytes 8 (f 0 + ((List.range 16).map fun k => f (32 + k)).sum) ++ ((List.range 14).flatMap fun k => toBytes 4 (sat32 (f (8 + k)))) ++
  ((List.range 14).flatMap fun k => toBytes 4 (sat32 (f 0 - f (8 + k)))) ++ ((List.range 16).flatMap fun k => toBytes 4 (sat32 (f (32 + k)))) ++
  List.replicate 48 0

/-- A plain write of a world that no launch makes: put in flight, or sent to the host or a peer; one that is not permitted is lost (LOG 30). -/
def State.worldWrite (s : State) (p w va : Nat) (bs : List Byte) : State :=
  match s.checkGlobal .core none p w p [] true false false va bs.length with
  | .error _ => s.fenceAgent .core p w va bs.length
  | .ok ps => (ps.foldl (fun (st : State × List Byte) x =>
      let now := st.2.take x.len
      (if x.outside then st.1.sendRun p w s.serial x.va x.pa now
       else st.1.issue (.dispatcher p) s.serial 0 .other x.va x.pa (.bytes now) [] false, st.2.drop x.len)) (s, bs)).1

/-- GO of PROFC: COUNT records go to the buffer as plain writes of the world. -/
def State.profGo (s : State) (w count : Nat) : State :=
  match s.world? w with
  | none => s
  | some x =>
    let r := (x.reg rPROFC).toNat
    match s.namedGalley x (field r 0 12) (bit r 12) with
    | none => s.modWorld w fun x => x.setField rPROFC 16 16 0
    | some g =>
      let n := count % 65536
      let base := (x.reg rPROFB).toNat
      let h := g.profiled s.fresh n (s.launches.any fun l => l.galley = g.id)
      let s1 := { s with galleys := s.galleys.map fun (y : Galley) => if y.id = g.id then h else y }
      ((List.range n).foldl (fun s i => s.worldWrite x.part w (base + 256 * i) (loopRecord h i)) s1).modWorld w fun x =>
        x.setField rPROFC 16 16 n

/-- PROFC_GO (R368). -/
def execProfcGo (w count : Nat) (s : State) : Out := .next ((s.admitCtl w rPROFC (BitVec.ofNat 64 (2 ^ 13))).profGo w count)

/-- CLEAR of PROFC: counting starts again, for the launches that still run as well. -/
def State.profClear (s : State) (w : Nat) : State :=
  match s.world? w with
  | none => s
  | some x =>
    let r := (x.reg rPROFC).toNat
    match s.namedGalley x (field r 0 12) (bit r 12) with
    | none => s
    | some g => { s with galleys := s.galleys.map fun (y : Galley) =>
        if y.id = g.id then { y with used := s.launches.any fun l => l.galley = y.id, loops := [] } else y }

/-- PROFC_CLEAR (R368). -/
def execProfcClear (w : Nat) (s : State) : Out := .next ((s.admitCtl w rPROFC (BitVec.ofNat 64 (2 ^ 15))).profClear w)

/-- The current weights of the slots that a core has issued in the last 64 cycles (Tables 13-4, 15-6). Which slots it filled is the native schedule's: `issued` says in how
many of these cycles it issued slot 0 to 13, and then in how many of them the matrix slot had type FP4 or S4 (LOG 135). -/
def coreSum (issued : List Nat) : Nat :=
  let n (k : Nat) : Nat := min 64 (issued.getD k 0)
  let small := min (n 8) (n 14)
  ((List.range 8).map n).sum * 6 + small * 64 + (n 8 - small) * 48 + (n 9 + n 10) * 4 + n 11 * 2 + n 12 + n 13

/-- The cores that freeze, from a list in their order: until the sum that is left is within the limit. -/
def freezeTo (limit : Nat) : Nat → List (Nat × Nat) → List Nat
  | _, [] => []
  | sum, c :: cs => if sum ≤ limit then [] else c.1 :: freezeTo limit (sum - c.2) cs

/-- CURRENT_LIMITER_FREEZE (R369): while the sum of a bulkhead exceeds its limit, cores freeze for the next cycle in descending order of their own sums, ties to the
lower core; in replay mode the whole bulkhead (R370). A frozen core's sum leaves the projection (DESIGN CHOICE, LOG 135). -/
def execCurrentLimiterFreeze (b : Nat) (issued : List (List Nat)) (s : State) : Out :=
  match s.bulk? b with
  | none => .next s
  | some x =>
    let mine := (List.range 32).map fun k => (b * 32 + k, coreSum (issued.getD k []))
    let sum := (mine.map fun e => e.2).sum
    let limit := Config.currentLimit b x.lowered
    let whole := s.parts.any fun p => p.replayOn.isSome && p.bulks.contains b
    let order := mine.mergeSort fun c d => decide (d.2 < c.2) || (c.2 = d.2 && decide (c.1 ≤ d.1))
    let cold := if sum ≤ limit then [] else if whole then mine.map fun e => e.1 else freezeTo limit sum order
    .next { s with frozen := s.frozen ++ cold.filter fun c => !s.frozen.contains c }

end Sys2Proof.Machine
end

