-- ==== Sys2Proof/Machine/Control.lean ====
section
/-! DEFINITION. Control flow (08, R206 to R220), the emulation space (R194), and the events that end waits of this family (R167, R218). -/

namespace Sys2Proof.Machine

/-- Bytes of TEXT of the launch's kernel. -/
def Ctx.textSize (c : Ctx) : Nat := c.l.obj.text.length * 8

/-- Is an address a valid PC (R187)? -/
def Ctx.inText (c : Ctx) (t : Int) : Bool := decide (0 ≤ t) && decide (t < c.textSize) && t % 8 = 0

/-- The target of a displacement in words (R187, R213). -/
def Ctx.target (c : Ctx) (disp : Int) : Int := (c.is.pc.toNat : Int) + 8 * disp

/-- FETCH on lanes with their failing addresses (R208 to R213, R310). -/
def fetchTrap (c : Ctx) (act : Mask) (bad : List (Nat × Int)) (s : State) : Out :=
  .next (takeTrap c Cause.fetch (maskOf (bad.map fun b => b.1)) act 0
    (fun l => match bad.find? fun b => b.1 = l with | none => 0 | some b => BitVec.ofInt 64 b.2) s)

/-- UNIFORM on the lanes that differ from the lowest lane (R165). -/
def uniformTrap (c : Ctx) (act : Mask) (differ : List Nat) (s : State) : Out :=
  .next (takeTrap c Cause.uniform (maskOf differ) act 0 (fun _ => 0) s)

/-- The shape of BRA and BRX (R208, R209, R210): `t` is the target of each lane, `u` the uniform form, which compares every lane of the fragment, also
those whose guard is false (R209); only the guard that never holds makes it a no-op (R164). -/
def branch (hd : Hdr) (u : Bool) (t : Ctx → State → Nat → Int) (s : State) : Out :=
  withIssuer s fun c =>
    let act := c.act hd
    let f := lanes c.is.mask
    let j := f.headD 0
    let differ := f.filter fun l => inMask act l != inMask act j || t c s l ≠ t c s j
    if u && !(hd.gp = 0 && hd.neg) && !differ.isEmpty then uniformTrap c act differ s
    else if act = 0 then .next (retire c s)
    else
        let bad := ((lanes act).map fun l => (l, t c s l)).filter fun b => !c.inText b.2
        if bad.isEmpty then .next (retireTo c (fun l => if inMask act l then BitVec.ofInt 32 (t c s l) else c.after) s)
        else fetchTrap c act bad s

/-- The return stack of a lane, top first (R211). -/
def Group.stack (g : Group) (l : Nat) : List Word := look [] g.rets l

/-- The shape of CALL and CALLX (R212). -/
def callTo (hd : Hdr) (t : Ctx → State → Nat → Int) (s : State) : Out :=
  withIssuer s fun c =>
    let act := c.act hd
    if act = 0 then .next (retire c s)
    else
      let bad := ((lanes act).map fun l => (l, t c s l)).filter fun b => !c.inText b.2
      let full := (lanes act).filter fun l => 256 ≤ (c.g.stack l).length
      if !bad.isEmpty then fetchTrap c act bad s
      else if !full.isEmpty then .next (illegalRun c (maskOf full) act s)
      else
        let s1 := s.modGroup c.gid fun g =>
          { g with rets := (lanes act).foldl (fun r l => put r l (c.after :: look [] r l)) g.rets }
        .next (retireTo c (fun l => if inMask act l then BitVec.ofInt 32 (t c s l) else c.after) s1)

/-- NOP (R207). -/
def execNop (_hd : Hdr) (s : State) : Out := withIssuer s fun c => .next (retire c s)

/-- BRA (R208). -/
def execBra (hd : Hdr) (u : Bool) (disp : BitVec 40) (s : State) : Out := branch hd u (fun c _ _ => c.target disp.toInt) s

/-- BRX (R209). -/
def execBrx (hd : Hdr) (u : Bool) (a : Opnd) (s : State) : Out :=
  branch hd u (fun c s l => ((c.readReg s.fresh 1 l a).toNat : Int)) s

/-- CALL (R212). -/
def execCall (hd : Hdr) (disp : BitVec 40) (s : State) : Out := callTo hd (fun c _ _ => c.target disp.toInt) s

/-- CALLX (R212). -/
def execCallx (hd : Hdr) (a : Opnd) (s : State) : Out := callTo hd (fun c s l => ((c.readReg s.fresh 1 l a).toNat : Int)) s

/-- RET (R212). -/
def execRet (hd : Hdr) (s : State) : Out :=
  withIssuer s fun c =>
    let act := c.act hd
    let empty := (lanes act).filter fun l => (c.g.stack l).isEmpty
    if !empty.isEmpty then .next (illegalRun c (maskOf empty) act s)
    else
      let s1 := s.modGroup c.gid fun g => { g with rets := (lanes act).foldl (fun r l => put r l ((look [] r l).drop 1)) g.rets }
      .next (retireTo c (fun l => if inMask act l then (c.g.stack l).headD 0 else c.after) s1)

/-- LOOP (R213). -/
def execLoop (hd : Hdr) (d : Opnd) (disp : Word) (s : State) : Out :=
  withIssuer s fun c =>
    let act := c.act hd
    let t := c.target disp.toInt
    let cnt (l : Nat) : Word := (c.readReg s.fresh 1 l d).setWidth 32 - 1
    let take := (lanes act).filter fun l => cnt l ≠ 0
    if !take.isEmpty && !c.inText t then fetchTrap c act (take.map fun l => (l, t)) s
    else
      let s1 := s.modGroup c.gid (c.writeLanes s.fresh (some (d, 1)) (fun l => { d := (cnt l).setWidth 64 }) (lanes act))
      .next (retireTo c (fun l => if take.contains l then BitVec.ofInt 32 t else c.after) s1)

/-- The writes in flight of lanes that exit stay counted for their group, and belong to no live lane any more. -/
def State.orphan (s : State) (gid : Gid) (act : Mask) : State :=
  { s with pend := s.pend.map fun (p : Pend) => match p.src with
    | .thread g l => if g = gid && inMask act l then { p with src := .thread g (64 + l) } else p
    | _ => p }

/-- Lanes leave the machine (R156, R214). -/
def exitLanes (c : Ctx) (act : Mask) (s : State) : State :=
  let was := c.g.hasArrived
  let s := s.orphan c.gid act
  let s := (s.modGroup c.gid fun g =>
    let g := { g with
      live := g.live &&& ~~~ act
      handler := match g.handler with | none => none | some h => some { h with lanes := h.lanes &&& ~~~ act } }
    g.issued c.is.pc c.is.mask [mkFrag c.after (c.is.mask &&& ~~~ act)]).count c.core
  let s := match s.group? c.gid with
    | some g => if g.live = 0 && was then s.oweNext c.gid else if !was && g.hasArrived then s.oweDomain c.gid else s
    | none => s
  endGroups c.gid.lid c.gid.blk (settle c.gid s)

/-- EXIT (R214, R106, R287, R314). Where other lanes wait at a convergence point that an exit can complete, the earlier writes of the exiting
threads have performed first (Table 03-5). -/
def execExit (hd : Hdr) (s : State) : Out :=
  withIssuer s fun c =>
    let act := c.act hd
    if act = 0 then .next (retire c s)
    else if s.converging c.gid.lid c.gid.blk && !s.settled c.gid act then stall s
    else if c.g.live &&& ~~~ act = 0 then
      awaitMats c act 0 s fun s => awaitChains c act 0 s fun s => reportErr c act s fun s => .next (exitLanes c act s)
    else .next (exitLanes c act s)

/-- A lane mask operand (R154, R206). -/
def Ctx.readMask (c : Ctx) (fresh lane : Nat) (a : Opnd) : Mask := c.readReg fresh (if c.w64 then 2 else 1) lane a

/-- WAITR (R215, R167). Arrival follows the lanes' earlier writes (Table 03-5). -/
def execWaitr (hd : Hdr) (pd : Nat) (a : Opnd) (t : Timeout) (s : State) : Out :=
  withIssuer s fun c =>
    let act := c.act hd
    if act = 0 then .next (retire c s)
    else
      afterWrites c act s fun s =>
        let n := match t with | .imm n => n | .reg r => (SMap.get c.g.s r).toNat
        .next (settle c.gid (parkAt c act (.waitr pd ((lanes act).map fun l => (l, c.readMask s.fresh l a, n))) s))

/-- WAITR_TIMEOUT (R167): the lanes parked at this WAITR whose deadline is the present cycle, and which have not converged, are released with pd = 0. -/
def execWaitrTimeout (g : Gid) (pc : Nat) (s : State) : Out :=
  match s.group? g with
  | none => .next s
  | some x =>
    match x.frags.find? fun f => f.pc.toNat = pc && (match f.park with | some (_, .waitr _ _) => true | _ => false) with
    | none => .next s
    | some f => .next (s.modGroup g fun x => x.timeOut (fun n => n = 0) f)

/-- SYNC (R216, R168). -/
def execSync (hd : Hdr) (a : Opnd) (s : State) : Out :=
  withIssuer s fun c =>
    let act := c.act hd
    if act = 0 then .next (retire c s)
    else
      afterWrites c act s fun s =>
        .next (settle c.gid (parkAt c act (.sync ((lanes act).map fun l => (l, c.readMask s.fresh l a))) s))

/-- YIELD (R217): the fragment is marked, and the group goes to the end of its core's round robin. -/
def execYield (hd : Hdr) (s : State) : Out :=
  withIssuer s fun c =>
    if c.act hd = 0 then .next (retire c s)
    else
      let others := (c.g.frags.filter fun f => f.park.isNone && f.pc ≠ c.is.pc).foldl (fun m f => m ||| f.mask) 0
      let s := advance c [{ mkFrag c.after c.is.mask with yield := if others = 0 then none else some others }] s
      .next { s with rr := (s.rr.filter fun x => x ≠ c.gid) ++ (if s.rr.contains c.gid then [c.gid] else []) }

/-- PAUSE (R218). -/
def execPause (hd : Hdr) (n : Nat) (s : State) : Out :=
  withIssuer s fun c =>
    let s1 := if c.act hd = 0 || n = 0 then s else s.modGroup c.gid fun g => { g with pause := some n }
    .next (retire c s1)

/-- PAUSE_END (R218, R245): a count that has run out holds the group no more. -/
def execPauseEnd (g : Gid) (s : State) : Out :=
  .next (s.modGroup g fun x => { x with pause := if x.pause = some 0 then none else x.pause })

/-- A trap with a code in %tinfo (R219). -/
def codeTrap (c : Ctx) (cause : Nat) (act : Mask) (code : Word) (s : State) : Out :=
  .next (takeTrap c cause act act (code.setWidth 64) (fun _ => 0) s)

/-- BRK (R219, R311): a debugger stop while the world holds the debug right, else a trap. -/
def execBrk (hd : Hdr) (code : Word) (s : State) : Out :=
  withIssuer s fun c =>
    let act := c.act hd
    if act = 0 then .next (retire c s)
    else if (match s.world? c.l.world with | some x => x.granted | none => false) then
      .next (s.debugStop c.gid .brk c.is.mask c.is.pc 0 c.is.len false)
    else codeTrap c Cause.brk act code s

/-- TRAP (R219). -/
def execTrap (hd : Hdr) (code : Word) (s : State) : Out :=
  withIssuer s fun c =>
    let act := c.act hd
    if act = 0 then .next (retire c s) else codeTrap c Cause.trap act code s

/-- TRET (R220). -/
def execTret (_hd : Hdr) (next : Bool) (s : State) : Out :=
  withIssuer s fun c =>
    if c.g.handler.isNone then .next (illegalRun c c.is.mask c.is.mask s)
    else .next (settle c.gid (parkAt c c.is.mask (.tret next) s))

/-- A word of the emulation space (R194). -/
def execEmul (hd : Hdr) (_op _body _pre : Nat) (s : State) : Out :=
  withIssuer s fun c =>
    let act := c.act hd
    if act = 0 then .next (retire c s) else .next (takeTrap c Cause.emul act act 0 (fun _ => 0) s)

end Sys2Proof.Machine
end

