-- ==== Sys2Proof/Machine/Sync.lean ====
section
/-! DEFINITION. Fences, barriers, supersteps, queues and semaphores (09, R246 to R252; 04, R123 to R130). -/

namespace Sys2Proof.Machine

/-! ### FENCE (R247) -/

/-- Has every PUT of a group performed? -/
def State.putsDone (s : State) (g : Gid) : Bool :=
  s.pend.all fun p => match p.src with | .thread x _ => !(x = g && p.cls = .put) | _ => true

/-- Has every write of the lanes to a host or peer window been acknowledged (R101)? PUTs count among them (DEDUCED, LOG 115). -/
def State.outsideSettled (s : State) (g : Gid) (m : Mask) : Bool :=
  s.pend.all fun p => match p.src with | .thread x l => !(x = g && inMask m l && p.ext.isSome) | _ => true

/-- Have all chains that a group has issued performed (R96)? -/
def State.chainsDone (s : State) (g : Gid) : Bool := (s.chainsOf g).all s.chainDone

/-- FENCE (R247, R85, R96): a seq fence waits for the writes of its lanes; an acq_rel fence waits for their
atomics and leaves their stores for the later writes to follow. -/
def execFence (hd : Hdr) (async : Bool) (ord : Order) (scope : Scope) (s : State) : Out :=
  withIssuer s fun c =>
    let act := c.act hd
    if act = 0 then .next (retire c s)
    else
      reportErr c act s fun s =>
        if (ord = .str || async) && !s.settled c.gid act then stall s
        else if !s.atomsDone c.gid act false then stall s
        else if scope = .sys && !s.outsideSettled c.gid act then stall s
        else if async && !(s.putsDone c.gid && s.chainsDone c.gid) then stall s
        else
          .next (retire c (s.modGroup c.gid fun g =>
            { g with covers := (lanes act).foldl (fun k l => put k l (s.ownWrites (.thread c.gid l))) g.covers }))

/-! ### Barriers (R248) -/

/-- Replace the open phase of a barrier. -/
def Block.setPhase (b : Block) (id : Nat) (p : Option Phase) : Block :=
  { b with phases := (b.phases.filter fun x => x.id ≠ id) ++ p.toList }

/-- The shape of BAR and BARARR: arrivals of the lanes of Act in ascending order; those of a BAR whose phase is still open afterwards park. -/
def barOp (hd : Hdr) (id count : Nat) (waits : Bool) (s : State) : Out :=
  withIssuer s fun c =>
    let act := c.act hd
    if act = 0 then .next (retire c s)
    else
      afterWrites c act s fun s =>
        let old := c.b.phases.find? fun p => p.id = id
        let who := (lanes act).map fun l => (c.gid.gi, l)
        let p : Phase := old.getD ⟨id, count, 0, []⟩
        let twice := (lanes act).filter fun l => count = 0 && p.who.contains (c.gid.gi, l)
        let go (m : Mask) (s : State) : State := if waits then parkAt c m (.bar id) s else retire c s
        if p.count ≠ count then .next (illegalRun c act act s)
        else if !twice.isEmpty then .next (illegalRun c (maskOf twice) act s)
        else if count = 0 then
          let s1 := s.modBlock c.gid.lid c.gid.blk fun b => b.setPhase id (some { p with who := p.who ++ who })
          .next (settle c.gid (go act s1))
        else if p.made + who.length < count then
          .next (go act (s.modBlock c.gid.lid c.gid.blk fun b => b.setPhase id (some { p with made := p.made + who.length })))
        else
          let left := (p.made + who.length) % count
          let rest := maskOf ((lanes act).drop (who.length - left))
          let s1 := if rest = 0 then retire c s else go rest s
          .next ((s1.releaseBar c.gid.lid c.gid.blk id c.gid rest).modBlock c.gid.lid c.gid.blk fun b =>
            b.setPhase id (if left = 0 then none else some ⟨id, count, left, []⟩))

/-- BAR (R248). -/
def execBar (hd : Hdr) (id count : Nat) (s : State) : Out := barOp hd id count true s

/-- BARARR (R248). -/
def execBararr (hd : Hdr) (id count : Nat) (s : State) : Out := barOp hd id count false s

/-! ### Supersteps (R123 to R127, R249) -/

/-- Set the arrival flags of lanes; a group that has thereby arrived fixes what its domain waits for (R100). -/
def State.arriveStep (s : State) (gid : Gid) (act : Mask) : State :=
  match s.group? gid with
  | none => s
  | some g =>
    let s1 := s.modGroup gid fun g => { g with arrived := g.arrived ||| act }
    match s1.group? gid with
    | none => s1
    | some g1 => if !g.hasArrived && g1.hasArrived then s1.oweDomain gid else s1

/-- The shape of SSTEP and SSTARR (R124, R249): arrival follows the writes of its lanes. -/
def stepOp (hd : Hdr) (waits : Bool) (s : State) : Out :=
  withIssuer s fun c =>
    let act := c.act hd
    if act = 0 then .next (retire c s)
    else
      reportErr c act s fun s =>
        if c.l.dom.isNone then .next (illegalRun c act act s)
        else if act &&& c.g.arrived ≠ 0 then .next (illegalRun c (act &&& c.g.arrived) act s)
        else
          afterWrites c act s fun s =>
            let s1 := s.arriveStep c.gid act
            .next (settle c.gid (if waits then parkAt c act .step s1 else retire c s1))

/-- SSTEP (R124, R249). -/
def execSstep (hd : Hdr) (s : State) : Out := stepOp hd true s

/-- SSTARR (R124, R249). -/
def execSstarr (hd : Hdr) (s : State) : Out := stepOp hd false s

/-- SSTWAIT (R124, R249): the lanes whose flag is set park. -/
def execSstwait (hd : Hdr) (s : State) : Out :=
  withIssuer s fun c =>
    let act := c.act hd
    if act = 0 then .next (retire c s)
    else
      reportErr c act s fun s =>
        if c.l.dom.isNone then .next (illegalRun c act act s)
        else
          let m := act &&& c.g.arrived
          .next (if m = 0 then retire c s else parkAt c m .step s)

/-- BEACON_DRAIN_COMPLETE (R125): once everything a step owes has performed, the domain enters END: its flags clear and its waiting lanes depart. From
END the next step opens. -/
def execBeaconDrainComplete (part dom : Nat) (s : State) : Out :=
  match s.part? part with
  | none => .next s
  | some p =>
    match p.doms.find? fun d => d.idx = dom with
    | none => .next s
    | some d =>
      match d.holder with
      | none => .next s
      | some lid =>
        let owes := (d.owed.any fun i => s.pend.any fun q => q.id = i) ||
          (d.chains.any fun i => s.chains.any fun k => k.id = i && !s.chainDone k)
        if d.st = .ending then
          .next ((s.modPart part fun p =>
            { p with doms := p.doms.map fun x => if x.idx = dom then { x with st := .opened, step := x.step + 1 } else x }).settleDomain lid)
        else if d.st ≠ .draining || owes then .next s
        else
          let s1 := s.modPart part fun p =>
            { p with doms := p.doms.map fun x =>
                if x.idx = dom then { x with st := .ending, owed := x.nextOwed, chains := x.nextChains, nextOwed := [], nextChains := [] } else x }
          let leave (g : Group) : Group := g.frags.foldl (fun g f => match f.park with
            | some (n, .step) => g.release f.pc f.mask n
            | _ => g) { g with arrived := 0 }
          .next { s1 with groups := s1.groups.map fun (g : Group) => if g.gid.lid = lid then leave g else g }

/-! ### Queues -/

/-- QSTAT (R250). -/
def execQstat (hd : Hdr) (d : Opnd) (q : Nat) (s : State) : Out :=
  alu hd (some (d, 1)) []
    (fun c _ _ => { d := match c.b.queue? q with | none => 0 | some x => BitVec.ofNat 64 (x.entries.length + x.depth * 2 ^ 16) }) s

/-- QUEUE_STALL_RELEASE (R130): the oldest group that stalls on a queue tries again once there is an entry or room. -/
def execQueueStallRelease (g : Gid) (s : State) : Out :=
  match s.block? g.lid g.blk with
  | none => .next s
  | some b =>
    match b.stalled.find? fun x => x.1 = g.gi with
    | none => .next s
    | some (_, n, push) =>
      let ready := match b.queue? n with
        | none => true
        | some q => if push then decide (q.entries.length < q.depth) else !q.entries.isEmpty
      if ready && !b.behind g.gi n push then .next (s.modGroup g fun x => { x with qwait := false }) else .next s

/-! ### Semaphores (R251, R252) -/

/-- The access fields of a semaphore instruction. -/
def semAcc (scr : Bool) (ord : Order) (scope : Scope) : Acc :=
  { sp := if scr then .scr else .glob, sz := .b64, col := false, ord := ord, scope := scope, nl := false, a16 := false }

/-- The wick class of a SEMSIG (R251): REMOTE for another bulkhead or package. -/
def semClass (c : Ctx) (p : Piece) : WClass :=
  match region p.pa with
  | .peer _ _ => .remote
  | .host _ => .store
  | _ => if homeBulk p.pa = some (bulkOf c.core) then .store else .remote

/-- SEMSIG (R251). -/
def execSemsig (hd : Hdr) (op : SigOp) (scr : Bool) (ord : Order) (scope : Scope) (off : Word) (d a : Opnd) (s : State) : Out :=
  atomPosted hd (semAcc scr ord scope) semClass off a
    (fun c => ⟨8, op ≠ .or, fun l => .sem op (c.readReg s.fresh 2 l d), fun l => .sem op (c.readReg s.fresh 2 l d)⟩) s

/-- SEMWAIT (R252): check every lane, then park. -/
def execSemwait (hd : Hdr) (cmp : SemCmp) (scr : Bool) (ord : Order) (scope : Scope) (off : Word) (d a : Opnd) (s : State) : Out :=
  withIssuer s fun c =>
    let act := c.act hd
    let acc := semAcc scr ord scope
    if act = 0 then .next (retire c s)
    else
      let reqs := (lanes act).map fun l => (l, c.addr s.fresh acc.sp off a l)
      withLanes c act acc.sp 8 false true true reqs s fun ps =>
        watched c acc.sp 8 true false reqs s fun s =>
          let ws := ps.map fun x =>
            match x.2 with
            | p :: _ => (x.1, p.va, p.pa, c.readReg s.fresh 2 x.1 d)
            | [] => (x.1, 0, 0, 0)
          .next (parkAt c act (.semwait cmp scr ord ws) (s.touchPieces c acc.sp acc.col false (ps.flatMap fun x => x.2)))

/-- The words that %tinst shows for the instruction at a PC. -/
def Launch.instAt (l : Launch) (pc : Word) (len : Nat) : BitVec 128 :=
  let w (i : Nat) : Nat := (l.obj.text.getD (pc.toNat / 8 + i) 0).toNat
  BitVec.ofNat 128 (if len = 16 then w 1 + w 0 * 2 ^ 64 else w 0)

/-- Take a lane out of a parked SEMWAIT. -/
def Group.unwait (g : Group) (pc : Word) (lane : Nat) : Group :=
  { g with frags := (g.frags.map fun (f : Frag) =>
      match f.park with
      | some (n, .semwait c sc o ws) =>
        if f.pc = pc then
          { f with mask := f.mask &&& ~~~ (maskOf [lane]), park := some (n, .semwait c sc o (ws.filter fun x => x.1 ≠ lane)) }
        else f
      | _ => f).filter fun f => f.mask ≠ 0 }

/-- A read of a waiting lane has failed: the lane faults at its SEMWAIT (R73, R32). -/
def semFail (gid : Gid) (f : Frag) (len : Nat) (lane va : Nat) (scr : Bool) (x : Fail) (s : State) : State :=
  let m := maskOf [lane]
  match s.launch? gid.lid with
  | none => s
  | some l =>
    match s.ctxOf ⟨gid, f.pc, m, len, l.instAt f.pc len⟩ with
    | none => s
    | some c =>
      let s1 := if c.g.handler.isSome || (l.handlerOf x.cause).isNone then s else s.modGroup gid fun g => g.unwait f.pc lane
      let s2 := takeTrap c x.cause m m (memInfo (if scr then .scr else .glob) 8 false 0) (fun _ => BitVec.ofNat 64 va) s1
      if x = .unc then s2.fenceAccess c (if scr then .scr else .glob) lane va 8 else s2

/-- Where a waiting lane's semaphore lies: scratch lies with its block; a global address is translated and checked at each read (R64, R69). -/
def State.semWhere (s : State) (gid : Gid) (scr : Bool) (va : Nat) : Except Fail Nat :=
  match s.block? gid.lid gid.blk, s.launch? gid.lid with
  | some b, some l =>
    if scr then (if s.badWord (b.scratchPa va) 8 then .error .unc else .ok (b.scratchPa va))
    else
      match s.checkGlobal .core (some b.core) l.part l.world (bulkOf b.core) [] false true false va 8 with
      | .ok (p :: _) => .ok p.pa
      | .ok [] => .error .own
      | .error f => .error f
  | _, _ => .error .own

/-- A read of a waiting lane cannot be made: the lane faults, or the group parks for replay (R316); outside a running handler it waits for the
handler's end, in a halted group for its resumption (R312, R362). -/
def semStop (gid : Gid) (f : Frag) (len : Nat) (lane va : Nat) (scr : Bool) (x : Fail) (s : State) : State :=
  match s.group? gid, s.launch? gid.lid with
  | some g, some l =>
    if g.loose (maskOf [lane]) ≠ maskOf [lane] || g.stuck.isSome then s
    else if x = .page 0 && l.rcd.flags.getLsbD 1 && s.fqEnabled l.world then
      s.modGroup gid fun g =>
        let fs := addFrag g.hlanes (g.unwait f.pc lane).frags (mkFrag f.pc (maskOf [lane]))
        let m := match fs.find? fun y => y.pc = f.pc && y.park.isNone && inMask y.mask lane with | some y => y.mask | none => 0
        { g with frags := fs, stuck := some ⟨f.pc, m, len, l.instAt f.pc len, .replay [⟨va, false, s.now⟩] [] []⟩ }
    else semFail gid f len lane va scr x s
  | _, _ => s

/-- What one read of a semaphore at physical address `pa` leads to for a waiting lane. The lane sees its own writes (R84); one that a handler keeps parked
reads again when it ends, and so in a halted group (R312, R362). -/
def semRead (gid : Gid) (f : Frag) (len : Nat) (cmp : SemCmp) (scr : Bool) (pa : Nat) (w : Nat × Nat × Nat × DWord) (s : State) : State :=
  match s.semWhere gid scr w.2.1 with
  | .error e => if w.2.2.1 = pa then semStop gid f len w.1 w.2.1 scr e s else s
  | .ok q =>
    match s.group? gid, s.readBytes (fun x => x = .thread gid w.1) w.1 pa 8 with
    | some g, some bs =>
      if q = pa && (homeBulk pa).isSome && g.loose (maskOf [w.1]) = maskOf [w.1] then
        let s1 := s.scrub pa 8
        if semTest cmp (BitVec.ofNat 64 (ofBytes bs)) w.2.2.2 then s1.modGroup gid fun g => g.release f.pc (maskOf [w.1]) len else s1
      else s
    | _, _ => s

/-- SEMWAIT_RELEASE (R252): the home reads a semaphore for every resident lane that waits on it. -/
def execSemwaitRelease (pa : Nat) (s : State) : Out :=
  .next (s.groups.foldl (fun s g =>
    g.frags.foldl (fun s f =>
      match f.park with
      | some (n, .semwait cmp scr _ ws) => ws.foldl (fun s w => semRead g.gid f n cmp scr pa w s) s
      | _ => s) s) s)

/-- SEMWAIT_POLL (R252): a lane that waits at a host or peer window sends its read, or takes the answer to it (R381). -/
def execSemwaitPoll (gid : Gid) (lane : Nat) (s : State) : Out :=
  match s.group? gid, s.launch? gid.lid with
  | some g, some l =>
    match g.frags.findSome? fun f => match f.park with
        | some (n, .semwait cmp scr _ ws) => (ws.find? fun w => w.1 = lane).map fun w => (f, n, cmp, scr, w)
        | _ => none
    with
    | none => .next s
    | some (f, n, cmp, scr, w) =>
      match s.ext.find? fun e => e.poll = some (gid, lane) with
      | some e =>
        let s1 := { s with ext := s.ext.filter fun x => x.id ≠ e.id }
        match e.reply with
        | none => .next s
        | some .ownership => .next (semStop gid f n lane w.2.1 scr .own s1)
        | some .down => .next (semStop gid f n lane w.2.1 scr .down s1)
        | some (.ok bs) =>
          if semTest cmp (BitVec.ofNat 64 (ofBytes (bs.take 8))) w.2.2.2 && g.loose (maskOf [lane]) = maskOf [lane] then
            .next (s1.modGroup gid fun g => g.release f.pc (maskOf [lane]) n)
          else .next s1
      | none =>
        match s.semWhere gid scr w.2.1 with
        | .error x => .next (semStop gid f n lane w.2.1 scr x s)
        | .ok pa =>
          if scr || (homeBulk pa).isSome then .next s
          else
            let s1 := s.send l.part l.world pa (.read 8)
            .next { s1 with ext := s1.ext.map fun (e : ExtReq) => if e.id = s.serial then { e with poll := some (gid, lane) } else e }
  | _, _ => .next s

end Sys2Proof.Machine
end

