-- ==== Sys2Proof/Machine/Debug.lean ====
section
/-! DEFINITION. The debug right, halts, stops, the debugger's accesses (14, R355 to R357; 15, R358 to R365), and writes to control registers that have
no row of their own (00, R6). -/

namespace Sys2Proof.Machine

/-! ### The debug right -/

/-- ACCEPT of DBGCTL: only while OFFERED, which an offer is for 1 s (R355). -/
def State.debugAccept (s : State) (w : Nat) : State :=
  s.modWorld w fun x =>
    if bit (x.reg rDBGCTL).toNat 8 && (match x.offerTime with | some t => decide (s.now < t + 1000000000) | none => true) then
      { (((x.setField rDBGCTL 8 1 0).setField rDBGCTL 9 1 1).setField rDBGCTL 11 1 1) with offerTime := none }
    else x

/-- Change every group of a world, resident or saved. -/
def State.modGroupsOf (s : State) (w : Nat) (f : Group → Group) : State :=
  let ids := s.lidsOf w
  let up (g : Group) : Group := if ids.contains g.gid.lid then f g else g
  { s with
    groups := s.groups.map up
    worlds := s.worlds.map fun (x : World) => { x with ctx := match x.ctx with
      | some c => some { c with groups := c.groups.map up }
      | none => none } }

/-- A group without the debugger: released, with no stop to come. -/
def Group.unhalt (g : Group) : Group := { g.unstop with stopNext := none }

/-- Revocation at T_rev (R356): breakpoints and watchpoints go, halted groups resume, pending stops of a saved context are discarded. -/
def State.revoke (s : State) (w : Nat) : State :=
  match s.world? w with
  | none => s
  | some x =>
    if !x.granted then s
    else
      let offs := (List.range 8).map rBP ++ (List.range 4).map rWPA ++ (List.range 4).map rWPC
      let s1 := (s.modWorld w fun y => offs.foldl (fun y o => y.setReg o 0) (y.setField rDBGCTL 9 1 0)).modGroupsOf w Group.unhalt
      (s.groups.filter fun (g : Group) => (s.lidsOf w).contains g.gid.lid && g.stop.isSome).foldl (fun s (g : Group) => settle g.gid s) s1

/-- DBGCTL_ACCEPT (R355). -/
def execDbgctlAccept (w : Nat) (s : State) : Out := .next ((s.admitCtl w rDBGCTL 1).debugAccept w)

/-- DBGCTL_REVOKE (R356). -/
def execDbgctlRevoke (w : Nat) (s : State) : Out := .next ((s.admitCtl w rDBGCTL 2).revoke w)

/-! ### Halts, steps, resumption (R361 to R363) -/

/-- Does DBGHALT name a group, at a scope (Table 15-1)? -/
def World.names (x : World) (scope : Nat) (l : Launch) (g : Gid) : Bool :=
  let r := (x.reg rDBGHALT).toNat
  l.world = x.w && l.lid = g.lid && l.status = .running &&
  (scope = 3 || (l.tag = field r 13 16 && (scope = 2 || (g.blk = (x.reg rDBGBLK).toNat && (scope = 1 || g.gi = field r 8 5)))))

/-- The groups of a scope, resident and saved. -/
def State.scoped (s : State) (x : World) (scope : Nat) : List Group :=
  (s.groups ++ (match x.ctx with | some c => c.groups | none => [])).filter fun (g : Group) =>
    match s.launch? g.gid.lid with | some l => x.names scope l g.gid | none => false

/-- Halt one group: at once, when the results it waits for have come, or, in a saved context, as a pending stop (R357, R362). -/
def State.haltGroup (s : State) (g : Group) : State :=
  if g.stop.isSome then s
  else if (s.group? g.gid).isSome then
    if g.owesResult then s.modGroup g.gid fun y => { y with stopNext := some (y.stopNext.getD .halt) }
    else s.debugStop g.gid .halt g.standing.1 g.standing.2.1 0 0 g.standing.2.2
  else
    let t : Stop :=
      { reason := .halt, time := BitVec.ofNat 64 s.now, mask := g.standing.1, pc := g.standing.2.1, addr := 0, len := 0,
        parked := g.standing.2.2, inHandler := g.handler.isSome, pending := true, written := false }
    s.modGroupAny g.gid fun y => { y with stop := some t }

/-- Is a group halted by the debugger: a stop whose record has been made? -/
def Group.halted (g : Group) : Bool := match g.stop with | some t => t.written | none => false

/-- GO of DBGHALT; ignored without the debug right (R358). -/
def State.debugHalt (s : State) (w : Nat) : State :=
  match s.world? w with
  | none => s
  | some x => if x.granted then (s.scoped x (x.fieldOf rDBGHALT 0 2)).foldl (fun s g => s.haltGroup g) s else s

/-- Release a halted group: what its lanes wait for can complete again (R362). -/
def State.unhalt (s : State) (gid : Gid) (f : Group → Group) : State :=
  let s1 := s.modGroupAny gid f
  if (s.group? gid).isSome then settle gid s1 else s1

/-- RESUME of DBGHALT. -/
def State.debugResume (s : State) (w : Nat) : State :=
  match s.world? w with
  | none => s
  | some x =>
    if x.granted then
      ((s.scoped x (x.fieldOf rDBGHALT 0 2)).filter Group.halted).foldl (fun s (g : Group) => s.unhalt g.gid Group.unstop) s
    else s

/-- STEP of DBGHALT: for the one group that GROUP, BLOCK and LAUNCH name. -/
def State.debugStep (s : State) (w : Nat) : State :=
  match s.world? w with
  | none => s
  | some x =>
    if x.granted then
      ((s.scoped x 0).filter Group.halted).foldl (fun s (g : Group) => s.unhalt g.gid Group.stepped) s
    else s

/-- DBGHALT_GO (R361). -/
def execDbghaltGo (w : Nat) (s : State) : Out := .next ((s.admitCtl w rDBGHALT 4).debugHalt w)

/-- DBGHALT_RESUME (R363). -/
def execDbghaltResume (w : Nat) (s : State) : Out := .next ((s.admitCtl w rDBGHALT 8).debugResume w)

/-- DBGHALT_STEP (R363). -/
def execDbghaltStep (w : Nat) (s : State) : Out := .next ((s.admitCtl w rDBGHALT 16).debugStep w)

/-! ### The debugger's accesses (R360) -/

/-- A register of a lane as RDREG reads it (R266). -/
def Group.peek (g : Group) (w64 : Bool) (fresh lane : Nat) (cl : RegSel) (n : Nat) : DWord :=
  match cl with
  | .v => (if g.hazard w64 n then Config.freeReg fresh lane n else SMap.get g.v (n * 64 + lane)).setWidth 64
  | .s => (SMap.get g.s n).setWidth 64
  | .h => SMap.get g.h (n * 64 + lane)
  | .p => BitVec.ofNat 64 (b2n (g.pred lane n))
  | .sc => (SMap.get g.sc n).setWidth 64

/-- A register of a lane as WRREG writes it (R266). -/
def Group.poke (g : Group) (w64 : Bool) (fresh lane : Nat) (cl : RegSel) (n : Nat) (x : DWord) : Group :=
  match cl with
  | .v => g.writeV w64 fresh lane n (x.setWidth 32)
  | .s => { g with s := SMap.set g.s n (x.setWidth 32) }
  | .h => { g with h := SMap.set g.h (n * 64 + lane) (hImage x) }
  | .p => g.setPred lane n (bit x.toNat 0)
  | .sc => { g with sc := SMap.set g.sc n (x.setWidth 32) }

/-- A held instruction without one of its lanes. -/
def Stuck.without (t : Stuck) (m : Mask) : Option Stuck :=
  if t.mask &&& ~~~ m = 0 then none else some { t with mask := t.mask &&& ~~~ m }

/-- Move one lane alone to a PC (R360): it leaves what it was parked for, and an instruction that is parked for replay. -/
def Group.moveLane (g : Group) (lane : Nat) (pc : Word) : Group :=
  let m := maskOf [lane]
  let fs := (g.frags.map fun (f : Frag) =>
    { f with mask := f.mask &&& ~~~ m,
             park := match f.park with
               | some (n, .waitr pd ws) => some (n, .waitr pd (ws.filter fun x => x.1 ≠ lane))
               | some (n, .sync ws) => some (n, .sync (ws.filter fun x => x.1 ≠ lane))
               | some (n, .semwait c sc o ws) => some (n, .semwait c sc o (ws.filter fun x => x.1 ≠ lane))
               | x => x }).filter fun f => f.mask ≠ 0
  { g with
    frags := joinFrags g.hlanes fs [mkFrag pc m]
    stuck := g.stuck.bind fun t => t.without m
    freed := g.freed.map fun e => (e.1, e.2.1, e.2.2 &&& ~~~ m)
    colls := g.colls.map fun (c : Coll) => { c with arrived := c.arrived.filter fun (a : Arrival) => a.lane ≠ lane } }

/-- A debugger's access to memory has ended: BUSY clears, and ERR tells of a refusal. -/
def State.debugEnd (s : State) (w : Nat) (err : Bool) : State :=
  s.modWorld w fun y => { ((y.setField rDBGSEL 5 1 0).setField rDBGSEL 6 1 (b2n err)) with dbgExt := none, dbgReq := none }

/-- A read has delivered its data. -/
def State.debugGive (s : State) (w : Nat) (v : DWord) : State := (s.modWorld w fun y => y.setReg rDBGDAT v).debugEnd w false

/-- A write has been made: MODIFIED is set (R355). -/
def State.debugEdit (s : State) (w : Nat) : State := (s.modWorld w fun y => y.setField rDBGCTL 10 1 1).debugEnd w false

/-- The answer to what a debugger's access sent out has come, or not yet; a write is over when it is in flight no longer. -/
def State.debugAnswer (s : State) (w : Nat) (r : DbgReq) (id : Nat) : State :=
  if r.wr then (if s.pend.any fun q => q.ext = some id then s else s.debugEdit w)
  else
    let gone : State := { s with ext := s.ext.filter fun q => q.id ≠ id }
    match s.ext.find? fun e => e.id = id with
    | none => s.debugEnd w true
    | some e =>
      match e.reply with
      | none => s
      | some (.ok bs) => gone.debugGive w (BitVec.ofNat 64 (ofBytes (bs.take 8)))
      | some _ => gone.debugEnd w true

/-- A debugger's access through a window (R360): the request goes out, and BUSY stays set until its answer. -/
def State.debugSend (s : State) (x : World) (r : DbgReq) (p : Piece) : State :=
  let wait (id : Nat) (s : State) : State := s.modWorld x.w fun y => { y with dbgExt := some id }
  if r.wr then
    let bs := toBytes 8 r.dat.toNat
    let t := s.sendWrite x.part x.w (.dispatcher x.part) r.lid 0 .other p.va p.pa (.bytes bs) (.write bs) false
    wait (t.serial - 2) t
  else wait s.serial (s.send x.part x.w p.pa (.read p.len))

/-- One try of a debugger's access to memory (R360). It waits while the line of a write is not free, or for an answer. A read sees what the group has
issued. -/
def State.debugMemory (s : State) (x : World) (r : DbgReq) : State :=
  match x.dbgExt with
  | some id => s.debugAnswer x.w r id
  | none =>
    let ps := match s.checkGlobal .copy none x.part x.w (agentSource .copy x.part x.w) [] r.wr (!r.wr) false r.va 8 with
      | .ok ps => if s.tagWrong ps then [] else ps
      | .error _ => []
    let mine (q : Writer) : Bool := match q with | .thread i _ => i = r.gid | _ => false
    if r.va % 8 ≠ 0 || ps.isEmpty then (s.fenceAgent .copy x.part x.w r.va 8).debugEnd x.w true
    else if let some p := ps.find? Piece.outside then s.debugSend x r p
    else if !r.wr then
      match s.readBytes mine 1021 ((ps.map fun p => p.pa).headD 0) 8 with
      | some bs => (s.agentTouch .copy x.part x.w r.va 8).debugGive x.w (BitVec.ofNat 64 (ofBytes bs))
      | none => s
    else
      match s.agentWrite .copy x.part x.w r.va (toBytes 8 r.dat.toNat) with
      | none => s
      | some (.ok t) => t.debugEdit x.w
      | some (.error _) => s.debugEnd x.w true

/-- A debugger's access to memory that is in progress is tried again, whatever has become of the group's halt (R360). -/
def State.debugRetry (s : State) (w : Nat) : State :=
  match s.world? w with
  | none => s
  | some x => match x.dbgReq with | none => s | some r => s.debugMemory x r

/-- The access that DBGSEL names (R360); an access to memory is BUSY until it ends. -/
def State.debugAccess (s : State) (w : Nat) : State :=
  match s.world? w with
  | none => s
  | some x =>
    let r := (x.reg rDBGSEL).toNat
    let fin (err : Bool) (s : State) : State := s.debugEnd w err
    let wr := bit r 3
    let num := field r 8 16
    let lane := field r 24 6
    let dat := x.reg rDBGDAT
    let named (l : Launch) : Option Group :=
      if l.world = w && l.tag = field r 35 16 && l.status = .running then s.groupAny? ⟨l.lid, (x.reg rDBGBLK).toNat, field r 30 5⟩ else none
    match if x.granted then s.launches.findSome? fun l => (named l).map fun g => (l, g) else none with
    | none => fin true s
    | some (l, g) =>
      if !g.halted then fin true s
      else
        match field r 0 3 with
        | 5 =>
          match g.frags.find? fun f => inMask f.mask lane with
          | none => fin true s
          | some f =>
            if !wr then s.debugGive w (f.pc.setWidth 64)
            else if dat.toNat % 8 ≠ 0 then fin true s
            else (s.modGroupAny g.gid fun y => y.moveLane lane (dat.setWidth 32)).debugEdit w
        | 6 =>
          (s.modWorld w fun y =>
            { y.setField rDBGSEL 5 1 1 with dbgReq := some ⟨l.lid, g.gid, field (x.reg rDBGADR).toNat 0 52, wr, dat⟩ }).debugRetry w
        | c =>
          match RegSel.ofCode c with
          | none => fin true s
          | some cl =>
            if RegSel.limit cl < num || l.width ≤ lane then fin true s
            else if wr then (s.modGroupAny g.gid fun y => y.poke l.w64 s.fresh lane cl num dat).debugEdit w
            else s.debugGive w (g.peek l.w64 s.fresh lane cl num)

/-- Is a debugger's access of the world in progress? -/
def World.debugBusy (x : World) : Bool := bit (x.reg rDBGSEL).toNat 5

/-- GO of DBGSEL: ignored while BUSY (Table 15-1). -/
def State.debugGo (s : State) (w : Nat) : State :=
  match s.world? w with
  | none => s
  | some x => if x.debugBusy then s else s.debugAccess w

/-- DBGSEL_GO (R360). -/
def execDbgselGo (w : Nat) (s : State) : Out := .next ((s.admitCtl w rDBGSEL 16).debugGo w)

/-! ### Stops (R361, R364) -/

/-- BREAKPOINT (R361): the fragment that is about to issue at breakpoint `n` stops whole; a fragment just released from there does not. -/
def execBreakpoint (g : Gid) (n : Nat) (s : State) : Out :=
  match s.group? g, s.launch? g.lid with
  | some x, some l =>
    match s.world? l.world, x.next with
    | some y, some (f, _) =>
      let r := (y.reg (rBP n)).toNat
      if y.granted && x.stop.isNone && !x.pass && !x.owesResult && l.status = .running && n < 8 && bit r 63 && field r 0 32 = f.pc.toNat &&
          field r 32 12 = l.rcd.kidx then .next (s.debugStop g (.bp n) f.mask f.pc 0 0 false)
      else .next s
    | _, _ => .next s
  | _, _ => .next s

/-- The accesses that a watchpoint can match (R361), run as their own instructions, which stop before any lane acts. -/
def watchable (i : Instr) (s : State) : Option Out :=
  match i with
  | .ld hd acc off d a => some (execLd hd acc off d a s)
  | .st hd acc off d a => some (execSt hd acc off d a s)
  | .lds hd acc st d a => some (execLds hd acc st d a s)
  | .sts hd acc st d a => some (execSts hd acc st d a s)
  | .ldt hd col p d a => some (execLdt hd col p d a s)
  | .stt hd col p d a => some (execStt hd col p d a s)
  | .put hd acc off d a => some (execPut hd acc off d a s)
  | .szero hd col off d a => some (execSzero hd col off d a s)
  | .atom hd acc op d a b => some (execAtom hd acc op d a b s)
  | .atomf hd acc op d a b => some (execAtomf hd acc op d a b s)
  | .xchg hd acc d a b => some (execXchg hd acc d a b s)
  | .cas hd acc d a b => some (execCas hd acc d a b s)
  | .red hd acc op a b => some (execRed hd acc op a b s)
  | .redf hd acc op a b => some (execRedf hd acc op a b s)
  | .semsig hd op sc o sp off d a => some (execSemsig hd op sc o sp off d a s)
  | .semwait hd c sc o sp off d a => some (execSemwait hd c sc o sp off d a s)
  | _ => none

/-- WATCHPOINT (R361): the group's next instruction makes an access that watchpoint `n` matches, at `addr`: it stops precisely. -/
def execWatchpoint (g : Gid) (n : Nat) (addr : DWord) (s : State) : Out :=
  match s.group? g, s.launch? g.lid with
  | some x, some l =>
    match x.next with
    | none => .next s
    | some (f, _) =>
      match l.fetch g f with
      | .ins i is =>
        if !s.issuable x then .next s
        else
          match watchable i { s with issuer := some is } with
          | some (.next t) =>
            match (t.group? g).bind fun y => y.stop with
            | some st => .next (if st.reason = .wp n && st.addr = addr then { t with issuer := s.issuer } else s)
            | none => .next s
          | _ => .next s
      | _ => .next s
  | _, _ => .next s

/-- STOP_RECORD (R364). -/
def execStopRecord (w : Nat) (s : State) : Out := .next (s.writeStop w)

/-! ### Control-register writes (R6, R63, Tables 02-6 to 16-2) -/

/-- Registers that a host write simply stores, with the bits that are not reserved. -/
def plainRegs : List (Nat × Nat) :=
  [(0x300, 2 ^ 52 - 2 ^ 5), (0x510, 2 ^ 52 - 2 ^ 12), (0x698, 2 ^ 32 - 1), (0x6A0, 2 ^ 52 - 2 ^ 6), (0x6C8, 2 ^ 52 - 1), (0x6D0, 2 ^ 64 - 1),
   (0x700, 1), (0x708, 2 ^ 52 - 2 ^ 5), (0x900, 2 ^ 52 - 2 ^ 8), (0xA00, 2 ^ 52 - 2 ^ 36)] ++
  ((List.range 8).map fun n => (rBP n, 2 ^ 63 + 2 ^ 44 - 1)) ++ (List.range 4).map fun n => (rWPA n, 2 ^ 52 - 1)

/-- Registers that only a world with the debug right can write (R358). -/
def needsRight (off : Nat) : Bool := (0x610 ≤ off && off < 0x6A0) || (0x6C0 ≤ off && off < 0x6D8)

def keepBits (v : DWord) (mask : Nat) : DWord := v &&& BitVec.ofNat 64 mask

/-- A write to a register of the partition, through the owner function (R63, R371). LOG2N of the replay log keeps bits [5:0], unbounded (DESIGN CHOICE,
LOG 111). -/
def State.writeShared (s : State) (p : Partition) (w off : Nat) (v : DWord) : State :=
  if off = 0x000 then
    if s.inFlight p.id then s.modPart p.id fun q => { q with busyerr := true }
    else s.modPart p.id fun q => { q with ptroot := keepBits v (2 ^ 52 - 2 ^ 16 + 1) }
  else if off = 0x008 then
    let o := field v.toNat 0 6
    s.modPart p.id fun q => { q with tlbva := BitVec.ofNat 64 ((if 40 < o then 40 else o) + field v.toNat 12 40 * 2 ^ 12) }
  else if off = 0x010 then
    let s1 := if bit v.toNat 9 then s.modPart p.id fun q => { q with busyerr := false } else s
    if bit v.toNat 0 then s1.tlbGo w else s1
  else if off = 0x800 then s.modPart p.id fun q => { q with replayRegs := SMap.set q.replayRegs off (keepBits v (2 ^ 52 - 2 ^ 8)) }
  else if off = 0x808 then s.modPart p.id fun q => { q with replayRegs := SMap.set q.replayRegs off (keepBits v 63) }
  else if off = 0x818 then s.modPart p.id fun q => { q with replayRegs := SMap.set q.replayRegs off v }
  else s

/-- A write to QCTL (Table 11-1): LOG2N only while EN = 0; RESUME and SKIP together do nothing. -/
def State.writeQctl (s : State) (w lvl : Nat) (v : Nat) : State :=
  let s1 := s.modWorld w fun x =>
    let y := if x.qEn lvl then x else x.setField (rQCTL lvl) 0 5 (ringLog (field v 0 5) 4 16)
    y.setField (rQCTL lvl) 8 1 (field v 8 1)
  let s2 := if bit v 24 && !bit v 25 then s1.queueResume w lvl else if bit v 25 && !bit v 24 then s1.queueSkip w lvl else s1
  (if bit v 26 then s2.queueClear w lvl else s2).noteHead w lvl

/-- A write to FQCTL (Table 12-4); CLR is judged by EN as it stood before the write (LOG 42). -/
def State.writeFqctl (s : State) (w : Nat) (v : Nat) : State :=
  match s.world? w with
  | none => s
  | some x =>
    let en := bit (x.reg rFQCTL).toNat 8
    let s1 := s.modWorld w fun x =>
      let y := x.setField rFQCTL 0 4 (ringLog (field v 0 4) 4 12)
      if bit v 9 then y.setField rFQCTL 9 1 0 else y
    let s2 := if en && !bit v 8 then s1.faultsOff w else s1
    let s3 := if bit v 10 && !en then s2.faultsClear w else s2
    s3.modWorld w fun x => x.setField rFQCTL 8 1 (field v 8 1)

/-- A write to PREEMPT (R321): GO and RESUME are judged by the state before the write. -/
def State.writePreempt (s : State) (w : Nat) (v : Nat) : State :=
  match s.world? w with
  | none => s
  | some x =>
    if x.showsSaved then (if bit v 1 then afterOut (preemptResume w s) s else s)
    else if bit v 0 then afterOut (preemptGo w s) s else s

/-- A write to DBGHALT (Table 15-1). -/
def State.writeHalt (s : State) (w : Nat) (v : DWord) : State :=
  let s1 := s.modWorld w fun x => x.setReg rDBGHALT (keepBits v (3 + (2 ^ 13 - 2 ^ 8) + (2 ^ 29 - 2 ^ 13)))
  let s2 := if bit v.toNat 2 then s1.debugHalt w else s1
  let s3 := if bit v.toNat 3 then s2.debugResume w else s2
  if bit v.toNat 4 then s3.debugStep w else s3

/-- A write to DBGSEL (Table 15-1): its fields are stored; GO is ignored while BUSY, and without the debug right it sets ERR (R358). -/
def State.writeSel (s : State) (w : Nat) (v : DWord) : State :=
  match s.world? w with
  | none => s
  | some x =>
    if !x.granted then (if bit v.toNat 4 && !x.debugBusy then s.modWorld w fun y => y.setField rDBGSEL 6 1 1 else s)
    else
      let s1 := s.modWorld w fun y =>
        (y.setReg rDBGSEL (keepBits v (15 + (2 ^ 51 - 2 ^ 8)))).setField rDBGSEL 5 2 (field (x.reg rDBGSEL).toNat 5 2)
      if bit v.toNat 4 then s1.debugGo w else s1

/-- A write to a register of one world's function. A TRCN outside 4 to 16 is stored as 4 (DESIGN CHOICE, LOG 110). -/
def State.writeOwn (s : State) (x : World) (off : Nat) (v : DWord) : State :=
  let w := x.w
  let n := v.toNat
  match (List.range 4).find? fun l => rQ l ≤ off && off < rQ l + 0x20 with
  | some l =>
    if off = rQ l then (if x.qEn l then s else s.modWorld w fun x => x.setReg off (keepBits v (2 ^ 52 - 2 ^ 7)))
    else if off = rQCTL l then s.writeQctl w l n
    else if off = rQTAIL l then s.queueTail w l n
    else s
  | none =>
    if needsRight off && !x.granted && off ≠ rDBGSEL then s
    else
      match plainRegs.find? fun e => e.1 = off with
      | some e => s.modWorld w fun x => x.setReg off (keepBits v e.2)
      | none =>
        if off = rDQERR then s.modWorld w fun x => x.setReg off 0
        else if off = rSEMFAIL then
          s.modWorld w fun x => if bit n 0 then (x.setField off 0 1 0).setField off 16 16 0 else x
        else if off = rFQCTL then s.writeFqctl w n
        else if off = rFQHEAD then s.modWorld w fun x => x.setReg off (BitVec.ofNat 64 (n % 2 ^ 16 % 2 ^ ringLog (x.fieldOf rFQCTL 0 4) 4 12))
        else if off = rFQANS then s.answer w (bit n 17) fun i => bit n 16 || i = n % 2 ^ 16
        else if off = rPREEMPT then s.writePreempt w n
        else if off = rTRQ then
          if bit n 13 then s.queryGo w (field n 0 12) (bit n 12) (bit n 14)
          else s.modWorld w fun x => x.setField rTRQ 0 13 n
        else if off = rDBGCTL then
          let s1 := if bit n 0 then s.debugAccept w else s
          if bit n 1 && x.granted then s1.revoke w else s1
        else if off = rDBGHALT then s.writeHalt w v
        else if off = rDBGRC then
          let s1 := s.modWorld w fun x =>
            let y := (x.setField off 0 4 (ringLog (field n 0 4) 4 10)).setField off 8 1 (field n 8 1)
            if bit n 9 then y.setField off 9 1 0 else y
          s1.writeStops w x.stopq.length
        else if off = rDBGRH then s.modWorld w fun x => x.setReg off (BitVec.ofNat 64 (n % 2 ^ 16 % 2 ^ ringLog (x.fieldOf rDBGRC 0 4) 4 10))
        else if off = rDBGSEL then s.writeSel w v
        else if (List.range 4).any fun k => off = rWPC k then
          s.modWorld w fun x => x.setReg off (BitVec.ofNat 64 (min 12 (field n 0 4) + field n 4 3 * 2 ^ 4 + field n 63 1 * 2 ^ 63))
        else if off = rTRCN then s.modWorld w fun x => x.setReg off (BitVec.ofNat 64 (ringLog (field n 0 4) 4 16))
        else if off = rTRCH then s.modWorld w fun x => x.setReg off (BitVec.ofNat 64 (n % 2 ^ 16 % 2 ^ ringLog (x.fieldOf rTRCN 0 4) 4 16))
        else if off = rPROFC then
          let s1 := s.modWorld w fun x => x.setField off 0 13 n
          let s2 := if bit n 15 then s1.profClear w else s1
          if bit n 13 then s2.profGo w (match s2.namedGalley x (field n 0 12) (bit n 12) with | some g => Config.loopRecords g.id | none => 0) else s2
        else if off = rFNSTAT then s.modWorld w fun x => x.setReg off (x.reg off &&& ~~~ (keepBits v 7))
        else s

/-- A write of eight bytes to a control page. -/
def State.writeReg (s : State) (w off : Nat) (v : DWord) : State :=
  if off < 0x100 || (0x800 ≤ off && off < 0x820) then
    match s.owned w with
    | none => s
    | some p => (s.writeShared p w off v).logDue p.id
  else
    match s.live? w with
    | none => s
    | some x => s.writeOwn x off v

/-- Does a function turn a transaction away (R376): its interface runs, and the transaction is not on its IDE stream with the T bit set? -/
def State.turnsAway (s : State) (w : Nat) (tee : Bool) : Bool := !tee && (match s.live? w with | some x => x.tdi = .run | none => false)

/-- Unsupported Request (R376). -/
def State.unsupported (s : State) : State := { s with reply := some .ur }

/-- REGISTER_WRITE (R6): PF0's page holds only BOOTSTAT, which ignores writes (Table 16-5). -/
def execRegisterWrite (fn : Tlp Fn) (off : Nat) (value : DWord) (s : State) : Out :=
  match fn.dst with
  | .pf0 => .next s
  | .vf w => .next (if s.turnsAway w fn.tee then s.unsupported else (s.admitCtl w off value).writeReg w off value)

end Sys2Proof.Machine
end

