-- ==== Sys2Proof/Machine/Contain.lean ====
section
/-! DEFINITION. Fencing, containment and single-region reset (02, R70 to R75). -/

namespace Sys2Proof.Machine

/-- The partition that holds a bulkhead. -/
def State.partOf (s : State) (b : Nat) : Option Partition := s.parts.find? fun p => p.bulks.contains b

/-- Writes that wait at the homes of a bulkhead complete with BULKHEAD-DOWN: its queues are cleared, and nothing of them performs later (Table 02-10). -/
def State.failQueued (s : State) (b : Nat) : State :=
  (s.pend.filter fun (p : Pend) => p.ext.isNone && homeBulk p.pa = some b).foldl (fun s (p : Pend) => match s.pend? p.id with
    | some q => s.completeWrite q
    | none => s) s

/-- Single-region reset begins (Table 02-10, R51): slices, queues, lease caches, translations and registers are cleared, HBM is kept; the groups, blocks
and chains that were on the bulkhead's cores are gone with their state (LOG 43). -/
def State.startReset (s : State) (b : Nat) : State :=
  let s := s.failQueued b
  let mine (core : Nat) : Bool := bulkOf core = b
  let inside (a : Nat) : Bool := match region a with | .slice c _ => mine c | _ => false
  let gone := (s.blocks.filter fun (x : Block) => mine x.core).map fun (x : Block) => (x.lid, x.idx)
  let lost (g : Gid) : Bool := gone.contains (g.lid, g.blk)
  let s1 : State := { s with
    mem := Memory.zero s.mem inside
    eccBad := s.eccBad.filter fun a => !inside a
    eccSoft := s.eccSoft.filter fun a => !inside a
    leases := s.leases.filter fun l => !mine l.core
    tlb := s.tlb.filter fun e => !mine e.core
    frozen := s.frozen.filter fun c => !mine c
    groups := s.groups.filter fun (g : Group) => !lost g.gid
    rr := s.rr.filter fun g => !lost g
    blocks := s.blocks.filter fun (x : Block) => !mine x.core
    chains := s.chains.filter fun (k : Chain) => !mine k.core }
  (s1.modBulk b fun x => { x with st := .resetting, since := s.now }).ember b 0x04 0xFFFF 0xFF 0

/-- BULKHEAD_FENCING (R70, R71): reason 1 an error, 2 a hang, 3 rail or clock. -/
def execBulkheadFencing (b reason : Nat) (s : State) : Out := .next (s.fence b reason false)

/-- HANG_DETECTION (R70). -/
def execHangDetection (b : Nat) (s : State) : Out := .next (s.fence b 2 false)

/-- The world whose launches a fence aborts (R74, Table 14-3): the one scheduled, or the outgoing one of a gap; none while it is saved. Late in a gap, when the
incoming world has been put back on the cores already, it is that one. -/
def State.scheduled (s : State) (p : Partition) : Option World :=
  match p.phase with
  | .frame _ w _ _ => (s.world? w).bind fun x => if x.ctx.isSome then none else some x
  | .gap nxt _ =>
    match s.worlds.find? fun x => x.part = p.id && x.busy && x.ctx.isNone with
    | some x => some x
    | none => (nxt.bind fun n => s.world? n.2).bind fun x => if x.ctx.isSome then none else some x
  | .idle => none

/-- Does a write wait at the gates of a bulkhead that closes: made by one of its cores for a home outside it, no part of its transaction having passed (R53, R75)? -/
def Pend.atGate (b : Nat) (p : Pend) : Bool :=
  (match p.src with | .thread _ _ => true | .chain _ => true | _ => false) && bulkOf p.core = b && !p.begun && p.ext.isNone && homeBulk p.pa ≠ some b

/-- Traffic of a bulkhead that has not passed its gates is dropped (Table 02-10, R75), and logged transaction by transaction (Table 15-7). An atomic among it
has not issued. -/
def State.dropTraffic (s : State) (b : Nat) : State :=
  let gone := s.pend.filter (Pend.atGate b)
  let s1 := { s with
    pend := s.pend.filter fun p => !p.atGate b
    groups := s.groups.map fun (g : Group) =>
      if g.stuck.any fun t => gone.any fun p => t.hold.awaits p.id then { g with stuck := none } else g }
  ((gone.map fun p => (p.src, p.txn, lineOf p.pa)).eraseDups).foldl (fun s _ => s.ember b 0x0C 0xFFFF 0xFF (BitVec.ofNat 64 b)) s1

/-- BULKHEAD_FENCED (R71, R74): the gates are closed. The running launches of the scheduled world are aborted with CONTAINED, sub-cause
UNCORRECTABLE when a word caused the fence; a pre-emption in progress saves nothing (Table 12-10); reset follows at once in AUTO mode. -/
def execBulkheadFenced (b : Nat) (s : State) : Out :=
  match s.bulk? b with
  | none => .next s
  | some x =>
    if x.st ≠ .fencing then .next s
    else
      let s1 := (s.modBulk b fun x => { x with st := .fenced, since := s.now }).dropTraffic b
      match s1.partOf b with
      | none => .next s1
      | some p =>
        let s2 := match s1.scheduled p with
          | none => s1
          | some y =>
            let s2 := (s1.lidsOf y.w).foldl (fun s l => s.abort l Cause.contained (if x.word then Cause.uncorrectable else 0) false false) s1
            if s1.inFrame y then s2.modWorld y.w fun z => { z with busy := false, hostSaved := z.hostSaved && !z.busy } else s2
        .next (if p.autoReset then s2.startReset b else s2)

/-- BULKHEAD_RESET_COMPLETE (R71): the bulkhead is RUNNING; its cores count cycles anew (R157). A partition that was ungated or formed begins its frames
once all its bulkheads run (R347, R383). -/
def execBulkheadResetComplete (b : Nat) (s : State) : Out :=
  match s.bulk? b with
  | none => .next s
  | some x =>
    if x.st ≠ .resetting then .next s
    else
      let cores := (List.range 32).map fun k => b * 32 + k
      let s1 := { s with
        arrays := SMap.drop s.arrays fun c => bulkOf c = b
        counts := SMap.drop s.counts fun k => bulkOf (k / 64) = b
        cycBase := cores.foldl (fun m c => SMap.set m c (BitVec.ofNat 64 s.cycles)) s.cycBase }
      let s2 := (s1.modBulk b fun x => { x with st := .running, since := s.now }).ember b 0x05 0xFFFF 0xFF (BitVec.ofNat 64 (s.now - x.since))
      match s2.partOf b with
      | none => .next s2
      | some p =>
        let all := p.bulks.all fun i => match s2.bulk? i with | some y => y.st = .running | none => false
        .next (if all then s2.startFrames p.id s.now else s2)

end Sys2Proof.Machine
end

