-- ==== Sys2Proof/Machine/Manage.lean ====
section
/-! DEFINITION. The management interface (16, R377): partitions (02, R49 to R51, R408), gating (16, R383), routes (R380), worlds (14, R342 to R347;
11, R303), the debug right's offers (14, R355), reset modes (02, R72), page ownership (R69, R408), windows (R54 to R57), the ember log (15, R372). -/

namespace Sys2Proof.Machine

/-! ### Answers, issuers -/

/-- The answer to a management command. -/
def State.answered (s : State) (ok : Bool) : State := { s with reply := some (.status ok) }

def refused (s : State) : Out := .next (s.answered false)

/-- A command that cannot be executed yet waits at the head of the management interface; those that come later wait behind it (R377). -/
def State.await (s : State) (i : Managed) : State := { s with mgmt := s.mgmt ++ [i] }

def waits (i : Managed) (s : State) : Out := .next (s.await i)

/-- Boot has completed (Table 16-5): before that PF0 shows only BOOTSTAT and no mailbox answers (R382). -/
def State.ready (s : State) : Bool := bit s.boot.toNat 8

/-- A command of the package owner, through PF0. -/
def byPackage (fn : Fn) (s : State) (k : Out) : Out :=
  if !s.ready then .next s else if fn = .pf0 then k else refused s

/-- A command of a partition owner, through the owner function (R377). -/
def byOwner (fn : Fn) (s : State) (k : Partition → Out) : Out :=
  if !s.ready then .next s
  else
    match fn with
    | .pf0 => refused s
    | .vf w => match s.owned w with | none => refused s | some p => k p

/-- Is a bulkhead between its fence and the end of its reset, so that commands on it wait (R75)? -/
def State.settling (s : State) (b : Nat) : Bool :=
  match s.bulk? b with
  | some x => x.st = .fencing || x.st = .fenced || x.st = .resetting
  | none => false

/-! ### Access tables (R68, Table 02-9) -/

/-- The entry of each source, as partitions, windows and functions stand (LOG 109). -/
def State.accessOf (s : State) : SMap 32 :=
  let windows := s.parts.any fun p => p.slots.any fun t => t.win.importer = p.id
  let all := (s.parts.map fun p => 2 ^ p.id).sum
  let bulk (b : Nat) : Word := match s.partOf b with
    | none => 0
    | some p => BitVec.ofNat 32 (2 ^ p.id + b2n (p.slots.any fun t => t.win.importer = p.id) * 2 ^ 24 + 2 ^ 31)
  let fn (w : Nat) : Word := match s.live? w with
    | none => 0
    | some x => BitVec.ofNat 32 (2 ^ x.part + 2 ^ 31)
  let m1 := (List.range 24).foldl (fun m b => SMap.set m b (bulk b)) []
  let m2 := (List.range 16).foldl (fun m i => SMap.set m (24 + i) (BitVec.ofNat 32 (all + b2n windows * 2 ^ 24 + 2 ^ 25 + 2 ^ 31))) m1
  let m3 := (List.range 64).foldl (fun m w => SMap.set m (40 + w) (fn w)) m2
  (List.range 12).foldl (fun m i => SMap.set m (104 + i) (BitVec.ofNat 32 (all + 2 ^ 31))) m3

/-- Oneveto writes the tables anew. -/
def State.syncAccess (s : State) : State := { s with access := s.accessOf }

/-! ### Ranges of pages -/

/-- Physical pages of a bulkhead: its HBM and its slices, each a first page and a count (R48). -/
def pagesOf (b : Nat) : List (Nat × Nat) :=
  [(b * Config.hbmBytes / 4096, Config.hbmBytes / 4096), (Config.sliceBase / 4096 + b * 16384, 16384)]

/-- Does a range of pages lie in the HBM or in the slices of one bulkhead? -/
def inBulk (b page count : Nat) : Bool := (pagesOf b).any fun r => decide (r.1 ≤ page) && decide (page + count ≤ r.1 + r.2)

/-- The range of pages cut where its POT entries may change: first page, count and entry of each part. -/
def State.potParts (s : State) (page count : Nat) : List (Nat × Nat × Nat) :=
  let cuts := ((s.pot.flatMap fun r => [r.page, r.page + r.count]).filter fun x => decide (page < x) && decide (x < page + count)).eraseDups
  let starts := (page :: cuts).mergeSort fun a b => decide (a ≤ b)
  let ends := starts.drop 1 ++ [page + count]
  (starts.zip ends).map fun e => (e.1, e.2 - e.1, s.potEntry e.1)

/-- Begin to change the entry of pages under R69: no access passes from T_own on. -/
def State.beginChange (s : State) (page count : Nat) (entry : Word) (fill : Bool) : State :=
  { (s.setPot page count unowned) with
    changes := s.changes ++ [{ page := page, count := count, entry := entry, fill := fill, since := s.now }] }

/-- The entry of a page of a partition's pool (R408). -/
def poolEntry (p : Nat) : Word := potOf p 0 true false false false false 0

/-- Zero pages: bytes, their errors, tags and written bits. -/
def State.zeroPages (s : State) (page count : Nat) : State :=
  let inside (a : Nat) : Bool := decide (page ≤ a / 4096) && decide (a / 4096 < page + count)
  { s with
    mem := Memory.zero s.mem inside
    eccBad := s.eccBad.filter fun a => !inside a
    eccSoft := s.eccSoft.filter fun a => !inside a
    tagBad := s.tagBad.filter fun l => !inside (l * 128)
    written := s.written.filter fun l => !inside (l * 128) }

/-- OWNERSHIP_CHANGE (R69): once every access that passed before T_own has performed and every lease on the pages has ended, they are zero-filled
where that is due and their new entry is written. It waits for a bulkhead that is fenced or reset (R72, R75). -/
def execOwnershipChange (page : Nat) (s : State) : Out :=
  match s.changes.find? fun c => decide (c.page ≤ page) && decide (page < c.page + c.count) with
  | none => .next s
  | some c =>
    let inside (a : Nat) : Bool := decide (c.page ≤ a / 4096) && decide (a / 4096 < c.page + c.count)
    if (homeBulk (c.page * 4096)).any s.settling || s.pend.any (fun p => p.ext.isNone && (inside p.pa || inside (p.pa + p.size - 1))) || s.lmax.any (fun e => inside (e.1 * 128) && decide (s.now < e.2)) then
      .next s
    else
      let s1 := { s with
        changes := s.changes.filter fun x => x ≠ c
        leases := s.leases.filter fun l => !inside (l.line * 128)
        lmax := s.lmax.filter fun e => !inside (e.1 * 128) }
      let s2 := if c.fill then s1.zeroPages c.page c.count else s1
      .next (s2.setPot c.page c.count c.entry)

/-! ### Partitions (R49 to R51, R408) -/

/-- The placements of Table 02-2. -/
def placements : List (List Nat) :=
  let die (d : Nat) : List Nat := (List.range 4).map fun i => 4 * d + i
  ((List.range 24).map fun b => [b]) ++
  ((List.range 6).flatMap fun d => [[4 * d, 4 * d + 1], [4 * d + 2, 4 * d + 3], [4 * d, 4 * d + 2], [4 * d + 1, 4 * d + 3]]) ++
  ((List.range 6).map die) ++
  ([(0, 1), (1, 2), (3, 4), (4, 5), (0, 3), (1, 4), (2, 5)].map fun e => die e.1 ++ die e.2) ++
  [List.range 12, (List.range 12).map fun i => 12 + i, List.range 24]

/-- The POT entries of a bulkhead as it joins a partition (R408): the pool, the pages that are GALLEY already, the hardware-only areas. -/
def State.potForm (s : State) (p b : Nat) : State :=
  let hidden := potOf p 0 false false false false true 0
  let hbm := b * Config.hbmBytes / 4096
  let slices := Config.sliceBase / 4096 + b * 16384
  let kept := [(hbm, Config.hbmBytes / 4096), (slices, 16384)].flatMap fun r => (s.potParts r.1 r.2).filter fun e => bit e.2.2 14
  let s1 := (s.setPot hbm (Config.hbmBytes / 4096) (poolEntry p)).setPot slices 16384 (poolEntry p)
  let s1 := kept.foldl (fun s e => s.setPot e.1 e.2.1 (BitVec.ofNat 32 e.2.2)) s1
  let low := (Config.potOffset - Config.tagContextBytes) / 4096
  let s2 := s1.setPot (hbm + low) (Config.hbmBytes / 4096 - low) hidden
  (List.range 32).foldl (fun s k => s.setPot (slices + k * 512 + 480) 32 hidden) s2

/-- A partition as it is formed: no table, no window, no frame, no route. -/
def newPart (id : Nat) (bulks : List Nat) (owner : Nat) : Partition :=
  { id := id, bulks := bulks, owner := owner, autoReset := true, ptroot := 0, tlbva := 0, busyVa := 0, busy := none, busyerr := false, slots := [],
    frames := List.replicate 16 0, pendFrames := none, phase := .idle,
    doms := (List.range 8).map fun i => { idx := i, holder := none, st := .free, step := 0, owed := [], chains := [], nextOwed := [], nextChains := [] },
    devq := [], cursor := 0, routes := [], replay := false, replayOn := none, replayRegs := [], replaySeq := 0, lockTurn := 0, markDue := false, gated := false }

/-- Form a partition: its bulkheads go through reset, with their HBM zero-filled (R51). -/
def State.form (s : State) (bulks : List Nat) (owner : Nat) : State :=
  let bs := bulks.mergeSort fun a b => decide (a ≤ b)
  let id := bs.headD 0
  let mask := (bs.map fun b => 2 ^ b).sum
  let s1 := bs.foldl (fun s b =>
    let s := (pagesOf b).foldl (fun s r => s.zeroPages r.1 r.2) (s.startReset b)
    ((s.potForm id b).ember b 0x0B 0xFFFF 0xFF (BitVec.ofNat 64 mask))) s
  { s1 with parts := s1.parts ++ [newPart id bs owner] }.syncAccess

/-- May these bulkheads become a partition of this owner (R49, R50, R377)? -/
def State.mayForm (s : State) (bulks : List Nat) (owner : Nat) : Bool :=
  (placements.any fun l => l.length = bulks.length && l.all (fun b => bulks.contains b)) &&
  (bulks.all fun b => (s.partOf b).isNone) && decide (owner < 64) && (s.owned owner).isNone && (s.live? owner).isNone

/-- PARTITION_FORM (R377, R408). -/
def execPartitionForm (fn : Fn) (bulks : List Nat) (owner : Nat) (s : State) : Out :=
  byPackage fn s <|
    if s.mayForm bulks owner then
      .next { (s.form bulks owner).answered true with stored := s.stored ++ [(bulks, owner)] }
    else refused s

/-- Free the slots of a window, and clear WINDOW on its pages (R57). -/
def State.freeWindow (s : State) (win : Window) : State :=
  let s1 := (s.potParts win.base win.pages).foldl (fun s e =>
    if field e.2.2 0 5 = win.exporter && bit e.2.2 13 then
      s.setPot e.1 e.2.1 (BitVec.ofNat 32 (e.2.2 - 2 ^ 13 - field e.2.2 16 3 * 2 ^ 16))
    else s) s
  { s1 with parts := s1.parts.map fun (p : Partition) => { p with slots := p.slots.filter fun (t : Slot) => t.win ≠ win } }

/-- A window is closed (Table 15-7). -/
def State.closed (s : State) (win : Window) : State :=
  let b := (homeBulk (win.base * 4096)).getD 0
  (s.freeWindow win).ember b 0x0A 0xFFFF 0xFF (BitVec.ofNat 64 (win.exporter + win.importer * 2 ^ 32))

/-- PARTITION_DISSOLVE (R51, R72, R408): refused while a launch is in flight; a held bulkhead is reset first; then its worlds, windows and routes go,
its pages are unowned and zero, its bulkheads are held in reset. -/
def execPartitionDissolve (fn : Fn) (part : Nat) (s : State) : Out :=
  byPackage fn s <|
    match s.part? part with
    | none => refused s
    | some p =>
      if s.inFlight part then refused s
      else if p.bulks.any s.settling then
        waits (.dissolve fn part) (p.bulks.foldl (fun s b => match s.bulk? b with
          | some x => if x.st = .fenced then s.startReset b else s
          | none => s) s)
      else if s.pend.any fun x => match homeBulk x.pa with | some b => x.ext.isNone && p.bulks.contains b | none => false then
        waits (.dissolve fn part) s
      else
        let ws := (s.worlds.filter fun (x : World) => x.part = part).map fun (x : World) => x.w
        let mask := (p.bulks.map fun b => 2 ^ b).sum
        let s1 := p.slots.foldl (fun s (t : Slot) => s.closed t.win) s
        let inside (page : Nat) : Bool := match homeBulk (page * 4096) with | some b => p.bulks.contains b | none => false
        let s2 := p.bulks.foldl (fun s b =>
          let s := (pagesOf b).foldl (fun s r => (s.zeroPages r.1 r.2).setPot r.1 r.2 unowned) (s.startReset b)
          (s.modBulk b fun x => { x with st := .off, since := s.now }).ember b 0x0B 0xFFFF 0xFF (BitVec.ofNat 64 mask)) s1
        .next (({ s2 with
          parts := s2.parts.filter fun (q : Partition) => q.id ≠ part
          worlds := s2.worlds.filter fun (x : World) => x.part ≠ part
          changes := s2.changes.filter fun (c : PageChange) => !inside c.page
          offers := s2.offers.filter fun (o : Offer) => o.exporter ≠ part && o.importer ≠ part
          ext := s2.ext.filter fun (e : ExtReq) => !ws.contains e.world
          translating := s2.translating.filter fun t => !ws.contains t.1
          stored := s2.stored.filter fun e => e.2 ≠ p.owner } : State).syncAccess.answered true)

/-! ### Gating (R383) -/

/-- GATE: every world is pre-empted and saved, then the rails are gated; it waits for aborts in progress (R305) and for fenced bulkheads (R75). What is in
flight performs first. -/
def execGate (fn : Fn) (part : Nat) (s : State) : Out :=
  byPackage fn s <|
    match s.part? part with
    | none => refused s
    | some p =>
      if p.gated then refused s
      else if p.bulks.any s.settling || s.launches.any (fun l => l.part = part && l.status ≠ .running) then waits (.gate fn part) s
      else
        let ws := (s.worlds.filter fun (x : World) => x.part = part && x.ctx.isNone && !x.torn).map fun (x : World) => x.w
        let s1 := ws.foldl (fun s w =>
          let ids := s.lidsOf w
          if ids.isEmpty then s
          else (s.drain (fun x => ids.contains x.lid)).saveWorld w) s
        let s2 := ({ s1 with now := s.now }.clearCores p).modPart part fun q => { q with gated := true, phase := .idle }
        .next ((p.bulks.foldl (fun s b => s.modBulk b fun x => { x with st := .off, since := s.now }) s2).answered true)

/-- UNGATE: the rails are restored and every bulkhead goes through single-region reset. -/
def execUngate (fn : Fn) (part : Nat) (s : State) : Out :=
  byPackage fn s <|
    match s.part? part with
    | none => refused s
    | some p =>
      if !p.gated then refused s
      else .next ((p.bulks.foldl (fun s b => s.startReset b) (s.modPart part fun q => { q with gated := false })).answered true)

/-! ### Routes (R380, R381) -/

/-- Requests sent out that can no longer complete do so with BULKHEAD-DOWN (R381): a posted write fails, anything else is answered. -/
def State.failExt (s : State) (sel : ExtReq → Bool) : State :=
  (s.ext.filter fun (e : ExtReq) => e.reply.isNone && sel e).foldl (fun s (e : ExtReq) =>
    match s.pend.find? fun p => p.ext = some e.id with
    | some p =>
      ({ s with pend := s.pend.filter fun (q : Pend) => q.id ≠ p.id, ext := s.ext.filter fun (x : ExtReq) => x.id ≠ e.id } : State).failWrite p
    | none => { s with ext := s.ext.map fun (x : ExtReq) => if x.id = e.id then { x with reply := some .down } else x }) s

/-- FABRIC_ROUTE (R379 to R381): an entry for this package's own number, with a reserved bit or an invalid port is refused; it enables a port that
was held down. -/
def execFabricRoute (fn : Fn) (part peer : Nat) (entry : Word) (s : State) : Out :=
  byPackage fn s <|
    match s.part? part with
    | none => refused s
    | some p =>
      let e := entry.toNat
      let port := field e 1 4
      if peer = Config.packageNumber || 8192 ≤ peer || 12 ≤ port || 2 ^ 10 ≤ e then refused s
      else
        let old := (SMap.get p.routes peer).toNat
        let worlds := (s.worlds.filter fun (x : World) => x.part = part).map fun (x : World) => x.w
        let s1 := s.modPart part fun q => { q with routes := SMap.set q.routes peer entry }
        let s2 := if bit old 0 && old ≠ e then s1.failExt fun x => !x.host && x.peer = peer && worlds.contains x.world else s1
        let up (q : Port) : Port := if bit e 0 && q.n = port && q.st = 2 then { q with st := 0, fails := 0 } else q
        .next (({ s2 with ports := s2.ports.map up } : State).answered true)

/-! ### Worlds (R14, R342, R343, R303) -/

/-- May a range of pages become a local area: pool pages of the partition (R14, R408)? -/
def State.poolOnly (s : State) (p page count : Nat) : Bool :=
  (s.potParts page count).all fun e => e.2.2 = (poolEntry p).toNat

/-- Are the local areas as R14 wants them: one in each bulkhead's HBM, 2 MiB aligned, of pool pages? -/
def State.areasOk (s : State) (p : Partition) (areas : List LocalArea) : Bool :=
  areas.length = p.bulks.length && (p.bulks.all fun b => areas.any fun a => a.bulk = b) &&
  areas.all fun a =>
    a.base % 0x200000 = 0 && decide (a.bulk * Config.hbmBytes ≤ a.base) &&
    decide (a.base + Config.localAreaBytes ≤ (a.bulk + 1) * Config.hbmBytes) &&
    s.poolOnly p.id (a.base / 4096) (Config.localAreaBytes / 4096)

/-- A world as it is created: every register zero, every imposition entry invalid (R298). -/
def newWorld (w part frame : Nat) (conf : Bool) (areas : List LocalArea) : World :=
  { w := w, part := part, conf := conf, frame := frame, areas := areas, ctl := [], imp := [], nextTag := 0, ctx := none,
    hostSaved := false, atOnce := false, busy := false, resuming := false, faults := [], nextFault := 0, offerTime := none, tdi := .unlocked, tdiLeft := false,
    stopq := [],
    spdm := { version := false, caps := false, algs := false, session := false, finished := false, large := [], chunk := 0 },
    modes := [], barriers := [], taken := [], ready := [], gens := [], query := none, swaps := (0, []), tailAt := 0,
    dbgExt := none, dbgReq := none, torn := false }

/-- Is a torn-down world still in its last frame, or not drained yet? -/
def State.lingers (s : State) (w : Nat) : Bool :=
  (s.launches.any fun l => l.world = w) ||
  s.parts.any fun p => match p.phase with
    | .frame _ v _ _ => decide (v = w)
    | .gap (some (_, v)) _ => decide (v = w)
    | _ => false

/-- WORLD_CREATE (R342, R343, R377, R14). The number must be free and not reserved to another partition. -/
def execWorldCreate (fn : Fn) (w frame : Nat) (conf : Bool) (areas : List LocalArea) (s : State) : Out :=
  byOwner fn s fun p =>
    let mine := s.worlds.filter fun (x : World) => x.part = p.id && !x.torn
    let foreign := match s.owned w with | some q => q.id ≠ p.id | none => false
    if decide (64 ≤ w) || (s.live? w).isSome || s.lingers w || foreign || decide (8 ≤ mine.length) || decide (frame < 100) ||
        decide (10000 < frame) || !s.areasOk p areas then refused s
    else
      let s1 := { s with worlds := s.worlds.filter (fun (x : World) => x.w ≠ w) ++ [newWorld w p.id frame conf areas] }
      let s2 := areas.foldl (fun s (a : LocalArea) =>
        s.beginChange (a.base / 4096) (Config.localAreaBytes / 4096) (potOf p.id w false false false false true 0) true) s1
      .next (s2.syncAccess.answered true)

/-- Pages of a world that its teardown releases (R342, R408): first page and count of each range. Pool pages read as world 0 with ALLW = 1, so world 0's
own pages with ALLW = 1 stay with the pool (LOG 44). -/
def State.pagesOfWorld (s : State) (p : Partition) (w : Nat) : List (Nat × Nat) :=
  p.bulks.flatMap fun b => (pagesOf b).flatMap fun r =>
    ((s.potParts r.1 r.2).filter fun e =>
      field e.2.2 0 5 = p.id && field e.2.2 5 6 = w && !bit e.2.2 14 &&
      (if bit e.2.2 15 then s.worlds.any fun (x : World) => x.w = w && x.areas.any fun a =>
          decide (a.base / 4096 ≤ e.1) && decide (e.1 < (a.base + Config.localAreaBytes) / 4096)
       else !bit e.2.2 11 || w ≠ 0)).map fun e => (e.1, e.2.1)

/-- The world's pages are on their way to the pool: a change that was to give it a page gives the page to the pool, and a window on a released page
closes (R57, R342, LOG 44). -/
def State.release (s : State) (p : Partition) (w : Nat) : State :=
  let pages := s.pagesOfWorld p w
  let meets (t : Slot) : Bool := pages.any fun r => decide (r.1 < t.win.base + t.win.pages) && decide (t.win.base < r.1 + r.2)
  let changing (c : PageChange) : Bool := field c.entry.toNat 0 5 = p.id && field c.entry.toNat 5 6 = w && c.entry ≠ poolEntry p.id
  let s1 := { s with
    changes := s.changes.map fun (c : PageChange) => if changing c then { c with entry := poolEntry p.id, fill := true } else c
    parts := s.parts.map fun (q : Partition) =>
      { q with slots := q.slots.map fun (t : Slot) => if t.win.exporter = p.id && meets t && t.closing.isNone then { t with closing := some s.now } else t } }
  pages.foldl (fun s r => s.beginChange r.1 r.2 (poolEntry p.id) true) s1

/-- WORLD_TEARDOWN (R303, R342, R344, R408). -/
def execWorldTeardown (fn : Fn) (w : Nat) (s : State) : Out :=
  byOwner fn s fun p =>
    match s.live? w with
    | none => refused s
    | some x =>
      if x.part ≠ p.id then refused s
      else
        let host := ((List.range 4).map fun l => x.qLeft l).sum
        let dev := (p.devq.filter fun (e : DevEntry) => e.world = w).length
        let run := s.launches.filter fun l => l.world = w && l.status = .running
        let s1 := run.foldl (fun s l => s.abort l.lid Cause.contained 0 false true) s
        let s2 := { s1 with
          launches := s1.launches.map fun (l : Launch) => if l.world = w then
              { l with status := match l.status with | .aborting c sb n _ d t => .aborting c sb n true d t | st => st }
            else l
          translating := s1.translating.filter fun t => t.1 ≠ w || t.2.2.part.isNone
          ext := s1.ext.filter fun (e : ExtReq) => !(e.world = w && e.poll.isSome) }
        let keep : SMap 64 := SMap.set (SMap.set [] rDROPPED (BitVec.ofNat 64 (host + dev * 2 ^ 32))) rABORTED (BitVec.ofNat 64 run.length)
        let s3 := (s2.release p w).modWorld w fun _ => { (newWorld w p.id x.frame x.conf x.areas) with ctl := keep, torn := true }
        let framed : Bool := match p.phase with
          | .frame _ v _ _ => decide (v = w)
          | .gap (some (_, v)) _ => decide (v = w)
          | _ => false
        let s5 := s3.modPart p.id fun q => { q with devq := q.devq.filter fun (e : DevEntry) => e.world ≠ w }
        let s6 := if framed then s5 else s5.dropTorn p.id w
        .next (s6.syncAccess.answered true)

/-- FRAME_SET (R344, R347). -/
def execFrameSet (fn : Fn) (slots : List Byte) (s : State) : Out :=
  byOwner fn s fun p =>
    let ok := slots.length = 16 && slots.all fun b =>
      !bit b.toNat 6 && (!bit b.toNat 7 || (match s.live? (field b.toNat 0 6) with | some x => x.part = p.id | none => false))
    if !ok then refused s
    else if p.phase = .idle then
      let s1 := s.modPart p.id fun q => { q with frames := slots, pendFrames := none }
      let begun := p.gated || (nextSlot p.frames 15).isSome
      .next ((if begun then s1 else s1.startFrames p.id s.now).answered true)
    else .next ((s.modPart p.id fun q => { q with pendFrames := some slots }).answered true)

/-! ### The debug right (R355, R356) -/

/-- A world of a partition that its owner names. -/
def State.worldOf (s : State) (p w : Nat) : Option World := (s.live? w).bind fun x => if x.part = p then some x else none

/-- DEBUG_OFFER (R355): granted at once for a world with CONF = 0. -/
def execDebugOffer (fn : Fn) (w : Nat) (s : State) : Out :=
  byOwner fn s fun p =>
    match s.worldOf p.id w with
    | none => refused s
    | some x =>
      let s1 := s.modWorld w fun y =>
        if x.granted then y
        else if x.conf then { (y.setField rDBGCTL 8 1 1) with offerTime := some s.now }
        else (y.setField rDBGCTL 9 1 1).setField rDBGCTL 11 1 1
      .next (s1.answered true)

/-- DEBUG_OFFER_LAPSE (R355): 1 s after the offer. -/
def execDebugOfferLapse (w : Nat) (s : State) : Out :=
  .next (s.modWorld w fun x =>
    match x.offerTime with
    | some t => if t + 1000000000 ≤ s.now then { (x.setField rDBGCTL 8 1 0) with offerTime := none } else x
    | none => x)

/-- DEBUG_REVOKE (R356). -/
def execDebugRevoke (fn : Fn) (w : Nat) (s : State) : Out :=
  byOwner fn s fun p =>
    match s.worldOf p.id w with
    | none => refused s
    | some _ => .next ((s.revoke w).answered true)

/-- REPLAY_ENABLE (R370): for a partition with exactly one world. -/
def execReplayEnable (fn : Fn) (s : State) : Out :=
  byOwner fn s fun p =>
    if (s.worlds.filter fun (x : World) => x.part = p.id && !x.torn).length = 1 then
      .next ((s.modPart p.id fun q =>
        if q.replay then q else { q with replay := true, replayOn := some (s.now, s.cycles) }).answered true)
    else refused s

/-! ### Reset modes (R72) -/

/-- RESET_MODE (R72): AUTO resets every FENCED bulkhead at once. -/
def execResetMode (fn : Fn) (held : Bool) (s : State) : Out :=
  byOwner fn s fun p =>
    let s1 := s.modPart p.id fun q => { q with autoReset := !held }
    let s2 := if held then s1 else p.bulks.foldl (fun s b => match s.bulk? b with
      | some x => if x.st = .fenced then s.startReset b else s
      | none => s) s1
    .next (s2.answered true)

/-- BULKHEAD_RESET (R72): of a held FENCED bulkhead. -/
def execBulkheadReset (fn : Fn) (b : Nat) (s : State) : Out :=
  byOwner fn s fun p =>
    match s.bulk? b with
    | some x => if p.bulks.contains b && x.st = .fenced then .next ((s.startReset b).answered true) else refused s
    | none => refused s

/-! ### Pages (R408) -/

/-- PAGE_ASSIGN (R408): `w` is a world or none for the pool. A range of zero pages is refused (DESIGN CHOICE, LOG 114). -/
def execPageAssign (fn : Fn) (page count : Nat) (w : Option Nat) (allw sealed_ : Bool) (s : State) : Out :=
  byOwner fn s fun p =>
    let parts := s.potParts page count
    let shape := decide (0 < count) && p.bulks.any fun b => inBulk b page count
    let free := parts.all fun e => field e.2.2 0 5 = p.id && !bit e.2.2 13 && !bit e.2.2 14 && !bit e.2.2 15
    let slice := decide (Config.sliceBase / 4096 ≤ page)
    if !shape || !free then refused s
    else
      match w with
      | none =>
        if sealed_ && (allw || slice) then refused s
        else .next ((parts.foldl (fun s e => s.beginChange e.1 e.2.1 (poolEntry p.id) true) s).answered true)
      | some v =>
        match s.worldOf p.id v with
        | none => refused s
        | some x =>
          if sealed_ && (allw || slice || !x.conf) then refused s
          else
            let entry := potOf p.id v allw sealed_ false false false 0
            let own (e : Nat) : Bool := field e 5 6 = v && bit e 12 == sealed_ && e ≠ (poolEntry p.id).toNat
            .next ((parts.foldl (fun s e => s.beginChange e.1 e.2.1 entry (!own e.2.2)) s).answered true)

/-! ### The ember log (R372) -/

/-- The 32 bytes of an ember record. -/
def Ember.bytes (e : Ember) : List Byte :=
  toBytes 8 e.time.toNat ++ toBytes 4 e.seq ++ toBytes 1 e.code ++ toBytes 1 e.bulk ++ toBytes 2 e.core ++ toBytes 1 e.world ++ toBytes 7 0 ++
  toBytes 8 e.data.toNat

/-- EMBER_READ (R372): the records from a SEQ on; for the package owner of any bulkhead, for a partition owner of its own. -/
def execEmberRead (fn : Fn) (b seq : Nat) (s : State) : Out :=
  if !s.ready then .next s
  else
    let may := match fn with
      | .pf0 => true
      | .vf w => match s.owned w with | some p => p.bulks.contains b | none => false
    match s.bulk? b with
    | some x =>
      if may then .next { s with reply := some (.data ((x.ember.filter fun (e : Ember) => decide (seq ≤ e.seq)).flatMap Ember.bytes)) } else refused s
    | none => refused s

/-! ### Windows (R54 to R57) -/

/-- May pages be offered (R54): 1 to 16 of them, of one bulkhead, owned by the exporter, with ALLW and without SEALED, GALLEY, RESERVED and WINDOW? -/
def State.mayOffer (s : State) (exporter page count : Nat) : Bool :=
  decide (1 ≤ count) && decide (count ≤ 16) && ((List.range 24).any fun b => inBulk b page count) &&
  (s.potParts page count).all fun e =>
    field e.2.2 0 5 = exporter && bit e.2.2 11 && !bit e.2.2 12 && !bit e.2.2 13 && !bit e.2.2 14 && !bit e.2.2 15

/-- WINDOW_OFFER (R54): answered with the number of the offer. -/
def execWindowOffer (fn : Fn) (importer page count : Nat) (two : Bool) (s : State) : Out :=
  byOwner fn s fun p =>
    if (homeBulk (page * 4096)).any s.settling then waits (.offer fn importer page count two) s
    else if importer = p.id || (s.part? importer).isNone || !s.mayOffer p.id page count then refused s
    else
      .next { s with
        offers := s.offers ++ [{ id := s.serial, exporter := p.id, importer := importer, page := page, count := count, two := two, time := s.now }]
        serial := s.serial + 1
        reply := some (.data (toBytes 8 s.serial)) }

/-- The lowest free window slot of a partition (R55). -/
def Partition.freeSlot (p : Partition) : Option Nat := (List.range 8).find? fun i => p.slots.all fun t => t.idx ≠ i

/-- WINDOW_ACCEPT (R54, R55): the window opens, or is rejected. -/
def execWindowAccept (fn : Fn) (offer : Nat) (s : State) : Out :=
  byOwner fn s fun p =>
    match s.offers.find? fun o => o.id = offer && o.importer = p.id with
    | none => refused s
    | some o =>
      if (homeBulk (o.page * 4096)).any s.settling then waits (.accept fn offer) s
      else
        let s0 := { s with offers := s.offers.filter fun (x : Offer) => x.id ≠ offer }
        match s.part? o.exporter with
        | none => refused s0
        | some q =>
          match q.freeSlot, p.freeSlot with
          | some i, some j =>
            if decide (o.time + 1000000000 ≤ s.now) || !s.mayOffer o.exporter o.page o.count then refused s0
            else
              let win : Window := { two := o.two, exporter := o.exporter, importer := o.importer, pages := o.count, base := o.page }
              let s1 := (s0.modPart q.id fun x => { x with slots := x.slots ++ [⟨i, win, none⟩] }).modPart p.id fun x =>
                { x with slots := x.slots ++ [⟨j, win, none⟩] }
              let s2 := (s.potParts o.page o.count).foldl (fun s e => s.setPot e.1 e.2.1 (BitVec.ofNat 32 (e.2.2 + 2 ^ 13 + i * 2 ^ 16))) s1
              let b := (homeBulk (o.page * 4096)).getD 0
              .next ((s2.ember b 0x09 0xFFFF 0xFF (BitVec.ofNat 64 (o.exporter + o.importer * 2 ^ 32))).syncAccess.answered true)
          | _, _ => refused s0

/-- WINDOW_OFFER_LAPSE (R54): 1 s after the offer. -/
def execWindowOfferLapse (offer : Nat) (s : State) : Out :=
  .next { s with offers := s.offers.filter fun (o : Offer) => !(o.id = offer && decide (o.time + 1000000000 ≤ s.now)) }

/-- WINDOW_CLOSE (R57): at T_close; the owner names its own slot. The answer comes once the window is closed. It waits for a bulkhead of the window that is
fenced or reset (R75). -/
def execWindowClose (fn : Fn) (slot : Nat) (s : State) : Out :=
  byOwner fn s fun p =>
    match p.slots.find? fun t => t.idx = slot with
    | none => refused s
    | some t =>
      if (homeBulk (t.win.base * 4096)).any s.settling then waits (.close fn slot) s
      else waits (.close fn slot) { s with parts := s.parts.map fun (q : Partition) =>
        { q with slots := q.slots.map fun (u : Slot) => if u.win = t.win && u.closing.isNone then { u with closing := some s.now } else u } }

/-- The WINDOW_CLOSE that waits for a window to be closed is answered. -/
def State.answerClose (s : State) (win : Window) : State :=
  match s.mgmt with
  | .close (.vf w) i :: rest =>
    if (s.owned w).any fun p => p.slots.any fun t => t.idx = i && t.win = win then { s.answered true with mgmt := rest } else s
  | _ => s

/-- WINDOW_CLOSE_COMPLETE (R57): once every admitted transaction has performed or failed. -/
def execWindowCloseComplete (part slot : Nat) (s : State) : Out :=
  match (s.part? part).bind fun p => p.slots.find? fun t => t.idx = slot && t.closing.isSome with
  | none => .next s
  | some t =>
    let w := t.win
    let inside (a : Nat) : Bool := decide (w.base ≤ a / 4096) && decide (a / 4096 < w.base + w.pages)
    if s.pend.any fun x => x.ext.isNone && (inside x.pa || inside (x.pa + x.size - 1)) && s.pendPart x = some w.importer then .next s
    else .next ((s.answerClose w).closed w).syncAccess

end Sys2Proof.Machine
end

