-- ==== Sys2Proof/Machine/Evidence.lean ====
section
/-! DEFINITION. Evidence (14, R351 to R354): the SPDM 1.3 requests of a world's function. An answer is its response code and, in order, the fields that
the spec gives; codes, the order of the requests and the errors are those of SPDM 1.3 (LOG 45). -/

namespace Sys2Proof.Machine

/-! ### Descriptors -/

/-- World descriptor (Table 14-1). -/
def World.descriptor (x : World) : Nat := 1 + b2n x.conf * 2 + x.w % 64 * 2 ^ 2 + x.part % 32 * 2 ^ 8 + x.frame % 2 ^ 14 * 2 ^ 16

/-- Window descriptor (Table 02-3). -/
def Window.bytes (t : Window) : List Byte :=
  toBytes 8 (1 + b2n t.two * 2 + t.exporter % 32 * 2 ^ 2 + t.importer % 32 * 2 ^ 7 + t.pages % 32 * 2 ^ 12) ++ toBytes 8 (t.base % 2 ^ 40)

/-- What a read of a window slot through the management interface delivers to a function: to the owners of the window's two partitions, of either slot
(R55). -/
def State.readSlot (s : State) (w part slot : Nat) : Option (List Byte) :=
  match s.owned w, (s.part? part).bind fun p => p.slots.find? fun t => t.idx = slot with
  | some me, some t => if t.win.exporter = me.id || t.win.importer = me.id then some t.win.bytes else none
  | _, _ => none

/-- What a read of a world's descriptor delivers to a function: to the world's own and to its partition owner's (R343). -/
def State.readDescriptor (s : State) (fn w : Nat) : Option Nat :=
  match s.live? w with
  | none => none
  | some x => if fn = w || (match s.owned fn with | some p => p.id = x.part | none => false) then some x.descriptor else none

/-! ### Answers -/

/-- Change the state of a world's SPDM connection. -/
def State.modSpdm (s : State) (w : Nat) (f : Spdm → Spdm) : State := s.modWorld w fun x => { x with spdm := f x.spdm }

/-- Answer with a response. -/
def State.respond (s : State) (code : Nat) (bs : List Byte) : Out := .next { s with reply := some (.data (toBytes 1 code ++ bs)) }

/-- Answer with ERROR. -/
def State.spdmError (s : State) (code : Nat) : Out := s.respond 0x7F (toBytes 1 code)

def errInvalid : Nat := 0x01
def errUnexpected : Nat := 0x04
def errDecrypt : Nat := 0x06
def errUnsupported : Nat := 0x07

/-- A request to the function of a world; a number that no world has answers nothing. -/
def withWorld (w : Nat) (s : State) (f : World → Out) : Out :=
  match s.live? w with
  | none => .next s
  | some x => f x

/-- A request that SPDM allows once something else has been done. -/
def inOrder (ok : Bool) (s : State) (k : Out) : Out := if ok then k else s.spdmError errUnexpected

/-! ### The state word and the measurements (R352, R354) -/

/-- The state word: DESCHEDULED, GATED, SAVED. -/
def State.stateWord (s : State) (x : World) : List Byte :=
  let gated := match s.part? x.part with | some p => p.gated | none => false
  toBytes 4 (b2n (!s.inFrame x) + b2n gated * 2 + b2n x.showsSaved * 4)

/-- One measurement block in the DMTF format: index, specification, size, value type, value size, value. -/
def dmtfBlock (i ty : Nat) (v : List Byte) : List Byte :=
  toBytes 1 i ++ toBytes 1 1 ++ toBytes 2 (v.length + 3) ++ toBytes 1 ty ++ toBytes 2 v.length ++ v

/-- Topology (R353): 40 bytes for each port. -/
def State.topology (s : State) : List Byte :=
  s.ports.flatMap fun (q : Port) =>
    toBytes 1 q.st ++ toBytes 1 q.peerPort ++ toBytes 2 0 ++ toBytes 4 q.peer ++ (q.digest ++ List.replicate 32 0).take 32

/-- Measurement block `i` of a world, 1 to 8 (Table 14-4). -/
def State.measurement (s : State) (x : World) (p : Partition) (i : Nat) : List Byte :=
  match i with
  | 1 => dmtfBlock 1 0x00 (sha384 (Config.bootImage 1 s.firmware))
  | 2 => dmtfBlock 2 0x01 (sha384 (Config.bootImage 2 s.firmware))
  | 3 => dmtfBlock 3 0x01 (sha384 (Config.bootImage 3 s.firmware))
  | 4 => dmtfBlock 4 0x03 (sha384 (Config.bootImage 4 s.firmware))
  | 5 => dmtfBlock 5 0x82 (toBytes 1 p.id ++ toBytes 1 p.bulks.length ++ toBytes 2 0 ++ toBytes 4 (p.bulks.map fun b => 2 ^ b).sum)
  | 6 => dmtfBlock 6 0x03 (sha384 (toBytes 8 x.descriptor ++ p.frames ++ p.slots.flatMap fun (t : Slot) => t.win.bytes))
  | 7 => dmtfBlock 7 0x85 (toBytes 4 (x.fieldOf rDBGCTL 8 4))
  | 8 => dmtfBlock 8 0x82 s.topology
  | _ => []

/-! ### The requests (R351) -/

/-- GET_VERSION: SPDM 1.3; a connection begins anew. -/
def execGetVersion (w : Nat) (s : State) : Out :=
  withWorld w s fun _ =>
    (s.modSpdm w fun _ => { version := true, caps := false, algs := false, session := false, finished := false, large := [], chunk := 0 }).respond 0x04
      (toBytes 1 1 ++ toBytes 2 0x1300)

/-- GET_CAPABILITIES: certificates, challenges, signed measurements, encryption, key exchange, heartbeat, key update and chunks; no pre-shared key and
no mutual authentication. -/
def execGetCapabilities (w : Nat) (s : State) : Out :=
  withWorld w s fun x => inOrder x.spdm.version s <|
    (s.modSpdm w fun c => { c with caps := true }).respond 0x61
      (toBytes 4 (2 ^ 1 + 2 ^ 2 + 2 ^ 4 + 2 ^ 6 + 2 ^ 7 + 2 ^ 9 + 2 ^ 13 + 2 ^ 14 + 2 ^ 17))

/-- NEGOTIATE_ALGORITHMS: no BaseAsymAlgo, BaseHashAlgo SHA-384, one ExtAsym entry. -/
def execNegotiateAlgorithms (w : Nat) (s : State) : Out :=
  withWorld w s fun x => inOrder x.spdm.caps s <|
    (s.modSpdm w fun c => { c with algs := true }).respond 0x63 (toBytes 4 0 ++ toBytes 4 2 ++ toBytes 1 1 ++ Config.extAsym)

/-- GET_DIGESTS: slot 0 holds the device identity chain. -/
def execGetDigests (w : Nat) (s : State) : Out :=
  withWorld w s fun x => inOrder x.spdm.algs s (s.respond 0x01 (toBytes 1 1 ++ sha384 Config.certChain))

/-- GET_CERTIFICATE: a portion of the chain of slot 0, and how much is left. -/
def execGetCertificate (w slot off len : Nat) (s : State) : Out :=
  withWorld w s fun x => inOrder x.spdm.algs s <|
    if slot ≠ 0 || decide (Config.certChain.length ≤ off) then s.spdmError errInvalid
    else
      let part := (Config.certChain.drop off).take len
      s.respond 0x02 (toBytes 2 part.length ++ toBytes 2 (Config.certChain.length - off - part.length) ++ part)

/-- CHALLENGE: signed over the chain's digest, the nonce and the state word. -/
def execChallenge (w : Nat) (nonce : List Byte) (s : State) : Out :=
  withWorld w s fun x => inOrder x.spdm.algs s <|
    let m := sha384 Config.certChain ++ nonce ++ s.stateWord x
    s.respond 0x03 (m ++ Config.sign m)

/-- GET_MEASUREMENTS (R352, R354): index 0 asks for the number of blocks, 0xFF for all; the response is signed over the nonce and the state word, also
while the world is descheduled or gated. The message stays for CHUNK_GET. -/
def execGetMeasurements (w : Nat) (nonce : List Byte) (index : Nat) (s : State) : Out :=
  withWorld w s fun x => inOrder x.spdm.algs s <|
    match s.part? x.part with
    | none => .next s
    | some p =>
      if 8 < index && index ≠ 255 then s.spdmError errInvalid
      else
        let idx := if index = 0 then [] else if index = 255 then [1, 2, 3, 4, 5, 6, 7, 8] else [index]
        let n := if index = 0 then 8 else idx.length
        let m := toBytes 1 n ++ (idx.flatMap fun i => s.measurement x p i) ++ nonce ++ s.stateWord x
        (s.modSpdm w fun c => { c with large := toBytes 1 0x60 ++ m ++ Config.sign m, chunk := 0 }).respond 0x60 (m ++ Config.sign m)

/-- KEY_EXCHANGE: a session opens, in place of an earlier one; the response, with the state word, is signed (R352). -/
def execKeyExchange (w : Nat) (nonce : List Byte) (s : State) : Out :=
  withWorld w s fun x => inOrder x.spdm.algs s <|
    (s.modSpdm w fun c => { c with session := true, finished := false }).respond 0x64 (s.stateWord x ++ Config.sign (nonce ++ s.stateWord x))

/-- FINISH: `ok` says that the requester's verification data are right; otherwise the session ends. -/
def execFinish (w : Nat) (ok : Bool) (s : State) : Out :=
  withWorld w s fun x => inOrder (x.spdm.session && !x.spdm.finished) s <|
    if ok then (s.modSpdm w fun c => { c with finished := true }).respond 0x65 []
    else (s.modSpdm w fun c => { c with session := false }).spdmError errDecrypt

/-- HEARTBEAT: within a session. -/
def execHeartbeat (w : Nat) (s : State) : Out :=
  withWorld w s fun x => inOrder x.spdm.finished s (s.respond 0x68 [])

/-- KEY_UPDATE: within a session. -/
def execKeyUpdate (w : Nat) (s : State) : Out :=
  withWorld w s fun x => inOrder x.spdm.finished s (s.respond 0x69 [])

/-- END_SESSION. -/
def execEndSession (w : Nat) (s : State) : Out :=
  withWorld w s fun x => inOrder x.spdm.finished s <|
    (s.modSpdm w fun c => { c with session := false, finished := false }).respond 0x6C []

/-- CHUNK_SEND: a chunk of a large request; its bytes are collected, and the request they make is the event that follows the last one (LOG 45). -/
def execChunkSend (w : Nat) (bytes : List Byte) (last : Bool) (s : State) : Out :=
  withWorld w s fun x => inOrder x.spdm.algs s <|
    (s.modSpdm w fun c => { c with large := (if c.chunk = 0 then [] else c.large) ++ bytes, chunk := if last then 0 else c.chunk + 1 }).respond 0x05
      (toBytes 2 x.spdm.chunk)

/-- CHUNK_GET: chunk `seq` of the last large response, and whether it is the last one. -/
def execChunkGet (w seq : Nat) (s : State) : Out :=
  withWorld w s fun x => inOrder (x.spdm.algs && x.spdm.large ≠ []) s <|
    let rest := x.spdm.large.drop (seq * Config.spdmChunk)
    if rest = [] then s.spdmError errInvalid
    else s.respond 0x06 (toBytes 1 (b2n (decide (rest.length ≤ Config.spdmChunk))) ++ toBytes 2 seq ++ rest.take Config.spdmChunk)

/-- UNSUPPORTED_REQUEST: any other request. -/
def execUnsupportedRequest (w code : Nat) (s : State) : Out :=
  withWorld w s fun _ => s.respond 0x7F (toBytes 1 errUnsupported ++ toBytes 1 code)

end Sys2Proof.Machine
end

