-- ==== Sys2Proof/Machine/Elem.lean ====
section
/-! DEFINITION. The elementary functions of R148: special values by Table 05-10, other values by a fixed-point enclosure whose two ends are rounded; where
they round differently, the free value of LOG 20. -/

namespace Sys2Proof.Machine

/-- The integer part of π × 2^1400. -/
def piBits : Nat :=
  0x3243F6A8885A308D313198A2E03707344A4093822299F31D0082EFA98EC4E6C89452821E638D01377BE5466CF34E90C6CC0AC29B7C97C50DD3F84D5B5B54709179216D5D98979FB1BD1310BA698DFB5AC2FFD72DBD01ADFB7B8E1AFED6A267E96BA7C9045F12C7F9924A19947B3916CF70801F2E2858EFC16636920D871574E69A458FEA3F4933D7E0D95748F728EB658718BCD5882154AEE7B54A41DC25A59B59C30D5392AF26013C5D1B023286085

/-- The integer part of ln 2 × 2^1400. -/
def ln2Bits : Nat :=
  0xB17217F7D1CF79ABC9E3B39803F2F6AF40F343267298B62D8A0D175B8BAAFA2BE7B876206DEBAC98559552FB4AFA1B10ED2EAE35C138214427573B291169B8253E96CA16224AE8C51ACBDA11317C387EB9EA9BC3B136603B256FA0EC7657F74B72CE87B19D6548CAF5DFA6BD38303248655FA1872F20E3A2DA2D97C50F3FD5C607F4CA11FB5BFB90610D30F88FE551A2EE569D6DFC1EFA157D2E23DE1400B39617460775DB8990E5C943E732B479CD

/-- A number strictly between t and t + 1 units of 2^e. -/
def Mag.open_ (t : Nat) (e : Int) : Mag where
  lg := (Nat.log2 t : Int) + e
  tr k := if 0 ≤ e + k then (t * 2 ^ (e + k).toNat, true) else (t / 2 ^ (-(e + k)).toNat, true)

/-- Σ r^k / k! over `n` terms in fixed point of `p` bits: e^r. -/
def expSum (p r : Nat) : Nat → Nat → Nat → Nat → Nat
  | 0, _, _, acc => acc
  | n + 1, k, t, acc => let t := t * r / 2 ^ p / k; expSum p r n (k + 1) t (acc + t)

/-- e^r in fixed point of `p` bits, r below 0.7. -/
def expFix (p r : Nat) : Nat := expSum p r 120 1 (2 ^ p) (2 ^ p)

/-- Alternating sums Σ (−1)^k t_k with t_(k+1) = t_k × z / ((j + 1) (j + 2)), j rising by two: sine from (θ, j = 1), cosine from (1, j = 0). -/
def trigSum (p z : Nat) : Nat → Nat → Nat → Nat → Nat → Bool → Int
  | 0, _, _, pos, neg, _ => (pos : Int) - (neg : Int)
  | n + 1, j, t, pos, neg, even =>
    let t := t * z / 2 ^ p / ((j + 1) * (j + 2))
    if even then trigSum p z n (j + 2) t pos (neg + t) false else trigSum p z n (j + 2) t (pos + t) neg true

/-- Σ z^(2k+1) / (2k + 1): the inverse hyperbolic tangent in fixed point. -/
def atanhSum (p z2 : Nat) : Nat → Nat → Nat → Nat → Nat
  | 0, _, _, acc => acc
  | n + 1, j, t, acc => let t := t * z2 / 2 ^ p; atanhSum p z2 n (j + 2) t (acc + t / j)

/-- m × 2^e in fixed point of `p` bits, truncated. -/
def fixOf (p m : Nat) (e : Int) : Nat :=
  if 0 ≤ e + p then m * 2 ^ (e + p).toNat else m / 2 ^ (-(e + p)).toNat

/-- The result of an elementary function: known exactly, or `s` units of 2^(e − p) with an error below 2^24 units. No value of the second kind is a multiple
of the unit. -/
inductive Elem where
  | exact (x : EX) (fl : Word)
  | near (neg : Bool) (s p : Nat) (e : Int)

/-- 2^x (FEX2). -/
def eExp2 (v : FV) : Elem :=
  match v with
  | .nan _ s _ => .exact v.ex (flagIf s flIV)
  | .inf true => .exact (.zero false) 0
  | .inf false => .exact (.inf false) 0
  | .zero _ => .exact (.num false (Mag.dy 1 0)) 0
  | .fin n m e =>
    let lg := (Nat.log2 m : Int) + e
    if lg > 13 then .exact (.num false (Mag.dy 1 (if n then -20000 else 20000))) 0
    else if lg < -120 then .exact (.num false (if n then Mag.open_ (2 ^ 400 - 1) (-400) else Mag.open_ (2 ^ 400) (-400))) 0
    else
      let d : Nat := 2 ^ (-e).toNat
      let x : Int := (if n then -(m : Int) else m) * 2 ^ e.toNat
      let i : Int := x / (d : Int)
      let f := (x % (d : Int)).toNat
      if f = 0 then .exact (.num false (Mag.dy 1 i)) 0
      else .near false (expFix 400 (f * ln2Bits / 2 ^ 1000 / d)) 400 i

/-- log2 x (FLG2). -/
def eLog2 (v : FV) : Elem :=
  match v with
  | .nan _ s _ => .exact v.ex (flagIf s flIV)
  | .zero _ => .exact (.inf true) flDZ
  | .inf false => .exact (.inf false) 0
  | .fin false m e =>
    let l : Nat := Nat.log2 m
    let i : Int := (l : Int) + e
    if m = 2 ^ l then .exact (exInt i 0 false) 0
    else
      -- s = m / 2^l in (1, 2); taken over 2 when above 1.5
      let up := 2 * m > 3 * 2 ^ l
      let d : Nat := if up then 2 ^ (l + 1) else 2 ^ l
      let i := if up then i + 1 else i
      let num : Nat := if m ≥ d then m - d else d - m
      let z : Nat := num * 2 ^ 400 / (m + d)
      let s : Nat := 2 * atanhSum 400 (z * z / 2 ^ 400) 90 3 z z
      let q : Nat := s * 2 ^ 1400 / ln2Bits
      let r : Int := i * 2 ^ 400 + (if m ≥ d then (q : Int) else -(q : Int))
      .near (decide (r < 0)) r.natAbs 400 0
  | _ => .exact (.nan none) flIV

/-- sin π y for y = a / 2^k in (0, 1/4]. -/
def sinQ (neg : Bool) (a k : Nat) : Elem :=
  let p := 300 + (k - Nat.log2 a)
  let th := a * piBits / 2 ^ (1400 - p) / 2 ^ k
  .near neg (trigSum p (th * th / 2 ^ p) 40 1 th th 0 true).toNat p 0

/-- cos π y for y = a / 2^k in (0, 1/4]. -/
def cosQ (neg : Bool) (a k : Nat) : Elem :=
  if 150 + Nat.log2 a < k then .exact (.num neg (Mag.open_ (2 ^ 400 - 1) (-400))) 0
  else
    let th := a * piBits / 2 ^ 1000 / 2 ^ k
    .near neg (trigSum 400 (th * th / 2 ^ 400) 40 0 (2 ^ 400) (2 ^ 400) 0 true).toNat 400 0

/-- sin π y for y = a / 2^k in (0, 1/2). -/
def sinH (neg : Bool) (a k : Nat) : Elem := if 4 * a ≤ 2 ^ k then sinQ neg a k else cosQ neg (2 ^ (k - 1) - a) k

/-- cos π y for y = a / 2^k in (0, 1/2). -/
def cosH (neg : Bool) (a k : Nat) : Elem := if 4 * a ≤ 2 ^ k then cosQ neg a k else sinQ neg (2 ^ (k - 1) - a) k

/-- sin π x (FSINP). -/
def eSinPi (v : FV) : Elem :=
  match v with
  | .nan _ s _ => .exact v.ex (flagIf s flIV)
  | .inf _ => .exact (.nan none) flIV
  | .zero n => .exact (.zero n) 0
  | .fin n m e =>
    if 0 ≤ e then .exact (.zero n) 0
    else
      let k := (-e).toNat
      let r := m % 2 ^ (k + 1)
      let j := r * 2 / 2 ^ k
      let y := r - j * 2 ^ (k - 1)
      let neg := n != decide (2 ≤ j)
      if y = 0 then (if j % 2 = 0 then .exact (.zero n) 0 else .exact (.num neg (Mag.dy 1 0)) 0)
      else (if j % 2 = 0 then sinH neg y k else cosH neg y k)

/-- cos π x (FCOSP). -/
def eCosPi (v : FV) : Elem :=
  match v with
  | .nan _ s _ => .exact v.ex (flagIf s flIV)
  | .inf _ => .exact (.nan none) flIV
  | .zero _ => .exact (.num false (Mag.dy 1 0)) 0
  | .fin _ m e =>
    if 0 ≤ e then .exact (.num (e = 0 && m % 2 = 1) (Mag.dy 1 0)) 0
    else
      let k := (-e).toNat
      let r := m % 2 ^ (k + 1)
      let j := r * 2 / 2 ^ k
      let y := r - j * 2 ^ (k - 1)
      let neg := j = 1 || j = 2
      if y = 0 then (if j % 2 = 1 then .exact (.zero false) 0 else .exact (.num neg (Mag.dy 1 0)) 0)
      else (if j % 2 = 0 then cosH neg y k else sinH neg y k)

/-- e^−y for y = m × 2^e > 0, at most 2^13: (n, E) with e^−y = E × 2^−(n + p), E in fixed point of `p` bits in (1, 2]. -/
def expNeg (p m : Nat) (e : Int) : Nat × Nat :=
  let y := fixOf p m e
  let l := ln2Bits / 2 ^ (1400 - p)
  let n := y / l
  (n + 1, expFix p (l - y % l))

/-- tanh x (FTANH). -/
def eTanh (v : FV) : Elem :=
  match v with
  | .nan _ s _ => .exact v.ex (flagIf s flIV)
  | .inf n => .exact (.num n (Mag.dy 1 0)) 0
  | .zero n => .exact (.zero n) 0
  | .fin n m e =>
    let lg := (Nat.log2 m : Int) + e
    if lg < -100 then .exact (.num n (Mag.open_ (m * 2 ^ 160 - 1) (e - 160))) 0
    else if lg > 7 || 140 * 2 ^ (-e).toNat ≤ m * 2 ^ e.toNat then .exact (.num n (Mag.open_ (2 ^ 400 - 1) (-400))) 0
    else
      let (k, x) := expNeg 600 m (e + 1)
      -- u = x / 2^(600 + k); (1 − u) / (1 + u)
      let one := 2 ^ (600 + k)
      .near n ((one - x) * 2 ^ 500 / (one + x)) 500 0

/-- 1 / (1 + e^−x) (FSIGM). -/
def eSigm (v : FV) : Elem :=
  match v with
  | .nan _ s _ => .exact v.ex (flagIf s flIV)
  | .inf n => .exact (if n then .zero false else .num false (Mag.dy 1 0)) 0
  | .zero _ => .exact (.num false (Mag.dy 1 (-1))) 0
  | .fin n m e =>
    let lg := (Nat.log2 m : Int) + e
    if lg < -120 then .exact (.num false (if n then Mag.open_ (2 ^ 400 - 1) (-401) else Mag.open_ (2 ^ 400) (-401))) 0
    else if lg > 12 then .exact (.num false (if n then Mag.open_ (2 ^ 400) (-5400) else Mag.open_ (2 ^ 400 - 1) (-400))) 0
    else
      let (k, x) := expNeg 500 m e
      let one := 2 ^ (500 + k)
      if n then .near false (x * 2 ^ (400 + k) / (one + x)) 400 (-(k : Int))
      else if k > 400 then .exact (.num false (Mag.open_ (2 ^ 400 - 1) (-400))) 0
      else .near false (one * 2 ^ 500 / (one + x)) 500 0

/-- Round an elementary result (R148). Rounding is monotonic, so an enclosure gives the result when both of its ends round to it; where they do not, it is the
free value of LOG 20. -/
def elemOut (fn : Nat) (cl : Cls) (fpm : Word) (rm : RM) (x : DWord) (r : Elem) : Nat × Word :=
  match r with
  | .exact ex fl => let (b, f) := outR .f32 cl fpm rm ex; (b, fl ||| f)
  | .near neg s p e =>
    let low := outR .f32 cl fpm rm (.num neg (Mag.open_ (s - 2 ^ 24) (e - p)))
    let high := outR .f32 cl fpm rm (.num neg (Mag.open_ (s + 2 ^ 24 - 1) (e - p)))
    if low = high && decide (2 ^ 24 < s) then low
    else
    let w := Config.elemOpen fn x rm.code (cl = .h)
    (if cl = .h then (hImage w).toNat else w.toNat % 2 ^ 32, flNX)

end Sys2Proof.Machine
end

