-- ==== Sys2Proof/Machine/Float.lean ====
section
/-! DEFINITION. Floating-point arithmetic and the elementary functions (10, R272 to R278). -/

namespace Sys2Proof.Machine

/-- An operand with its width for a float type: an h register is one. -/
def opF (t : FT) (o : Opnd) : Opnd × Nat := (o, if o.cls = .h then 1 else regsF t)

/-- One scalar of R272: sources read and flushed, the exact result, rounded once. -/
def scalarF (t : FT) (fpm : Word) (rm : RM) (dcl : Cls) (cls : List Cls) (f : List FV → EX × Word) (xs : List DWord) : Nat × Word :=
  let r := f ((cls.zip xs).map fun x => inF fpm t x.1 x.2)
  let o := outR t dcl fpm rm r.1
  (o.1, r.2 ||| o.2)

/-- Both elements of an X2 type, each computed by `g`; or one scalar. -/
def lanesF (t : FT) (g : List DWord → Nat × Word) (xs : List DWord) : LaneOut :=
  if t.x2 then
    let half (i : Nat) : List DWord := xs.map fun x => BitVec.ofNat 64 (field x.toNat (16 * i) 16)
    let lo := g (half 0)
    let hi := g (half 1)
    { d := BitVec.ofNat 64 (lo.1 + hi.1 * 2 ^ 16), fl := lo.2 ||| hi.2 }
  else
    let o := g xs
    { d := BitVec.ofNat 64 o.1, fl := o.2 }

/-- The shape of R272. An instruction without a rounding field rounds by %fpm.RND where rounding is needed (LOG 9). -/
def floatOp (hd : Hdr) (t : FT) (rm : RM) (d : Opnd) (srcs : List Opnd) (f : Word → RM → List FV → EX × Word) (s : State) : Out :=
  alu hd (some (opF t d)) (srcs.map (opF t))
    (fun c _ vs =>
      let fpm := c.g.fpm
      let r := rm.resolve fpm
      lanesF t (scalarF t fpm r d.cls (srcs.map fun o => o.cls) (f fpm r)) vs) s

def f1 (f : FV → EX × Word) : List FV → EX × Word
  | [a] => f a
  | _ => (.zero false, 0)

def f2 (f : FV → FV → EX × Word) : List FV → EX × Word
  | [a, b] => f a b
  | _ => (.zero false, 0)

def f3 (f : FV → FV → FV → EX × Word) : List FV → EX × Word
  | [a, b, c] => f a b c
  | _ => (.zero false, 0)

/-- A value with its sign inverted, a NaN unchanged. -/
def FV.minus (v : FV) : FV := if v.isNan then v else v.setNeg (!v.neg)

/-- FADD (Table 10-3). -/
def execFadd (hd : Hdr) (ft : FT) (rm : RM) (d a b : Opnd) (s : State) : Out := floatOp hd ft rm d [a, b] (fun _ r => f2 (fAdd r)) s

/-- FSUB (Table 10-3). -/
def execFsub (hd : Hdr) (ft : FT) (rm : RM) (d a b : Opnd) (s : State) : Out :=
  floatOp hd ft rm d [a, b] (fun _ r => f2 fun x y => fAdd r x y.minus) s

/-- FMUL (Table 10-3). -/
def execFmul (hd : Hdr) (ft : FT) (rm : RM) (d a b : Opnd) (s : State) : Out := floatOp hd ft rm d [a, b] (fun _ _ => f2 fMul) s

/-- FFMA (Table 10-3). -/
def execFfma (hd : Hdr) (ft : FT) (rm : RM) (d a b c : Opnd) (s : State) : Out := floatOp hd ft rm d [a, b, c] (fun _ r => f3 (fFma r)) s

/-- FMIN (R144). -/
def execFmin (hd : Hdr) (ft : FT) (d a b : Opnd) (s : State) : Out := floatOp hd ft .dyn d [a, b] (fun m _ => f2 (fMinMax m true false)) s

/-- FMAX (R144). -/
def execFmax (hd : Hdr) (ft : FT) (d a b : Opnd) (s : State) : Out := floatOp hd ft .dyn d [a, b] (fun m _ => f2 (fMinMax m true true)) s

/-- FMINM (R144). -/
def execFminm (hd : Hdr) (ft : FT) (d a b : Opnd) (s : State) : Out := floatOp hd ft .dyn d [a, b] (fun m _ => f2 (fMinMax m false false)) s

/-- FMAXM (R144). -/
def execFmaxm (hd : Hdr) (ft : FT) (d a b : Opnd) (s : State) : Out := floatOp hd ft .dyn d [a, b] (fun m _ => f2 (fMinMax m false true)) s

/-- The sign bit of an operand's element. -/
def signBit (t : FT) (cl : Cls) (x : DWord) : Bool := if cl = .h then bit x.toNat 63 else bit x.toNat (t.fm.bits - 1)

/-- One element with a new sign (R273): bits only, but an h value going to a v register is rounded to F32 first, as R150 does for CHR = 1: with FTZO and NANP (DESIGN
CHOICE, LOG 127). -/
def resign (t : FT) (fpm : Word) (dcl acl : Cls) (n : Bool) (x : DWord) : Nat × Word :=
  if dcl = .h then
    let y := if acl = .h then x.toNat else hOfF32 x.toNat
    (y % 2 ^ 63 + b2n n * 2 ^ 63, 0)
  else
    let y : Nat × Word := if acl = .h then outF .f32 fpm (RM.dyn.resolve fpm) false (decodeH x.toNat).ex else (x.toNat, 0)
    (y.1 % 2 ^ (t.fm.bits - 1) + b2n n * 2 ^ (t.fm.bits - 1), y.2)

/-- The shape of R273: `f` gives the new sign from those of the operands. -/
def signOp (hd : Hdr) (t : FT) (d : Opnd) (srcs : List Opnd) (f : List Bool → Bool) (s : State) : Out :=
  alu hd (some (opF t d)) (srcs.map (opF t))
    (fun c _ vs =>
      lanesF t (fun xs =>
        match srcs, xs with
        | o :: _, x :: _ => resign t c.g.fpm d.cls o.cls (f ((srcs.zip xs).map fun y => signBit t y.1.cls y.2)) x
        | _, _ => (0, 0)) vs) s

/-- FABS (R273). -/
def execFabs (hd : Hdr) (ft : FT) (d a : Opnd) (s : State) : Out := signOp hd ft d [a] (fun _ => false) s

/-- FNEG (R273). -/
def execFneg (hd : Hdr) (ft : FT) (d a : Opnd) (s : State) : Out := signOp hd ft d [a] (fun n => !(n.headD false)) s

/-- FCPYS (R273). -/
def execFcpys (hd : Hdr) (ft : FT) (d a b : Opnd) (s : State) : Out := signOp hd ft d [a, b] (fun n => n.getD 1 false) s

/-- FCMP (R274). -/
def execFcmp (hd : Hdr) (cmp : FCmp) (ft : FT) (pd : Nat) (a b : Opnd) (s : State) : Out :=
  alu hd none [opF ft a, opF ft b]
    (fun c _ vs =>
      match vs with
      | [x, y] =>
        let r := fCmp cmp (inF c.g.fpm ft a.cls x) (inF c.g.fpm ft b.cls y)
        { p := some (pd, r.1), fl := r.2 }
      | _ => {}) s

/-- FCLASS (R274). -/
def execFclass (hd : Hdr) (ft : FT) (d a : Opnd) (s : State) : Out :=
  alu hd (some (d, 1)) [opF ft a]
    (fun _ _ vs =>
      let x := (vs.headD 0).toNat
      let sub := a.cls ≠ .h && field x ft.fm.f ft.fm.e = 0
      { d := BitVec.ofNat 64 (fClass (if a.cls = .h then decodeH x else decodeF ft x) sub) }) s

/-- FRINT (R275). -/
def execFrint (hd : Hdr) (ft : FT) (rm : RM) (exact : Bool) (d a : Opnd) (s : State) : Out :=
  floatOp hd ft rm d [a] (fun _ r => f1 fun v => let x := fRint r v; (x.1.ex, flagIf v.isSnan flIV ||| flagIf (exact && x.2) flNX)) s

/-- FDIV (R148). -/
def execFdiv (hd : Hdr) (ft : FT) (rm : RM) (d a b : Opnd) (s : State) : Out := floatOp hd ft rm d [a, b] (fun _ _ => f2 fDiv) s

/-- FSQRT (R148). -/
def execFsqrt (hd : Hdr) (ft : FT) (rm : RM) (d a : Opnd) (s : State) : Out := floatOp hd ft rm d [a] (fun _ _ => f1 fSqrt) s

/-- FRCP (R148). -/
def execFrcp (hd : Hdr) (rm : RM) (d a : Opnd) (s : State) : Out := floatOp hd .f32 rm d [a] (fun _ _ => f1 fRcp) s

/-- FRSQ (R148). -/
def execFrsq (hd : Hdr) (rm : RM) (d a : Opnd) (s : State) : Out := floatOp hd .f32 rm d [a] (fun _ _ => f1 fRsq) s

/-- a × 2^k (R275). A magnitude of k beyond 10,000 gives the same rounded result as 10,000. -/
def fScale (k : Int) (v : FV) : EX × Word :=
  match v with
  | .fin n m e => (.num n (Mag.dy m (e + max (-10000) (min 10000 k))), 0)
  | _ => (v.ex, flagIf v.isSnan flIV)

/-- FSCALE (R275). -/
def execFscale (hd : Hdr) (ft : FT) (rm : RM) (d a b : Opnd) (s : State) : Out :=
  alu hd (some (opF ft d)) [opF ft a, (b, 1)]
    (fun c _ vs =>
      match vs with
      | [x, y] =>
        let o := scalarF ft c.g.fpm (rm.resolve c.g.fpm) d.cls [a.cls] (f1 (fScale (signed 32 y.toNat))) [x]
        { d := BitVec.ofNat 64 o.1, fl := o.2 }
      | _ => {}) s

/-- FDOT2 (R276). -/
def execFdot2 (hd : Hdr) (ft : FT) (rm : RM) (d a b c : Opnd) (s : State) : Out :=
  alu hd (some (d, 1)) [(a, 1), (b, 1), (c, 1)]
    (fun x _ vs =>
      match vs with
      | [u, v, w] =>
        let m := x.g.fpm
        let el (y : DWord) (i : Nat) : FV := inF m ft .v (BitVec.ofNat 64 (field y.toNat (16 * i) 16))
        let r := fDot2 (rm.resolve m) (el u 0) (el v 0) (el u 1) (el v 1) (inF m .f32 c.cls w)
        let o := outR .f32 d.cls m (rm.resolve m) r.1
        { d := BitVec.ofNat 64 o.1, fl := r.2 ||| o.2 }
      | _ => {}) s

/-- The shape of R277: function number `fn`, its exact or enclosed result. -/
def elemOp (fn : Nat) (hd : Hdr) (rm : RM) (d a : Opnd) (f : FV → Elem) (s : State) : Out :=
  alu hd (some (d, 1)) [(a, 1)]
    (fun c _ vs =>
      let x := vs.headD 0
      let o := elemOut fn d.cls c.g.fpm (rm.resolve c.g.fpm) x (f (inF c.g.fpm .f32 a.cls x))
      { d := BitVec.ofNat 64 o.1, fl := o.2 }) s

/-- FEX2 (R277). -/
def execFex2 (hd : Hdr) (rm : RM) (d a : Opnd) (s : State) : Out := elemOp 0 hd rm d a eExp2 s

/-- FLG2 (R277). -/
def execFlg2 (hd : Hdr) (rm : RM) (d a : Opnd) (s : State) : Out := elemOp 1 hd rm d a eLog2 s

/-- FSINP (R277). -/
def execFsinp (hd : Hdr) (rm : RM) (d a : Opnd) (s : State) : Out := elemOp 2 hd rm d a eSinPi s

/-- FCOSP (R277). -/
def execFcosp (hd : Hdr) (rm : RM) (d a : Opnd) (s : State) : Out := elemOp 3 hd rm d a eCosPi s

/-- FTANH (R277). -/
def execFtanh (hd : Hdr) (rm : RM) (d a : Opnd) (s : State) : Out := elemOp 4 hd rm d a eTanh s

/-- FSIGM (R277). -/
def execFsigm (hd : Hdr) (rm : RM) (d a : Opnd) (s : State) : Out := elemOp 5 hd rm d a eSigm s

/-- HMOV (R278): no flag in any case. FTZI flushes an F32, F16 or BF16 operand, and an F32 value that an h register holds under CHR = 1 (R142); what
enters h from F32, F16 or BF16 enters exactly, whatever CHR and FTZO say. -/
def execHmov (hd : Hdr) (ft : FT) (rm : RM) (sat : Bool) (d a : Opnd) (s : State) : Out :=
  alu hd (some (opF ft d)) [opF ft a]
    (fun c _ vs =>
      let m := c.g.fpm
      let x := vs.headD 0
      if d.cls = .h && a.cls = .h then { d := x }
      else if d.cls = .h then
        let whole := if ft = .f64 then m else m &&& ~~~ (0x40 : Word)
        { d := BitVec.ofNat 64 (outH whole (rm.resolve m) (inF m ft .v x).ex).1 }
      else { d := BitVec.ofNat 64 (outF ft m (rm.resolve m) sat (inF m .f32 .h x).ex).1 }) s

end Sys2Proof.Machine
end

