-- ==== Sys2Proof/Machine/Lane.lean ====
section
/-! DEFINITION. Cross-lane operations (06, R166 to R173; 09, R253 to R256). -/

namespace Sys2Proof.Machine

/-! ### Data class (R169, R254) -/

/-- Source lane of a SHFL and whether it is valid (R254). -/
def shflLane (mode : ShMode) (w l b : Nat) : Nat × Bool :=
  let s := l - l % w
  match mode with
  | .idx => (s + b % w, true)
  | .up => (l - b, decide (b ≤ l - s))
  | .down => (l + b, decide (l + b ≤ s + w - 1))
  | .xor => (s + (BitVec.ofNat 64 (l - s) ^^^ BitVec.ofNat 64 (b % w)).toNat, true)

/-- SHFL (R254). -/
def execShfl (hd : Hdr) (mode : ShMode) (w : Bool) (d a b : Opnd) (seg : Nat) (s : State) : Out :=
  alu hd (some (d, regsW w)) [(b, 1)]
    (fun c l vs =>
      let j := shflLane mode seg l ((vs.headD 0).toNat % 2 ^ 32)
      { d := c.readReg s.fresh (regsW w) (if j.2 then j.1 else l) a }) s

/-- The operand of a lane selector. -/
def LaneSel.srcs : LaneSel → List (Opnd × Nat)
  | .reg o => [(o, 1)]
  | .imm _ => []

/-- The lane that a selector names (R254): modulo W. -/
def LaneSel.lane (b : LaneSel) (width : Nat) (vs : List DWord) : Nat :=
  (match b with | .reg _ => (vs.headD 0).toNat % 2 ^ 32 | .imm n => n) % width

/-- RDLANE (R254). -/
def execRdlane (hd : Hdr) (w : Bool) (d a : Opnd) (b : LaneSel) (s : State) : Out :=
  alu hd (some (d, regsW w)) (LaneSel.srcs b)
    (fun c _ vs => { d := c.readReg s.fresh (regsW w) (LaneSel.lane b c.width vs) a }) s

/-- WRLANE (R254, R169): a position that holds no live thread keeps nothing. -/
def execWrlane (hd : Hdr) (d a : Opnd) (b : LaneSel) (s : State) : Out :=
  withIssuer s fun c =>
    let act := c.act hd
    if act = 0 then .next (retire c s)
    else
      let l := (lanes act).headD 0
      let j := LaneSel.lane b c.width ((LaneSel.srcs b).map fun o => c.readReg s.fresh o.2 l o.1)
      .next (retire c (s.modGroup c.gid fun g =>
        if inMask g.live j then g.writeReg c.w64 s.fresh 1 j d (c.readReg s.fresh 1 l a) else g))

/-! ### Collective class (R166, R170) -/

/-- Put an instance among the open ones. -/
def Group.setColl (g : Group) (x : Coll) : Group := { g with colls := x :: g.colls.filter fun y => y.pc ≠ x.pc }

/-- The shape of a collective operation (R170): `v` gives what a lane brings, read at its arrival. -/
def collective (hd : Hdr) (ins : Instr) (m : Opnd) (v : Ctx → Nat → DWord × Bool) (s : State) : Out :=
  withIssuer s fun c =>
    let act := c.act hd
    let out := c.is.mask &&& ~~~ act
    let x : Coll := (c.g.colls.find? fun x => x.pc = c.is.pc).getD ⟨c.is.pc, c.is.len, ins, none, 0, [], 0⟩
    if act = 0 then .next (settle c.gid (retire c (s.modGroup c.gid fun g => g.setColl { x with passed := x.passed ||| out })))
    else
      let mine := c.readMask s.fresh ((lanes act).headD 0) m
      let wrong := match x.mask with
        | none => false
        | some k => k ≠ mine || act &&& ~~~ k ≠ 0
      if wrong then
        let s := s.modGroup c.gid fun g => g.setColl { x with passed := x.passed ||| out }
        .next (settle c.gid (illegalRun c act act s))
      else
        let y : Coll := { x with
          mask := some mine
          fpm := if x.mask.isNone then c.g.fpm else x.fpm
          passed := (x.passed &&& ~~~ act) ||| out
          arrived := (x.arrived.filter fun (a : Arrival) => !inMask act a.lane) ++
            (lanes act).map fun l => ⟨l, (v c l).1, (v c l).2⟩ }
        .next (settle c.gid (parkAt c act .coll (s.modGroup c.gid fun g => g.setColl y)))

/-- VOTE (R255). -/
def execVote (hd : Hdr) (mode : VoteMode) (d : VDst) (pa : Nat) (m : Opnd) (s : State) : Out :=
  collective hd (.vote hd mode d pa m) m (fun c l => (0, c.g.pred l pa)) s

/-- MATCH (R255). -/
def execMatchl (hd : Hdr) (all : Bool) (w : Bool) (d : VDst) (a m : Opnd) (s : State) : Out :=
  collective hd (.matchl hd all w d a m) m (fun c l => (c.readReg s.fresh (regsW w) l a, false)) s

/-- REDUX (R255). -/
def execRedux (hd : Hdr) (op : RedOp) (t : IT) (d a m : Opnd) (s : State) : Out :=
  collective hd (.redux hd op t d a m) m (fun c l => (c.readReg s.fresh (regsW t.wide) l a, false)) s

/-- FREDUX (R255, R152). -/
def execFredux (hd : Hdr) (op : FRedOp) (ft : FT) (rm : RM) (d a m : Opnd) (s : State) : Out :=
  collective hd (.fredux hd op ft rm d a m) m (fun c l => (c.readReg s.fresh (regsF ft) l a, false)) s

/-- SCAN (R255). -/
def execScan (hd : Hdr) (op : RedOp) (t : IT) (excl : Bool) (d a m : Opnd) (s : State) : Out :=
  collective hd (.scan hd op t excl d a m) m (fun c l => (c.readReg s.fresh (regsW t.wide) l a, false)) s

/-- FSCAN (R255, R152). -/
def execFscan (hd : Hdr) (op : FRedOp) (ft : FT) (rm : RM) (excl : Bool) (d a m : Opnd) (s : State) : Out :=
  collective hd (.fscan hd op ft rm excl d a m) m (fun c l => (c.readReg s.fresh (regsF ft) l a, false)) s

/-- ELECT (R255). -/
def execElect (hd : Hdr) (d : Opnd) (pd : Nat) (m : Opnd) (s : State) : Out :=
  collective hd (.elect hd d pd m) m (fun _ _ => (0, false)) s

/-- REGROUP (R171 to R173, R256): the group waits as MWAIT 0 and CPWAIT 0 do and reports what they would, then its lanes park. -/
def execRegroup (hd : Hdr) (blk : Bool) (pd : Nat) (s : State) : Out :=
  withIssuer s fun c =>
    let act := c.act hd
    if act = 0 then .next (retire c s)
    else
      afterWrites c act s fun s => if !s.retiredSettled c.gid blk then stall s else awaitMats c act 0 s fun s => awaitChains c act 0 s fun s => reportErr c act s fun s =>
        .next (settle c.gid (parkAt c act (.regroup blk pd) s))

end Sys2Proof.Machine
end

