-- ==== Sys2Proof/Machine/Link.lean ====
section
/-! DEFINITION. The host link, TDISP, the aperture, fabric ports, boot and power (16, R373 to R384), and the inputs of a replay (15, R371). -/

namespace Sys2Proof.Machine

/-! ### TDISP (R376) -/

/-- LOCK_INTERFACE: from CONFIG_UNLOCKED. -/
def execLockInterface (w : Nat) (s : State) : Out :=
  withWorld w s fun x =>
    if x.tdi = .unlocked then .next ((s.modWorld w fun y => { y with tdi := .locked }).answered true) else refused s

/-- GET_DEVICE_INTERFACE_REPORT: lists BAR0 and BAR2 with their sizes, once the interface is locked. -/
def execGetDeviceInterfaceReport (w : Nat) (s : State) : Out :=
  withWorld w s fun x =>
    if x.tdi = .unlocked then refused s
    else .next { s with reply := some (.data (toBytes 1 0 ++ toBytes 8 0x10000 ++ toBytes 1 2 ++ toBytes 8 0x1000000000)) }

/-- START_INTERFACE: from CONFIG_LOCKED to RUN. -/
def execStartInterface (w : Nat) (s : State) : Out :=
  withWorld w s fun x =>
    if x.tdi = .locked then .next ((s.modWorld w fun y => { y with tdi := .run, tdiLeft := false }).answered true) else refused s

/-- Accesses of the function that are in flight complete with Completer Abort: writes that have not reached their homes are dropped, as ABORT tells (R374, R376;
DESIGN CHOICE, LOG 137). -/
def State.abortHost (s : State) (w : Nat) : State :=
  let mine (p : Pend) : Bool := p.src = .host w && !p.begun
  let t := { s with pend := s.pend.filter fun p => !mine p }
  if s.pend.any mine then { t with reply := some .abort }.modWorld w fun x => x.setField rFNSTAT 0 1 1 else t

/-- The interface returns to CONFIG_UNLOCKED; if it was in RUN, TDIERR is set and host windows are closed until it runs again. -/
def State.unlockTdi (s : State) (w : Nat) : State :=
  (s.abortHost w).modWorld w fun x =>
    let y := { x with tdi := .unlocked }
    if x.tdi = .run then { y.setField rFNSTAT 2 1 1 with tdiLeft := true } else y

/-- STOP_INTERFACE. -/
def execStopInterface (w : Nat) (s : State) : Out := withWorld w s fun _ => .next ((s.unlockTdi w).answered true)

/-- IDE_INTEGRITY_FAILURE. -/
def execIdeIntegrityFailure (w : Nat) (s : State) : Out := withWorld w s fun _ => .next (s.unlockTdi w)

/-! ### The aperture (R374) -/

/-- Cut a host's write at its single-copy-atomic units: whole when aligned of 1, 2, 4 or 8 bytes, else byte by byte. -/
def hostUnits (pa : Nat) (bs : List Byte) : List (Nat × List Byte) :=
  let n := bs.length
  units ((n = 1 || n = 2 || n = 4 || n = 8) && pa % n = 0) bs true

/-- A host access has met a failure (Tables 16-2, 02-11). -/
def State.hostFault (s : State) (w : Nat) (f : Fail) : State :=
  s.modWorld w fun x => x.setField rFNSTAT (match f with | .down => 1 | _ => 0) 1 1

/-- A posted write of a host to a world's memory: it follows the writes that the host has posted before. -/
def State.hostWrite (s : State) (x : World) (va : Nat) (bs : List Byte) : State :=
  match s.checkGlobal .host none x.part x.w (40 + x.w) [] true false false va bs.length with
  | .error f => s.hostFault x.w f
  | .ok ps =>
    let before := s.ownWrites (.host x.w)
    let lid := s.serial
    (ps.foldl (fun (st : State × List Byte) p =>
      ((hostUnits p.pa (st.2.take p.len)).foldl (fun s u =>
        s.issue (.host x.w) lid 0 .other (p.va + u.1) (p.pa + u.1) (.bytes u.2) before false) st.1, st.2.drop p.len)) (s, bs)).1

/-- A host's read of a world's memory; it waits while a word of it has a write of a semaphore's kind in flight. -/
def hostRead (x : World) (va n : Nat) (s : State) : Out :=
  match s.checkGlobal .host none x.part x.w (40 + x.w) [] false true false va n with
  | .error f =>
    let s1 := if f = .unc then s.fenceAgent .host x.part x.w va n else s
    .next { s1.hostFault x.w f with reply := some .abort }
  | .ok ps =>
    let parts := ps.map fun p => s.readBytes (fun r => r = .host x.w) 1022 p.pa p.len
    if parts.any fun p => p.isNone then .next s
    else
      let s1 := ps.foldl (fun s (p : Piece) => s.scrub p.pa p.len) s
      .next { s1 with reply := some (.data (parts.flatMap fun p => p.getD [])) }

/-- APERTURE_ACCESS: of at most one page's bytes inside BAR2. While the partition is gated it meets BULKHEAD-DOWN (R383). -/
def execApertureAccess (w : Tlp Nat) (off : Nat) (op : ApOp) (s : State) : Out :=
  withWorld w.dst s fun x =>
    let n := match op with | .read n => n | .write bs => bs.length
    let va := x.fieldOf rAPBASE 36 16 * 2 ^ 36 + off
    let gated := match s.part? x.part with | some p => p.gated | none => true
    if 2 ^ 36 ≤ off || 4096 < off % 4096 + n then .next s
    else if s.turnsAway w.dst w.tee then .next s.unsupported
    else
      match op with
      | .read n => if gated then .next { s.hostFault w.dst .down with reply := some .abort } else hostRead x va n s
      | .write bs => if gated then .next (s.hostFault w.dst .down) else .next ((s.logInput x.part 1 va bs).hostWrite x va bs)

/-! ### Accesses sent to the host (R375) -/

/-- The failure of a chain's write or SIGNAL that the host or a peer has refused: OWNERSHIP stops the chain at the entry that made it (R310); a refused store of a
thread is not reported. -/
def State.refuseWrite (s : State) (p : Pend) : State :=
  match p.src with
  | .chain id => s.modChainAny id fun k => k.halt Cause.ownership p.va (chainInfo 0 (lgSize p.size) true 0 p.ent)
  | .dispatcher _ => s.failDebug p
  | _ => s

/-- A request is answered: the write that waits for it is in flight no longer; otherwise the answer waits for its reader. A flush acknowledges every
write posted before it. -/
def State.answerExt (s : State) (e : ExtReq) (r : ExtReply) : State :=
  let posted (x : ExtReq) : Bool := x.host && x.world = e.world && decide (x.id < e.id) && (match x.op with | .write _ => true | _ => false)
  let s1 := if e.op = .flush then { s with ext := s.ext.filter fun (x : ExtReq) => x.id ≠ e.id && !posted x } else s
  match s.pend.find? fun p => p.ext = some e.id with
  | some p =>
    let s2 := { s1 with pend := s1.pend.filter fun (q : Pend) => q.id ≠ p.id, ext := s1.ext.filter fun (x : ExtReq) => x.id ≠ e.id }
    match r with
    | .ok _ => s2
    | .ownership => if e.op = .flush then s2 else s2.refuseWrite p
    | .down => s2.failWrite p
  | none => { s1 with ext := s1.ext.map fun (x : ExtReq) => if x.id = e.id then { x with reply := some r } else x }

/-- A request that is out and waits for its answer: at the host one that is not posted, at a peer one that a flit carries. -/
def State.open? (s : State) (id : Nat) (host : Bool) : Option ExtReq :=
  s.ext.find? fun e => e.id = id && e.host == host && e.reply.isNone && (if host then (match e.op with | .write _ => false | _ => true) else e.flit.isSome)

/-- HOST_READ_COMPLETION: data, or OWNERSHIP on UR and CA. -/
def execHostReadCompletion (id : Nat) (st : HostStatus) (s : State) : Out :=
  match s.open? id true with
  | none => .next s
  | some e => .next (s.answerExt e (match st with | .ok bs => .ok bs | .ur => .ownership | .ca => .ownership))

/-- HOST_ACCESS_TIMEOUT: 50 ms after it was sent. -/
def execHostAccessTimeout (id : Nat) (s : State) : Out :=
  match s.open? id true with
  | none => .next s
  | some e => if s.now < e.sent + Config.hostTimeout then .next s else .next (s.answerExt e .ownership)

/-! ### Fabric ports (R353, R378 to R381) -/

/-- The nonce that this end sends at a link training, of 48 bytes (R379). -/
def State.nonce (s : State) : List Byte := (Config.linkNonce s.fresh ++ List.replicate 48 0).take 48

/-- Does the peer pass authentication (R379): its chain ends at the Urdety root, and its key has signed the nonce of this end? -/
def State.authentic (s : State) (chain sig : List Byte) : Bool := Config.chainRooted chain && Config.keyVerifies (Config.chainKey chain) sig s.nonce

/-- LINK_TRAINING (R379): a port that is down comes up under the agreed link key, or is held down when its peer fails authentication. The peer has sent its port and
package number, its identity chain, a nonce, and its signature; this end sends its own chain and number and signs the nonce. -/
def execLinkTraining (port peerPort peerPkg : Nat) (chain : List Byte) (proof : LinkProof) (s : State) : Out :=
  if !s.ready || !(s.ports.any fun q => q.n = port && q.st = 0) then .next s
  else
    let ok := s.authentic chain proof.sig
    .next { s with
      reply := some (.data (Config.certChain ++ toBytes 4 Config.packageNumber ++ Config.sign (proof.nonce.take 48)))
      ports := s.ports.map fun (q : Port) =>
        if q.n = port && q.st = 0 then
          { n := q.n, st := if ok then 1 else 2, peerPort := peerPort % 256, peer := peerPkg % 8192, digest := (sha384 (Config.chainKey chain)).take 32,
            key := if ok then Config.linkKey s.fresh chain else [], seq := 0, fails := 0, out := [], oseq := 0, ofails := 0, inbox := [] }
        else q }

/-- A port goes down (R381): what it has sent and not had completed fails, and requests that it has received and not applied are gone. -/
def State.dropPort (s : State) (port : Nat) : State :=
  let down (q : Port) : Port :=
    if q.n = port && q.st = 1 then { q with st := 0, key := [], seq := 0, fails := 0, out := [], oseq := 0, ofails := 0, inbox := [] } else q
  let up := s.ports.any fun q => q.n = port && q.st = 1
  if up then ({ s with ports := s.ports.map down } : State).failExt fun e => !e.host && e.port = port else s

/-- PORT_DOWN (R378, R381): the port has been without lock for 1 ms. -/
def execPortDown (port : Nat) (s : State) : Out := .next (s.dropPort port)

/-- The flits that an acknowledgement leaves in the sender's buffer: those after the one that it names (R378). -/
def ackTo (ack : Nat) (out : List (Nat × Nat)) : List (Nat × Nat) :=
  match out.findIdx? fun e => e.1 = ack with
  | none => out
  | some i => out.drop (i + 1)

/-- Change a port. -/
def State.modPort (s : State) (port : Nat) (f : Port → Port) : State := { s with ports := s.ports.map fun (x : Port) => if x.n = port then f x else x }

/-- A completion has come over a port: an input to the partition that made the request (R371), which it answers. -/
def State.fabricAnswer (s : State) (port id : Nat) (st : FabStatus) : State :=
  match s.open? id false with
  | none => s
  | some e =>
    if e.port = port then
      let bs := match st with | .ok bs => bs | _ => []
      let s1 := match s.world? e.world with | none => s | some x => s.logInput x.part 4 e.addr bs
      s1.answerExt e (match st with | .ok bs => .ok bs | .ownership => .ownership | .down => .down)
    else s

/-- FLIT_RECEIVE (R378): a flit with the expected sequence number and a good CRC is accepted; another is refused and replayed; the eighth failed replay
of a flit, received or sent, takes the port down. An acknowledgement makes room in the buffer for requests that wait; a completion answers its request; a request waits
for its FABRIC_REQUEST. -/
def execFlitReceive (port : Nat) (head : FlitHead) (crcOk : Bool) (body : FlitBody) (s : State) : Out :=
  match s.ports.find? fun q => q.n = port && q.st = 1 with
  | none => .next s
  | some q =>
    if head.seq ≠ q.seq then .next s
    else if !crcOk then .next (if 8 ≤ q.fails then s.dropPort port else s.modPort port fun x => { x with fails := x.fails + 1 })
    else
      let out := ackTo head.ack q.out
      let ofails := if out.length < q.out.length then 0 else q.ofails
      let t := s.modPort port fun x => { x with seq := (x.seq + 1) % 4096, fails := 0, out := out, ofails := ofails }
      let s1 := t.fillFlits t.ext
      .next (match body with
        | .other => s1
        | .refusal =>
          if out.isEmpty then s1
          else if 8 ≤ ofails then s1.dropPort port
          else s1.modPort port fun x => { x with ofails := x.ofails + 1 }
        | .request src dest part off op => s1.modPort port fun x => { x with inbox := x.inbox ++ [⟨src, dest, part, off, op⟩] }
        | .completion id st => s1.fabricAnswer port id st)

/-- What an inbound operation does at its home, with its operand bytes for the log; none for a read. -/
def fabWrite : FabOp → Option (WOp × List Byte)
  | .read _ => none
  | .write bs => some (.bytes bs, bs)
  | .atom op n b => some (.rmw op n b, toBytes n b.toNat)
  | .atomf op b => some (.rmwf op b, toBytes op.size.bytes b.toNat)
  | .xchg n b => some (.xchg n b, toBytes n b.toNat)
  | .cas n b new => some (.cas n b new, toBytes n b.toNat ++ toBytes n new.toNat)
  | .semsig op v => some (.sem op v, toBytes 8 v.toNat)

/-- An operation of a fabric source on a partition's memory (R380): checked, then performed at once when its lines are free, else it has not arrived
yet, and nothing is answered. A failing write is dropped and logged; anything else that fails is refused. No write is longer than 128 bytes (R378). -/
def fabricOp (port part va : Nat) (op : FabOp) (s : State) : Option State :=
  let src := 104 + port
  let answer (s : State) (r : FabStatus) : Option State := some { s with reply := some (.fabric r) }
  let plain := match op with | .write _ => true | _ => false
  let n := match op with | .read n => n | .write bs => bs.length | .atom _ n _ => n | .atomf o _ => o.size.bytes | .xchg n _ => n | .cas n _ _ => n | .semsig _ _ => 8
  let gated := match s.part? part with | some p => p.gated | none => false
  let dropped (s : State) : State := s.ember (((s.part? part).map fun p => p.bulks.headD 0).getD 0) 0x0C 0xFFFF 0xFF (BitVec.ofNat 64 src)
  if plain && 128 < n then some s
  else if gated then answer s .down
  else
    match s.checkGlobal .fabric none part 0 src [] (fabWrite op).isSome (!plain) (!plain && (fabWrite op).isSome) va n with
    | .error .down => answer s .down
    | .error f =>
      let s1 := if f = .unc then s.fenceAgent .fabric part 0 va n else s
      if plain then answer (dropped s1) (.ok []) else answer s1 .ownership
    | .ok ps =>
      let down := ps.any fun p => match homeBulk p.pa with | some b => s.isDown b | none => true
      if down then answer s .down
      else
        match fabWrite op with
        | none =>
          let s1 := ps.foldl (fun s (p : Piece) => s.scrub p.pa p.len) (s.logInput part 4 va [])
          answer s1 (.ok (ps.flatMap fun p => Memory.read s.mem p.pa p.len))
        | some (w, bytes) =>
          if !(ps.all fun p => (linesOf p.pa p.len).all s.lineFree) then none
          else
            let old := ps.flatMap fun p => Memory.read s.mem p.pa p.len
            let s1 := s.logInput part 4 va bytes
            let put (s : State) (p : Piece) (o : WOp) : State :=
              { s.perform ⟨s.serial, .fabric port, s.serial, 0, .other, BitVec.ofNat 64 p.va, p.pa, o, [], false, none, none, [], 0, s.serial, true⟩ with serial := s.serial + 1 }
            match w with
            | .bytes bs =>
              answer ((ps.foldl (fun (st : State × List Byte) p => (put st.1 p (.bytes (st.2.take p.len)), st.2.drop p.len)) (s1, bs)).1) (.ok [])
            | w =>
              match ps with
              | p :: _ => answer (put s1 p w) (.ok old)
              | [] => some s1

/-- FABRIC_REQUEST (R380): a request that a flit has brought is applied, exactly once (R378), when it is for this package; the package forwards none (R379). -/
def execFabricRequest (port src dest part off : Nat) (op : FabOp) (s : State) : Out :=
  let r : FabReq := ⟨src, dest, part, off, op⟩
  match s.ports.find? fun q => q.n = port && q.st = 1 with
  | none => .next s
  | some q =>
    if !q.inbox.contains r then .next s
    else
      let s1 := s.modPort port fun x => { x with inbox := x.inbox.erase r }
      if dest ≠ Config.packageNumber || 2 ^ 36 ≤ off then .next s1 else .next ((fabricOp port part off op s1).getD s)

/-! ### Boot (R382) -/

/-- BOOTSTAT after a stage, with an error (Table 16-5). -/
def bootStat (stage error : Nat) : DWord := BitVec.ofNat 64 (stage + error * 16 + (if stage = 5 then 256 else 0))

/-- COLD_BOOT: `error` is what hinders this boot: 1 a signature, 2 a security version, 3 the HBM, 4 the translator image, 0 nothing. A staged image
becomes the firmware, if it is signed and not older than the fused counter. The partitions of the stored configuration are formed again. -/
def execColdBoot (error : Nat) (s : State) : Out :=
  let base : State := { State.reset with firmware := s.firmware, staged := s.staged, fused := s.fused, stored := s.stored, agenda := s.agenda, fresh := s.fresh }
  let err :=
    if error = 1 then 1
    else match s.staged with
      | some (_, false) => 1
      | some (v, true) => if error = 2 || v < s.fused then 2 else error
      | none => if error = 2 || s.firmware < s.fused then 2 else error
  if 4 < error then .next s
  else if err = 0 then
    let s1 := { base with firmware := (match s.staged with | some (v, _) => v | none => s.firmware), staged := none, boot := bootStat 5 0 }
    .next (s.stored.foldl (fun s e => s.form e.1 e.2) s1).syncAccess
  else .next { base with boot := bootStat (match err with | 3 => 1 | 4 => 2 | _ => 0) err }

/-- FIRMWARE_COMMAND (R377, R382): an image is staged for the next boot, or the fused counter advances. -/
def execFirmwareCommand (fn : Fn) (c : FwCmd) (s : State) : Out :=
  byPackage fn s <|
    match c with
    | .stage v signed => .next { s.answered true with staged := some (v, signed) }
    | .advance v => if s.fused < v then .next { s.answered true with fused := v } else refused s

/-! ### Power (R384) -/

/-- THERMAL_LIMIT: above 100 degrees the limit is lowered; at 110 the bulkhead fences with reason 3. -/
def execThermalLimit (b temp : Nat) (s : State) : Out :=
  let s1 := if 100 < temp then s.modBulk b fun x => { x with lowered := true } else s
  .next (if 110 ≤ temp then s1.fence b 3 false else s1)

/-- JUNCTION_TEMPERATURE_RECOVERY: at 100 degrees or below the limit is raised again. -/
def execJunctionTemperatureRecovery (b : Nat) (s : State) : Out := .next (s.modBulk b fun x => { x with lowered := false })

/-! ### Inputs of a replay (R371) -/

/-- REPLAY_INPUT: an outside input of a partition in replay mode acts as its like does, and is logged. -/
def execReplayInput (part : Nat) (x : ReplayIn) (s : State) : Out :=
  match s.part? part, s.worlds.find? fun y => y.part = part && !y.torn with
  | some p, some y =>
    if p.replayOn.isNone then .next s
    else
      match x with
      | .hostWrite va bs => .next ((s.logInput part 1 va bs).hostWrite y va bs)
      | .control off v =>
        let w := if off < 0x100 || (0x800 ≤ off && off < 0x820) then p.owner else y.w
        .next ((s.admitCtl w off v).writeReg w off v)
      | .tail lvl v => .next ((s.admitCtl y.w (rQTAIL lvl) v).queueTail y.w lvl v.toNat)
      | .fabric va bs => .next ((fabricOp 0 part va (.write bs) s).getD s)
  | _, _ => .next s

end Sys2Proof.Machine
end

