-- ==== Sys2Proof/Machine/Matrix.lean ====
section
/-! DEFINITION. Matrix instructions (10, R279 to R291). -/

namespace Sys2Proof.Machine

/-- A scratch operand as read at issue: its offset and pitch (R283). -/
def Ctx.scratchOperand (c : Ctx) (n : Nat) : Nat × Nat := ((SMap.get c.g.s n).toNat, (SMap.get c.g.s (n + 1)).toNat)

/-- The failure of one scratch operand: its image rows at offset `o` and pitch `p`, each of `len` bytes (R283). -/
def imageFail (scratch o p : Nat) (lens : List Nat) : Option Fail :=
  if o % 4 ≠ 0 || p % 4 ≠ 0 then some .align
  else if ((List.range lens.length).zip lens).any fun e => decide (scratch < o + e.1 * p + e.2) then some .bounds
  else none

/-- The failure to report, and whether operand B has it (R283): the cause of higher precedence, operand A on a tie. -/
def worseOf (a b : Option Fail) : Option (Fail × Bool) :=
  match a, b with
  | none, none => none
  | some x, none => some (x, false)
  | none, some y => some (y, true)
  | some x, some y => if y.rank < x.rank then some (y, true) else some (x, false)

/-- Does a new instruction read, as an operand, a register that an outstanding one writes as its D (R98)? -/
def Group.readsPending (g : Group) (ins : Instr) (w64 : Bool) : Bool :=
  g.mats.any fun m => ((matRanges w64 ins).drop 1).any fun e => decide (0 < e.2) && meets e.1 e.2 (matDst m.ins).1 (matDst m.ins).2

/-- Issue of a matrix instruction (R281, R283, R284): the checks, the stall at eight outstanding, the values it captures. LSIZE and WR of %tinfo are 0 (DESIGN
CHOICE, LOG 128). -/
def matIssue (ins : Instr) (ts : Option (Nat × Nat)) (s : State) : Out :=
  withIssuer s fun c =>
    let all := c.is.mask
    if c.g.live &&& ~~~ all ≠ 0 then .next (illegalRun c all all s)
    else
      let o := matOp ins
      let xa := match o with | some o => if o.areg then (0, 0) else c.scratchOperand o.a | none => (0, 0)
      let xb := match o with | some o => if o.breg then (0, 0) else c.scratchOperand o.b | none => (0, 0)
      let fa := match o with
        | some o => if o.areg then none else imageFail c.b.scratch xa.1 xa.2 (List.replicate c.width o.aImage)
        | none => none
      let fb := match o with
        | some o => if o.breg then none else imageFail c.b.scratch xb.1 xb.2 ((List.range o.bRows).map o.bRow)
        | none => none
      match worseOf fa fb with
      | some (f, isB) =>
        .next (takeTrap c f.cause all all (BitVec.ofNat 64 (b2n isB + 2 * 2 ^ 60))
          (fun _ => BitVec.ofNat 64 (if isB then xb.1 else xa.1)) s)
      | none =>
        if 8 ≤ (c.g.mats.filter fun m => !m.done).length then stall s
        else
          let sc (f : Nat × Nat → Nat) : Word := match ts with | some p => SMap.get c.g.sc (f p) | none => 0
          let m : Mat :=
            { ins := ins, pc := c.is.pc, sa := sc Prod.fst, sb := sc Prod.snd, offA := xa.1, pA := xa.2, offB := xb.1, pB := xb.2,
              at_ := s.serial, done := false, corrupt := c.g.readsPending ins c.w64, bad := 0, olds := [],
              inst := c.is.inst, dirty := c.g.mats.map fun m => matDst m.ins }
          .next (retire c ({ s with serial := s.serial + 1 }.modGroup c.gid fun g => { g with mats := g.mats ++ [m] }))

/-- MMA (R279 to R284). -/
def execMma (hd : Hdr) (ty : MT) (n64 acc mx : Bool) (ts : Option (Nat × Nat)) (d a b : Nat) (s : State) : Out :=
  matIssue (.mma hd ty n64 acc mx ts d a b) ts s

/-- MMAS (R279 to R284). -/
def execMmas (hd : Hdr) (ty : MT) (n64 acc mx : Bool) (ts : Option (Nat × Nat)) (acol bcol areg breg : Bool) (d a b : Nat) (s : State) : Out :=
  matIssue (.mmas hd ty n64 acc mx ts acol bcol areg breg d a b) ts s

/-- MMASP (R279 to R287). -/
def execMmasp (hd : Hdr) (ty : MT) (n64 acc mx : Bool) (ts : Option (Nat × Nat)) (acol bcol areg breg k4 : Bool) (d a b : Nat)
    (s : State) : Out :=
  matIssue (.mmasp hd ty n64 acc mx ts acol bcol areg breg k4 d a b) ts s

/-- MZERO (R288). -/
def execMzero (hd : Hdr) (n64 : Bool) (d : Nat) (s : State) : Out := matIssue (.mzero hd n64 d) none s

/-- MWAIT (R289, R287). -/
def execMwait (hd : Hdr) (n : Nat) (s : State) : Out :=
  withIssuer s fun c =>
    let act := c.act hd
    if act = 0 then .next (retire c s) else awaitMats c act n s fun s => .next (retire c s)

/-- MFENCE (R290, R99): every write that has performed is seen by the fetches of the instructions issued from now on. -/
def execMfence (hd : Hdr) (s : State) : Out :=
  withIssuer s fun c =>
    let s1 := if c.act hd = 0 then s else s.modGroup c.gid fun g =>
      { g with
        mats := g.mats.map fun m => if m.done then m else { m with olds := m.olds ++ g.olds }
        olds := [] }
    .next (retire c s1)

/-- MATRIX_COMPLETION (R284): the oldest instruction of the group that has not completed does, once its fetch may begin (R99), on a core that no limiter
holds (R369). -/
def execMatrixCompletion (gid : Gid) (s : State) : Out :=
  match s.group? gid, s.block? gid.lid gid.blk, s.launch? gid.lid with
  | some g, some b, some l => .next (if s.fetchReady g b l.w64 && !s.frozen.contains b.core then s.completeMat g b l.w64 else s)
  | _, _, _ => .next s

end Sys2Proof.Machine
end

