-- ==== Sys2Proof/Machine/Dispatch.lean ====
section
/-! DEFINITION. One arm for every instruction: the call of its meaning. -/

namespace Sys2Proof.Machine

/-- What an instruction, entry, command or event does. -/
def exec (i : Instr) (s : State) : Host.Outcome State Fault Refusal :=
  match i with
  | .nop hd => Sys2Proof.Machine.execNop hd s
  | .bra hd u disp => Sys2Proof.Machine.execBra hd u disp s
  | .brx hd u a => Sys2Proof.Machine.execBrx hd u a s
  | .call hd disp => Sys2Proof.Machine.execCall hd disp s
  | .callx hd a => Sys2Proof.Machine.execCallx hd a s
  | .ret hd => Sys2Proof.Machine.execRet hd s
  | .loop hd d disp => Sys2Proof.Machine.execLoop hd d disp s
  | .exit hd => Sys2Proof.Machine.execExit hd s
  | .waitr hd pd a t => Sys2Proof.Machine.execWaitr hd pd a t s
  | .waitrTimeout g pc => Sys2Proof.Machine.execWaitrTimeout g pc s
  | .sync hd a => Sys2Proof.Machine.execSync hd a s
  | .yield hd => Sys2Proof.Machine.execYield hd s
  | .pause hd n => Sys2Proof.Machine.execPause hd n s
  | .pauseEnd g => Sys2Proof.Machine.execPauseEnd g s
  | .brk hd code => Sys2Proof.Machine.execBrk hd code s
  | .trap hd code => Sys2Proof.Machine.execTrap hd code s
  | .tret hd next => Sys2Proof.Machine.execTret hd next s
  | .emul hd op body pre => Sys2Proof.Machine.execEmul hd op body pre s
  | .iadd hd t sat d a b => Sys2Proof.Machine.execIadd hd t sat d a b s
  | .isub hd t sat d a b => Sys2Proof.Machine.execIsub hd t sat d a b s
  | .iaddc hd t ci pc d a b => Sys2Proof.Machine.execIaddc hd t ci pc d a b s
  | .ineg hd t sat d a => Sys2Proof.Machine.execIneg hd t sat d a s
  | .iabs hd t sat d a => Sys2Proof.Machine.execIabs hd t sat d a s
  | .imin hd t d a b => Sys2Proof.Machine.execImin hd t d a b s
  | .imax hd t d a b => Sys2Proof.Machine.execImax hd t d a b s
  | .imul hd t d a b => Sys2Proof.Machine.execImul hd t d a b s
  | .imulh hd t d a b => Sys2Proof.Machine.execImulh hd t d a b s
  | .imad hd t d a b c => Sys2Proof.Machine.execImad hd t d a b c s
  | .imadw hd t d a b c => Sys2Proof.Machine.execImadw hd t d a b c s
  | .idiv hd t d a b => Sys2Proof.Machine.execIdiv hd t d a b s
  | .irem hd t d a b => Sys2Proof.Machine.execIrem hd t d a b s
  | .isad hd t d a b c => Sys2Proof.Machine.execIsad hd t d a b c s
  | .iscadd hd t d a b k => Sys2Proof.Machine.execIscadd hd t d a b k s
  | .idp4 hd sa bs d a b c => Sys2Proof.Machine.execIdp4 hd sa bs d a b c s
  | .iaddi hd t sat d a imm => Sys2Proof.Machine.execIaddi hd t sat d a imm s
  | .imuli hd t d a imm => Sys2Proof.Machine.execImuli hd t d a imm s
  | .and hd w d a b => Sys2Proof.Machine.execAnd hd w d a b s
  | .or hd w d a b => Sys2Proof.Machine.execOr hd w d a b s
  | .xor hd w d a b => Sys2Proof.Machine.execXor hd w d a b s
  | .andn hd w d a b => Sys2Proof.Machine.execAndn hd w d a b s
  | .orn hd w d a b => Sys2Proof.Machine.execOrn hd w d a b s
  | .not hd w d a => Sys2Proof.Machine.execNot hd w d a s
  | .shl hd w d a b => Sys2Proof.Machine.execShl hd w d a b s
  | .shr hd w d a b => Sys2Proof.Machine.execShr hd w d a b s
  | .sar hd w d a b => Sys2Proof.Machine.execSar hd w d a b s
  | .rot hd w d a b => Sys2Proof.Machine.execRot hd w d a b s
  | .fshl hd w d a b c => Sys2Proof.Machine.execFshl hd w d a b c s
  | .bfx hd t d a pos len => Sys2Proof.Machine.execBfx hd t d a pos len s
  | .bfi hd w d a b c => Sys2Proof.Machine.execBfi hd w d a b c s
  | .popc hd w d a => Sys2Proof.Machine.execPopc hd w d a s
  | .clz hd w d a => Sys2Proof.Machine.execClz hd w d a s
  | .ctz hd w d a => Sys2Proof.Machine.execCtz hd w d a s
  | .brev hd w d a => Sys2Proof.Machine.execBrev hd w d a s
  | .prmt hd d a b c => Sys2Proof.Machine.execPrmt hd d a b c s
  | .icmp hd cmp t pd a b => Sys2Proof.Machine.execIcmp hd cmp t pd a b s
  | .plut hd pd pa pb lut => Sys2Proof.Machine.execPlut hd pd pa pb lut s
  | .pick hd w d a b pc => Sys2Proof.Machine.execPick hd w d a b pc s
  | .lopi hd op w d a imm => Sys2Proof.Machine.execLopi hd op w d a imm s
  | .mov hd w d a => Sys2Proof.Machine.execMov hd w d a s
  | .movi hd w d imm => Sys2Proof.Machine.execMovi hd w d imm s
  | .movs hd d r => Sys2Proof.Machine.execMovs hd d r s
  | .movp hd f => Sys2Proof.Machine.execMovp hd f s
  | .rdreg hd cl d a => Sys2Proof.Machine.execRdreg hd cl d a s
  | .wrreg hd cl a b => Sys2Proof.Machine.execWrreg hd cl a b s
  | .cvtf hd dt st sat de8 se8 rm d a => Sys2Proof.Machine.execCvtf hd dt st sat de8 se8 rm d a s
  | .cvtfi hd t st rm d a => Sys2Proof.Machine.execCvtfi hd t st rm d a s
  | .cvtif hd dt t rm d a => Sys2Proof.Machine.execCvtif hd dt t rm d a s
  | .pack hd ew k d a b c => Sys2Proof.Machine.execPack hd ew k d a b c s
  | .unpack hd ew sx j d a => Sys2Proof.Machine.execUnpack hd ew sx j d a s
  | .rdmode hd fpst d => Sys2Proof.Machine.execRdmode hd fpst d s
  | .wrmode hd fpst a => Sys2Proof.Machine.execWrmode hd fpst a s
  | .rdsc hd d sc => Sys2Proof.Machine.execRdsc hd d sc s
  | .wrsc hd sc a => Sys2Proof.Machine.execWrsc hd sc a s
  | .addrg hd d imm => Sys2Proof.Machine.execAddrg hd d imm s
  | .fadd hd ft rm d a b => Sys2Proof.Machine.execFadd hd ft rm d a b s
  | .fsub hd ft rm d a b => Sys2Proof.Machine.execFsub hd ft rm d a b s
  | .fmul hd ft rm d a b => Sys2Proof.Machine.execFmul hd ft rm d a b s
  | .ffma hd ft rm d a b c => Sys2Proof.Machine.execFfma hd ft rm d a b c s
  | .fmin hd ft d a b => Sys2Proof.Machine.execFmin hd ft d a b s
  | .fmax hd ft d a b => Sys2Proof.Machine.execFmax hd ft d a b s
  | .fminm hd ft d a b => Sys2Proof.Machine.execFminm hd ft d a b s
  | .fmaxm hd ft d a b => Sys2Proof.Machine.execFmaxm hd ft d a b s
  | .fabs hd ft d a => Sys2Proof.Machine.execFabs hd ft d a s
  | .fneg hd ft d a => Sys2Proof.Machine.execFneg hd ft d a s
  | .fcpys hd ft d a b => Sys2Proof.Machine.execFcpys hd ft d a b s
  | .fcmp hd cmp ft pd a b => Sys2Proof.Machine.execFcmp hd cmp ft pd a b s
  | .fclass hd ft d a => Sys2Proof.Machine.execFclass hd ft d a s
  | .frint hd ft rm exact d a => Sys2Proof.Machine.execFrint hd ft rm exact d a s
  | .fdiv hd ft rm d a b => Sys2Proof.Machine.execFdiv hd ft rm d a b s
  | .fsqrt hd ft rm d a => Sys2Proof.Machine.execFsqrt hd ft rm d a s
  | .frcp hd rm d a => Sys2Proof.Machine.execFrcp hd rm d a s
  | .frsq hd rm d a => Sys2Proof.Machine.execFrsq hd rm d a s
  | .fscale hd ft rm d a b => Sys2Proof.Machine.execFscale hd ft rm d a b s
  | .fdot2 hd ft rm d a b c => Sys2Proof.Machine.execFdot2 hd ft rm d a b c s
  | .fex2 hd rm d a => Sys2Proof.Machine.execFex2 hd rm d a s
  | .flg2 hd rm d a => Sys2Proof.Machine.execFlg2 hd rm d a s
  | .fsinp hd rm d a => Sys2Proof.Machine.execFsinp hd rm d a s
  | .fcosp hd rm d a => Sys2Proof.Machine.execFcosp hd rm d a s
  | .ftanh hd rm d a => Sys2Proof.Machine.execFtanh hd rm d a s
  | .fsigm hd rm d a => Sys2Proof.Machine.execFsigm hd rm d a s
  | .hmov hd ft rm sat d a => Sys2Proof.Machine.execHmov hd ft rm sat d a s
  | .shfl hd mode w d a b seg => Sys2Proof.Machine.execShfl hd mode w d a b seg s
  | .rdlane hd w d a b => Sys2Proof.Machine.execRdlane hd w d a b s
  | .wrlane hd d a b => Sys2Proof.Machine.execWrlane hd d a b s
  | .vote hd mode d pa m => Sys2Proof.Machine.execVote hd mode d pa m s
  | .matchl hd all w d a m => Sys2Proof.Machine.execMatchl hd all w d a m s
  | .redux hd op t d a m => Sys2Proof.Machine.execRedux hd op t d a m s
  | .fredux hd op ft rm d a m => Sys2Proof.Machine.execFredux hd op ft rm d a m s
  | .scan hd op t excl d a m => Sys2Proof.Machine.execScan hd op t excl d a m s
  | .fscan hd op ft rm excl d a m => Sys2Proof.Machine.execFscan hd op ft rm excl d a m s
  | .elect hd d pd m => Sys2Proof.Machine.execElect hd d pd m s
  | .regroup hd blk pd => Sys2Proof.Machine.execRegroup hd blk pd s
  | .ld hd acc off d a => Sys2Proof.Machine.execLd hd acc off d a s
  | .st hd acc off d a => Sys2Proof.Machine.execSt hd acc off d a s
  | .lds hd acc stride d a => Sys2Proof.Machine.execLds hd acc stride d a s
  | .sts hd acc stride d a => Sys2Proof.Machine.execSts hd acc stride d a s
  | .ldt hd col pitch d a => Sys2Proof.Machine.execLdt hd col pitch d a s
  | .stt hd col pitch d a => Sys2Proof.Machine.execStt hd col pitch d a s
  | .put hd acc off d a => Sys2Proof.Machine.execPut hd acc off d a s
  | .pref hd col off a => Sys2Proof.Machine.execPref hd col off a s
  | .lease hd col off d a => Sys2Proof.Machine.execLease hd col off d a s
  | .szero hd col off d a => Sys2Proof.Machine.execSzero hd col off d a s
  | .atom hd acc op d a b => Sys2Proof.Machine.execAtom hd acc op d a b s
  | .atomf hd acc op d a b => Sys2Proof.Machine.execAtomf hd acc op d a b s
  | .xchg hd acc d a b => Sys2Proof.Machine.execXchg hd acc d a b s
  | .cas hd acc d a b => Sys2Proof.Machine.execCas hd acc d a b s
  | .red hd acc op a b => Sys2Proof.Machine.execRed hd acc op a b s
  | .redf hd acc op a b => Sys2Proof.Machine.execRedf hd acc op a b s
  | .backoff hd d base cap => Sys2Proof.Machine.execBackoff hd d base cap s
  | .fence hd async ord scope => Sys2Proof.Machine.execFence hd async ord scope s
  | .bar hd id count => Sys2Proof.Machine.execBar hd id count s
  | .bararr hd id count => Sys2Proof.Machine.execBararr hd id count s
  | .sstep hd => Sys2Proof.Machine.execSstep hd s
  | .sstarr hd => Sys2Proof.Machine.execSstarr hd s
  | .sstwait hd => Sys2Proof.Machine.execSstwait hd s
  | .qstat hd d q => Sys2Proof.Machine.execQstat hd d q s
  | .queueStallRelease g => Sys2Proof.Machine.execQueueStallRelease g s
  | .semsig hd op scr ord scope off d a => Sys2Proof.Machine.execSemsig hd op scr ord scope off d a s
  | .semwait hd cmp scr ord scope off d a => Sys2Proof.Machine.execSemwait hd cmp scr ord scope off d a s
  | .semwaitRelease pa => Sys2Proof.Machine.execSemwaitRelease pa s
  | .semwaitPoll g lane => Sys2Proof.Machine.execSemwaitPoll g lane s
  | .mma hd ty n64 acc mx ts d a b => Sys2Proof.Machine.execMma hd ty n64 acc mx ts d a b s
  | .mmas hd ty n64 acc mx ts acol bcol areg breg d a b => Sys2Proof.Machine.execMmas hd ty n64 acc mx ts acol bcol areg breg d a b s
  | .mmasp hd ty n64 acc mx ts acol bcol areg breg k4 d a b => Sys2Proof.Machine.execMmasp hd ty n64 acc mx ts acol bcol areg breg k4 d a b s
  | .mzero hd n64 d => Sys2Proof.Machine.execMzero hd n64 d s
  | .mwait hd n => Sys2Proof.Machine.execMwait hd n s
  | .mfence hd => Sys2Proof.Machine.execMfence hd s
  | .matrixCompletion g => Sys2Proof.Machine.execMatrixCompletion g s
  | .cpchain hd a => Sys2Proof.Machine.execCpchain hd a s
  | .cpwait hd n => Sys2Proof.Machine.execCpwait hd n s
  | .cptest hd d pd => Sys2Proof.Machine.execCptest hd d pd s
  | .launch hd d a => Sys2Proof.Machine.execLaunch hd d a s
  | .gettime hd ord d => Sys2Proof.Machine.execGettime hd ord d s
  | .perfrd hd d k => Sys2Proof.Machine.execPerfrd hd d k s
  | .trace hd a code => Sys2Proof.Machine.execTrace hd a code s
  | .chainCopy1d h len src dst => Sys2Proof.Machine.execChainCopy1d h len src dst s
  | .chainCopy2d h rows rowBytes sstride dstride src dst => Sys2Proof.Machine.execChainCopy2d h rows rowBytes sstride dstride src dst s
  | .chainGather h count rowBytes idxOff tstride src dst => Sys2Proof.Machine.execChainGather h count rowBytes idxOff tstride src dst s
  | .chainScatter h count rowBytes idxOff tstride src dst => Sys2Proof.Machine.execChainScatter h count rowBytes idxOff tstride src dst s
  | .chainFill h count value dst => Sys2Proof.Machine.execChainFill h count value dst s
  | .chainLoop count back => Sys2Proof.Machine.execChainLoop count back s
  | .ifsem h op skip value addr => Sys2Proof.Machine.execIfsem h op skip value addr s
  | .chainSignal scr wick addend addr => Sys2Proof.Machine.execChainSignal scr wick addend addr s
  | .chainEnd => Sys2Proof.Machine.execChainEnd s
  | .chainCompletion id => Sys2Proof.Machine.execChainCompletion id s
  | .storeArrival id delay => Sys2Proof.Machine.execStoreArrival id delay s
  | .writeCompletion id => Sys2Proof.Machine.execWriteCompletion id s
  | .fill core line dur own => Sys2Proof.Machine.execFill core line dur own s
  | .leaseExpiry core line => Sys2Proof.Machine.execLeaseExpiry core line s
  | .ownershipRecall core line => Sys2Proof.Machine.execOwnershipRecall core line s
  | .beaconDrainComplete part dom => Sys2Proof.Machine.execBeaconDrainComplete part dom s
  | .cmdLaunch r => Sys2Proof.Machine.execCmdLaunch r s
  | .cmdWait op addr value => Sys2Proof.Machine.execCmdWait op addr value s
  | .cmdSignal op addr value => Sys2Proof.Machine.execCmdSignal op addr value s
  | .replace kidx e => Sys2Proof.Machine.execReplace kidx e s
  | .cmdFence => Sys2Proof.Machine.execCmdFence s
  | .cmdBarrier mask => Sys2Proof.Machine.execCmdBarrier mask s
  | .deviceQueueEntry part => Sys2Proof.Machine.execDeviceQueueEntry part s
  | .blockPlacement part => Sys2Proof.Machine.execBlockPlacement part s
  | .blockClearComplete lid blk => Sys2Proof.Machine.execBlockClearComplete lid blk s
  | .launchCompletion lid => Sys2Proof.Machine.execLaunchCompletion lid s
  | .launchAbort lid cause => Sys2Proof.Machine.execLaunchAbort lid cause s
  | .watchdogExpiry lid => Sys2Proof.Machine.execWatchdogExpiry lid s
  | .dumpWrite lid => Sys2Proof.Machine.execDumpWrite lid s
  | .translation w kidx w64 resid safe => Sys2Proof.Machine.execTranslation w kidx w64 resid safe s
  | .galleyReoptimise id resid => Sys2Proof.Machine.execGalleyReoptimise id resid s
  | .translationIntegrity g => Sys2Proof.Machine.execTranslationIntegrity g s
  | .actRollback g => Sys2Proof.Machine.execActRollback g s
  | .preemptGo w => Sys2Proof.Machine.execPreemptGo w s
  | .preemptResume w => Sys2Proof.Machine.execPreemptResume w s
  | .contextSave w => Sys2Proof.Machine.execContextSave w s
  | .contextRestore w => Sys2Proof.Machine.execContextRestore w s
  | .frameEdge part => Sys2Proof.Machine.execFrameEdge part s
  | .edgeGapEnd part => Sys2Proof.Machine.execEdgeGapEnd part s
  | .qtailWrite w lvl value => Sys2Proof.Machine.execQtailWrite w lvl value s
  | .qctlResume w lvl => Sys2Proof.Machine.execQctlResume w lvl s
  | .qctlSkip w lvl => Sys2Proof.Machine.execQctlSkip w lvl s
  | .qctlClr w lvl => Sys2Proof.Machine.execQctlClr w lvl s
  | .dqerrClear w => Sys2Proof.Machine.execDqerrClear w s
  | .tlbinvGo w => Sys2Proof.Machine.execTlbinvGo w s
  | .tlbinvComplete part => Sys2Proof.Machine.execTlbinvComplete part s
  | .pageFaultRecord w => Sys2Proof.Machine.execPageFaultRecord w s
  | .fqans w id all cancel => Sys2Proof.Machine.execFqans w id all cancel s
  | .fqctlEnClear w => Sys2Proof.Machine.execFqctlEnClear w s
  | .fqctlClr w => Sys2Proof.Machine.execFqctlClr w s
  | .trqGo w kidx w64 resid safe => Sys2Proof.Machine.execTrqGo w kidx w64 resid safe s
  | .trqExport w kidx w64 resid safe => Sys2Proof.Machine.execTrqExport w kidx w64 resid safe s
  | .dbgctlAccept w => Sys2Proof.Machine.execDbgctlAccept w s
  | .dbgctlRevoke w => Sys2Proof.Machine.execDbgctlRevoke w s
  | .dbghaltGo w => Sys2Proof.Machine.execDbghaltGo w s
  | .dbghaltResume w => Sys2Proof.Machine.execDbghaltResume w s
  | .dbghaltStep w => Sys2Proof.Machine.execDbghaltStep w s
  | .dbgselGo w => Sys2Proof.Machine.execDbgselGo w s
  | .breakpoint g n => Sys2Proof.Machine.execBreakpoint g n s
  | .watchpoint g n addr => Sys2Proof.Machine.execWatchpoint g n addr s
  | .stopRecord w => Sys2Proof.Machine.execStopRecord w s
  | .profcGo w count => Sys2Proof.Machine.execProfcGo w count s
  | .profcClear w => Sys2Proof.Machine.execProfcClear w s
  | .replayInput part x => Sys2Proof.Machine.execReplayInput part x s
  | .registerWrite fn off value => Sys2Proof.Machine.execRegisterWrite fn off value s
  | .currentLimiterFreeze b issued => Sys2Proof.Machine.execCurrentLimiterFreeze b issued s
  | .bulkheadFencing b reason => Sys2Proof.Machine.execBulkheadFencing b reason s
  | .hangDetection b => Sys2Proof.Machine.execHangDetection b s
  | .bulkheadFenced b => Sys2Proof.Machine.execBulkheadFenced b s
  | .bulkheadResetComplete b => Sys2Proof.Machine.execBulkheadResetComplete b s
  | .partitionForm fn bulks owner => Sys2Proof.Machine.execPartitionForm fn bulks owner s
  | .partitionDissolve fn part => Sys2Proof.Machine.execPartitionDissolve fn part s
  | .gate fn part => Sys2Proof.Machine.execGate fn part s
  | .ungate fn part => Sys2Proof.Machine.execUngate fn part s
  | .fabricRoute fn part peer entry => Sys2Proof.Machine.execFabricRoute fn part peer entry s
  | .worldCreate fn w frame conf areas => Sys2Proof.Machine.execWorldCreate fn w frame conf areas s
  | .worldTeardown fn w => Sys2Proof.Machine.execWorldTeardown fn w s
  | .frameSet fn slots => Sys2Proof.Machine.execFrameSet fn slots s
  | .debugOffer fn w => Sys2Proof.Machine.execDebugOffer fn w s
  | .debugOfferLapse w => Sys2Proof.Machine.execDebugOfferLapse w s
  | .debugRevoke fn w => Sys2Proof.Machine.execDebugRevoke fn w s
  | .replayEnable fn => Sys2Proof.Machine.execReplayEnable fn s
  | .resetMode fn held => Sys2Proof.Machine.execResetMode fn held s
  | .bulkheadReset fn b => Sys2Proof.Machine.execBulkheadReset fn b s
  | .pageAssign fn page count w allw sealed_ => Sys2Proof.Machine.execPageAssign fn page count w allw sealed_ s
  | .ownershipChange page => Sys2Proof.Machine.execOwnershipChange page s
  | .emberRead fn b seq => Sys2Proof.Machine.execEmberRead fn b seq s
  | .windowOffer fn importer page count two => Sys2Proof.Machine.execWindowOffer fn importer page count two s
  | .windowAccept fn offer => Sys2Proof.Machine.execWindowAccept fn offer s
  | .windowOfferLapse offer => Sys2Proof.Machine.execWindowOfferLapse offer s
  | .windowClose fn slot => Sys2Proof.Machine.execWindowClose fn slot s
  | .windowCloseComplete part slot => Sys2Proof.Machine.execWindowCloseComplete part slot s
  | .getVersion w => Sys2Proof.Machine.execGetVersion w s
  | .getCapabilities w => Sys2Proof.Machine.execGetCapabilities w s
  | .negotiateAlgorithms w => Sys2Proof.Machine.execNegotiateAlgorithms w s
  | .getDigests w => Sys2Proof.Machine.execGetDigests w s
  | .getCertificate w slot off len => Sys2Proof.Machine.execGetCertificate w slot off len s
  | .challenge w nonce => Sys2Proof.Machine.execChallenge w nonce s
  | .getMeasurements w nonce index => Sys2Proof.Machine.execGetMeasurements w nonce index s
  | .keyExchange w nonce => Sys2Proof.Machine.execKeyExchange w nonce s
  | .finish w ok => Sys2Proof.Machine.execFinish w ok s
  | .heartbeat w => Sys2Proof.Machine.execHeartbeat w s
  | .keyUpdate w => Sys2Proof.Machine.execKeyUpdate w s
  | .endSession w => Sys2Proof.Machine.execEndSession w s
  | .chunkSend w bytes last => Sys2Proof.Machine.execChunkSend w bytes last s
  | .chunkGet w seq => Sys2Proof.Machine.execChunkGet w seq s
  | .unsupportedRequest w code => Sys2Proof.Machine.execUnsupportedRequest w code s
  | .lockInterface w => Sys2Proof.Machine.execLockInterface w s
  | .getDeviceInterfaceReport w => Sys2Proof.Machine.execGetDeviceInterfaceReport w s
  | .startInterface w => Sys2Proof.Machine.execStartInterface w s
  | .stopInterface w => Sys2Proof.Machine.execStopInterface w s
  | .ideIntegrityFailure w => Sys2Proof.Machine.execIdeIntegrityFailure w s
  | .apertureAccess w off op => Sys2Proof.Machine.execApertureAccess w off op s
  | .hostAccessTimeout id => Sys2Proof.Machine.execHostAccessTimeout id s
  | .linkTraining port peerPort peerPkg chain proof => Sys2Proof.Machine.execLinkTraining port peerPort peerPkg chain proof s
  | .flitReceive port head crcOk body => Sys2Proof.Machine.execFlitReceive port head crcOk body s
  | .fabricRequest port src dest part off op => Sys2Proof.Machine.execFabricRequest port src dest part off op s
  | .portDown port => Sys2Proof.Machine.execPortDown port s
  | .coldBoot error => Sys2Proof.Machine.execColdBoot error s
  | .thermalLimit b temp => Sys2Proof.Machine.execThermalLimit b temp s
  | .hostReadCompletion id st => Sys2Proof.Machine.execHostReadCompletion id st s
  | .firmwareCommand fn c => Sys2Proof.Machine.execFirmwareCommand fn c s
  | .junctionTemperatureRecovery b => Sys2Proof.Machine.execJunctionTemperatureRecovery b s

end Sys2Proof.Machine
end

