-- ==== Sys2Proof/Machine/Time.lean ====
section
/-! DEFINITION. What a turn does: time passes (R157, R167, R218, R300, R301, R306), then one agent acts: a group issues (R159, R162), a chain runs a
unit (R105), the dispatcher takes a command (R300), or an event happens. -/

namespace Sys2Proof.Machine

/-! ### Time -/

/-- `dc` core cycles pass for a group that no halt holds: its PAUSE and WAITR counts fall; a lane whose deadline has passed times out. -/
def Group.elapse (dc : Nat) (g : Group) : Group :=
  if g.stop.isSome then g
  else
    let g1 := g.frags.foldl (fun g (f : Frag) => g.timeOut (fun n => decide (n < dc)) f) { g with pause := g.pause.map fun n => n - dc }
    { g1 with frags := g1.frags.map fun (f : Frag) => match f.park with
        | some (n, .waitr pd ws) => { f with park := some (n, .waitr pd (ws.map fun x => (x.1, x.2.1, x.2.2 - dc))) }
        | _ => f }

/-- Is the world of a launch served (R300)? -/
def State.servesLaunch (s : State) (lid : Nat) : Bool :=
  match s.launch? lid with
  | none => false
  | some l => match s.world? l.world with | some x => s.serves x | none => false

/-- `dt` ns pass for a launch whose world is served: its watchdog counts unless a debugger halts it, and its first waiting block waits. -/
def State.elapseLaunch (s : State) (dt : Nat) (l : Launch) : Launch :=
  if !s.servesLaunch l.lid then l
  else
    let held := s.groups.any fun (g : Group) => g.gid.lid = l.lid && g.stop.isSome
    { l with watch := if held || l.status ≠ .running then l.watch else l.watch + dt, waited := if l.waits then l.waited + dt else l.waited }

/-- `dt` ns pass for the ready heads of a world's queues. -/
def State.elapseWorld (s : State) (dt : Nat) (x : World) : World :=
  if s.serves x then
    { x with ready := (List.range 4).foldl (fun r lvl => if s.headReady x lvl then put r lvl (look 0 r lvl + dt) else r) x.ready }
  else x

/-- `dt` ns pass for the oldest device entry of one world. -/
def ageOldest (w dt : Nat) : List DevEntry → List DevEntry
  | [] => []
  | e :: es => if e.world = w then { e with ready := e.ready + dt } :: es else e :: ageOldest w dt es

/-- `dt` ns pass for a device queue. -/
def State.elapsePart (s : State) (dt : Nat) (p : Partition) : Partition :=
  match s.current p with
  | none => p
  | some x =>
    match p.oldest x.w with
    | none => p
    | some e => if s.serves x && s.devReady x e then { p with devq := ageOldest x.w dt p.devq } else p

/-- Why a group issues nothing, as the counters of stall cycles tell (Table 15-5): a queue, SEMWAIT, PAUSE and BACKOFF, or a convergence point (DESIGN CHOICE,
LOG 135). -/
def Group.stallCounter (g : Group) : Option Nat :=
  if g.pause.isSome then some 58
  else if g.qwait then some 55
  else if g.stuck.isSome || (g.frags.any g.active) then none
  else if g.frags.any fun (f : Frag) => match f.park with | some (_, .semwait ..) => true | _ => false then some 57
  else some 56

/-- The counters of `dc` core cycles (R367): a frozen core counts one freeze cycle, and one stall cycle of each of its groups (R369). -/
def State.countCycles (s : State) (dc : Nat) : State :=
  if dc = 0 then s
  else
    let s1 := s.frozen.foldl (fun s c => s.addCount c 34 1) s
    s.groups.foldl (fun s (g : Group) =>
      match s.block? g.gid.lid g.gid.blk with
      | none => s
      | some b =>
        if s.frozen.contains b.core then s.addCount b.core 59 1
        else if s.servesLaunch g.gid.lid then
          match g.stallCounter with
          | some k => s.addCount b.core k dc
          | none => s
        else s) s1

/-- Is the partition of a launch in replay mode, where counts of cycles are counts of replay cycles (R370)? -/
def State.replays (s : State) (lid : Nat) : Bool :=
  match s.launch? lid with
  | none => false
  | some l => (s.replayFrom l.part).isSome

/-- `dt` ns of package time and `dc` core cycles pass; the writes whose T_c comes perform, each at its T_c (R36). -/
def State.elapse (s : State) (dt dc : Nat) : State :=
  if dt = 0 && dc = 0 then s
  else
    let t := s.now + dt
    let s := (State.performDue t s.pend.length s).countCycles dc
    { s with
      now := t
      cycles := s.cycles + dc
      frozen := if dc = 0 then s.frozen else []
      groups := s.groups.map fun (g : Group) => if s.servesLaunch g.gid.lid && !s.replays g.gid.lid then g.elapse dc else g
      launches := s.launches.map (s.elapseLaunch dt)
      worlds := s.worlds.map (s.elapseWorld dt)
      parts := s.parts.map (s.elapsePart dt) }

/-- The frames and gaps that have come to their end do end (R345). -/
def State.edges (s : State) : State :=
  s.parts.foldl (fun s (p : Partition) =>
    let s1 := afterOut (execFrameEdge p.id s) s
    afterOut (execEdgeGapEnd p.id s1) s1) s

/-- Launches whose watchdog has run out are aborted (R306). -/
def State.expire (s : State) : State := s.launches.foldl (fun s (l : Launch) => afterOut (execWatchdogExpiry l.lid s) s) s

/-- For how many ns nothing happens by itself: until a frame or a gap ends (R345), a watchdog runs out (R306), or those that pass. -/
def State.quietFor (s : State) (dt : Nat) : Nat :=
  let edges := s.parts.filterMap fun (p : Partition) => match p.phase with
    | .frame _ _ _ t => if p.gated then none else some (t - s.now)
    | .gap _ t => if p.gated then none else some (t - s.now)
    | .idle => none
  let dogs := s.launches.filterMap fun (l : Launch) =>
    if l.status = .running && s.servesLaunch l.lid && !(s.groups.any fun (g : Group) => g.gid.lid = l.lid && g.stop.isSome) then some (l.limit - l.watch) else none
  (edges ++ dogs).foldl min dt

/-- Time passes, in at most `n` + 1 parts: every frame and gap ends, and every watchdog runs out, at its own instant; an expiry at an edge's instant comes first
(Table 12-10). -/
def State.pass : Nat → Nat → Nat → State → State
  | 0, dt, dc, s => ((s.elapse dt dc).expire).edges
  | n + 1, dt, dc, s =>
    let d := s.quietFor dt
    let t := ((s.elapse d (dc * d / dt)).expire).edges
    if d = dt then ((s.elapse dt dc).expire).edges else State.pass n (dt - d) (dc - dc * d / dt) t

/-- In how many parts time may have to pass. -/
def State.timeParts (s : State) (dt : Nat) : Nat := s.parts.length * (dt / 100000 + 2) + s.launches.length + 1

/-! ### The dispatcher's choice (R300) -/

/-- A candidate: level (4 is the device queue's place), its level for the order, for how long it has been ready. -/
structure Candidate where
  lvl : Nat
  level : Nat
  ready : Nat

def Candidate.eff (c : Candidate) : Nat := if 2000000 ≤ c.ready then 4 else c.level

/-- Does a candidate come before another? -/
def Candidate.beats (a b : Candidate) : Bool :=
  decide (b.eff < a.eff) ||
  (a.eff = b.eff && (decide (b.ready < a.ready) || (a.ready = b.ready && decide (b.level < a.level))))

def bestOf : List Candidate → Option Candidate
  | [] => none
  | c :: cs => match bestOf cs with | none => some c | some d => if d.beats c then some d else some c

/-- The ready candidate of a world that the dispatcher takes next. A full tie of a host queue with the device queue goes to the host queue (DESIGN CHOICE, LOG 129). -/
def State.pick (s : State) (x : World) : Option Nat :=
  let host := ((List.range 4).filter fun l => s.headReady x l).map fun l => (⟨l, l, look 0 x.ready l⟩ : Candidate)
  let dev := match (s.part? x.part).bind fun p => p.oldest x.w with
    | some e => if s.devReady x e then [(⟨4, (decodeRec (ofBytes e.bytes)).prio, e.ready⟩ : Candidate)] else []
    | none => []
  (bestOf (host ++ dev)).map fun c => c.lvl

/-! ### Turns of the agents -/

/-- Of every core the first group in the round robin that may issue (R162). -/
def State.primaries (s : State) : List Act :=
  let ready := s.rr.filterMap fun g => match s.group? g, s.block? g.lid g.blk with
    | some x, some b => if s.issuable x then some (b.core, g) else none
    | _, _ => none
  (ready.filter fun e => (ready.find? fun f => f.1 = e.1) = some e).map fun e => .issue e.2

/-- A group issues, when the primary slot of its core is its own (R159, R162): a breakpoint stops it; a PC outside TEXT raises FETCH, a word that is no instruction ILLEGAL; else the instruction runs. A
turn that the group cannot take changes nothing. A group whose launch has a safe-mode galley goes on in it (R336, LOG 108). -/
def issueTurn (gid : Gid) (s : State) : Out :=
  match s.group? gid, s.launch? gid.lid with
  | some g, some l =>
    if !s.primaries.contains (.issue gid) then .next s
    else
      match g.next with
      | none => .next s
      | some (f, g1) =>
        let s1 := { s.modGroup gid fun _ => { g1 with safe := g1.safe || l.safe.isSome } with rr := (s.rr.filter fun x => x ≠ gid) ++ [gid] }
        match s.stopsAt g f with
        | some n => exec (.breakpoint gid n) s1
        | none =>
          match l.fetch gid f with
          | .outside is a => .next (s1.fetchFault is a)
          | .illegal is r => .next (s1.decodeFault is r)
          | .ins i is => exec i { s1 with issuer := some is }
  | _, _ => .next s

/-! Loads read unit by unit, lane by lane, each at its own time (R77, R79): `Act.early` reads one unit before the instruction issues. -/

/-- What a load reads: its header, space, access size, whether 16 bytes are one unit, and the addresses of a lane. -/
structure LoadAt where
  hd : Hdr
  sp : Space
  k : Nat
  a16 : Bool
  at_ : List Nat

/-- What a lane reads in a load, the words of a tile row in LDT. -/
def loadAt (c : Ctx) (fresh lane : Nat) (i : Instr) : Option LoadAt :=
  match i with
  | .ld hd acc off _ a => some ⟨hd, acc.sp, acc.sz.bytes, acc.a16, [c.addr fresh acc.sp off a lane]⟩
  | .lds hd acc st _ a => some ⟨hd, acc.sp, acc.sz.bytes, acc.a16, [c.strideAddr fresh acc.sp st a lane]⟩
  | .ldt hd _ p _ a => some ⟨hd, .scr, 4, false, (tileReqs c fresh p a (maskOf [lane])).map fun r => r.2⟩
  | _ => none

/-- Are the `n` bytes at `pa` one single-copy-atomic unit of a load's piece in the package (Table 03-1)? -/
def isUnit (k : Nat) (a16 : Bool) (va pa n : Nat) (p : Piece) : Bool :=
  p.lit.isNone && !p.loc && !p.outside && decide (p.pa ≤ pa) && decide (pa + n ≤ p.pa + p.len) &&
  (if va % k = 0 then (if k = 16 && !a16 then n = 8 && pa % 8 = 0 else n = k) else n = 1)

/-- One lane of the load that a group issues next reads one unit of it (R79). A unit that cannot be read so changes nothing. -/
def earlyTurn (gid : Gid) (lane pa n : Nat) (s : State) : Out :=
  match s.group? gid, s.launch? gid.lid with
  | some g, some l =>
    match if s.issuable g && s.atomsDone gid (g.live) true then g.next else none with
    | none => .next s
    | some (f, _) =>
      let free := (match s.world? l.world with | some x => !x.granted | none => false) && (s.stopsAt g f).isNone
      match l.fetch gid f with
      | .ins i is =>
        match s.ctxOf is with
        | none => .next s
        | some c =>
          match loadAt c s.fresh lane i with
          | none => .next s
          | some x =>
            let unit (va : Nat) : Bool := match s.checkLane c x.sp false true lane va x.k with
              | .error _ => false
              | .ok ps => ps.any (isUnit x.k x.a16 va pa n)
            if !free || !inMask (c.act x.hd) lane || (c.early lane pa).isSome || !x.at_.any unit then .next s
            else
              match s.readBytes (fun w => w = .thread gid lane) lane pa n with
              | none => .next s
              | some bs => .next (s.modGroup gid fun x => { x with ahead := x.ahead ++ [⟨lane, pa, bs⟩] })
      | _ => .next s
  | _, _ => .next s

/-- May a chain take a turn: it runs, its world is served, its launch runs, its core is not frozen and its bulkhead is up (R105, R323, R369)? -/
def State.chainReady (s : State) (k : Chain) : Bool :=
  s.chainRuns k && s.servesLaunch k.gid.lid && !s.frozen.contains k.core &&
  match s.bulk? (bulkOf k.core) with | some x => x.st = .running || x.st = .fencing | none => false

/-- A chain runs one unit, when it is its turn: of the chains of its core that may run, the one whose last turn is the longest ago (R105). -/
def chainTurn (id : Nat) (s : State) : Out :=
  match s.chain? id with
  | none => .next s
  | some k =>
    match s.block? k.gid.lid k.gid.blk with
    | none => .next s
    | some b =>
      if !s.chainReady k || s.chains.any (fun x => x.core = k.core && s.chainReady x && decide (x.turn < k.turn)) then .next s
      else
        match (s.modChain id fun x => { x with turn := s.fresh }).readEntry k b with
        | .done o => o
        | .entry i s1 => exec i { s1 with engine := some id }

/-- A running chain reads one word or byte of the unit that it runs next (R77): a place in the package that the world may read as a copy engine does, and no
sealed one. -/
def earlyChainTurn (id pa n : Nat) (s : State) : Out :=
  match s.chain? id with
  | none => .next s
  | some k =>
    match s.launch? k.gid.lid, s.block? k.gid.lid k.gid.blk with
    | some l, some b =>
      let own := decide (b.scratchPa 0 ≤ pa) && decide (pa + n ≤ b.scratchPa 0 + b.scratch)
      let may := own || (s.owns .copy l.part l.world l.part (pa / 4096) false false && !s.isSealed pa)
      let unit := n = 1 || (n = 4 && pa % 4 = 0)
      if !s.chainReady k || !may || !unit || (homeBulk pa).all s.isDown || s.badWord pa n || k.ahead.any fun e => e.1 = pa then .next s
      else
        match s.readBytes (fun w => w = .chain id) 1023 pa n with
        | none => .next s
        | some bs => .next (s.modChain id fun x => { x with ahead := x.ahead ++ [(pa, bs)] })
    | _, _ => .next s

/-- The dispatcher takes a command: the one that R300 chooses. An entry that cannot be read or decoded stops its queue (Table 11-4); the code is 0x02 also for
BULKHEAD-DOWN (DESIGN CHOICE, LOG 130). -/
def commandTurn (w lvl : Nat) (s : State) : Out :=
  match s.live? w with
  | none => .next s
  | some x =>
    if !s.serves x || s.pick x ≠ some lvl then .next s
    else if lvl = 4 then exec (.deviceQueueEntry x.part) s
    else
      match s.headEntry x lvl with
      | .error _ =>
        .next ((s.fenceAgent .host x.part w ((x.reg (rQ lvl)).toNat / 128 * 128 % 2 ^ 52 + 128 * x.qHead lvl) 128).stopQueue w lvl 0x02)
      | .ok e =>
        match decodeCommand e with
        | none => .next (s.stopQueue w lvl 0x01)
        | some i =>
          let va := (x.reg (rQ lvl)).toNat / 128 * 128 % 2 ^ 52 + 128 * x.qHead lvl
          exec i { s.agentTouch .host x.part w va 128 with cmd := some ⟨w, lvl⟩ }

/-- One act. A device-queue entry is taken in its turn among the commands. -/
def runAct (a : Act) (s : State) : Out :=
  match a with
  | .idle => .next s
  | .issue g => issueTurn g s
  | .early g lane pa n => earlyTurn g lane pa n s
  | .chain id => chainTurn id s
  | .earlyChain id pa n => earlyChainTurn id pa n s
  | .command w lvl => commandTurn w lvl s
  | .event (.deviceQueueEntry p) =>
    match (s.part? p).bind fun q => s.current q with
    | some x => commandTurn x.w 4 s
    | none => .next s
  | .event i => exec i s

/-- Stops that are due after a turn take place (R362), and a debugger's access that is in progress is tried again (R360). -/
def State.dueStops (s : State) : State :=
  let s1 := (s.groups.filter fun (g : Group) => g.stopNext.isSome).foldl (fun s (g : Group) => s.nextStop g.gid) s
  (s1.worlds.filter fun (x : World) => x.dbgReq.isSome).foldl (fun s (x : World) => s.debugRetry x.w) s1

/-- After a turn nobody acts; writes whose T_c has come perform. -/
def afterTurn (o : Out) : Out :=
  match o with
  | .next s =>
    let s1 : State := { s with issuer := none, engine := none, cmd := none }
    .next (State.performDue s1.now s1.pend.length s1).dueStops.noteHeads
  | o => o

/-! ### The schedule without an agenda (LOG 1) -/

/-- What a group that waits may be waiting for. -/
def Group.events (g : Group) : List Instr :=
  (if g.mats.any fun m => !m.done then [.matrixCompletion g.gid] else []) ++ (if g.pause = some 0 then [.pauseEnd g.gid] else []) ++
  (if g.qwait then [.queueStallRelease g.gid] else []) ++
  g.frags.flatMap fun (f : Frag) => match f.park with
    | some (_, .waitr _ _) => [.waitrTimeout g.gid f.pc.toNat]
    | some (_, .semwait _ _ _ ws) => ws.flatMap fun x => [.semwaitRelease x.2.2.1, .semwaitPoll g.gid x.1]
    | _ => []

/-- Everything that may come next: each entry does nothing when its time has not come. -/
def State.candidates (s : State) : List Act :=
  let events : List Instr :=
    (s.pend.flatMap fun p => if p.tc.isSome then [.writeCompletion p.id] else [.storeArrival p.id 0]) ++
    (s.groups.flatMap Group.events) ++ (s.chains.map fun (k : Chain) => .chainCompletion k.id) ++
    (s.blocks.filterMap fun (b : Block) => if b.clearing then some (.blockClearComplete b.lid b.idx) else none) ++
    (s.launches.flatMap fun (l : Launch) => match l.status with
      | .running => [.launchCompletion l.lid, .watchdogExpiry l.lid]
      | _ => [.dumpWrite l.lid]) ++
    (s.translating.map fun t => .translation t.1 t.2.1 t.2.2.w64 32 false) ++
    (s.worlds.flatMap fun (x : World) =>
      (if x.busy then [.contextSave x.w] else []) ++ (if x.ctx.isSome || x.resuming then [.contextRestore x.w] else []) ++
      (if bit (x.reg rTRQ).toNat 15 then [.translation x.w (field (x.reg rTRQ).toNat 0 12) (bit (x.reg rTRQ).toNat 12) 32 false] else []) ++
      (if (s.waitingRecord x.w).isSome then [.pageFaultRecord x.w] else []) ++ (if x.stopq = [] then [] else [.stopRecord x.w]) ++
      (if x.offerTime.isSome then [.debugOfferLapse x.w] else [])) ++
    (s.parts.flatMap fun (p : Partition) =>
      [.blockPlacement p.id, .frameEdge p.id, .edgeGapEnd p.id, .tlbinvComplete p.id] ++
      (p.doms.filterMap fun (d : Domain) => if d.st = .draining || d.st = .ending then some (.beaconDrainComplete p.id d.idx) else none) ++
      (p.slots.filterMap fun (t : Slot) => if t.closing.isSome then some (.windowCloseComplete p.id t.idx) else none)) ++
    (s.bulks.flatMap fun (b : Bulk) => match b.st with
      | .fencing => [.bulkheadFenced b.b]
      | .resetting => [.bulkheadResetComplete b.b]
      | _ => []) ++
    (s.changes.map fun c => .ownershipChange c.page) ++ (s.offers.map fun o => .windowOfferLapse o.id) ++
    (s.ext.map fun e => .hostAccessTimeout e.id)
  .idle :: s.primaries ++ (s.chains.map fun (k : Chain) => .chain k.id) ++
    (s.worlds.flatMap fun (x : World) => match s.pick x with | some l => [.command x.w l] | none => []) ++ events.map .event

/-- The turn that follows when the agenda is empty: every candidate has its turn, 10 ns and 13 cycles after the one before. -/
def State.defaultTurn (s : State) : Turn :=
  { dt := 10, dc := 13, act := s.candidates.getD (s.fresh % s.candidates.length) .idle }

/-! ### The lockstep schedule of replay mode (R370) -/

/-- The partition that an event inside the package belongs to; none for outside inputs, for what only time decides, and for the package's own. -/
def State.eventPart (s : State) (i : Instr) : Option Nat :=
  let ofLaunch (lid : Nat) : Option Nat := (s.launch? lid).map fun l => l.part
  let ofWorld (w : Nat) : Option Nat := (s.world? w).map fun (x : World) => x.part
  match i with
  | .storeArrival id _ => (s.pend? id).bind s.pendPart
  | .fill core _ _ _ => (s.partOfCore core).map fun (p : Partition) => p.id
  | .matrixCompletion g => ofLaunch g.lid
  | .pauseEnd g => ofLaunch g.lid
  | .queueStallRelease g => ofLaunch g.lid
  | .waitrTimeout g _ => ofLaunch g.lid
  | .semwaitPoll g _ => ofLaunch g.lid
  | .semwaitRelease pa => some (field (s.potEntry (pa / 4096)) 0 5)
  | .chainCompletion id => (s.chain? id).bind fun (k : Chain) => ofLaunch k.gid.lid
  | .blockClearComplete lid _ => ofLaunch lid
  | .blockPlacement p => some p
  | .launchCompletion lid => ofLaunch lid
  | .dumpWrite lid => ofLaunch lid
  | .contextSave w => ofWorld w
  | .contextRestore w => ofWorld w
  | .pageFaultRecord w => ofWorld w
  | .stopRecord w => ofWorld w
  | .beaconDrainComplete p _ => some p
  | .deviceQueueEntry p => some p
  | _ => none

/-- The partition in replay mode that an act belongs to. -/
def State.lockPart (s : State) (a : Act) : Option Partition :=
  let ofLaunch (lid : Nat) : Option Nat := (s.launch? lid).map fun l => l.part
  let p := match a with
    | .issue g => ofLaunch g.lid
    | .early g _ _ _ => ofLaunch g.lid
    | .chain id => (s.chain? id).bind fun (k : Chain) => ofLaunch k.gid.lid
    | .earlyChain id _ _ => (s.chain? id).bind fun (k : Chain) => ofLaunch k.gid.lid
    | .command w _ => (s.world? w).map fun (x : World) => x.part
    | .event i => s.eventPart i
    | .idle => none
  (p.bind s.part?).filter fun (q : Partition) => q.replayOn.isSome

/-- The acts of a partition in replay mode, in the one fixed order of its schedule. -/
def State.lockActs (s : State) (p : Nat) : List Act := s.candidates.filter fun a => (s.lockPart a).any fun q => q.id = p

/-- A replay cycle of a partition passes: its counts move on (R370). -/
def State.lockTick (s : State) (p : Nat) : State :=
  let t := s.modPart p fun q => { q with lockTurn := q.lockTurn + 1 }
  { t with groups := t.groups.map fun (g : Group) =>
      if (match s.launch? g.gid.lid with | some l => decide (l.part = p) | none => false) && s.servesLaunch g.gid.lid then g.elapse 1 else g }

/-- Is it the turn of an act: any may come next, but in a partition in replay mode only the one of its schedule, while none of its bulkheads is frozen? -/
def State.inTurn (s : State) (a : Act) : Bool :=
  match s.lockPart a with
  | none => true
  | some p =>
    let acts := s.lockActs p.id
    acts[p.lockTurn % acts.length]? = some a && !(s.frozen.any fun c => p.bulks.contains (bulkOf c))

/-- The replay cycles that an act takes: one of its own partition; one of every partition in replay mode that has nothing to do, when the turn is idle. -/
def State.lockTicks (s : State) (a : Act) (t : State) : State :=
  match a with
  | .idle => (s.parts.filter fun (p : Partition) => p.replayOn.isSome && (s.lockActs p.id).isEmpty).foldl (fun t (p : Partition) => t.lockTick p.id) t
  | a => match s.lockPart a with | some p => t.lockTick p.id | none => t

/-! ### The management interface (R377) -/

/-- Is a row a management command? -/
def isManaged (i : Instr) : Bool :=
  match i with
  | .partitionForm .. | .partitionDissolve .. | .gate .. | .ungate .. | .fabricRoute .. | .firmwareCommand .. | .worldCreate .. | .worldTeardown .. | .frameSet ..
  | .debugOffer .. | .debugRevoke .. | .replayEnable .. | .resetMode .. | .bulkheadReset .. | .pageAssign .. | .emberRead .. | .windowOffer .. | .windowAccept ..
  | .windowClose .. => true
  | _ => false

/-- A command that comes while another one waits, waits behind it; any other act is run. -/
def manageTurn (a : Act) (s : State) : Out :=
  match a with
  | .event i => if isManaged i && !s.mgmt.isEmpty then .next (s.await (.behind i)) else runAct a s
  | a => runAct a s

/-- Try a command that waits. -/
def Managed.run (m : Managed) (s : State) : Out :=
  match m with
  | .dissolve fn part => execPartitionDissolve fn part s
  | .gate fn part => execGate fn part s
  | .offer fn importer page count two => execWindowOffer fn importer page count two s
  | .accept fn id => execWindowAccept fn id s
  | .close fn slot => execWindowClose fn slot s
  | .behind i => exec i s

/-- The command at the head of the management interface is tried again, in a turn that answers nobody else. -/
def State.manage (a : Act) (s : State) : State :=
  match a, s.mgmt with
  | .event _, _ => s
  | _, [] => s
  | _, i :: rest =>
    match i.run { s with mgmt := [] } with
    | .next t => { t with mgmt := t.mgmt ++ rest }
    | _ => s

/-- A whole turn: every turn has a number of its own, to which the free values of the turn belong (LOG 3). -/
def runTurn (t : Turn) (s : State) : Out :=
  let u : State := { (State.pass (s.timeParts t.dt) t.dt t.dc s).noteHeads with fresh := s.fresh + 1, issuer := none, engine := none, cmd := none }
  if u.inTurn t.act then
    match afterTurn (manageTurn t.act u) with
    | .next v => .next ((u.lockTicks t.act v).manage t.act)
    | o => o
  else .next u

/-! ### A program that runs at once -/

/-- A program text alone on the first core: partition 0 of bulkhead 0, world 0 in its frame, one launch of one block of one thread. -/
def State.running (s : State) (text : List DWord) : State :=
  let k : Kernel := { entry := 0, traph := 0xFFFFFFFF, emulh := 0xFFFFFFFF, scratch := 0, argSize := 0, mode := 0, widths := 3, queues := [] }
  let r : LaunchRec :=
    { flags := 0, kidx := 0, gx := 1, gy := 1, gz := 1, bx := 1, byy := 1, bz := 1, scratch := 0, argSize := 0, mode := 0, argPtr := 0, semAddr := 0,
      semVal := 0, dumpAddr := 0, dumpSize := 0, watchdog := 0, rsvd := false }
  let l : Launch :=
    { lid := 0, tag := 0, world := 0, part := 0, lvl := some 0, cmd := 0, rcd := r,
      obj := { version := 0x0101, isPublic := false, text := text, const := [], kernel := k, kent := 0, hash := [] },
      data := 0, galley := 0, resid := 32, w64 := false, start := s.now, watch := 0, nextBlk := 1, waited := 0, dom := none, holds := [], failed := false, safe := none,
      status := .running }
  let g := newGroup l 0 0
  { s with
    groups := [g], rr := [g.gid], chains := [], launches := [l], boot := 0x105
    blocks := [{ lid := 0, idx := 0, core := 0, square := 0, scratch := 0, clearing := false, queues := [], stalled := [], phases := [], slots := [0],
                 saved := [] }]
    parts := [{ newPart 0 [0] 0 with phase := .frame 0 0 s.now (s.now + 100000) }]
    worlds := [newWorld 0 0 100 false []]
    bulks := s.bulks.map fun (b : Bulk) => if b.b = 0 then { b with st := .running } else b
    frozen := [], agenda := [⟨0, 0, .issue g.gid⟩] }

end Sys2Proof.Machine
end

