-- ==== Sys2Proof/Machine/Step.lean ====
section
/-! DEFINITION. One step: the next turn of the agenda, or of the default schedule (LOG 1); and a state in which a given instruction comes next. -/

namespace Sys2Proof.Machine

/-- One step. -/
def step (s : State) : Host.Outcome State Fault Refusal :=
  match s.agenda with
  | [] => runTurn s.defaultTurn s
  | t :: ts => runTurn t { s with agenda := ts }

/-- The state with an instruction placed as the first of a running program's TEXT, about to issue (R186: the words in ascending addresses). -/
def State.withFetchWord (s : State) (_nbits w : Nat) : State :=
  s.running [BitVec.ofNat 64 (w % 2 ^ 64), BitVec.ofNat 64 (w / 2 ^ 64)]

end Sys2Proof.Machine
end

