-- ==== Sys2Proof/Safety.lean ====
section
/-! DEFINITION. The terms that statements use: outcomes that go on, what an instruction delivers and leaves alone, invariants. -/

namespace Sys2Proof.Machine

/-- An outcome that goes on, to a state with a property. -/
def Goes (o : Host.Outcome State Fault Refusal) (P : State → Prop) : Prop := ∃ t, o = .next t ∧ P t

/-- The canonical form of memory. -/
def State.MemOk (s : State) : Prop := Memory.wf s.mem = true

/-- Between two steps nobody acts. -/
def State.Idle (s : State) : Prop := s.issuer = none ∧ s.engine = none ∧ s.cmd = none

/-! ### What a register form delivers -/

/-- The v registers of lane `l` after an instruction whose destination is `d`, from what each lane computes. -/
def newV (c : Ctx) (act : Mask) (d : Option (Opnd × Nat)) (out : Nat → LaneOut) (r l : Nat) : Word :=
  match d with
  | some (⟨.v, n⟩, k) =>
    if inMask act l ∧ r = n then (out l).d.setWidth 32
    else if inMask act l ∧ k = 2 ∧ r = n + 1 then (out l).d.extractLsb' 32 32
    else SMap.get c.g.v (r * 64 + l)
  | _ => SMap.get c.g.v (r * 64 + l)

/-- The s registers: an s destination is written once, with the value of the lowest lane of Act (R182). -/
def newS (c : Ctx) (act : Mask) (d : Option (Opnd × Nat)) (out : Nat → LaneOut) (r : Nat) : Word :=
  match d with
  | some (⟨.s, n⟩, k) =>
    let l := (lanes act).headD 0
    if k = 2 ∧ r = n + 1 then (out l).d.extractLsb' 32 32
    else if r = n then (out l).d.setWidth 32
    else SMap.get c.g.s r
  | _ => SMap.get c.g.s r

/-- The h registers. -/
def newH (c : Ctx) (act : Mask) (d : Option (Opnd × Nat)) (out : Nat → LaneOut) (r l : Nat) : DWord :=
  match d with
  | some (⟨.h, n⟩, _) => if inMask act l ∧ r = n then (out l).d else SMap.get c.g.h (r * 64 + l)
  | _ => SMap.get c.g.h (r * 64 + l)

/-- Predicate `i` of lane `l`; a write to p0 is discarded (R265). -/
def newP (c : Ctx) (act : Mask) (out : Nat → LaneOut) (l i : Nat) : Bool :=
  match (out l).p with
  | some (j, v) => if inMask act l ∧ i = j ∧ j ≠ 0 then v else c.g.pred l i
  | none => c.g.pred l i

/-- The flags of lane `l`: sticky (R145). -/
def newFlags (c : Ctx) (act : Mask) (out : Nat → LaneOut) (l : Nat) : Word :=
  if inMask act l then SMap.get c.g.fpst l ||| (out l).fl else SMap.get c.g.fpst l

/-- The queues of the block: after the pops, with one entry pushed for a queue destination (R129). -/
def newQueues (b : Block) (act : Mask) (d : Option (Opnd × Nat)) (out : Nat → LaneOut) : List Queue :=
  match d with
  | some (⟨.q, n⟩, _) =>
    match b.queue? n with
    | some q => (b.setQueue n (q.entries ++ [(lanes act).foldl (fun m l => SMap.set m l ((out l).d.setWidth 32)) []])).queues
    | none => b.queues
  | _ => b.queues

/-- What one register form delivers, and its frame: the destination of each lane of Act holds what the lane computes, every other register,
predicate and flag is as before, every lane of the fragment stands at the next instruction, and nothing
outside the group, its block's queues and the core's count of instructions has changed. -/
structure Delivered (s : State) (c : Ctx) (act : Mask) (d : Option (Opnd × Nat)) (b : Block) (out : Nat → LaneOut) (t : State) (g : Group) : Prop where
  found : t.group? c.gid = some g
  vregs : ∀ r l, l < 64 → SMap.get g.v (r * 64 + l) = newV c act d out r l
  sregs : ∀ r, SMap.get g.s r = newS c act d out r
  hregs : ∀ r l, l < 64 → SMap.get g.h (r * 64 + l) = newH c act d out r l
  preds : ∀ l i, i < 8 → g.pred l i = newP c act out l i
  flags : ∀ l, SMap.get g.fpst l = newFlags c act out l
  kept : g.sc = c.g.sc ∧ g.fpm = c.g.fpm ∧ g.rets = c.g.rets ∧ g.live = c.g.live ∧ g.frame = c.g.frame ∧ g.handler = c.g.handler ∧
    g.arrived = c.g.arrived ∧ g.mats = c.g.mats ∧ g.pause = c.g.pause
  pc : ∃ f ∈ g.frags, f.pc = c.after ∧ c.is.mask &&& ~~~ f.mask = 0
  queues : ∃ y, t.block? c.gid.lid c.gid.blk = some y ∧ y.queues = newQueues b act d out
  retired : t.retired = SMap.set s.retired c.core (SMap.get s.retired c.core + 1)
  groups : ∀ x, x ≠ c.gid → t.group? x = s.group? x
  outside : t.mem = s.mem ∧ t.pend = s.pend ∧ t.chains = s.chains ∧ t.launches = s.launches ∧ t.worlds = s.worlds ∧ t.parts = s.parts ∧
    t.bulks = s.bulks ∧ t.pot = s.pot ∧ t.ext = s.ext ∧ t.now = s.now

/-- No outstanding matrix instruction names the destination (R98). -/
def ClearOfMatrix (c : Ctx) (d : Option (Opnd × Nat)) : Prop :=
  ∀ n k, d = some (⟨.v, n⟩, k) → c.g.hazard c.w64 n = false ∧ (k = 2 → c.g.hazard c.w64 (n + 1) = false)

/-- A queue destination is declared and has room, no group waits before this one to push there, and the earlier writes of the lanes have
performed (R129, R130, Table 03-5). -/
def RoomFor (s : State) (c : Ctx) (act : Mask) (b : Block) (d : Option (Opnd × Nat)) : Prop :=
  ∀ n k, d = some (⟨.q, n⟩, k) →
    (∃ q, b.queue? n = some q ∧ q.entries.length < q.depth) ∧ c.b.behind c.gid.gi n true = false ∧ s.settled c.gid act = true

/-- A fragment issues an instruction with guard `hd` in at least one lane, its operands `srcs` can be read and give `vs`, and its destination can
take the result. `b` is the block after the queue sources are popped. -/
structure Ready (s : State) (c : Ctx) (hd : Hdr) (d : Option (Opnd × Nat)) (srcs : List (Opnd × Nat)) (b : Block) (vs : List (Nat → DWord)) : Prop where
  ctx : s.ctx? = some c
  act : c.act hd ≠ 0
  fetch : c.fetch s.fresh c.b srcs = .ok b vs
  clear : ClearOfMatrix c d
  room : RoomFor s c (c.act hd) b d

/-- The outcome is a next state in which the results have been delivered. -/
def Delivers (s : State) (c : Ctx) (hd : Hdr) (d : Option (Opnd × Nat)) (b : Block) (out : Nat → LaneOut) (o : Host.Outcome State Fault Refusal) : Prop :=
  ∃ t g, o = .next t ∧ Delivered s c (c.act hd) d b out t g

/-! ### Forms by their number of sources

`f` gives what each lane computes from what it reads. -/

def Form0 (s : State) (c : Ctx) (hd : Hdr) (b : Block) (i : Instr) (d : Option (Opnd × Nat)) (f : Nat → LaneOut) : Prop :=
  Ready s c hd d [] b [] → Delivers s c hd d b f (exec i s)

def Form1 (s : State) (c : Ctx) (hd : Hdr) (b : Block) (i : Instr) (d : Option (Opnd × Nat)) (x : Opnd × Nat) (f : Nat → DWord → LaneOut) : Prop :=
  ∀ u, Ready s c hd d [x] b [u] → Delivers s c hd d b (fun l => f l (u l)) (exec i s)

def Form2 (s : State) (c : Ctx) (hd : Hdr) (b : Block) (i : Instr) (d : Option (Opnd × Nat)) (x y : Opnd × Nat)
    (f : Nat → DWord → DWord → LaneOut) : Prop :=
  ∀ u v, Ready s c hd d [x, y] b [u, v] → Delivers s c hd d b (fun l => f l (u l) (v l)) (exec i s)

def Form3 (s : State) (c : Ctx) (hd : Hdr) (b : Block) (i : Instr) (d : Option (Opnd × Nat)) (x y z : Opnd × Nat)
    (f : Nat → DWord → DWord → DWord → LaneOut) : Prop :=
  ∀ u v w, Ready s c hd d [x, y, z] b [u, v, w] → Delivers s c hd d b (fun l => f l (u l) (v l) (w l)) (exec i s)

/-! ### Exact values (R135, R139, R148) -/

/-- The value of an F32 datum (Table 05-1); none for infinities and NaNs. -/
def f32Val (d : Nat) : Option ℚ :=
  let m : ℚ := field d 0 23
  let e := field d 23 8
  let sign : ℚ := if bit d 31 then -1 else 1
  if e = 255 then none
  else some (sign * (if e = 0 then m * 2 ^ (-149 : Int) else (2 ^ 23 + m) * 2 ^ ((e : Int) - 150)))

/-- The largest finite F32 value. -/
def f32Max : ℚ := (2 ^ 24 - 1) * 2 ^ (104 : Int)

/-- FTZI and FTZO are clear, so that no value is flushed (R144). -/
def Plain (fpm : Word) : Prop := fpm.getLsbD 3 = false ∧ fpm.getLsbD 4 = false

/-- `d` is `x` rounded once to nearest, ties to even: no F32 value lies closer to `x`, and of two that lie equally close it is the one with an even significand. -/
def Nearest (x : ℚ) (d : Nat) : Prop :=
  ∃ z, f32Val d = some z ∧ ∀ w y, f32Val w = some y → |z - x| ≤ |y - x| ∧ (|z - x| = |y - x| → y = z ∨ d % 2 = 0)

/-! ### Where lanes stand, and what is kept -/

/-- Lane `l` is free to issue at `pc`. -/
def Group.stands (g : Group) (l : Nat) (pc : Word) : Prop := ∃ f ∈ g.frags, f.park = none ∧ f.pc = pc ∧ inMask f.mask l = true

/-- Lane `l` is parked at `pc` by an instruction of length `len`, in the way `P` says. -/
def Group.waits (g : Group) (l : Nat) (pc : Word) (len : Nat) (P : Park → Prop) : Prop :=
  ∃ f ∈ g.frags, ∃ p, f.park = some (len, p) ∧ P p ∧ f.pc = pc ∧ inMask f.mask l = true

/-- Every register, predicate, mode word and flag of the group is as before. -/
structure SameRegs (g g' : Group) : Prop where
  v : g'.v = g.v
  s : g'.s = g.s
  h : g'.h = g.h
  p : g'.p = g.p
  sc : g'.sc = g.sc
  fpm : g'.fpm = g.fpm
  fpst : g'.fpst = g.fpst

/-- Memory, everything in flight, the other groups, and everything outside groups and blocks are as before. -/
structure SameElsewhere (s t : State) (gid : Gid) : Prop where
  groups : ∀ x, x ≠ gid → t.group? x = s.group? x
  mem : t.mem = s.mem
  pend : t.pend = s.pend
  chains : t.chains = s.chains
  launches : t.launches = s.launches
  worlds : t.worlds = s.worlds
  parts : t.parts = s.parts
  bulks : t.bulks = s.bulks
  pot : t.pot = s.pot
  ext : t.ext = s.ext
  now : t.now = s.now

/-- What a control instruction does: the lanes of the fragment stand where `next` says, one more instruction has retired, and the rest is as before
but for the return stacks. -/
structure Moved (s : State) (c : Ctx) (next : Nat → Word) (t : State) (g : Group) : Prop where
  found : t.group? c.gid = some g
  at_ : ∀ l, inMask c.is.mask l = true → g.stands l (next l)
  regs : SameRegs c.g g
  kept : g.live = c.g.live ∧ g.handler = c.g.handler ∧ g.frame = c.g.frame ∧ g.arrived = c.g.arrived ∧ g.mats = c.g.mats
  blocks : t.blocks = s.blocks
  retired : t.retired = SMap.set s.retired c.core (SMap.get s.retired c.core + 1)
  elsewhere : SameElsewhere s t c.gid

/-- What an instruction that writes registers of its group does besides: the lanes of the fragment stand at `next`, one more instruction has retired, and
the return stacks, the state of traps and everything outside the group are as before. -/
structure Landed (s : State) (c : Ctx) (next : Nat → Word) (t : State) (g : Group) : Prop where
  found : t.group? c.gid = some g
  at_ : ∀ l, inMask c.is.mask l = true → g.stands l (next l)
  kept : g.live = c.g.live ∧ g.handler = c.g.handler ∧ g.frame = c.g.frame ∧ g.arrived = c.g.arrived ∧ g.mats = c.g.mats ∧ g.rets = c.g.rets
  retired : t.retired = SMap.set s.retired c.core (SMap.get s.retired c.core + 1)
  elsewhere : SameElsewhere s t c.gid

/-- The outcome moves the lanes and leaves the return stacks alone. -/
def Moves (s : State) (c : Ctx) (next : Nat → Word) (o : Host.Outcome State Fault Refusal) : Prop :=
  ∃ t g, o = .next t ∧ Moved s c next t g ∧ g.rets = c.g.rets

/-! ### Traps -/

/-- A launch that was running is now being aborted with a cause (R305, R311). -/
def Aborted (s : State) (lid cause sub : Nat) (nested : Bool) (t : State) : Prop :=
  ∀ l, s.launch? lid = some l → l.status = .running →
    ∃ y, t.launch? lid = some y ∧ y.status = .aborting cause sub nested false false (BitVec.ofNat 64 s.now)

/-- The group has taken a trap (R308 to R312): the frame holds cause, instruction, faulting lanes, PC, addresses and %tinfo; no register, predicate, return
stack or byte of memory has changed. With a handler that may take the cause the lanes `e` stand at its entry and the others of the fragment at the
next instruction; without one, or inside one, no lane moves and the launch is aborted. -/
structure TrapTaken (s : State) (c : Ctx) (cause : Nat) (faulting e : Mask) (info : DWord) (addr : Nat → DWord) (t : State) (g : Group) : Prop where
  found : t.group? c.gid = some g
  frame : g.frame.cause = BitVec.ofNat 32 cause ∧ g.frame.inst = c.is.inst ∧ g.frame.mask = faulting ∧ g.frame.pc = c.is.pc ∧ g.frame.info = info
  addr : ∀ l, inMask faulting l = true → SMap.get g.frame.addr l = addr l
  regs : SameRegs c.g g
  kept : g.rets = c.g.rets ∧ g.live = c.g.live ∧ g.mats = c.g.mats
  outside : t.mem = s.mem ∧ t.pend = s.pend ∧ t.blocks = s.blocks ∧ ∀ x, x ≠ c.gid → t.group? x = s.group? x
  entered : ∀ h, c.g.handler = none → c.l.handlerOf cause = some h →
    (∀ l, inMask c.is.mask l = true → g.stands l (if inMask e l then h else c.after)) ∧ (e ≠ 0 → g.handler = some { lanes := e, len := c.is.len }) ∧
      t.launches = s.launches ∧ t.chains = s.chains ∧ t.parts = s.parts
  nested : c.g.handler ≠ none → g.frags = c.g.frags ∧ g.handler = c.g.handler ∧
    (if cause = Cause.uncorrectable then Aborted s c.gid.lid Cause.contained cause true t else Aborted s c.gid.lid cause 0 true t)
  aborted : c.g.handler = none → c.l.handlerOf cause = none → g.frags = c.g.frags ∧ g.handler = none ∧
    (if cause = Cause.uncorrectable then Aborted s c.gid.lid Cause.contained cause false t else Aborted s c.gid.lid cause 0 false t)

/-- The outcome is a trap. -/
def Traps (s : State) (c : Ctx) (cause : Nat) (faulting e : Mask) (info : DWord) (addr : Nat → DWord)
    (o : Host.Outcome State Fault Refusal) : Prop := ∃ t g, o = .next t ∧ TrapTaken s c cause faulting e info addr t g

/-- A run-time ILLEGAL (R195): reason 0x10 on the lanes `m`, entered by Act. -/
def TrapsIllegal (s : State) (c : Ctx) (m act : Mask) (o : Host.Outcome State Fault Refusal) : Prop :=
  Traps s c Cause.illegal m act 0x10 (fun _ => 0) o

/-! ### A group that converges at once -/

/-- Every live lane of the only group of a block is in the issuing fragment and in Act, nothing waits in the group or at the block's barriers,
no debugger holds the group, the launch holds no beacon domain, and the lanes' earlier writes have performed. -/
structure Alone (s : State) (c : Ctx) (hd : Hdr) : Prop where
  ctx : s.ctx? = some c
  act : c.act hd = c.is.mask
  some_ : c.is.mask ≠ 0
  live : c.g.live = c.is.mask
  frags : ∃ f, c.g.frags = [f] ∧ f.pc = c.is.pc ∧ f.mask = c.is.mask ∧ f.park = none
  colls : c.g.colls = []
  stop : c.g.stop = none
  phases : c.b.phases = []
  groups : s.groupsOf c.gid.lid c.gid.blk = [c.g]
  dom : c.l.dom = none
  writes : s.settled c.gid (c.act hd) = true

/-- Nothing in a group waits for other lanes: it is alone in its block, no lane is parked, no handler, collective or barrier phase is open, no release is owed,
and its launch holds no beacon domain. -/
structure Calm (s : State) (g : Group) : Prop where
  groups : s.groupsOf g.gid.lid g.gid.blk = [g]
  handler : g.handler = none
  colls : g.colls = []
  freed : g.freed = []
  parks : ∀ f ∈ g.frags, f.park = none
  phases : ∀ b, s.block? g.gid.lid g.gid.blk = some b → b.phases = []
  dom : ∀ l, s.launch? g.gid.lid = some l → l.dom = none

/-! ### Terms of the statements -/

/-- Registers of an operand of an integer type. -/
def opI (t : IT) (o : Opnd) : Opnd × Nat := (o, regsW t.wide)
def opW (w : Bool) (o : Opnd) : Opnd × Nat := (o, regsW w)
def op1 (o : Opnd) : Opnd × Nat := (o, 1)
def op2 (o : Opnd) : Opnd × Nat := (o, 2)

/-- The result of R221: the exact value, clamped under SAT, modulo 2^n. -/
def resultOf (t : IT) (sat : Bool) (r : Int) : LaneOut :=
  { d := wrapTo t.bits (if sat then min (max r t.lo) t.hi else r) }

/-- Where a control instruction sends lanes: a valid PC (R187). -/
def ValidPc (c : Ctx) (t : Int) : Prop := 0 ≤ t ∧ t < 8 * c.l.obj.text.length ∧ t % 8 = 0

/-- The condition of the .U forms: guard and target agree in every lane of the fragment (R208, R209). -/
def Uniform (c : Ctx) (hd : Hdr) (t : Nat → Int) : Prop :=
  ∀ l k, inMask c.is.mask l = true → inMask c.is.mask k = true → inMask (c.act hd) l = inMask (c.act hd) k ∧ t l = t k

/-- The instance of a collective that the lanes of one fragment open together, each with what it brings. -/
def Ctx.opened (c : Ctx) (i : Instr) (v : Nat → DWord × Bool) : Coll :=
  ⟨c.is.pc, c.is.len, i, some c.is.mask, c.g.fpm, (lanes c.is.mask).map fun l => ⟨l, (v l).1, (v l).2⟩, 0⟩

/-- A collective operation of a lone group whose mask names exactly its lanes completes at once: every lane has its result and goes on. -/
def CollectiveDelivers (s : State) (c : Ctx) (hd : Hdr) (i : Instr) (m : Opnd) (v : Nat → DWord × Bool) : Prop :=
  Alone s c hd → c.g.handler = none → c.readMask s.fresh ((lanes c.is.mask).headD 0) m = c.is.mask → ClearOfMatrix c (collDst c.w64 i) →
    let out := collOut c.width (c.opened i v)
    ∃ t g, exec i s = .next t ∧ Landed s c (fun _ => c.after) t g ∧ t.blocks = s.blocks ∧ g.colls = [] ∧
      (∀ r l, l < 64 → SMap.get g.v (r * 64 + l) = newV c c.is.mask (collDst c.w64 i) out r l) ∧
      (∀ r, SMap.get g.s r = newS c c.is.mask (collDst c.w64 i) out r) ∧
      (∀ r l, l < 64 → SMap.get g.h (r * 64 + l) = newH c c.is.mask (collDst c.w64 i) out r l) ∧
      (∀ l j, j < 8 → g.pred l j = newP c c.is.mask out l j) ∧ (∀ l, SMap.get g.fpst l = newFlags c c.is.mask out l) ∧
      g.sc = c.g.sc ∧ g.fpm = c.g.fpm

/-- What an integer reduction of the values `xs` gives (R255, Table 09-8). -/
def Reduces (op : RedOp) (t : IT) (xs : List DWord) (d : DWord) : Prop :=
  match op with
  | .add => d = wrapTo t.bits ((xs.map t.val).sum)
  | .and => ∀ i, i < t.bits → d.getLsbD i = xs.all fun x => x.getLsbD i
  | .or => ∀ i, i < t.bits → d.getLsbD i = xs.any fun x => x.getLsbD i
  | .xor => ∀ i, i < t.bits → d.getLsbD i = xs.foldl (fun b x => b != x.getLsbD i) false
  | .min => ∃ m : Int, d = wrapTo t.bits m ∧ (m = t.hi ∨ ∃ x ∈ xs, m = t.val x) ∧ m ≤ t.hi ∧ ∀ x ∈ xs, m ≤ t.val x
  | .max => ∃ m : Int, d = wrapTo t.bits m ∧ (m = t.lo ∨ ∃ x ∈ xs, m = t.val x) ∧ t.lo ≤ m ∧ ∀ x ∈ xs, t.val x ≤ m

/-- The outcome changes nothing. -/
def Waits (s : State) (o : Host.Outcome State Fault Refusal) : Prop := o = .next s

/-! ### Memory accesses -/

/-- No debugger's watchpoint matches an access (R361). -/
def Unwatched (s : State) (c : Ctx) (sp : Space) (n : Nat) (rd wr : Bool) (reqs : List (Nat × Nat)) : Prop :=
  ∀ x, s.world? c.l.world = some x → x.granted = true → sp ≠ .loc → watchHit x (sp = .scr) rd wr n (watchReqs c sp reqs) = none

/-- Every lane of an access passes its checks, and no watchpoint matches it: `reqs` holds each lane with its address, `ps` the pieces that its bytes
lie in. -/
structure Admitted (s : State) (c : Ctx) (act : Mask) (sp : Space) (n : Nat) (write reads aligned : Bool) (reqs : List (Nat × Nat))
    (ps : List (Nat × List Piece)) : Prop where
  ctx : s.ctx? = some c
  some_ : act ≠ 0
  atoms : s.atomsDone c.gid act true = true
  align : aligned = true → ∀ r ∈ reqs, r.2 % n = 0
  check : List.Forall₂ (fun (r : Nat × Nat) (x : Nat × List Piece) => x.1 = r.1 ∧ s.checkLane c sp write reads r.1 r.2 n = .ok x.2) reqs ps
  watch : Unwatched s c sp n reads write reqs

/-- An access is admitted, and all its pieces lie in the package: it goes ahead. -/
structure Granted (s : State) (c : Ctx) (act : Mask) (sp : Space) (n : Nat) (write reads aligned : Bool) (reqs : List (Nat × Nat))
    (ps : List (Nat × List Piece)) : Prop extends Admitted s c act sp n write reads aligned reqs ps where
  inside : ∀ x ∈ ps, ∀ p ∈ x.2, p.outside = false

/-- The pieces of an access that lie in windows to the host or to peers, each with its number. -/
def windowPieces (ps : List (Nat × List Piece)) : List (Nat × Piece) := outsidePieces (ps.map fun x => x.2)

/-- A request stands at the host or at a peer, where the window leads (R375, R378). -/
def ExtReq.at_ (e : ExtReq) (pa : Nat) : Prop :=
  match region pa with
  | .host h => e.host = true ∧ e.addr = h
  | .peer q off => e.host = false ∧ e.peer = q ∧ e.addr = off
  | _ => True

/-- What an access leaves alone besides registers, memory and the writes in flight. -/
structure Accessed (s t : State) (gid : Gid) : Prop where
  groups : ∀ x, x ≠ gid → t.group? x = s.group? x
  blocks : t.blocks = s.blocks
  launches : t.launches = s.launches
  chains : t.chains = s.chains
  worlds : t.worlds = s.worlds
  pot : t.pot = s.pot
  now : t.now = s.now

/-- The physical addresses of the bytes of an access, in order. -/
def placesOf (ps : List Piece) : List Nat := ps.flatMap fun p => List.range' p.pa p.len

/-- The bytes that a plain write in flight stores, each with its writer and address. -/
def Pend.cells (p : Pend) : List (Writer × Nat × Byte) :=
  match p.op with
  | .bytes bs => ((List.range' p.pa bs.length).zip bs).map fun x => (p.src, x.1, x.2)
  | _ => []

/-- The bytes that the requests of a store write: request `i` of lane `l` writes `data i l`. -/
def storeCells (gid : Gid) (ps : List (Nat × List Piece)) (data : Nat → Nat → List Byte) : List (Writer × Nat × Byte) :=
  ((List.range ps.length).zip ps).flatMap fun e =>
    ((placesOf e.2.2).zip (data e.1 e.2.1)).map fun x => (Writer.thread gid e.2.1, x.1, x.2)

/-- Room that the wick counter of its class must have for the writes of a store at the most (R131). -/
def storeRoom (ps : List (Nat × List Piece)) : Nat := (ps.map fun x => (x.2.map fun p => p.len + 1).sum).sum

/-- An access has sent one request for each piece in `outs`, with what `op` says of it; the group is held, and nothing has happened yet. -/
def Asks (s : State) (c : Ctx) (outs : List (Nat × Piece)) (op : Nat → Piece → ExtOp) (o : Host.Outcome State Fault Refusal) : Prop :=
  ∃ t g ids, o = .next t ∧ t.group? c.gid = some g ∧ ids.length = outs.length ∧
    g.stuck = some ⟨c.is.pc, c.is.mask, c.is.len, c.is.inst, .ext ((outs.map fun x => x.1).zip ids)⟩ ∧
    (∀ x ∈ outs.zip ids, ∃ e ∈ t.ext, e.id = x.2 ∧ e.op = op x.1.1 x.1.2 ∧ e.world = c.l.world ∧ e.reply = none ∧ e.at_ x.1.2.pa) ∧
    SameRegs c.g g ∧ g.frags = c.g.frags ∧ t.mem = s.mem ∧ t.pend = s.pend ∧ Accessed s t c.gid

/-- Where an access to windows stands: its requests go out; it waits for the answers; it has them all, and none refuses it. -/
def AsksFirst (s : State) (c : Ctx) (outs : List (Nat × Piece)) (op : Nat → Piece → ExtOp) (o : Host.Outcome State Fault Refusal) : Prop :=
  ((∃ x ∈ outs, c.request x.1 = none) → Asks s c outs op o) ∧
  ((∀ x ∈ outs, c.request x.1 ≠ none) → (∃ x ∈ outs, s.replyOf c x.1 = none) → o = .next s)
def Answered (s : State) (c : Ctx) (outs : List (Nat × Piece)) : Prop := ∀ x ∈ outs, ∃ bs, s.replyOf c x.1 = some (.ok bs)

/-- A load delivers: register `q` of lane `l` holds what `f q l` says, or what it held; the lanes go on; memory and the writes in flight
are as before. -/
def Loads (s : State) (c : Ctx) (f : Nat → Nat → Option Word) (o : Host.Outcome State Fault Refusal) : Prop :=
  ∃ t g, o = .next t ∧ t.group? c.gid = some g ∧ (∀ l, inMask c.is.mask l = true → g.stands l c.after) ∧
    (∀ q l, l < 64 → SMap.get g.v (q * 64 + l) = (f q l).getD (SMap.get c.g.v (q * 64 + l))) ∧
    g.s = c.g.s ∧ g.h = c.g.h ∧ g.p = c.g.p ∧ g.sc = c.g.sc ∧ g.fpm = c.g.fpm ∧ g.fpst = c.g.fpst ∧ g.live = c.g.live ∧ g.rets = c.g.rets ∧
    g.mats = c.g.mats ∧ t.mem = s.mem ∧ t.pend = s.pend ∧ Accessed s t c.gid

/-- A store goes on with its bytes in flight behind those that already were: `cells` in order. -/
def Stores (s : State) (c : Ctx) (cls : WClass) (cells : List (Writer × Nat × Byte)) (o : Host.Outcome State Fault Refusal) : Prop :=
  ∃ t g news, o = .next t ∧ t.group? c.gid = some g ∧ (∀ l, inMask c.is.mask l = true → g.stands l c.after) ∧ SameRegs c.g g ∧
    g.live = c.g.live ∧ g.rets = c.g.rets ∧ g.mats = c.g.mats ∧ t.mem = s.mem ∧ t.pend = s.pend ++ news ∧
    (∀ q ∈ news, q.cls = cls ∧ q.lid = c.gid.lid ∧ q.core = c.core ∧ q.tc = none ∧ q.ext = none ∧ ∃ bs, q.op = .bytes bs) ∧
    news.flatMap Pend.cells = cells ∧ Accessed s t c.gid

/-- A store whose lanes all reach windows goes on: each lane's bytes are on their way to the host or the peer, in flight until they are answered, those to the host with a
flush behind them (R375). -/
def StoresOut (s : State) (c : Ctx) (cls : WClass) (ps : List (Nat × List Piece)) (data : Nat → List Byte) (o : Host.Outcome State Fault Refusal) : Prop :=
  ∃ t g news, o = .next t ∧ t.group? c.gid = some g ∧ (∀ l, inMask c.is.mask l = true → g.stands l c.after) ∧ SameRegs c.g g ∧
    g.live = c.g.live ∧ g.rets = c.g.rets ∧ g.mats = c.g.mats ∧ t.mem = s.mem ∧ t.pend = s.pend ++ news ∧
    List.Forall₂ (fun (x : Nat × List Piece) (q : Pend) => ∃ p e, x.2 = [p] ∧ e ∈ t.ext ∧ q.src = .thread c.gid x.1 ∧ q.cls = cls ∧
      q.lid = c.gid.lid ∧ q.core = c.core ∧ q.pa = p.pa ∧ q.tc = none ∧ q.op = .bytes ((data x.1).take p.len) ∧ e.op = .write ((data x.1).take p.len) ∧
      e.reply = none ∧ e.at_ p.pa ∧ (e.host = false → q.ext = some e.id) ∧
      (e.host = true → ∃ f ∈ t.ext, q.ext = some f.id ∧ e.id < f.id ∧ f.op = .flush ∧ f.host = true ∧ f.reply = none)) ps news ∧
    Accessed s t c.gid

/-- The writes that an atomic puts in flight, one for each lane. -/
def atomPends (s : State) (c : Ctx) (ps : List (Nat × List Piece)) (op : Nat → WOp) (news : List Pend) : Prop :=
  List.Forall₂ (fun (x : Nat × List Piece) (q : Pend) => q.src = .thread c.gid x.1 ∧ q.op = op x.1 ∧ q.tc = none ∧ q.ext = none ∧
    s.serial ≤ q.id ∧ ∃ p ∈ x.2.head?, q.pa = p.pa ∧ q.va = BitVec.ofNat 64 p.va) ps news

/-- An atomic with a result has left for its home: the group waits whole for the old values, and D is unwritten. -/
def Leaves (s : State) (c : Ctx) (ps : List (Nat × List Piece)) (d : Opnd) (words : Nat) (op : Nat → WOp) (o : Host.Outcome State Fault Refusal) : Prop :=
  ∃ t g news sc act ls, o = .next t ∧ t.group? c.gid = some g ∧
    g.stuck = some ⟨c.is.pc, c.is.mask, c.is.len, c.is.inst, .atom d words sc act ls⟩ ∧
    List.Forall₂ (fun (q : Pend) (x : Await) => q.src = .thread c.gid x.lane ∧ x.id = q.id ∧ x.got = none ∧ x.down = false) news ls ∧
    SameRegs c.g g ∧ g.frags = c.g.frags ∧ atomPends s c ps op news ∧ t.pend = s.pend ++ news ∧ t.mem = s.mem ∧ Accessed s t c.gid

/-- An atomic without result is in flight and its lanes go on. -/
def Posts (s : State) (c : Ctx) (ps : List (Nat × List Piece)) (op : Nat → WOp) (o : Host.Outcome State Fault Refusal) : Prop :=
  ∃ t g news, o = .next t ∧ t.group? c.gid = some g ∧ (∀ l, inMask c.is.mask l = true → g.stands l c.after) ∧ SameRegs c.g g ∧
    atomPends s c ps op news ∧ t.pend = s.pend ++ news ∧ t.mem = s.mem ∧ Accessed s t c.gid

/-- The bytes that a write in flight leaves at its home, from the bytes it finds there (R36, R46). -/
def Pend.result (q : Pend) (old : List Byte) : List Byte :=
  match q.op with
  | .bytes bs => bs
  | .sem op v => toBytes 8 (semNew op (BitVec.ofNat 64 (ofBytes old)) v).toNat
  | .rmw op n b => toBytes n (atomNew op n (ofBytes old) b.toNat)
  | .rmwf op b => toBytes op.size.bytes (atomfNew op (ofBytes old) b.toNat)
  | .xchg n b => toBytes n b.toNat
  | .cas n b new => if ofBytes old = b.toNat % 2 ^ (8 * n) then toBytes n new.toNat else old

/-- The kind of a PAGE failure (Table 02-5), as %tinfo shows it. -/
def Fail.kind : Fail → Nat
  | .page k => k
  | _ => 0

/-- The leases of `t` are those of `s`, and leases that core `core` has been granted. A granted one ends within the length asked for its line (`ask line length`) and
within the longest lease from now, not after L_max, and not after the completion time of a write that waits at the line; or it ends no later than one the core held
for the line. None is granted for a line that a core owns (R35, R37, R43). -/
def LeasesWithin (s t : State) (core : Nat) (ask : Nat → Nat → Prop) : Prop :=
  ∀ x ∈ t.leases, x ∈ s.leases ∨
    (x.core = core ∧ x.owned = false ∧ (∀ y ∈ s.leases, y.line = x.line → y.owned = false) ∧
      ((∃ d, ask x.line d ∧ x.tEnd ≤ s.now + min d Config.leaseMax ∧ x.tEnd ≤ look 0 t.lmax x.line ∧
          ∀ q ∈ s.pend, ∀ T, q.tc = some T → q.ext = none → lineOf q.pa = x.line → x.tEnd ≤ T) ∨
        ∃ y ∈ s.leases, y.core = core ∧ y.line = x.line ∧ x.tEnd ≤ y.tEnd))

/-! ### Matrix instructions -/

/-- The matrix instructions, each with the special registers that its TS form names. -/
def matScales : Instr → Option (Option (Nat × Nat))
  | .mma _ _ _ _ _ ts _ _ _ => some ts
  | .mmas _ _ _ _ _ ts _ _ _ _ _ _ _ => some ts
  | .mmasp _ _ _ _ _ ts _ _ _ _ _ _ _ _ => some ts
  | .mzero _ _ _ => some none
  | _ => none

/-- Operand A of a matrix instruction is read from scratch at an offset and pitch that are multiples of 4, and every row image lies in bounds
(R283). `o` is the shape of the instruction; MZERO has none. -/
def Ctx.aAligned (c : Ctx) (o : Option MatOp) : Prop :=
  ∀ x, o = some x → x.areg = false → (c.scratchOperand x.a).1 % 4 = 0 ∧ (c.scratchOperand x.a).2 % 4 = 0
def Ctx.aInside (c : Ctx) (o : Option MatOp) : Prop :=
  ∀ x, o = some x → x.areg = false → ∀ r, r < c.width → (c.scratchOperand x.a).1 + r * (c.scratchOperand x.a).2 + x.aImage ≤ c.b.scratch

/-- The same for operand B, whose rows run along the depth. -/
def Ctx.bAligned (c : Ctx) (o : Option MatOp) : Prop :=
  ∀ x, o = some x → x.breg = false → (c.scratchOperand x.b).1 % 4 = 0 ∧ (c.scratchOperand x.b).2 % 4 = 0
def Ctx.bInside (c : Ctx) (o : Option MatOp) : Prop :=
  ∀ x, o = some x → x.breg = false → ∀ r, r < x.bRows → (c.scratchOperand x.b).1 + r * (c.scratchOperand x.b).2 + x.bRow r ≤ c.b.scratch

/-- Matrix instructions of a group that have not completed. -/
def Group.undone (g : Group) : Nat := (g.mats.filter fun m => !m.done).length

/-- A matrix instruction has issued: it is the group's newest, the lanes go on, and nothing else changes. -/
def Issues (s : State) (c : Ctx) (P : Mat → Prop) (o : Host.Outcome State Fault Refusal) : Prop :=
  ∃ t g m, o = .next t ∧ t.group? c.gid = some g ∧ g.mats = c.g.mats ++ [m] ∧ P m ∧ SameRegs c.g g ∧
    (∀ l, inMask c.is.mask l = true → g.stands l c.after) ∧ g.live = c.g.live ∧ g.rets = c.g.rets ∧ g.handler = c.g.handler ∧
    t.blocks = s.blocks ∧ SameElsewhere s t c.gid

/-- Element `k` of a register fragment with elements of `e` bits, in one lane: bits k × e and up of the registers from `r` laid end to end (R136, R282). -/
def Group.fragElem (g : Group) (lane r e k : Nat) : Nat :=
  let x := (SMap.get g.v ((r + k * e / 32) * 64 + lane)).toNat
  let y := (SMap.get g.v ((r + k * e / 32 + 1) * 64 + lane)).toNat
  (x + 2 ^ 32 * y) / 2 ^ (k * e % 32) % 2 ^ e

/-! ### Copy chains -/

/-- The engine runs an entry of chain `k`, of block `b` and launch `l`. -/
structure Running (s : State) (k : Chain) (b : Block) (l : Launch) : Prop where
  engine : s.engine = some k.id
  chain : s.chain? k.id = some k
  block : s.block? k.gid.lid k.gid.blk = some b
  launch : s.launch? k.gid.lid = some l

/-- The state once a chain has read [a, a + n): the words it has met are corrected, translations are cached, array time is counted. -/
def State.fetched (s : State) (k : Chain) (l : Launch) (scr col : Bool) (a n : Nat) (ps : List Piece) : State :=
  let s1 := ps.foldl (fun s p => s.scrub p.pa p.len) s
  if scr then s1.useArrays k.core col false [(a, n)] else ps.foldl (fun s p => s.cache k.core l.part p.va) s1

/-- Chain `k` may read [a, a + n) of the package, as a semaphore when `atom`, its bytes are `bs`, they lie at `at_`, and `u` is the state then (R111). -/
def ChainReads (s : State) (k : Chain) (b : Block) (l : Launch) (scr col atom : Bool) (a n : Nat) (bs : List Byte) (at_ : List Nat) (u : State) : Prop :=
  ∃ ps bss, s.chainCheck k b l scr false true atom a n = .ok ps ∧ (s.healed k.id).tagWrong ps = false ∧ (∀ p ∈ ps, p.outside = false) ∧
    List.Forall₂ (fun p xs => s.chainBytes k atom p = some xs) ps bss ∧ bs = bss.flatten ∧ at_ = placesOf ps ∧
    u = s.fetched k l scr col a n ps

/-- The position after a staging unit: the next 128 B block of the row of `n` bytes from `start`, the next row, or the next entry (R112). -/
def Chain.nextUnit (k : Chain) (rows start n : Nat) : Chain :=
  if (k.part + 1) * 128 < start % 128 + n then { k with unit := k.unit + 1, stuck := none, ahead := [] }
  else if k.row + 1 < rows then { k with unit := (k.row + 1) * 2 ^ 32, stuck := none, ahead := [] }
  else k.goto (k.entry + 1)

/-- The engine has run a unit: chain `k` stands at `k'`, `cells` are in flight behind the writes that were, and no memory, register or other chain has changed. -/
def Sends (s : State) (k k' : Chain) (l : Launch) (cells : List (Nat × Byte)) (o : Host.Outcome State Fault Refusal) : Prop :=
  ∃ t news, o = .next t ∧ t.chain? k.id = some k' ∧ (∀ x, x ≠ k.id → t.chain? x = s.chain? x) ∧ t.pend = s.pend ++ news ∧
    (∀ q ∈ news, q.src = .chain k.id ∧ q.lid = l.lid ∧ q.core = k.core ∧ q.cls = .chain ∧ q.tc = none ∧ q.ext = none ∧ ∃ bs, q.op = .bytes bs) ∧
    news.flatMap Pend.cells = (cells.map fun e => (Writer.chain k.id, e.1, e.2)) ∧ t.mem = s.mem ∧ t.groups = s.groups ∧ t.blocks = s.blocks ∧
    t.worlds = s.worlds ∧ t.now = s.now

/-- The destination runs of a unit pass their checks and lie in the package, at `at_`, and the engine may issue their writes (R117, R122, R131). -/
def Targets (u : State) (k : Chain) (b : Block) (l : Launch) (scr : Bool) (runs : List (Nat × Nat)) (at_ : List Nat) : Prop :=
  u.chainRoom k runs = true ∧
  ∃ ps, chainDests k b l scr u runs = .ok ps ∧ (∀ p ∈ ps, p.outside = false ∧ (u.healed k.id).tagSpoilt p = false) ∧ at_ = placesOf ps

/-- The chain has stopped (R117), and nothing else has happened but the errors that memory has shown. -/
def Stopped (s : State) (k : Chain) (cause addr : Nat) (info : DWord) (o : Host.Outcome State Fault Refusal) : Prop :=
  ∃ t, o = .next t ∧ t.chain? k.id = some { k with stop := some ⟨cause, BitVec.ofNat 64 addr, info⟩, stuck := none } ∧
    (∀ x, x ≠ k.id → t.chain? x = s.chain? x) ∧ t.pend = s.pend ∧ t.mem = s.mem ∧ t.groups = s.groups ∧ t.blocks = s.blocks ∧ t.launches = s.launches

/-! ### Terms of the statements about agents outside the cores -/

/-- Besides world `w` and the replay log nothing of the programs' state has changed. -/
structure HostOnly (s t : State) (w : Nat) : Prop where
  mem : t.mem = s.mem
  groups : t.groups = s.groups
  blocks : t.blocks = s.blocks
  chains : t.chains = s.chains
  launches : t.launches = s.launches
  pot : t.pot = s.pot
  worlds : ∀ v, v ≠ w → t.world? v = s.world? v
  now : t.now = s.now

/-- A host event goes on to a state in which world `w` has become `y` with a property. -/
def Becomes (s : State) (w : Nat) (o : Host.Outcome State Fault Refusal) (P : World → Prop) : Prop :=
  ∃ t y, o = .next t ∧ t.world? w = some y ∧ P y ∧ HostOnly s t w

/-- Every register of the control page but those at `offs` reads as before. -/
def SameRegsBut (x y : World) (offs : List Nat) : Prop := ∀ off, off ∉ offs → y.reg off = x.reg off

/-! ### Queue commands and launches -/

/-- HEAD has passed one command. -/
def HeadPassed (x y : World) (lvl : Nat) : Prop :=
  (∀ off, off ≠ rQHEAD lvl → y.reg off = x.reg off) ∧ y.qHead lvl = (x.qHead lvl + 1) % x.qSize lvl ∧ look 0 y.taken lvl = look 0 x.taken lvl + 1

/-- The queue has stopped at its head with a code of Table 11-4. -/
def QueueStops (s : State) (x : World) (lvl code : Nat) (o : Host.Outcome State Fault Refusal) : Prop :=
  Becomes s x.w o fun y => SameRegsBut x y [rQCTL lvl] ∧ y.qStop lvl = true ∧ y.fieldOf (rQCTL lvl) 16 8 = code ∧ y.taken = x.taken

/-- The dispatcher may read the semaphore at `addr` (and write it, when `wr`) in the piece `p` of memory, where its value is `m`. -/
def SemHeld (s : State) (x : World) (wr : Bool) (addr : Nat) (p : Piece) (m : DWord) : Prop :=
  addr % 8 = 0 ∧ p.len = 8 ∧ p.outside = false ∧ m = BitVec.ofNat 64 (ofBytes (Memory.read s.mem p.pa 8)) ∧
    s.checkGlobal .host none x.part x.w (agentSource .host x.part x.w) [] false true false addr 8 = .ok [p] ∧
    (wr = true → s.checkGlobal .host none x.part x.w (agentSource .host x.part x.w) [] true true false addr 8 = .ok [p] ∧
      ∀ ln ∈ linesOf p.pa 8, s.lineFree ln = true)

/-- Exactly the 8 bytes from `pa` have changed, to those of `v`. -/
def SemWritten (s t : State) (pa : Nat) (v : DWord) : Prop :=
  ∀ a, Memory.get t.mem a = if pa ≤ a ∧ a < pa + 8 then (toBytes 8 v.toNat).getD (a - pa) 0 else Memory.get s.mem a

/-- A launch of record `r` has started in world `x`: it runs, with the next tag, the object and galley it binds, from now; the others are as before but for
the blocks that are placed in their turn (R301). -/
def LaunchStarted (s t : State) (x : World) (lvl : Option Nat) (num : Nat) (r : LaunchRec) (b : Bound) (g : Galley) (dom : Option Nat) : Prop :=
  ∃ l, t.launch? s.serial = some l ∧ l.lid = s.serial ∧ l.tag = x.nextTag ∧ l.world = x.w ∧ l.part = x.part ∧ l.lvl = lvl ∧ l.cmd = num ∧ l.rcd = r ∧
    l.obj = b.obj ∧ l.data = b.ent.data ∧ l.galley = g.id ∧ l.resid = g.resid ∧ l.start = s.now ∧ l.watch = 0 ∧ l.dom = dom ∧ l.status = .running ∧
    t.serial = s.serial + 1 ∧ t.mem = s.mem ∧ t.pend = s.pend ∧
    ∀ i, i ≠ s.serial → (s.launch? i = none → t.launch? i = none) ∧
      ∀ z, s.launch? i = some z → ∃ z', t.launch? i = some z' ∧ z' = { z with nextBlk := z'.nextBlk, waited := z'.waited }

end Sys2Proof.Machine
end

