-- ==== Sys2Proof/Certificates/Slice0/Obligations.lean ====
section
/-! DEFINITION. The statements for the provers. -/

open Sys2Proof Sys2Proof.Machine

/-! ### Arithmetic, logic, moves: each form delivers what its rule gives, and its frame is that of `Delivered` -/

/-- R221, R225: the two-operand instructions of the integer group. R221 to R224: the other instructions of the integer group. IADDI and IMULI read the sign-extended
immediate as any operand of the type. -/
def Obligations.IntegerResults : Prop :=
  (∀ (s : State) (c : Ctx) (hd : Hdr) (b : Block) (t : IT) (d x y : Opnd),
    let F (i : Instr) (f : Int → Int → LaneOut) : Prop := Form2 s c hd b i (some (opI t d)) (opI t x) (opI t y) fun _ u v => f (t.val u) (t.val v)
    (∀ sat, F (.iadd hd t sat d x y) fun u v => resultOf t sat (u + v)) ∧
    (∀ sat, F (.isub hd t sat d x y) fun u v => resultOf t sat (u - v)) ∧
    F (.imin hd t d x y) (fun u v => resultOf t false (min u v)) ∧
    F (.imax hd t d x y) (fun u v => resultOf t false (max u v)) ∧
    F (.imul hd t d x y) (fun u v => resultOf t false (u * v)) ∧
    F (.imulh hd t d x y) (fun u v => resultOf t false ((u * v).fdiv (2 ^ t.bits : Nat))) ∧
    F (.idiv hd t d x y) (fun u v => resultOf t false (if v = 0 then (if u < 0 then 1 else -1) else u.tdiv v)) ∧
    F (.irem hd t d x y) (fun u v => resultOf t false (if v = 0 then u else u.tmod v)) ∧
    ∀ k, F (.iscadd hd t d x y k) fun u v => resultOf t false (u * (2 ^ k : Nat) + v)) ∧
  (∀ (s : State) (c : Ctx) (hd : Hdr) (b : Block) (t : IT) (d x y z : Opnd),
    (∀ sat, Form1 s c hd b (.ineg hd t sat d x) (some (opI t d)) (opI t x) fun _ u => resultOf t sat (-(t.val u))) ∧
    (∀ sat, Form1 s c hd b (.iabs hd t sat d x) (some (opI t d)) (opI t x) fun _ u => resultOf t sat (t.val u).natAbs) ∧
    (∀ sat imm, Form1 s c hd b (.iaddi hd t sat d x imm) (some (opI t d)) (opI t x) fun _ u => resultOf t sat (t.val u + t.val (imm.signExtend 64))) ∧
    (∀ imm, Form1 s c hd b (.imuli hd t d x imm) (some (opI t d)) (opI t x) fun _ u => resultOf t false (t.val u * t.val (imm.signExtend 64))) ∧
    (∀ ci pc, Form2 s c hd b (.iaddc hd t ci pc d x y) (some (opI t d)) (opI t x) (opI t y) fun l u v =>
      let n := u.toNat % 2 ^ t.bits + v.toNat % 2 ^ t.bits + b2n (ci && c.g.pred l pc)
      { d := BitVec.ofNat 64 (n % 2 ^ t.bits), p := some (pc, decide (2 ^ t.bits ≤ n)) }) ∧
    Form3 s c hd b (.imad hd t d x y z) (some (opI t d)) (opI t x) (opI t y) (opI t z)
      (fun _ u v w => resultOf t false (t.val u * t.val v + t.val w)) ∧
    Form3 s c hd b (.isad hd t d x y z) (some (opI t d)) (opI t x) (opI t y) (opI t z)
      (fun _ u v w => resultOf t false ((t.val u - t.val v).natAbs + t.val w)) ∧
    Form3 s c hd b (.imadw hd t d x y z) (some (op2 d)) (op1 x) (op1 y) (op2 z)
      (fun _ u v w => { d := wrapTo 64 (t.val u * t.val v + w.toNat) }) ∧
    ∀ sa bs, Form3 s c hd b (.idp4 hd sa bs d x y z) (some (op1 d)) (op1 x) (op1 y) (op1 z) fun _ u v w =>
      { d := wrapTo 32 ((w.toNat % 2 ^ 32 : Nat) + (byteVal sa u 0 * byteVal bs v 0 + byteVal sa u 1 * byteVal bs v 1 +
        byteVal sa u 2 * byteVal bs v 2 + byteVal sa u 3 * byteVal bs v 3)) })

/-- R226, R232: bitwise operations, PICK, LOPI, MOV and MOVI. Results of 32-bit forms are the low 32 bits. R227: shifts and rotations, with the amount from a
register or constant. -/
def Obligations.BitwiseAndShiftResults : Prop :=
  (∀ (s : State) (c : Ctx) (hd : Hdr) (b : Block) (w : Bool) (d x y : Opnd),
    let out (r : DWord) : LaneOut := { d := wrapTo (bitsW w) r.toNat }
    let F (i : Instr) (f : DWord → DWord → DWord) : Prop := Form2 s c hd b i (some (opW w d)) (opW w x) (opW w y) fun _ u v => out (f u v)
    F (.and hd w d x y) (fun u v => u &&& v) ∧ F (.or hd w d x y) (fun u v => u ||| v) ∧ F (.xor hd w d x y) (fun u v => u ^^^ v) ∧
    F (.andn hd w d x y) (fun u v => u &&& ~~~ v) ∧ F (.orn hd w d x y) (fun u v => u ||| ~~~ v) ∧
    Form1 s c hd b (.not hd w d x) (some (opW w d)) (opW w x) (fun _ u => out (~~~ u)) ∧
    Form1 s c hd b (.mov hd w d x) (some (opW w d)) (opW w x) (fun _ u => out u) ∧
    (∀ imm, Form0 s c hd b (.movi hd w d imm) (some (opW w d)) fun _ => { d := imm }) ∧
    (∀ pc, Form2 s c hd b (.pick hd w d x y pc) (some (opW w d)) (opW w x) (opW w y) fun l u v => { d := if c.g.pred l pc then u else v }) ∧
    (∀ imm : Word, let m : DWord := imm.signExtend 64
      Form1 s c hd b (.lopi hd .and w d x imm) (some (opW w d)) (opW w x) (fun _ u => out (u &&& m)) ∧
      Form1 s c hd b (.lopi hd .or w d x imm) (some (opW w d)) (opW w x) (fun _ u => out (u ||| m)) ∧
      Form1 s c hd b (.lopi hd .xor w d x imm) (some (opW w d)) (opW w x) (fun _ u => out (u ^^^ m)) ∧
      Form1 s c hd b (.lopi hd .andn w d x imm) (some (opW w d)) (opW w x) (fun _ u => out (u &&& ~~~ m)))) ∧
  (∀ (s : State) (c : Ctx) (hd : Hdr) (b : Block) (w : Bool) (d x y z : Opnd),
    let n := bitsW w
    let F (i : ShAmt → Instr) (f : Nat → Nat → Int) : Prop :=
      Form2 s c hd b (i (.reg y)) (some (opW w d)) (opW w x) (op1 y) (fun _ u v => { d := wrapTo n (f (natW w u) (v.toNat % 2 ^ 32)) }) ∧
      ∀ k, Form1 s c hd b (i (.imm k)) (some (opW w d)) (opW w x) fun _ u => { d := wrapTo n (f (natW w u) k) }
    F (fun a => .shl hd w d x a) (fun u k => if k < n then (u * 2 ^ k : Nat) else 0) ∧
    F (fun a => .shr hd w d x a) (fun u k => if k < n then (u / 2 ^ k : Nat) else 0) ∧
    F (fun a => .sar hd w d x a) (fun u k => if k < n then (signed n u).fdiv (2 ^ k : Nat) else if signed n u < 0 then -1 else 0) ∧
    F (fun a => .rot hd w d x a) (fun u k => (u * 2 ^ (k % n) + u / 2 ^ (n - k % n) : Nat)) ∧
    Form3 s c hd b (.fshl hd w d x y z) (some (opW w d)) (opW w x) (opW w y) (op1 z) fun _ u v k =>
      { d := wrapTo n ((natW w u * 2 ^ n + natW w v) * 2 ^ (k.toNat % 2 ^ 32 % n) / 2 ^ n : Nat) })

/-- R226, R228, R229: fields, counts and permutations. -/
def Obligations.FieldResults : Prop :=
  ∀ (s : State) (c : Ctx) (hd : Hdr) (b : Block) (w : Bool) (t : IT) (d x y z : Opnd),
    let n := bitsW w
    Form3 s c hd b (.bfx hd t d x y z) (some (opI t d)) (opI t x) (op1 y) (op1 z) (fun _ u p l =>
      let pos := p.toNat % 256
      let e := min (pos + l.toNat % 256) t.bits
      let f := field u.toNat pos (e - pos)
      { d := if e ≤ pos then 0 else wrapTo t.bits (if t.signed then signed (e - pos) f else (f : Int)) }) ∧
    Form3 s c hd b (.bfi hd w d x y z) (some (opW w d)) (opW w x) (opW w y) (op1 z) (fun _ u v k =>
      let pos := k.toNat % 256
      let e := min (pos + field k.toNat 8 8) n
      { d := BitVec.ofNat 64 (if e ≤ pos then natW w u
          else natW w u - field (natW w u) pos (e - pos) * 2 ^ pos + v.toNat % 2 ^ (e - pos) * 2 ^ pos) }) ∧
    Form1 s c hd b (.popc hd w d x) (some (op1 d)) (opW w x)
      (fun _ u => { d := BitVec.ofNat 64 ((List.range n).filter fun i => u.getLsbD i).length }) ∧
    Form1 s c hd b (.clz hd w d x) (some (op1 d)) (opW w x)
      (fun _ u => { d := BitVec.ofNat 64 (if natW w u = 0 then n else n - 1 - Nat.log2 (natW w u)) }) ∧
    Form1 s c hd b (.ctz hd w d x) (some (op1 d)) (opW w x)
      (fun _ u => { d := BitVec.ofNat 64 (((List.range n).find? fun i => u.getLsbD i).getD n) }) ∧
    (∃ rev : DWord → DWord, (∀ u i, i < n → (rev u).getLsbD i = u.getLsbD (n - 1 - i)) ∧ (∀ u i, n ≤ i → (rev u).getLsbD i = false) ∧
      Form1 s c hd b (.brev hd w d x) (some (opW w d)) (opW w x) (fun _ u => { d := rev u })) ∧
    Form3 s c hd b (.prmt hd d x y z) (some (op1 d)) (op1 x) (op1 y) (op1 z) fun _ u v k =>
      let sel (i : Nat) : Nat := permByte (natW false u + natW false v * 2 ^ 32) (field k.toNat (4 * i) 4)
      { d := BitVec.ofNat 64 (sel 0 + sel 1 * 2 ^ 8 + sel 2 * 2 ^ 16 + sel 3 * 2 ^ 24) }

/-- R230, R231, R265, R274: instructions that write a predicate, and MOVP. A write to p0 is discarded (`newP`). -/
def Obligations.PredicateResults : Prop :=
  ∀ (s : State) (c : Ctx) (hd : Hdr) (b : Block) (t : IT) (d x y : Opnd) (pd pa pb : Nat),
    (∀ cmp : ICmp, Form2 s c hd b (.icmp hd cmp t pd x y) none (opI t x) (opI t y) fun _ u v =>
      { p := some (pd, match cmp with
          | .eq => decide (t.val u = t.val v) | .ne => decide (t.val u ≠ t.val v) | .lt => decide (t.val u < t.val v)
          | .le => decide (t.val u ≤ t.val v) | .gt => decide (t.val v < t.val u) | .ge => decide (t.val v ≤ t.val u)) }) ∧
    (∀ lut, Form0 s c hd b (.plut hd pd pa pb lut) none fun l =>
      { p := some (pd, lut / 2 ^ (2 * b2n (c.g.pred l pa) + b2n (c.g.pred l pb)) % 2 = 1) }) ∧
    Form0 s c hd b (.movp hd (.get d pa)) (some (op1 d)) (fun l => { d := BitVec.ofNat 64 (b2n (c.g.pred l pa)) }) ∧
    Form1 s c hd b (.movp hd (.put pd x)) none (op1 x) (fun _ u => { p := some (pd, decide (u.toNat % 2 ^ 32 ≠ 0)) }) ∧
    Form0 s c hd b (.movp hd (.getAll d)) (some (op1 d)) (fun l => { d := BitVec.ofNat 64 (c.g.predByte l) }) ∧
    (∀ l, c.g.predByte l = 1 + 2 * b2n (c.g.pred l 1) + 4 * b2n (c.g.pred l 2) + 8 * b2n (c.g.pred l 3) + 16 * b2n (c.g.pred l 4) +
      32 * b2n (c.g.pred l 5) + 64 * b2n (c.g.pred l 6) + 128 * b2n (c.g.pred l 7)) ∧
    ∀ cmp ft, Form2 s c hd b (.fcmp hd cmp ft pd x y) none (opF ft x) (opF ft y) fun _ u v =>
      let r := fCmp cmp (inF c.g.fpm ft x.cls u) (inF c.g.fpm ft y.cls v)
      { p := some (pd, r.1), fl := r.2 }

/-- R267, R268: conversions, PACK and UNPACK. An integer converted to F32 to nearest becomes the value of the format that is nearest to it, of two equally near ones
the even one (R139). -/
def Obligations.ConversionResults : Prop :=
  ∀ (s : State) (c : Ctx) (hd : Hdr) (b : Block) (d x y z : Opnd) (rm : RM),
    let r := rm.resolveCvt c.g.fpm
    (∀ dt st sat de8 se8, Form1 s c hd b (.cvtf hd dt st sat de8 se8 rm d x) (some (d, regsF dt)) (x, regsF st) fun _ u =>
      let one (e : Nat) : Nat × Word := cvtOne c.g.fpm dt st sat de8 se8 rm e
      if dt.x2 then
        { d := BitVec.ofNat 64 ((one (u.toNat % 2 ^ 16)).1 + (one (u.toNat / 2 ^ 16 % 2 ^ 16)).1 * 2 ^ 16),
          fl := (one (u.toNat % 2 ^ 16)).2 ||| (one (u.toNat / 2 ^ 16 % 2 ^ 16)).2 }
      else
        let o := one (if se8 then u.toNat % 256 else u.toNat % 2 ^ st.fm.bits)
        { d := BitVec.ofNat 64 o.1, fl := o.2 }) ∧
    (∀ t st, Form1 s c hd b (.cvtfi hd t st rm d x) (some (opI t d)) (x, regsF st) fun _ u =>
      let o := fToInt t r (inF c.g.fpm st .v u)
      { d := o.1, fl := o.2 }) ∧
    (∀ dt t, Form1 s c hd b (.cvtif hd dt t rm d x) (some (d, regsF dt)) (opI t x) fun _ u =>
      let o := outF dt c.g.fpm r (Mode.sat c.g.fpm dt false) (exInt (t.val u) 0 false)
      { d := BitVec.ofNat 64 o.1, fl := o.2 }) ∧
    (∀ ew k, Form3 s c hd b (.pack hd ew k d x y z) (some (op1 d)) (op1 x) (op1 y) (op1 z) fun _ u v w =>
      let e := EW.bits ew
      { d := BitVec.ofNat 64 (setElem e (setElem e (w.toNat % 2 ^ 32) (2 * k) u.toNat) (2 * k + 1) v.toNat) }) ∧
    (∀ ew sx j, Form1 s c hd b (.unpack hd ew sx j d x) (some (op1 d)) (op1 x) fun _ u =>
      let e := EW.bits ew
      let f := u.toNat / 2 ^ (e * j) % 2 ^ e
      { d := wrapTo 32 (if sx then signed e f else (f : Int)) }) ∧
    ∀ (t : IT) (u : DWord), Plain c.g.fpm → Nearest (t.val u) (outF .f32 c.g.fpm .rne (Mode.sat c.g.fpm .f32 false) (exInt (t.val u) 0 false)).1

/-- R269, R270, R271, R245, R282, R367, R370, R254, R250: reads of mode, flags, scale registers, the data base, queue states, counters, other lanes. The model's
choice (log entry 3): a counter whose events depend on the native schedule has moved on by a free amount when it is read. -/
def Obligations.SystemReadResults : Prop :=
  ∀ (s : State) (c : Ctx) (hd : Hdr) (b : Block) (d x y : Opnd),
    Form0 s c hd b (.rdmode hd false d) (some (op1 d)) (fun _ => { d := c.g.fpm.setWidth 64 }) ∧
    Form0 s c hd b (.rdmode hd true d) (some (op1 d)) (fun l => { d := (SMap.get c.g.fpst l).setWidth 64 }) ∧
    (∀ n, Form0 s c hd b (.rdsc hd d n) (some (op1 d)) fun _ => { d := (SMap.get c.g.sc n).setWidth 64 }) ∧
    (∀ imm, Form0 s c hd b (.addrg hd d imm) (some (op2 d)) fun _ => { d := c.l.data + imm.setWidth 64 }) ∧
    (∀ q, Form0 s c hd b (.qstat hd d q) (some (op1 d)) fun _ =>
      { d := match c.b.queue? q with | none => 0 | some y => BitVec.ofNat 64 (y.entries.length + y.depth * 2 ^ 16) }) ∧
    (∀ k, s.replayFrom c.l.part ≠ none ∨ counterListed k = false → Form0 s c hd b (.perfrd hd d k) (some (op2 d)) fun _ => { d := 0 }) ∧
    (s.replayFrom c.l.part = none → Form0 s c hd b (.perfrd hd d 39) (some (op2 d)) fun _ => { d := SMap.get s.arrays c.core }) ∧
    (∀ k, s.replayFrom c.l.part = none → counterListed k = true → k ≠ 39 → Form0 s c hd b (.perfrd hd d k) (some (op2 d)) fun _ =>
      { d := SMap.get s.counts (c.core * 64 + k) + if counterKept k then 0 else Config.counter s.fresh c.core k }) ∧
    (∀ mode w seg, Form1 s c hd b (.shfl hd mode w d x y seg) (some (opW w d)) (op1 y) fun l u =>
      let k := u.toNat % 2 ^ 32
      let s0 := l - l % seg
      let j : Nat × Bool := match mode with
        | .idx => (s0 + k % seg, true)
        | .up => (l - k, decide (k ≤ l - s0))
        | .down => (l + k, decide (l + k ≤ s0 + seg - 1))
        | .xor => (s0 + (BitVec.ofNat 64 (l - s0) ^^^ BitVec.ofNat 64 (k % seg)).toNat, true)
      { d := c.readReg s.fresh (regsW w) (if j.2 then j.1 else l) x }) ∧
    (∀ w, Form1 s c hd b (.rdlane hd w d x (.reg y)) (some (opW w d)) (op1 y) fun _ u =>
      { d := c.readReg s.fresh (regsW w) (u.toNat % 2 ^ 32 % c.width) x }) ∧
    ∀ w n, Form0 s c hd b (.rdlane hd w d x (.imm n)) (some (opW w d)) fun _ => { d := c.readReg s.fresh (regsW w) (n % c.width) x }

/-- R272 to R278: floating-point arithmetic and the elementary functions: sources read and flushed, the exact result, one rounding. FADD and FMUL of F32 values to
nearest give the value of the format that is nearest to the exact sum or product, of two equally near ones the even one (R139, R272). The model's choices: the
rounding mode of FMIN, FMAX, FMINM and FMAXM (log entry 9), what FTZI flushes in h registers (log entry 18), and inside the functions log entries 116 to 118.
R273, R274, R276 to R278: sign operations, FCLASS, FDOT2, reciprocals and the elementary functions, HMOV. The model's choices: what FTZI and FTZO do to h
registers (log entries 18 and 127), and the elementary results that stay open (log entry 20). -/
def Obligations.FloatResults : Prop :=
  (∀ (s : State) (c : Ctx) (hd : Hdr) (b : Block) (ft : FT) (rm : RM) (d x y z : Opnd),
    let m := c.g.fpm
    let r := rm.resolve m
    let O1 (i : Instr) (r : RM) (f : FV → EX × Word) : Prop :=
      Form1 s c hd b i (some (opF ft d)) (opF ft x) fun _ u => lanesF ft (scalarF ft m r d.cls [x.cls] (f1 f)) [u]
    let O2 (i : Instr) (r : RM) (f : FV → FV → EX × Word) : Prop :=
      Form2 s c hd b i (some (opF ft d)) (opF ft x) (opF ft y) fun _ u v => lanesF ft (scalarF ft m r d.cls [x.cls, y.cls] (f2 f)) [u, v]
    O2 (.fadd hd ft rm d x y) r (fAdd r) ∧ O2 (.fsub hd ft rm d x y) r (fun a b => fAdd r a b.minus) ∧
    O2 (.fmul hd ft rm d x y) r fMul ∧ O2 (.fdiv hd ft rm d x y) r fDiv ∧ O1 (.fsqrt hd ft rm d x) r fSqrt ∧
    Form3 s c hd b (.ffma hd ft rm d x y z) (some (opF ft d)) (opF ft x) (opF ft y) (opF ft z)
      (fun _ u v w => lanesF ft (scalarF ft m r d.cls [x.cls, y.cls, z.cls] (f3 (fFma r))) [u, v, w]) ∧
    O2 (.fmin hd ft d x y) (RM.dyn.resolve m) (fMinMax m true false) ∧ O2 (.fmax hd ft d x y) (RM.dyn.resolve m) (fMinMax m true true) ∧
    O2 (.fminm hd ft d x y) (RM.dyn.resolve m) (fMinMax m false false) ∧ O2 (.fmaxm hd ft d x y) (RM.dyn.resolve m) (fMinMax m false true) ∧
    (∀ ex, O1 (.frint hd ft rm ex d x) r fun v =>
      ((fRint r v).1.ex, flagIf v.isSnan flIV ||| flagIf (ex && (fRint r v).2) flNX)) ∧
    (Form2 s c hd b (.fscale hd ft rm d x y) (some (opF ft d)) (opF ft x) (op1 y) fun _ u k =>
      let o := scalarF ft m r d.cls [x.cls] (f1 (fScale (signed 32 k.toNat))) [u]
      { d := BitVec.ofNat 64 o.1, fl := o.2 }) ∧
    ∀ (u v : DWord) (p q : ℚ), Plain m → f32Val u.toNat = some p → f32Val v.toNat = some q →
      (|p + q| ≤ f32Max → Nearest (p + q) (scalarF .f32 m .rne .v [.v, .v] (f2 (fAdd .rne)) [u, v]).1) ∧
      (|p * q| ≤ f32Max → Nearest (p * q) (scalarF .f32 m .rne .v [.v, .v] (f2 fMul) [u, v]).1)) ∧
  (∀ (s : State) (c : Ctx) (hd : Hdr) (b : Block) (ft : FT) (rm : RM) (d x y z : Opnd),
    let m := c.g.fpm
    let r := rm.resolve m
    let S (i : Instr) (f : Bool → Bool) : Prop := Form1 s c hd b i (some (opF ft d)) (opF ft x) fun _ u =>
      lanesF ft (fun xs => match xs with | e :: _ => resign ft m d.cls x.cls (f (signBit ft x.cls e)) e | [] => (0, 0)) [u]
    let E (i : Instr) (n : Nat) (f : FV → Elem) : Prop := Form1 s c hd b i (some (op1 d)) (op1 x) fun _ u =>
      { d := BitVec.ofNat 64 (elemOut n d.cls m r u (f (inF m .f32 x.cls u))).1, fl := (elemOut n d.cls m r u (f (inF m .f32 x.cls u))).2 }
    S (.fabs hd ft d x) (fun _ => false) ∧ S (.fneg hd ft d x) (fun n => !n) ∧
    Form2 s c hd b (.fcpys hd ft d x y) (some (opF ft d)) (opF ft x) (opF ft y) (fun _ u v =>
      lanesF ft (fun xs => match xs with | [e, g] => resign ft m d.cls x.cls (signBit ft y.cls g) e | _ => (0, 0)) [u, v]) ∧
    Form1 s c hd b (.fclass hd ft d x) (some (op1 d)) (opF ft x) (fun _ u =>
      { d := BitVec.ofNat 64 (fClass (if x.cls = .h then decodeH u.toNat else decodeF ft u.toNat)
          (x.cls ≠ .h && field u.toNat ft.fm.f ft.fm.e = 0)) }) ∧
    Form3 s c hd b (.fdot2 hd ft rm d x y z) (some (op1 d)) (op1 x) (op1 y) (op1 z) (fun _ u v w =>
      let el (e : DWord) (i : Nat) : FV := inF m ft .v (BitVec.ofNat 64 (field e.toNat (16 * i) 16))
      let q := fDot2 r (el u 0) (el v 0) (el u 1) (el v 1) (inF m .f32 z.cls w)
      { d := BitVec.ofNat 64 (outR .f32 d.cls m r q.1).1, fl := q.2 ||| (outR .f32 d.cls m r q.1).2 }) ∧
    Form1 s c hd b (.frcp hd rm d x) (some (opF .f32 d)) (opF .f32 x)
      (fun _ u => lanesF .f32 (scalarF .f32 m r d.cls [x.cls] (f1 fRcp)) [u]) ∧
    Form1 s c hd b (.frsq hd rm d x) (some (opF .f32 d)) (opF .f32 x)
      (fun _ u => lanesF .f32 (scalarF .f32 m r d.cls [x.cls] (f1 fRsq)) [u]) ∧
    E (.fex2 hd rm d x) 0 eExp2 ∧ E (.flg2 hd rm d x) 1 eLog2 ∧ E (.fsinp hd rm d x) 2 eSinPi ∧ E (.fcosp hd rm d x) 3 eCosPi ∧
    E (.ftanh hd rm d x) 4 eTanh ∧ E (.fsigm hd rm d x) 5 eSigm ∧
    ∀ sat, Form1 s c hd b (.hmov hd ft rm sat d x) (some (opF ft d)) (opF ft x) fun _ u =>
      if d.cls = .h ∧ x.cls = .h then { d := u }
      else if d.cls = .h then { d := BitVec.ofNat 64 (outH (if ft = .f64 then m else m &&& ~~~ (0x40 : Word)) r (inF m ft .v u).ex).1 }
      else { d := BitVec.ofNat 64 (outF ft m r sat (inF m .f32 .h u).ex).1 })

/-- R177, R181, R182, R262, R265: Act, guards, and what an operand reads in a lane. -/
def Obligations.OperandsReadTheirRegisters : Prop :=
  ∀ (s : State) (c : Ctx) (hd : Hdr) (b : Block) (l n : Nat),
    (inMask (c.act hd) l = true ↔ inMask c.is.mask l = true ∧ c.g.pred l hd.gp ≠ hd.neg) ∧
    c.g.pred l 0 = true ∧
    (∀ os : List (Opnd × Nat), (∀ o ∈ os, o.1.cls ≠ .q) → c.fetch s.fresh b os = .ok b (os.map fun o l => c.readReg s.fresh o.2 l o.1)) ∧
    (c.g.hazard c.w64 n = false → c.readReg s.fresh 1 l ⟨.v, n⟩ = (SMap.get c.g.v (n * 64 + l)).setWidth 64) ∧
    (c.g.hazard c.w64 n = false → c.g.hazard c.w64 (n + 1) = false →
      c.readReg s.fresh 2 l ⟨.v, n⟩ = SMap.get c.g.v ((n + 1) * 64 + l) ++ SMap.get c.g.v (n * 64 + l)) ∧
    c.readReg s.fresh 1 l ⟨.s, n⟩ = (SMap.get c.g.s n).setWidth 64 ∧
    c.readReg s.fresh 2 l ⟨.s, n⟩ = SMap.get c.g.s (n + 1) ++ SMap.get c.g.s n ∧
    c.readReg s.fresh 1 l ⟨.h, n⟩ = SMap.get c.g.h (n * 64 + l)

/-- R129, R130: popping a queue source, and the stalls and the trap of queue operands, on MOV. R130: the group that stalls first on a queue tries again once the
queue has an entry, or room; until then nothing changes. -/
def Obligations.QueueOperandsPopPushAndStall : Prop :=
  (∀ (s : State) (c : Ctx) (hd : Hdr) (d : Opnd) (n : Nat), s.ctx? = some c → c.act hd ≠ 0 →
    (∀ q e es, c.b.queue? n = some q → q.entries = e :: es → c.b.behind c.is.gid.gi n false = false →
      c.fetch s.fresh c.b [(⟨.q, n⟩, 1)] = .ok (c.b.setQueue n es) [fun l => (SMap.get e l).setWidth 64]) ∧
    (c.b.queue? n = none → exec (.mov hd false d ⟨.q, n⟩) s = .next (illegalRun c (c.act hd) (c.act hd) s)) ∧
    (∀ q, c.b.queue? n = some q → q.entries = [] →
      ∃ t g y, exec (.mov hd false d ⟨.q, n⟩) s = .next t ∧ t.group? c.gid = some g ∧ g.qwait = true ∧ g.frags = c.g.frags ∧ SameRegs c.g g ∧
        t.block? c.gid.lid c.gid.blk = some y ∧ y.queues = c.b.queues ∧ (∃ e ∈ y.stalled, e.1 = c.gid.gi) ∧ SameElsewhere s t c.gid) ∧
    (∀ q x, c.b.queue? n = some q → q.depth ≤ q.entries.length → x.cls ≠ .q →
      ∃ t g y, exec (.mov hd false ⟨.q, n⟩ x) s = .next t ∧ t.group? c.gid = some g ∧ g.qwait = true ∧ g.frags = c.g.frags ∧ SameRegs c.g g ∧
        t.block? c.gid.lid c.gid.blk = some y ∧ y.queues = c.b.queues ∧ (∃ e ∈ y.stalled, e.1 = c.gid.gi) ∧ SameElsewhere s t c.gid)) ∧
  (∀ (s : State) (x : Gid) (g : Group) (b : Block) (n : Nat) (q : Queue) (push : Bool), s.group? x = some g → s.block? x.lid x.blk = some b →
    (b.stalled.find? fun y => y.1 = x.gi) = some (x.gi, n, push) → b.queue? n = some q → b.behind x.gi n push = false →
    ((if push then q.entries.length < q.depth else q.entries ≠ []) →
      ∃ t g', exec (.queueStallRelease x) s = .next t ∧ t.group? x = some g' ∧ g'.qwait = false ∧ g'.frags = g.frags ∧ SameRegs g g' ∧
        t.blocks = s.blocks ∧ SameElsewhere s t x) ∧
    (¬ (if push then q.entries.length < q.depth else q.entries ≠ []) → Waits s (exec (.queueStallRelease x) s)))

/-! ### Control flow and special registers -/

/-- R207 to R209: NOP, BRA and BRX. R211, R212: CALL, CALLX and RET and the return stacks. -/
def Obligations.BranchesCallsAndReturns : Prop :=
  (∀ (s : State) (c : Ctx) (hd : Hdr), s.ctx? = some c →
    let go (t : Nat → Int) (l : Nat) : Word := if inMask (c.act hd) l then BitVec.ofInt 32 (t l) else c.after
    Moves s c (fun _ => c.after) (exec (.nop hd) s) ∧
    (∀ (u : Bool) (disp : BitVec 40), let T : Int := c.is.pc.toNat + 8 * disp.toInt
      c.act hd ≠ 0 → (u = true → Uniform c hd fun _ => T) → ValidPc c T → Moves s c (go fun _ => T) (exec (.bra hd u disp) s)) ∧
    (∀ (u : Bool) (a : Opnd), let T (l : Nat) : Int := (c.readReg s.fresh 1 l a).toNat
      c.act hd ≠ 0 → (u = true → Uniform c hd T) → (∀ l, inMask (c.act hd) l = true → ValidPc c (T l)) →
      Moves s c (go T) (exec (.brx hd u a) s)) ∧
    ∀ u disp a, c.act hd = 0 → Moves s c (fun _ => c.after) (exec (.bra hd u disp) s) ∧
      ((u = true → hd.gp = 0 ∧ hd.neg = true ∨ Uniform c hd fun l => (c.readReg s.fresh 1 l a).toNat) → Moves s c (fun _ => c.after) (exec (.brx hd u a) s))) ∧
  (∀ (s : State) (c : Ctx) (hd : Hdr), s.ctx? = some c →
    let act (l : Nat) : Bool := inMask (c.act hd) l
    let Pushed (T : Nat → Int) (o : Host.Outcome State Fault Refusal) : Prop :=
      ∃ t g, o = .next t ∧ Moved s c (fun l => if act l then BitVec.ofInt 32 (T l) else c.after) t g ∧
        ∀ l, g.stack l = if act l then c.after :: c.g.stack l else c.g.stack l
    let room : Prop := ∀ l, act l = true → (c.g.stack l).length < 256
    (∀ disp : BitVec 40, let T : Int := c.is.pc.toNat + 8 * disp.toInt
      c.act hd ≠ 0 → ValidPc c T → room → Pushed (fun _ => T) (exec (.call hd disp) s)) ∧
    (∀ a, let T (l : Nat) : Int := (c.readReg s.fresh 1 l a).toNat
      c.act hd ≠ 0 → (∀ l, act l = true → ValidPc c (T l)) → room → Pushed T (exec (.callx hd a) s)) ∧
    ((∀ l, act l = true → c.g.stack l ≠ []) →
      ∃ t g, exec (.ret hd) s = .next t ∧ Moved s c (fun l => if act l then (c.g.stack l).headD 0 else c.after) t g ∧
        ∀ l, g.stack l = if act l then (c.g.stack l).drop 1 else c.g.stack l))

/-- R213, R217, R218: LOOP, YIELD, PAUSE and the end of a PAUSE. -/
def Obligations.LoopYieldPause : Prop :=
  ∀ (s : State) (c : Ctx) (hd : Hdr), s.ctx? = some c →
    (∀ (d : Opnd) (disp : Word), d.cls = .v ∨ d.cls = .s → ClearOfMatrix c (some (d, 1)) →
      let cnt (l : Nat) : Word := (c.readReg s.fresh 1 l d).setWidth 32 - 1
      let takes (l : Nat) : Prop := inMask (c.act hd) l = true ∧ cnt l ≠ 0
      let T : Int := c.is.pc.toNat + 8 * disp.toInt
      ((∃ l, takes l) → ValidPc c T) →
      ∃ t g, exec (.loop hd d disp) s = .next t ∧ t.group? c.gid = some g ∧
        (∀ l, inMask c.is.mask l = true → (takes l → g.stands l (BitVec.ofInt 32 T)) ∧ (¬ takes l → g.stands l c.after)) ∧
        (∀ r l, l < 64 → SMap.get g.v (r * 64 + l) = newV c (c.act hd) (some (d, 1)) (fun l => { d := (cnt l).setWidth 64 }) r l) ∧
        (c.act hd ≠ 0 → ∀ r, SMap.get g.s r = newS c (c.act hd) (some (d, 1)) (fun l => { d := (cnt l).setWidth 64 }) r) ∧
        g.h = c.g.h ∧ g.p = c.g.p ∧ g.sc = c.g.sc ∧ g.fpm = c.g.fpm ∧ g.fpst = c.g.fpst ∧ g.rets = c.g.rets ∧
        t.blocks = s.blocks ∧ SameElsewhere s t c.gid) ∧
    Moves s c (fun _ => c.after) (exec (.yield hd) s) ∧
    (∀ n, ∃ t g, exec (.pause hd n) s = .next t ∧ Moved s c (fun _ => c.after) t g ∧
      g.pause = if c.act hd = 0 ∨ n = 0 then c.g.pause else some n) ∧
    ∀ x g, s.group? x = some g →
      ∃ t g', exec (.pauseEnd x) s = .next t ∧ t.group? x = some g' ∧ g'.pause = (if g.pause = some 0 then none else g.pause) ∧
        SameRegs g g' ∧ g'.frags = g.frags ∧ SameElsewhere s t x

/-- R157, R264: MOVS writes the words of the special register to consecutive registers, lowest first; nothing else changes. R157, R309, R140: the values of the
special registers. -/
def Obligations.SpecialRegisters : Prop :=
  (∀ (s : State) (c : Ctx) (hd : Hdr) (d : Opnd) (r : SReg), s.ctx? = some c → d.cls = .v ∨ d.cls = .s →
    (d.cls = .v → ∀ q, c.g.hazard c.w64 q = false) →
    let act (l : Nat) : Prop := inMask (c.act hd) l = true
    let j := (lanes (c.act hd)).headD 0
    ∃ t g, exec (.movs hd d r) s = .next t ∧ Landed s c (fun _ => c.after) t g ∧ t.blocks = s.blocks ∧
      (∀ q l, l < 64 → SMap.get g.v (q * 64 + l) =
        if d.cls = .v ∧ act l ∧ d.n ≤ q then ((c.special s l r)[q - d.n]?).getD (SMap.get c.g.v (q * 64 + l)) else SMap.get c.g.v (q * 64 + l)) ∧
      (∀ q, SMap.get g.s q =
        if d.cls = .s ∧ c.act hd ≠ 0 ∧ d.n ≤ q then ((c.special s j r)[q - d.n]?).getD (SMap.get c.g.s q) else SMap.get c.g.s q) ∧
      g.h = c.g.h ∧ g.p = c.g.p ∧ g.sc = c.g.sc ∧ g.fpm = c.g.fpm ∧ g.fpst = c.g.fpst) ∧
  (∀ (s : State) (c : Ctx) (l : Nat),
    let one (n : Nat) : List Word := [BitVec.ofNat 32 n]
    let t := look 0 c.g.tids l
    let r := c.l.rcd
    c.special s l .tidx = one (t % r.bx) ∧ c.special s l .tidy = one (t / r.bx % r.byy) ∧ c.special s l .tidz = one (t / r.bx / r.byy) ∧
    c.special s l .lane = one l ∧ c.special s l .gwidth = one (if c.l.w64 then 64 else 32) ∧ c.special s l .group = one c.gid.gi ∧
    c.special s l .blkx = one (c.gid.blk % r.gx) ∧ c.special s l .blky = one (c.gid.blk / r.gx % r.gy) ∧
    c.special s l .blkz = one (c.gid.blk / r.gx / r.gy) ∧ c.special s l .core = one c.b.core ∧ c.special s l .bulkhead = one (c.b.core / 32) ∧
    c.special s l .world = one c.l.world ∧
    c.special s l .amask = (if c.l.w64 then words2 c.is.mask.toNat else [BitVec.ofNat 32 c.is.mask.toNat]) ∧
    c.special s l .fpm = [c.g.fpm] ∧ c.special s l .fpst = [SMap.get c.g.fpst l] ∧
    (s.replayFrom c.l.part = none → c.special s l .time = words2 s.now ∧
      c.special s l .cycle = words2 (s.cycles - (SMap.get s.cycBase c.b.core).toNat)) ∧
    (∀ p t0 c0, s.part? c.l.part = some p → p.replayOn = some (t0, c0) → c.special s l .time = words2 (t0 + p.lockTurn) ∧
      c.special s l .cycle = words2 p.lockTurn) ∧
    c.special s l .tcause = [c.g.frame.cause] ∧ c.special s l .tpc = [c.g.frame.pc] ∧
    c.special s l .tmask = (if c.l.w64 then words2 c.g.frame.mask.toNat else [BitVec.ofNat 32 c.g.frame.mask.toNat]) ∧
    c.special s l .taddr = words2 (SMap.get c.g.frame.addr l).toNat ∧ c.special s l .tinfo = words2 c.g.frame.info.toNat ∧
    c.special s l .tinst = words2 (c.g.frame.inst.toNat % 2 ^ 64) ++ words2 (c.g.frame.inst.toNat / 2 ^ 64))

/-- R140, R145, R265, R269, R270: WRMODE, WRSC and the write of all predicates. R254, R169, R261: WRLANE writes one lane that holds a live thread; GETTIME gives the
package time. -/
def Obligations.ModeFlagPredicateAndLaneWrites : Prop :=
  (∀ (s : State) (c : Ctx) (hd : Hdr) (a : Opnd), s.ctx? = some c → c.act hd ≠ 0 →
    let act (l : Nat) : Bool := inMask (c.act hd) l
    let j := (lanes (c.act hd)).headD 0
    (∀ b u, c.fetch s.fresh c.b [(a, 1)] = .ok b [u] →
      ∃ t g, exec (.wrmode hd false a) s = .next t ∧ Landed s c (fun _ => c.after) t g ∧ g.fpm = modeWord ((u j).setWidth 32) ∧
        g.v = c.g.v ∧ g.s = c.g.s ∧ g.h = c.g.h ∧ g.p = c.g.p ∧ g.sc = c.g.sc ∧ g.fpst = c.g.fpst) ∧
    (∀ x : Word, modeWord x =
      (if x &&& 7 = 0 ∨ x &&& 7 = 6 ∨ x &&& 7 = 7 then x &&& 0xF78 ||| 1 else x &&& 0xF7F)) ∧
    (∀ b u, c.fetch s.fresh c.b [(a, 1)] = .ok b [u] →
      ∃ t g, exec (.wrmode hd true a) s = .next t ∧ Landed s c (fun _ => c.after) t g ∧
        (∀ l, SMap.get g.fpst l = if act l then (u l).setWidth 32 &&& 31 else SMap.get c.g.fpst l) ∧
        g.v = c.g.v ∧ g.s = c.g.s ∧ g.h = c.g.h ∧ g.p = c.g.p ∧ g.sc = c.g.sc ∧ g.fpm = c.g.fpm) ∧
    (∀ sc, a.cls = .s →
      ∃ t g, exec (.wrsc hd sc a) s = .next t ∧ Landed s c (fun _ => c.after) t g ∧
        (∀ r, SMap.get g.sc r = if r = sc then SMap.get c.g.s a.n else SMap.get c.g.sc r) ∧
        g.v = c.g.v ∧ g.s = c.g.s ∧ g.h = c.g.h ∧ g.p = c.g.p ∧ g.fpst = c.g.fpst ∧ g.fpm = c.g.fpm) ∧
    (∀ b u, c.fetch s.fresh c.b [(a, 1)] = .ok b [u] →
      ∃ t g, exec (.movp hd (.putAll a)) s = .next t ∧ Landed s c (fun _ => c.after) t g ∧
        (∀ l i, i < 8 → g.pred l i = if act l ∧ i ≠ 0 then (u l).getLsbD i else c.g.pred l i) ∧
        g.v = c.g.v ∧ g.s = c.g.s ∧ g.h = c.g.h ∧ g.sc = c.g.sc ∧ g.fpst = c.g.fpst ∧ g.fpm = c.g.fpm)) ∧
  (∀ (s : State) (c : Ctx) (hd : Hdr) (d a : Opnd), s.ctx? = some c → c.act hd ≠ 0 → (∀ q, c.g.hazard c.w64 q = false) →
    let j := (lanes (c.act hd)).headD 0
    (∀ b : LaneSel, d.cls = .v →
      let k := (match b with | .reg o => (c.readReg s.fresh 1 j o).toNat % 2 ^ 32 | .imm n => n) % c.width
      ∃ t g, exec (.wrlane hd d a b) s = .next t ∧ Landed s c (fun _ => c.after) t g ∧ t.blocks = s.blocks ∧
        (∀ q l, l < 64 → SMap.get g.v (q * 64 + l) =
          if inMask c.g.live k ∧ l = k ∧ q = d.n then (c.readReg s.fresh 1 j a).setWidth 32 else SMap.get c.g.v (q * 64 + l)) ∧
        g.s = c.g.s ∧ g.h = c.g.h ∧ g.p = c.g.p ∧ g.sc = c.g.sc ∧ g.fpm = c.g.fpm ∧ g.fpst = c.g.fpst) ∧
    (∀ ord : Bool, d.cls = .v ∨ d.cls = .s → (ord = true → s.settled c.gid (c.act hd) = true) →
      let out (_ : Nat) : LaneOut := { d := BitVec.ofNat 64 (s.timeOf c.l.part) }
      ∃ t g, exec (.gettime hd ord d) s = .next t ∧ Landed s c (fun _ => c.after) t g ∧ t.blocks = s.blocks ∧
        (∀ r l, l < 64 → SMap.get g.v (r * 64 + l) = newV c (c.act hd) (some (d, 2)) out r l) ∧
        (∀ r, SMap.get g.s r = newS c (c.act hd) (some (d, 2)) out r) ∧
        g.h = c.g.h ∧ g.p = c.g.p ∧ g.sc = c.g.sc ∧ g.fpm = c.g.fpm ∧ g.fpst = c.g.fpst) ∧
    (s.settled c.gid (c.act hd) = false → exec (.gettime hd true d) s = .next s))

/-- R266: RDREG and WRREG inside a handler. A register number above the limit of its class is ILLEGAL on its lanes. -/
def Obligations.RegistersByNumber : Prop :=
  ∀ (s : State) (c : Ctx) (hd : Hdr) (a x : Opnd), s.ctx? = some c → c.g.handler ≠ none →
    let act (l : Nat) : Bool := inMask (c.act hd) l
    let j := (lanes (c.act hd)).headD 0
    let n (l : Nat) : Nat := (c.readReg s.fresh 1 l a).toNat
    let within (m : Nat) : Prop := ∀ l, act l = true → n l ≤ m
    (∀ cl (val : Nat → List Word), within (RegSel.limit cl) → (∀ q, c.g.hazard c.w64 q = false) → x.cls = .v →
      (∀ l, val l = match cl with
        | .v => [SMap.get c.g.v (n l * 64 + l)]
        | .s => [SMap.get c.g.s (n l)]
        | .h => words2 (SMap.get c.g.h (n l * 64 + l)).toNat
        | .p => [if c.g.pred l (n l) then 1 else 0]
        | .sc => [SMap.get c.g.sc (n l)]) →
      ∃ t g, exec (.rdreg hd cl x a) s = .next t ∧ Landed s c (fun _ => c.after) t g ∧
        (∀ q l, l < 64 → SMap.get g.v (q * 64 + l) =
          if act l ∧ x.n ≤ q then ((val l)[q - x.n]?).getD (SMap.get c.g.v (q * 64 + l)) else SMap.get c.g.v (q * 64 + l)) ∧
        g.s = c.g.s ∧ g.h = c.g.h ∧ g.p = c.g.p ∧ g.sc = c.g.sc ∧ g.fpm = c.g.fpm ∧ g.fpst = c.g.fpst) ∧
    (within 65535 → (∀ q, c.g.hazard c.w64 q = false) →
      ∃ t g, exec (.wrreg hd .v a x) s = .next t ∧ Landed s c (fun _ => c.after) t g ∧
        (∀ q l, l < 64 → SMap.get g.v (q * 64 + l) = if act l ∧ q = n l then (c.readReg s.fresh 1 l x).setWidth 32 else SMap.get c.g.v (q * 64 + l)) ∧
        g.s = c.g.s ∧ g.h = c.g.h ∧ g.p = c.g.p ∧ g.sc = c.g.sc ∧ g.fpm = c.g.fpm ∧ g.fpst = c.g.fpst) ∧
    (within 7 →
      ∃ t g, exec (.wrreg hd .p a x) s = .next t ∧ Landed s c (fun _ => c.after) t g ∧
        (∀ l i, i < 8 → g.pred l i = if act l ∧ i = n l ∧ i ≠ 0 then (c.readReg s.fresh 1 l x).getLsbD 0 else c.g.pred l i) ∧
        g.v = c.g.v ∧ g.s = c.g.s ∧ g.h = c.g.h ∧ g.sc = c.g.sc ∧ g.fpm = c.g.fpm ∧ g.fpst = c.g.fpst) ∧
    (within 7 →
      ∃ t g, exec (.wrreg hd .h a x) s = .next t ∧ Landed s c (fun _ => c.after) t g ∧
        (∀ q l, l < 64 → SMap.get g.h (q * 64 + l) = if act l ∧ q = n l then hImage (c.readReg s.fresh 2 l x) else SMap.get c.g.h (q * 64 + l)) ∧
        g.v = c.g.v ∧ g.s = c.g.s ∧ g.p = c.g.p ∧ g.sc = c.g.sc ∧ g.fpm = c.g.fpm ∧ g.fpst = c.g.fpst) ∧
    (within 65535 → c.act hd ≠ 0 →
      ∃ t g, exec (.wrreg hd .s a x) s = .next t ∧ Landed s c (fun _ => c.after) t g ∧
        (∀ q, SMap.get g.s q = if q = n j then (c.readReg s.fresh 1 j x).setWidth 32 else SMap.get c.g.s q) ∧
        g.v = c.g.v ∧ g.h = c.g.h ∧ g.p = c.g.p ∧ g.sc = c.g.sc ∧ g.fpm = c.g.fpm ∧ g.fpst = c.g.fpst) ∧
    (within 15 → c.act hd ≠ 0 →
      ∃ t g, exec (.wrreg hd .sc a x) s = .next t ∧ Landed s c (fun _ => c.after) t g ∧
        (∀ q, SMap.get g.sc q = if q = n j then (c.readReg s.fresh 1 j x).setWidth 32 else SMap.get c.g.sc q) ∧
        g.v = c.g.v ∧ g.s = c.g.s ∧ g.h = c.g.h ∧ g.p = c.g.p ∧ g.fpm = c.g.fpm ∧ g.fpst = c.g.fpst) ∧
    ∀ cl : RegSel, let top : Nat := match cl with | .v | .s => 65535 | .h | .p => 7 | .sc => 15
      ¬ within top → ∃ m, (∀ l, inMask m l = true ↔ act l = true ∧ top < n l) ∧ TrapsIllegal s c m (c.act hd) (exec (.rdreg hd cl x a) s) ∧
        TrapsIllegal s c m (c.act hd) (exec (.wrreg hd cl a x) s)

/-- R177: an instruction whose guard holds in no lane of the fragment only goes on. RDREG, WRREG and TRET fault outside a handler whatever their guard (R266, R220),
the collectives pass their lanes (R170), the matrix instructions take no guard (R279), and BRX.U compares the targets of every lane (R209). -/
def Obligations.EmptyActOnlyGoesOn : Prop :=
  ∀ (s : State) (c : Ctx) (i : Instr), s.ctx? = some c →
    (match i with
      | .emul hd .. => c.act hd = 0
      | .rdreg .. | .wrreg .. | .tret .. | .vote .. | .matchl .. | .redux .. | .fredux .. | .scan .. | .fscan .. | .elect .. | .mma .. | .mmas .. | .mmasp ..
      | .mzero .. => False
      | .brx hd true _ => c.act hd = 0 ∧ hd.gp = 0 ∧ hd.neg = true
      | _ => i.isProgram = true ∧ c.act i.flds.hd = 0) →
    ∃ t g, exec i s = .next t ∧ t.group? c.gid = some g ∧ (∀ l, inMask c.is.mask l = true → g.stands l c.after) ∧ SameRegs c.g g ∧
      g.live = c.g.live ∧ g.handler = c.g.handler ∧ g.frame = c.g.frame ∧ t.mem = s.mem

/-! ### Traps -/

/-- R219, R194, R308 to R312: TRAP, BRK of a world without the debug right, and the emulation space take their traps. -/
def Obligations.TrapInstructionsTakeTheirTraps : Prop :=
  ∀ (s : State) (c : Ctx) (hd : Hdr), s.ctx? = some c → c.act hd ≠ 0 →
    (∀ code : Word, Traps s c Cause.trap (c.act hd) (c.act hd) (code.setWidth 64) (fun _ => 0) (exec (.trap hd code) s)) ∧
    (∀ code : Word, (∀ x, s.world? c.l.world = some x → x.granted = false) →
      Traps s c Cause.brk (c.act hd) (c.act hd) (code.setWidth 64) (fun _ => 0) (exec (.brk hd code) s)) ∧
    ∀ op body pre, Traps s c Cause.emul (c.act hd) (c.act hd) 0 (fun _ => 0) (exec (.emul hd op body pre) s)

/-- R165, R187, R208 to R213, R212, R220, R266: run-time faults of control flow: FETCH with the target as the failing address, UNIFORM on the lanes that differ from
the lowest lane, and ILLEGAL of a full or empty return stack, of TRET outside a handler and of RDREG and WRREG outside one. -/
def Obligations.ControlFlowFaults : Prop :=
  ∀ (s : State) (c : Ctx) (hd : Hdr), s.ctx? = some c → c.act hd ≠ 0 →
    let act (l : Nat) : Prop := inMask (c.act hd) l = true
    let Fetches (T : Nat → Int) (o : Host.Outcome State Fault Refusal) : Prop :=
      ∃ m, (∀ l, inMask m l = true ↔ act l ∧ ¬ ValidPc c (T l)) ∧ Traps s c Cause.fetch m (c.act hd) 0 (fun l => BitVec.ofInt 64 (T l)) o
    let Differs (T : Nat → Int) (o : Host.Outcome State Fault Refusal) : Prop :=
      let j := (lanes c.is.mask).headD 0
      ∃ m, (∀ l, inMask m l = true ↔ inMask c.is.mask l = true ∧ (inMask (c.act hd) l ≠ inMask (c.act hd) j ∨ T l ≠ T j)) ∧
        Traps s c Cause.uniform m (c.act hd) 0 (fun _ => 0) o
    let Bad (P : Nat → Prop) (o : Host.Outcome State Fault Refusal) : Prop :=
      ∃ m, (∀ l, inMask m l = true ↔ act l ∧ P l) ∧ TrapsIllegal s c m (c.act hd) o
    (∀ (u : Bool) (disp : BitVec 40), let T : Int := c.is.pc.toNat + 8 * disp.toInt
      (u = true → ¬ Uniform c hd (fun _ => T) → Differs (fun _ => T) (exec (.bra hd u disp) s)) ∧
      ((u = true → Uniform c hd fun _ => T) → ¬ ValidPc c T → Fetches (fun _ => T) (exec (.bra hd u disp) s))) ∧
    (∀ (u : Bool) (a : Opnd), let T (l : Nat) : Int := (c.readReg s.fresh 1 l a).toNat
      (u = true → ¬ Uniform c hd T → Differs T (exec (.brx hd u a) s)) ∧
      ((u = true → Uniform c hd T) → (∃ l, act l ∧ ¬ ValidPc c (T l)) → Fetches T (exec (.brx hd u a) s))) ∧
    (∀ disp : BitVec 40, let T : Int := c.is.pc.toNat + 8 * disp.toInt
      (¬ ValidPc c T → Fetches (fun _ => T) (exec (.call hd disp) s)) ∧
      (ValidPc c T → (∃ l, act l ∧ 256 ≤ (c.g.stack l).length) → Bad (fun l => 256 ≤ (c.g.stack l).length) (exec (.call hd disp) s))) ∧
    (∀ a, let T (l : Nat) : Int := (c.readReg s.fresh 1 l a).toNat
      ((∃ l, act l ∧ ¬ ValidPc c (T l)) → Fetches T (exec (.callx hd a) s)) ∧
      ((∀ l, act l → ValidPc c (T l)) → (∃ l, act l ∧ 256 ≤ (c.g.stack l).length) →
        Bad (fun l => 256 ≤ (c.g.stack l).length) (exec (.callx hd a) s))) ∧
    ((∃ l, act l ∧ c.g.stack l = []) → Bad (fun l => c.g.stack l = []) (exec (.ret hd) s)) ∧
    (c.g.handler = none → (∀ next, TrapsIllegal s c c.is.mask c.is.mask (exec (.tret hd next) s)) ∧
      (∀ cl d a, TrapsIllegal s c c.is.mask c.is.mask (exec (.rdreg hd cl d a) s)) ∧
      ∀ cl d a, TrapsIllegal s c c.is.mask c.is.mask (exec (.wrreg hd cl d a) s))

/-- R311, Table 12-1: which handler takes a cause. UNCORRECTABLE has none; EMUL goes to the emulation handler when it is enabled and the kernel has one; every other
cause, and EMUL otherwise, goes to the trap handler when it is enabled and the kernel has one. -/
def Obligations.HandlerOfACause : Prop :=
  ∀ (l : Launch) (cause : Nat),
    let trapEn : Prop := l.rcd.flags.getLsbD 3 = true ∧ l.obj.kernel.traph ≠ 0xFFFFFFFF
    let emulEn : Prop := l.rcd.flags.getLsbD 4 = true ∧ l.obj.kernel.emulh ≠ 0xFFFFFFFF
    (cause = 0x09 → l.handlerOf cause = none) ∧
    (cause = 0x02 → emulEn → l.handlerOf cause = some l.obj.kernel.emulh) ∧
    (cause ≠ 0x09 → ¬ (cause = 0x02 ∧ emulEn) → trapEn → l.handlerOf cause = some l.obj.kernel.traph) ∧
    (cause ≠ 0x09 → ¬ (cause = 0x02 ∧ emulEn) → ¬ trapEn → l.handlerOf cause = none)

/-- R220: once every lane of the handler waits at its TRET, the handler ends and every lane stands at %tpc, or with TRET.NEXT past the instruction there. -/
def Obligations.TretResumes : Prop :=
  ∀ (s : State) (c : Ctx) (hd : Hdr) (next : Bool) (h : Handler), Alone s c hd → c.g.handler = some h → h.lanes = c.is.mask →
    let resume := if next then c.g.frame.pc + BitVec.ofNat 32 h.len else c.g.frame.pc
    ∃ t g, exec (.tret hd next) s = .next t ∧ t.group? c.gid = some g ∧ g.handler = none ∧
      (∀ l, inMask c.is.mask l = true → g.stands l resume) ∧ SameRegs c.g g ∧ g.rets = c.g.rets ∧ g.live = c.g.live ∧ g.frame = c.g.frame ∧
      t.blocks = s.blocks ∧ SameElsewhere s t c.gid

/-- R219, R361: BRK of a world that holds the debug right is a debugger stop of the group: nothing of the group's program state changes and no lane moves. -/
def Obligations.BrkUnderTheDebugRightStops : Prop :=
  ∀ (s : State) (c : Ctx) (hd : Hdr) (code : Word) (x : World), s.ctx? = some c → c.act hd ≠ 0 → s.world? c.l.world = some x → x.granted = true →
    c.g.stop = none → c.g.mats = [] →
    ∃ t g y, exec (.brk hd code) s = .next t ∧ t.group? c.gid = some g ∧ g.stop = some y ∧ y.reason = .brk ∧ y.mask = c.is.mask ∧ y.pc = c.is.pc ∧
      y.time = BitVec.ofNat 64 s.now ∧ y.inHandler = c.g.handler.isSome ∧ g.frags = c.g.frags ∧ SameRegs c.g g ∧ g.rets = c.g.rets ∧
      g.handler = c.g.handler ∧ g.frame = c.g.frame ∧ g.live = c.g.live

/-! ### Convergence, collectives, barriers -/

/-- R166 to R168, R215, R216: WAITR and SYNC. The lanes wait for their earlier writes; then they park, and when their members have arrived go on, WAITR with its
predicate set. R167, R312: at its deadline a lane that has not converged leaves its WAITR with pd = 0; the others go on waiting. While a handler or a debugger
stop keeps lanes parked they stay so (R312, R362). -/
def Obligations.WaitrAndSync : Prop :=
  (∀ (s : State) (c : Ctx) (hd : Hdr) (a : Opnd) (pd : Nat) (t : Timeout), s.ctx? = some c → c.act hd ≠ 0 →
    let n := match t with | .imm n => n | .reg r => (SMap.get c.g.s r).toNat
    let members (l : Nat) : Mask := c.readMask s.fresh l a
    (s.settled c.gid (c.act hd) = false → Waits s (exec (.waitr hd pd a t) s) ∧ Waits s (exec (.sync hd a) s)) ∧
    (s.settled c.gid (c.act hd) = true →
      exec (.waitr hd pd a t) s =
        .next (settle c.gid (parkAt c (c.act hd) (.waitr pd ((lanes (c.act hd)).map fun l => (l, members l, n))) s)) ∧
      exec (.sync hd a) s = .next (settle c.gid (parkAt c (c.act hd) (.sync ((lanes (c.act hd)).map fun l => (l, members l))) s))) ∧
    (∀ (m : Mask) (p : Park) (l : Nat), inMask m l = true → ∃ g, (parkAt c m p s).group? c.gid = some g ∧
      ∃ f ∈ g.frags, f.park.isSome = true ∧ f.pc = c.is.pc ∧ inMask f.mask l = true) ∧
    (Alone s c hd → c.g.handler = none →
      (∃ u g, exec (.waitr hd pd a t) s = .next u ∧ Landed s c (fun _ => c.after) u g ∧ u.blocks = s.blocks ∧
        (∀ l i, i < 8 → g.pred l i = if inMask c.is.mask l = true ∧ i = pd then true else c.g.pred l i) ∧
        g.v = c.g.v ∧ g.s = c.g.s ∧ g.h = c.g.h ∧ g.sc = c.g.sc ∧ g.fpm = c.g.fpm ∧ g.fpst = c.g.fpst) ∧
      Moves s c (fun _ => c.after) (exec (.sync hd a) s))) ∧
  (∀ (s : State) (x : Gid) (g : Group) (pc len pd : Nat) (ws : List (Nat × Mask × Nat)) (f : Frag),
    s.group? x = some g →
    f ∈ g.frags → f.pc.toNat = pc → (∀ y ∈ g.frags, y.pc = f.pc → y.park.isSome = true → y = f) →
    f.park = some (len, .waitr pd ws) → (∀ w ∈ ws, w.1 < 64 ∧ inMask f.mask w.1 = true) →
    (g.hlanes = 0 → g.stop = none →
      ∃ t g', exec (.waitrTimeout x pc) s = .next t ∧ t.group? x = some g' ∧
        (∀ w ∈ ws, w.2.2 = 0 → g'.stands w.1 (f.pc + BitVec.ofNat 32 len)) ∧
        (∀ l i, i < 8 → g'.pred l i = if (∃ w ∈ ws, w.1 = l ∧ w.2.2 = 0) ∧ i = pd ∧ i ≠ 0 then false else g.pred l i) ∧
        g'.v = g.v ∧ g'.s = g.s ∧ g'.h = g.h ∧ g'.live = g.live ∧ t.blocks = s.blocks ∧ SameElsewhere s t x) ∧
    (g.stop ≠ none ∨ g.hlanes ≠ 0 ∧ g.hlanes &&& f.mask = 0 → ∃ t g', exec (.waitrTimeout x pc) s = .next t ∧ t.group? x = some g' ∧ g'.frags = g.frags ∧ SameRegs g g'))

/-- R156, R214: EXIT. The last lanes of a lone group leave and the block ends with it; when other lanes live on, those of Act are live no longer and the others of
the fragment go on. -/
def Obligations.ExitEndsLanesGroupAndBlock : Prop :=
  ∀ (s : State) (c : Ctx) (hd : Hdr), c.g.handler = none → c.g.colls = [] → c.b.phases = [] → c.l.dom = none → s.ctx? = some c → c.act hd ≠ 0 →
    s.groupsOf c.gid.lid c.gid.blk = [c.g] → (∀ f ∈ c.g.frags, f.park = none) →
    (c.g.live &&& ~~~ (c.act hd) = 0 → c.g.mats = [] → s.chainsOf c.gid = [] → c.g.err = none →
      ∃ t, exec (.exit hd) s = .next t ∧ t.group? c.gid = none ∧ t.block? c.gid.lid c.gid.blk = none ∧ (∀ x, x ≠ c.gid → t.group? x = s.group? x) ∧
        t.mem = s.mem ∧ t.launches = s.launches ∧ t.pend.length = s.pend.length) ∧
    (c.g.live &&& ~~~ (c.act hd) ≠ 0 →
      ∃ t g, exec (.exit hd) s = .next t ∧ t.group? c.gid = some g ∧ g.live = c.g.live &&& ~~~ (c.act hd) ∧
        (∀ l, inMask c.is.mask l = true → inMask (c.act hd) l = false → g.stands l c.after) ∧ SameRegs c.g g ∧ g.rets = c.g.rets ∧
        t.blocks = s.blocks ∧ t.mem = s.mem ∧ t.launches = s.launches ∧ t.pend.length = s.pend.length ∧ ∀ x, x ≠ c.gid → t.group? x = s.group? x)

/-- R166, R170, R255: the collective operations deliver their results to every lane. -/
def Obligations.CollectivesDeliver : Prop :=
  ∀ (s : State) (c : Ctx) (hd : Hdr) (d a m : Opnd),
    (∀ mode dv pa, CollectiveDelivers s c hd (.vote hd mode dv pa m) m fun l => (0, c.g.pred l pa)) ∧
    (∀ all w dv, CollectiveDelivers s c hd (.matchl hd all w dv a m) m fun l => (c.readReg s.fresh (regsW w) l a, false)) ∧
    (∀ op t, CollectiveDelivers s c hd (.redux hd op t d a m) m fun l => (c.readReg s.fresh (regsW t.wide) l a, false)) ∧
    (∀ op t excl, CollectiveDelivers s c hd (.scan hd op t excl d a m) m fun l => (c.readReg s.fresh (regsW t.wide) l a, false)) ∧
    (∀ op ft rm, CollectiveDelivers s c hd (.fredux hd op ft rm d a m) m fun l => (c.readReg s.fresh (regsF ft) l a, false)) ∧
    (∀ op ft rm excl, CollectiveDelivers s c hd (.fscan hd op ft rm excl d a m) m fun l => (c.readReg s.fresh (regsF ft) l a, false)) ∧
    ∀ pd, CollectiveDelivers s c hd (.elect hd d pd m) m fun _ => (0, false)

/-- R255, R152: what the collectives give, from what the lanes of the fragment bring. FREDUX is the root of the tree of its leaves; FSCAN combines the nodes that
cover the leaves up to the lane, the largest first. -/
def Obligations.CollectiveResults : Prop :=
  ∀ (c : Ctx) (hd : Hdr) (d a m : Opnd) (v : Nat → DWord × Bool) (l : Nat), inMask c.is.mask l = true →
    (∀ k, inMask c.is.mask k = true → k < c.width) →
    let at_ := lanes c.is.mask
    let out (i : Instr) : LaneOut := collOut c.width (c.opened i v) l
    (∀ p pa, (out (.vote hd .any (.pred p) pa m)).p = some (p, at_.any fun k => (v k).2) ∧
      (out (.vote hd .all (.pred p) pa m)).p = some (p, at_.all fun k => (v k).2)) ∧
    (∀ o pa i, (out (.vote hd .ballot (.reg o) pa m)).d.getLsbD i = (inMask c.is.mask i && (v i).2)) ∧
    (∀ w p, (out (.matchl hd true w (.pred p) a m)).p = some (p, at_.all fun k => (v k).1 = (v l).1)) ∧
    (∀ w o i, (out (.matchl hd false w (.reg o) a m)).d.getLsbD i = (inMask c.is.mask i && decide ((v i).1 = (v l).1))) ∧
    (∀ op (t : IT), t.word = true → Reduces op t (at_.map fun k => (v k).1) (out (.redux hd op t d a m)).d ∧
      ∀ excl, Reduces op t ((at_.filter fun k => if excl then k < l else k ≤ l).map fun k => (v k).1) (out (.scan hd op t excl d a m)).d) ∧
    (∀ pd, (out (.elect hd d pd m)).d = BitVec.ofNat 64 (at_.headD 0) ∧
      (out (.elect hd d pd m)).p = some (pd, decide (l = at_.headD 0))) ∧
    ∀ op (ft : FT) rm, ∃ T : Nat → Nat → Nat,
      (∀ k, k < c.width → T 0 k = if inMask c.is.mask k = true then (v k).1.toNat % 2 ^ ft.fm.bits else fIdentity op ft) ∧
      (∀ n k, T (n + 1) k = (fNode op ft c.g.fpm (rm.resolve c.g.fpm) (T n (2 * k)) (T n (2 * k + 1))).1) ∧
      (out (.fredux hd op ft rm d a m)).d = BitVec.ofNat 64 (T (if c.w64 then 6 else 5) 0) ∧
      ∃ P : Nat → Nat, P 0 = fIdentity op ft ∧
        (∀ h n, 2 ^ (n + 1) ∣ h → h + 2 ^ n ≤ c.width → P (h + 2 ^ n) =
          if h = 0 then T n 0 else (fNode op ft c.g.fpm (rm.resolve c.g.fpm) (P h) (T n (h / 2 ^ n))).1) ∧
        ∀ excl, (out (.fscan hd op ft rm excl d a m)).d = BitVec.ofNat 64 (P (if excl then l else l + 1))

/-- R171, R172, R256: REGROUP.PAIR of a lone group finds no partner and gives pd = 0. R173, R256: REGROUP.BLOCK of a lone group packs the threads into the lowest
lanes, in lane order, each with its registers, predicates, return stack and index, and gives pd = 1. -/
def Obligations.RegroupOfALoneGroup : Prop :=
  (∀ (s : State) (c : Ctx) (hd : Hdr) (pd : Nat), Alone s c hd → c.g.handler = none → c.g.mats = [] → s.chainsOf c.gid = [] → c.g.err = none →
    s.retiredSettled c.gid false = true →
    ∃ t g, exec (.regroup hd false pd) s = .next t ∧ Landed s c (fun _ => c.after) t g ∧
      (∀ l i, i < 8 → g.pred l i = if inMask c.is.mask l = true ∧ i = pd ∧ i ≠ 0 then false else c.g.pred l i) ∧
      g.v = c.g.v ∧ g.s = c.g.s ∧ g.h = c.g.h ∧ g.sc = c.g.sc ∧ g.fpm = c.g.fpm ∧ g.fpst = c.g.fpst) ∧
  (∀ (s : State) (c : Ctx) (hd : Hdr) (pd : Nat), Alone s c hd → c.g.handler = none → c.g.mats = [] → s.chainsOf c.gid = [] → c.g.err = none →
    s.retiredSettled c.gid true = true → c.gid.gi < 32 → (∀ l, inMask c.is.mask l = true → l < c.width) →
    ∃ t g, exec (.regroup hd true pd) s = .next t ∧ t.group? c.gid = some g ∧
      (∀ k, inMask g.live k = true ↔ k < (lanes c.is.mask).length) ∧
      (∀ k l, (lanes c.is.mask)[k]? = some l → g.stands k c.after ∧ g.pred k pd = true ∧
        (∀ i, i < 8 → i ≠ pd → g.pred k i = c.g.pred l i) ∧ look 0 g.tids k = look 0 c.g.tids l ∧ g.stack k = c.g.stack l ∧
        ∀ r, SMap.get g.v (r * 64 + k) = SMap.get c.g.v (r * 64 + l) ∧ SMap.get g.h (r * 64 + k) = SMap.get c.g.h (r * 64 + l)) ∧
      g.s = c.g.s ∧ g.sc = c.g.sc ∧ g.fpm = c.g.fpm ∧ t.mem = s.mem)

/-- R248: BAR and BARARR with a count. Short of the count the phase is open with the arrivals made so far, and the lanes of a BAR wait there; the arrivals that
reach the count close it, and every lane goes on. R248: more arrivals than the phase still needs. The lowest lanes of Act complete the phase, and the lanes that
waited in it go on; the other lanes of Act make the first arrivals of the next phase, where those of a BAR wait. R248: a barrier with count 0 waits for every
live lane of the block. Lanes that arrive whole close the phase and go on; short of that it stays open with the lanes that have arrived, where those of a BAR
wait; a lane that arrives a second time is ILLEGAL. R248: a barrier instruction whose count differs from that of the open phase is ILLEGAL; before the lanes'
earlier writes have performed it waits. -/
def Obligations.BarriersWithACount : Prop :=
  (∀ (s : State) (c : Ctx) (hd : Hdr) (id count : Nat), s.ctx? = some c → c.act hd ≠ 0 → count ≠ 0 → s.settled c.gid (c.act hd) = true →
    let old := c.b.phases.find? fun p => p.id = id
    let made := match old with | some p => p.made | none => 0
    let n := made + popcount (c.act hd)
    (∀ p, old = some p → p.count = count) →
    let Open (waits : Bool) (o : Host.Outcome State Fault Refusal) : Prop :=
      ∃ t g y, o = .next t ∧ t.group? c.gid = some g ∧ t.block? c.gid.lid c.gid.blk = some y ∧
        (∃ p ∈ y.phases, p.id = id ∧ p.count = count ∧ p.made = n) ∧ (∀ p ∈ c.b.phases, p.id ≠ id → p ∈ y.phases) ∧
        (∀ l, inMask c.is.mask l = true → if waits ∧ inMask (c.act hd) l = true then
            ∃ f ∈ g.frags, f.park.isSome = true ∧ f.pc = c.is.pc ∧ inMask f.mask l = true
          else g.stands l c.after) ∧
        SameRegs c.g g ∧ SameElsewhere s t c.gid
    let Closed (o : Host.Outcome State Fault Refusal) : Prop :=
      ∃ t g y, o = .next t ∧ t.group? c.gid = some g ∧ t.block? c.gid.lid c.gid.blk = some y ∧
        (∀ p, p ∈ y.phases ↔ p ∈ c.b.phases ∧ p.id ≠ id) ∧ (∀ l, inMask c.is.mask l = true → g.stands l c.after) ∧
        (∀ x gx f k, s.group? x = some gx → x.lid = c.gid.lid → x.blk = c.gid.blk → x ≠ c.gid → gx.hlanes = 0 → gx.stop = none → f ∈ gx.frags →
          f.park = some (k, .bar id) → ∀ l, inMask f.mask l = true → ∃ gy, t.group? x = some gy ∧ gy.stands l (f.pc + BitVec.ofNat 32 k)) ∧
        SameRegs c.g g ∧ t.mem = s.mem ∧ t.pend = s.pend ∧ t.launches = s.launches
    (n < count → Open true (exec (.bar hd id count) s) ∧ Open false (exec (.bararr hd id count) s)) ∧
    (n = count → Closed (exec (.bar hd id count) s) ∧ Closed (exec (.bararr hd id count) s))) ∧
  (∀ (s : State) (c : Ctx) (hd : Hdr) (id count : Nat) (waits : Bool), s.ctx? = some c → c.act hd ≠ 0 → count ≠ 0 → s.settled c.gid (c.act hd) = true →
    let old := c.b.phases.find? fun p => p.id = id
    let n := (match old with | some p => p.made | none => 0) + popcount (c.act hd)
    (∀ p, old = some p → p.count = count) → count < n →
    ∃ t g y, exec (if waits then .bar hd id count else .bararr hd id count) s = .next t ∧ t.group? c.gid = some g ∧
      t.block? c.gid.lid c.gid.blk = some y ∧ (∀ p ∈ c.b.phases, p.id ≠ id → p ∈ y.phases) ∧
      (if n % count = 0 then ∀ p ∈ y.phases, p.id ≠ id else ∃ p ∈ y.phases, p.id = id ∧ p.count = count ∧ p.made = n % count) ∧
      (∀ i l, (lanes (c.act hd))[i]? = some l → if waits = true ∧ popcount (c.act hd) ≤ i + n % count then
          ∃ f ∈ g.frags, f.park.isSome = true ∧ f.pc = c.is.pc ∧ inMask f.mask l = true
        else g.stands l c.after) ∧
      (∀ l, inMask c.is.mask l = true → inMask (c.act hd) l = false → g.stands l c.after) ∧
      (∀ x gx f k, s.group? x = some gx → x.lid = c.gid.lid → x.blk = c.gid.blk → x ≠ c.gid → gx.hlanes = 0 → gx.stop = none → f ∈ gx.frags →
        f.park = some (k, .bar id) → ∀ l, inMask f.mask l = true → ∃ gy, t.group? x = some gy ∧ gy.stands l (f.pc + BitVec.ofNat 32 k)) ∧
      SameRegs c.g g ∧ t.mem = s.mem ∧ t.pend = s.pend ∧ t.launches = s.launches) ∧
  (∀ (s : State) (c : Ctx) (hd : Hdr) (id : Nat) (waits : Bool),
    let i : Instr := if waits then .bar hd id 0 else .bararr hd id 0
    (Alone s c hd → c.g.handler = none →
      ∃ t g y, exec i s = .next t ∧ Landed s c (fun _ => c.after) t g ∧ SameRegs c.g g ∧ t.block? c.gid.lid c.gid.blk = some y ∧ y.phases = []) ∧
    (s.ctx? = some c → c.act hd ≠ 0 → s.settled c.gid (c.act hd) = true → c.g.live &&& ~~~ (c.act hd) ≠ 0 → c.g.handler = none → c.g.colls = [] →
      c.b.phases = [] → c.l.dom = none → s.groupsOf c.gid.lid c.gid.blk = [c.g] → (∀ f ∈ c.g.frags, f.park = none) →
      ∃ t g y, exec i s = .next t ∧ t.group? c.gid = some g ∧ t.block? c.gid.lid c.gid.blk = some y ∧
        (∃ p, y.phases = [p] ∧ p.id = id ∧ p.count = 0 ∧ p.who = (lanes (c.act hd)).map fun l => (c.gid.gi, l)) ∧
        (∀ l, inMask c.is.mask l = true → if waits = true ∧ inMask (c.act hd) l = true then
            ∃ f ∈ g.frags, f.park.isSome = true ∧ f.pc = c.is.pc ∧ inMask f.mask l = true
          else g.stands l c.after) ∧
        SameRegs c.g g ∧ SameElsewhere s t c.gid) ∧
    ∀ p, s.ctx? = some c → c.act hd ≠ 0 → s.settled c.gid (c.act hd) = true → (c.b.phases.find? fun p => p.id = id) = some p → p.count = 0 →
      (∃ l, inMask (c.act hd) l = true ∧ (c.gid.gi, l) ∈ p.who) →
      ∃ m, (∀ l, inMask m l = true ↔ inMask (c.act hd) l = true ∧ (c.gid.gi, l) ∈ p.who) ∧ TrapsIllegal s c m (c.act hd) (exec i s)) ∧
  (∀ (s : State) (c : Ctx) (hd : Hdr) (id count : Nat), s.ctx? = some c → c.act hd ≠ 0 →
    (s.settled c.gid (c.act hd) = false → Waits s (exec (.bar hd id count) s) ∧ Waits s (exec (.bararr hd id count) s)) ∧
    (s.settled c.gid (c.act hd) = true → ∀ p, (c.b.phases.find? fun p => p.id = id) = some p → p.count ≠ count →
      TrapsIllegal s c (c.act hd) (c.act hd) (exec (.bar hd id count) s) ∧ TrapsIllegal s c (c.act hd) (c.act hd) (exec (.bararr hd id count) s)))

/-- R123, R124, R249: SSTEP, SSTARR and SSTWAIT of a group that has not yet arrived and does not arrive whole: SSTARR sets the flags of its lanes and they go on,
SSTEP sets them and its lanes wait, SSTWAIT waits with the lanes whose flag is set. In a launch without a beacon domain all three are ILLEGAL. -/
def Obligations.SuperstepsArriveAndWait : Prop :=
  ∀ (s : State) (c : Ctx) (hd : Hdr), s.ctx? = some c → c.act hd ≠ 0 → c.g.err = none →
    (c.l.dom = none → TrapsIllegal s c (c.act hd) (c.act hd) (exec (.sstep hd) s) ∧ TrapsIllegal s c (c.act hd) (c.act hd) (exec (.sstarr hd) s) ∧
      TrapsIllegal s c (c.act hd) (c.act hd) (exec (.sstwait hd) s)) ∧
    (∀ d, c.l.dom = some d →
      (c.act hd &&& c.g.arrived ≠ 0 → TrapsIllegal s c (c.act hd &&& c.g.arrived) (c.act hd) (exec (.sstep hd) s) ∧
        TrapsIllegal s c (c.act hd &&& c.g.arrived) (c.act hd) (exec (.sstarr hd) s)) ∧
      (c.act hd &&& c.g.arrived = 0 → s.settled c.gid (c.act hd) = true → (c.g.arrived ||| c.act hd) &&& c.g.live ≠ c.g.live → c.g.handler = none →
        c.g.colls = [] → c.b.phases = [] → s.groupsOf c.gid.lid c.gid.blk = [c.g] → (∀ f ∈ c.g.frags, f.park = none) →
        (∃ t g, exec (.sstarr hd) s = .next t ∧ t.group? c.gid = some g ∧ g.arrived = c.g.arrived ||| c.act hd ∧
          (∀ l, inMask c.is.mask l = true → g.stands l c.after) ∧ SameRegs c.g g ∧ SameElsewhere s t c.gid) ∧
        ∃ t g, exec (.sstep hd) s = .next t ∧ t.group? c.gid = some g ∧ g.arrived = c.g.arrived ||| c.act hd ∧
          (∀ l, inMask (c.act hd) l = true → ∃ f ∈ g.frags, f.park.isSome = true ∧ f.pc = c.is.pc ∧ inMask f.mask l = true) ∧
          (∀ l, inMask c.is.mask l = true → inMask (c.act hd) l = false → g.stands l c.after) ∧ SameRegs c.g g ∧ SameElsewhere s t c.gid) ∧
      ∃ t g, exec (.sstwait hd) s = .next t ∧ t.group? c.gid = some g ∧
        (∀ l, inMask c.is.mask l = true → if inMask (c.act hd &&& c.g.arrived) l = true then
            ∃ f ∈ g.frags, f.park.isSome = true ∧ f.pc = c.is.pc ∧ inMask f.mask l = true
          else g.stands l c.after) ∧
        g.arrived = c.g.arrived ∧ SameRegs c.g g ∧ SameElsewhere s t c.gid)

/-! ### Memory -/

/-- R233, R237 to R239, Table 09-1: a granted load whose bytes are `bs` writes the extension of each lane's bytes to its registers; LDT writes 16 words a lane. The
address of a lane is the register plus the offset, modulo 2^64 in global space and modulo 2^32 elsewhere. R237, R316, R375, R378, R380: a load that reaches
windows to the host or to peers sends a read for each of its pieces there and holds its group; while an answer is missing it waits; with all answers it writes
its registers and goes on. Lanes whose request was refused trap OWNERSHIP, every lane of Act entering; without such, those whose peer is lost trap
BULKHEAD-DOWN. R14, R15, R38, R84, Table 09-1: the bytes of a load. Bytes that nobody is writing come from memory; a thread sees its own latest write to a byte
that is still in flight; constants are literal; local bytes read as zero until their line is written; the bytes of a window to the host or a peer are those of
its answer. A load extends its bytes as its size says. The model's choice (log entry 87): bytes that a lane has read ahead of the rest of its load, as R77 and
R79 allow, are what it read then. -/
def Obligations.LoadsReadTheirBytes : Prop :=
  (∀ (s : State) (c : Ctx) (hd : Hdr) (n : Nat) (a : Opnd) (ps : List (Nat × List Piece)) (bs : List (Nat × List Byte)),
    s.gatherAll c 0 ps = some bs → (∀ i, i < 16 → c.g.hazard c.w64 (n + i) = false) →
    (∀ (acc : Acc) (off : Word),
      let addr (l : Nat) : Nat := if acc.sp = .glob then (c.readReg s.fresh 2 l a + off.signExtend 64).toNat
        else ((c.readReg s.fresh 1 l a).setWidth 32 + off).toNat
      Granted s c (c.act hd) acc.sp acc.sz.bytes false true (mustAlign acc.ord acc.a16) ((lanes (c.act hd)).map fun l => (l, addr l)) ps →
      Loads s c (fun q l => if inMask (c.act hd) l = true ∧ n ≤ q then (loadWords acc.sz (look [] bs l))[q - n]? else none)
        (exec (.ld hd acc off ⟨.v, n⟩ a) s)) ∧
    (∀ (acc : Acc) (stride : Word),
      let addr (l : Nat) : Nat := if acc.sp = .glob then (c.readReg s.fresh 2 l a + BitVec.ofNat 64 l * stride.signExtend 64).toNat
        else ((c.readReg s.fresh 1 l a).setWidth 32 + BitVec.ofNat 32 l * stride).toNat
      Granted s c (c.act hd) acc.sp acc.sz.bytes false true (mustAlign acc.ord acc.a16) ((lanes (c.act hd)).map fun l => (l, addr l)) ps →
      Loads s c (fun q l => if inMask (c.act hd) l = true ∧ n ≤ q then (loadWords acc.sz (look [] bs l))[q - n]? else none)
        (exec (.lds hd acc stride ⟨.v, n⟩ a) s)) ∧
    ∀ (col : Bool) (pitch : Word),
      let addr (l j : Nat) : Nat := ((c.readReg s.fresh 1 l a).setWidth 32 + BitVec.ofNat 32 l * pitch + BitVec.ofNat 32 (4 * j)).toNat
      Granted s c (c.act hd) .scr 4 false true false ((lanes (c.act hd)).flatMap fun l => (List.range 16).map fun j => (l, addr l j)) ps →
      Loads s c (fun q l => if inMask (c.act hd) l = true ∧ n ≤ q ∧ q < n + 16 then
          some (BitVec.ofNat 32 (ofBytes ((bs.filter fun x => x.1 = l).getD (q - n) (0, [])).2)) else none)
        (exec (.ldt hd col pitch ⟨.v, n⟩ a) s)) ∧
  (∀ (s : State) (c : Ctx) (hd : Hdr) (acc : Acc) (off : Word) (n : Nat) (a : Opnd) (ps : List (Nat × List Piece)), acc.sp = .glob →
    let addr (l : Nat) : Nat := c.addr s.fresh .glob off a l
    let o := exec (.ld hd acc off ⟨.v, n⟩ a) s
    let outs := windowPieces ps
    let refused (r : ExtReply) (l : Nat) : Prop :=
      ∃ i qs j p, ps[i]? = some (l, qs) ∧ qs[j]? = some p ∧ p.outside = true ∧ s.replyOf c (i * 32 + j) = some r
    Admitted s c (c.act hd) .glob acc.sz.bytes false true (mustAlign acc.ord acc.a16) ((lanes (c.act hd)).map fun l => (l, addr l)) ps → outs ≠ [] →
    AsksFirst s c outs (fun _ p => .read p.len) o ∧
    (∀ bs, Answered s c outs → s.gatherAll c 0 ps = some bs → (∀ i, i < 16 → c.g.hazard c.w64 (n + i) = false) →
      Loads s c (fun q l => if inMask (c.act hd) l = true ∧ n ≤ q then (loadWords acc.sz (look [] bs l))[q - n]? else none) o) ∧
    ∀ f r m, (f = Fail.own ∧ r = ExtReply.ownership) ∨ (f = Fail.down ∧ r = ExtReply.down ∧ ∀ l, ¬refused .ownership l) →
      (∀ x ∈ ps, x.2.length ≤ 32) → (∀ x ∈ outs, s.replyOf c x.1 ≠ none) → (∃ l, refused r l) → c.l.rcd.flags.getLsbD 1 = false →
      (∀ l, inMask m l = true ↔ refused r l) →
      Traps s c f.cause m (c.act hd) (memInfo .glob acc.sz.bytes false 0) (fun l => BitVec.ofNat 64 (addr l)) o) ∧
  ((∀ (s : State) (c : Ctx) (lane i : Nat) (ps : List Piece), c.g.ahead = [] → (∀ p ∈ ps, p.lit = none ∧ p.loc = false ∧ p.outside = false) →
    (∀ p ∈ ps, ∀ q ∈ s.pend, q.touches p.pa p.len = false) →
    s.gather c lane i 0 ps = some (ps.flatMap fun p => Memory.read s.mem p.pa p.len)) ∧
  (∀ (s : State) (c : Ctx) (a : Ahead) (i va : Nat), c.g.ahead = [a] → let p : Piece := ⟨va, a.pa, a.bytes.length, none, false⟩
    p.outside = false → s.gather c a.lane i 0 [p] = some a.bytes) ∧
  (∀ (s : State) (src : Writer → Bool) (k pa : Nat) (p : Pend) (bs : List Byte), p ∈ s.pend → src p.src = true → p.touches pa 1 = true → p.op = .bytes bs →
    (∀ q ∈ s.pend, src q.src = true → q.touches pa 1 = true → q ≠ p → q.id < p.id) → s.readByte src k pa = bs[pa - p.pa]?) ∧
  (∀ (s : State) (c : Ctx) (lane i va pa : Nat) (bs : List Byte), s.gather c lane i 0 [⟨va, pa, bs.length, some bs, false⟩] = some bs) ∧
  (∀ (s : State) (c : Ctx) (lane i : Nat) (p : Piece) (bs : List Byte), p.outside = true → s.replyOf c (i * 32) = some (.ok bs) → bs.length = p.len →
    s.gather c lane i 0 [p] = some bs) ∧
  (∀ (s : State) (c : Ctx) (lane i va pa n : Nat), ∃ bs, s.gather c lane i 0 [⟨va, pa, n, none, true⟩] = some bs ∧ bs.length = n ∧
    ∀ j, j < n → bs[j]? = some (if s.written.contains (lineOf (pa + j)) then Memory.get s.mem (pa + j) else 0)) ∧
  (∀ b : Byte, loadWords .z8 [b] = [b.setWidth 32] ∧ loadWords .s8 [b] = [b.signExtend 32]) ∧
  (∀ b0 b1 : Byte, loadWords .z16 [b0, b1] = [(b1 ++ b0).setWidth 32] ∧ loadWords .s16 [b0, b1] = [(b1 ++ b0).signExtend 32]) ∧
  (∀ b0 b1 b2 b3 : Byte, loadWords .b32 [b0, b1, b2, b3] = [b3 ++ b2 ++ b1 ++ b0]) ∧
  (∀ w0 w1 : Word, loadWords .b64 (toBytes 4 w0.toNat ++ toBytes 4 w1.toNat) = [w0, w1]) ∧
  (∀ w0 w1 w2 w3 : Word, loadWords .b128 (toBytes 4 w0.toNat ++ toBytes 4 w1.toNat ++ toBytes 4 w2.toNat ++ toBytes 4 w3.toNat) = [w0, w1, w2, w3]))

/-- R237 to R240, R242, R36: a granted store puts exactly its bytes in flight, in lane order, and changes no byte of memory; SZERO writes zeros for every lane of
Act. SZERO of no bytes only goes on, and past the scratch of the block it is BOUNDS. R97, R237, R238, R240, R375, R378: a store whose lanes all reach windows to
the host or to peers sends each lane's bytes there, a write to the host with a flush behind it; the writes stay in flight until they are answered, and the lanes
go on. (A release waits first until what it orders has performed.) R13, R14, R237, R238: a store to local storage is written at once. A stored byte takes the
value of the highest lane; the first write to a line clears the rest of it; every other byte of memory is as before. -/
def Obligations.StoresWriteTheirBytes : Prop :=
  (∀ (s : State) (c : Ctx) (hd : Hdr) (d a : Opnd) (ps : List (Nat × List Piece)) (m : Mask), m = c.act hd →
    (∀ (acc : Acc) (off : Word), acc.sp ≠ .loc → s.wick c.l.lid c.core .store + storeRoom ps ≤ 2 ^ 20 → s.wick c.l.lid c.core .store < 2 ^ 20 →
      (Granted s c m acc.sp acc.sz.bytes true false (mustAlign acc.ord acc.a16) ((lanes m).map fun l => (l, c.addr s.fresh acc.sp off a l)) ps →
        Stores s c .store (storeCells c.gid ps fun _ l => c.dataBytes s.fresh l d acc.sz.bytes) (exec (.st hd acc off d a) s)) ∧
      (Granted s c m acc.sp acc.sz.bytes true false (mustAlign acc.ord acc.a16) ((lanes m).map fun l => (l, c.strideAddr s.fresh acc.sp off a l)) ps →
        Stores s c .store (storeCells c.gid ps fun _ l => c.dataBytes s.fresh l d acc.sz.bytes) (exec (.sts hd acc off d a) s))) ∧
    (∀ (acc : Acc) (off : Word), s.wick c.l.lid c.core .put + storeRoom ps ≤ 2 ^ 20 → s.wick c.l.lid c.core .put < 2 ^ 20 →
      Granted s c m .glob acc.sz.bytes true false (acc.ord ≠ .plain) ((lanes m).map fun l => (l, c.addr s.fresh .glob off a l)) ps →
      Stores s c .put (storeCells c.gid ps fun _ l => c.dataBytes s.fresh l d acc.sz.bytes) (exec (.put hd acc off d a) s)) ∧
    (∀ (col : Bool) (pitch : Word), s.wick c.l.lid c.core .store + storeRoom ps ≤ 2 ^ 20 → s.wick c.l.lid c.core .store < 2 ^ 20 →
      Granted s c m .scr 4 true false false (tileReqs c s.fresh pitch a m) ps →
      Stores s c .store (storeCells c.gid ps fun i l => c.dataBytes s.fresh l ⟨d.cls, d.n + i % 16⟩ 4) (exec (.stt hd col pitch d a) s)) ∧
    (∀ (col : Bool) (off : Word), s.ctx? = some c → m ≠ 0 →
      let l := (lanes m).headD 0
      let o := ((c.readReg s.fresh 1 l a).setWidth 32 + off).toNat
      let n := (c.readReg s.fresh 1 l d).toNat % 2 ^ 32
      Unwatched s c .scr n false true ((lanes m).map fun l => (l, o)) →
      (n = 0 → Moves s c (fun _ => c.after) (exec (.szero hd col off d a) s)) ∧
      (n ≠ 0 → o + n ≤ c.b.scratch → s.atomsDone c.gid m true = true →
        s.wick c.l.lid c.core .store + (lanes m).length * (n / 128 + 2) ≤ 2 ^ 20 → Stores s c .store
        ((lanes m).flatMap fun l => (List.range' (c.b.scratchPa o) n).map fun x => (Writer.thread c.gid l, x, (0 : Byte))) (exec (.szero hd col off d a) s)) ∧
      (n ≠ 0 → c.b.scratch < o + n →
        Traps s c Cause.bounds m m (BitVec.ofNat 64 (1 + 32)) (fun _ => BitVec.ofNat 64 o) (exec (.szero hd col off d a) s)))) ∧
  (∀ (s : State) (c : Ctx) (hd : Hdr) (acc : Acc) (off : Word) (d a : Opnd) (ps : List (Nat × List Piece)) (addr : Nat → Nat) (cls : WClass) (rel al : Bool) (i : Instr),
    acc.sp = .glob →
    (i = .st hd acc off d a ∧ addr = c.addr s.fresh .glob off a ∧ cls = .store ∧ rel = (acc.ord = .acqrel || acc.ord = .str) ∧ al = mustAlign acc.ord acc.a16) ∨
      (i = .sts hd acc off d a ∧ addr = c.strideAddr s.fresh .glob off a ∧ cls = .store ∧ rel = (acc.ord = .acqrel || acc.ord = .str) ∧
        al = mustAlign acc.ord acc.a16) ∨
      (i = .put hd acc off d a ∧ addr = c.addr s.fresh .glob off a ∧ cls = .put ∧ rel = false ∧ al = (acc.ord ≠ .plain)) →
    Admitted s c (c.act hd) .glob acc.sz.bytes true false al ((lanes (c.act hd)).map fun l => (l, addr l)) ps →
    (∀ x ∈ ps, ∃ p, x.2 = [p] ∧ p.outside = true) → s.wick c.l.lid c.core cls + storeRoom ps ≤ 2 ^ 20 → s.wick c.l.lid c.core cls < 2 ^ 20 →
    (s.outsideMustWait c rel ps = true → Waits s (exec i s)) ∧
    (s.outsideMustWait c rel ps = false → StoresOut s c cls ps (fun l => c.dataBytes s.fresh l d acc.sz.bytes) (exec i s))) ∧
  (∀ (s : State) (c : Ctx) (hd : Hdr) (acc : Acc) (off : Word) (d a : Opnd) (ps : List (Nat × List Piece)) (addr : Nat → Nat) (i : Instr),
    acc.sp = .loc → (i = .st hd acc off d a ∧ addr = c.addr s.fresh .loc off a) ∨ (i = .sts hd acc off d a ∧ addr = c.strideAddr s.fresh .loc off a) →
    Granted s c (c.act hd) .loc acc.sz.bytes true false (mustAlign acc.ord acc.a16) ((lanes (c.act hd)).map fun l => (l, addr l)) ps →
    let cells := storeCells c.gid ps fun _ l => c.dataBytes s.fresh l d acc.sz.bytes
    s.wick c.l.lid c.core .store < 2 ^ 20 →
    ∃ t g, exec i s = .next t ∧ t.group? c.gid = some g ∧ (∀ l, inMask c.is.mask l = true → g.stands l c.after) ∧ SameRegs c.g g ∧
      t.pend = s.pend ∧ Accessed s t c.gid ∧
      (∀ x, Memory.get t.mem x = match cells.reverse.find? fun y => y.2.1 = x with
        | some y => y.2.2
        | none => if (cells.any fun y => lineOf y.2.1 = lineOf x) && !s.written.contains (lineOf x) then 0 else Memory.get s.mem x) ∧
      ∀ ln, t.written.contains ln = (s.written.contains ln || cells.any fun y => lineOf y.2.1 = ln))

/-- R243, R244, R251: an atomic with a result leaves for its home and holds its group; RED, REDF and SEMSIG are put in flight and their lanes go on. No byte of
memory and no register has changed. R244, R375, R378: an atomic whose lanes all reach windows sends one request for each lane, and holds its group until all are
answered; ATOM.ADD, XCHG, CAS and SEMSIG are what a host window carries, a peer carries all. Then one with a result writes what the answers hold; RED, REDF and
SEMSIG only go on, also where an answer is that the peer's bulkhead is down (that they wait for their answers is the model's choice, log entry 138). R251, Table
09-4: what the integer atomics and the semaphore operations make of the old value `m` and the operand `b`. -/
def Obligations.AtomicsTravelToTheirHomes : Prop :=
  (∀ (s : State) (c : Ctx) (hd : Hdr) (d a : Opnd) (b : Nat) (off : Word) (ps : List (Nat × List Piece)) (sp : Space),
    s.eccBad = [] → (∀ cls, s.wick c.l.lid c.core cls + ps.length ≤ 2 ^ 20) →
    let ok (off : Word) (n : Nat) (reads : Bool) : Prop :=
      Granted s c (c.act hd) sp n true reads true ((lanes (c.act hd)).map fun l => (l, c.addr s.fresh sp off a l)) ps
    let seen (off : Word) (n : Nat) : Prop := Unwatched s c sp n true true ((lanes (c.act hd)).map fun l => (l, c.addr s.fresh sp off a l))
    let B (n r l : Nat) : DWord := c.readReg s.fresh (n / 4) l ⟨.v, r⟩
    (∀ acc, acc.sp = sp → let n := acc.sz.bytes
      (∀ op, ok 0 n true → Leaves s c ps d (n / 4) (fun l => .rmw op n (B n b l)) (exec (.atom hd acc op d a b) s)) ∧
      (ok 0 n true → Leaves s c ps d (n / 4) (fun l => .xchg n (B n b l)) (exec (.xchg hd acc d a b) s) ∧
        Leaves s c ps d (n / 4) (fun l => .cas n (B n b l) (B n (b + n / 4) l)) (exec (.cas hd acc d a b) s)) ∧
      (∀ op, ok 0 n false → seen 0 n → Posts s c ps (fun l => .rmw op n (B n b l)) (exec (.red hd acc op a b) s)) ∧
      ∀ op, (ok 0 op.size.bytes true →
          Leaves s c ps d (op.size.bytes / 4) (fun l => .rmwf op (B op.size.bytes b l)) (exec (.atomf hd acc op d a b) s)) ∧
        (ok 0 op.size.bytes false → seen 0 op.size.bytes → Posts s c ps (fun l => .rmwf op (B op.size.bytes b l)) (exec (.redf hd acc op a b) s))) ∧
    ∀ op scr ord scope, sp = (if scr then .scr else .glob) → ok off 8 false → seen off 8 →
      Posts s c ps (fun l => .sem op (c.readReg s.fresh 2 l d)) (exec (.semsig hd op scr ord scope off d a) s)) ∧
  (∀ (s : State) (c : Ctx) (hd : Hdr) (acc : Acc) (n : Nat) (a : Opnd) (b : Nat) (off : Word) (ps : List (Nat × List Piece)), acc.sp = .glob → s.eccBad = [] →
    (∀ x ∈ ps, ∃ p, x.2 = [p] ∧ p.outside = true) → (∀ cls, s.wick c.l.lid c.core cls + ps.length ≤ 2 ^ 20) → c.g.hazard c.w64 n = false → c.g.hazard c.w64 (n + 1) = false →
    let B (m r l : Nat) : DWord := c.readReg s.fresh (m / 4) l ⟨.v, r⟩
    let outs := windowPieces ps
    let lane (key : Nat) : Nat := (lanes (c.act hd)).getD (key / 32) 0
    let atHost : Prop := ∃ x ∈ outs, ∃ h, region x.2.pa = .host h
    let may (off : Word) (m : Nat) (reads carried : Bool) : Prop :=
      let reqs := (lanes (c.act hd)).map fun l => (l, c.addr s.fresh .glob off a l)
      Admitted s c (c.act hd) .glob m true reads true reqs ps ∧ Unwatched s c .glob m true true reqs ∧ s.outsideMustWait c (acc.ord ≠ .rlx) ps = false ∧
        (carried = false → ¬atHost)
    let results (m : Nat) (i : Instr) (op : Nat → ExtOp) : Prop := AsksFirst s c outs (fun key _ => op (lane key)) (exec i s) ∧
      (Answered s c outs → Loads s c (fun q l => if inMask (c.act hd) l = true ∧ n ≤ q ∧ q < n + m / 4 then
          (ps.findIdx? fun x => x.1 = l).bind fun k => match s.replyOf c (k * 32) with
            | some (.ok bs) => some (BitVec.ofNat 32 (ofBytes (bs.take m) / 2 ^ (32 * (q - n))))
            | _ => none
        else none) (exec i s))
    let posts (i : Instr) (op : Nat → ExtOp) : Prop := ((∀ x ∈ outs, s.replyOf c x.1 ≠ some .down) → AsksFirst s c outs (fun key _ => op (lane key)) (exec i s)) ∧
      ((∀ x ∈ outs, ∃ r, s.replyOf c x.1 = some r ∧ r ≠ .ownership) → Loads s c (fun _ _ => none) (exec i s))
    let d : Opnd := ⟨.v, n⟩
    (∀ m, m = acc.sz.bytes → m = 4 ∨ m = 8 →
      (∀ op, (may 0 m true (op = .add) → results m (.atom hd acc op d a b) fun l => .atom op m (B m b l)) ∧
        (may 0 m false false → posts (.red hd acc op a b) fun l => .atom op m (B m b l))) ∧
      (may 0 m true true → results m (.xchg hd acc d a b) (fun l => .xchg m (B m b l)) ∧
        results m (.cas hd acc d a b) fun l => .cas m (B m b l) (B m (b + m / 4) l))) ∧
    (∀ op m, m = op.size.bytes → (may 0 m true false → results m (.atomf hd acc op d a b) fun l => .atomf op (B m b l)) ∧
      (may 0 m false false → posts (.redf hd acc op a b) fun l => .atomf op (B m b l))) ∧
    ∀ op ord scope da, acc.ord = ord → may off 8 false (op ≠ .or) → posts (.semsig hd op false ord scope off da a) fun l => .sem op (c.readReg s.fresh 2 l da)) ∧
  ((∀ m b : Word, atomNew .add 4 m.toNat b.toNat = (m + b).toNat ∧ atomNew .minz 4 m.toNat b.toNat = (if b < m then b else m).toNat ∧
    atomNew .maxz 4 m.toNat b.toNat = (if m < b then b else m).toNat ∧ atomNew .mins 4 m.toNat b.toNat = (if b.slt m then b else m).toNat ∧
    atomNew .maxs 4 m.toNat b.toNat = (if m.slt b then b else m).toNat ∧ atomNew .and 4 m.toNat b.toNat = (m &&& b).toNat ∧
    atomNew .or 4 m.toNat b.toNat = (m ||| b).toNat ∧ atomNew .xor 4 m.toNat b.toNat = (m ^^^ b).toNat ∧
    atomNew .inc 4 m.toNat b.toNat = (if b ≤ m then 0 else m + 1).toNat ∧ atomNew .dec 4 m.toNat b.toNat = (if m = 0 ∨ b < m then b else m - 1).toNat) ∧
  (∀ m b : DWord, atomNew .add 8 m.toNat b.toNat = (m + b).toNat ∧ atomNew .minz 8 m.toNat b.toNat = (if b < m then b else m).toNat ∧
    atomNew .maxz 8 m.toNat b.toNat = (if m < b then b else m).toNat ∧ atomNew .mins 8 m.toNat b.toNat = (if b.slt m then b else m).toNat ∧
    atomNew .maxs 8 m.toNat b.toNat = (if m.slt b then b else m).toNat ∧ atomNew .and 8 m.toNat b.toNat = (m &&& b).toNat ∧
    atomNew .or 8 m.toNat b.toNat = (m ||| b).toNat ∧ atomNew .xor 8 m.toNat b.toNat = (m ^^^ b).toNat ∧
    atomNew .inc 8 m.toNat b.toNat = (if b ≤ m then 0 else m + 1).toNat ∧ atomNew .dec 8 m.toNat b.toNat = (if m = 0 ∨ b < m then b else m - 1).toNat) ∧
  ∀ m v : DWord, semNew .add m v = m + v ∧ semNew .or m v = m ||| v ∧ semNew .set m v = v ∧
    (semTest .eq m v = true ↔ m = v) ∧ (semTest .ne m v = true ↔ m ≠ v) ∧ (semTest .ge m v = true ↔ v ≤ m) ∧ (semTest .gt m v = true ↔ v < m) ∧
    (semTest .le m v = true ↔ m ≤ v) ∧ (semTest .lt m v = true ↔ m < v) ∧ (semTest .ges m v = true ↔ v.toInt ≤ m.toInt) ∧
    (semTest .gts m v = true ↔ v.toInt < m.toInt) ∧ (semTest .les m v = true ↔ m.toInt ≤ v.toInt) ∧ (semTest .lts m v = true ↔ m.toInt < v.toInt) ∧
    (semTest .all m v = true ↔ m &&& v = v) ∧ (semTest .any m v = true ↔ m &&& v ≠ 0))

/-- R36, R53, R75, R85, R86, R370: a write arrives once every write it must follow has arrived. Its completion time is not before the given delay (outside replay
mode, where homes add none), L_max of its line, any completion time of the line, or that of a write it follows; a strong write's is later than that of the
thread's last. No byte of memory changes, and the units of its transaction count as begun. A write that a suspended window turns away fails instead. The model's
choice (log entry 133): it waits while a running launch that has threads left holds a lease of a line of arguments there. R36, R46, R251, Table 09-4: at its
completion time the first write of a line performs: it leaves flight, exactly its bytes of memory change, to what it makes of what stood there, and no other
write, lease or launch changes. Before that time, behind another write of its line, or before a write that it must follow has performed, it waits. -/
def Obligations.WritesArriveAndPerform : Prop :=
  (∀ (s : State) (p : Pend) (delay : Nat), s.pend? p.id = some p →
    (p.tc = none → p.ext = none → (∀ i ∈ p.after, ∀ q ∈ s.pend, q.id = i → q.tc ≠ none) → s.parHeld (lineOf p.pa) = false → s.turnedAway p = false →
      ∃ t T, exec (.storeArrival p.id delay) s = .next t ∧
        t.pend = ((s.pend.filter fun q => q.id ≠ p.id).map fun q => if p.sameTxn q = true then { q with begun := true } else q) ++ [{ p with tc := some T, begun := true }] ∧
        ((∀ x ∈ s.parts, x.replayOn = none) → s.now + delay ≤ T) ∧ s.now ≤ T ∧ look 0 s.lmax (lineOf p.pa) ≤ T ∧
        (∀ q ∈ s.pend, ∀ x, q.tc = some x → lineOf q.pa = lineOf p.pa ∨ q.id ∈ p.after → x ≤ T) ∧ (p.strong = true → s.lastStrong p.src < T) ∧
        t.mem = s.mem ∧ t.now = s.now ∧ t.lmax = s.lmax) ∧
    (p.tc = none → p.ext = none → (∀ i ∈ p.after, ∀ q ∈ s.pend, q.id = i → q.tc ≠ none) → s.parHeld (lineOf p.pa) = false → s.turnedAway p = true → s.waiter p.id = none →
      ∀ x l g, p.src = .thread x l → s.group? x = some g → ∃ t g', exec (.storeArrival p.id delay) s = .next t ∧ t.pend = (s.pend.filter fun q => q.id ≠ p.id) ∧
        t.mem = s.mem ∧ t.group? x = some g' ∧ g'.err = (g.failed p.va p.size).err ∧ SameRegs g g' ∧ g'.frags = g.frags) ∧
    ((∃ i ∈ p.after, ∃ q ∈ s.pend, q.id = i ∧ q.tc = none) → Waits s (exec (.storeArrival p.id delay) s))) ∧
  (∀ (s : State) (p : Pend) (T b : Nat), s.pend? p.id = some p → p.tc = some T →
    (s.now < T ∨ (s.lineQueue (lineOf p.pa)).head? ≠ some p ∨ (∃ i ∈ p.after, ∃ q ∈ s.pend, q.id = i) → (∀ q ∈ s.pend, q.id = p.id → q = p) → Waits s (exec (.writeCompletion p.id) s)) ∧
    (T ≤ s.now → (s.lineQueue (lineOf p.pa)).head? = some p → (∀ i ∈ p.after, ∀ q ∈ s.pend, q.id ≠ i) → homeBulk p.pa = some b → s.waiter p.id = none →
      (s.isDown b = false → s.isSealed p.pa = false →
        ∃ t, exec (.writeCompletion p.id) s = .next t ∧ t.pend = (s.pend.filter fun q => q.id ≠ p.id) ∧
          (∀ a, Memory.get t.mem a = if p.pa ≤ a ∧ a < p.pa + p.size then (p.result (Memory.read s.mem p.pa p.size)).getD (a - p.pa) 0
            else Memory.get s.mem a) ∧
          t.leases = s.leases ∧ t.launches = s.launches ∧ t.now = s.now) ∧
      (s.isDown b = true → ∀ x l g, p.src = .thread x l → s.group? x = some g →
        ∃ t g', exec (.writeCompletion p.id) s = .next t ∧ t.pend = (s.pend.filter fun q => q.id ≠ p.id) ∧ t.mem = s.mem ∧ t.group? x = some g' ∧
          g'.err = some (match g.err with | none => ⟨p.va, lgSize p.size, 1⟩ | some e => ⟨e.addr, e.lsize, e.count + 1⟩) ∧ SameRegs g g' ∧ g'.frags = g.frags)))

/-- R244: when the write of an atomic performs, its lane receives the old value. Once every lane of the instruction has its own, the registers hold them and the
lanes go on; until then no register changes and the group stays held. -/
def Obligations.AtomicResultsLand : Prop :=
  ∀ (s : State) (p : Pend) (T b : Nat) (x : Gid) (g : Group) (y : Block) (l : Launch) (pc : Word) (m : Mask) (len : Nat) (w : BitVec 128) (n k : Nat)
    (sc : Bool) (act : Mask) (ls : List Await),
    s.pend? p.id = some p → p.tc = some T → T ≤ s.now → (s.lineQueue (lineOf p.pa)).head? = some p → (∀ i ∈ p.after, ∀ q ∈ s.pend, q.id ≠ i) →
    homeBulk p.pa = some b → s.isDown b = false → s.isSealed p.pa = false → s.waiter p.id = some x → s.group? x = some g → s.block? x.lid x.blk = some y → s.launch? x.lid = some l →
    g.stuck = some ⟨pc, m, len, w, .atom ⟨.v, n⟩ k sc act ls⟩ → (k = 1 ∨ k = 2) → (ls.map fun a => a.lane).Nodup → (∀ a ∈ ls, a.lane < 64 ∧ a.down = false) →
    (∀ r, g.hazard l.w64 r = false) →
    let old : DWord := BitVec.ofNat 64 (ofBytes (Memory.read s.mem p.pa p.size))
    let ls' := ls.map fun a => if a.id = p.id then { a with got := some old, down := false } else a
    ∃ t g', exec (.writeCompletion p.id) s = .next t ∧ t.group? x = some g' ∧ t.pend = (s.pend.filter fun q => q.id ≠ p.id) ∧
      ((∃ a ∈ ls', a.got = none) → g'.stuck = some ⟨pc, m, len, w, .atom ⟨.v, n⟩ k sc act ls'⟩ ∧ SameRegs g g' ∧ g'.frags = g.frags) ∧
      ((∀ a ∈ ls', a.got ≠ none) → g'.stuck = none ∧ (∀ j, inMask m j = true → g'.stands j (pc + BitVec.ofNat 32 len)) ∧
        (∀ a ∈ ls', ∀ v, a.got = some v → SMap.get g'.v (n * 64 + a.lane) = v.setWidth 32 ∧
          (k = 2 → SMap.get g'.v ((n + 1) * 64 + a.lane) = v.extractLsb' 32 32)) ∧
        (∀ r j, j < 64 → (r ≠ n ∧ (k = 1 ∨ r ≠ n + 1) ∨ ∀ a ∈ ls', a.lane ≠ j) → SMap.get g'.v (r * 64 + j) = SMap.get g.v (r * 64 + j)) ∧
        g'.s = g.s ∧ g'.h = g.h ∧ g'.p = g.p ∧ g'.sc = g.sc)

/-- R34 to R37, R43, R241: PREF, LEASE and FILL grant leases within their limits and touch no byte; a lease ends before its end; ownership is given once a line is
free, takes the place of the leases of the line, and is given up when it is recalled. Each makes room in the core's lease cache (R33; which set a line is in and
which line goes are the model's choices, log entry 107). A lease of a line of arguments does not end by itself (R41). -/
def Obligations.LeasesStayWithinTheirLimits : Prop :=
  (∀ (s : State) (c : Ctx) (hd : Hdr) (col : Bool) (off : Word) (d a : Opnd) (ps : List (Nat × List Piece)) (i : Instr) (dur : Nat → Nat → Prop),
    (i = .pref hd col off a ∧ dur = (fun _ _ => True)) ∨ (i = .lease hd col off d a ∧ dur = fun l k => k = (c.readReg s.fresh 1 l d).toNat % 2 ^ 32) →
    Granted s c (c.act hd) .glob 1 false true false ((lanes (c.act hd)).map fun l => (l, c.addr s.fresh .glob off a l)) ps →
    ∃ t g, exec i s = .next t ∧ t.group? c.gid = some g ∧ (∀ l, inMask c.is.mask l = true → g.stands l c.after) ∧ SameRegs c.g g ∧
      t.mem = s.mem ∧ t.pend = s.pend ∧ Accessed s t c.gid ∧
      LeasesWithin s t c.core fun line k => ∃ x ∈ ps, dur x.1 k ∧ ∃ p ∈ x.2, line = lineOf p.pa ∧ s.cacheable c.core c.l.part p.pa = true) ∧
  ∀ (s : State) (core line dur : Nat), 
    (∃ t, exec (.fill core line dur false) s = .next t ∧ LeasesWithin s t core (fun ln k => ln = line ∧ k = dur) ∧ t.mem = s.mem ∧ t.pend = s.pend ∧
      t.groups = s.groups) ∧
    (∀ p, s.partOfCore core = some p → s.cacheable core p.id (line * 128) = true → look 0 s.lmax line ≤ s.now → s.lineQueue line = [] → s.parHeld line = false →
      (∀ x ∈ s.leases, x.line = line → x.owned = false) → ((s.wayMates core line).filter fun x => x.owned).length < 16 →
      ∃ t, exec (.fill core line dur true) s = .next t ∧ t = { s with leases := t.leases } ∧
        (∀ x, x ∈ t.leases → x.line = line → x = ⟨core, line, s.now, true, none⟩) ∧ ⟨core, line, s.now, true, none⟩ ∈ t.leases ∧
        (∀ x ∈ t.leases, x.line ≠ line → x ∈ s.leases) ∧ (∀ x ∈ s.leases, x.line ≠ line → x.owned = true ∨ x.core ≠ core → x ∈ t.leases) ∧
        ((s.wayMates core line).length < 16 → ∀ x ∈ s.leases, x.line ≠ line → x ∈ t.leases)) ∧
    (∃ t, exec (.leaseExpiry core line) s = .next t ∧ (∀ x, x ∈ t.leases ↔ x ∈ s.leases ∧ ¬ (x.core = core ∧ x.line = line ∧ x.owned = false ∧ x.par = none ∧ x.tEnd ≤ s.now + 2)) ∧
      t = { s with leases := t.leases }) ∧
    ∃ t, exec (.ownershipRecall core line) s = .next t ∧ (∀ x, x ∈ t.leases ↔ x ∈ s.leases ∧ ¬ (x.core = core ∧ x.line = line ∧ x.owned = true)) ∧
      t = { s with leases := t.leases }

/-- R16, R17, R78, Table 01-3, Table 12-3: when lanes of a load or store fail their checks, no lane acts: the group traps with the failure of the highest
precedence, on exactly the lanes that have it, with their addresses; of PAGE failures the lowest kind counts. (A bulkhead that is down comes last: log entry 6.)
R316, Table 12-4: where the launch takes page faults by its fault queue, an access with lanes on a page that is not present, and no failure of higher
precedence, does nothing: its group is held with one fault record due for each such page, at the first failing address on it, and issues again when all are
answered. -/
def Obligations.FailingAccessesTrapOrAreHeld : Prop :=
  (∀ (s : State) (c : Ctx) (hd : Hdr) (acc : Acc) (off : Word) (d a : Opnd) (f : Fail) (m : Mask) (write : Bool) (i : Instr), s.ctx? = some c →
    (i = .ld hd acc off d a ∧ write = false) ∨ (i = .st hd acc off d a ∧ write = true) →
    c.act hd ≠ 0 → c.g.stuck = none → c.l.rcd.flags.getLsbD 1 = false → f ≠ .unc →
    (f = .page 4 → s.eccBad = [] ∧ s.eccSoft = []) →
    let n := acc.sz.bytes
    let addr (l : Nat) : Nat := c.addr s.fresh acc.sp off a l
    let bad (l : Nat) (x : Fail) : Prop := if mustAlign acc.ord acc.a16 = true ∧ addr l % n ≠ 0 then x = .align
      else s.checkLane c acc.sp write (!write) l (addr l) n = .error x
    (∃ l, inMask (c.act hd) l = true ∧ bad l f) → (∀ l x, inMask (c.act hd) l = true → bad l x → f.rank ≤ x.rank) →
    (∀ l, inMask m l = true ↔ inMask (c.act hd) l = true ∧ bad l f) →
    Traps s c f.cause m (c.act hd) (memInfo acc.sp n write f.kind) (fun l => BitVec.ofNat 64 (addr l)) (exec i s) ∧
    (∀ b p, c.b.scratch < b + p → s.checkLane c .scr write (!write) 0 b p = .error .bounds) ∧ (∀ b p, 0x4000 < b + p → s.checkLane c .loc write (!write) 0 b p = .error .bounds) ∧
    ∀ b, b + n ≤ c.b.scratch → s.badWord (c.b.scratchPa b) n = false →
      s.checkLane c .scr write (!write) 0 b n = .ok [{ va := b, pa := Config.sliceBase + c.core * Config.sliceBytes + c.b.square * 4096 + b, len := n }]) ∧
  (∀ (s : State) (c : Ctx) (hd : Hdr) (acc : Acc) (off : Word) (d a : Opnd) (write : Bool) (i : Instr), s.ctx? = some c →
    (i = .ld hd acc off d a ∧ write = false) ∨ (i = .st hd acc off d a ∧ write = true) →
    c.g.stuck = none → c.l.rcd.flags.getLsbD 1 = true → s.fqEnabled c.l.world = true →
    let n := acc.sz.bytes
    let addr (l : Nat) : Nat := c.addr s.fresh acc.sp off a l
    let bad (l : Nat) (x : Fail) : Prop := if mustAlign acc.ord acc.a16 = true ∧ addr l % n ≠ 0 then x = .align
      else s.checkLane c acc.sp write (!write) l (addr l) n = .error x
    let missing (p : Nat) : Prop := ∃ l, inMask (c.act hd) l = true ∧ bad l (.page 0) ∧ p ∈ s.badPages c acc.sp (addr l) n
    (∃ l, inMask (c.act hd) l = true ∧ bad l (.page 0)) → (∀ l x, inMask (c.act hd) l = true → bad l x → (Fail.page 0).rank ≤ x.rank) →
    ∃ t g owed, exec i s = .next t ∧ t.group? c.gid = some g ∧ g.stuck = some ⟨c.is.pc, c.is.mask, c.is.len, c.is.inst, .replay owed [] []⟩ ∧
      (∀ q ∈ owed, q.write = write ∧ q.time = s.now ∧ missing q.addr) ∧ (∀ p, missing p → ∃ q ∈ owed, q.addr / 4096 = p / 4096) ∧
      (owed.map fun q => q.addr / 4096).Nodup ∧ SameRegs c.g g ∧ g.frags = c.g.frags ∧ t.mem = s.mem ∧ t.pend = s.pend ∧ Accessed s t c.gid)

/-- R245, R247, R252: BACKOFF counts its attempts and pauses the group for the longest delay; FENCE waits for what it orders and then goes on; SEMWAIT parks its
lanes with the semaphore and the value of each, at a window too. The model's choices: an acq_rel FENCE waits for the atomics of its lanes (log entry 31), and a
SYS one for their writes to windows (log entry 115). R84, R252, R312: a waiting lane is released at the first read of its semaphore that satisfies the
comparison, and only then; the read sees the lane's own writes; a lane that a running handler keeps parked is not released. At a window the core polls: it sends
a read, and takes the answer. (One lane waits on semaphores; several are read one after the other.) -/
def Obligations.BackoffFenceAndSemwait : Prop :=
  (∀ (s : State) (c : Ctx) (hd : Hdr), s.ctx? = some c → c.act hd ≠ 0 →
    (∀ (n base cap : Nat), let old := (SMap.get c.g.s n).toNat
      let delay (l : Nat) : Nat :=
        let span := base * 2 ^ min old cap
        if span = 0 then 0 else span + (((c.core * 32 + c.gid.gi) * 64 + l) * 0x9E3779B1 + old * 0x85EBCA6B) % 2 ^ 32 % span
      ∃ t g, exec (.backoff hd ⟨.s, n⟩ base cap) s = .next t ∧ Landed s c (fun _ => c.after) t g ∧
        (∀ r, SMap.get g.s r = if r = n then BitVec.ofNat 32 (min (old + 1) 0xFFFFFFFF) else SMap.get c.g.s r) ∧ g.v = c.g.v ∧ g.h = c.g.h ∧ g.p = c.g.p ∧
        ((∀ l, inMask (c.act hd) l = true → delay l = 0) → g.pause = c.g.pause) ∧
        ((∃ l, inMask (c.act hd) l = true ∧ delay l ≠ 0) → ∃ p, g.pause = some p ∧ (∃ l, inMask (c.act hd) l = true ∧ p = delay l) ∧
          ∀ l, inMask (c.act hd) l = true → delay l ≤ p)) ∧
    (∀ (n base cap : Nat), c.g.hazard c.w64 n = false →
      let cnt (l : Nat) : Nat := (SMap.get c.g.v (n * 64 + l)).toNat
      ∃ t g, exec (.backoff hd ⟨.v, n⟩ base cap) s = .next t ∧ Landed s c (fun _ => c.after) t g ∧
        (∀ r l, l < 64 → SMap.get g.v (r * 64 + l) =
          if inMask (c.act hd) l = true ∧ r = n then BitVec.ofNat 32 (min (cnt l + 1) 0xFFFFFFFF) else SMap.get c.g.v (r * 64 + l)) ∧
        g.s = c.g.s ∧ g.h = c.g.h ∧ g.p = c.g.p ∧
        let delay (l : Nat) : Nat :=
          let span := base * 2 ^ min (cnt l) cap
          if span = 0 then 0 else span + (((c.core * 32 + c.gid.gi) * 64 + l) * 0x9E3779B1 + cnt l * 0x85EBCA6B) % 2 ^ 32 % span
        ((∀ l, inMask (c.act hd) l = true → delay l = 0) → g.pause = c.g.pause) ∧
        ((∃ l, inMask (c.act hd) l = true ∧ delay l ≠ 0) → ∃ p, g.pause = some p ∧ (∃ l, inMask (c.act hd) l = true ∧ p = delay l) ∧
          ∀ l, inMask (c.act hd) l = true → delay l ≤ p)) ∧
    (∀ (async : Bool) (ord : Order) (scope : Scope), c.g.err = none →
      let ready := (ord = .str ∨ async = true → s.settled c.gid (c.act hd) = true) ∧ s.atomsDone c.gid (c.act hd) false = true ∧
        (scope = .sys → s.outsideSettled c.gid (c.act hd) = true) ∧ (async = true → s.putsDone c.gid = true ∧ s.chainsDone c.gid = true)
      (ready → ∃ t g, exec (.fence hd async ord scope) s = .next t ∧ Landed s c (fun _ => c.after) t g ∧ SameRegs c.g g ∧ t.blocks = s.blocks ∧
        ∀ l, inMask (c.act hd) l = true → ∀ q ∈ s.pend, q.src = .thread c.gid l → q.cls ≠ .put → q.id ∈ look [] g.covers l) ∧
      (¬ ready → Waits s (exec (.fence hd async ord scope) s))) ∧
    ∀ (cmp : SemCmp) (scr : Bool) (ord : Order) (scope : Scope) (off : Word) (d a : Opnd) (ps : List (Nat × List Piece)),
      Admitted s c (c.act hd) (if scr then .scr else .glob) 8 false true true
        ((lanes (c.act hd)).map fun l => (l, c.addr s.fresh (if scr then .scr else .glob) off a l)) ps →
      (∀ f ∈ c.g.frags, f.pc = c.is.pc → ∀ k x, f.park = some (k, x) → ∃ ws, x = .semwait cmp scr ord ws) →
      ∃ t g, exec (.semwait hd cmp scr ord scope off d a) s = .next t ∧ t.group? c.gid = some g ∧ SameRegs c.g g ∧ t.mem = s.mem ∧ t.pend = s.pend ∧
        Accessed s t c.gid ∧ (∀ l, inMask c.is.mask l = true → inMask (c.act hd) l = false → g.stands l c.after) ∧
        ∀ x ∈ ps, ∃ f ∈ g.frags, ∃ k ws, f.park = some (k, .semwait cmp scr ord ws) ∧ f.pc = c.is.pc ∧ inMask f.mask x.1 = true ∧
          ∃ p ∈ x.2.head?, (x.1, p.va, p.pa, c.readReg s.fresh 2 x.1 d) ∈ ws) ∧
  (∀ (s : State) (g : Group) (f : Frag) (l : Launch) (len : Nat) (cmp : SemCmp) (scr : Bool) (ord : Order) (lane va pa : Nat) (v : DWord) (xs ys : List Group)
    (as bs : List Frag), s.groups = xs ++ g :: ys → g.frags = as ++ f :: bs → s.group? g.gid = some g → s.launch? g.gid.lid = some l → lane < 64 →
    f.mask = maskOf [lane] → f.park = some (len, .semwait cmp scr ord [(lane, va, pa, v)]) →
    (∀ x ∈ xs ++ ys, ∀ y ∈ x.frags, y.park = none) → (∀ y ∈ as ++ bs, y.park = none) → s.semWhere g.gid scr va = .ok pa →
    ((homeBulk pa).isSome = true → ∀ bs, s.readBytes (fun x => x = .thread g.gid lane) lane pa 8 = some bs →
      (g.loose (maskOf [lane]) = maskOf [lane] → semTest cmp (BitVec.ofNat 64 (ofBytes bs)) v = true →
        ∃ t g', exec (.semwaitRelease pa) s = .next t ∧ t.group? g.gid = some g' ∧ g'.stands lane (f.pc + BitVec.ofNat 32 len) ∧ SameRegs g g' ∧
          t.mem = s.mem ∧ t.pend = s.pend ∧ Accessed s t g.gid) ∧
      (g.loose (maskOf [lane]) = maskOf [lane] → semTest cmp (BitVec.ofNat 64 (ofBytes bs)) v = false →
        ∃ t, exec (.semwaitRelease pa) s = .next t ∧ t.groups = s.groups ∧ t.mem = s.mem ∧ t.pend = s.pend) ∧
      (g.loose (maskOf [lane]) ≠ maskOf [lane] → Waits s (exec (.semwaitRelease pa) s))) ∧
    (scr = false → homeBulk pa = none →
      ((∀ e ∈ s.ext, e.poll ≠ some (g.gid, lane) ∧ e.id < s.serial) → ∃ t e, exec (.semwaitPoll g.gid lane) s = .next t ∧ t.ext = s.ext ++ [e] ∧ e.op = .read 8 ∧ e.reply = none ∧
        e.poll = some (g.gid, lane) ∧ t.groups = s.groups ∧ t.mem = s.mem) ∧
      ∀ e bs, (s.ext.find? fun e => e.poll = some (g.gid, lane)) = some e → e.reply = some (.ok bs) →
        ∃ t g', exec (.semwaitPoll g.gid lane) s = .next t ∧ t.group? g.gid = some g' ∧ SameRegs g g' ∧ t.mem = s.mem ∧
          if semTest cmp (BitVec.ofNat 64 (ofBytes (bs.take 8))) v = true ∧ g.loose (maskOf [lane]) = maskOf [lane] then g'.stands lane (f.pc + BitVec.ofNat 32 len) else g' = g))

/-! ### Matrix instructions -/

/-- R98, R279, R281, R283, R284, R288: a matrix instruction of a fragment that holds every live lane, with its scratch operands aligned and in bounds and fewer than
eight outstanding, becomes the group's newest outstanding one with the values it captures, and changes no register. With eight it waits. In part of the lanes it
is ILLEGAL. A misaligned scratch operand, A before B, traps ALIGN; else an image out of bounds, A before B, traps SCRATCH-BOUNDS. R282, R284, R288, R369:
MATRIX_COMPLETION completes the oldest outstanding instruction of the group, on a core that the current limiter does not hold. MZERO writes 0 to the N
accumulator registers of every live lane. An instruction on register fragments without scales writes, in row i and column j, what R151 makes of row i of A,
column j of B and the accumulator (0 without ACC); for S8 and S4 that is the sum of products modulo 2^32. No other register changes. With none outstanding
nothing happens. R151, R282, R283, R285 to R287: in general each operand lies in registers or in scratch, with a scale byte for each run of 32 of an MX
instruction, and with masks that spread the kept elements of A for a sparse one (of a depth that is a multiple of 128, as R286 demands). Once nothing is in
flight and no word has an error, a completion writes in row i and column j what R151 makes of row i of A, column j of B and their scales; or, if a mask of a
live row has another number of bits than Z, it writes nothing, and MWAIT will report those rows. -/
def Obligations.MatrixInstructionsIssueAndComplete : Prop :=
  (∀ (s : State) (c : Ctx) (i : Instr) (ts : Option (Nat × Nat)), s.ctx? = some c → matScales i = some ts →
    let o := matOp i
    let offA : DWord := match o with | some x => BitVec.ofNat 64 (c.scratchOperand x.a).1 | none => 0
    let offB : DWord := match o with | some x => BitVec.ofNat 64 (c.scratchOperand x.b).1 | none => 0
    (c.g.live &&& ~~~ c.is.mask ≠ 0 → TrapsIllegal s c c.is.mask c.is.mask (exec i s)) ∧
    (c.g.live &&& ~~~ c.is.mask = 0 →
      (¬ c.aAligned o → Traps s c Cause.align c.is.mask c.is.mask (0x2000000000000000) (fun _ => offA) (exec i s)) ∧
      (c.aAligned o → ¬ c.bAligned o → Traps s c Cause.align c.is.mask c.is.mask (0x2000000000000001) (fun _ => offB) (exec i s)) ∧
      (c.aAligned o → c.bAligned o → ¬ c.aInside o → Traps s c Cause.bounds c.is.mask c.is.mask (0x2000000000000000) (fun _ => offA) (exec i s)) ∧
      (c.aAligned o → c.bAligned o → c.aInside o → ¬ c.bInside o →
        Traps s c Cause.bounds c.is.mask c.is.mask (0x2000000000000001) (fun _ => offB) (exec i s)) ∧
      (c.aAligned o → c.bAligned o → c.aInside o → c.bInside o →
        (8 ≤ c.g.undone → Waits s (exec i s)) ∧
        (c.g.undone < 8 → Issues s c (fun m => m.ins = i ∧ m.pc = c.is.pc ∧ m.done = false ∧ m.bad = 0 ∧ m.olds = [] ∧
          (∀ p, ts = some p → m.sa = SMap.get c.g.sc p.1 ∧ m.sb = SMap.get c.g.sc p.2) ∧
          (∀ x, o = some x → (x.areg = false → (m.offA, m.pA) = c.scratchOperand x.a) ∧ (x.breg = false → (m.offB, m.pB) = c.scratchOperand x.b)) ∧
          m.corrupt = c.g.readsPending i c.w64) (exec i s))))) ∧
  (∀ (s : State) (g : Group) (b : Block) (l : Launch), s.group? g.gid = some g → s.block? g.gid.lid g.gid.blk = some b → s.launch? g.gid.lid = some l →
    (b.core ∈ s.frozen ∨ (∀ m ∈ g.mats, m.done = true) → exec (.matrixCompletion g.gid) s = .next s) ∧
    ∀ m, b.core ∉ s.frozen → (g.mats.find? fun m => !m.done) = some m → m.corrupt = false → m.bad = 0 →
      let Writes (d n : Nat) (f : Nat → Nat → Word) : Prop := ∃ t g', exec (.matrixCompletion g.gid) s = .next t ∧ t.group? g.gid = some g' ∧
        (∀ r i, i < 64 → SMap.get g'.v (r * 64 + i) = if inMask g.live i = true ∧ d ≤ r ∧ r < d + n then f i (r - d) else SMap.get g.v (r * 64 + i)) ∧
        g'.mats = (g.mats.map fun y => if y.at_ = m.at_ then { y with done := true, bad := 0 } else y) ∧
        g'.s = g.s ∧ g'.h = g.h ∧ g'.p = g.p ∧ g'.sc = g.sc ∧ g'.fpm = g.fpm ∧ g'.fpst = g.fpst ∧ g'.frags = g.frags ∧ g'.live = g.live ∧ g'.rets = g.rets ∧
        t.blocks = s.blocks ∧ t.retired = s.retired ∧ SameElsewhere s t g.gid
      (∀ hd n64 d, m.ins = .mzero hd n64 d → Writes d (if n64 then 64 else 32) fun _ _ => 0) ∧
      ∀ o, matOp m.ins = some o → o.sparse = false → o.mx = false → o.areg = true → o.breg = true →
        let old (i j : Nat) : Word := if o.acc then SMap.get g.v ((o.d + j) * 64 + i) else 0
        let a (i k : Nat) : Nat := g.fragElem i o.a o.ty.bits k
        let b (j k : Nat) : Nat :=
          if bCols l.w64 (o.n = 64) = 2 then g.fragElem (j % 32) (o.b + j / 32 * o.ty.regsOf o.ty.k) o.ty.bits k else g.fragElem j o.b o.ty.bits k
        Writes o.d o.n (fun i j => matElem o m.sa m.sb ((List.range o.ty.k).map (a i)) [] ((List.range o.ty.k).map (b j)) [] (old i j)) ∧
        (o.ty.isInt = true → Writes o.d o.n (fun i j =>
          BitVec.ofInt 32 ((old i j).toInt + ((List.range o.ty.k).map fun k => signed o.ty.bits (a i k) * signed o.ty.bits (b j k)).sum)))) ∧
  (∀ (s : State) (g : Group) (b : Block) (l : Launch) (m : Mat) (o : MatOp), s.group? g.gid = some g → s.block? g.gid.lid g.gid.blk = some b →
    s.launch? g.gid.lid = some l → b.core ∉ s.frozen → (g.mats.find? fun m => !m.done) = some m → m.corrupt = false → m.dirty = [] → m.olds = [] → g.olds = [] →
    s.pend = [] → s.eccBad = [] → s.eccSoft = [] → matOp m.ins = some o → (o.sparse = true → o.depth % 128 = 0) →
    let e := o.ty.bits
    let z := if o.k4 then 32 else 64
    let regs (lane r n : Nat) : List Byte := (List.range n).flatMap fun i => toBytes 4 (SMap.get g.v ((r + i) * 64 + lane)).toNat
    let aImage (i : Nat) : List Byte := if o.areg then regs i o.a (aRegs o.ty o.sparse o.k4 o.mx) else Memory.read s.mem (b.scratchPa (m.offA + i * m.pA)) o.aImage
    let aRow (i : Nat) : Nat := ofBytes ((aImage i).take o.aData)
    let mask (i q : Nat) : Nat := ofBytes (((aImage i).drop (o.aData + 16 * q)).take 16)
    let ones (x n : Nat) : Nat := ((List.range n).filter fun u => x.testBit u).length
    let a (i k : Nat) : Nat :=
      if o.sparse then (if (mask i (k / 128)).testBit (k % 128) then field (aRow i) (e * (k / 128 * z + ones (mask i (k / 128)) (k % 128))) e else 0)
      else field (aRow i) (e * k) e
    let sa (i r : Nat) : Nat := ((aImage i).getD (o.aData + o.aMasks + r) 0).toNat
    let cols := bCols l.w64 (o.n = 64)
    let lane (j : Nat) : Nat := if cols = 2 then j % 32 else j
    let at_ (j n : Nat) : Nat := if cols = 2 then j / 32 * n else 0
    let nd := o.ty.regsOf o.depth
    let ns := bScaleRegs o.ty o.sparse o.k4 o.mx
    let bRow (k : Nat) : List Byte := Memory.read s.mem (b.scratchPa (m.offB + k * m.pB)) (o.bRow k)
    let bv (j k : Nat) : Nat := if o.breg then field (ofBytes (regs (lane j) (o.b + at_ j nd) nd)) (e * k) e else field (ofBytes (bRow k)) (e * j) e
    let sb (j r : Nat) : Nat :=
      if o.breg then ((regs (lane j) (o.b + cols * nd + at_ j ns) ns).getD r 0).toNat else field (ofBytes (bRow (o.depth + r))) (8 * j) 8
    let old (i j : Nat) : Word := if o.acc then SMap.get g.v ((o.d + j) * 64 + i) else 0
    let wrong (i : Nat) : Prop := inMask g.live i = true ∧ o.sparse = true ∧ ∃ q, q < o.aMasks / 16 ∧ ones (mask i q) 128 ≠ z
    ∃ t g' bad, exec (.matrixCompletion g.gid) s = .next t ∧ t.group? g.gid = some g' ∧ (∀ i, i < 64 → (inMask bad i = true ↔ wrong i)) ∧
      g'.mats = (g.mats.map fun y => if y.at_ = m.at_ then { y with done := true, bad := bad } else y) ∧
      (∀ r i, i < 64 → inMask g.live i = true → o.d ≤ r → r < o.d + o.n → (∀ j, ¬wrong j) →
        SMap.get g'.v (r * 64 + i) = matElem o m.sa m.sb ((List.range o.depth).map (a i)) ((List.range o.runs).map (sa i))
          ((List.range o.depth).map (bv (r - o.d))) ((List.range o.runs).map (sb (r - o.d))) (old i (r - o.d))) ∧
      (∀ r i, i < 64 → inMask g.live i = false ∨ r < o.d ∨ o.d + o.n ≤ r ∨ (∃ j, wrong j) → SMap.get g'.v (r * 64 + i) = SMap.get g.v (r * 64 + i)) ∧
      g'.s = g.s ∧ g'.h = g.h ∧ g'.p = g.p ∧ g'.sc = g.sc ∧ g'.fpm = g.fpm ∧ g'.fpst = g.fpst ∧ g'.frags = g.frags ∧ g'.live = g.live ∧ g'.rets = g.rets ∧
      t.blocks = s.blocks ∧ t.retired = s.retired ∧ SameElsewhere s t g.gid)

/-- R98, R287, R289, R290: MWAIT n waits until at most n matrix instructions of the group are outstanding, then goes on without them; one of those it counts whose
sparsity masks are wrong is reported and retired instead, earliest first. The model's choice (log entry 96): it counts in issue order, and the position it
reports is that among those not retired. After MFENCE the fetch of a later matrix instruction reads every byte as memory holds it, unless a write of the group
or of a chain to it is still in flight; it changes no register. -/
def Obligations.MatrixWaitsAndFence : Prop :=
  ∀ (s : State) (c : Ctx) (hd : Hdr), s.ctx? = some c → c.act hd ≠ 0 →
    (∀ n, let need := c.g.mats.take (c.g.mats.length - n)
      ((∃ m ∈ need, m.done = false) → Waits s (exec (.mwait hd n) s)) ∧
      ((∀ m ∈ need, m.done = true) →
        (∀ m, (need.find? fun m => m.bad ≠ 0) = some m → ∃ t g, exec (.mwait hd n) s = .next t ∧ t.group? c.gid = some g ∧
          g.frame.cause = BitVec.ofNat 32 Cause.sparse ∧ g.frame.mask = m.bad ∧ g.frame.pc = c.is.pc ∧
          g.frame.info = BitVec.ofNat 64 (m.pc.toNat + (c.g.mats.filter fun x => decide (x.at_ < m.at_) && (!x.done || x.bad ≠ 0)).length * 2 ^ 32) ∧
          g.mats = (c.g.mats.filter fun y => y.at_ ≠ m.at_) ∧ SameRegs c.g g ∧ t.mem = s.mem ∧ t.pend = s.pend ∧ t.blocks = s.blocks ∧
          (∀ h, c.g.handler = none → c.l.handlerOf Cause.sparse = some h →
            ∀ l, inMask c.is.mask l = true → g.stands l (if inMask (c.act hd) l then h else c.after))) ∧
        ((∀ m ∈ need, m.bad = 0 ∧ m.corrupt = false) → ∃ t g, exec (.mwait hd n) s = .next t ∧ t.group? c.gid = some g ∧
          g.mats = c.g.mats.drop (c.g.mats.length - n) ∧ SameRegs c.g g ∧ (∀ l, inMask c.is.mask l = true → g.stands l c.after) ∧
          g.live = c.g.live ∧ g.rets = c.g.rets ∧ t.blocks = s.blocks ∧ SameElsewhere s t c.gid))) ∧
    ∃ t g, exec (.mfence hd) s = .next t ∧ t.group? c.gid = some g ∧ SameRegs c.g g ∧ (∀ l, inMask c.is.mask l = true → g.stands l c.after) ∧
      g.live = c.g.live ∧ g.rets = c.g.rets ∧ g.mats.length = c.g.mats.length ∧ t.blocks = s.blocks ∧ SameElsewhere s t c.gid ∧
      ∀ m pa, m.olds = [] → t.chainByte pa = none → (∀ p ∈ t.pend, ∀ x k, p.src = .thread x k → x = c.gid → ¬ (p.pa ≤ pa ∧ pa < p.pa + p.size)) →
        t.fetchByte g m pa = Memory.get t.mem pa

/-! ### Copy chains -/

/-- R95, R103, R104, R118, R258, R259: CPCHAIN adds a chain at its scratch offset, as the newest of the group, and the lanes go on; with eight outstanding it waits;
a misaligned offset traps ALIGN. CPWAIT n goes on when at most n chains of the group are outstanding, and waits otherwise. CPTEST gives their number, and 1 in
pd when it is 0. A stop of the oldest chain, once its writes have performed, is reported by CPWAIT and CPTEST as a precise trap with the cause, address and
%tinfo of the stop, and the chain retires. Chains retire in issue order, once they have ended and every write of theirs has performed. The model's choices:
CPTEST too reports a stop only once the chain's writes have performed (log entry 99), and the position in %tinfo is that among the chains not retired (log entry
96). -/
def Obligations.ChainsIssueRetireAndReport : Prop :=
  ∀ (s : State) (c : Ctx) (hd : Hdr), s.ctx? = some c → c.act hd ≠ 0 →
    let u := s.retireChains c.gid
    (∀ a, let o := (c.readReg s.fresh 1 ((lanes (c.act hd)).headD 0) a).toNat % 2 ^ 32
      (o % 32 ≠ 0 → Traps s c Cause.align (c.act hd) (c.act hd) 0x15 (fun _ => BitVec.ofNat 64 o) (exec (.cpchain hd a) s)) ∧
      (o % 32 = 0 → 8 ≤ (u.chainsOf c.gid).length → exec (.cpchain hd a) s = .next u) ∧
      (o % 32 = 0 → (u.chainsOf c.gid).length < 8 → ∃ t g k, exec (.cpchain hd a) s = .next t ∧ t.group? c.gid = some g ∧ SameRegs c.g g ∧
        (∀ l, inMask c.is.mask l = true → g.stands l c.after) ∧ t.chains = u.chains ++ [k] ∧ k.id = s.serial ∧ k.gid = c.gid ∧ k.lanes = c.act hd ∧
        k.core = c.core ∧ k.pc = c.is.pc ∧ k.base = o ∧ k.entry = 0 ∧ k.unit = 0 ∧ k.loops = [] ∧ k.ended = false ∧ k.stop = none ∧
        SameElsewhere { s with chains := t.chains } t c.gid)) ∧
    (∀ n, (u.chainsOf c.gid).length ≤ n → c.g.err = none → ∃ t g, exec (.cpwait hd n) s = .next t ∧ t.group? c.gid = some g ∧ SameRegs c.g g ∧
        (∀ l, inMask c.is.mask l = true → g.stands l c.after) ∧ t.chains = u.chains ∧ SameElsewhere { s with chains := t.chains } t c.gid) ∧
    (∀ n, n < (u.chainsOf c.gid).length → u.stoppedChain c.gid = none → exec (.cpwait hd n) s = .next u) ∧
    (∀ n k x, n < (u.chainsOf c.gid).length → u.stoppedChain c.gid = some (k, x) →
      Traps { u with chains := u.chains.filter fun y => y.id ≠ k.id } c x.cause (c.act hd) (c.act hd) x.info (fun _ => x.addr) (exec (.cpwait hd n) s)) ∧
    (∀ d pd k x, u.stoppedChain c.gid = some (k, x) →
      Traps { u with chains := u.chains.filter fun y => y.id ≠ k.id } c x.cause (c.act hd) (c.act hd) x.info (fun _ => x.addr) (exec (.cptest hd d pd) s)) ∧
    (∀ d pd, u.stoppedChain c.gid = none → c.g.err = none → ClearOfMatrix c (some (d, 1)) →
      let n := (u.chainsOf c.gid).length
      let out (_ : Nat) : LaneOut := { d := BitVec.ofNat 64 n, p := some (pd, n = 0) }
      ∃ t g, exec (.cptest hd d pd) s = .next t ∧ t.group? c.gid = some g ∧ (∀ l, inMask c.is.mask l = true → g.stands l c.after) ∧
        (∀ r l, l < 64 → SMap.get g.v (r * 64 + l) = newV c (c.act hd) (some (d, 1)) out r l) ∧
        (∀ r, SMap.get g.s r = newS c (c.act hd) (some (d, 1)) out r) ∧ (∀ l j, j < 8 → g.pred l j = newP c (c.act hd) out l j) ∧
        t.chains = u.chains ∧ SameElsewhere { s with chains := t.chains } t c.gid) ∧
    ((s.chains.map fun k => k.id).Nodup →
      u.chainsOf c.gid = ((s.chainsOf c.gid).dropWhile fun k => s.chainDone k && k.stop.isNone) ∧ (∀ k ∈ s.chains, k.gid ≠ c.gid → k ∈ u.chains) ∧
      ∀ k, k.gid = c.gid → s.chain? k.id = some k → exec (.chainCompletion k.id) s = .next (if s.chainDone k then u else s))

/-- R95, R110, R113 to R116, R132: LOOP repeats the BACK entries before it COUNT more times with a stack of at most two pairs; a BACK of 0 or beyond the first entry
and a third pair stop the chain with ILLEGAL. IFSEM goes to the next entry when its test holds and skips SKIP more when it does not. SIGNAL adds to HOLD, within
20 bits, or puts a read-modify-write of 8 bytes in flight behind every earlier write of the chain. END ends the chain. A misaligned semaphore stops it with
ALIGN, before any other check of it (the model's choice, log entry 51). -/
def Obligations.ChainControlEntries : Prop :=
  ∀ (s : State) (k : Chain) (b : Block) (l : Launch), Running s k b l → k.stop = none →
    (∀ count back, let ill := Stopped s k Cause.illegal k.offset (chainInfo 0 0 false 0 k.entry) (exec (.chainLoop count back) s)
      let goes (loops : List (Nat × Nat)) (e : Nat) : Prop := Sends s k { k.goto e with loops := loops } l [] (exec (.chainLoop count back) s)
      (back = 0 ∨ k.entry < back → ill) ∧
      (0 < back → back ≤ k.entry →
        (∀ above rest rem, k.loops = above ++ (k.entry, rem) :: rest → (∀ p ∈ above, p.1 ≠ k.entry) →
          (rem = 0 → goes rest (k.entry + 1)) ∧ (rem ≠ 0 → goes ((k.entry, rem - 1) :: rest) (k.entry - back))) ∧
        ((∀ p ∈ k.loops, p.1 ≠ k.entry) →
          (count = 0 → goes k.loops (k.entry + 1)) ∧ (count ≠ 0 → 2 ≤ k.loops.length → ill) ∧
          (count ≠ 0 → k.loops.length < 2 → goes ((k.entry, count - 1) :: k.loops) (k.entry - back))))) ∧
    (∀ h op skip value addr, let a := chainAddr h.ssp addr.toNat
      (a % 8 ≠ 0 → Stopped s k Cause.align a (chainInfo (if h.ssp then 1 else 0) 3 false 0 k.entry) (exec (.ifsem h op skip value addr) s)) ∧
      (a % 8 = 0 → ∀ bs at_ u, ChainReads s k b l h.ssp false true a 8 bs at_ u →
        Sends s k (k.goto (k.entry + 1 + if semTest op (BitVec.ofNat 64 (ofBytes bs)) value then 0 else skip)) l [] (exec (.ifsem h op skip value addr) s))) ∧
    (∀ scr addend addr, let x : Int := (look 0 l.holds k.core : Nat) + addend.toInt
      (x < 0 ∨ 2 ^ 20 ≤ x → Stopped s k Cause.illegal k.offset (chainInfo 0 0 false 0 k.entry) (exec (.chainSignal scr true addend addr) s)) ∧
      (0 ≤ x → x < 2 ^ 20 → ∃ t y, exec (.chainSignal scr true addend addr) s = .next t ∧ t.chain? k.id = some (k.goto (k.entry + 1)) ∧
        t.launch? l.lid = some y ∧ (look 0 y.holds k.core : Nat) = x ∧ (∀ i, i ≠ k.core → look 0 y.holds i = look 0 l.holds i) ∧ t.mem = s.mem ∧
        t.pend = s.pend ∧ t.groups = s.groups)) ∧
    (∀ scr addend addr, let a := chainAddr scr addr.toNat
      (a % 8 ≠ 0 → Stopped s k Cause.align a (chainInfo (if scr then 1 else 0) 3 true 0 k.entry) (exec (.chainSignal scr false addend addr) s)) ∧
      (a % 8 = 0 → ∀ p ps, s.chainCheck k b l scr true true true a 8 = .ok (p :: ps) → (∀ y ∈ p :: ps, y.outside = false) → s.chainRoom k [(a, 4)] = true →
        (∀ q ∈ s.pend, q.src = .chain k.id → q.ext = none) →
        ∃ t q, exec (.chainSignal scr false addend addr) s = .next t ∧ t.chain? k.id = some (k.goto (k.entry + 1)) ∧ t.pend = s.pend ++ [q] ∧
          q.src = .chain k.id ∧ q.pa = p.pa ∧ q.op = .sem .add addend ∧ q.tc = none ∧ q.cls = .chain ∧
          (∀ y ∈ s.pend, y.src = .chain k.id → y.cls ≠ .put → y.id ∈ q.after) ∧ t.mem = s.mem ∧ t.groups = s.groups ∧ t.launches = s.launches)) ∧
    Sends s k { k with ended := true, ent := none, stuck := none } l [] (exec .chainEnd s)

/-- R111, R112, R117, R131: COPY1D, COPY2D, GATHER, SCATTER and FILL, one staging unit: the bytes of the source row that lie in the chain's 128 B block are read,
and put in flight to the destination that Table 04-3 and R111 give, as if one byte were copied after another; then the chain stands at the next unit. An entry
of no bytes is passed. A source, an index or a destination that fails its check stops the chain with nothing written. The model's choices (log entry 50): the
stop shows the first byte of the unit's failing access and the log2 of its length, and the source is checked before the destination. R111: the unit's bytes are
written as if each were copied before the next is read, for any memory `m`; and byte j of row i of a COPY2D goes to DST + i × DSTRIDE + j, or with TR to DST +
(j / E) × DSTRIDE + i × E + j mod E, modulo the size of the space. -/
def Obligations.ChainDataEntriesMoveUnits : Prop :=
  (∀ (s : State) (k : Chain) (b : Block) (l : Launch) (h : CHdr), Running s k b l → k.stop = none →
    let stops (f : Fail) : Prop := f ≠ .unc ∧ (f = .page 0 → l.rcd.flags.getLsbD 1 = false)
    (∀ i : Instr, (∃ src dst, i = .chainCopy1d h 0 src dst) ∨ (∃ rows n ss ds src dst, i = .chainCopy2d h rows n ss ds src dst ∧ (rows = 0 ∨ n = 0)) ∨
        (∃ count n x t src dst, (i = .chainGather h count n x t src dst ∨ i = .chainScatter h count n x t src dst) ∧ (count = 0 ∨ n = 0)) ∨
        (∃ v dst, i = .chainFill h 0 v dst) → Sends s k (k.goto (k.entry + 1)) l [] (exec i s)) ∧
    (∀ n (src dst : DWord) bs at_ u to_, n ≠ 0 → let r := blockRange src.toNat n k.part
      ChainReads s k b l h.ssp h.so false (chainAddr h.ssp (src.toNat + r.1)) (r.2 - r.1) bs at_ u →
      Targets u k b l h.dsp [(chainAddr h.dsp (dst.toNat + r.1), r.2 - r.1)] to_ → at_.length = to_.length →
      Sends s k (k.nextUnit 1 src.toNat n) l (copyBytes (at_.zip bs) to_) (exec (.chainCopy1d h n src dst) s)) ∧
    (∀ rows n (ss ds : Word) (src dst : DWord) bs at_ u to_, rows ≠ 0 → n ≠ 0 →
      let sa := chainAddr h.ssp (src.toNat + k.row * ss.toInt)
      let r := blockRange sa n k.part
      ChainReads s k b l h.ssp h.so false (chainAddr h.ssp (sa + r.1 : Nat)) (r.2 - r.1) bs at_ u →
      Targets u k b l h.dsp (copy2dRuns h dst.toNat ds.toInt k.row r.1 r.2) to_ → at_.length = to_.length →
      Sends s k (k.nextUnit rows sa n) l (copyBytes (at_.zip bs) to_) (exec (.chainCopy2d h rows n ss ds src dst) s)) ∧
    (∀ count n idxOff stride (src dst : DWord) ib ia v, count ≠ 0 → n ≠ 0 → k.part = 0 → k.stuck = none →
      ChainReads s k b l true false false (chainAddr true (idxOff + 4 * k.row : Nat)) 4 ib ia v →
      let idx := ofBytes ib
      let k' : Chain := { k with idx := idx }
      let v' := v.modChain k.id fun x => { x with idx := idx }
      (∀ bs at_ u to_, let sa := chainAddr h.ssp (src.toNat + idx * stride : Nat)
        let r := blockRange sa n 0
        ChainReads v' k b l h.ssp h.so false (chainAddr h.ssp (sa + r.1 : Nat)) (r.2 - r.1) bs at_ u →
        Targets u k b l h.dsp [(chainAddr h.dsp (dst.toNat + k.row * n + r.1 : Nat), r.2 - r.1)] to_ → at_.length = to_.length →
        Sends s k (k'.nextUnit count sa n) l (copyBytes (at_.zip bs) to_) (exec (.chainGather h count n idxOff stride src dst) s)) ∧
      (∀ bs at_ u to_, let sa := chainAddr h.ssp (src.toNat + k.row * n : Nat)
        let r := blockRange sa n 0
        ChainReads v' k b l h.ssp h.so false (chainAddr h.ssp (sa + r.1 : Nat)) (r.2 - r.1) bs at_ u →
        Targets u k b l h.dsp [(chainAddr h.dsp (dst.toNat + idx * stride + r.1 : Nat), r.2 - r.1)] to_ → at_.length = to_.length →
        Sends s k (k'.nextUnit count sa n) l (copyBytes (at_.zip bs) to_) (exec (.chainScatter h count n idxOff stride src dst) s))) ∧
    (∀ count (v dst : DWord) to_, count ≠ 0 → let n := count * h.elem
      let r := blockRange (chainAddr h.dsp dst.toNat) n k.part
      Targets s k b l h.dsp [(chainAddr h.dsp (chainAddr h.dsp dst.toNat + r.1 : Nat), r.2 - r.1)] to_ → to_.length = r.2 - r.1 →
      Sends s k (k.nextUnit 1 (chainAddr h.dsp dst.toNat) n) l
        (to_.zip ((List.range (r.2 - r.1)).map fun i => BitVec.ofNat 8 (v.toNat / 2 ^ (8 * ((r.1 + i) % h.elem))))) (exec (.chainFill h count v dst) s)) ∧
    (∀ n (src dst : DWord) f, n ≠ 0 → let r := blockRange src.toNat n k.part
      let a := chainAddr h.ssp (src.toNat + r.1)
      s.chainRoom k [(chainAddr h.dsp (dst.toNat + r.1), r.2 - r.1)] = true → s.chainCheck k b l h.ssp false true false a (r.2 - r.1) = .error f → stops f →
      Stopped s k f.cause a (chainInfo (if h.ssp then 1 else 0) (Nat.log2 (r.2 - r.1)) false f.kind k.entry) (exec (.chainCopy1d h n src dst) s)) ∧
    (∀ rows n (ss ds : Word) (src dst : DWord) f, rows ≠ 0 → n ≠ 0 → stops f → let sa := chainAddr h.ssp (src.toNat + k.row * ss.toInt)
      let r := blockRange sa n k.part
      let a := chainAddr h.ssp (sa + r.1 : Nat)
      s.chainRoom k (copy2dRuns h dst.toNat ds.toInt k.row r.1 r.2) = true → s.chainCheck k b l h.ssp false true false a (r.2 - r.1) = .error f →
      Stopped s k f.cause a (chainInfo (if h.ssp then 1 else 0) (Nat.log2 (r.2 - r.1)) false f.kind k.entry) (exec (.chainCopy2d h rows n ss ds src dst) s)) ∧
    (∀ count n idxOff stride (src dst : DWord) f (i : Instr), (i = .chainGather h count n idxOff stride src dst ∨ i = .chainScatter h count n idxOff stride src dst) →
      count ≠ 0 → n ≠ 0 → k.part = 0 → k.stuck = none → stops f → let a := chainAddr true (idxOff + 4 * k.row : Nat)
      s.chainCheck k b l true false true false a 4 = .error f → Stopped s k f.cause a (chainInfo 1 2 false f.kind k.entry) (exec i s)) ∧
    (∀ n (src dst : DWord) bs at_ u f, n ≠ 0 → stops f → let r := blockRange src.toNat n k.part
      let d := chainAddr h.dsp (dst.toNat + r.1)
      s.chainRoom k [(d, r.2 - r.1)] = true → ChainReads s k b l h.ssp h.so false (chainAddr h.ssp (src.toNat + r.1)) (r.2 - r.1) bs at_ u →
      u.chainCheck k b l h.dsp true false false d (r.2 - r.1) = .error f →
      Stopped s k f.cause d (chainInfo (if h.dsp then 1 else 0) (Nat.log2 (r.2 - r.1)) true f.kind k.entry) (exec (.chainCopy1d h n src dst) s)) ∧
    ∀ count (v dst : DWord) f, count ≠ 0 → stops f → let n := count * h.elem
      let r := blockRange (chainAddr h.dsp dst.toNat) n k.part
      let d := chainAddr h.dsp (chainAddr h.dsp dst.toNat + r.1 : Nat)
      s.chainRoom k [(d, r.2 - r.1)] = true → s.chainCheck k b l h.dsp true false false d (r.2 - r.1) = .error f →
      Stopped s k f.cause d (chainInfo (if h.dsp then 1 else 0) (Nat.log2 (r.2 - r.1)) true f.kind k.entry) (exec (.chainFill h count v dst) s)) ∧
  ((∀ (m : Nat → Byte) (xs ds : List Nat), xs.length = ds.length →
    ((copyBytes (xs.map fun a => (a, m a)) ds).foldl (fun m e => Function.update m e.1 e.2) m) =
      (xs.zip ds).foldl (fun m e => Function.update m e.2 (m e.1)) m) ∧
  ∀ (h : CHdr) (dst : Nat) (ds : Int) (i lo hi : Nat), lo < hi →
    let wide : Nat := if h.dsp then 2 ^ 32 else 2 ^ 64
    (copy2dRuns h dst ds i lo hi).flatMap (fun r => (List.range' r.1 r.2).map fun x => x % wide) =
      (List.range' lo (hi - lo)).map fun j =>
        ((if h.tr then (dst : Int) + (j / h.elem : Nat) * ds + (i * h.elem + j % h.elem : Nat) else (dst : Int) + i * ds + j) % (wide : Int)).toNat)

/-! ### Launches from the device, trace -/

/-- R260, R302: LAUNCH appends its record, read once, to the device queue of the partition and gives 0; with 1,024 entries held it appends nothing and gives 1.
R261, R366: TRACE does nothing while TRCCTL.EN is 0. While it is 1, a free slot of the ring gets the 32-byte record and TRCT.TAIL moves on; a full ring counts
the drop in TRCT[47:32], which saturates. The lanes go on and no register of the program changes. The model's choices: a record whose slot may not be written is
lost and TRCT.TAIL moves on (log entry 30), and a LOG2N outside 4 to 16 acts as 4 (log entry 110). -/
def Obligations.LaunchAndTrace : Prop :=
  (∀ (s : State) (c : Ctx) (hd : Hdr) (d a : Opnd) (ps : List (Nat × List Piece)) (p : Partition) (bs : List Byte),
    let l0 := (lanes (c.act hd)).headD 0
    let va := (c.readReg s.fresh 2 l0 a).toNat
    s.settled c.gid (c.act hd) = true → s.part? c.l.part = some p →
    Granted s c (c.act hd) .glob 128 false true true ((lanes (c.act hd)).map fun l => (l, va)) ps → s.gather c l0 0 0 (ps.headD (l0, [])).2 = some bs →
    ClearOfMatrix c (some (d, 1)) →
    let full : Bool := decide (1024 ≤ p.devq.length)
    let out (_ : Nat) : LaneOut := { d := BitVec.ofNat 64 (b2n full) }
    ∃ t g, exec (.launch hd d a) s = .next t ∧ t.group? c.gid = some g ∧ (∀ l, inMask c.is.mask l = true → g.stands l c.after) ∧
      (∀ r l, l < 64 → SMap.get g.v (r * 64 + l) = newV c (c.act hd) (some (d, 1)) out r l) ∧
      (∀ r, SMap.get g.s r = newS c (c.act hd) (some (d, 1)) out r) ∧ (∀ r l, l < 64 → SMap.get g.h (r * 64 + l) = newH c (c.act hd) (some (d, 1)) out r l) ∧
      (∀ l j, j < 8 → g.pred l j = c.g.pred l j) ∧ g.sc = c.g.sc ∧
      t.part? c.l.part = some (if full then p else { p with devq := p.devq ++ [⟨c.l.world, bs, 0⟩] }) ∧ (∀ x, x ≠ c.l.part → t.part? x = s.part? x) ∧
      t.mem = s.mem ∧ t.pend = s.pend ∧ t.launches = s.launches ∧ t.chains = s.chains) ∧
  (∀ (s : State) (c : Ctx) (hd : Hdr) (a : Opnd) (code : Nat) (x : World), s.ctx? = some c → c.act hd ≠ 0 → s.world? c.l.world = some x →
    let k := ringLog (x.fieldOf rTRCN 0 4) 4 16
    let tail := x.fieldOf rTRCT 0 16
    let rec_ := toBytes 8 s.now ++ toBytes 8 (c.act hd).toNat ++ toBytes 4 c.is.pc.toNat ++ toBytes 2 code ++ toBytes 2 c.core ++
      toBytes 4 (c.readReg s.fresh 1 ((lanes (c.act hd)).headD 0) a).toNat ++ toBytes 2 c.l.tag ++ toBytes 2 0
    ((x.reg rTRCCTL).getLsbD 0 = false → Moves s c (fun _ => c.after) (exec (.trace hd a code) s)) ∧
    ((x.reg rTRCCTL).getLsbD 0 = true → ∃ t g y, exec (.trace hd a code) s = .next t ∧ t.group? c.gid = some g ∧
      (∀ l, inMask c.is.mask l = true → g.stands l c.after) ∧ SameRegs c.g g ∧ t.world? c.l.world = some y ∧ t.mem = s.mem ∧
      (∀ off, off ≠ rTRCT → y.reg off = x.reg off) ∧
      ((tail + 1) % 2 ^ k = x.fieldOf rTRCH 0 16 % 2 ^ k → t.pend = s.pend ∧ y.fieldOf rTRCT 0 16 = tail ∧
        y.fieldOf rTRCT 32 16 = min 0xFFFF (x.fieldOf rTRCT 32 16 + 1)) ∧
      ((tail + 1) % 2 ^ k ≠ x.fieldOf rTRCH 0 16 % 2 ^ k → y.fieldOf rTRCT 0 16 = (tail + 1) % 2 ^ k ∧ y.fieldOf rTRCT 32 16 = x.fieldOf rTRCT 32 16 ∧
        ∀ ps, s.checkGlobal .host none x.part x.w (agentSource .host x.part x.w) [] true false false (x.fieldOf rTRCB 5 47 * 32 + 32 * (tail % 2 ^ k)) 32 = .ok ps →
          ∃ news, t.pend = s.pend ++ news ∧ news.flatMap Pend.cells = ((placesOf ps).zip rec_).map fun e => (Writer.dispatcher x.part, e.1, e.2))))

/-! ### Host queues, commands, the device queue -/

/-- R292, R293, R302, Tables 11-1 and 11-2: QTAIL takes the index written, modulo the ring's size. RESUME clears STOP. SKIP clears STOP and moves HEAD past the
command. CLR, while EN is 0, clears STOP, the code, HEAD and TAIL. RESUME and SKIP act only while STOP is 1, CLR only while EN is 0. Any write to DQERR clears
it. The fields of QCTL that a write does not name, other registers and memory stay. -/
def Obligations.QueueRegisterWrites : Prop :=
  ∀ (s : State) (w lvl : Nat) (x : World), s.world? w = some x → lvl < 4 →
    let onlyStop (y : World) : Prop := y.qStop lvl = false ∧ ∀ i, i < 64 → i ≠ 9 → (y.reg (rQCTL lvl)).getLsbD i = (x.reg (rQCTL lvl)).getLsbD i
    (∀ v, Becomes s w (exec (.qtailWrite w lvl v) s) fun y => y.qTail lvl = v.toNat % 2 ^ 16 % x.qSize lvl ∧ SameRegsBut x y [rQTAIL lvl]) ∧
    Becomes s w (exec (.qctlResume w lvl) s) (fun y => SameRegsBut x y [rQCTL lvl] ∧ onlyStop y) ∧
    (x.qStop lvl = true → Becomes s w (exec (.qctlSkip w lvl) s) fun y => SameRegsBut x y [rQCTL lvl, rQHEAD lvl] ∧ onlyStop y ∧
      y.qHead lvl = (x.qHead lvl + 1) % x.qSize lvl ∧ look 0 y.taken lvl = look 0 x.taken lvl + 1) ∧
    (x.qStop lvl = false → Becomes s w (exec (.qctlSkip w lvl) s) fun y => y = x) ∧
    (x.qEn lvl = false → Becomes s w (exec (.qctlClr w lvl) s) fun y => SameRegsBut x y [rQCTL lvl, rQHEAD lvl, rQTAIL lvl] ∧ y.qStop lvl = false ∧ y.qEn lvl = false ∧
      y.fieldOf (rQCTL lvl) 16 8 = 0 ∧ y.reg (rQHEAD lvl) = 0 ∧ y.reg (rQTAIL lvl) = 0) ∧
    (x.qEn lvl = true → Becomes s w (exec (.qctlClr w lvl) s) fun y => y = x) ∧
    Becomes s w (exec (.dqerrClear w) s) (fun y => y.reg rDQERR = 0 ∧ SameRegsBut x y [rDQERR])

/-- R297, Table 11-4: WAIT passes when the 8 bytes at its semaphore satisfy the test and waits otherwise; SIGNAL changes exactly those 8 bytes, to SEMVAL or the sum
or the greater, and passes; a misaligned address stops the queue with code 3, a failing one with 4 (BULKHEAD-DOWN) or 3. FENCE waits while a launch of its level
is in flight. BARRIER waits until every command of each queue it names that was in it when it reached the head has been passed and no launch of those commands
is in flight. (A semaphore in an uncorrectable word, log entry 35, is left out here.) R298, R299, Table 11-4: REPLACE with VALID 0 takes the binding of its
index out of the imposition table; with VALID 1 it binds the object at OBJ, which is read now, and no other index changes; an OBJ off a page or an object that
is refused stops the queue with code 5 and binds nothing. (An object with a GALLEYS section installs galleys as well: this clause is for one without.) The
model's choices: an object that cannot be read also gives code 5 and a bound object keeps the bytes that REPLACE read (log entry 53), sections that overlap are
refused (log entry 54), and so are handlers off a multiple of 8 (log entry 124). R296, Table 11-4: what each code means, in the order in which they are found:
0x10 no imposition entry; 0x11 a reserved field, flag or SEMVAL bit; 0x12 a width that the kernel lacks; 0x13 the grid or block; 0x14 SCRATCH; 0x15 ARGSIZE or
ARGPTR; 0x16 MODE; then, with the galley of its key, 0x17 never resident; 0x18 a handler that the kernel lacks; 0x19 DUMPADDR; 0x1A a beacon launch while a
bulkhead does not run. `fits n`: n blocks fit one empty core (R19, R128, R155). A record that none of them meets is not rejected. The model's choices: the
kernel entry is read at the LAUNCH, and is as REPLACE found it where that fails (log entry 53); codes 0x17 and above are judged once the galley exists (log
entry 55). R294 to R296, R299, R301, R302, Table 11-4: a launch record that passes its checks starts: the launch binds its object, takes the next tag, and runs;
the command is passed, or the entry leaves the device queue. A record that fails a check is rejected: SEMVAL with bit 63 set is written to its semaphore and the
code goes to QCTL or DQERR (stated where no word is uncorrectable: reading the kernel entry could fence the semaphore's bulkhead). A misaligned semaphore stops
the queue with code 3. Until its galley exists a translation is asked for, once. A device entry that is no launch record is discarded with code 1. What each
code means stands in the statement before. -/
def Obligations.QueueCommandsRun : Prop :=
  (∀ (s : State) (x : World) (lvl : Nat), s.cmd = some ⟨x.w, lvl⟩ → s.world? x.w = some x → lvl < 4 →
    let passes (o : Host.Outcome State Fault Refusal) : Prop := Becomes s x.w o fun y => HeadPassed x y lvl
    let busy (n k : Nat) : Prop := ∃ l ∈ s.launches, l.world = x.w ∧ l.lvl = some n ∧ l.cmd < k
    (∀ op (addr value : DWord), let o := exec (.cmdWait op addr value) s
      (addr.toNat % 8 ≠ 0 → QueueStops s x lvl 3 o) ∧
      (∀ f, addr.toNat % 8 = 0 → f ≠ .unc → s.checkGlobal .host none x.part x.w (agentSource .host x.part x.w) [] false true false addr.toNat 8 = .error f →
        QueueStops s x lvl (if f = .down then 4 else 3) o) ∧
      (∀ p m, SemHeld s x false addr.toNat p m → (semTest op m value = true → passes o) ∧ (semTest op m value = false → Becomes s x.w o fun y => y = x))) ∧
    (∀ op (addr value : DWord), let o := exec (.cmdSignal op addr value) s
      (addr.toNat % 8 ≠ 0 → QueueStops s x lvl 3 o) ∧
      (∀ p m, SemHeld s x true addr.toNat p m → p.pa % 4 = 0 →
        ∃ t y, o = .next t ∧ t.world? x.w = some y ∧ HeadPassed x y lvl ∧ SemWritten s t p.pa (semNew op m value))) ∧
    ((∃ l ∈ s.launches, l.world = x.w ∧ l.lvl = some lvl) → Waits s (exec .cmdFence s)) ∧
    ((∀ l ∈ s.launches, l.world = x.w → l.lvl ≠ some lvl) → passes (exec .cmdFence s)) ∧
    (∀ (m : BitVec 4) b, x.barriers.find? (fun b => b.lvl = lvl) = some b →
      ((∀ t ∈ b.tails, t.2 ≤ look 0 x.taken t.1 ∧ ¬busy t.1 t.2) → passes (exec (.cmdBarrier m) s)) ∧
      ((∃ t ∈ b.tails, look 0 x.taken t.1 < t.2 ∨ busy t.1 t.2) → Waits s (exec (.cmdBarrier m) s))) ∧
    (∀ (m : BitVec 4) e, (∀ b ∈ x.barriers, b.lvl ≠ lvl) → x.qOpen lvl = true → s.hostOwes x = false → s.headEntry x lvl = .ok e → decodeCommand e = some (.cmdBarrier m) →
      let named (n : Nat) : Prop := n < 4 ∧ m.getLsbD n = true ∧ n ≠ lvl
      ((∀ n, named n → x.qLeft n = 0 ∧ ¬busy n (look 0 x.taken n)) → passes (exec (.cmdBarrier m) s)) ∧
      ((∃ n, named n ∧ (x.qLeft n ≠ 0 ∨ busy n (look 0 x.taken n + x.qLeft n))) → Becomes s x.w (exec (.cmdBarrier m) s) fun y =>
        SameRegsBut x y [] ∧ y.taken = x.taken ∧ ∃ b, y.barriers = b :: x.barriers ∧ b.lvl = lvl ∧
          ∀ n k, (n, k) ∈ b.tails ↔ named n ∧ k = look 0 x.taken n + x.qLeft n))) ∧
  (∀ (s : State) (x : World) (lvl kidx : Nat) (e : ImpEntry), s.cmd = some ⟨x.w, lvl⟩ → s.world? x.w = some x → lvl < 4 →
    let rd (o n : Nat) : Option (List Byte) := match s.agentRead .trans x.part x.w ((e.obj.toNat + o) % 2 ^ 64) n with
      | .ok bs => some bs
      | .error _ => none
    let bound (y : World) (k : Nat) : Option Bound := (y.imp.find? fun b => b.1 = k).map fun b => b.2
    let o := exec (.replace kidx e) s
    let sets (v : Option Bound) : Prop :=
      ∃ t y, o = .next t ∧ t.world? x.w = some y ∧ HeadPassed x y lvl ∧ bound y kidx = v ∧ (∀ k, k ≠ kidx → bound y k = bound x k) ∧
        t.mem = s.mem ∧ t.pend = s.pend ∧ t.groups = s.groups ∧ t.launches = s.launches ∧
        ∀ u, u ≠ x.w → ∀ z, s.world? u = some z → ∃ z', t.world? u = some z' ∧ z' = { z with gens := z'.gens }
    (e.valid = false → sets none) ∧
    (e.valid = true → e.obj.toNat % 4096 ≠ 0 ∨ parseObject rd e.kent = none → QueueStops s x lvl 5 o) ∧
    (∀ ob, e.valid = true → e.obj.toNat % 4096 = 0 → parseObject rd e.kent = some (ob, []) → sets (some ⟨e, ob⟩))) ∧
  (∀ (s : State) (x : World) (p : Partition) (r : LaunchRec) (b0 : Bound) (g : Galley), s.semCheck x r.semAddr.toNat = none → s.part? x.part = some p →
    (x.imp.find? fun e => e.1 = r.kidx) = some (r.kidx, b0) →
    let k := (s.boundNow x b0).obj.kernel
    let W := if r.flags.getLsbD 0 then 64 else 32
    let blocks := r.gx * r.gy * r.gz
    let threads := r.bx * r.byy * r.bz
    let groups := (threads + W - 1) / W
    let beacon : Prop := r.flags.getLsbD 2 = true
    let fits (n : Nat) : Prop := n ≤ 16 ∧ n * groups ≤ 32 ∧ n * groups ≤ g.resid ∧ n * ((r.scratch + 4095) / 4096) ≤ Config.squares ∧
      n * ((k.queues.map fun q => q.2).sum * W * 4) ≤ 65536
    let c11 : Prop := r.rsvd = true ∨ r.flags.getLsbD 5 = true ∨ 2 ^ 32 ≤ r.mode.toNat ∨ r.semVal.getLsbD 63 = true
    let c12 : Prop := k.widths.testBit (if W = 64 then 1 else 0) = false
    let c13 : Prop := blocks = 0 ∨ threads = 0 ∨ 32 * W < threads
    let c14 : Prop := 1966080 < r.scratch ∨ r.scratch < k.scratch
    let c15 : Prop := 0x8000 < r.argSize ∨ r.argSize < k.argSize ∨ (r.argSize ≠ 0 ∧ r.argPtr.toNat % 16 ≠ 0)
    let c16 : Prop := r.mode.getLsbD 7 = true ∨ ∃ i, 12 ≤ i ∧ i < 32 ∧ r.mode.getLsbD i = true
    let c17 : Prop := ¬fits 1 ∨ (beacon ∧ ∀ n, fits n → n * (32 * p.bulks.length) < blocks)
    let c18 : Prop := (r.flags.getLsbD 3 = true ∧ k.traph = 0xFFFFFFFF) ∨ (r.flags.getLsbD 4 = true ∧ k.emulh = 0xFFFFFFFF)
    let c19 : Prop := r.dumpSize ≠ 0 ∧ r.dumpAddr.toNat % 64 ≠ 0
    let c1A : Prop := beacon ∧ ∃ b ∈ p.bulks, ∀ y, s.bulk? b = some y → y.st ≠ .running
    let rejects (c : Nat) : Prop := s.judge x r = .reject c
    (c11 → rejects 0x11) ∧ (¬c11 → c12 → rejects 0x12) ∧ (¬c11 → ¬c12 → c13 → rejects 0x13) ∧ (¬c11 → ¬c12 → ¬c13 → c14 → rejects 0x14) ∧
    (¬c11 → ¬c12 → ¬c13 → ¬c14 → c15 → rejects 0x15) ∧ (¬c11 → ¬c12 → ¬c13 → ¬c14 → ¬c15 → c16 → rejects 0x16) ∧
    (¬c11 → ¬c12 → ¬c13 → ¬c14 → ¬c15 → ¬c16 → s.findGalley (s.keyOf x (s.boundNow x b0).obj r.w64 r.mode.toNat) = some g →
      (c17 → rejects 0x17) ∧ (¬c17 → c18 → rejects 0x18) ∧ (¬c17 → ¬c18 → c19 → rejects 0x19) ∧ (¬c17 → ¬c18 → ¬c19 → c1A → rejects 0x1A) ∧
      (¬c17 → ¬c18 → ¬c19 → ¬c1A → ∀ c, ¬rejects c))) ∧
  ((∀ (s : State) (x : World) (lvl : Nat) (r : LaunchRec), s.cmd = some ⟨x.w, lvl⟩ → s.world? x.w = some x → lvl < 4 →
    let o := exec (.cmdLaunch r) s
    (r.semAddr.toNat % 8 ≠ 0 → QueueStops s x lvl 3 o) ∧
    (∀ p m, SemHeld s x true r.semAddr.toNat p m → p.pa % 4 = 0 →
      ((∀ b ∈ x.imp, b.1 ≠ r.kidx) → s.judge x r = .reject 0x10) ∧
      ∀ c, c < 256 → s.eccBad = [] → s.judge x r = .reject c → ∃ t y, o = .next t ∧ t.world? x.w = some y ∧ t.launches = s.launches ∧
        SemWritten s t p.pa (r.semVal ||| BitVec.ofNat 64 (2 ^ 63)) ∧ y.fieldOf (rQCTL lvl) 16 8 = c ∧ y.qStop lvl = x.qStop lvl ∧
        y.qHead lvl = (x.qHead lvl + 1) % x.qSize lvl ∧ look 0 y.taken lvl = look 0 x.taken lvl + 1 ∧ SameRegsBut x y [rQCTL lvl, rQHEAD lvl]) ∧
    (∀ k, s.judge x r = .translate k → ∃ t, o = .next t ∧ (x.w, r.kidx, k) ∈ t.translating ∧ t = { s with translating := t.translating }) ∧
    (s.judge x r = .hold → Waits s o) ∧
    (∀ b g d, s.judge x r = .start b g d → (∀ l ∈ s.launches, l.lid ≠ s.serial) → ∃ t y, o = .next t ∧ t.world? x.w = some y ∧ HeadPassed x y lvl ∧
      y.nextTag = (x.nextTag + 1) % 65536 ∧ LaunchStarted s t x (some lvl) (look 0 x.taken lvl) r b g d)) ∧
  ∀ (s : State) (p : Partition) (x : World) (e : DevEntry) (a rest : List DevEntry), s.part? p.id = some p → s.current p = some x → s.serves x = true →
    p.devq = a ++ e :: rest → e.world = x.w → (∀ z ∈ a, z.world ≠ x.w) →
    let o := exec (.deviceQueueEntry p.id) s
    let dropped (t : State) : Prop := ∃ q, t.part? p.id = some q ∧ q.devq = a ++ rest
    (ofBytes e.bytes % 256 ≠ 1 → ∃ t y, o = .next t ∧ dropped t ∧ t.world? x.w = some y ∧ y.fieldOf rDQERR 0 8 = 1 ∧
      y.fieldOf rDQERR 16 16 = min 0xFFFF (x.fieldOf rDQERR 16 16 + 1) ∧ SameRegsBut x y [rDQERR] ∧ t.launches = s.launches ∧ t.mem = s.mem) ∧
    (∀ b g d, ofBytes e.bytes % 256 = 1 → s.judge x (decodeRec (ofBytes e.bytes)) = .start b g d → (∀ l ∈ s.launches, l.lid ≠ s.serial) →
      ∃ t, o = .next t ∧ dropped t ∧ LaunchStarted s t x none 0 (decodeRec (ofBytes e.bytes)) b g d))

/-! ### Control page -/

/-- R316, Tables 12-4 and 12-5: while FQCTL.EN is 1 and the ring has room, the oldest waiting fault record of a world is written to its slot with an identifier that
no outstanding record has, and FQTAIL moves on; a full ring sets FULL and writes nothing. FQANS takes the records it names off the outstanding ones, and with
CANCEL their pages count as refused for who waits. Clearing EN cancels every outstanding and waiting record. CLR, while EN is 0, clears HEAD, TAIL and FULL. (A
record whose slot the world may not write is lost, log entry 30; this statement is of slots that it may.) R62 to R64, R368, R6, Tables 02-6 and 16-5:
TLBINV_CTL.GO sets BUSY, through the owner's function and while it is 0, for the range that TLBINV_VA names then; once nothing that a dropped translation may
have served is in flight, the entries that meet the range go and BUSY clears. PROFC.GO sets COUNT to the records written, or to 0 without a galley; CLEAR starts
the counting of its galley again. A write to a control register that simply stores keeps the bits that are not reserved; TRQ stores KIDX and W64 while BUSY too,
when its GO is ignored; a function in RUN turns away what does not come on its IDE stream with the T bit set (R376); PTROOT is stored while no launch of the
partition is in flight, and else sets BUSYERR; a debugger's register ignores a world without the debug right; PF0's page ignores writes. The model's choices:
TLBINV waits for every unanswered request of the partition to the host and to peers (log entry 61), and PROFC is never seen BUSY (log entry 65). -/
def Obligations.FaultQueueAndControlPage : Prop :=
  (∀ (s : State) (w : Nat) (x : World), s.world? w = some x →
    let o := exec (.pageFaultRecord w) s
    let k := ringLog (x.fieldOf rFQCTL 0 4) 4 12
    let tail := (x.reg rFQTAIL).toNat
    let full : Prop := (tail + 1) % 2 ^ k = (x.reg rFQHEAD).toNat % 2 ^ k
    (s.waitingRecord w = none ∨ (x.reg rFQCTL).getLsbD 8 = false → Waits s o) ∧
    (∀ r, s.waitingRecord w = some r → (x.reg rFQCTL).getLsbD 8 = true →
      (full → Becomes s w o fun y => y.fieldOf rFQCTL 9 1 = 1 ∧ (∀ lo n, lo + n ≤ 9 ∨ 10 ≤ lo → y.fieldOf rFQCTL lo n = x.fieldOf rFQCTL lo n) ∧
        SameRegsBut x y [rFQCTL] ∧ y.faults = x.faults) ∧
      (¬full → ∀ p id, s.checkGlobal .host none x.part w (agentSource .host x.part w) [] true true false ((x.reg rFQBASE).toNat + 32 * (tail % 2 ^ k)) 32 = .ok [p] →
        p.outside = false → p.len = 32 → p.pa % 4 = 0 → (∀ ln ∈ linesOf p.pa 32, s.lineFree ln = true) → freeId (x.faults.map fun f => f.id) 65536 x.nextFault = some id →
        (∀ f ∈ x.faults, f.id ≠ id) ∧
        let rec_ := toBytes 8 r.owed.addr ++ toBytes 2 id ++ toBytes 1 (b2n r.owed.write + 2 * (match r.src with | .chain _ => 1 | _ => 0)) ++ toBytes 1 r.gi ++
          toBytes 2 r.core ++ toBytes 2 0 ++ toBytes 8 r.pc.toNat ++ toBytes 8 r.owed.time
        ∃ t y, o = .next t ∧ t.world? w = some y ∧ y.faults = x.faults ++ [⟨id, r.src⟩] ∧ y.reg rFQTAIL = BitVec.ofNat 64 ((tail + 1) % 2 ^ k) ∧
          SameRegsBut x y [rFQTAIL] ∧ t.launches = s.launches ∧
          ∀ a, Memory.get t.mem a = if p.pa ≤ a ∧ a < p.pa + 32 then rec_.getD (a - p.pa) 0 else Memory.get s.mem a)) ∧
    (∀ id all cancel, let sel (i : Nat) : Bool := all || decide (i = id % 2 ^ 16)
      ∃ t y, exec (.fqans w id all cancel) s = .next t ∧ t.world? w = some y ∧ y.faults = x.faults.filter (fun f => !sel f.id) ∧ SameRegsBut x y [] ∧
        t.mem = s.mem ∧ t.launches = s.launches ∧
        ∀ f ∈ x.faults, sel f.id = true → ∀ g l z st os recs cs, f.src = .thread g l → s.group? g = some z → z.stuck = some st → st.hold = .replay os recs cs →
          ∃ z' st' recs' cs', t.group? g = some z' ∧ SameRegs z z' ∧ z'.stuck = some st' ∧ st'.hold = .replay os recs' cs' ∧
            (∀ r ∈ recs', r ∈ recs ∧ r.1 ≠ f.id) ∧ (cancel = false → cs' = cs) ∧ (cancel = true → ∀ r ∈ recs, r.1 = f.id → r.2 / 4096 ∈ cs')) ∧
    (∃ t y, exec (.fqctlEnClear w) s = .next t ∧ t.world? w = some y ∧ y.faults = [] ∧ y.fieldOf rFQCTL 8 1 = 0 ∧ SameRegsBut x y [rFQCTL] ∧ t.mem = s.mem ∧
      t.launches = s.launches ∧
      ∀ l ∈ s.launches, l.world = w → ∀ g z st os recs cs, g.lid = l.lid → s.group? g = some z → z.stuck = some st → st.hold = .replay os recs cs →
        ∃ z' st' recs' cs', t.group? g = some z' ∧ SameRegs z z' ∧ z'.stuck = some st' ∧ st'.hold = .replay [] recs' cs' ∧ (∀ r ∈ recs', r ∈ recs) ∧
          ∀ q ∈ os, q.addr / 4096 ∈ cs') ∧
    ((x.reg rFQCTL).getLsbD 8 = false → Becomes s w (exec (.fqctlClr w) s) fun y => y.reg rFQTAIL = 0 ∧ y.reg rFQHEAD = 0 ∧ y.fieldOf rFQCTL 9 1 = 0 ∧
      SameRegsBut x y [rFQTAIL, rFQHEAD, rFQCTL]) ∧
    ((x.reg rFQCTL).getLsbD 8 = true → Becomes s w (exec (.fqctlClr w) s) fun y => y = x)) ∧
  ((∀ (s : State) (w : Nat) (p : Partition), s.owned w = some p → s.part? p.id = some p → ∃ t q, exec (.tlbinvGo w) s = .next t ∧ t.part? p.id = some q ∧
    q.busy.isSome = true ∧ (∀ n, p.busy = some n → q.busy = some n) ∧ (p.busy = none → q.busyVa = p.tlbva) ∧ q.ptroot = p.ptroot ∧ q.tlbva = p.tlbva ∧ t.tlb = s.tlb ∧ t.mem = s.mem) ∧
  (∀ (s : State) (w : Nat), s.owned w = none → ∃ t, exec (.tlbinvGo w) s = .next t ∧ (t.parts.map fun p => (p.id, p.busy)) = s.parts.map (fun p => (p.id, p.busy)) ∧
    t.tlb = s.tlb ∧ t.mem = s.mem) ∧
  (∀ (s : State) (p : Partition), s.part? p.id = some p →
    let order := field p.busyVa.toNat 0 6
    let first := field p.busyVa.toNat 12 40 / 2 ^ order * 2 ^ order
    let goes (e : TlbEntry) : Prop := bulkOf e.core ∈ p.bulks ∧ e.page < first + 2 ^ order ∧ first < e.page + 2 ^ e.order
    (p.busy = none → Waits s (exec (.tlbinvComplete p.id) s)) ∧
    (p.busy.isSome = true → s.pend = [] → s.ext = [] → ∃ t, exec (.tlbinvComplete p.id) s = .next t ∧ t.part? p.id = some { p with busy := none } ∧
      (∀ e, e ∈ t.tlb ↔ e ∈ s.tlb ∧ ¬goes e) ∧ t = { s with tlb := t.tlb, parts := t.parts }) ∧
    (∀ e x, e ∈ s.ext → e.reply = none → s.world? e.world = some x → x.part = p.id → Waits s (exec (.tlbinvComplete p.id) s))) ∧
  (∀ (s : State) (w : Nat) (x : World), s.world? w = some x →
    let named := s.namedGalley x (x.fieldOf rPROFC 0 12) ((x.reg rPROFC).getLsbD 12)
    (∀ count, ∃ t y, exec (.profcGo w count) s = .next t ∧ t.world? w = some y ∧ y.fieldOf rPROFC 16 16 = (if named = none then 0 else count % 65536) ∧
      y.fieldOf rPROFC 0 13 = x.fieldOf rPROFC 0 13 ∧ SameRegsBut x y [rPROFC] ∧ t.mem = s.mem ∧ t.groups = s.groups ∧ t.launches = s.launches) ∧
    (∃ t, exec (.profcClear w) s = .next t ∧ t.worlds = s.worlds ∧ t.mem = s.mem ∧ t.groups = s.groups ∧
      t.galleys = match named with
        | none => s.galleys
        | some g => s.galleys.map fun y => if y.id = g.id then { y with used := decide (∃ l ∈ s.launches, l.galley = y.id), loops := [] } else y)) ∧
  (∀ (s : State) (tee : Bool) (off : Nat) (v : DWord), Waits s (exec (.registerWrite ⟨.pf0, tee⟩ off v) s)) ∧
  (∀ (s : State) (w : Nat) (x : World) (off : Nat) (v : DWord), s.live? w = some x → x.tdi = .run → exec (.registerWrite ⟨.vf w, false⟩ off v) s = .next { s with reply := some .ur }) ∧
  (∀ (s : State) (w : Nat) (x : World) (tee : Bool) (v : DWord), s.world? w = some x → x.torn = false → tee = true ∨ x.tdi ≠ .run →
    (∀ e ∈ plainRegs, (needsRight e.1 = true → x.granted = true) → Becomes s w (exec (.registerWrite ⟨.vf w, tee⟩ e.1 v) s) fun y =>
      y.reg e.1 = v &&& BitVec.ofNat 64 e.2 ∧ SameRegsBut x y [e.1]) ∧
    (∀ off, 0x610 ≤ off → off < 0x6A0 → x.granted = false → Becomes s w (exec (.registerWrite ⟨.vf w, tee⟩ off v) s) fun y => y = x) ∧
    (v.getLsbD 13 = false ∨ (x.reg rTRQ).getLsbD 15 = true → Becomes s w (exec (.registerWrite ⟨.vf w, tee⟩ rTRQ v) s) fun y =>
      y.fieldOf rTRQ 0 13 = field v.toNat 0 13 ∧ y.fieldOf rTRQ 13 51 = x.fieldOf rTRQ 13 51 ∧ SameRegsBut x y [rTRQ]) ∧
    Becomes s w (exec (.registerWrite ⟨.vf w, tee⟩ rFNSTAT v) s) fun y => y.reg rFNSTAT = x.reg rFNSTAT &&& ~~~ (v &&& 7) ∧ SameRegsBut x y [rFNSTAT]) ∧
  ∀ (s : State) (w : Nat) (p : Partition) (tee : Bool) (v : DWord), s.owned w = some p → s.part? p.id = some p → (∀ x, s.live? w = some x → tee = true ∨ x.tdi ≠ .run) →
    ∃ t q, exec (.registerWrite ⟨.vf w, tee⟩ 0 v) s = .next t ∧ t.part? p.id = some q ∧ t.worlds = s.worlds ∧ t.mem = s.mem ∧
      ((∀ l ∈ s.launches, l.part ≠ p.id) → q.ptroot = v &&& BitVec.ofNat 64 (2 ^ 52 - 2 ^ 16 + 1) ∧ q.busyerr = p.busyerr) ∧
      ((∃ l ∈ s.launches, l.part = p.id) → q.ptroot = p.ptroot ∧ q.busyerr = true))

/-! ### Debugging -/

/-- R355 to R357, Table 15-1: an offer to a world with CONF 1 sets OFFERED, until ACCEPT grants the right or 1 s has passed; a world with CONF 0 has the right at
once, and EVER is set with it. Revocation, by the world or by the owner, clears the grant, every breakpoint and every watchpoint, and releases every group of
the world that is stopped; one in which nothing waits keeps its registers. Without an offer, or 1 s after it, ACCEPT does nothing. R361 to R363, Table 15-1:
under the debug right DBGHALT.GO stops a named group where it stands, at once unless it owes a result; RESUME releases a halted one, past its BRK if that
stopped it; STEP releases it to stop after one instruction, of the fragment that it would issue. Without the right nothing happens. The model's choices (log
entry 63): RESUME and STEP act on groups whose record is queued or written, and a halt waits for the results that its group is owed. R360, Table 15-1: DBGSEL.GO
reads or writes one register, the PC or 8 bytes of memory for a lane of a halted group of its world: a read gives DBGDAT, a write sets EDITED, and ERR tells of
a refusal (no right, no such halted group, a register number or lane out of range). A read of memory sees what the group has issued; a write waits for its line,
BUSY, and then changes exactly its 8 bytes. While BUSY a GO is ignored; the other fields of DBGSEL are stored. A lane that is moved leaves what it was parked or
held for. The model's choice (log entry 64): a PC off 8 bytes sets ERR. R361, R362, R364: a group whose next fragment stands at an enabled breakpoint of its
kernel stops there whole, with nothing issued; a store or load to global memory that an enabled watchpoint matches stops before any lane acts, with the
watchpoint and the lowest matching lane's address; a world without the debug right meets neither, nor does an instruction that has issued. The oldest waiting
stop record goes to its slot of the ring once the writes that its group had in flight have performed, and DBGRT moves on; with the ring off or full the record
waits and bit 9 of DBGRC is set. -/
def Obligations.DebuggerActs : Prop :=
  (∀ (s : State) (w : Nat) (x : World), s.world? w = some x →
    let offered (y : World) : Prop := y.fieldOf rDBGCTL 8 1 = 1
    let free (t : State) (y : World) : Prop := y.granted = false ∧ (∀ n, n < 8 → y.reg (rBP n) = 0) ∧ (∀ n, n < 4 → y.reg (rWPA n) = 0 ∧ y.reg (rWPC n) = 0) ∧
      ∀ l ∈ s.launches, l.world = w → (∀ z ∈ t.groups, z.gid.lid = l.lid → z.stop = none ∧ z.stopNext = none) ∧
        ∀ z, z.gid.lid = l.lid → s.group? z.gid = some z → Calm s z → ∃ z', t.group? z.gid = some z' ∧ SameRegs z z'
    (offered x → (∀ n, x.offerTime = some n → s.now < n + 1000000000) → Becomes s w (exec (.dbgctlAccept w) s) fun y => ¬offered y ∧ y.granted = true ∧ y.fieldOf rDBGCTL 11 1 = 1 ∧ y.offerTime = none ∧
      SameRegsBut x y [rDBGCTL]) ∧
    (¬offered x ∨ (∃ n, x.offerTime = some n ∧ n + 1000000000 ≤ s.now) → Becomes s w (exec (.dbgctlAccept w) s) fun y => y = x) ∧
    (∀ n, x.offerTime = some n → n + 1000000000 ≤ s.now → Becomes s w (exec (.debugOfferLapse w) s) fun y => ¬offered y ∧ y.offerTime = none ∧
      y.granted = x.granted ∧ SameRegsBut x y [rDBGCTL]) ∧
    ((x.offerTime = none ∨ ∃ n, x.offerTime = some n ∧ s.now < n + 1000000000) → Becomes s w (exec (.debugOfferLapse w) s) fun y => y = x) ∧
    (x.granted = true → ∃ t y, exec (.dbgctlRevoke w) s = .next t ∧ t.world? w = some y ∧ free t y ∧ t.mem = s.mem) ∧
    (x.granted = false → Becomes s w (exec (.dbgctlRevoke w) s) fun y => y = x) ∧
    ∀ v p, s.ready = true → s.owned v = some p → x.torn = false → x.part = p.id →
      (x.granted = true → ∃ t y, exec (.debugRevoke (.vf v) w) s = .next t ∧ t.reply = some (.status true) ∧ t.world? w = some y ∧ free t y ∧ t.mem = s.mem) ∧
      (∃ t y, exec (.debugOffer (.vf v) w) s = .next t ∧ t.reply = some (.status true) ∧ t.world? w = some y ∧ HostOnly s t w ∧
        (x.granted = true → y = x) ∧
        (x.granted = false → x.conf = true → offered y ∧ y.offerTime = some s.now ∧ y.granted = false ∧ SameRegsBut x y [rDBGCTL]) ∧
        (x.granted = false → x.conf = false → y.granted = true ∧ y.fieldOf rDBGCTL 11 1 = 1 ∧ SameRegsBut x y [rDBGCTL]))) ∧
  (∀ (s : State) (w : Nat) (x : World), s.world? w = some x →
    (x.granted = false → ∀ i, i = .dbghaltGo w ∨ i = .dbghaltResume w ∨ i = .dbghaltStep w → Becomes s w (exec i s) fun y => y = x) ∧
    (x.granted = true → ∀ g l, s.group? g.gid = some g → s.launch? g.gid.lid = some l →
      let named (scope : Nat) : Prop := x.names scope l g.gid = true ∧ ∀ h ∈ s.scoped x scope, h.gid = g.gid → h = g
      let still : Prop := ∀ h ∈ s.groups, h.mats = []
      (named (x.fieldOf rDBGHALT 0 2) →
        (g.stop = none → g.owesResult = false → x.sealing = false → ∃ t z st, exec (.dbghaltGo w) s = .next t ∧ t.group? g.gid = some z ∧ z.stop = some st ∧
          st.reason = .halt ∧ st.mask = g.standing.1 ∧ st.pc = g.standing.2.1 ∧ st.pending = false ∧
          (still → st.time = BitVec.ofNat 64 s.now ∧ z.frags = g.frags ∧ SameRegs g z)) ∧
        (g.stop = none → g.owesResult = true → still → ∃ t z, exec (.dbghaltGo w) s = .next t ∧ t.group? g.gid = some z ∧ z.stop = none ∧ z.stopNext.isSome = true ∧
          z.frags = g.frags ∧ SameRegs g z) ∧
        (∀ st, g.stop = some st → st.written = true → ∃ t, exec (.dbghaltResume w) s = .next t ∧ t.mem = s.mem ∧
          (∀ z ∈ t.groups, z.gid = g.gid → z.stop = none ∧ z.stopNext = none) ∧
          (Calm s g → ∃ z, t.group? g.gid = some z ∧ z.pass = true ∧ SameRegs g z ∧ (st.reason ≠ .brk → z.frags = g.frags) ∧
            (st.reason = .brk → ∀ f, g.frags.find? (fun f => f.pc = st.pc && f.park.isNone) = some f →
              ∀ k, inMask f.mask k = true → z.stands k (f.pc + BitVec.ofNat 32 st.len))))) ∧
      (named 0 → ∀ st, g.stop = some st → st.written = true → ∃ t, exec (.dbghaltStep w) s = .next t ∧ t.mem = s.mem ∧
        (∀ z ∈ t.groups, z.gid = g.gid → z.stop = none) ∧
        (Calm s g → ∃ z, t.group? g.gid = some z ∧ z.stopNext = some (.step g.unstop.standing.1) ∧ z.pass = true ∧ SameRegs g z ∧
          (st.reason ≠ .brk → z.frags = g.frags))))) ∧
  (∀ (s : State) (w : Nat) (x : World), s.world? w = some x →
    (∀ tee (v : DWord), x.granted = true → x.torn = false → tee = true ∨ x.tdi ≠ .run → v.getLsbD 4 = false →
      Becomes s w (exec (.registerWrite ⟨.vf w, tee⟩ rDBGSEL v) s) fun y => y.fieldOf rDBGSEL 0 4 = field v.toNat 0 4 ∧ y.fieldOf rDBGSEL 8 43 = field v.toNat 8 43 ∧
        y.fieldOf rDBGSEL 5 2 = x.fieldOf rDBGSEL 5 2 ∧ SameRegsBut x y [rDBGSEL]) ∧
    let o := exec (.dbgselGo w) s
    let r := (x.reg rDBGSEL).toNat
    (r.testBit 5 = true → Becomes s w o fun y => y = x) ∧ (r.testBit 5 = false →
    let lane := field r 24 6
    let gives (v : DWord) : Prop := Becomes s w o fun y => y.reg rDBGDAT = v ∧ y.fieldOf rDBGSEL 5 1 = 0 ∧ y.fieldOf rDBGSEL 6 1 = 0 ∧
      SameRegsBut x y [rDBGSEL, rDBGDAT]
    let refuses : Prop := Becomes s w o fun y => y.fieldOf rDBGSEL 5 1 = 0 ∧ y.fieldOf rDBGSEL 6 1 = 1 ∧ SameRegsBut x y [rDBGSEL]
    (x.granted = false → refuses) ∧
    ∀ l g, x.granted = true → l ∈ s.launches → l.world = w → l.tag = field r 35 16 → l.status = .running →
      (∀ k ∈ s.launches, k.world = w → k.tag = field r 35 16 → k.status = .running → k = l) →
      let gid : Gid := ⟨l.lid, (x.reg rDBGBLK).toNat, field r 30 5⟩
      let edits (P : Group → Prop) : Prop := ∃ t y z, o = .next t ∧ t.world? w = some y ∧ y.fieldOf rDBGCTL 10 1 = 1 ∧ y.fieldOf rDBGSEL 5 1 = 0 ∧
        y.fieldOf rDBGSEL 6 1 = 0 ∧ SameRegsBut x y [rDBGSEL, rDBGCTL] ∧ t.group? gid = some z ∧ P z ∧ (∀ h, h ≠ gid → t.group? h = s.group? h) ∧ t.mem = s.mem
      s.group? gid = some g →
      (g.halted = false → refuses) ∧
      (g.halted = true →
        (∀ cl, RegSel.ofCode (field r 0 3) = some cl → field r 8 16 ≤ RegSel.limit cl → lane < l.width →
          (r.testBit 3 = false → gives (g.peek l.w64 s.fresh lane cl (field r 8 16))) ∧
          (r.testBit 3 = true → edits fun z => z = g.poke l.w64 s.fresh lane cl (field r 8 16) (x.reg rDBGDAT))) ∧
        (∀ cl, RegSel.ofCode (field r 0 3) = some cl → (RegSel.limit cl < field r 8 16 ∨ l.width ≤ lane) → refuses) ∧
        (∀ f, field r 0 3 = 5 → g.frags.find? (fun f => inMask f.mask lane) = some f →
          (r.testBit 3 = false → gives (f.pc.setWidth 64)) ∧
          (r.testBit 3 = true → (x.reg rDBGDAT).toNat % 8 ≠ 0 → refuses) ∧
          (r.testBit 3 = true → (x.reg rDBGDAT).toNat % 8 = 0 → edits fun z => z.stands lane ((x.reg rDBGDAT).setWidth 32) ∧ SameRegs g z)) ∧
        (∀ p, field r 0 3 = 6 → x.dbgExt = none → r.testBit 3 = true → (∀ q ∈ s.parts, q.replayOn = none) → (x.fieldOf rDBGADR 0 52) % 8 = 0 →
          s.checkGlobal .copy none x.part w (agentSource .copy x.part w) [] true false false (x.fieldOf rDBGADR 0 52) 8 = .ok [p] →
          s.checkGlobal .copy none x.part w (agentSource .copy x.part w) [] true true false (x.fieldOf rDBGADR 0 52) 8 = .ok [p] →
          p.outside = false → p.len = 8 → p.pa % 4 = 0 → s.tagWrong [p] = false →
          ((∃ ln ∈ linesOf p.pa 8, s.lineFree ln = false) → Becomes s w o fun y => y.fieldOf rDBGSEL 5 1 = 1 ∧ SameRegsBut x y [rDBGSEL]) ∧
          ((∀ ln ∈ linesOf p.pa 8, s.lineFree ln = true) → ∃ t y, o = .next t ∧ t.world? w = some y ∧ y.fieldOf rDBGCTL 10 1 = 1 ∧ y.fieldOf rDBGSEL 5 1 = 0 ∧
            y.fieldOf rDBGSEL 6 1 = 0 ∧ SameRegsBut x y [rDBGSEL, rDBGCTL] ∧
            ∀ a, Memory.get t.mem a = if p.pa ≤ a ∧ a < p.pa + 8 then (toBytes 8 (x.reg rDBGDAT).toNat).getD (a - p.pa) 0 else Memory.get s.mem a)) ∧
        (∀ p, field r 0 3 = 6 → x.dbgExt = none → r.testBit 3 = false → (∀ q ∈ s.parts, q.replayOn = none) → (x.fieldOf rDBGADR 0 52) % 8 = 0 →
          s.checkGlobal .copy none x.part w (agentSource .copy x.part w) [] false true false (x.fieldOf rDBGADR 0 52) 8 = .ok [p] → p.outside = false →
          s.tagWrong [p] = false → ∀ bs, s.readBytes (fun q => match q with | .thread i _ => i = gid | _ => false) 1021 p.pa 8 = some bs →
            gives (BitVec.ofNat 64 (ofBytes bs)))))) ∧
  ((∀ (s : State) (gid : Gid) (n : Nat) (g g1 : Group) (l : Launch) (x : World) (f : Frag), s.group? gid = some g → s.launch? gid.lid = some l →
    s.world? l.world = some x → g.next = some (f, g1) →
    let r := (x.reg (rBP n)).toNat
    let o := exec (.breakpoint gid n) s
    (x.granted = false ∨ g.pass = true ∨ g.owesResult = true ∨ r.testBit 63 = false ∨ field r 0 32 ≠ f.pc.toNat ∨ field r 32 12 ≠ l.rcd.kidx → Waits s o) ∧
    (x.granted = true → g.pass = false → g.owesResult = false → g.stop = none → l.status = .running → n < 8 → r.testBit 63 = true → field r 0 32 = f.pc.toNat →
      field r 32 12 = l.rcd.kidx → ∃ t z st, o = .next t ∧ t.group? gid = some z ∧ z.stop = some st ∧ st.reason = .bp n ∧ st.pc = f.pc ∧
        st.mask = f.mask ∧ st.pending = x.sealing ∧ (g.mats = [] → z.frags = g.frags ∧ SameRegs g z ∧ t.pend = s.pend))) ∧
  (∀ (s : State) (gid : Gid) (n : Nat) (addr : DWord) (g g1 : Group) (l : Launch) (x : World) (f : Frag) (i : Instr) (is : Issuer) (c : Ctx)
      (hd : Hdr) (acc : Acc) (off : Word) (d a : Opnd) (ps : List (Nat × List Piece)) (write : Bool),
    s.group? gid = some g → s.launch? gid.lid = some l → s.world? l.world = some x → s.issuable g = true → g.next = some (f, g1) → l.fetch gid f = .ins i is →
    (i = .ld hd acc off d a ∧ write = false) ∨ (i = .st hd acc off d a ∧ write = true) → acc.sp = .glob →
    let u : State := { s with issuer := some is }
    let o := exec (.watchpoint gid n addr) s
    let reqs := (lanes (c.act hd)).map fun k => (k, c.addr s.fresh .glob off a k)
    u.ctx? = some c → c.act hd ≠ 0 →
    (x.granted = false → Waits s o) ∧
    (x.granted = true → g.pass = false → g.owesResult = false → u.atomsDone gid (c.act hd) true = true → (mustAlign acc.ord acc.a16 = true → ∀ q ∈ reqs, q.2 % acc.sz.bytes = 0) →
      List.Forall₂ (fun (q : Nat × Nat) (y : Nat × List Piece) => y.1 = q.1 ∧ u.checkLane c .glob write (!write) q.1 q.2 acc.sz.bytes = .ok y.2) reqs ps →
      watchHit x false (!write) write acc.sz.bytes reqs = some (n, addr.toNat) → ∃ t z st, o = .next t ∧ t.group? gid = some z ∧
        z.stop = some st ∧ st.reason = .wp n ∧ st.addr = addr ∧ st.pc = f.pc ∧ (g.mats = [] → z.frags = g.frags ∧ SameRegs g z ∧ t.pend = s.pend))) ∧
  ∀ (s : State) (w : Nat) (x : World), s.world? w = some x →
    let o := exec (.stopRecord w) s
    let rc := (x.reg rDBGRC).toNat
    let k := ringLog (field rc 0 4) 4 10
    let tail := (x.reg rDBGRT).toNat
    let open_ : Prop := rc.testBit 8 = true ∧ (tail + 1) % 2 ^ k ≠ (x.reg rDBGRH).toNat % 2 ^ k
    (x.stopq = [] → Waits s o) ∧
    ∀ r rs, x.stopq = r :: rs →
      (¬open_ → Becomes s w o fun y => y.stopq = x.stopq ∧ y.fieldOf rDBGRC 9 1 = 1 ∧ SameRegsBut x y [rDBGRC]) ∧
      (open_ → (∃ q ∈ s.pend, q.id ∈ r.after) → Waits s o) ∧
      (open_ → (∀ q ∈ s.pend, q.id ∉ r.after) → ∀ p, r.bytes.length = 64 → s.checkGlobal .host none x.part w (agentSource .host x.part w) [] true true false ((x.reg rDBGRB).toNat + 64 * (tail % 2 ^ k)) 64 = .ok [p] →
        p.outside = false → p.len = 64 → p.pa % 4 = 0 → (∀ ln ∈ linesOf p.pa 64, s.lineFree ln = true) →
        ∃ t y, o = .next t ∧ t.world? w = some y ∧ y.stopq = rs ∧ y.reg rDBGRT = BitVec.ofNat 64 ((tail + 1) % 2 ^ k) ∧ SameRegsBut x y [rDBGRT] ∧
          ∀ b, Memory.get t.mem b = if p.pa ≤ b ∧ b < p.pa + 64 then r.bytes.getD (b - p.pa) 0 else Memory.get s.mem b))

/-! ### Launches, blocks, galleys -/

/-- R304 to R307, R314, R317, R323, Tables 11-6 and 11-7: a launch of which no thread, write, chain or HOLD is left, and no result to come, completes: SEMVAL is
written to its semaphore, or SEMFAIL tells why it could not be, and the launch is gone; with an unreported failed write it is aborted with BULKHEAD-DOWN
instead. An abort stops the launch, drops its chains and changes no byte (UNCORRECTABLE is the sub-cause of CONTAINED); the watchdog aborts it once its limit
(10 s where WATCHDOG is 0) is reached. An aborted launch that has drained, in its world's frame, loses its groups and blocks at its dump (which changes no byte
when DSIZE is below 64, and waits for the lines of its buffer else), and then its semaphore gets SEMVAL with bit 63 set; at teardown neither. R19, R20, R125,
R153, R301: a waiting block is put on the core that has room, in new groups whose registers are zero and whose threads stand at the kernel's entry, and its
clear begins; without room it waits. The clear makes every byte of its squares zero once no write to them is in flight and their bulkhead is not down (R72), and
changes no other. A beacon domain that drains ends its step once nothing it owes is left: its flags clear and the lanes that wait go on, but for those that a
handler or a debugger holds; what its groups issued after they arrived is owed by the next step (R125), which it then opens. The model's choices: the lowest run
of free squares (log entry 122), and the residency limit counts the groups of the same galley (log entry 33). -/
def Obligations.LaunchesAndBlocks : Prop :=
  (∀ (s : State) (l : Launch), s.launch? l.lid = some l →
    let ended : Prop := l.rcd.blocks ≤ l.nextBlk ∧ (∀ b ∈ s.blocks, b.lid ≠ l.lid) ∧ ∀ x ∈ s.worlds, ∀ c, x.ctx = some c → ∀ b ∈ c.blocks, b.lid ≠ l.lid
    let drained : Prop := (∀ p ∈ s.pend, p.lid ≠ l.lid) ∧ (∀ g ∈ s.groups, g.gid.lid = l.lid → g.owesResult = false) ∧ (∀ k ∈ s.chains, k.gid.lid ≠ l.lid) ∧ ∀ h ∈ l.holds, h.2 = 0
    let gone (t : State) : Prop := t.launch? l.lid = none ∧ ∀ i, i ≠ l.lid → t.launch? i = s.launch? i
    let empty (t : State) : Prop := (∀ g ∈ t.groups, g.gid.lid ≠ l.lid) ∧ ∀ b ∈ t.blocks, b.lid ≠ l.lid
    let check : Except Fail (List Piece) := s.checkGlobal .host none l.part l.world (agentSource .host l.part l.world) [] true true false l.rcd.semAddr.toNat 8
    let held (p : Piece) : Prop := check = .ok [p] ∧ p.len = 8 ∧ p.outside = false ∧ p.pa % 4 = 0 ∧ ∀ ln ∈ linesOf p.pa 8, s.lineFree ln = true
    let done := exec (.launchCompletion l.lid) s
    let dump := exec (.dumpWrite l.lid) s
    (l.status = .running → ended → drained → l.failed = false →
      (∀ p, held p → ∃ t, done = .next t ∧ gone t ∧ SemWritten s t p.pa l.rcd.semVal) ∧
      (∀ f x, check = .error f → s.world? l.world = some x → x.fieldOf rSEMFAIL 0 1 = 0 → ∃ t y, done = .next t ∧ gone t ∧ t.mem = s.mem ∧ t.world? l.world = some y ∧
        y.reg rSEMFAIL = BitVec.ofNat 64 (1 + f.cause * 2 ^ 8 + 2 ^ 16 + l.tag * 2 ^ 32) ∧ y.reg rSEMFAILADDR = BitVec.ofNat 64 (l.rcd.semAddr.toNat % 2 ^ 52) ∧
        SameRegsBut x y [rSEMFAIL, rSEMFAILADDR])) ∧
    (l.status = .running → ended → drained → l.failed = true → Goes done fun t => Aborted s l.lid Cause.down 0 false t ∧ t.mem = s.mem) ∧
    (l.status ≠ .running ∨ ¬ended ∨ ¬drained → Waits s done) ∧
    (∀ cause, let good := 1 ≤ cause ∧ cause ≤ 14 ∨ cause = Cause.contained ∨ cause = Cause.watchdog
      (l.status = .running → good → Goes (exec (.launchAbort l.lid cause) s) fun t =>
        (cause ≠ Cause.uncorrectable → Aborted s l.lid cause 0 false t) ∧ (cause = Cause.uncorrectable → Aborted s l.lid Cause.contained cause false t) ∧
        (∀ k, k ∈ t.chains ↔ k ∈ s.chains ∧ k.gid.lid ≠ l.lid) ∧ t.groups = s.groups ∧ t.blocks = s.blocks ∧ t.pend = s.pend ∧ t.mem = s.mem) ∧
      (l.status ≠ .running ∨ ¬good → Waits s (exec (.launchAbort l.lid cause) s))) ∧
    (∀ limit, limit = (if l.rcd.watchdog = 0 then 10000000 else l.rcd.watchdog) * 1000 →
      (l.watch < limit → Waits s (exec (.watchdogExpiry l.lid) s)) ∧
      (limit ≤ l.watch → l.status = .running → Goes (exec (.watchdogExpiry l.lid) s) fun t => Aborted s l.lid Cause.watchdog 0 false t ∧ t.groups = s.groups ∧
        t.mem = s.mem)) ∧
    (l.status = .running ∨ ¬drained → Waits s dump) ∧
    ∀ cause sub nested teardown dumped time, l.status = .aborting cause sub nested teardown dumped time → drained →
      (teardown = true → Goes dump fun t => gone t ∧ empty t ∧ t.mem = s.mem) ∧
      (∀ x, teardown = false → s.world? l.world = some x →
        (s.inFrame x = false ∨ x.ctx ≠ none → Waits s dump) ∧
        (s.inFrame x = true → x.ctx = none →
          (dumped = false → l.rcd.dumpSize < 64 ∨ (s.finishMats l.lid).dumpFree l = true → (∀ q ∈ s.pend, ∀ g k, q.src = .thread g k → g.lid = q.lid) → Goes dump fun t =>
            t.launch? l.lid = some { l with status := .aborting cause sub nested false true time } ∧ empty t ∧ (l.rcd.dumpSize < 64 → t.mem = s.mem)) ∧
          (dumped = false → 64 ≤ l.rcd.dumpSize → (s.finishMats l.lid).dumpFree l = false → Waits s dump) ∧
          (∀ p, dumped = true → held p → Goes dump fun t => gone t ∧ SemWritten s t p.pa (l.rcd.semVal ||| BitVec.ofNat 64 (2 ^ 63)))))) ∧
  ((∀ (s : State) (p : Partition) (x : World) (l : Launch), s.part? p.id = some p → s.current p = some x → s.serves x = true → l.part = p.id → s.launch? l.lid = some l →
    s.waiters x.w = [l] → l.nextBlk + 1 = l.rcd.blocks →
    let o := exec (.blockPlacement p.id) s
    (s.findCore p l = none → Waits s o) ∧
    (∀ core sq, s.findCore p l = some (core, sq) → (∀ g ∈ s.groups, g.gid.lid = l.lid → g.gid.blk ≠ l.nextBlk) → ∃ t b, o = .next t ∧ t.blocks = s.blocks ++ [b] ∧
      b.lid = l.lid ∧ b.idx = l.nextBlk ∧ b.core = core ∧ b.square = sq ∧ b.scratch = l.rcd.scratch ∧ b.clearing = true ∧
      (t.launch? l.lid).map (fun y => y.nextBlk) = some (l.nextBlk + 1) ∧ t.mem = s.mem ∧ t.pend = s.pend ∧ (∀ g ∈ s.groups, g ∈ t.groups) ∧
      ∀ gi, gi * l.width < l.rcd.threads → ∃ g, t.group? ⟨l.lid, l.nextBlk, gi⟩ = some g ∧ g.v = [] ∧ g.s = [] ∧ g.h = [] ∧ g.p = [] ∧ g.sc = [] ∧ g.fpst = [] ∧
        g.fpm = l.fpm ∧ ∀ k, k < 64 → (inMask g.live k = true ↔ k < l.width ∧ gi * l.width + k < l.rcd.threads) ∧
          (inMask g.live k = true → g.stands k l.obj.kernel.entry))) ∧
  (∀ (s : State) (b : Block), s.block? b.lid b.idx = some b →
    let lo := b.scratchPa 0
    let hi := lo + squareCount b.scratch * 4096
    let o := exec (.blockClearComplete b.lid b.idx) s
    (b.clearing = false ∨ s.isDown (bulkOf b.core) = true ∨ (∃ q ∈ s.pend, q.touches lo (hi - lo) = true) → Waits s o) ∧
    (b.clearing = true → s.isDown (bulkOf b.core) = false → (∀ q ∈ s.pend, q.touches lo (hi - lo) = false) → ∃ t, o = .next t ∧ t.block? b.lid b.idx = some { b with clearing := false } ∧
      (∀ a, Memory.get t.mem a = if lo ≤ a ∧ a < hi then 0 else Memory.get s.mem a) ∧ t.groups = s.groups ∧ t.launches = s.launches ∧ t.pend = s.pend)) ∧
  ∀ (s : State) (p : Partition) (dom : Nat) (d : Domain), s.part? p.id = some p → p.doms.find? (fun d => d.idx = dom) = some d →
    let o := exec (.beaconDrainComplete p.id dom) s
    let owes : Prop := (∃ q ∈ s.pend, q.id ∈ d.owed) ∨ ∃ k ∈ s.chains, k.id ∈ d.chains ∧ s.chainDone k = false
    (d.holder = none ∨ d.st ≠ .draining ∧ d.st ≠ .ending ∨ d.st = .draining ∧ owes → Waits s o) ∧
    (∀ l, d.holder = some l.lid → s.launch? l.lid = some l → l.dom = some dom → d.st = .ending → (∃ g ∈ s.groups, g.gid.lid = l.lid ∧ g.live &&& ~~~ g.arrived ≠ 0) →
      ∃ t q, o = .next t ∧ t.part? p.id = some q ∧ q.doms.find? (fun d => d.idx = dom) = some { d with st := .opened, step := d.step + 1 } ∧ t.mem = s.mem ∧
        t.pend = s.pend ∧ t.groups = s.groups) ∧
    (∀ l, d.holder = some l.lid → s.launch? l.lid = some l → l.dom = some dom → d.st = .draining → ¬owes →
      ∃ t q, o = .next t ∧ t.part? p.id = some q ∧ q.doms.find? (fun d => d.idx = dom) = some { d with st := .ending, owed := d.nextOwed, chains := d.nextChains, nextOwed := [], nextChains := [] } ∧
        t.mem = s.mem ∧ t.pend = s.pend ∧
        ∀ gid g, gid.lid = l.lid → s.group? gid = some g → ∃ z, t.group? gid = some z ∧ z.arrived = 0 ∧ SameRegs g z ∧
          (g.hlanes = 0 → g.stop = none → ∀ f ∈ g.frags, ∀ n, f.park = some (n, .step) → ∀ k, inMask f.mask k = true → z.stands k (f.pc + BitVec.ofNat 32 n))))

/-- R93, R94, R328, R329, R331, R333, R336, R337, Table 13-1: a translation that finishes installs a galley for its key with the given residency limit, and answers
the pending query of its world; a query answers VALID with TRINFO, translating first what is not translated, and has no galley to name for an entry that is not
valid; an export by a confidential world is denied. A re-optimised galley is the newest of its key, and no running launch changes; it is discarded where a
REPLACE took effect at the same instant. A translation that fails its check marks the key safe and goes on in a safe-mode galley, to which its launch moves,
with no register changed; failing in safe mode it fences the bulkhead. A rollback shows nowhere but in the core's counter of rollbacks (R367). The model's
choices: an entry that is not valid clears BUSY with VALID 0 (log entry 41), the rows TRQ_GO and TRQ_EXPORT translate at once what is not translated (log entry
65), and a group moves to the safe-mode galley before its next issue (log entry 108). R329, R333, Tables 13-1 and 13-3: TRQ.EXPORT of a world that is not
confidential writes the stamped galley, translated first where need be, to the pages of TREXP, and changes no other byte; where these fail the host-function row
of Table 02-8 it sets DENIED and writes nothing; while a line of them is not free it stays BUSY. -/
def Obligations.GalleysQueriesAndExports : Prop :=
  (let limit (n : Nat) : Nat := max 1 (min 32 n)
  (∀ (s : State) (w kidx resid : Nat) (w64 safe : Bool) (x : World) (t3 : Nat × Nat × GalleyKey), s.world? w = some x →
    s.translating.find? (fun e => e.1 = w && e.2.1 = kidx && e.2.2.w64 == w64) = some t3 → s.findGalley t3.2.2 = none →
    ∃ t g, exec (.translation w kidx w64 resid safe) s = .next t ∧ t.findGalley t3.2.2 = some g ∧ g.resid = limit resid ∧ g.safe = (safe || decide (4 ≤ t3.2.2.devmode)) ∧
      g.reopt = false ∧ (∀ e ∈ t.translating, e.2.2 ≠ t3.2.2) ∧ t.launches = s.launches ∧
      (x.query = none → t.mem = s.mem ∧ t.groups = s.groups) ∧
      (x.query = some t3.2.2 → (x.reg rTRQ).getLsbD 14 = false → ∃ y, t.world? w = some y ∧ y.query = none ∧ y.fieldOf rTRQ 15 2 = 2 ∧ y.fieldOf rTRINFO 0 6 = limit resid ∧ t.mem = s.mem)) ∧
  (∀ (s : State) (w kidx resid : Nat) (w64 safe : Bool) (x : World) (i : Instr), s.world? w = some x → kidx < 4096 → (∀ p ∈ s.parts, p.replayOn = none) →
    (x.reg rTRQ).getLsbD 15 = false → (∀ e ∈ s.translating, ¬(e.1 = w ∧ e.2.1 = kidx ∧ e.2.2.w64 = w64)) →
    i = .trqGo w kidx w64 resid safe ∨ i = .trqExport w kidx w64 resid safe ∧ x.conf = true →
    (s.queryKey x kidx w64 = none → x.query = none → Becomes s w (exec i s) fun y => y.reg rTRQ = BitVec.ofNat 64 (kidx + b2n w64 * 2 ^ 12) ∧ SameRegsBut x y [rTRQ]) ∧
    (∀ k, s.queryKey x kidx w64 = some k → k.w64 = w64 → ∃ t y g, exec i s = .next t ∧ t.world? w = some y ∧ t.findGalley k = some g ∧
      y.fieldOf rTRQ 13 4 = 8 ∧ y.fieldOf rTRQ 0 13 = kidx + b2n w64 * 2 ^ 12 ∧ y.fieldOf rTRQ 17 1 = (if i = .trqGo w kidx w64 resid safe then 0 else 1) ∧
      y.fieldOf rTRINFO 0 6 = g.resid % 64 ∧ SameRegsBut x y [rTRQ, rTRINFO] ∧ t.mem = s.mem ∧ t.groups = s.groups ∧ t.launches = s.launches ∧
      (s.findGalley k = none → g.resid = limit resid) ∧ (∀ h, s.findGalley k = some h → g = h))) ∧
  (∀ (s : State) (id resid : Nat),
    (s.galley? id = none → Waits s (exec (.galleyReoptimise id resid) s)) ∧
    (∀ g, s.galley? id = some g → (∃ x ∈ s.worlds, x.swaps.1 = s.now ∧ g.key ∈ x.swaps.2) → Waits s (exec (.galleyReoptimise id resid) s)) ∧
    (∀ g, s.galley? id = some g → (∀ x ∈ s.worlds, x.swaps.1 = s.now → g.key ∉ x.swaps.2) → ∃ t h, exec (.galleyReoptimise id resid) s = .next t ∧ t.findGalley g.key = some h ∧ h.reopt = true ∧ h.safe = g.safe ∧
      h.resid = limit resid ∧ h.id = s.serial ∧ t.launches = s.launches ∧ t.groups = s.groups ∧ t.mem = s.mem ∧
      ∀ l ∈ s.launches, ∀ e, s.galley? l.galley = some e → e ∈ t.galleys)) ∧
  (∀ (s : State) (gid : Gid) (g : Group) (l : Launch) (b : Block) (y : Galley), s.group? gid = some g → s.launch? gid.lid = some l →
    s.block? gid.lid gid.blk = some b → s.galley? l.galley = some y →
    let o := exec (.translationIntegrity gid) s
    (g.safe = false → y.safe = false → ∃ t h, o = .next t ∧ t.group? gid = some { g with safe := true } ∧ y.key ∈ t.safeKeys ∧
      t.findGalley { y.key with devmode := y.key.devmode + 4 } = some h ∧ (s.findGalley { y.key with devmode := y.key.devmode + 4 } = none → h.safe = true) ∧
      (∀ x, x ≠ gid → t.group? x = s.group? x) ∧ t.mem = s.mem ∧ SMap.get t.counts (b.core * 64 + 36) = SMap.get s.counts (b.core * 64 + 36) + 1 ∧ t.launch? gid.lid = some { l with safe := some h.id } ∧
      ∀ i, i ≠ gid.lid → t.launch? i = s.launch? i) ∧
    (∀ k, g.safe = true ∨ y.safe = true → s.bulk? (bulkOf b.core) = some k → k.st = .running →
      Goes o fun t => (t.bulk? (bulkOf b.core)).map (fun z => z.st) = some .fencing ∧ t.groups = s.groups ∧ t.mem = s.mem)) ∧
  ∀ (s : State) (gid : Gid), (s.block? gid.lid gid.blk = none → Waits s (exec (.actRollback gid) s)) ∧
    ∀ b, s.block? gid.lid gid.blk = some b → ∃ t, exec (.actRollback gid) s = .next t ∧ t = { s with counts := t.counts } ∧
      ∀ k, SMap.get t.counts k = SMap.get s.counts k + (if k = b.core * 64 + 35 then 1 else 0)) ∧
  (∀ (s : State) (w kidx resid : Nat) (w64 safe : Bool) (x : World) (k : GalleyKey), s.world? w = some x → kidx < 4096 → (∀ p ∈ s.parts, p.replayOn = none) →
    (x.reg rTRQ).getLsbD 15 = false → (∀ e ∈ s.translating, ¬(e.1 = w ∧ e.2.1 = kidx ∧ e.2.2.w64 = w64)) → x.conf = false → s.queryKey x kidx w64 = some k → k.w64 = w64 →
    ∃ t y g, exec (.trqExport w kidx w64 resid safe) s = .next t ∧ t.world? w = some y ∧ t.findGalley k = some g ∧
      (s.findGalley k = none → g.resid = max 1 (min 32 resid)) ∧ (∀ h, s.findGalley k = some h → g = h) ∧ y.fieldOf rTRQ 0 13 = kidx + b2n w64 * 2 ^ 12 ∧
      SameRegsBut x y [rTRQ, rTRINFO] ∧ (∀ gid z, s.group? gid = some z → ∃ z', t.group? gid = some z' ∧ SameRegs z z' ∧ z'.frags = z.frags) ∧
      let bs := stampedGalley g
      let check := s.checkGlobal .host none x.part w (agentSource .host x.part w) [] true true false ((x.reg rTREXP).toNat / 4096 * 4096 % 2 ^ 52) bs.length
      let denied : Prop := y.fieldOf rTRQ 13 5 = 24 ∧ y.fieldOf rTRINFO 0 6 = g.resid % 64 ∧ t.mem = s.mem ∧ t.groups = s.groups ∧ t.launches = s.launches
      (∀ f, check = .error f → denied) ∧
      ∀ ps, check = .ok ps → ((∃ p ∈ ps, p.outside = true) → denied) ∧
        ((∀ p ∈ ps, p.outside = false) →
          ((∃ p ∈ ps, ∃ ln ∈ linesOf p.pa p.len, s.lineFree ln = false) → y.fieldOf rTRQ 15 1 = 1 ∧ t.mem = s.mem ∧ t.groups = s.groups ∧ t.launches = s.launches) ∧
          ((∀ p ∈ ps, ∀ ln ∈ linesOf p.pa p.len, s.lineFree ln = true) → (placesOf ps).Nodup →
            y.fieldOf rTRQ 13 5 = 8 ∧ y.fieldOf rTRINFO 0 6 = g.resid % 64 ∧ (placesOf ps).length = bs.length ∧
            (∀ i a, (placesOf ps)[i]? = some a → Memory.get t.mem a = bs.getD i 0) ∧ ∀ a, a ∉ placesOf ps → Memory.get t.mem a = Memory.get s.mem a)))

/-! ### Worlds, frames, partitions -/

/-- R321 to R325, R348: PREEMPT.GO asks a world for its halt, in its frame; descheduled it is saved at once; RESUME asks for its return. Once a halted world has
nothing in flight its context is saved: its groups, blocks with their scratch, and chains leave the cores and its beacon domains are free; an intact context
comes back as it was saved, with the bytes of its scratch; one whose seal does not verify, or with a word that cannot be corrected, aborts the launches with
INTEGRITY, without a dump, or with CONTAINED instead, where the bulkhead that held the word fences itself. Caches start empty. The model's choices: the bytes of
a bad scratch word are free values in the saved context (log entry 134), what a context with such a word does (log entry 60), and when SAVED and BUSY read 1
(log entry 49). R344 to R347, R409, Table 14-3: at a frame's end the next valid slot follows: a frame of the same world at once; for another world, or none, the
outgoing one begins to halt and the edge gap begins. A changed table is taken at an edge, or at any end when the partition has none. At the gap's end the cores
are clear, every byte of their slices is zero (R72: but those of a bulkhead that is held FENCED), and the incoming frame begins. FRAME_SET by the owner sets the
table of an idle partition, whose frames begin after a gap, or has it wait; a table that names anything but its worlds is refused. The model's choice: a table
that waits in a gap which no world follows is taken at the gap's end, with a new gap (log entry 69). R14, R303, R342, R343, R377, R383: WORLD_CREATE by the
owner makes a world of its partition with every register zero and no entry bound, and begins to hand it its local areas, zero-filled. WORLD_TEARDOWN aborts its
running launches without semaphores or dumps and leaves only its report: the commands and entries dropped and the launches aborted. GATE saves every world that
has launches, clears the slices and turns the rails off, once no bulkhead is fenced or reset and no launch aborts: until then it waits; UNGATE has every
bulkhead go through reset. What is not allowed is refused and changes nothing. The model's choices: GATE drains and saves in one step (log entry 67), when a
torn-down world's number is free again, and its launches that abort already (log entry 70), and what waits at the head of the interface is tried again (log
entry 139). -/
def Obligations.ContextsFramesAndWorlds : Prop :=
  (∀ (s : State) (w : Nat) (x : World), s.world? w = some x → (∀ p ∈ s.parts, p.replayOn = none) →
    let mine (lid : Nat) : Prop := ∃ l ∈ s.launches, l.lid = lid ∧ l.world = w
    let go := exec (.preemptGo w) s
    let back := exec (.preemptResume w) s
    let save := exec (.contextSave w) s
    let restore := exec (.contextRestore w) s
    let saved (o : Host.Outcome State Fault Refusal) (z : World) : Prop := ∃ t y c, o = .next t ∧ t.world? w = some y ∧ y.ctx = some c ∧ y.busy = false ∧ c.tamper = false ∧
      (∀ g, g ∈ t.groups → ¬mine g.gid.lid) ∧ (∀ b, b ∈ t.blocks → ¬mine b.lid) ∧
      ((∀ g ∈ s.groups, mine g.gid.lid → g.mats = []) → y = { z with ctx := some c, busy := false } ∧
        (c.bad = true ↔ ∃ b ∈ s.blocks, mine b.lid ∧ s.badWord (b.scratchPa 0) b.scratch = true) ∧
        (∀ g, g ∈ c.groups ↔ g ∈ s.groups ∧ mine g.gid.lid) ∧ (∀ g, g ∈ t.groups ↔ g ∈ s.groups ∧ ¬mine g.gid.lid) ∧
        (∀ k, k ∈ c.chains ↔ k ∈ s.chains ∧ mine k.gid.lid) ∧ (∀ k, k ∈ t.chains ↔ k ∈ s.chains ∧ ¬mine k.gid.lid) ∧
        (∀ b, b ∈ c.blocks ↔ ∃ e ∈ s.blocks, mine e.lid ∧ b = { e with saved := s.scratchBytes e }) ∧
        (∀ e : Block, s.badWord (e.scratchPa 0) e.scratch = false → s.scratchBytes e = Memory.read s.mem (e.scratchPa 0) e.scratch) ∧
        (∀ b, b ∈ t.blocks ↔ b ∈ s.blocks ∧ ¬mine b.lid) ∧ c.rr = s.rr.filter (fun z => s.launches.any fun l => l.lid = z.lid && l.world = w) ∧ (∀ p ∈ t.parts, ∀ d ∈ p.doms, ∀ l, d.holder = some l → ¬mine l) ∧
        t.mem = s.mem ∧ t.launches = s.launches)
    (x.hostSaved = true → Waits s go) ∧
    (x.hostSaved = false → s.inFrame x = true → Becomes s w go fun y => y = { x with hostSaved := true, atOnce := false, busy := x.ctx.isNone }) ∧
    (x.hostSaved = false → s.inFrame x = false → (x.busy = true ∨ x.ctx ≠ none ∨ ∀ l ∈ s.launches, l.world ≠ w) →
      Becomes s w go fun y => y = { x with hostSaved := true, atOnce := true }) ∧
    (x.hostSaved = false → s.inFrame x = false → x.busy = false → x.ctx = none → (∃ l ∈ s.launches, l.world = w) →
      saved go { x with hostSaved := true, atOnce := true }) ∧
    (x.showsSaved = false → Waits s back) ∧
    (x.showsSaved = true → Becomes s w back fun y =>
      y = if s.inFrame x = true then { x with resuming := true } else { x with hostSaved := false, atOnce := false }) ∧
    (x.showsSaved = true ↔ x.hostSaved = true ∧ (x.busy = false ∨ x.atOnce = true)) ∧
    (x.busy = false ∨ s.halted w = false → Waits s save) ∧
    (x.busy = true → s.halted w = true → saved save x) ∧
    ∀ p c, s.part? x.part = some p → x.busy = false → s.canRestore x = true → p.gated = false → s.inFrame x = true → x.ctx = some c →
      (x.hostSaved = true → x.resuming = false → Waits s restore) ∧
      (x.hostSaved = false ∨ x.resuming = true →
        (∀ b, c.tamper = false → c.bad = false → (∀ g ∈ c.groups, g.stop = none ∧ g.handler = none ∧ g.colls = [] ∧ (∀ f ∈ g.frags, f.park = none) ∧ s.block? g.gid.lid g.gid.blk = none ∧ ∀ z ∈ s.groups, z.gid.lid ≠ g.gid.lid) → b.phases = [] → x.stopq = [] → c.blocks = [b] → b.saved.length ≤ squareCount b.scratch * 4096 →
          ∃ t y, restore = .next t ∧ t.world? w = some y ∧ y = { x with ctx := none, hostSaved := false, resuming := false, atOnce := x.atOnce && !x.resuming } ∧
            t.groups = s.groups ++ c.groups ∧ t.rr = s.rr ++ c.rr ∧ (∀ e ∈ t.tlb, bulkOf e.core ∉ p.bulks) ∧ (∀ e ∈ t.leases, bulkOf e.core ∉ p.bulks) ∧
            (∀ e ∈ c.doms, (∃ d ∈ p.doms, d.idx = e.idx) → (∀ d ∈ c.doms, d.idx = e.idx → d = e) →
              ∃ q d, t.part? p.id = some q ∧ d ∈ q.doms ∧ d.idx = e.idx ∧ d.holder = e.holder ∧ d.step = e.step ∧ d.owed = e.owed ∧ d.chains = e.chains) ∧
            t.chains = s.chains ++ c.chains ∧ t.blocks = s.blocks ++ [{ b with saved := [] }] ∧ t.launches = s.launches ∧
            Memory.read t.mem (b.scratchPa 0) b.saved.length = b.saved ∧
            ∀ a, a < b.scratchPa 0 ∨ b.scratchPa 0 + squareCount b.scratch * 4096 ≤ a → Memory.get t.mem a = Memory.get s.mem a) ∧
        (c.tamper = true ∨ c.bad = true → ∃ t y, restore = .next t ∧ t.world? w = some y ∧ y.ctx = none ∧ t.groups = s.groups ∧ t.mem = s.mem ∧
          (c.bad = true → ∀ b, c.blocks.head? = some b → (t.bulk? (bulkOf b.core)).map (fun z => z.st) = some .fencing) ∧
          ∀ l z, mine l → s.launch? l = some z → z.status = .running → ∃ z', t.launch? l = some z' ∧ z'.status =
            if c.tamper then .aborting Cause.integrity 0 false false true (BitVec.ofNat 64 s.now)
            else .aborting Cause.contained Cause.uncorrectable false false false (BitVec.ofNat 64 s.now)))) ∧
  (∀ (s : State) (p : Partition), s.part? p.id = some p →
    let edge := exec (.frameEdge p.id) s
    let gap := exec (.edgeGapEnd p.id) s
    let cleared (t : State) : Prop := ∀ a, Memory.get t.mem a = (match region a with
      | .slice c _ => if p.bulks.contains (bulkOf c) = true ∧ (s.bulk? (bulkOf c)).map (fun z => z.st) ≠ some .fenced then 0 else Memory.get s.mem a
      | _ => Memory.get s.mem a)
    (∀ slot w began tEnd, p.phase = .frame slot w began tEnd →
      (s.now < tEnd ∨ p.gated = true → Waits s edge) ∧
      (∀ fr, tEnd ≤ s.now → p.gated = false → (∀ x ∈ s.worlds, x.part = p.id → x.torn = false) →
        let take : Prop := (∀ e, nextSlot p.frames slot = some e → e.2 ≠ w) ∨ hasEdges p.frames = false
        (p.pendFrames = none ∧ fr = p.frames) ∨ (p.pendFrames = some fr ∧ take) ∨ (p.pendFrames ≠ none ∧ ¬take ∧ fr = p.frames) →
        ∃ t q, edge = .next t ∧ t.part? p.id = some q ∧ q.frames = fr ∧ t.mem = s.mem ∧ t.groups = s.groups ∧
          let halts : Prop := ∀ x, s.world? w = some x → t.world? w = some { x with busy := x.busy || (x.ctx.isNone && !x.hostSaved) }
          (∀ j, nextSlot fr slot = some (j, w) → q.phase = .frame j w tEnd (tEnd + s.frameNs w) ∧ t.worlds = s.worlds) ∧
          (∀ j v, nextSlot fr slot = some (j, v) → v ≠ w → q.phase = .gap (some (j, v)) (tEnd + Config.edgeGap) ∧ halts) ∧
          (nextSlot fr slot = none → q.phase = .gap none (tEnd + Config.edgeGap) ∧ halts))) ∧
    (∀ nxt tEnd, p.phase = .gap nxt tEnd →
      (s.now < tEnd ∨ p.gated = true → Waits s gap) ∧
      (tEnd ≤ s.now → p.gated = false → (∀ x ∈ s.worlds, x.part = p.id → x.busy = false) →
        (nxt = none → nextSlot (p.pendFrames.getD p.frames) 15 = none → ∃ t q, gap = .next t ∧ t.part? p.id = some q ∧ q.phase = .idle ∧ cleared t ∧ t.groups = s.groups) ∧
        (∀ j x, nxt = some (j, x.w) → s.world? x.w = some x → x.ctx = none → (∀ b ∈ s.blocks, ∀ l ∈ s.launches, l.world = x.w → b.lid ≠ l.lid) →
          ∃ t, gap = .next t ∧ t.part? p.id = some { p with phase := .frame j x.w tEnd (tEnd + x.frame * 1000) } ∧ cleared t ∧ t.groups = s.groups ∧
            t.worlds = s.worlds))) ∧
    ∀ v (slots : List Byte), s.ready = true → s.owned v = some p →
      let o := exec (.frameSet (.vf v) slots) s
      let good : Prop := slots.length = 16 ∧ ∀ b ∈ slots, b.getLsbD 6 = false ∧ (b.getLsbD 7 = true → ∃ x, s.live? (field b.toNat 0 6) = some x ∧ x.part = p.id)
      (¬good → o = .next { s with reply := some (.status false) }) ∧
      (good → p.phase ≠ .idle → ∃ t, o = .next t ∧ t.reply = some (.status true) ∧ t.part? p.id = some { p with pendFrames := some slots } ∧ t.worlds = s.worlds) ∧
      (good → p.phase = .idle → p.gated = false → nextSlot p.frames 15 = none → ∃ t q, o = .next t ∧ t.reply = some (.status true) ∧ t.part? p.id = some q ∧
        q.frames = slots ∧ q.pendFrames = none ∧ t.worlds = s.worlds ∧
        q.phase = match nextSlot slots 15 with
          | some n => .gap (some n) (s.now + Config.edgeGap)
          | none => .idle)) ∧
  (let no (s : State) (o : Host.Outcome State Fault Refusal) : Prop := o = .next { s with reply := some (.status false) }
  (∀ (s : State) (v w frame : Nat) (conf : Bool) (areas : List LocalArea) (p : Partition), s.ready = true → s.owned v = some p →
    let o := exec (.worldCreate (.vf v) w frame conf areas) s
    (64 ≤ w ∨ s.live? w ≠ none ∨ frame < 100 ∨ 10000 < frame ∨ s.areasOk p areas = false → no s o) ∧
    (w < 64 → s.live? w = none → s.lingers w = false → (∀ q, s.owned w = some q → q.id = p.id) →
      (s.worlds.filter fun x => x.part = p.id && !x.torn).length < 8 → 100 ≤ frame → frame ≤ 10000 → s.areasOk p areas = true →
      ∃ t y, o = .next t ∧ t.reply = some (.status true) ∧ t.live? w = some y ∧ y.part = p.id ∧ y.frame = frame ∧ y.conf = conf ∧ y.areas = areas ∧ (∀ off, y.reg off = 0) ∧
        y.imp = [] ∧ y.ctx = none ∧ y.granted = false ∧ (∀ u, u ≠ w → t.world? u = s.world? u) ∧ t.mem = s.mem ∧ t.groups = s.groups ∧
        ∀ a ∈ areas, ∃ c ∈ t.changes, c.page = a.base / 4096 ∧ c.count = Config.localAreaBytes / 4096 ∧ c.fill = true ∧ c.since = s.now)) ∧
  (∀ (s : State) (v w : Nat) (p : Partition), s.ready = true → s.owned v = some p →
    let o := exec (.worldTeardown (.vf v) w) s
    (s.live? w = none → no s o) ∧
    ∀ x, s.live? w = some x →
      (x.part ≠ p.id → no s o) ∧
      (x.part = p.id → ∃ t y, o = .next t ∧ t.reply = some (.status true) ∧ t.world? w = some y ∧ y.torn = true ∧ t.live? w = none ∧
        y.reg rABORTED = BitVec.ofNat 64 (s.launches.filter fun l => l.world = w && l.status = .running).length ∧
        y.reg rDROPPED = BitVec.ofNat 64 (x.qLeft 0 + x.qLeft 1 + x.qLeft 2 + x.qLeft 3 + (p.devq.filter fun e => e.world = w).length * 2 ^ 32) ∧
        t.mem = s.mem ∧ t.groups = s.groups ∧ (∀ l, s.launch? l.lid = some l → l.world = w → l.status = .running →
          ∃ z, t.launch? l.lid = some z ∧ z.status = .aborting Cause.contained 0 false true false (BitVec.ofNat 64 s.now)))) ∧
  ∀ (s : State) (p : Partition), s.ready = true → s.part? p.id = some p →
    let gate := exec (.gate .pf0 p.id) s
    let ungate := exec (.ungate .pf0 p.id) s
    (p.gated = true → no s gate) ∧ (p.gated = false → no s ungate) ∧
    (p.gated = false → (∃ b ∈ p.bulks, s.settling b = true) ∨ (∃ l ∈ s.launches, l.part = p.id ∧ l.status ≠ .running) → gate = .next { s with mgmt := s.mgmt ++ [.gate .pf0 p.id] }) ∧
    (p.gated = false → (∀ b ∈ p.bulks, s.settling b = false) → (∀ l ∈ s.launches, l.part = p.id → l.status = .running) → ∃ t q, gate = .next t ∧
      t.reply = some (.status true) ∧ t.part? p.id = some q ∧ q.gated = true ∧ q.phase = .idle ∧ q.bulks = p.bulks ∧ t.now = s.now ∧
      (∀ b ∈ p.bulks, ∀ k, s.bulk? b = some k → (t.bulk? b).map (fun z => z.st) = some .off) ∧
      (∀ a c n, region a = .slice c n → p.bulks.contains (bulkOf c) = true → Memory.get t.mem a = 0) ∧
      ∀ x, s.world? x.w = some x → x.part = p.id → x.torn = false → (∃ l ∈ s.launches, l.world = x.w) → ∃ y, t.world? x.w = some y ∧ y.ctx.isSome = true) ∧
    (p.gated = true → ∃ t q, ungate = .next t ∧ t.reply = some (.status true) ∧ t.part? p.id = some q ∧ q.gated = false ∧ q.bulks = p.bulks ∧
      ∀ b ∈ p.bulks, ∀ k, s.bulk? b = some k → (t.bulk? b).map (fun z => z.st) = some .resetting))

/-- R51, R70 to R75, R157, R347, R372, R384, Tables 02-10 and 15-7: an error, a hang or a junction at 110 degrees makes a running bulkhead fence itself, with its
reason in an ember record; above 100 degrees its limit is lowered until it recovers. Once its gates are closed it is FENCED, and the running launches of the
world on it are aborted with CONTAINED; in AUTO mode, or by the owner's command, single-region reset follows: its slices are zero, its blocks and leases gone,
HBM as it was. At its end the bulkhead is RUNNING and its cores' counters start again. The model's choice: the groups, blocks and chains of a bulkhead in reset
are gone (log entry 43). R49 to R51, R69, R369, R370, R377, R379 to R381, R408: PARTITION_FORM makes a partition of a legal placement of free bulkheads for a
free owner, zero-fills their memory and resets them; PARTITION_DISSOLVE, with no launch in flight, takes it and its worlds away and holds its bulkheads in
reset. FABRIC_ROUTE sets a route and enables a port that was held down. PAGE_ASSIGN begins a change of ownership, from which on the pages belong to nobody; once
what passed before has performed and every lease has ended they are zero-filled if that is due and get their entry. REPLAY_ENABLE is for a partition of one
world. The current limiter freezes the cores of its bulkhead in descending order of their sums until the rest is within the limit, in replay mode all of them.
What is not allowed, a SEALED page with ALLW, of a slice or for a world without CONF among it, is refused and changes nothing. The model's choices: port 12 and
above and the reserved bits of a route are refused (log entry 72), dissolving waits for writes in flight (log entry 71), a page of world 0 with ALLW counts as
one of the pool (log entry 44), and a frozen core's sum leaves the projection (log entry 135). R54 to R57, R372, Table 02-3: an owner offers 1 to 16 pages that
every world of its partition may use; the importer's owner accepts within 1 s, while the pages still may be offered and both have a free slot, and the window
opens in both; else the offer is gone. A close takes effect at once for new accesses and is answered once the window is closed; offer, acceptance and close wait
for a bulkhead that is being fenced or reset. Once every admitted write has performed both slots are free and the pages are plain again. The model's choice: an
acceptance checks the pages again (log entry 73). EMBER_READ gives the records of a bulkhead from a SEQ on, to the package owner or to the owner of the
bulkhead. -/
def Obligations.ContainmentAndManagement : Prop :=
  (∀ (s : State) (b : Nat) (k : Bulk), s.bulk? b = some k →
    let stOf (t : State) : Option BState := (t.bulk? b).map fun z => z.st
    let fences (r : Nat) (o : Host.Outcome State Fault Refusal) : Prop := ∃ t z, o = .next t ∧ t.bulk? b = some z ∧ z.st = .fencing ∧ z.since = s.now ∧ z.reason = r ∧
      (∃ e ∈ z.ember, k.seq ≤ e.seq ∧ e.code = 0x03 ∧ e.data = BitVec.ofNat 64 r ∧ e.time = BitVec.ofNat 64 s.now) ∧ t.mem = s.mem ∧ t.groups = s.groups ∧ t.launches = s.launches
    let resets (o : Host.Outcome State Fault Refusal) : Prop := ∃ t, o = .next t ∧ stOf t = some .resetting ∧ (∀ x ∈ t.blocks, bulkOf x.core ≠ b) ∧
      (∀ l ∈ t.leases, bulkOf l.core ≠ b) ∧ (∀ e ∈ t.tlb, bulkOf e.core ≠ b) ∧
      ∀ a, Memory.get t.mem a = match region a with
        | .slice c _ => if bulkOf c = b then 0 else Memory.get s.mem a
        | _ => Memory.get s.mem a
    let low (o : Host.Outcome State Fault Refusal) (v : Bool) : Prop := ∃ t z, o = .next t ∧ t.bulk? b = some z ∧ z.lowered = v ∧ z.st = k.st ∧ t.mem = s.mem
    (∀ r, (k.st = .running → fences r (exec (.bulkheadFencing b r) s)) ∧ (k.st ≠ .running → Waits s (exec (.bulkheadFencing b r) s))) ∧
    (k.st = .running → fences 2 (exec (.hangDetection b) s)) ∧ (k.st ≠ .running → Waits s (exec (.hangDetection b) s)) ∧
    (∀ temp, 110 ≤ temp → k.st = .running → fences 3 (exec (.thermalLimit b temp) s)) ∧
    (∀ temp, temp < 110 → low (exec (.thermalLimit b temp) s) (k.lowered || decide (100 < temp))) ∧ low (exec (.junctionTemperatureRecovery b) s) false ∧
    (k.st ≠ .fencing → Waits s (exec (.bulkheadFenced b) s)) ∧
    (k.st = .fencing → s.partOf b = none → Goes (exec (.bulkheadFenced b) s) fun t => stOf t = some .fenced ∧ t.mem = s.mem ∧ t.launches = s.launches) ∧
    (∀ p, k.st = .fencing → s.partOf b = some p → (p.autoReset = true → resets (exec (.bulkheadFenced b) s)) ∧
      (p.autoReset = false → Goes (exec (.bulkheadFenced b) s) fun t => stOf t = some .fenced ∧ t.mem = s.mem ∧ (∀ q, q ∈ t.pend ↔ q ∈ s.pend ∧ q.atGate b = false) ∧
        ((∀ q ∈ s.pend, q.atGate b = false) → t.groups = s.groups)) ∧
      ∀ y, s.scheduled p = some y → Goes (exec (.bulkheadFenced b) s) fun t => ∀ l, s.launch? l.lid = some l → l.world = y.w →
        Aborted s l.lid Cause.contained (if k.word then Cause.uncorrectable else 0) false t) ∧
    (k.st ≠ .resetting → Waits s (exec (.bulkheadResetComplete b) s)) ∧
    (k.st = .resetting → Goes (exec (.bulkheadResetComplete b) s) fun t => stOf t = some .running ∧ t.mem = s.mem ∧
      ∀ i, i < 32 → SMap.get t.cycBase (b * 32 + i) = BitVec.ofNat 64 s.cycles ∧ SMap.get t.arrays (b * 32 + i) = 0) ∧
    ∀ v p, s.ready = true → s.owned v = some p →
      let o := exec (.bulkheadReset (.vf v) b) s
      (b ∉ p.bulks ∨ k.st ≠ .fenced → o = .next { s with reply := some (.status false) }) ∧
      (b ∈ p.bulks → k.st = .fenced → resets o ∧ Goes o fun t => t.reply = some (.status true)) ∧
      ∀ held, s.part? p.id = some p → ∃ t q, exec (.resetMode (.vf v) held) s = .next t ∧ t.reply = some (.status true) ∧ t.part? p.id = some q ∧ q.autoReset = !held ∧
        (held = true ∨ k.st ≠ .fenced ∨ b ∉ p.bulks → stOf t = some k.st) ∧ (held = false → k.st = .fenced → b ∈ p.bulks → stOf t = some .resetting)) ∧
  (let no (s : State) (o : Host.Outcome State Fault Refusal) : Prop := o = .next { s with reply := some (.status false) }
  let yes (o : Host.Outcome State Fault Refusal) (P : State → Prop) : Prop := Goes o fun t => t.reply = some (.status true) ∧ P t
  (∀ (s : State) (bulks : List Nat) (owner : Nat), s.ready = true →
    (s.mayForm bulks owner = false → no s (exec (.partitionForm .pf0 bulks owner) s)) ∧
    (s.mayForm bulks owner = true → (∀ b ∈ bulks, (s.bulk? b).map (fun z => z.st) = some .off) → (∀ b ∈ bulks, s.part? b = none) → yes (exec (.partitionForm .pf0 bulks owner) s) fun t =>
      ∃ q, t.owned owner = some q ∧ (∀ b, b ∈ q.bulks ↔ b ∈ bulks) ∧ q.id ∈ bulks ∧ (∀ b ∈ bulks, q.id ≤ b) ∧ t.part? q.id = some q ∧ q.slots = [] ∧ q.phase = .idle ∧ q.routes = [] ∧
        q.ptroot = 0 ∧ q.gated = false ∧ q.autoReset = true ∧ t.stored = s.stored ++ [(bulks, owner)] ∧
        ∀ b ∈ bulks, (t.bulk? b).map (fun z => z.st) = some .resetting ∧ ∀ r ∈ pagesOf b, ∀ a, r.1 ≤ a / 4096 → a / 4096 < r.1 + r.2 → Memory.get t.mem a = 0)) ∧
  (∀ (s : State) (p : Partition), s.ready = true → s.part? p.id = some p →
    let o := exec (.partitionDissolve .pf0 p.id) s
    ((∃ l ∈ s.launches, l.part = p.id) → no s o) ∧
    ((∀ l ∈ s.launches, l.part ≠ p.id) → (∀ b ∈ p.bulks, s.settling b = false) → (∃ q ∈ s.pend, q.ext = none ∧ ∃ b ∈ p.bulks, homeBulk q.pa = some b) →
      o = .next { s with mgmt := s.mgmt ++ [.dissolve .pf0 p.id] }) ∧
    ((∀ l ∈ s.launches, l.part ≠ p.id) → (∀ b ∈ p.bulks, s.settling b = false ∧ (s.bulk? b).isSome = true) → s.pend = [] → yes o fun t => t.part? p.id = none ∧
      (∀ x ∈ t.worlds, x ∈ s.worlds ∧ x.part ≠ p.id) ∧ (∀ x ∈ s.worlds, x.part ≠ p.id → x ∈ t.worlds) ∧
      ∀ b ∈ p.bulks, (t.bulk? b).map (fun z => z.st) = some .off ∧ ∀ r ∈ pagesOf b, ∀ a, r.1 ≤ a / 4096 → a / 4096 < r.1 + r.2 → Memory.get t.mem a = 0) ∧
    (∀ peer (entry : Word), let f := exec (.fabricRoute .pf0 p.id peer entry) s
      (peer = Config.packageNumber ∨ 8192 ≤ peer ∨ 12 ≤ field entry.toNat 1 4 ∨ 2 ^ 10 ≤ entry.toNat → no s f) ∧
      (peer ≠ Config.packageNumber → peer < 8192 → field entry.toNat 1 4 < 12 → entry.toNat < 2 ^ 10 → s.ext = [] → yes f fun t =>
        (∃ q, t.part? p.id = some q ∧ (∀ i, SMap.get q.routes i = if i = peer then entry else SMap.get p.routes i)) ∧ t.worlds = s.worlds ∧ t.mem = s.mem ∧
        t.ports = s.ports.map fun z => if entry.getLsbD 0 = true ∧ z.n = field entry.toNat 1 4 ∧ z.st = 2 then { z with st := 0, fails := 0 } else z)) ∧
    ∀ v, s.owned v = some p →
      ((s.worlds.filter fun x => x.part = p.id && !x.torn).length = 1 → p.replay = false → yes (exec (.replayEnable (.vf v)) s) fun t =>
        t.part? p.id = some { p with replay := true, replayOn := some (s.now, s.cycles) } ∧ t.worlds = s.worlds ∧ t.mem = s.mem) ∧
      ((s.worlds.filter fun x => x.part = p.id && !x.torn).length ≠ 1 → no s (exec (.replayEnable (.vf v)) s)) ∧
      ∀ page count e, 0 < count → s.potParts page count = [(page, count, e)] →
        let shaped : Prop := ∃ b ∈ p.bulks, inBulk b page count = true
        let free : Prop := field e 0 5 = p.id ∧ field e 13 3 = 0
        let begins (entry : Word) (fill : Bool) (o : Host.Outcome State Fault Refusal) : Prop := yes o fun t => t.changes = s.changes ++ [⟨page, count, entry, fill, s.now⟩] ∧
          (∀ q, page ≤ q → q < page + count → t.potEntry q = unowned.toNat) ∧ t.mem = s.mem ∧ t.worlds = s.worlds
        (¬shaped ∨ ¬free → ∀ w allw sealed_, no s (exec (.pageAssign (.vf v) page count w allw sealed_) s)) ∧
        (shaped → free → ∀ allw sealed_,
          (sealed_ = true ∧ (allw = true ∨ Config.sliceBase / 4096 ≤ page) → no s (exec (.pageAssign (.vf v) page count none allw sealed_) s)) ∧
          (¬(sealed_ = true ∧ (allw = true ∨ Config.sliceBase / 4096 ≤ page)) → begins (poolEntry p.id) true (exec (.pageAssign (.vf v) page count none allw sealed_) s))) ∧
        (shaped → free → ∀ w allw sealed_ x, s.worldOf p.id w = some x →
          let o := exec (.pageAssign (.vf v) page count (some w) allw sealed_) s
          let bad : Prop := sealed_ = true ∧ (allw = true ∨ Config.sliceBase / 4096 ≤ page ∨ x.conf = false)
          (bad → no s o) ∧
          (¬bad → ∀ fill, (fill = false ↔ field e 5 6 = w ∧ (field e 12 1 = 1 ↔ sealed_ = true) ∧ e ≠ (poolEntry p.id).toNat) → begins (potOf p.id w allw sealed_ false false false 0) fill o)) ∧
        (∀ w allw sealed_, s.worldOf p.id w = none → no s (exec (.pageAssign (.vf v) page count (some w) allw sealed_) s))) ∧
  (∀ (s : State) (page : Nat),
    let o := exec (.ownershipChange page) s
    ((∀ c ∈ s.changes, page < c.page ∨ c.page + c.count ≤ page) → Waits s o) ∧
    ∀ c, s.changes = [c] → c.page ≤ page → page < c.page + c.count →
      let inside (a : Nat) : Prop := c.page ≤ a / 4096 ∧ a / 4096 < c.page + c.count
      ((∃ b, homeBulk (c.page * 4096) = some b ∧ s.settling b = true) ∨ (∃ q ∈ s.pend, q.ext = none ∧ inside q.pa) ∨ (∃ e ∈ s.lmax, inside (e.1 * 128) ∧ s.now < e.2) → Waits s o) ∧
      ((∀ b, homeBulk (c.page * 4096) = some b → s.settling b = false) → s.pend = [] → (∀ e ∈ s.lmax, inside (e.1 * 128) → e.2 ≤ s.now) → Goes o fun t => t.changes = [] ∧ (∀ q, c.page ≤ q → q < c.page + c.count → t.potEntry q = c.entry.toNat) ∧
        (∀ l ∈ t.leases, ¬inside (l.line * 128)) ∧
        (∀ a, (inside a → Memory.get t.mem a = if c.fill then 0 else Memory.get s.mem a) ∧ (¬inside a → Memory.get t.mem a = Memory.get s.mem a)))) ∧
  ∀ (s : State) (b : Nat) (issued : List (List Nat)), (s.bulk? b = none → Waits s (exec (.currentLimiterFreeze b issued) s)) ∧
    ∀ x, s.bulk? b = some x → ∃ t, exec (.currentLimiterFreeze b issued) s = .next t ∧ t = { s with frozen := t.frozen } ∧
      let core (k : Nat) : Nat := b * 32 + k
      let weight (c : Nat) : Nat := coreSum (issued.getD (c % 32) [])
      let before (c : Nat) : Nat := ((List.range 32).map fun k => if weight c < weight (core k) ∨ weight c = weight (core k) ∧ core k < c then weight (core k) else 0).sum
      let sum : Nat := ((List.range 32).map fun k => weight (core k)).sum
      let limit : Nat := Config.currentLimit b x.lowered
      ∀ c, c ∈ t.frozen ↔ c ∈ s.frozen ∨ ((∃ k, k < 32 ∧ c = core k) ∧ limit < sum ∧ ((∃ p ∈ s.parts, p.replayOn.isSome = true ∧ b ∈ p.bulks) ∨ limit < sum - before c))) ∧
  (let no (s : State) (o : Host.Outcome State Fault Refusal) : Prop := o = .next { s with reply := some (.status false) }
  (∀ (s : State) (v : Nat) (p : Partition), s.ready = true → s.owned v = some p → s.part? p.id = some p →
    (∀ importer page count two, let o := exec (.windowOffer (.vf v) importer page count two) s
      ((∃ b, homeBulk (page * 4096) = some b ∧ s.settling b = true) → o = .next { s with mgmt := s.mgmt ++ [.offer (.vf v) importer page count two] }) ∧
      ((∀ b, homeBulk (page * 4096) = some b → s.settling b = false) →
      (importer = p.id ∨ s.part? importer = none ∨ s.mayOffer p.id page count = false → no s o) ∧
      (importer ≠ p.id → s.part? importer ≠ none → s.mayOffer p.id page count = true → 
        let new : Offer := { id := s.serial, exporter := p.id, importer := importer, page := page, count := count, two := two, time := s.now }
        o = .next { s with offers := s.offers ++ [new], serial := s.serial + 1, reply := some (.data (toBytes 8 s.serial)) }))) ∧
    (∀ off, let o := exec (.windowAccept (.vf v) off) s
      ((∀ f ∈ s.offers, f.id = off → f.importer ≠ p.id) → no s o) ∧
      (∀ f b, s.offers.find? (fun o => o.id = off && o.importer = p.id) = some f → homeBulk (f.page * 4096) = some b → s.settling b = true →
        o = .next { s with mgmt := s.mgmt ++ [.accept (.vf v) off] }) ∧
      ∀ f q, s.offers.find? (fun o => o.id = off && o.importer = p.id) = some f → (∀ b, homeBulk (f.page * 4096) = some b → s.settling b = false) →
        s.part? f.exporter = some q → q.id ≠ p.id →
        (f.time + 1000000000 ≤ s.now ∨ s.mayOffer f.exporter f.page f.count = false ∨ q.freeSlot = none ∨ p.freeSlot = none → ∃ t, o = .next t ∧
          t = { s with offers := t.offers, reply := some (.status false) } ∧ ∀ g, g ∈ t.offers ↔ g ∈ s.offers ∧ g.id ≠ off) ∧
        (∀ i j e, s.now < f.time + 1000000000 → s.mayOffer f.exporter f.page f.count = true → q.freeSlot = some i → p.freeSlot = some j →
          s.potParts f.page f.count = [(f.page, f.count, e)] →
          let win : Window := { two := f.two, exporter := f.exporter, importer := f.importer, pages := f.count, base := f.page }
          ∃ t, o = .next t ∧ t.reply = some (.status true) ∧ t.part? q.id = some { q with slots := q.slots ++ [⟨i, win, none⟩] } ∧
            t.part? p.id = some { p with slots := p.slots ++ [⟨j, win, none⟩] } ∧ (∀ g, g ∈ t.offers ↔ g ∈ s.offers ∧ g.id ≠ off) ∧
            (∀ n, f.page ≤ n → n < f.page + f.count → t.potEntry n = (BitVec.ofNat 32 (e + 2 ^ 13 + i * 2 ^ 16)).toNat) ∧ t.mem = s.mem)) ∧
    (∀ slot, let o := exec (.windowClose (.vf v) slot) s
      ((∀ t ∈ p.slots, t.idx ≠ slot) → no s o) ∧
      ∀ u, p.slots.find? (fun t => t.idx = slot) = some u → (∀ b, homeBulk (u.win.base * 4096) = some b → s.settling b = false) → ∃ t, o = .next t ∧ t = { s with parts := t.parts, mgmt := s.mgmt ++ [.close (.vf v) slot] } ∧
        ∀ q, s.part? q.id = some q → ∃ q', t.part? q.id = some q' ∧ q'.slots = q.slots.map fun z => if z.win = u.win ∧ z.closing = none then { z with closing := some s.now } else z) ∧
    (∀ slot u, p.slots.find? (fun t => t.idx = slot && t.closing.isSome) = some u → s.pend = [] → ∃ t, exec (.windowCloseComplete p.id slot) s = .next t ∧
      (∀ q ∈ t.parts, ∀ z ∈ q.slots, z.win ≠ u.win) ∧ t.mem = s.mem ∧ t.worlds = s.worlds ∧ ∀ rest, s.mgmt = .close (.vf v) slot :: rest → t.reply = some (.status true) ∧ t.mgmt = rest) ∧
    (∀ slot, (∀ t ∈ p.slots, t.idx = slot → t.closing = none) → Waits s (exec (.windowCloseComplete p.id slot) s)) ∧
    (∀ slot u b, p.slots.find? (fun t => t.idx = slot) = some u → homeBulk (u.win.base * 4096) = some b → s.settling b = true →
      exec (.windowClose (.vf v) slot) s = .next { s with mgmt := s.mgmt ++ [.close (.vf v) slot] })) ∧
  (∀ (s : State) (off : Nat), ∃ t, exec (.windowOfferLapse off) s = .next t ∧ t = { s with offers := t.offers } ∧
    ∀ g, g ∈ t.offers ↔ g ∈ s.offers ∧ ¬(g.id = off ∧ g.time + 1000000000 ≤ s.now)) ∧
  ∀ (s : State) (b seq : Nat) (k : Bulk), s.ready = true → s.bulk? b = some k →
    let records := (k.ember.filter fun e => decide (seq ≤ e.seq)).flatMap fun e => toBytes 8 e.time.toNat ++ toBytes 4 e.seq ++ toBytes 1 e.code ++ toBytes 1 e.bulk ++
      toBytes 2 e.core ++ toBytes 1 e.world ++ toBytes 7 0 ++ toBytes 8 e.data.toNat
    exec (.emberRead .pf0 b seq) s = .next { s with reply := some (.data records) } ∧
    ∀ v p, s.owned v = some p → (b ∈ p.bulks → exec (.emberRead (.vf v) b seq) s = .next { s with reply := some (.data records) }) ∧
      (b ∉ p.bulks → no s (exec (.emberRead (.vf v) b seq) s)))

/-! ### Evidence, host link, fabric, boot -/

/-- R351 to R354, Tables 14-1 and 14-4: the SPDM requests of a world's function. Each is answered with its response code and fields once what it needs has been
done: VERSION (1.3) starts a connection anew; then capabilities, algorithms; then digests, certificate portions, CHALLENGE and the eight measurement blocks,
both signed over the nonce and the state word (DESCHEDULED, GATED, SAVED); KEY_EXCHANGE, answered with the state word and signed, opens a session, which FINISH
completes and END_SESSION ends; large messages go in chunks. One out of order, with a slot, index or chunk that is not there, or unknown is answered with ERROR.
(Codes, the order and the errors are those of SPDM 1.3, log entry 45.) No request changes anything but the connection and the answer; a function without a world
answers nothing. -/
def Obligations.EvidenceRequests : Prop :=
  (∀ (s : State) (w : Nat) (x : World), s.live? w = some x →
    let answers (i : Instr) (code : Nat) (bs : List Byte) (f : Spdm → Spdm) : Prop :=
      exec i s = .next { s.modWorld w (fun y => { y with spdm := f y.spdm }) with reply := some (.data (toBytes 1 code ++ bs)) }
    let fails (i : Instr) (bs : List Byte) : Prop := exec i s = .next { s with reply := some (.data (toBytes 1 0x7F ++ bs)) }
    let early (i : Instr) : Prop := fails i (toBytes 1 4)
    let chain := Config.certChain
    let gated : Bool := match s.part? x.part with | some p => p.gated | none => false
    let word := toBytes 4 (b2n (!s.inFrame x) + b2n gated * 2 + b2n x.showsSaved * 4)
    answers (.getVersion w) 0x04 (toBytes 1 1 ++ toBytes 2 0x1300) (fun _ => ⟨true, false, false, false, false, [], 0⟩) ∧
    (x.spdm.version = true → answers (.getCapabilities w) 0x61 (toBytes 4 0x262D6) fun c => { c with caps := true }) ∧
    (x.spdm.version = false → early (.getCapabilities w)) ∧
    (x.spdm.caps = true → answers (.negotiateAlgorithms w) 0x63 (toBytes 4 0 ++ toBytes 4 2 ++ toBytes 1 1 ++ Config.extAsym) fun c => { c with algs := true }) ∧
    (x.spdm.caps = false → early (.negotiateAlgorithms w)) ∧
    (x.spdm.algs = false → ∀ slot off len nonce index bytes last, early (.getDigests w) ∧ early (.getCertificate w slot off len) ∧ early (.challenge w nonce) ∧
      early (.getMeasurements w nonce index) ∧ early (.keyExchange w nonce) ∧ early (.chunkSend w bytes last) ∧ early (.chunkGet w index)) ∧
    (x.spdm.algs = true →
      answers (.getDigests w) 0x01 (toBytes 1 1 ++ sha384 chain) id ∧
      (∀ slot off len, (slot ≠ 0 ∨ chain.length ≤ off → fails (.getCertificate w slot off len) (toBytes 1 1)) ∧
        (slot = 0 → off < chain.length → ∀ n, n = min len (chain.length - off) →
          answers (.getCertificate w slot off len) 0x02 (toBytes 2 n ++ toBytes 2 (chain.length - off - n) ++ (chain.drop off).take len) id)) ∧
      (∀ nonce, let m := sha384 chain ++ nonce ++ word
        answers (.challenge w nonce) 0x03 (m ++ Config.sign m) id) ∧
      (∀ nonce index p, s.part? x.part = some p →
        (8 < index → index ≠ 255 → fails (.getMeasurements w nonce index) (toBytes 1 1)) ∧
        (∀ blocks : List Nat, (index = 0 ∧ blocks = []) ∨ (index = 255 ∧ blocks = [1, 2, 3, 4, 5, 6, 7, 8]) ∨ (1 ≤ index ∧ index ≤ 8 ∧ blocks = [index]) →
          let m := toBytes 1 (if index = 0 then 8 else blocks.length) ++ (blocks.flatMap fun i => s.measurement x p i) ++ nonce ++ word
          answers (.getMeasurements w nonce index) 0x60 (m ++ Config.sign m) fun c => { c with large := toBytes 1 0x60 ++ m ++ Config.sign m, chunk := 0 })) ∧
      (∀ nonce, answers (.keyExchange w nonce) 0x64 (word ++ Config.sign (nonce ++ word)) fun c => { c with session := true, finished := false }) ∧
      (∀ bytes last, answers (.chunkSend w bytes last) 0x05 (toBytes 2 x.spdm.chunk) fun c =>
        { c with large := (if c.chunk = 0 then [] else c.large) ++ bytes, chunk := if last then 0 else c.chunk + 1 }) ∧
      (∀ seq, let rest := x.spdm.large.drop (seq * Config.spdmChunk)
        (x.spdm.large = [] → early (.chunkGet w seq)) ∧ (x.spdm.large ≠ [] → rest = [] → fails (.chunkGet w seq) (toBytes 1 1)) ∧
        (rest ≠ [] → answers (.chunkGet w seq) 0x06 (toBytes 1 (b2n (decide (rest.length ≤ Config.spdmChunk))) ++ toBytes 2 seq ++ rest.take Config.spdmChunk) id))) ∧
    (x.spdm.session = false ∨ x.spdm.finished = true → ∀ ok, early (.finish w ok)) ∧
    (x.spdm.session = true → x.spdm.finished = false → answers (.finish w true) 0x65 [] (fun c => { c with finished := true }) ∧
      answers (.finish w false) 0x7F (toBytes 1 6) fun c => { c with session := false }) ∧
    (x.spdm.finished = false → early (.heartbeat w) ∧ early (.keyUpdate w) ∧ early (.endSession w)) ∧
    (x.spdm.finished = true → answers (.heartbeat w) 0x68 [] id ∧ answers (.keyUpdate w) 0x69 [] id ∧
      answers (.endSession w) 0x6C [] fun c => { c with session := false, finished := false }) ∧
    ∀ code, fails (.unsupportedRequest w code) (toBytes 1 7 ++ toBytes 1 code)) ∧
  ∀ (s : State) (w : Nat) (i : Instr), s.live? w = none → i ∈ [.getVersion w, .getCapabilities w, .negotiateAlgorithms w, .getDigests w, .heartbeat w, .keyUpdate w, .endSession w] →
    Waits s (exec i s)

/-- R374 to R376, Tables 16-2 and 02-11: LOCK, START and STOP_INTERFACE move a world's interface between CONFIG_UNLOCKED, CONFIG_LOCKED and RUN; leaving RUN, as an
IDE failure makes it, sets TDIERR, and drops the function's writes that have not begun to arrive, which ABORT tells. In RUN an access off the function's IDE
stream is answered Unsupported Request. The report of a locked one lists BAR0 and BAR2. A host read through the aperture answers the bytes at the home, a host
write puts exactly its bytes in flight; one that fails, or meets a gated partition, sets its FNSTAT bit, and a read is answered with a Completer Abort. A host
completion, or 50 ms without one, answers the request that waits. The model's choices: STOP_INTERFACE from LOCKED just unlocks, and what the report lists (log
entry 76); an access lies in one page and in BAR2, and host writes follow one another (log entry 77); what leaving RUN drops (log entry 137). R353, R378 to
R382, R371, Table 16-5: training sends this end's chain, number and signature over the peer's nonce, and brings a port up where the peer's chain leads to the
root and its key has signed this end's nonce, else holds it down; a flit with the expected number and a good CRC is accepted: its acknowledgement empties the
buffer, in which a request that waits finds room, a completion answers its request, a request waits for its turn; the eighth failed replay takes the port down,
and what it carried fails. A fabric request that a flit has brought reads, writes or changes exactly its bytes at their home, once, and a failing write, or one
of more than 128 bytes, is dropped. COLD_BOOT leaves the stage and error in BOOTSTAT and nothing of what ran; FIRMWARE_COMMAND stages an image or advances the
fused counter, never back. An input of a replay acts as its like does, in replay mode alone. The model's choices: flits out of sequence and the record of a port
that is down (log entry 79), cumulative acknowledgements and what a completion's flit takes of the buffer (log entry 136), requests that are performed at once,
their source unchecked (log entry 80), and a staged image at a boot (log entry 81). -/
def Obligations.LinkFabricAndBoot : Prop :=
  ((∀ (s : State) (w : Nat) (x : World), s.live? w = some x →
    let no (i : Instr) : Prop := exec i s = .next { s with reply := some (.status false) }
    let sets (i : Instr) (f : World → World) (r : Option Reply) : Prop := exec i s = .next { s.modWorld w f with reply := r }
    let yes : Option Reply := some (.status true)
    let mine (q : Pend) : Prop := q.src = .host w ∧ q.begun = false
    let leaves (i : Instr) (r r' : Option Reply) : Prop := ∃ t y, exec i s = .next t ∧ t.live? w = some y ∧ y.tdi = .unlocked ∧ t.mem = s.mem ∧
      t.launches = s.launches ∧ (∀ q, q ∈ t.pend ↔ q ∈ s.pend ∧ ¬mine q) ∧ SameRegsBut x y [rFNSTAT] ∧ (x.tdi = .run → y.tdiLeft = true ∧ y.fieldOf rFNSTAT 2 1 = 1) ∧
      ((∃ q ∈ s.pend, mine q) → y.fieldOf rFNSTAT 0 1 = 1 ∧ t.reply = r') ∧ ((∀ q ∈ s.pend, ¬mine q) → t.reply = r ∧ (x.tdi ≠ .run → y = { x with tdi := .unlocked }))
    (x.tdi = .unlocked → sets (.lockInterface w) (fun y => { y with tdi := .locked }) yes) ∧ (x.tdi ≠ .unlocked → no (.lockInterface w)) ∧
    (x.tdi = .locked → sets (.startInterface w) (fun y => { y with tdi := .run, tdiLeft := false }) yes) ∧ (x.tdi ≠ .locked → no (.startInterface w)) ∧
    (x.tdi = .unlocked → no (.getDeviceInterfaceReport w)) ∧
    (x.tdi ≠ .unlocked → exec (.getDeviceInterfaceReport w) s =
      .next { s with reply := some (.data (toBytes 1 0 ++ toBytes 8 0x10000 ++ toBytes 1 2 ++ toBytes 8 0x1000000000)) }) ∧
    leaves (.stopInterface w) yes yes ∧ leaves (.ideIntegrityFailure w) s.reply (some .abort) ∧
    ∀ tee off, let va := x.fieldOf rAPBASE 36 16 * 2 ^ 36 + off
      let sees (wr : Bool) (n : Nat) : Except Fail (List Piece) := s.checkGlobal .host none x.part x.w (40 + x.w) [] wr (!wr) false va n
      let flags (i : Instr) (n : Nat) (r : Option Reply) : Prop := ∃ t y, exec i s = .next t ∧ t.reply = r ∧ t.live? w = some y ∧ y.fieldOf rFNSTAT n 1 = 1 ∧
        SameRegsBut x y [rFNSTAT] ∧ t.mem = s.mem ∧ t.pend = s.pend
      (∀ op, 2 ^ 36 ≤ off → Waits s (exec (.apertureAccess ⟨w, tee⟩ off op) s)) ∧
      (∀ n, off < 2 ^ 36 → 4096 < off % 4096 + n → Waits s (exec (.apertureAccess ⟨w, tee⟩ off (.read n)) s)) ∧
      (∀ op, let n := match op with | .read n => n | .write bs => bs.length
        off < 2 ^ 36 → off % 4096 + n ≤ 4096 → tee = false → x.tdi = .run → exec (.apertureAccess ⟨w, tee⟩ off op) s = .next { s with reply := some .ur }) ∧
      ∀ p, tee = true ∨ x.tdi ≠ .run → off < 2 ^ 36 → s.part? x.part = some p → s.world? w = some x → p.replayOn = none →
        (∀ n, off % 4096 + n ≤ 4096 →
          (p.gated = true → flags (.apertureAccess ⟨w, tee⟩ off (.read n)) 1 (some .abort)) ∧
          (∀ q, p.gated = false → sees false n = .ok [q] → s.pend = [] → ∃ t, exec (.apertureAccess ⟨w, tee⟩ off (.read n)) s = .next t ∧
            t.reply = some (.data (Memory.read s.mem q.pa q.len)) ∧ t.mem = s.mem ∧ t.worlds = s.worlds) ∧
          (∀ f, p.gated = false → sees false n = .error f → f ≠ .unc → flags (.apertureAccess ⟨w, tee⟩ off (.read n)) (if f = .down then 1 else 0) (some .abort))) ∧
        ∀ bs : List Byte, off % 4096 + bs.length ≤ 4096 →
          (p.gated = true → flags (.apertureAccess ⟨w, tee⟩ off (.write bs)) 1 s.reply) ∧
          (∀ q, p.gated = false → sees true bs.length = .ok [q] → q.len = bs.length → ∃ t news, exec (.apertureAccess ⟨w, tee⟩ off (.write bs)) s = .next t ∧
            t.pend = s.pend ++ news ∧ news.flatMap Pend.cells = ((List.range' q.pa q.len).zip bs).map (fun e => (Writer.host w, e.1, e.2)) ∧ t.mem = s.mem ∧
            t.worlds = s.worlds) ∧
          (∀ f, p.gated = false → sees true bs.length = .error f → flags (.apertureAccess ⟨w, tee⟩ off (.write bs)) (if f = .down then 1 else 0) s.reply)) ∧
  ∀ (s : State) (id : Nat),
    (s.open? id true = none → (∀ st, Waits s (exec (.hostReadCompletion id st) s)) ∧ Waits s (exec (.hostAccessTimeout id) s)) ∧
    ∀ e, s.open? id true = some e →
      let gets (i : Instr) (r : ExtReply) : Prop := exec i s = .next { s with ext := s.ext.map fun x => if x.id = id then { x with reply := some r } else x }
      (s.now < e.sent + Config.hostTimeout → Waits s (exec (.hostAccessTimeout id) s)) ∧
      (e.op ≠ .flush → (∀ p ∈ s.pend, p.ext ≠ some id) →
        (∀ bs, gets (.hostReadCompletion id (.ok bs)) (.ok bs)) ∧ gets (.hostReadCompletion id .ur) .ownership ∧ gets (.hostReadCompletion id .ca) .ownership ∧
        (e.sent + Config.hostTimeout ≤ s.now → gets (.hostAccessTimeout id) .ownership))) ∧
  ((∀ (s : State) (port : Nat),
    let up : Prop := ∃ q ∈ s.ports, q.n = port ∧ q.st = 1
    let ports (P : Port → Port) : List Port := s.ports.map fun q => if q.n = port then P q else q
    let fresh : Prop := ∃ q ∈ s.ports, q.n = port ∧ q.st = 0
    (∀ pp pk chain nonce sig, let o := exec (.linkTraining port pp pk chain ⟨nonce, sig⟩) s
      (s.ready = false ∨ ¬fresh → Waits s o) ∧
      (s.ready = true → fresh → ∀ ok, ok = (Config.chainRooted chain && Config.keyVerifies (Config.chainKey chain) sig s.nonce) →
        o = .next { s with
          reply := some (.data (Config.certChain ++ toBytes 4 Config.packageNumber ++ Config.sign (nonce.take 48)))
          ports := ports fun q => if q.st = 0 then
            { q with st := if ok then 1 else 2, peerPort := pp % 256, peer := pk % 8192, digest := (sha384 (Config.chainKey chain)).take 32,
                     key := if ok then Config.linkKey s.fresh chain else [], seq := 0, fails := 0, out := [], oseq := 0, ofails := 0, inbox := [] } else q })) ∧
    (¬up → Waits s (exec (.portDown port) s)) ∧
    (up → s.pend = [] → (s.ext.map fun e => e.id).Nodup → exec (.portDown port) s = .next { s with
      ports := ports fun q => if q.st = 1 then { q with st := 0, key := [], seq := 0, fails := 0, out := [], oseq := 0, ofails := 0, inbox := [] } else q,
      ext := s.ext.map fun e => if e.reply = none ∧ e.host = false ∧ e.port = port then { e with reply := some .down } else e }) ∧
    (∀ seq ack crcOk body, ¬up → Waits s (exec (.flitReceive port ⟨seq, ack⟩ crcOk body) s)) ∧
    (∀ q ack, s.ports.find? (fun q => q.n = port && q.st = 1) = some q →
      (∀ seq crcOk body, seq ≠ q.seq → Waits s (exec (.flitReceive port ⟨seq, ack⟩ crcOk body) s)) ∧
      (∀ body, q.fails < 8 → exec (.flitReceive port ⟨q.seq, ack⟩ false body) s = .next { s with ports := ports fun x => { x with fails := x.fails + 1 } }) ∧
      (∀ body, 8 ≤ q.fails → exec (.flitReceive port ⟨q.seq, ack⟩ false body) s = exec (.portDown port) s) ∧
      ∀ left, left = ackTo ack q.out → (∀ i, (q.out.map fun e => e.1)[i]? = some ack → (∀ j, j < i → (q.out.map fun e => e.1)[j]? ≠ some ack) → left = q.out.drop (i + 1)) ∧
        let back := if left.length < q.out.length then 0 else q.ofails
        let took (inbox : List FabReq) (back : Nat → Nat) : List Port := ports fun x =>
          { x with seq := (x.seq + 1) % 4096, fails := 0, out := left, ofails := back (if left.length < q.out.length then 0 else q.ofails), inbox := x.inbox ++ inbox }
        ((∀ e ∈ s.ext, e.host = true ∨ e.flit.isSome = true ∨ e.reply.isSome = true) →
          exec (.flitReceive port ⟨q.seq, ack⟩ true .other) s = .next { s with ports := took [] id } ∧
          (left ≠ [] → back < 8 → exec (.flitReceive port ⟨q.seq, ack⟩ true .refusal) s = .next { s with ports := took [] (· + 1) }) ∧
          (left = [] → exec (.flitReceive port ⟨q.seq, ack⟩ true .refusal) s = .next { s with ports := took [] id }) ∧
          (∀ src dest part off op, exec (.flitReceive port ⟨q.seq, ack⟩ true (.request src dest part off op)) s = .next { s with ports := took [⟨src, dest, part, off, op⟩] id }) ∧
          ∀ cid e bs, s.open? cid false = some e → e.port = port → e.op ≠ .flush → (∀ p ∈ s.pend, p.ext ≠ some cid) → (∀ p ∈ s.parts, p.replayOn = none) →
            exec (.flitReceive port ⟨q.seq, ack⟩ true (.completion cid (.ok bs))) s =
              .next { s with ports := took [] id, ext := s.ext.map fun x => if x.id = cid then { x with reply := some (.ok bs) } else x }) ∧
        ∀ e, s.ext = [e] → e.host = false → e.port = port → e.flit = none → e.reply = none → left.length < 128 →
          ∃ t, exec (.flitReceive port ⟨q.seq, ack⟩ true .other) s = .next t ∧ t.ext = [{ e with flit := some q.oseq }] ∧
            ∀ z ∈ t.ports, z.n = port → ∃ x ∈ s.ports, x.n = port ∧ z.out = left ++ [(x.oseq, e.id)]) ∧
    ∀ src dest part off op, let o := exec (.fabricRequest port src dest part off op) s
      (¬up → Waits s o) ∧
      ∀ q, s.ports.find? (fun q => q.n = port && q.st = 1) = some q →
      let rest := ports fun x => { x with inbox := x.inbox.erase ⟨src, dest, part, off, op⟩ }
      (⟨src, dest, part, off, op⟩ ∉ q.inbox → Waits s o) ∧
      (⟨src, dest, part, off, op⟩ ∈ q.inbox → dest ≠ Config.packageNumber ∨ 2 ^ 36 ≤ off ∨ (∃ bs, op = .write bs ∧ 128 < bs.length) → o = .next { s with ports := rest }) ∧
      ∀ p, ⟨src, dest, part, off, op⟩ ∈ q.inbox → dest = Config.packageNumber → off < 2 ^ 36 → (∀ bs, op = .write bs → bs.length ≤ 128) → s.part? part = some p →
        let replies (r : FabStatus) (P : State → Prop) : Prop := ∃ t, o = .next t ∧ t.reply = some (.fabric r) ∧ t.ports = rest ∧ P t
        let sees (wr reads aligned : Bool) (n : Nat) : Except Fail (List Piece) := s.checkGlobal .fabric none part 0 (104 + port) [] wr reads aligned off n
        let home (q : Piece) : Prop := ∃ b, homeBulk q.pa = some b ∧ s.isDown b = false
        let idle (q : Piece) : Prop := ∀ ln ∈ linesOf q.pa q.len, s.lineFree ln = true
        (p.gated = true → replies .down fun t => t.mem = s.mem) ∧
        (p.gated = false → p.replayOn = none →
          (∀ n q, op = .read n → sees false true false n = .ok [q] → home q → replies (.ok (Memory.read s.mem q.pa q.len)) fun t => t.mem = s.mem) ∧
          (∀ n f, op = .read n → sees false true false n = .error f → f ≠ .unc → replies (if f = .down then .down else .ownership) fun t => t.mem = s.mem) ∧
          (∀ bs q, op = .write bs → sees true false false bs.length = .ok [q] → q.len = bs.length → home q → idle q → s.isSealed q.pa = false → replies (.ok []) fun t =>
            ∀ a, Memory.get t.mem a = if q.pa ≤ a ∧ a < q.pa + bs.length then bs.getD (a - q.pa) 0 else Memory.get s.mem a) ∧
          (∀ bs f, op = .write bs → sees true false false bs.length = .error f → f ≠ .unc → replies (if f = .down then .down else .ok []) fun t => t.mem = s.mem) ∧
          (∀ f v q, op = .semsig f v → sees true true true 8 = .ok [q] → q.len = 8 → home q → idle q → replies (.ok (Memory.read s.mem q.pa 8)) fun t =>
            SemWritten s t q.pa (semNew f (BitVec.ofNat 64 (ofBytes (Memory.read s.mem q.pa 8))) v)))) ∧
  (∀ s : State,
    let boots (error stat : Nat) : Prop := ∃ t, exec (.coldBoot error) s = .next t ∧ t.boot = BitVec.ofNat 64 stat ∧ t.worlds = [] ∧ t.launches = [] ∧ t.groups = [] ∧ t.chains = [] ∧
      t.pend = [] ∧ (∀ a, Memory.get t.mem a = 0) ∧ t.stored = s.stored ∧ t.fused = s.fused ∧ (stat = 0x105 → t.staged = none) ∧ (stat ≠ 0x105 → t.firmware = s.firmware ∧ t.parts = [])
    (∀ error, 4 < error → Waits s (exec (.coldBoot error) s)) ∧
    (s.staged = none → s.fused ≤ s.firmware → boots 0 0x105) ∧ (∀ v, s.staged = some (v, true) → s.fused ≤ v → boots 0 0x105) ∧
    boots 1 0x10 ∧ (∀ v error, s.staged = some (v, false) → error ≤ 4 → boots error 0x10) ∧ (s.staged = none → boots 2 0x20) ∧ (s.staged = none → s.firmware < s.fused → boots 0 0x20) ∧
    (s.staged = none → s.fused ≤ s.firmware → boots 3 0x31 ∧ boots 4 0x42) ∧
    (s.ready = true → (∀ v signed, exec (.firmwareCommand .pf0 (.stage v signed)) s = .next { s with staged := some (v, signed), reply := some (.status true) }) ∧
      (∀ v, s.fused < v → exec (.firmwareCommand .pf0 (.advance v)) s = .next { s with fused := v, reply := some (.status true) }) ∧
      (∀ v, v ≤ s.fused → exec (.firmwareCommand .pf0 (.advance v)) s = .next { s with reply := some (.status false) }) ∧
      ∀ w c, exec (.firmwareCommand (.vf w) c) s = .next { s with reply := some (.status false) })) ∧
  ∀ (s : State) (p : Partition) (x : World), s.part? p.id = some p → s.worlds.find? (fun y => y.part = p.id && !y.torn) = some x → s.world? x.w = some x →
    (p.replayOn = none → ∀ i, Waits s (exec (.replayInput p.id i) s)) ∧
    (p.replayOn.isSome = true →
      (∀ lvl v, lvl < 4 → Becomes s x.w (exec (.replayInput p.id (.tail lvl v)) s) fun y => y.qTail lvl = v.toNat % 2 ^ 16 % x.qSize lvl ∧ SameRegsBut x y [rQTAIL lvl]) ∧
      (∀ e ∈ plainRegs, ∀ v, (needsRight e.1 = true → x.granted = true) → Becomes s x.w (exec (.replayInput p.id (.control e.1 v)) s) fun y =>
        y.reg e.1 = v &&& BitVec.ofNat 64 e.2 ∧ SameRegsBut x y [e.1]) ∧
      ∀ va bs, ∃ t news, exec (.replayInput p.id (.hostWrite va bs)) s = .next t ∧ t.pend = s.pend ++ news ∧ t.mem = s.mem ∧ t.groups = s.groups))

/-! ### Encoding, the step, reset -/

/-- R176 to R192 and the encoding tables of 08 to 10: for every well-formed program instruction, of every family and with every operand at every value its encoding
admits, the decoder reads back the instruction from the words that the encoder gives: the word, and the EXT prefix when it has one. The words are 64 bits long. -/
def Obligations.DecodeOfEncodeIsTheInstruction : Prop :=
  ∀ (w64 : Bool) (i : Instr), i.wf w64 = true →
    ∃ w pre, encode i = some (w, pre) ∧ w < 2 ^ 64 ∧ (pre = none ∨ ∃ e, pre = some e ∧ e < 2 ^ 64 ∧ field e 54 10 = 1) ∧
      decodeWord false w64 w pre = .ok i

/-- R176 to R195: a word that decodes is the word that the encoder gives for its instruction, so that no bit of it is dropped and no two words are one instruction;
and its instruction breaks no static rule. -/
def Obligations.DecodedWordsAreThoseOfTheEncoder : Prop :=
  ∀ (w64 : Bool) (w : Nat) (pre : Option Nat) (i : Instr), w < 2 ^ 64 → (∀ e, pre = some e → e < 2 ^ 64 ∧ field e 54 10 = 1) →
    decodeWord false w64 w pre = .ok i → encode i = some (w, pre) ∧ i.faults w64 = []

/-- R108 to R110, R295 to R299: for every chain entry whose fields lie in their ranges and that passes the static checks of R110, the entry decoder reads back the
entry from its 256 bits; for every queue command whose fields lie in their ranges, the command decoder reads it back from its 1,024 bits. -/
def Obligations.EntriesAndCommandsReadBack : Prop :=
  (∀ i : Instr, i.entryFits = true → entryOk i = true → ∃ e, encodeEntry i = some e ∧ e < 2 ^ 256 ∧ decodeEntry e = some i) ∧
  ∀ i : Instr, i.commandFits = true → ∃ e, encodeCommand i = some e ∧ e < 2 ^ 1024 ∧ decodeCommand e = some i

/-- Words that the spec prints (Tables 07-9, 07-10, 08-2, 08-7, 09-10, 10-6, 10-11, 18-8) decode to the instructions they stand for. -/
def Obligations.PrintedWordsDecode : Prop :=
  let h : Hdr := ⟨false, 0, false⟩
  let v (n : Nat) : Opnd := ⟨.v, n⟩
  decodeTableWord 64 0x3080000000C00000 = some (.movs h (v 0) .lane) ∧
  decodeTableWord 64 0x400C000800401004 = some (.fadd ⟨false, 3, false⟩ .f32 .rne (v 4) (v 1) (v 2)) ∧
  decodeTableWord 64 0x0200000000000000 = some (.exit h) ∧
  decodeTableWord 128 (0x40C00002EE002801 * 2 ^ 64 + 0x004001002000000E) = some (.ffma ⟨false, 0, true⟩ .f32 .ru ⟨.h, 1⟩ (v 3000) (v 5) ⟨.h, 1⟩) ∧
  decodeTableWord 64 0x01C00004003FFFFF = some (.loop h (v 2) (-1)) ∧
  decodeTableWord 64 0x1080201400801801 = some (.iaddc h .z32 true 1 (v 10) (v 2) (v 3)) ∧
  decodeTableWord 64 0x2480400401403828 = some (.icmp h .lt .s32 2 (v 5) ⟨.s, 7⟩) ∧
  decodeTableWord 64 0x7002301000800040 = some (.ld h ⟨.scr, .b32, true, .plain, .none, false, false⟩ 0x40 (v 8) (v 2)) ∧
  decodeTableWord 64 0x6000300A00C02020 = some (.shfl h .xor false (v 5) (v 3) (v 4) 32) ∧
  decodeTableWord 64 0x5180000800000104 = some (.hmov h .f32 .rne false (v 4) ⟨.h, 0⟩) ∧
  decodeTableWord 64 0xA001020000020712 = some (.mma h .e4m3 true true false (some (1, 2)) 256 0 64) ∧
  decodeTableWord 64 0x91C0005406A60000 = some (.semsig h .add false .acqrel .prt 0 (v 42) (v 26))

/-- R159, R162, R184, R185, R195: when the primary slot of a core is a group's, its fragment stands at a word of TEXT that decodes (alone, or as a pair after an EXT
prefix) and no breakpoint stops it there, a turn of the group is `exec` of that instruction, issued by the lanes of the fragment: the group is as the choice of
R159 leaves it, and it moves to the end of the round robin. What `step` adds around is that the time of the turn passes before it, with the frames, gaps and
watchdogs that end in it, and that after it nobody issues, writes whose completion time has come perform, due debugger stops take place, and a waiting
management command is tried again. An act that is not its partition's in replay mode (R370) only lets time pass. The model's choices: the interleaving of the
agents (log entry 1), that a group goes on in the safe-mode galley of its launch before its next issue (log entry 108), the fixed rotation of replay mode and
when a waiting command is retried (log entry 139). -/
def Obligations.StepRunsTheDecodedInstruction : Prop :=
  ∀ (s : State) (t : Turn) (ts : List Turn), s.agenda = t :: ts →
    let s0 : State := { s with agenda := ts }
    let u : State := { (State.pass (s0.timeParts t.dt) t.dt t.dc s0).noteHeads with fresh := s.fresh + 1, issuer := none, engine := none, cmd := none }
    let after (o : Host.Outcome State Fault Refusal) : Host.Outcome State Fault Refusal :=
      match o with
      | .next v => .next ((u.lockTicks t.act (State.performDue v.now v.pend.length { v with issuer := none, engine := none, cmd := none }).dueStops.noteHeads).manage t.act)
      | o => o
    (u.inTurn t.act = false → step s = .next u) ∧
    (∀ (g g1 : Group) (l : Launch) (f : Frag) (w : DWord) (pre : Option DWord) (i : Instr), t.act = .issue g.gid → u.inTurn t.act = true →
      u.group? g.gid = some g → u.launch? g.gid.lid = some l → .issue g.gid ∈ u.primaries → g.next = some (f, g1) → u.stopsAt g f = none → f.pc.toNat % 8 = 0 →
      (match pre with
        | none => l.obj.text[f.pc.toNat / 8]? = some w ∧ field w.toNat 54 10 ≠ 1
        | some e => l.obj.text[f.pc.toNat / 8]? = some e ∧ field e.toNat 54 10 = 1 ∧ l.obj.text[f.pc.toNat / 8 + 1]? = some w) →
      decodeWord (l.obj.version = 0x0100) l.w64 w.toNat (pre.map fun e => e.toNat) = .ok i →
      let inst : Nat := match pre with | none => w.toNat | some e => e.toNat * 2 ^ 64 + w.toNat
      let is : Issuer := ⟨g.gid, f.pc, f.mask, (if pre = none then 8 else 16), BitVec.ofNat 128 inst⟩
      step s = after (exec i { u.modGroup g.gid (fun _ => { g1 with safe := g1.safe || l.safe.isSome }) with
        rr := (u.rr.filter fun x => x ≠ g.gid) ++ [g.gid], issuer := some is })) ∧
    ∀ i : Instr, t.act = .event i → (∀ p, i ≠ .deviceQueueEntry p) → u.inTurn t.act = true → (isManaged i = false ∨ u.mgmt = []) → step s = after (exec i u)

/-- Between two steps nobody issues an instruction, no chain runs an entry and no command is being taken, whatever the step did and from whatever state: what acts,
acts within one turn (the interleaving of the agents is the model's choice, log entry 1). -/
def Obligations.EveryStepEndsWithNobodyActing : Prop :=
  ∀ s t : State, step s = .next t → t.Idle

/-- Every step keeps memory in canonical form: addresses strictly rising and no entry equal to what an unlisted address reads as, whatever instruction runs, entry
or command is taken or event happens. -/
def Obligations.EveryStepKeepsMemoryCanonical : Prop :=
  ∀ s t : State, s.MemOk → step s = .next t → t.MemOk

/-- No step stops: from every state whose next turn, if the agenda gives one, is not an event that is really a program instruction, a chain entry or a queue command
(which only a group, a chain or the dispatcher runs), the machine goes on. No data, no encoding and no trap ends a run: a word that is no instruction traps
(R195), an entry or command that is none stops its chain or queue. -/
def Obligations.NoStepStops : Prop :=
  ∀ s : State, (∀ t ts i, s.agenda = t :: ts → t.act = .event i → i.isProgram = false ∧ i.isEntry = false ∧ i.isCommand = false) →
    ∃ t, step s = .next t

/-- What reset leaves: memory in canonical form with every byte zero, nobody acting, no world, partition, launch, group or chain, every bulkhead held in reset with
its rail gated (R49), BOOTSTAT 0 (Table 16-5), and no replay, window or fabric port up. That the package time, the cycle counts, the next identity, the firmware
version and the fused counter are 0 is the model's choice (log entry 4), and that memory reads as zero is its reading of R51 (log entry 2). -/
def Obligations.ResetIsPowerOn : Prop :=
  let s := State.reset
  s.MemOk ∧ (∀ a, Memory.get s.mem a = 0) ∧ s.Idle ∧ s.worlds = [] ∧ s.parts = [] ∧ s.launches = [] ∧ s.groups = [] ∧ s.blocks = [] ∧ s.chains = [] ∧
  s.boot = 0 ∧ s.bulks.length = 24 ∧ (∀ b ∈ s.bulks, b.st = .off ∧ b.ember = []) ∧ s.ports.length = 12 ∧ (∀ p ∈ s.ports, p.st = 0) ∧ s.galleys = [] ∧
  s.now = 0 ∧ s.cycles = 0 ∧ s.serial = 0 ∧ s.firmware = 0 ∧ s.fused = 0 ∧ s.staged = none ∧ s.stored = [] ∧ s.pend = [] ∧ s.ext = [] ∧ s.mgmt = [] ∧ s.reply = none
end

