-- ==== Sys2Proof/Laws/Dispatch.lean ====
section
/-! SUPPORT. One equation per arm of `exec`. -/

namespace Sys2Proof.Machine

variable (s : State)

theorem exec_nop : ∀ hd, exec (.nop hd) s = execNop hd s := fun _ => rfl
theorem exec_bra : ∀ hd u disp, exec (.bra hd u disp) s = execBra hd u disp s := fun _ _ _ => rfl
theorem exec_brx : ∀ hd u a, exec (.brx hd u a) s = execBrx hd u a s := fun _ _ _ => rfl
theorem exec_call : ∀ hd disp, exec (.call hd disp) s = execCall hd disp s := fun _ _ => rfl
theorem exec_callx : ∀ hd a, exec (.callx hd a) s = execCallx hd a s := fun _ _ => rfl
theorem exec_ret : ∀ hd, exec (.ret hd) s = execRet hd s := fun _ => rfl
theorem exec_loop : ∀ hd d disp, exec (.loop hd d disp) s = execLoop hd d disp s := fun _ _ _ => rfl
theorem exec_exit : ∀ hd, exec (.exit hd) s = execExit hd s := fun _ => rfl
theorem exec_waitr : ∀ hd pd a t, exec (.waitr hd pd a t) s = execWaitr hd pd a t s := fun _ _ _ _ => rfl
theorem exec_waitrTimeout : ∀ g pc, exec (.waitrTimeout g pc) s = execWaitrTimeout g pc s := fun _ _ => rfl
theorem exec_sync : ∀ hd a, exec (.sync hd a) s = execSync hd a s := fun _ _ => rfl
theorem exec_yield : ∀ hd, exec (.yield hd) s = execYield hd s := fun _ => rfl
theorem exec_pause : ∀ hd n, exec (.pause hd n) s = execPause hd n s := fun _ _ => rfl
theorem exec_pauseEnd : ∀ g, exec (.pauseEnd g) s = execPauseEnd g s := fun _ => rfl
theorem exec_brk : ∀ hd code, exec (.brk hd code) s = execBrk hd code s := fun _ _ => rfl
theorem exec_trap : ∀ hd code, exec (.trap hd code) s = execTrap hd code s := fun _ _ => rfl
theorem exec_tret : ∀ hd next, exec (.tret hd next) s = execTret hd next s := fun _ _ => rfl
theorem exec_emul : ∀ hd op body pre, exec (.emul hd op body pre) s = execEmul hd op body pre s := fun _ _ _ _ => rfl
theorem exec_iadd : ∀ hd t sat d a b, exec (.iadd hd t sat d a b) s = execIadd hd t sat d a b s := fun _ _ _ _ _ _ => rfl
theorem exec_isub : ∀ hd t sat d a b, exec (.isub hd t sat d a b) s = execIsub hd t sat d a b s := fun _ _ _ _ _ _ => rfl
theorem exec_iaddc : ∀ hd t ci pc d a b, exec (.iaddc hd t ci pc d a b) s = execIaddc hd t ci pc d a b s := fun _ _ _ _ _ _ _ => rfl
theorem exec_ineg : ∀ hd t sat d a, exec (.ineg hd t sat d a) s = execIneg hd t sat d a s := fun _ _ _ _ _ => rfl
theorem exec_iabs : ∀ hd t sat d a, exec (.iabs hd t sat d a) s = execIabs hd t sat d a s := fun _ _ _ _ _ => rfl
theorem exec_imin : ∀ hd t d a b, exec (.imin hd t d a b) s = execImin hd t d a b s := fun _ _ _ _ _ => rfl
theorem exec_imax : ∀ hd t d a b, exec (.imax hd t d a b) s = execImax hd t d a b s := fun _ _ _ _ _ => rfl
theorem exec_imul : ∀ hd t d a b, exec (.imul hd t d a b) s = execImul hd t d a b s := fun _ _ _ _ _ => rfl
theorem exec_imulh : ∀ hd t d a b, exec (.imulh hd t d a b) s = execImulh hd t d a b s := fun _ _ _ _ _ => rfl
theorem exec_imad : ∀ hd t d a b c, exec (.imad hd t d a b c) s = execImad hd t d a b c s := fun _ _ _ _ _ _ => rfl
theorem exec_imadw : ∀ hd t d a b c, exec (.imadw hd t d a b c) s = execImadw hd t d a b c s := fun _ _ _ _ _ _ => rfl
theorem exec_idiv : ∀ hd t d a b, exec (.idiv hd t d a b) s = execIdiv hd t d a b s := fun _ _ _ _ _ => rfl
theorem exec_irem : ∀ hd t d a b, exec (.irem hd t d a b) s = execIrem hd t d a b s := fun _ _ _ _ _ => rfl
theorem exec_isad : ∀ hd t d a b c, exec (.isad hd t d a b c) s = execIsad hd t d a b c s := fun _ _ _ _ _ _ => rfl
theorem exec_iscadd : ∀ hd t d a b k, exec (.iscadd hd t d a b k) s = execIscadd hd t d a b k s := fun _ _ _ _ _ _ => rfl
theorem exec_idp4 : ∀ hd sa bs d a b c, exec (.idp4 hd sa bs d a b c) s = execIdp4 hd sa bs d a b c s := fun _ _ _ _ _ _ _ => rfl
theorem exec_iaddi : ∀ hd t sat d a imm, exec (.iaddi hd t sat d a imm) s = execIaddi hd t sat d a imm s := fun _ _ _ _ _ _ => rfl
theorem exec_imuli : ∀ hd t d a imm, exec (.imuli hd t d a imm) s = execImuli hd t d a imm s := fun _ _ _ _ _ => rfl
theorem exec_and : ∀ hd w d a b, exec (.and hd w d a b) s = execAnd hd w d a b s := fun _ _ _ _ _ => rfl
theorem exec_or : ∀ hd w d a b, exec (.or hd w d a b) s = execOr hd w d a b s := fun _ _ _ _ _ => rfl
theorem exec_xor : ∀ hd w d a b, exec (.xor hd w d a b) s = execXor hd w d a b s := fun _ _ _ _ _ => rfl
theorem exec_andn : ∀ hd w d a b, exec (.andn hd w d a b) s = execAndn hd w d a b s := fun _ _ _ _ _ => rfl
theorem exec_orn : ∀ hd w d a b, exec (.orn hd w d a b) s = execOrn hd w d a b s := fun _ _ _ _ _ => rfl
theorem exec_not : ∀ hd w d a, exec (.not hd w d a) s = execNot hd w d a s := fun _ _ _ _ => rfl
theorem exec_shl : ∀ hd w d a b, exec (.shl hd w d a b) s = execShl hd w d a b s := fun _ _ _ _ _ => rfl
theorem exec_shr : ∀ hd w d a b, exec (.shr hd w d a b) s = execShr hd w d a b s := fun _ _ _ _ _ => rfl
theorem exec_sar : ∀ hd w d a b, exec (.sar hd w d a b) s = execSar hd w d a b s := fun _ _ _ _ _ => rfl
theorem exec_rot : ∀ hd w d a b, exec (.rot hd w d a b) s = execRot hd w d a b s := fun _ _ _ _ _ => rfl
theorem exec_fshl : ∀ hd w d a b c, exec (.fshl hd w d a b c) s = execFshl hd w d a b c s := fun _ _ _ _ _ _ => rfl
theorem exec_bfx : ∀ hd t d a pos len, exec (.bfx hd t d a pos len) s = execBfx hd t d a pos len s := fun _ _ _ _ _ _ => rfl
theorem exec_bfi : ∀ hd w d a b c, exec (.bfi hd w d a b c) s = execBfi hd w d a b c s := fun _ _ _ _ _ _ => rfl
theorem exec_popc : ∀ hd w d a, exec (.popc hd w d a) s = execPopc hd w d a s := fun _ _ _ _ => rfl
theorem exec_clz : ∀ hd w d a, exec (.clz hd w d a) s = execClz hd w d a s := fun _ _ _ _ => rfl
theorem exec_ctz : ∀ hd w d a, exec (.ctz hd w d a) s = execCtz hd w d a s := fun _ _ _ _ => rfl
theorem exec_brev : ∀ hd w d a, exec (.brev hd w d a) s = execBrev hd w d a s := fun _ _ _ _ => rfl
theorem exec_prmt : ∀ hd d a b c, exec (.prmt hd d a b c) s = execPrmt hd d a b c s := fun _ _ _ _ _ => rfl
theorem exec_icmp : ∀ hd cmp t pd a b, exec (.icmp hd cmp t pd a b) s = execIcmp hd cmp t pd a b s := fun _ _ _ _ _ _ => rfl
theorem exec_plut : ∀ hd pd pa pb lut, exec (.plut hd pd pa pb lut) s = execPlut hd pd pa pb lut s := fun _ _ _ _ _ => rfl
theorem exec_pick : ∀ hd w d a b pc, exec (.pick hd w d a b pc) s = execPick hd w d a b pc s := fun _ _ _ _ _ _ => rfl
theorem exec_lopi : ∀ hd op w d a imm, exec (.lopi hd op w d a imm) s = execLopi hd op w d a imm s := fun _ _ _ _ _ _ => rfl
theorem exec_mov : ∀ hd w d a, exec (.mov hd w d a) s = execMov hd w d a s := fun _ _ _ _ => rfl
theorem exec_movi : ∀ hd w d imm, exec (.movi hd w d imm) s = execMovi hd w d imm s := fun _ _ _ _ => rfl
theorem exec_movs : ∀ hd d r, exec (.movs hd d r) s = execMovs hd d r s := fun _ _ _ => rfl
theorem exec_movp : ∀ hd f, exec (.movp hd f) s = execMovp hd f s := fun _ _ => rfl
theorem exec_rdreg : ∀ hd cl d a, exec (.rdreg hd cl d a) s = execRdreg hd cl d a s := fun _ _ _ _ => rfl
theorem exec_wrreg : ∀ hd cl a b, exec (.wrreg hd cl a b) s = execWrreg hd cl a b s := fun _ _ _ _ => rfl
theorem exec_cvtf : ∀ hd dt st sat de8 se8 rm d a, exec (.cvtf hd dt st sat de8 se8 rm d a) s = execCvtf hd dt st sat de8 se8 rm d a s := fun _ _ _ _ _ _ _ _ _ => rfl
theorem exec_cvtfi : ∀ hd t st rm d a, exec (.cvtfi hd t st rm d a) s = execCvtfi hd t st rm d a s := fun _ _ _ _ _ _ => rfl
theorem exec_cvtif : ∀ hd dt t rm d a, exec (.cvtif hd dt t rm d a) s = execCvtif hd dt t rm d a s := fun _ _ _ _ _ _ => rfl
theorem exec_pack : ∀ hd ew k d a b c, exec (.pack hd ew k d a b c) s = execPack hd ew k d a b c s := fun _ _ _ _ _ _ _ => rfl
theorem exec_unpack : ∀ hd ew sx j d a, exec (.unpack hd ew sx j d a) s = execUnpack hd ew sx j d a s := fun _ _ _ _ _ _ => rfl
theorem exec_rdmode : ∀ hd fpst d, exec (.rdmode hd fpst d) s = execRdmode hd fpst d s := fun _ _ _ => rfl
theorem exec_wrmode : ∀ hd fpst a, exec (.wrmode hd fpst a) s = execWrmode hd fpst a s := fun _ _ _ => rfl
theorem exec_rdsc : ∀ hd d sc, exec (.rdsc hd d sc) s = execRdsc hd d sc s := fun _ _ _ => rfl
theorem exec_wrsc : ∀ hd sc a, exec (.wrsc hd sc a) s = execWrsc hd sc a s := fun _ _ _ => rfl
theorem exec_addrg : ∀ hd d imm, exec (.addrg hd d imm) s = execAddrg hd d imm s := fun _ _ _ => rfl
theorem exec_fadd : ∀ hd ft rm d a b, exec (.fadd hd ft rm d a b) s = execFadd hd ft rm d a b s := fun _ _ _ _ _ _ => rfl
theorem exec_fsub : ∀ hd ft rm d a b, exec (.fsub hd ft rm d a b) s = execFsub hd ft rm d a b s := fun _ _ _ _ _ _ => rfl
theorem exec_fmul : ∀ hd ft rm d a b, exec (.fmul hd ft rm d a b) s = execFmul hd ft rm d a b s := fun _ _ _ _ _ _ => rfl
theorem exec_ffma : ∀ hd ft rm d a b c, exec (.ffma hd ft rm d a b c) s = execFfma hd ft rm d a b c s := fun _ _ _ _ _ _ _ => rfl
theorem exec_fmin : ∀ hd ft d a b, exec (.fmin hd ft d a b) s = execFmin hd ft d a b s := fun _ _ _ _ _ => rfl
theorem exec_fmax : ∀ hd ft d a b, exec (.fmax hd ft d a b) s = execFmax hd ft d a b s := fun _ _ _ _ _ => rfl
theorem exec_fminm : ∀ hd ft d a b, exec (.fminm hd ft d a b) s = execFminm hd ft d a b s := fun _ _ _ _ _ => rfl
theorem exec_fmaxm : ∀ hd ft d a b, exec (.fmaxm hd ft d a b) s = execFmaxm hd ft d a b s := fun _ _ _ _ _ => rfl
theorem exec_fabs : ∀ hd ft d a, exec (.fabs hd ft d a) s = execFabs hd ft d a s := fun _ _ _ _ => rfl
theorem exec_fneg : ∀ hd ft d a, exec (.fneg hd ft d a) s = execFneg hd ft d a s := fun _ _ _ _ => rfl
theorem exec_fcpys : ∀ hd ft d a b, exec (.fcpys hd ft d a b) s = execFcpys hd ft d a b s := fun _ _ _ _ _ => rfl
theorem exec_fcmp : ∀ hd cmp ft pd a b, exec (.fcmp hd cmp ft pd a b) s = execFcmp hd cmp ft pd a b s := fun _ _ _ _ _ _ => rfl
theorem exec_fclass : ∀ hd ft d a, exec (.fclass hd ft d a) s = execFclass hd ft d a s := fun _ _ _ _ => rfl
theorem exec_frint : ∀ hd ft rm exact d a, exec (.frint hd ft rm exact d a) s = execFrint hd ft rm exact d a s := fun _ _ _ _ _ _ => rfl
theorem exec_fdiv : ∀ hd ft rm d a b, exec (.fdiv hd ft rm d a b) s = execFdiv hd ft rm d a b s := fun _ _ _ _ _ _ => rfl
theorem exec_fsqrt : ∀ hd ft rm d a, exec (.fsqrt hd ft rm d a) s = execFsqrt hd ft rm d a s := fun _ _ _ _ _ => rfl
theorem exec_frcp : ∀ hd rm d a, exec (.frcp hd rm d a) s = execFrcp hd rm d a s := fun _ _ _ _ => rfl
theorem exec_frsq : ∀ hd rm d a, exec (.frsq hd rm d a) s = execFrsq hd rm d a s := fun _ _ _ _ => rfl
theorem exec_fscale : ∀ hd ft rm d a b, exec (.fscale hd ft rm d a b) s = execFscale hd ft rm d a b s := fun _ _ _ _ _ _ => rfl
theorem exec_fdot2 : ∀ hd ft rm d a b c, exec (.fdot2 hd ft rm d a b c) s = execFdot2 hd ft rm d a b c s := fun _ _ _ _ _ _ _ => rfl
theorem exec_fex2 : ∀ hd rm d a, exec (.fex2 hd rm d a) s = execFex2 hd rm d a s := fun _ _ _ _ => rfl
theorem exec_flg2 : ∀ hd rm d a, exec (.flg2 hd rm d a) s = execFlg2 hd rm d a s := fun _ _ _ _ => rfl
theorem exec_fsinp : ∀ hd rm d a, exec (.fsinp hd rm d a) s = execFsinp hd rm d a s := fun _ _ _ _ => rfl
theorem exec_fcosp : ∀ hd rm d a, exec (.fcosp hd rm d a) s = execFcosp hd rm d a s := fun _ _ _ _ => rfl
theorem exec_ftanh : ∀ hd rm d a, exec (.ftanh hd rm d a) s = execFtanh hd rm d a s := fun _ _ _ _ => rfl
theorem exec_fsigm : ∀ hd rm d a, exec (.fsigm hd rm d a) s = execFsigm hd rm d a s := fun _ _ _ _ => rfl
theorem exec_hmov : ∀ hd ft rm sat d a, exec (.hmov hd ft rm sat d a) s = execHmov hd ft rm sat d a s := fun _ _ _ _ _ _ => rfl
theorem exec_shfl : ∀ hd mode w d a b seg, exec (.shfl hd mode w d a b seg) s = execShfl hd mode w d a b seg s := fun _ _ _ _ _ _ _ => rfl
theorem exec_rdlane : ∀ hd w d a b, exec (.rdlane hd w d a b) s = execRdlane hd w d a b s := fun _ _ _ _ _ => rfl
theorem exec_wrlane : ∀ hd d a b, exec (.wrlane hd d a b) s = execWrlane hd d a b s := fun _ _ _ _ => rfl
theorem exec_vote : ∀ hd mode d pa m, exec (.vote hd mode d pa m) s = execVote hd mode d pa m s := fun _ _ _ _ _ => rfl
theorem exec_matchl : ∀ hd all w d a m, exec (.matchl hd all w d a m) s = execMatchl hd all w d a m s := fun _ _ _ _ _ _ => rfl
theorem exec_redux : ∀ hd op t d a m, exec (.redux hd op t d a m) s = execRedux hd op t d a m s := fun _ _ _ _ _ _ => rfl
theorem exec_fredux : ∀ hd op ft rm d a m, exec (.fredux hd op ft rm d a m) s = execFredux hd op ft rm d a m s := fun _ _ _ _ _ _ _ => rfl
theorem exec_scan : ∀ hd op t excl d a m, exec (.scan hd op t excl d a m) s = execScan hd op t excl d a m s := fun _ _ _ _ _ _ _ => rfl
theorem exec_fscan : ∀ hd op ft rm excl d a m, exec (.fscan hd op ft rm excl d a m) s = execFscan hd op ft rm excl d a m s := fun _ _ _ _ _ _ _ _ => rfl
theorem exec_elect : ∀ hd d pd m, exec (.elect hd d pd m) s = execElect hd d pd m s := fun _ _ _ _ => rfl
theorem exec_regroup : ∀ hd blk pd, exec (.regroup hd blk pd) s = execRegroup hd blk pd s := fun _ _ _ => rfl
theorem exec_ld : ∀ hd acc off d a, exec (.ld hd acc off d a) s = execLd hd acc off d a s := fun _ _ _ _ _ => rfl
theorem exec_st : ∀ hd acc off d a, exec (.st hd acc off d a) s = execSt hd acc off d a s := fun _ _ _ _ _ => rfl
theorem exec_lds : ∀ hd acc stride d a, exec (.lds hd acc stride d a) s = execLds hd acc stride d a s := fun _ _ _ _ _ => rfl
theorem exec_sts : ∀ hd acc stride d a, exec (.sts hd acc stride d a) s = execSts hd acc stride d a s := fun _ _ _ _ _ => rfl
theorem exec_ldt : ∀ hd col pitch d a, exec (.ldt hd col pitch d a) s = execLdt hd col pitch d a s := fun _ _ _ _ _ => rfl
theorem exec_stt : ∀ hd col pitch d a, exec (.stt hd col pitch d a) s = execStt hd col pitch d a s := fun _ _ _ _ _ => rfl
theorem exec_put : ∀ hd acc off d a, exec (.put hd acc off d a) s = execPut hd acc off d a s := fun _ _ _ _ _ => rfl
theorem exec_pref : ∀ hd col off a, exec (.pref hd col off a) s = execPref hd col off a s := fun _ _ _ _ => rfl
theorem exec_lease : ∀ hd col off d a, exec (.lease hd col off d a) s = execLease hd col off d a s := fun _ _ _ _ _ => rfl
theorem exec_szero : ∀ hd col off d a, exec (.szero hd col off d a) s = execSzero hd col off d a s := fun _ _ _ _ _ => rfl
theorem exec_atom : ∀ hd acc op d a b, exec (.atom hd acc op d a b) s = execAtom hd acc op d a b s := fun _ _ _ _ _ _ => rfl
theorem exec_atomf : ∀ hd acc op d a b, exec (.atomf hd acc op d a b) s = execAtomf hd acc op d a b s := fun _ _ _ _ _ _ => rfl
theorem exec_xchg : ∀ hd acc d a b, exec (.xchg hd acc d a b) s = execXchg hd acc d a b s := fun _ _ _ _ _ => rfl
theorem exec_cas : ∀ hd acc d a b, exec (.cas hd acc d a b) s = execCas hd acc d a b s := fun _ _ _ _ _ => rfl
theorem exec_red : ∀ hd acc op a b, exec (.red hd acc op a b) s = execRed hd acc op a b s := fun _ _ _ _ _ => rfl
theorem exec_redf : ∀ hd acc op a b, exec (.redf hd acc op a b) s = execRedf hd acc op a b s := fun _ _ _ _ _ => rfl
theorem exec_backoff : ∀ hd d base cap, exec (.backoff hd d base cap) s = execBackoff hd d base cap s := fun _ _ _ _ => rfl
theorem exec_fence : ∀ hd async ord scope, exec (.fence hd async ord scope) s = execFence hd async ord scope s := fun _ _ _ _ => rfl
theorem exec_bar : ∀ hd id count, exec (.bar hd id count) s = execBar hd id count s := fun _ _ _ => rfl
theorem exec_bararr : ∀ hd id count, exec (.bararr hd id count) s = execBararr hd id count s := fun _ _ _ => rfl
theorem exec_sstep : ∀ hd, exec (.sstep hd) s = execSstep hd s := fun _ => rfl
theorem exec_sstarr : ∀ hd, exec (.sstarr hd) s = execSstarr hd s := fun _ => rfl
theorem exec_sstwait : ∀ hd, exec (.sstwait hd) s = execSstwait hd s := fun _ => rfl
theorem exec_qstat : ∀ hd d q, exec (.qstat hd d q) s = execQstat hd d q s := fun _ _ _ => rfl
theorem exec_queueStallRelease : ∀ g, exec (.queueStallRelease g) s = execQueueStallRelease g s := fun _ => rfl
theorem exec_semsig : ∀ hd op scr ord scope off d a, exec (.semsig hd op scr ord scope off d a) s = execSemsig hd op scr ord scope off d a s := fun _ _ _ _ _ _ _ _ => rfl
theorem exec_semwait : ∀ hd cmp scr ord scope off d a, exec (.semwait hd cmp scr ord scope off d a) s = execSemwait hd cmp scr ord scope off d a s := fun _ _ _ _ _ _ _ _ => rfl
theorem exec_semwaitRelease : ∀ pa, exec (.semwaitRelease pa) s = execSemwaitRelease pa s := fun _ => rfl
theorem exec_semwaitPoll : ∀ g lane, exec (.semwaitPoll g lane) s = execSemwaitPoll g lane s := fun _ _ => rfl
theorem exec_mma : ∀ hd ty n64 acc mx ts d a b, exec (.mma hd ty n64 acc mx ts d a b) s = execMma hd ty n64 acc mx ts d a b s := fun _ _ _ _ _ _ _ _ _ => rfl
theorem exec_mmas : ∀ hd ty n64 acc mx ts acol bcol areg breg d a b, exec (.mmas hd ty n64 acc mx ts acol bcol areg breg d a b) s = execMmas hd ty n64 acc mx ts acol bcol areg breg d a b s := fun _ _ _ _ _ _ _ _ _ _ _ _ _ => rfl
theorem exec_mmasp : ∀ hd ty n64 acc mx ts acol bcol areg breg k4 d a b, exec (.mmasp hd ty n64 acc mx ts acol bcol areg breg k4 d a b) s = execMmasp hd ty n64 acc mx ts acol bcol areg breg k4 d a b s := fun _ _ _ _ _ _ _ _ _ _ _ _ _ _ => rfl
theorem exec_mzero : ∀ hd n64 d, exec (.mzero hd n64 d) s = execMzero hd n64 d s := fun _ _ _ => rfl
theorem exec_mwait : ∀ hd n, exec (.mwait hd n) s = execMwait hd n s := fun _ _ => rfl
theorem exec_mfence : ∀ hd, exec (.mfence hd) s = execMfence hd s := fun _ => rfl
theorem exec_matrixCompletion : ∀ g, exec (.matrixCompletion g) s = execMatrixCompletion g s := fun _ => rfl
theorem exec_cpchain : ∀ hd a, exec (.cpchain hd a) s = execCpchain hd a s := fun _ _ => rfl
theorem exec_cpwait : ∀ hd n, exec (.cpwait hd n) s = execCpwait hd n s := fun _ _ => rfl
theorem exec_cptest : ∀ hd d pd, exec (.cptest hd d pd) s = execCptest hd d pd s := fun _ _ _ => rfl
theorem exec_launch : ∀ hd d a, exec (.launch hd d a) s = execLaunch hd d a s := fun _ _ _ => rfl
theorem exec_gettime : ∀ hd ord d, exec (.gettime hd ord d) s = execGettime hd ord d s := fun _ _ _ => rfl
theorem exec_perfrd : ∀ hd d k, exec (.perfrd hd d k) s = execPerfrd hd d k s := fun _ _ _ => rfl
theorem exec_trace : ∀ hd a code, exec (.trace hd a code) s = execTrace hd a code s := fun _ _ _ => rfl
theorem exec_chainCopy1d : ∀ h len src dst, exec (.chainCopy1d h len src dst) s = execChainCopy1d h len src dst s := fun _ _ _ _ => rfl
theorem exec_chainCopy2d : ∀ h rows rowBytes sstride dstride src dst, exec (.chainCopy2d h rows rowBytes sstride dstride src dst) s = execChainCopy2d h rows rowBytes sstride dstride src dst s := fun _ _ _ _ _ _ _ => rfl
theorem exec_chainGather : ∀ h count rowBytes idxOff tstride src dst, exec (.chainGather h count rowBytes idxOff tstride src dst) s = execChainGather h count rowBytes idxOff tstride src dst s := fun _ _ _ _ _ _ _ => rfl
theorem exec_chainScatter : ∀ h count rowBytes idxOff tstride src dst, exec (.chainScatter h count rowBytes idxOff tstride src dst) s = execChainScatter h count rowBytes idxOff tstride src dst s := fun _ _ _ _ _ _ _ => rfl
theorem exec_chainFill : ∀ h count value dst, exec (.chainFill h count value dst) s = execChainFill h count value dst s := fun _ _ _ _ => rfl
theorem exec_chainLoop : ∀ count back, exec (.chainLoop count back) s = execChainLoop count back s := fun _ _ => rfl
theorem exec_ifsem : ∀ h op skip value addr, exec (.ifsem h op skip value addr) s = execIfsem h op skip value addr s := fun _ _ _ _ _ => rfl
theorem exec_chainSignal : ∀ scr wick addend addr, exec (.chainSignal scr wick addend addr) s = execChainSignal scr wick addend addr s := fun _ _ _ _ => rfl
theorem exec_chainEnd : exec .chainEnd s = execChainEnd s := rfl
theorem exec_chainCompletion : ∀ id, exec (.chainCompletion id) s = execChainCompletion id s := fun _ => rfl
theorem exec_storeArrival : ∀ id delay, exec (.storeArrival id delay) s = execStoreArrival id delay s := fun _ _ => rfl
theorem exec_writeCompletion : ∀ id, exec (.writeCompletion id) s = execWriteCompletion id s := fun _ => rfl
theorem exec_fill : ∀ core line dur own, exec (.fill core line dur own) s = execFill core line dur own s := fun _ _ _ _ => rfl
theorem exec_leaseExpiry : ∀ core line, exec (.leaseExpiry core line) s = execLeaseExpiry core line s := fun _ _ => rfl
theorem exec_ownershipRecall : ∀ core line, exec (.ownershipRecall core line) s = execOwnershipRecall core line s := fun _ _ => rfl
theorem exec_beaconDrainComplete : ∀ part dom, exec (.beaconDrainComplete part dom) s = execBeaconDrainComplete part dom s := fun _ _ => rfl
theorem exec_cmdLaunch : ∀ r, exec (.cmdLaunch r) s = execCmdLaunch r s := fun _ => rfl
theorem exec_cmdWait : ∀ op addr value, exec (.cmdWait op addr value) s = execCmdWait op addr value s := fun _ _ _ => rfl
theorem exec_cmdSignal : ∀ op addr value, exec (.cmdSignal op addr value) s = execCmdSignal op addr value s := fun _ _ _ => rfl
theorem exec_replace : ∀ kidx e, exec (.replace kidx e) s = execReplace kidx e s := fun _ _ => rfl
theorem exec_cmdFence : exec .cmdFence s = execCmdFence s := rfl
theorem exec_cmdBarrier : ∀ mask, exec (.cmdBarrier mask) s = execCmdBarrier mask s := fun _ => rfl
theorem exec_deviceQueueEntry : ∀ part, exec (.deviceQueueEntry part) s = execDeviceQueueEntry part s := fun _ => rfl
theorem exec_blockPlacement : ∀ part, exec (.blockPlacement part) s = execBlockPlacement part s := fun _ => rfl
theorem exec_blockClearComplete : ∀ lid blk, exec (.blockClearComplete lid blk) s = execBlockClearComplete lid blk s := fun _ _ => rfl
theorem exec_launchCompletion : ∀ lid, exec (.launchCompletion lid) s = execLaunchCompletion lid s := fun _ => rfl
theorem exec_launchAbort : ∀ lid cause, exec (.launchAbort lid cause) s = execLaunchAbort lid cause s := fun _ _ => rfl
theorem exec_watchdogExpiry : ∀ lid, exec (.watchdogExpiry lid) s = execWatchdogExpiry lid s := fun _ => rfl
theorem exec_dumpWrite : ∀ lid, exec (.dumpWrite lid) s = execDumpWrite lid s := fun _ => rfl
theorem exec_translation : ∀ w kidx w64 resid safe, exec (.translation w kidx w64 resid safe) s = execTranslation w kidx w64 resid safe s := fun _ _ _ _ _ => rfl
theorem exec_galleyReoptimise : ∀ id resid, exec (.galleyReoptimise id resid) s = execGalleyReoptimise id resid s := fun _ _ => rfl
theorem exec_translationIntegrity : ∀ g, exec (.translationIntegrity g) s = execTranslationIntegrity g s := fun _ => rfl
theorem exec_actRollback : ∀ g, exec (.actRollback g) s = execActRollback g s := fun _ => rfl
theorem exec_preemptGo : ∀ w, exec (.preemptGo w) s = execPreemptGo w s := fun _ => rfl
theorem exec_preemptResume : ∀ w, exec (.preemptResume w) s = execPreemptResume w s := fun _ => rfl
theorem exec_contextSave : ∀ w, exec (.contextSave w) s = execContextSave w s := fun _ => rfl
theorem exec_contextRestore : ∀ w, exec (.contextRestore w) s = execContextRestore w s := fun _ => rfl
theorem exec_frameEdge : ∀ part, exec (.frameEdge part) s = execFrameEdge part s := fun _ => rfl
theorem exec_edgeGapEnd : ∀ part, exec (.edgeGapEnd part) s = execEdgeGapEnd part s := fun _ => rfl
theorem exec_qtailWrite : ∀ w lvl value, exec (.qtailWrite w lvl value) s = execQtailWrite w lvl value s := fun _ _ _ => rfl
theorem exec_qctlResume : ∀ w lvl, exec (.qctlResume w lvl) s = execQctlResume w lvl s := fun _ _ => rfl
theorem exec_qctlSkip : ∀ w lvl, exec (.qctlSkip w lvl) s = execQctlSkip w lvl s := fun _ _ => rfl
theorem exec_qctlClr : ∀ w lvl, exec (.qctlClr w lvl) s = execQctlClr w lvl s := fun _ _ => rfl
theorem exec_dqerrClear : ∀ w, exec (.dqerrClear w) s = execDqerrClear w s := fun _ => rfl
theorem exec_tlbinvGo : ∀ w, exec (.tlbinvGo w) s = execTlbinvGo w s := fun _ => rfl
theorem exec_tlbinvComplete : ∀ part, exec (.tlbinvComplete part) s = execTlbinvComplete part s := fun _ => rfl
theorem exec_pageFaultRecord : ∀ w, exec (.pageFaultRecord w) s = execPageFaultRecord w s := fun _ => rfl
theorem exec_fqans : ∀ w id all cancel, exec (.fqans w id all cancel) s = execFqans w id all cancel s := fun _ _ _ _ => rfl
theorem exec_fqctlEnClear : ∀ w, exec (.fqctlEnClear w) s = execFqctlEnClear w s := fun _ => rfl
theorem exec_fqctlClr : ∀ w, exec (.fqctlClr w) s = execFqctlClr w s := fun _ => rfl
theorem exec_trqGo : ∀ w kidx w64 resid safe, exec (.trqGo w kidx w64 resid safe) s = execTrqGo w kidx w64 resid safe s := fun _ _ _ _ _ => rfl
theorem exec_trqExport : ∀ w kidx w64 resid safe, exec (.trqExport w kidx w64 resid safe) s = execTrqExport w kidx w64 resid safe s := fun _ _ _ _ _ => rfl
theorem exec_dbgctlAccept : ∀ w, exec (.dbgctlAccept w) s = execDbgctlAccept w s := fun _ => rfl
theorem exec_dbgctlRevoke : ∀ w, exec (.dbgctlRevoke w) s = execDbgctlRevoke w s := fun _ => rfl
theorem exec_dbghaltGo : ∀ w, exec (.dbghaltGo w) s = execDbghaltGo w s := fun _ => rfl
theorem exec_dbghaltResume : ∀ w, exec (.dbghaltResume w) s = execDbghaltResume w s := fun _ => rfl
theorem exec_dbghaltStep : ∀ w, exec (.dbghaltStep w) s = execDbghaltStep w s := fun _ => rfl
theorem exec_dbgselGo : ∀ w, exec (.dbgselGo w) s = execDbgselGo w s := fun _ => rfl
theorem exec_breakpoint : ∀ g n, exec (.breakpoint g n) s = execBreakpoint g n s := fun _ _ => rfl
theorem exec_watchpoint : ∀ g n addr, exec (.watchpoint g n addr) s = execWatchpoint g n addr s := fun _ _ _ => rfl
theorem exec_stopRecord : ∀ w, exec (.stopRecord w) s = execStopRecord w s := fun _ => rfl
theorem exec_profcGo : ∀ w count, exec (.profcGo w count) s = execProfcGo w count s := fun _ _ => rfl
theorem exec_profcClear : ∀ w, exec (.profcClear w) s = execProfcClear w s := fun _ => rfl
theorem exec_replayInput : ∀ part x, exec (.replayInput part x) s = execReplayInput part x s := fun _ _ => rfl
theorem exec_registerWrite : ∀ fn off value, exec (.registerWrite fn off value) s = execRegisterWrite fn off value s := fun _ _ _ => rfl
theorem exec_currentLimiterFreeze : ∀ b issued, exec (.currentLimiterFreeze b issued) s = execCurrentLimiterFreeze b issued s := fun _ _ => rfl
theorem exec_bulkheadFencing : ∀ b reason, exec (.bulkheadFencing b reason) s = execBulkheadFencing b reason s := fun _ _ => rfl
theorem exec_hangDetection : ∀ b, exec (.hangDetection b) s = execHangDetection b s := fun _ => rfl
theorem exec_bulkheadFenced : ∀ b, exec (.bulkheadFenced b) s = execBulkheadFenced b s := fun _ => rfl
theorem exec_bulkheadResetComplete : ∀ b, exec (.bulkheadResetComplete b) s = execBulkheadResetComplete b s := fun _ => rfl
theorem exec_partitionForm : ∀ fn bulks owner, exec (.partitionForm fn bulks owner) s = execPartitionForm fn bulks owner s := fun _ _ _ => rfl
theorem exec_partitionDissolve : ∀ fn part, exec (.partitionDissolve fn part) s = execPartitionDissolve fn part s := fun _ _ => rfl
theorem exec_gate : ∀ fn part, exec (.gate fn part) s = execGate fn part s := fun _ _ => rfl
theorem exec_ungate : ∀ fn part, exec (.ungate fn part) s = execUngate fn part s := fun _ _ => rfl
theorem exec_fabricRoute : ∀ fn part peer entry, exec (.fabricRoute fn part peer entry) s = execFabricRoute fn part peer entry s := fun _ _ _ _ => rfl
theorem exec_worldCreate : ∀ fn w frame conf areas, exec (.worldCreate fn w frame conf areas) s = execWorldCreate fn w frame conf areas s := fun _ _ _ _ _ => rfl
theorem exec_worldTeardown : ∀ fn w, exec (.worldTeardown fn w) s = execWorldTeardown fn w s := fun _ _ => rfl
theorem exec_frameSet : ∀ fn slots, exec (.frameSet fn slots) s = execFrameSet fn slots s := fun _ _ => rfl
theorem exec_debugOffer : ∀ fn w, exec (.debugOffer fn w) s = execDebugOffer fn w s := fun _ _ => rfl
theorem exec_debugOfferLapse : ∀ w, exec (.debugOfferLapse w) s = execDebugOfferLapse w s := fun _ => rfl
theorem exec_debugRevoke : ∀ fn w, exec (.debugRevoke fn w) s = execDebugRevoke fn w s := fun _ _ => rfl
theorem exec_replayEnable : ∀ fn, exec (.replayEnable fn) s = execReplayEnable fn s := fun _ => rfl
theorem exec_resetMode : ∀ fn held, exec (.resetMode fn held) s = execResetMode fn held s := fun _ _ => rfl
theorem exec_bulkheadReset : ∀ fn b, exec (.bulkheadReset fn b) s = execBulkheadReset fn b s := fun _ _ => rfl
theorem exec_pageAssign : ∀ fn page count w allw sealed_, exec (.pageAssign fn page count w allw sealed_) s = execPageAssign fn page count w allw sealed_ s := fun _ _ _ _ _ _ => rfl
theorem exec_ownershipChange : ∀ page, exec (.ownershipChange page) s = execOwnershipChange page s := fun _ => rfl
theorem exec_emberRead : ∀ fn b seq, exec (.emberRead fn b seq) s = execEmberRead fn b seq s := fun _ _ _ => rfl
theorem exec_windowOffer : ∀ fn importer page count two, exec (.windowOffer fn importer page count two) s = execWindowOffer fn importer page count two s := fun _ _ _ _ _ => rfl
theorem exec_windowAccept : ∀ fn offer, exec (.windowAccept fn offer) s = execWindowAccept fn offer s := fun _ _ => rfl
theorem exec_windowOfferLapse : ∀ offer, exec (.windowOfferLapse offer) s = execWindowOfferLapse offer s := fun _ => rfl
theorem exec_windowClose : ∀ fn slot, exec (.windowClose fn slot) s = execWindowClose fn slot s := fun _ _ => rfl
theorem exec_windowCloseComplete : ∀ part slot, exec (.windowCloseComplete part slot) s = execWindowCloseComplete part slot s := fun _ _ => rfl
theorem exec_getVersion : ∀ w, exec (.getVersion w) s = execGetVersion w s := fun _ => rfl
theorem exec_getCapabilities : ∀ w, exec (.getCapabilities w) s = execGetCapabilities w s := fun _ => rfl
theorem exec_negotiateAlgorithms : ∀ w, exec (.negotiateAlgorithms w) s = execNegotiateAlgorithms w s := fun _ => rfl
theorem exec_getDigests : ∀ w, exec (.getDigests w) s = execGetDigests w s := fun _ => rfl
theorem exec_getCertificate : ∀ w slot off len, exec (.getCertificate w slot off len) s = execGetCertificate w slot off len s := fun _ _ _ _ => rfl
theorem exec_challenge : ∀ w nonce, exec (.challenge w nonce) s = execChallenge w nonce s := fun _ _ => rfl
theorem exec_getMeasurements : ∀ w nonce index, exec (.getMeasurements w nonce index) s = execGetMeasurements w nonce index s := fun _ _ _ => rfl
theorem exec_keyExchange : ∀ w nonce, exec (.keyExchange w nonce) s = execKeyExchange w nonce s := fun _ _ => rfl
theorem exec_finish : ∀ w ok, exec (.finish w ok) s = execFinish w ok s := fun _ _ => rfl
theorem exec_heartbeat : ∀ w, exec (.heartbeat w) s = execHeartbeat w s := fun _ => rfl
theorem exec_keyUpdate : ∀ w, exec (.keyUpdate w) s = execKeyUpdate w s := fun _ => rfl
theorem exec_endSession : ∀ w, exec (.endSession w) s = execEndSession w s := fun _ => rfl
theorem exec_chunkSend : ∀ w bytes last, exec (.chunkSend w bytes last) s = execChunkSend w bytes last s := fun _ _ _ => rfl
theorem exec_chunkGet : ∀ w seq, exec (.chunkGet w seq) s = execChunkGet w seq s := fun _ _ => rfl
theorem exec_unsupportedRequest : ∀ w code, exec (.unsupportedRequest w code) s = execUnsupportedRequest w code s := fun _ _ => rfl
theorem exec_lockInterface : ∀ w, exec (.lockInterface w) s = execLockInterface w s := fun _ => rfl
theorem exec_getDeviceInterfaceReport : ∀ w, exec (.getDeviceInterfaceReport w) s = execGetDeviceInterfaceReport w s := fun _ => rfl
theorem exec_startInterface : ∀ w, exec (.startInterface w) s = execStartInterface w s := fun _ => rfl
theorem exec_stopInterface : ∀ w, exec (.stopInterface w) s = execStopInterface w s := fun _ => rfl
theorem exec_ideIntegrityFailure : ∀ w, exec (.ideIntegrityFailure w) s = execIdeIntegrityFailure w s := fun _ => rfl
theorem exec_apertureAccess : ∀ w off op, exec (.apertureAccess w off op) s = execApertureAccess w off op s := fun _ _ _ => rfl
theorem exec_hostAccessTimeout : ∀ id, exec (.hostAccessTimeout id) s = execHostAccessTimeout id s := fun _ => rfl
theorem exec_linkTraining : ∀ port peerPort peerPkg chain proof, exec (.linkTraining port peerPort peerPkg chain proof) s = execLinkTraining port peerPort peerPkg chain proof s := fun _ _ _ _ _ => rfl
theorem exec_flitReceive : ∀ port head crcOk body, exec (.flitReceive port head crcOk body) s = execFlitReceive port head crcOk body s := fun _ _ _ _ => rfl
theorem exec_fabricRequest : ∀ port src dest part off op, exec (.fabricRequest port src dest part off op) s = execFabricRequest port src dest part off op s := fun _ _ _ _ _ _ => rfl
theorem exec_portDown : ∀ port, exec (.portDown port) s = execPortDown port s := fun _ => rfl
theorem exec_coldBoot : ∀ error, exec (.coldBoot error) s = execColdBoot error s := fun _ => rfl
theorem exec_thermalLimit : ∀ b temp, exec (.thermalLimit b temp) s = execThermalLimit b temp s := fun _ _ => rfl
theorem exec_hostReadCompletion : ∀ id st, exec (.hostReadCompletion id st) s = execHostReadCompletion id st s := fun _ _ => rfl
theorem exec_firmwareCommand : ∀ fn c, exec (.firmwareCommand fn c) s = execFirmwareCommand fn c s := fun _ _ => rfl
theorem exec_junctionTemperatureRecovery : ∀ b, exec (.junctionTemperatureRecovery b) s = execJunctionTemperatureRecovery b s := fun _ => rfl

end Sys2Proof.Machine
end

