-- ==== Sys2Proof/Laws/Storage.lean ====
section
/-! SUPPORT. What sparse storage and memory do: read after write, and the canonical form, which every memory operation keeps. -/

namespace Sys2Proof.Machine

variable {w : Nat}

/-! ### Reading -/

@[simp] theorem SMap.get_nil (k : Nat) : SMap.get ([] : SMap w) k = 0 := rfl

theorem SMap.get_insert (m : SMap w) (k : Nat) (v : BitVec w) (j : Nat) :
    SMap.get (SMap.insert m k v) j = if j = k then v else SMap.get m j := by
  induction m with
  | nil =>
    by_cases h : j = k
    · simp [SMap.insert, SMap.get, h]
    · simp [SMap.insert, SMap.get, h, Ne.symm h]
  | cons e r ih =>
    obtain ⟨a, x⟩ := e
    simp only [SMap.insert]
    split
    · by_cases h : j = k
      · simp [SMap.get, h]
      · simp [SMap.get, h, Ne.symm h]
    · split
      · subst_vars
        by_cases h : j = a
        · simp [SMap.get, h]
        · simp [SMap.get, h, Ne.symm h]
      · simp only [SMap.get, ih]
        split <;> split <;> simp_all

theorem SMap.get_erase (m : SMap w) (k j : Nat) :
    SMap.get (m.filter fun e => e.1 ≠ k) j = if j = k then 0 else SMap.get m j := by
  induction m with
  | nil => simp [SMap.get]
  | cons e r ih =>
    obtain ⟨a, x⟩ := e
    by_cases h : a = k
    · subst h
      by_cases h2 : j = a
      · simp_all [List.filter]
      · simp_all [List.filter, SMap.get, Ne.symm h2]
    · simp_all [List.filter, SMap.get]
      split <;> simp_all

/-- Reading after a write: the value written, and every other key as before. -/
theorem SMap.get_set (m : SMap w) (k : Nat) (v : BitVec w) (j : Nat) :
    SMap.get (SMap.set m k v) j = if j = k then v else SMap.get m j := by
  unfold SMap.set
  split
  · rw [SMap.get_erase]
    simp_all
  · exact SMap.get_insert ..

@[simp] theorem SMap.get_set_self (m : SMap w) (k : Nat) (v : BitVec w) : SMap.get (SMap.set m k v) k = v := by simp [SMap.get_set]

theorem SMap.get_set_ne (m : SMap w) (v : BitVec w) {k j : Nat} (h : j ≠ k) : SMap.get (SMap.set m k v) j = SMap.get m j := by
  simp [SMap.get_set, h]

theorem SMap.get_drop (m : SMap w) (f : Nat → Bool) (j : Nat) :
    SMap.get (SMap.drop m f) j = if f j then 0 else SMap.get m j := by
  unfold SMap.drop
  induction m with
  | nil => simp
  | cons e r ih =>
    obtain ⟨a, x⟩ := e
    by_cases h : f a <;> by_cases h2 : a = j <;> simp_all [List.filter, SMap.get]

/-! ### The canonical form -/

theorem SMap.wfFrom_mono {m : SMap w} {a b : Nat} (h : SMap.wfFrom b m = true) (hab : a ≤ b) : SMap.wfFrom a m = true := by
  cases m with
  | nil => rfl
  | cons e r =>
    obtain ⟨k, v⟩ := e
    simp only [SMap.wfFrom, Bool.and_eq_true, decide_eq_true_eq] at *
    exact ⟨⟨by omega, h.1.2⟩, h.2⟩

theorem SMap.wfFrom_filter (m : SMap w) (p : Nat × BitVec w → Bool) (a : Nat) (h : SMap.wfFrom a m = true) :
    SMap.wfFrom a (m.filter p) = true := by
  induction m generalizing a with
  | nil => rfl
  | cons e r ih =>
    obtain ⟨k, v⟩ := e
    simp only [SMap.wfFrom, Bool.and_eq_true, decide_eq_true_eq] at h
    by_cases hp : p (k, v)
    · simp only [List.filter, hp, SMap.wfFrom, Bool.and_eq_true, decide_eq_true_eq]
      exact ⟨h.1, ih _ h.2⟩
    · simp only [List.filter, hp]
      exact SMap.wfFrom_mono (ih _ h.2) (by omega)

theorem SMap.wfFrom_insert (m : SMap w) (k : Nat) (v : BitVec w) (a : Nat) (h : SMap.wfFrom a m = true) (hk : a ≤ k) (hv : v ≠ 0) :
    SMap.wfFrom a (SMap.insert m k v) = true := by
  induction m generalizing a with
  | nil =>
    simp only [SMap.insert, SMap.wfFrom, Bool.and_eq_true, decide_eq_true_eq, and_true]
    exact ⟨hk, hv⟩
  | cons e r ih =>
    obtain ⟨b, x⟩ := e
    simp only [SMap.wfFrom, Bool.and_eq_true, decide_eq_true_eq] at h
    simp only [SMap.insert]
    split
    · simp only [SMap.wfFrom, Bool.and_eq_true, decide_eq_true_eq]
      exact ⟨⟨hk, hv⟩, ⟨by omega, h.1.2⟩, h.2⟩
    · split
      · subst_vars
        simp only [SMap.wfFrom, Bool.and_eq_true, decide_eq_true_eq]
        exact ⟨⟨hk, hv⟩, h.2⟩
      · simp only [SMap.wfFrom, Bool.and_eq_true, decide_eq_true_eq]
        exact ⟨h.1, ih _ h.2 (by omega)⟩

/-- A write keeps the canonical form. -/
theorem SMap.wf_set (m : SMap w) (k : Nat) (v : BitVec w) (h : SMap.wf m = true) : SMap.wf (SMap.set m k v) = true := by
  unfold SMap.set SMap.wf at *
  split
  · exact SMap.wfFrom_filter _ _ _ h
  · exact SMap.wfFrom_insert _ _ _ _ h (Nat.zero_le _) ‹_›

theorem SMap.wf_drop (m : SMap w) (f : Nat → Bool) (h : SMap.wf m = true) : SMap.wf (SMap.drop m f) = true :=
  SMap.wfFrom_filter _ _ _ h

/-- Two canonical maps that read the same are the same. -/
theorem SMap.wfFrom_ext {m n : SMap w} {a : Nat} (hm : SMap.wfFrom a m = true) (hn : SMap.wfFrom a n = true)
    (h : ∀ k, SMap.get m k = SMap.get n k) : m = n := by
  have low : ∀ (m : SMap w) (a k : Nat), SMap.wfFrom a m = true → k < a → SMap.get m k = 0 := by
    intro m
    induction m with
    | nil => intros; rfl
    | cons e r ih =>
      obtain ⟨b, x⟩ := e
      intro a k hw hk
      simp only [SMap.wfFrom, Bool.and_eq_true, decide_eq_true_eq] at hw
      simp only [SMap.get]
      split
      · omega
      · exact ih _ _ hw.2 (by omega)
  induction m generalizing n a with
  | nil =>
    cases n with
    | nil => rfl
    | cons e r =>
      obtain ⟨b, x⟩ := e
      simp only [SMap.wfFrom, Bool.and_eq_true, decide_eq_true_eq] at hn
      have := h b
      simp [SMap.get] at this
      exact absurd this.symm hn.1.2
  | cons e r ih =>
    obtain ⟨b, x⟩ := e
    simp only [SMap.wfFrom, Bool.and_eq_true, decide_eq_true_eq] at hm
    cases n with
    | nil =>
      have := h b
      simp [SMap.get] at this
      exact absurd this hm.1.2
    | cons e' r' =>
      obtain ⟨b', x'⟩ := e'
      simp only [SMap.wfFrom, Bool.and_eq_true, decide_eq_true_eq] at hn
      have hb : b = b' := by
        rcases Nat.lt_trichotomy b b' with hlt | heq | hgt
        · have h1 := h b
          simp only [SMap.get, if_true] at h1
          rw [if_neg (by omega), low r' (b' + 1) b hn.2 (by omega)] at h1
          exact absurd h1 hm.1.2
        · exact heq
        · have h1 := h b'
          simp only [SMap.get, if_true] at h1
          rw [if_neg (by omega), low r (b + 1) b' hm.2 (by omega)] at h1
          exact absurd h1.symm hn.1.2
      subst hb
      have hx : x = x' := by
        have h1 := h b
        simpa [SMap.get] using h1
      subst hx
      congr 1
      refine ih hm.2 hn.2 fun k => ?_
      by_cases hk : b = k
      · subst hk
        rw [low r (b + 1) b hm.2 (by omega), low r' (b + 1) b hn.2 (by omega)]
      · have h1 := h k
        simpa [SMap.get, hk] using h1

/-! ### Memory -/

theorem Memory.get_set (m : Memory) (a : Nat) (v : Byte) (b : Nat) : Memory.get (Memory.set m a v) b = if b = a then v else Memory.get m b :=
  SMap.get_set ..

theorem Memory.wf_set (m : Memory) (a : Nat) (v : Byte) (h : Memory.wf m = true) : Memory.wf (Memory.set m a v) = true := SMap.wf_set _ _ _ h

theorem Memory.wf_write (m : Memory) (a : Nat) (bs : List Byte) (h : Memory.wf m = true) : Memory.wf (Memory.write m a bs) = true := by
  induction bs generalizing m a with
  | nil => exact h
  | cons b bs ih => exact ih _ _ (Memory.wf_set _ _ _ h)

theorem Memory.wf_zero (m : Memory) (f : Nat → Bool) (h : Memory.wf m = true) : Memory.wf (Memory.zero m f) = true := SMap.wf_drop _ _ h

/-- A byte after a write: the byte written there, and outside the written bytes what it was. -/
theorem Memory.get_write (m : Memory) (a : Nat) (bs : List Byte) (b : Nat) :
    Memory.get (Memory.write m a bs) b = if h : a ≤ b ∧ b < a + bs.length then bs[b - a]'(by omega) else Memory.get m b := by
  induction bs generalizing m a with
  | nil => simp [Memory.write]
  | cons x bs ih =>
    simp only [Memory.write, ih, Memory.get_set, List.length_cons]
    by_cases h1 : b = a
    · subst h1
      simp
    · by_cases h2 : a + 1 ≤ b ∧ b < a + 1 + bs.length
      · have h3 : a ≤ b ∧ b < a + (bs.length + 1) := by omega
        rw [dif_pos h2, dif_pos h3]
        obtain ⟨k, rfl⟩ : ∃ k, b = a + 1 + k := ⟨b - (a + 1), by omega⟩
        have e1 : a + 1 + k - (a + 1) = k := by omega
        have e2 : a + 1 + k - a = k + 1 := by omega
        simp [e1, e2]
      · have h3 : ¬ (a ≤ b ∧ b < a + (bs.length + 1)) := by omega
        rw [dif_neg h2, dif_neg h3, if_neg h1]

theorem Memory.get_write_other (m : Memory) (a : Nat) (bs : List Byte) (b : Nat) (h : b < a ∨ a + bs.length ≤ b) :
    Memory.get (Memory.write m a bs) b = Memory.get m b := by
  rw [Memory.get_write, dif_neg (by omega)]

theorem Memory.read_length (m : Memory) (a n : Nat) : (Memory.read m a n).length = n := by
  induction n generalizing a with
  | zero => rfl
  | succ n ih => simp [Memory.read, ih]

theorem Memory.read_getElem (m : Memory) (a n i : Nat) (h : i < n) :
    (Memory.read m a n)[i]'(by rw [Memory.read_length]; exact h) = Memory.get m (a + i) := by
  induction n generalizing a i with
  | zero => omega
  | succ n ih =>
    cases i with
    | zero => rfl
    | succ i =>
      simp only [Memory.read, List.getElem_cons_succ]
      rw [ih _ _ (by omega)]
      congr 1
      omega

/-- Reading the bytes just written gives them back. -/
theorem Memory.read_write (m : Memory) (a : Nat) (bs : List Byte) : Memory.read (Memory.write m a bs) a bs.length = bs := by
  apply List.ext_getElem
  · exact Memory.read_length ..
  · intro i h1 h2
    rw [Memory.read_getElem _ _ _ _ h2, Memory.get_write, dif_pos (by omega)]
    simp

theorem Memory.get_zero (m : Memory) (f : Nat → Bool) (a : Nat) : Memory.get (Memory.zero m f) a = if f a then 0 else Memory.get m a :=
  SMap.get_drop ..

end Sys2Proof.Machine
end

