-- ==== Sys2Proof/Laws/State.lean ====
section
/-! SUPPORT. One lemma for each field of State and each named update, true by unfolding, and what is found after an update. -/

namespace Sys2Proof.Machine

variable (s : State)

/-! ### modGroup -/

@[simp] theorem State.modGroup_now (g : Gid) (f : Group → Group) : (s.modGroup g f).now = s.now := rfl
@[simp] theorem State.modGroup_cycles (g : Gid) (f : Group → Group) : (s.modGroup g f).cycles = s.cycles := rfl
@[simp] theorem State.modGroup_cycBase (g : Gid) (f : Group → Group) : (s.modGroup g f).cycBase = s.cycBase := rfl
@[simp] theorem State.modGroup_retired (g : Gid) (f : Group → Group) : (s.modGroup g f).retired = s.retired := rfl
@[simp] theorem State.modGroup_arrays (g : Gid) (f : Group → Group) : (s.modGroup g f).arrays = s.arrays := rfl
@[simp] theorem State.modGroup_counts (g : Gid) (f : Group → Group) : (s.modGroup g f).counts = s.counts := rfl
@[simp] theorem State.modGroup_serial (g : Gid) (f : Group → Group) : (s.modGroup g f).serial = s.serial := rfl
@[simp] theorem State.modGroup_fresh (g : Gid) (f : Group → Group) : (s.modGroup g f).fresh = s.fresh := rfl
@[simp] theorem State.modGroup_mem (g : Gid) (f : Group → Group) : (s.modGroup g f).mem = s.mem := rfl
@[simp] theorem State.modGroup_eccBad (g : Gid) (f : Group → Group) : (s.modGroup g f).eccBad = s.eccBad := rfl
@[simp] theorem State.modGroup_eccSoft (g : Gid) (f : Group → Group) : (s.modGroup g f).eccSoft = s.eccSoft := rfl
@[simp] theorem State.modGroup_tagBad (g : Gid) (f : Group → Group) : (s.modGroup g f).tagBad = s.tagBad := rfl
@[simp] theorem State.modGroup_written (g : Gid) (f : Group → Group) : (s.modGroup g f).written = s.written := rfl
@[simp] theorem State.modGroup_pend (g : Gid) (f : Group → Group) : (s.modGroup g f).pend = s.pend := rfl
@[simp] theorem State.modGroup_leases (g : Gid) (f : Group → Group) : (s.modGroup g f).leases = s.leases := rfl
@[simp] theorem State.modGroup_lmax (g : Gid) (f : Group → Group) : (s.modGroup g f).lmax = s.lmax := rfl
@[simp] theorem State.modGroup_tlb (g : Gid) (f : Group → Group) : (s.modGroup g f).tlb = s.tlb := rfl
@[simp] theorem State.modGroup_ext (g : Gid) (f : Group → Group) : (s.modGroup g f).ext = s.ext := rfl
@[simp] theorem State.modGroup_pot (g : Gid) (f : Group → Group) : (s.modGroup g f).pot = s.pot := rfl
@[simp] theorem State.modGroup_access (g : Gid) (f : Group → Group) : (s.modGroup g f).access = s.access := rfl
@[simp] theorem State.modGroup_changes (g : Gid) (f : Group → Group) : (s.modGroup g f).changes = s.changes := rfl
@[simp] theorem State.modGroup_offers (g : Gid) (f : Group → Group) : (s.modGroup g f).offers = s.offers := rfl
@[simp] theorem State.modGroup_rr (g : Gid) (f : Group → Group) : (s.modGroup g f).rr = s.rr := rfl
@[simp] theorem State.modGroup_blocks (g : Gid) (f : Group → Group) : (s.modGroup g f).blocks = s.blocks := rfl
@[simp] theorem State.modGroup_chains (g : Gid) (f : Group → Group) : (s.modGroup g f).chains = s.chains := rfl
@[simp] theorem State.modGroup_launches (g : Gid) (f : Group → Group) : (s.modGroup g f).launches = s.launches := rfl
@[simp] theorem State.modGroup_parts (g : Gid) (f : Group → Group) : (s.modGroup g f).parts = s.parts := rfl
@[simp] theorem State.modGroup_worlds (g : Gid) (f : Group → Group) : (s.modGroup g f).worlds = s.worlds := rfl
@[simp] theorem State.modGroup_bulks (g : Gid) (f : Group → Group) : (s.modGroup g f).bulks = s.bulks := rfl
@[simp] theorem State.modGroup_galleys (g : Gid) (f : Group → Group) : (s.modGroup g f).galleys = s.galleys := rfl
@[simp] theorem State.modGroup_safeKeys (g : Gid) (f : Group → Group) : (s.modGroup g f).safeKeys = s.safeKeys := rfl
@[simp] theorem State.modGroup_translating (g : Gid) (f : Group → Group) : (s.modGroup g f).translating = s.translating := rfl
@[simp] theorem State.modGroup_frozen (g : Gid) (f : Group → Group) : (s.modGroup g f).frozen = s.frozen := rfl
@[simp] theorem State.modGroup_boot (g : Gid) (f : Group → Group) : (s.modGroup g f).boot = s.boot := rfl
@[simp] theorem State.modGroup_firmware (g : Gid) (f : Group → Group) : (s.modGroup g f).firmware = s.firmware := rfl
@[simp] theorem State.modGroup_staged (g : Gid) (f : Group → Group) : (s.modGroup g f).staged = s.staged := rfl
@[simp] theorem State.modGroup_fused (g : Gid) (f : Group → Group) : (s.modGroup g f).fused = s.fused := rfl
@[simp] theorem State.modGroup_stored (g : Gid) (f : Group → Group) : (s.modGroup g f).stored = s.stored := rfl
@[simp] theorem State.modGroup_ports (g : Gid) (f : Group → Group) : (s.modGroup g f).ports = s.ports := rfl
@[simp] theorem State.modGroup_reply (g : Gid) (f : Group → Group) : (s.modGroup g f).reply = s.reply := rfl
@[simp] theorem State.modGroup_mgmt (g : Gid) (f : Group → Group) : (s.modGroup g f).mgmt = s.mgmt := rfl
@[simp] theorem State.modGroup_agenda (g : Gid) (f : Group → Group) : (s.modGroup g f).agenda = s.agenda := rfl
@[simp] theorem State.modGroup_issuer (g : Gid) (f : Group → Group) : (s.modGroup g f).issuer = s.issuer := rfl
@[simp] theorem State.modGroup_engine (g : Gid) (f : Group → Group) : (s.modGroup g f).engine = s.engine := rfl
@[simp] theorem State.modGroup_cmd (g : Gid) (f : Group → Group) : (s.modGroup g f).cmd = s.cmd := rfl

/-! ### modBlock -/

@[simp] theorem State.modBlock_now (l i : Nat) (f : Block → Block) : (s.modBlock l i f).now = s.now := rfl
@[simp] theorem State.modBlock_cycles (l i : Nat) (f : Block → Block) : (s.modBlock l i f).cycles = s.cycles := rfl
@[simp] theorem State.modBlock_cycBase (l i : Nat) (f : Block → Block) : (s.modBlock l i f).cycBase = s.cycBase := rfl
@[simp] theorem State.modBlock_retired (l i : Nat) (f : Block → Block) : (s.modBlock l i f).retired = s.retired := rfl
@[simp] theorem State.modBlock_arrays (l i : Nat) (f : Block → Block) : (s.modBlock l i f).arrays = s.arrays := rfl
@[simp] theorem State.modBlock_counts (l i : Nat) (f : Block → Block) : (s.modBlock l i f).counts = s.counts := rfl
@[simp] theorem State.modBlock_serial (l i : Nat) (f : Block → Block) : (s.modBlock l i f).serial = s.serial := rfl
@[simp] theorem State.modBlock_fresh (l i : Nat) (f : Block → Block) : (s.modBlock l i f).fresh = s.fresh := rfl
@[simp] theorem State.modBlock_mem (l i : Nat) (f : Block → Block) : (s.modBlock l i f).mem = s.mem := rfl
@[simp] theorem State.modBlock_eccBad (l i : Nat) (f : Block → Block) : (s.modBlock l i f).eccBad = s.eccBad := rfl
@[simp] theorem State.modBlock_eccSoft (l i : Nat) (f : Block → Block) : (s.modBlock l i f).eccSoft = s.eccSoft := rfl
@[simp] theorem State.modBlock_tagBad (l i : Nat) (f : Block → Block) : (s.modBlock l i f).tagBad = s.tagBad := rfl
@[simp] theorem State.modBlock_written (l i : Nat) (f : Block → Block) : (s.modBlock l i f).written = s.written := rfl
@[simp] theorem State.modBlock_pend (l i : Nat) (f : Block → Block) : (s.modBlock l i f).pend = s.pend := rfl
@[simp] theorem State.modBlock_leases (l i : Nat) (f : Block → Block) : (s.modBlock l i f).leases = s.leases := rfl
@[simp] theorem State.modBlock_lmax (l i : Nat) (f : Block → Block) : (s.modBlock l i f).lmax = s.lmax := rfl
@[simp] theorem State.modBlock_tlb (l i : Nat) (f : Block → Block) : (s.modBlock l i f).tlb = s.tlb := rfl
@[simp] theorem State.modBlock_ext (l i : Nat) (f : Block → Block) : (s.modBlock l i f).ext = s.ext := rfl
@[simp] theorem State.modBlock_pot (l i : Nat) (f : Block → Block) : (s.modBlock l i f).pot = s.pot := rfl
@[simp] theorem State.modBlock_access (l i : Nat) (f : Block → Block) : (s.modBlock l i f).access = s.access := rfl
@[simp] theorem State.modBlock_changes (l i : Nat) (f : Block → Block) : (s.modBlock l i f).changes = s.changes := rfl
@[simp] theorem State.modBlock_offers (l i : Nat) (f : Block → Block) : (s.modBlock l i f).offers = s.offers := rfl
@[simp] theorem State.modBlock_groups (l i : Nat) (f : Block → Block) : (s.modBlock l i f).groups = s.groups := rfl
@[simp] theorem State.modBlock_rr (l i : Nat) (f : Block → Block) : (s.modBlock l i f).rr = s.rr := rfl
@[simp] theorem State.modBlock_chains (l i : Nat) (f : Block → Block) : (s.modBlock l i f).chains = s.chains := rfl
@[simp] theorem State.modBlock_launches (l i : Nat) (f : Block → Block) : (s.modBlock l i f).launches = s.launches := rfl
@[simp] theorem State.modBlock_parts (l i : Nat) (f : Block → Block) : (s.modBlock l i f).parts = s.parts := rfl
@[simp] theorem State.modBlock_worlds (l i : Nat) (f : Block → Block) : (s.modBlock l i f).worlds = s.worlds := rfl
@[simp] theorem State.modBlock_bulks (l i : Nat) (f : Block → Block) : (s.modBlock l i f).bulks = s.bulks := rfl
@[simp] theorem State.modBlock_galleys (l i : Nat) (f : Block → Block) : (s.modBlock l i f).galleys = s.galleys := rfl
@[simp] theorem State.modBlock_safeKeys (l i : Nat) (f : Block → Block) : (s.modBlock l i f).safeKeys = s.safeKeys := rfl
@[simp] theorem State.modBlock_translating (l i : Nat) (f : Block → Block) : (s.modBlock l i f).translating = s.translating := rfl
@[simp] theorem State.modBlock_frozen (l i : Nat) (f : Block → Block) : (s.modBlock l i f).frozen = s.frozen := rfl
@[simp] theorem State.modBlock_boot (l i : Nat) (f : Block → Block) : (s.modBlock l i f).boot = s.boot := rfl
@[simp] theorem State.modBlock_firmware (l i : Nat) (f : Block → Block) : (s.modBlock l i f).firmware = s.firmware := rfl
@[simp] theorem State.modBlock_staged (l i : Nat) (f : Block → Block) : (s.modBlock l i f).staged = s.staged := rfl
@[simp] theorem State.modBlock_fused (l i : Nat) (f : Block → Block) : (s.modBlock l i f).fused = s.fused := rfl
@[simp] theorem State.modBlock_stored (l i : Nat) (f : Block → Block) : (s.modBlock l i f).stored = s.stored := rfl
@[simp] theorem State.modBlock_ports (l i : Nat) (f : Block → Block) : (s.modBlock l i f).ports = s.ports := rfl
@[simp] theorem State.modBlock_reply (l i : Nat) (f : Block → Block) : (s.modBlock l i f).reply = s.reply := rfl
@[simp] theorem State.modBlock_mgmt (l i : Nat) (f : Block → Block) : (s.modBlock l i f).mgmt = s.mgmt := rfl
@[simp] theorem State.modBlock_agenda (l i : Nat) (f : Block → Block) : (s.modBlock l i f).agenda = s.agenda := rfl
@[simp] theorem State.modBlock_issuer (l i : Nat) (f : Block → Block) : (s.modBlock l i f).issuer = s.issuer := rfl
@[simp] theorem State.modBlock_engine (l i : Nat) (f : Block → Block) : (s.modBlock l i f).engine = s.engine := rfl
@[simp] theorem State.modBlock_cmd (l i : Nat) (f : Block → Block) : (s.modBlock l i f).cmd = s.cmd := rfl

/-! ### modLaunch -/

@[simp] theorem State.modLaunch_now (l : Nat) (f : Launch → Launch) : (s.modLaunch l f).now = s.now := rfl
@[simp] theorem State.modLaunch_cycles (l : Nat) (f : Launch → Launch) : (s.modLaunch l f).cycles = s.cycles := rfl
@[simp] theorem State.modLaunch_cycBase (l : Nat) (f : Launch → Launch) : (s.modLaunch l f).cycBase = s.cycBase := rfl
@[simp] theorem State.modLaunch_retired (l : Nat) (f : Launch → Launch) : (s.modLaunch l f).retired = s.retired := rfl
@[simp] theorem State.modLaunch_arrays (l : Nat) (f : Launch → Launch) : (s.modLaunch l f).arrays = s.arrays := rfl
@[simp] theorem State.modLaunch_counts (l : Nat) (f : Launch → Launch) : (s.modLaunch l f).counts = s.counts := rfl
@[simp] theorem State.modLaunch_serial (l : Nat) (f : Launch → Launch) : (s.modLaunch l f).serial = s.serial := rfl
@[simp] theorem State.modLaunch_fresh (l : Nat) (f : Launch → Launch) : (s.modLaunch l f).fresh = s.fresh := rfl
@[simp] theorem State.modLaunch_mem (l : Nat) (f : Launch → Launch) : (s.modLaunch l f).mem = s.mem := rfl
@[simp] theorem State.modLaunch_eccBad (l : Nat) (f : Launch → Launch) : (s.modLaunch l f).eccBad = s.eccBad := rfl
@[simp] theorem State.modLaunch_eccSoft (l : Nat) (f : Launch → Launch) : (s.modLaunch l f).eccSoft = s.eccSoft := rfl
@[simp] theorem State.modLaunch_tagBad (l : Nat) (f : Launch → Launch) : (s.modLaunch l f).tagBad = s.tagBad := rfl
@[simp] theorem State.modLaunch_written (l : Nat) (f : Launch → Launch) : (s.modLaunch l f).written = s.written := rfl
@[simp] theorem State.modLaunch_pend (l : Nat) (f : Launch → Launch) : (s.modLaunch l f).pend = s.pend := rfl
@[simp] theorem State.modLaunch_leases (l : Nat) (f : Launch → Launch) : (s.modLaunch l f).leases = s.leases := rfl
@[simp] theorem State.modLaunch_lmax (l : Nat) (f : Launch → Launch) : (s.modLaunch l f).lmax = s.lmax := rfl
@[simp] theorem State.modLaunch_tlb (l : Nat) (f : Launch → Launch) : (s.modLaunch l f).tlb = s.tlb := rfl
@[simp] theorem State.modLaunch_ext (l : Nat) (f : Launch → Launch) : (s.modLaunch l f).ext = s.ext := rfl
@[simp] theorem State.modLaunch_pot (l : Nat) (f : Launch → Launch) : (s.modLaunch l f).pot = s.pot := rfl
@[simp] theorem State.modLaunch_access (l : Nat) (f : Launch → Launch) : (s.modLaunch l f).access = s.access := rfl
@[simp] theorem State.modLaunch_changes (l : Nat) (f : Launch → Launch) : (s.modLaunch l f).changes = s.changes := rfl
@[simp] theorem State.modLaunch_offers (l : Nat) (f : Launch → Launch) : (s.modLaunch l f).offers = s.offers := rfl
@[simp] theorem State.modLaunch_groups (l : Nat) (f : Launch → Launch) : (s.modLaunch l f).groups = s.groups := rfl
@[simp] theorem State.modLaunch_rr (l : Nat) (f : Launch → Launch) : (s.modLaunch l f).rr = s.rr := rfl
@[simp] theorem State.modLaunch_blocks (l : Nat) (f : Launch → Launch) : (s.modLaunch l f).blocks = s.blocks := rfl
@[simp] theorem State.modLaunch_chains (l : Nat) (f : Launch → Launch) : (s.modLaunch l f).chains = s.chains := rfl
@[simp] theorem State.modLaunch_parts (l : Nat) (f : Launch → Launch) : (s.modLaunch l f).parts = s.parts := rfl
@[simp] theorem State.modLaunch_worlds (l : Nat) (f : Launch → Launch) : (s.modLaunch l f).worlds = s.worlds := rfl
@[simp] theorem State.modLaunch_bulks (l : Nat) (f : Launch → Launch) : (s.modLaunch l f).bulks = s.bulks := rfl
@[simp] theorem State.modLaunch_galleys (l : Nat) (f : Launch → Launch) : (s.modLaunch l f).galleys = s.galleys := rfl
@[simp] theorem State.modLaunch_safeKeys (l : Nat) (f : Launch → Launch) : (s.modLaunch l f).safeKeys = s.safeKeys := rfl
@[simp] theorem State.modLaunch_translating (l : Nat) (f : Launch → Launch) : (s.modLaunch l f).translating = s.translating := rfl
@[simp] theorem State.modLaunch_frozen (l : Nat) (f : Launch → Launch) : (s.modLaunch l f).frozen = s.frozen := rfl
@[simp] theorem State.modLaunch_boot (l : Nat) (f : Launch → Launch) : (s.modLaunch l f).boot = s.boot := rfl
@[simp] theorem State.modLaunch_firmware (l : Nat) (f : Launch → Launch) : (s.modLaunch l f).firmware = s.firmware := rfl
@[simp] theorem State.modLaunch_staged (l : Nat) (f : Launch → Launch) : (s.modLaunch l f).staged = s.staged := rfl
@[simp] theorem State.modLaunch_fused (l : Nat) (f : Launch → Launch) : (s.modLaunch l f).fused = s.fused := rfl
@[simp] theorem State.modLaunch_stored (l : Nat) (f : Launch → Launch) : (s.modLaunch l f).stored = s.stored := rfl
@[simp] theorem State.modLaunch_ports (l : Nat) (f : Launch → Launch) : (s.modLaunch l f).ports = s.ports := rfl
@[simp] theorem State.modLaunch_reply (l : Nat) (f : Launch → Launch) : (s.modLaunch l f).reply = s.reply := rfl
@[simp] theorem State.modLaunch_mgmt (l : Nat) (f : Launch → Launch) : (s.modLaunch l f).mgmt = s.mgmt := rfl
@[simp] theorem State.modLaunch_agenda (l : Nat) (f : Launch → Launch) : (s.modLaunch l f).agenda = s.agenda := rfl
@[simp] theorem State.modLaunch_issuer (l : Nat) (f : Launch → Launch) : (s.modLaunch l f).issuer = s.issuer := rfl
@[simp] theorem State.modLaunch_engine (l : Nat) (f : Launch → Launch) : (s.modLaunch l f).engine = s.engine := rfl
@[simp] theorem State.modLaunch_cmd (l : Nat) (f : Launch → Launch) : (s.modLaunch l f).cmd = s.cmd := rfl

/-! ### modChain -/

@[simp] theorem State.modChain_now (i : Nat) (f : Chain → Chain) : (s.modChain i f).now = s.now := rfl
@[simp] theorem State.modChain_cycles (i : Nat) (f : Chain → Chain) : (s.modChain i f).cycles = s.cycles := rfl
@[simp] theorem State.modChain_cycBase (i : Nat) (f : Chain → Chain) : (s.modChain i f).cycBase = s.cycBase := rfl
@[simp] theorem State.modChain_retired (i : Nat) (f : Chain → Chain) : (s.modChain i f).retired = s.retired := rfl
@[simp] theorem State.modChain_arrays (i : Nat) (f : Chain → Chain) : (s.modChain i f).arrays = s.arrays := rfl
@[simp] theorem State.modChain_counts (i : Nat) (f : Chain → Chain) : (s.modChain i f).counts = s.counts := rfl
@[simp] theorem State.modChain_serial (i : Nat) (f : Chain → Chain) : (s.modChain i f).serial = s.serial := rfl
@[simp] theorem State.modChain_fresh (i : Nat) (f : Chain → Chain) : (s.modChain i f).fresh = s.fresh := rfl
@[simp] theorem State.modChain_mem (i : Nat) (f : Chain → Chain) : (s.modChain i f).mem = s.mem := rfl
@[simp] theorem State.modChain_eccBad (i : Nat) (f : Chain → Chain) : (s.modChain i f).eccBad = s.eccBad := rfl
@[simp] theorem State.modChain_eccSoft (i : Nat) (f : Chain → Chain) : (s.modChain i f).eccSoft = s.eccSoft := rfl
@[simp] theorem State.modChain_tagBad (i : Nat) (f : Chain → Chain) : (s.modChain i f).tagBad = s.tagBad := rfl
@[simp] theorem State.modChain_written (i : Nat) (f : Chain → Chain) : (s.modChain i f).written = s.written := rfl
@[simp] theorem State.modChain_pend (i : Nat) (f : Chain → Chain) : (s.modChain i f).pend = s.pend := rfl
@[simp] theorem State.modChain_leases (i : Nat) (f : Chain → Chain) : (s.modChain i f).leases = s.leases := rfl
@[simp] theorem State.modChain_lmax (i : Nat) (f : Chain → Chain) : (s.modChain i f).lmax = s.lmax := rfl
@[simp] theorem State.modChain_tlb (i : Nat) (f : Chain → Chain) : (s.modChain i f).tlb = s.tlb := rfl
@[simp] theorem State.modChain_ext (i : Nat) (f : Chain → Chain) : (s.modChain i f).ext = s.ext := rfl
@[simp] theorem State.modChain_pot (i : Nat) (f : Chain → Chain) : (s.modChain i f).pot = s.pot := rfl
@[simp] theorem State.modChain_access (i : Nat) (f : Chain → Chain) : (s.modChain i f).access = s.access := rfl
@[simp] theorem State.modChain_changes (i : Nat) (f : Chain → Chain) : (s.modChain i f).changes = s.changes := rfl
@[simp] theorem State.modChain_offers (i : Nat) (f : Chain → Chain) : (s.modChain i f).offers = s.offers := rfl
@[simp] theorem State.modChain_groups (i : Nat) (f : Chain → Chain) : (s.modChain i f).groups = s.groups := rfl
@[simp] theorem State.modChain_rr (i : Nat) (f : Chain → Chain) : (s.modChain i f).rr = s.rr := rfl
@[simp] theorem State.modChain_blocks (i : Nat) (f : Chain → Chain) : (s.modChain i f).blocks = s.blocks := rfl
@[simp] theorem State.modChain_launches (i : Nat) (f : Chain → Chain) : (s.modChain i f).launches = s.launches := rfl
@[simp] theorem State.modChain_parts (i : Nat) (f : Chain → Chain) : (s.modChain i f).parts = s.parts := rfl
@[simp] theorem State.modChain_worlds (i : Nat) (f : Chain → Chain) : (s.modChain i f).worlds = s.worlds := rfl
@[simp] theorem State.modChain_bulks (i : Nat) (f : Chain → Chain) : (s.modChain i f).bulks = s.bulks := rfl
@[simp] theorem State.modChain_galleys (i : Nat) (f : Chain → Chain) : (s.modChain i f).galleys = s.galleys := rfl
@[simp] theorem State.modChain_safeKeys (i : Nat) (f : Chain → Chain) : (s.modChain i f).safeKeys = s.safeKeys := rfl
@[simp] theorem State.modChain_translating (i : Nat) (f : Chain → Chain) : (s.modChain i f).translating = s.translating := rfl
@[simp] theorem State.modChain_frozen (i : Nat) (f : Chain → Chain) : (s.modChain i f).frozen = s.frozen := rfl
@[simp] theorem State.modChain_boot (i : Nat) (f : Chain → Chain) : (s.modChain i f).boot = s.boot := rfl
@[simp] theorem State.modChain_firmware (i : Nat) (f : Chain → Chain) : (s.modChain i f).firmware = s.firmware := rfl
@[simp] theorem State.modChain_staged (i : Nat) (f : Chain → Chain) : (s.modChain i f).staged = s.staged := rfl
@[simp] theorem State.modChain_fused (i : Nat) (f : Chain → Chain) : (s.modChain i f).fused = s.fused := rfl
@[simp] theorem State.modChain_stored (i : Nat) (f : Chain → Chain) : (s.modChain i f).stored = s.stored := rfl
@[simp] theorem State.modChain_ports (i : Nat) (f : Chain → Chain) : (s.modChain i f).ports = s.ports := rfl
@[simp] theorem State.modChain_reply (i : Nat) (f : Chain → Chain) : (s.modChain i f).reply = s.reply := rfl
@[simp] theorem State.modChain_mgmt (i : Nat) (f : Chain → Chain) : (s.modChain i f).mgmt = s.mgmt := rfl
@[simp] theorem State.modChain_agenda (i : Nat) (f : Chain → Chain) : (s.modChain i f).agenda = s.agenda := rfl
@[simp] theorem State.modChain_issuer (i : Nat) (f : Chain → Chain) : (s.modChain i f).issuer = s.issuer := rfl
@[simp] theorem State.modChain_engine (i : Nat) (f : Chain → Chain) : (s.modChain i f).engine = s.engine := rfl
@[simp] theorem State.modChain_cmd (i : Nat) (f : Chain → Chain) : (s.modChain i f).cmd = s.cmd := rfl

/-! ### modWorld -/

@[simp] theorem State.modWorld_now (w : Nat) (f : World → World) : (s.modWorld w f).now = s.now := rfl
@[simp] theorem State.modWorld_cycles (w : Nat) (f : World → World) : (s.modWorld w f).cycles = s.cycles := rfl
@[simp] theorem State.modWorld_cycBase (w : Nat) (f : World → World) : (s.modWorld w f).cycBase = s.cycBase := rfl
@[simp] theorem State.modWorld_retired (w : Nat) (f : World → World) : (s.modWorld w f).retired = s.retired := rfl
@[simp] theorem State.modWorld_arrays (w : Nat) (f : World → World) : (s.modWorld w f).arrays = s.arrays := rfl
@[simp] theorem State.modWorld_counts (w : Nat) (f : World → World) : (s.modWorld w f).counts = s.counts := rfl
@[simp] theorem State.modWorld_serial (w : Nat) (f : World → World) : (s.modWorld w f).serial = s.serial := rfl
@[simp] theorem State.modWorld_fresh (w : Nat) (f : World → World) : (s.modWorld w f).fresh = s.fresh := rfl
@[simp] theorem State.modWorld_mem (w : Nat) (f : World → World) : (s.modWorld w f).mem = s.mem := rfl
@[simp] theorem State.modWorld_eccBad (w : Nat) (f : World → World) : (s.modWorld w f).eccBad = s.eccBad := rfl
@[simp] theorem State.modWorld_eccSoft (w : Nat) (f : World → World) : (s.modWorld w f).eccSoft = s.eccSoft := rfl
@[simp] theorem State.modWorld_tagBad (w : Nat) (f : World → World) : (s.modWorld w f).tagBad = s.tagBad := rfl
@[simp] theorem State.modWorld_written (w : Nat) (f : World → World) : (s.modWorld w f).written = s.written := rfl
@[simp] theorem State.modWorld_pend (w : Nat) (f : World → World) : (s.modWorld w f).pend = s.pend := rfl
@[simp] theorem State.modWorld_leases (w : Nat) (f : World → World) : (s.modWorld w f).leases = s.leases := rfl
@[simp] theorem State.modWorld_lmax (w : Nat) (f : World → World) : (s.modWorld w f).lmax = s.lmax := rfl
@[simp] theorem State.modWorld_tlb (w : Nat) (f : World → World) : (s.modWorld w f).tlb = s.tlb := rfl
@[simp] theorem State.modWorld_ext (w : Nat) (f : World → World) : (s.modWorld w f).ext = s.ext := rfl
@[simp] theorem State.modWorld_pot (w : Nat) (f : World → World) : (s.modWorld w f).pot = s.pot := rfl
@[simp] theorem State.modWorld_access (w : Nat) (f : World → World) : (s.modWorld w f).access = s.access := rfl
@[simp] theorem State.modWorld_changes (w : Nat) (f : World → World) : (s.modWorld w f).changes = s.changes := rfl
@[simp] theorem State.modWorld_offers (w : Nat) (f : World → World) : (s.modWorld w f).offers = s.offers := rfl
@[simp] theorem State.modWorld_groups (w : Nat) (f : World → World) : (s.modWorld w f).groups = s.groups := rfl
@[simp] theorem State.modWorld_rr (w : Nat) (f : World → World) : (s.modWorld w f).rr = s.rr := rfl
@[simp] theorem State.modWorld_blocks (w : Nat) (f : World → World) : (s.modWorld w f).blocks = s.blocks := rfl
@[simp] theorem State.modWorld_chains (w : Nat) (f : World → World) : (s.modWorld w f).chains = s.chains := rfl
@[simp] theorem State.modWorld_launches (w : Nat) (f : World → World) : (s.modWorld w f).launches = s.launches := rfl
@[simp] theorem State.modWorld_parts (w : Nat) (f : World → World) : (s.modWorld w f).parts = s.parts := rfl
@[simp] theorem State.modWorld_bulks (w : Nat) (f : World → World) : (s.modWorld w f).bulks = s.bulks := rfl
@[simp] theorem State.modWorld_galleys (w : Nat) (f : World → World) : (s.modWorld w f).galleys = s.galleys := rfl
@[simp] theorem State.modWorld_safeKeys (w : Nat) (f : World → World) : (s.modWorld w f).safeKeys = s.safeKeys := rfl
@[simp] theorem State.modWorld_translating (w : Nat) (f : World → World) : (s.modWorld w f).translating = s.translating := rfl
@[simp] theorem State.modWorld_frozen (w : Nat) (f : World → World) : (s.modWorld w f).frozen = s.frozen := rfl
@[simp] theorem State.modWorld_boot (w : Nat) (f : World → World) : (s.modWorld w f).boot = s.boot := rfl
@[simp] theorem State.modWorld_firmware (w : Nat) (f : World → World) : (s.modWorld w f).firmware = s.firmware := rfl
@[simp] theorem State.modWorld_staged (w : Nat) (f : World → World) : (s.modWorld w f).staged = s.staged := rfl
@[simp] theorem State.modWorld_fused (w : Nat) (f : World → World) : (s.modWorld w f).fused = s.fused := rfl
@[simp] theorem State.modWorld_stored (w : Nat) (f : World → World) : (s.modWorld w f).stored = s.stored := rfl
@[simp] theorem State.modWorld_ports (w : Nat) (f : World → World) : (s.modWorld w f).ports = s.ports := rfl
@[simp] theorem State.modWorld_reply (w : Nat) (f : World → World) : (s.modWorld w f).reply = s.reply := rfl
@[simp] theorem State.modWorld_mgmt (w : Nat) (f : World → World) : (s.modWorld w f).mgmt = s.mgmt := rfl
@[simp] theorem State.modWorld_agenda (w : Nat) (f : World → World) : (s.modWorld w f).agenda = s.agenda := rfl
@[simp] theorem State.modWorld_issuer (w : Nat) (f : World → World) : (s.modWorld w f).issuer = s.issuer := rfl
@[simp] theorem State.modWorld_engine (w : Nat) (f : World → World) : (s.modWorld w f).engine = s.engine := rfl
@[simp] theorem State.modWorld_cmd (w : Nat) (f : World → World) : (s.modWorld w f).cmd = s.cmd := rfl

/-! ### modPart -/

@[simp] theorem State.modPart_now (p : Nat) (f : Partition → Partition) : (s.modPart p f).now = s.now := rfl
@[simp] theorem State.modPart_cycles (p : Nat) (f : Partition → Partition) : (s.modPart p f).cycles = s.cycles := rfl
@[simp] theorem State.modPart_cycBase (p : Nat) (f : Partition → Partition) : (s.modPart p f).cycBase = s.cycBase := rfl
@[simp] theorem State.modPart_retired (p : Nat) (f : Partition → Partition) : (s.modPart p f).retired = s.retired := rfl
@[simp] theorem State.modPart_arrays (p : Nat) (f : Partition → Partition) : (s.modPart p f).arrays = s.arrays := rfl
@[simp] theorem State.modPart_counts (p : Nat) (f : Partition → Partition) : (s.modPart p f).counts = s.counts := rfl
@[simp] theorem State.modPart_serial (p : Nat) (f : Partition → Partition) : (s.modPart p f).serial = s.serial := rfl
@[simp] theorem State.modPart_fresh (p : Nat) (f : Partition → Partition) : (s.modPart p f).fresh = s.fresh := rfl
@[simp] theorem State.modPart_mem (p : Nat) (f : Partition → Partition) : (s.modPart p f).mem = s.mem := rfl
@[simp] theorem State.modPart_eccBad (p : Nat) (f : Partition → Partition) : (s.modPart p f).eccBad = s.eccBad := rfl
@[simp] theorem State.modPart_eccSoft (p : Nat) (f : Partition → Partition) : (s.modPart p f).eccSoft = s.eccSoft := rfl
@[simp] theorem State.modPart_tagBad (p : Nat) (f : Partition → Partition) : (s.modPart p f).tagBad = s.tagBad := rfl
@[simp] theorem State.modPart_written (p : Nat) (f : Partition → Partition) : (s.modPart p f).written = s.written := rfl
@[simp] theorem State.modPart_pend (p : Nat) (f : Partition → Partition) : (s.modPart p f).pend = s.pend := rfl
@[simp] theorem State.modPart_leases (p : Nat) (f : Partition → Partition) : (s.modPart p f).leases = s.leases := rfl
@[simp] theorem State.modPart_lmax (p : Nat) (f : Partition → Partition) : (s.modPart p f).lmax = s.lmax := rfl
@[simp] theorem State.modPart_tlb (p : Nat) (f : Partition → Partition) : (s.modPart p f).tlb = s.tlb := rfl
@[simp] theorem State.modPart_ext (p : Nat) (f : Partition → Partition) : (s.modPart p f).ext = s.ext := rfl
@[simp] theorem State.modPart_pot (p : Nat) (f : Partition → Partition) : (s.modPart p f).pot = s.pot := rfl
@[simp] theorem State.modPart_access (p : Nat) (f : Partition → Partition) : (s.modPart p f).access = s.access := rfl
@[simp] theorem State.modPart_changes (p : Nat) (f : Partition → Partition) : (s.modPart p f).changes = s.changes := rfl
@[simp] theorem State.modPart_offers (p : Nat) (f : Partition → Partition) : (s.modPart p f).offers = s.offers := rfl
@[simp] theorem State.modPart_groups (p : Nat) (f : Partition → Partition) : (s.modPart p f).groups = s.groups := rfl
@[simp] theorem State.modPart_rr (p : Nat) (f : Partition → Partition) : (s.modPart p f).rr = s.rr := rfl
@[simp] theorem State.modPart_blocks (p : Nat) (f : Partition → Partition) : (s.modPart p f).blocks = s.blocks := rfl
@[simp] theorem State.modPart_chains (p : Nat) (f : Partition → Partition) : (s.modPart p f).chains = s.chains := rfl
@[simp] theorem State.modPart_launches (p : Nat) (f : Partition → Partition) : (s.modPart p f).launches = s.launches := rfl
@[simp] theorem State.modPart_worlds (p : Nat) (f : Partition → Partition) : (s.modPart p f).worlds = s.worlds := rfl
@[simp] theorem State.modPart_bulks (p : Nat) (f : Partition → Partition) : (s.modPart p f).bulks = s.bulks := rfl
@[simp] theorem State.modPart_galleys (p : Nat) (f : Partition → Partition) : (s.modPart p f).galleys = s.galleys := rfl
@[simp] theorem State.modPart_safeKeys (p : Nat) (f : Partition → Partition) : (s.modPart p f).safeKeys = s.safeKeys := rfl
@[simp] theorem State.modPart_translating (p : Nat) (f : Partition → Partition) : (s.modPart p f).translating = s.translating := rfl
@[simp] theorem State.modPart_frozen (p : Nat) (f : Partition → Partition) : (s.modPart p f).frozen = s.frozen := rfl
@[simp] theorem State.modPart_boot (p : Nat) (f : Partition → Partition) : (s.modPart p f).boot = s.boot := rfl
@[simp] theorem State.modPart_firmware (p : Nat) (f : Partition → Partition) : (s.modPart p f).firmware = s.firmware := rfl
@[simp] theorem State.modPart_staged (p : Nat) (f : Partition → Partition) : (s.modPart p f).staged = s.staged := rfl
@[simp] theorem State.modPart_fused (p : Nat) (f : Partition → Partition) : (s.modPart p f).fused = s.fused := rfl
@[simp] theorem State.modPart_stored (p : Nat) (f : Partition → Partition) : (s.modPart p f).stored = s.stored := rfl
@[simp] theorem State.modPart_ports (p : Nat) (f : Partition → Partition) : (s.modPart p f).ports = s.ports := rfl
@[simp] theorem State.modPart_reply (p : Nat) (f : Partition → Partition) : (s.modPart p f).reply = s.reply := rfl
@[simp] theorem State.modPart_mgmt (p : Nat) (f : Partition → Partition) : (s.modPart p f).mgmt = s.mgmt := rfl
@[simp] theorem State.modPart_agenda (p : Nat) (f : Partition → Partition) : (s.modPart p f).agenda = s.agenda := rfl
@[simp] theorem State.modPart_issuer (p : Nat) (f : Partition → Partition) : (s.modPart p f).issuer = s.issuer := rfl
@[simp] theorem State.modPart_engine (p : Nat) (f : Partition → Partition) : (s.modPart p f).engine = s.engine := rfl
@[simp] theorem State.modPart_cmd (p : Nat) (f : Partition → Partition) : (s.modPart p f).cmd = s.cmd := rfl

/-! ### modBulk -/

@[simp] theorem State.modBulk_now (b : Nat) (f : Bulk → Bulk) : (s.modBulk b f).now = s.now := rfl
@[simp] theorem State.modBulk_cycles (b : Nat) (f : Bulk → Bulk) : (s.modBulk b f).cycles = s.cycles := rfl
@[simp] theorem State.modBulk_cycBase (b : Nat) (f : Bulk → Bulk) : (s.modBulk b f).cycBase = s.cycBase := rfl
@[simp] theorem State.modBulk_retired (b : Nat) (f : Bulk → Bulk) : (s.modBulk b f).retired = s.retired := rfl
@[simp] theorem State.modBulk_arrays (b : Nat) (f : Bulk → Bulk) : (s.modBulk b f).arrays = s.arrays := rfl
@[simp] theorem State.modBulk_counts (b : Nat) (f : Bulk → Bulk) : (s.modBulk b f).counts = s.counts := rfl
@[simp] theorem State.modBulk_serial (b : Nat) (f : Bulk → Bulk) : (s.modBulk b f).serial = s.serial := rfl
@[simp] theorem State.modBulk_fresh (b : Nat) (f : Bulk → Bulk) : (s.modBulk b f).fresh = s.fresh := rfl
@[simp] theorem State.modBulk_mem (b : Nat) (f : Bulk → Bulk) : (s.modBulk b f).mem = s.mem := rfl
@[simp] theorem State.modBulk_eccBad (b : Nat) (f : Bulk → Bulk) : (s.modBulk b f).eccBad = s.eccBad := rfl
@[simp] theorem State.modBulk_eccSoft (b : Nat) (f : Bulk → Bulk) : (s.modBulk b f).eccSoft = s.eccSoft := rfl
@[simp] theorem State.modBulk_tagBad (b : Nat) (f : Bulk → Bulk) : (s.modBulk b f).tagBad = s.tagBad := rfl
@[simp] theorem State.modBulk_written (b : Nat) (f : Bulk → Bulk) : (s.modBulk b f).written = s.written := rfl
@[simp] theorem State.modBulk_pend (b : Nat) (f : Bulk → Bulk) : (s.modBulk b f).pend = s.pend := rfl
@[simp] theorem State.modBulk_leases (b : Nat) (f : Bulk → Bulk) : (s.modBulk b f).leases = s.leases := rfl
@[simp] theorem State.modBulk_lmax (b : Nat) (f : Bulk → Bulk) : (s.modBulk b f).lmax = s.lmax := rfl
@[simp] theorem State.modBulk_tlb (b : Nat) (f : Bulk → Bulk) : (s.modBulk b f).tlb = s.tlb := rfl
@[simp] theorem State.modBulk_ext (b : Nat) (f : Bulk → Bulk) : (s.modBulk b f).ext = s.ext := rfl
@[simp] theorem State.modBulk_pot (b : Nat) (f : Bulk → Bulk) : (s.modBulk b f).pot = s.pot := rfl
@[simp] theorem State.modBulk_access (b : Nat) (f : Bulk → Bulk) : (s.modBulk b f).access = s.access := rfl
@[simp] theorem State.modBulk_changes (b : Nat) (f : Bulk → Bulk) : (s.modBulk b f).changes = s.changes := rfl
@[simp] theorem State.modBulk_offers (b : Nat) (f : Bulk → Bulk) : (s.modBulk b f).offers = s.offers := rfl
@[simp] theorem State.modBulk_groups (b : Nat) (f : Bulk → Bulk) : (s.modBulk b f).groups = s.groups := rfl
@[simp] theorem State.modBulk_rr (b : Nat) (f : Bulk → Bulk) : (s.modBulk b f).rr = s.rr := rfl
@[simp] theorem State.modBulk_blocks (b : Nat) (f : Bulk → Bulk) : (s.modBulk b f).blocks = s.blocks := rfl
@[simp] theorem State.modBulk_chains (b : Nat) (f : Bulk → Bulk) : (s.modBulk b f).chains = s.chains := rfl
@[simp] theorem State.modBulk_launches (b : Nat) (f : Bulk → Bulk) : (s.modBulk b f).launches = s.launches := rfl
@[simp] theorem State.modBulk_parts (b : Nat) (f : Bulk → Bulk) : (s.modBulk b f).parts = s.parts := rfl
@[simp] theorem State.modBulk_worlds (b : Nat) (f : Bulk → Bulk) : (s.modBulk b f).worlds = s.worlds := rfl
@[simp] theorem State.modBulk_galleys (b : Nat) (f : Bulk → Bulk) : (s.modBulk b f).galleys = s.galleys := rfl
@[simp] theorem State.modBulk_safeKeys (b : Nat) (f : Bulk → Bulk) : (s.modBulk b f).safeKeys = s.safeKeys := rfl
@[simp] theorem State.modBulk_translating (b : Nat) (f : Bulk → Bulk) : (s.modBulk b f).translating = s.translating := rfl
@[simp] theorem State.modBulk_frozen (b : Nat) (f : Bulk → Bulk) : (s.modBulk b f).frozen = s.frozen := rfl
@[simp] theorem State.modBulk_boot (b : Nat) (f : Bulk → Bulk) : (s.modBulk b f).boot = s.boot := rfl
@[simp] theorem State.modBulk_firmware (b : Nat) (f : Bulk → Bulk) : (s.modBulk b f).firmware = s.firmware := rfl
@[simp] theorem State.modBulk_staged (b : Nat) (f : Bulk → Bulk) : (s.modBulk b f).staged = s.staged := rfl
@[simp] theorem State.modBulk_fused (b : Nat) (f : Bulk → Bulk) : (s.modBulk b f).fused = s.fused := rfl
@[simp] theorem State.modBulk_stored (b : Nat) (f : Bulk → Bulk) : (s.modBulk b f).stored = s.stored := rfl
@[simp] theorem State.modBulk_ports (b : Nat) (f : Bulk → Bulk) : (s.modBulk b f).ports = s.ports := rfl
@[simp] theorem State.modBulk_reply (b : Nat) (f : Bulk → Bulk) : (s.modBulk b f).reply = s.reply := rfl
@[simp] theorem State.modBulk_mgmt (b : Nat) (f : Bulk → Bulk) : (s.modBulk b f).mgmt = s.mgmt := rfl
@[simp] theorem State.modBulk_agenda (b : Nat) (f : Bulk → Bulk) : (s.modBulk b f).agenda = s.agenda := rfl
@[simp] theorem State.modBulk_issuer (b : Nat) (f : Bulk → Bulk) : (s.modBulk b f).issuer = s.issuer := rfl
@[simp] theorem State.modBulk_engine (b : Nat) (f : Bulk → Bulk) : (s.modBulk b f).engine = s.engine := rfl
@[simp] theorem State.modBulk_cmd (b : Nat) (f : Bulk → Bulk) : (s.modBulk b f).cmd = s.cmd := rfl

/-! ### ember -/

@[simp] theorem State.ember_now (b code core world : Nat) (data : DWord) : (s.ember b code core world data).now = s.now := rfl
@[simp] theorem State.ember_cycles (b code core world : Nat) (data : DWord) : (s.ember b code core world data).cycles = s.cycles := rfl
@[simp] theorem State.ember_cycBase (b code core world : Nat) (data : DWord) : (s.ember b code core world data).cycBase = s.cycBase := rfl
@[simp] theorem State.ember_retired (b code core world : Nat) (data : DWord) : (s.ember b code core world data).retired = s.retired := rfl
@[simp] theorem State.ember_arrays (b code core world : Nat) (data : DWord) : (s.ember b code core world data).arrays = s.arrays := rfl
@[simp] theorem State.ember_counts (b code core world : Nat) (data : DWord) : (s.ember b code core world data).counts = s.counts := rfl
@[simp] theorem State.ember_serial (b code core world : Nat) (data : DWord) : (s.ember b code core world data).serial = s.serial := rfl
@[simp] theorem State.ember_fresh (b code core world : Nat) (data : DWord) : (s.ember b code core world data).fresh = s.fresh := rfl
@[simp] theorem State.ember_mem (b code core world : Nat) (data : DWord) : (s.ember b code core world data).mem = s.mem := rfl
@[simp] theorem State.ember_eccBad (b code core world : Nat) (data : DWord) : (s.ember b code core world data).eccBad = s.eccBad := rfl
@[simp] theorem State.ember_eccSoft (b code core world : Nat) (data : DWord) : (s.ember b code core world data).eccSoft = s.eccSoft := rfl
@[simp] theorem State.ember_tagBad (b code core world : Nat) (data : DWord) : (s.ember b code core world data).tagBad = s.tagBad := rfl
@[simp] theorem State.ember_written (b code core world : Nat) (data : DWord) : (s.ember b code core world data).written = s.written := rfl
@[simp] theorem State.ember_pend (b code core world : Nat) (data : DWord) : (s.ember b code core world data).pend = s.pend := rfl
@[simp] theorem State.ember_leases (b code core world : Nat) (data : DWord) : (s.ember b code core world data).leases = s.leases := rfl
@[simp] theorem State.ember_lmax (b code core world : Nat) (data : DWord) : (s.ember b code core world data).lmax = s.lmax := rfl
@[simp] theorem State.ember_tlb (b code core world : Nat) (data : DWord) : (s.ember b code core world data).tlb = s.tlb := rfl
@[simp] theorem State.ember_ext (b code core world : Nat) (data : DWord) : (s.ember b code core world data).ext = s.ext := rfl
@[simp] theorem State.ember_pot (b code core world : Nat) (data : DWord) : (s.ember b code core world data).pot = s.pot := rfl
@[simp] theorem State.ember_access (b code core world : Nat) (data : DWord) : (s.ember b code core world data).access = s.access := rfl
@[simp] theorem State.ember_changes (b code core world : Nat) (data : DWord) : (s.ember b code core world data).changes = s.changes := rfl
@[simp] theorem State.ember_offers (b code core world : Nat) (data : DWord) : (s.ember b code core world data).offers = s.offers := rfl
@[simp] theorem State.ember_groups (b code core world : Nat) (data : DWord) : (s.ember b code core world data).groups = s.groups := rfl
@[simp] theorem State.ember_rr (b code core world : Nat) (data : DWord) : (s.ember b code core world data).rr = s.rr := rfl
@[simp] theorem State.ember_blocks (b code core world : Nat) (data : DWord) : (s.ember b code core world data).blocks = s.blocks := rfl
@[simp] theorem State.ember_chains (b code core world : Nat) (data : DWord) : (s.ember b code core world data).chains = s.chains := rfl
@[simp] theorem State.ember_launches (b code core world : Nat) (data : DWord) : (s.ember b code core world data).launches = s.launches := rfl
@[simp] theorem State.ember_parts (b code core world : Nat) (data : DWord) : (s.ember b code core world data).parts = s.parts := rfl
@[simp] theorem State.ember_worlds (b code core world : Nat) (data : DWord) : (s.ember b code core world data).worlds = s.worlds := rfl
@[simp] theorem State.ember_galleys (b code core world : Nat) (data : DWord) : (s.ember b code core world data).galleys = s.galleys := rfl
@[simp] theorem State.ember_safeKeys (b code core world : Nat) (data : DWord) : (s.ember b code core world data).safeKeys = s.safeKeys := rfl
@[simp] theorem State.ember_translating (b code core world : Nat) (data : DWord) : (s.ember b code core world data).translating = s.translating := rfl
@[simp] theorem State.ember_frozen (b code core world : Nat) (data : DWord) : (s.ember b code core world data).frozen = s.frozen := rfl
@[simp] theorem State.ember_boot (b code core world : Nat) (data : DWord) : (s.ember b code core world data).boot = s.boot := rfl
@[simp] theorem State.ember_firmware (b code core world : Nat) (data : DWord) : (s.ember b code core world data).firmware = s.firmware := rfl
@[simp] theorem State.ember_staged (b code core world : Nat) (data : DWord) : (s.ember b code core world data).staged = s.staged := rfl
@[simp] theorem State.ember_fused (b code core world : Nat) (data : DWord) : (s.ember b code core world data).fused = s.fused := rfl
@[simp] theorem State.ember_stored (b code core world : Nat) (data : DWord) : (s.ember b code core world data).stored = s.stored := rfl
@[simp] theorem State.ember_ports (b code core world : Nat) (data : DWord) : (s.ember b code core world data).ports = s.ports := rfl
@[simp] theorem State.ember_reply (b code core world : Nat) (data : DWord) : (s.ember b code core world data).reply = s.reply := rfl
@[simp] theorem State.ember_mgmt (b code core world : Nat) (data : DWord) : (s.ember b code core world data).mgmt = s.mgmt := rfl
@[simp] theorem State.ember_agenda (b code core world : Nat) (data : DWord) : (s.ember b code core world data).agenda = s.agenda := rfl
@[simp] theorem State.ember_issuer (b code core world : Nat) (data : DWord) : (s.ember b code core world data).issuer = s.issuer := rfl
@[simp] theorem State.ember_engine (b code core world : Nat) (data : DWord) : (s.ember b code core world data).engine = s.engine := rfl
@[simp] theorem State.ember_cmd (b code core world : Nat) (data : DWord) : (s.ember b code core world data).cmd = s.cmd := rfl

/-! ### count -/

@[simp] theorem State.count_now (k : Nat) : (s.count k).now = s.now := rfl
@[simp] theorem State.count_cycles (k : Nat) : (s.count k).cycles = s.cycles := rfl
@[simp] theorem State.count_cycBase (k : Nat) : (s.count k).cycBase = s.cycBase := rfl
@[simp] theorem State.count_arrays (k : Nat) : (s.count k).arrays = s.arrays := rfl
@[simp] theorem State.count_counts (k : Nat) : (s.count k).counts = s.counts := rfl
@[simp] theorem State.count_serial (k : Nat) : (s.count k).serial = s.serial := rfl
@[simp] theorem State.count_fresh (k : Nat) : (s.count k).fresh = s.fresh := rfl
@[simp] theorem State.count_mem (k : Nat) : (s.count k).mem = s.mem := rfl
@[simp] theorem State.count_eccBad (k : Nat) : (s.count k).eccBad = s.eccBad := rfl
@[simp] theorem State.count_eccSoft (k : Nat) : (s.count k).eccSoft = s.eccSoft := rfl
@[simp] theorem State.count_tagBad (k : Nat) : (s.count k).tagBad = s.tagBad := rfl
@[simp] theorem State.count_written (k : Nat) : (s.count k).written = s.written := rfl
@[simp] theorem State.count_pend (k : Nat) : (s.count k).pend = s.pend := rfl
@[simp] theorem State.count_leases (k : Nat) : (s.count k).leases = s.leases := rfl
@[simp] theorem State.count_lmax (k : Nat) : (s.count k).lmax = s.lmax := rfl
@[simp] theorem State.count_tlb (k : Nat) : (s.count k).tlb = s.tlb := rfl
@[simp] theorem State.count_ext (k : Nat) : (s.count k).ext = s.ext := rfl
@[simp] theorem State.count_pot (k : Nat) : (s.count k).pot = s.pot := rfl
@[simp] theorem State.count_access (k : Nat) : (s.count k).access = s.access := rfl
@[simp] theorem State.count_changes (k : Nat) : (s.count k).changes = s.changes := rfl
@[simp] theorem State.count_offers (k : Nat) : (s.count k).offers = s.offers := rfl
@[simp] theorem State.count_groups (k : Nat) : (s.count k).groups = s.groups := rfl
@[simp] theorem State.count_rr (k : Nat) : (s.count k).rr = s.rr := rfl
@[simp] theorem State.count_blocks (k : Nat) : (s.count k).blocks = s.blocks := rfl
@[simp] theorem State.count_chains (k : Nat) : (s.count k).chains = s.chains := rfl
@[simp] theorem State.count_launches (k : Nat) : (s.count k).launches = s.launches := rfl
@[simp] theorem State.count_parts (k : Nat) : (s.count k).parts = s.parts := rfl
@[simp] theorem State.count_worlds (k : Nat) : (s.count k).worlds = s.worlds := rfl
@[simp] theorem State.count_bulks (k : Nat) : (s.count k).bulks = s.bulks := rfl
@[simp] theorem State.count_galleys (k : Nat) : (s.count k).galleys = s.galleys := rfl
@[simp] theorem State.count_safeKeys (k : Nat) : (s.count k).safeKeys = s.safeKeys := rfl
@[simp] theorem State.count_translating (k : Nat) : (s.count k).translating = s.translating := rfl
@[simp] theorem State.count_frozen (k : Nat) : (s.count k).frozen = s.frozen := rfl
@[simp] theorem State.count_boot (k : Nat) : (s.count k).boot = s.boot := rfl
@[simp] theorem State.count_firmware (k : Nat) : (s.count k).firmware = s.firmware := rfl
@[simp] theorem State.count_staged (k : Nat) : (s.count k).staged = s.staged := rfl
@[simp] theorem State.count_fused (k : Nat) : (s.count k).fused = s.fused := rfl
@[simp] theorem State.count_stored (k : Nat) : (s.count k).stored = s.stored := rfl
@[simp] theorem State.count_ports (k : Nat) : (s.count k).ports = s.ports := rfl
@[simp] theorem State.count_reply (k : Nat) : (s.count k).reply = s.reply := rfl
@[simp] theorem State.count_mgmt (k : Nat) : (s.count k).mgmt = s.mgmt := rfl
@[simp] theorem State.count_agenda (k : Nat) : (s.count k).agenda = s.agenda := rfl
@[simp] theorem State.count_issuer (k : Nat) : (s.count k).issuer = s.issuer := rfl
@[simp] theorem State.count_engine (k : Nat) : (s.count k).engine = s.engine := rfl
@[simp] theorem State.count_cmd (k : Nat) : (s.count k).cmd = s.cmd := rfl

/-! ### What is found after an update -/

/-- Finding an entry by its key after a map that keeps the keys and changes those of one key. -/
theorem find_map_keep {α : Type} (l : List α) (p q : α → Bool) (f : α → α) (hf : ∀ x, p (f x) = p x) :
    (l.map fun x => if q x then f x else x).find? p = (l.find? p).map fun x => if q x then f x else x := by
  induction l with
  | nil => rfl
  | cons x xs ih =>
    simp only [List.map_cons, List.find?_cons]
    have h : p (if q x then f x else x) = p x := by split <;> simp [hf]
    rw [h]
    cases p x <;> simp [ih]

theorem State.group?_key {k : Gid} {x : Group} (h : s.group? k = some x) : x.gid = k := by
  simpa using List.find?_some h

theorem State.group?_modGroup (k j : Gid) (f : Group → Group) (hf : ∀ x, (f x).gid = x.gid) :
    (s.modGroup k f).group? j = if j = k then (s.group? j).map f else s.group? j := by
  unfold State.modGroup State.group?
  have h := find_map_keep s.groups (fun x => decide (x.gid = j)) (fun x => decide (x.gid = k)) f (fun x => by simp [hf])
  simp only [decide_eq_true_eq] at h
  rw [h]
  cases hx : s.groups.find? (fun x => decide (x.gid = j)) with
  | none => simp
  | some x =>
    have hk : x.gid = j := by simpa using List.find?_some hx
    by_cases hjk : j = k <;> simp [hk, hjk]

theorem State.launch?_key {k : Nat} {x : Launch} (h : s.launch? k = some x) : x.lid = k := by
  simpa using List.find?_some h

theorem State.launch?_modLaunch (k j : Nat) (f : Launch → Launch) (hf : ∀ x, (f x).lid = x.lid) :
    (s.modLaunch k f).launch? j = if j = k then (s.launch? j).map f else s.launch? j := by
  unfold State.modLaunch State.launch?
  have h := find_map_keep s.launches (fun x => decide (x.lid = j)) (fun x => decide (x.lid = k)) f (fun x => by simp [hf])
  simp only [decide_eq_true_eq] at h
  rw [h]
  cases hx : s.launches.find? (fun x => decide (x.lid = j)) with
  | none => simp
  | some x =>
    have hk : x.lid = j := by simpa using List.find?_some hx
    by_cases hjk : j = k <;> simp [hk, hjk]

theorem State.chain?_key {k : Nat} {x : Chain} (h : s.chain? k = some x) : x.id = k := by
  simpa using List.find?_some h

theorem State.chain?_modChain (k j : Nat) (f : Chain → Chain) (hf : ∀ x, (f x).id = x.id) :
    (s.modChain k f).chain? j = if j = k then (s.chain? j).map f else s.chain? j := by
  unfold State.modChain State.chain?
  have h := find_map_keep s.chains (fun x => decide (x.id = j)) (fun x => decide (x.id = k)) f (fun x => by simp [hf])
  simp only [decide_eq_true_eq] at h
  rw [h]
  cases hx : s.chains.find? (fun x => decide (x.id = j)) with
  | none => simp
  | some x =>
    have hk : x.id = j := by simpa using List.find?_some hx
    by_cases hjk : j = k <;> simp [hk, hjk]

theorem State.world?_key {k : Nat} {x : World} (h : s.world? k = some x) : x.w = k := by
  simpa using List.find?_some h

theorem State.world?_modWorld (k j : Nat) (f : World → World) (hf : ∀ x, (f x).w = x.w) :
    (s.modWorld k f).world? j = if j = k then (s.world? j).map f else s.world? j := by
  unfold State.modWorld State.world?
  have h := find_map_keep s.worlds (fun x => decide (x.w = j)) (fun x => decide (x.w = k)) f (fun x => by simp [hf])
  simp only [decide_eq_true_eq] at h
  rw [h]
  cases hx : s.worlds.find? (fun x => decide (x.w = j)) with
  | none => simp
  | some x =>
    have hk : x.w = j := by simpa using List.find?_some hx
    by_cases hjk : j = k <;> simp [hk, hjk]

theorem State.part?_key {k : Nat} {x : Partition} (h : s.part? k = some x) : x.id = k := by
  simpa using List.find?_some h

theorem State.part?_modPart (k j : Nat) (f : Partition → Partition) (hf : ∀ x, (f x).id = x.id) :
    (s.modPart k f).part? j = if j = k then (s.part? j).map f else s.part? j := by
  unfold State.modPart State.part?
  have h := find_map_keep s.parts (fun x => decide (x.id = j)) (fun x => decide (x.id = k)) f (fun x => by simp [hf])
  simp only [decide_eq_true_eq] at h
  rw [h]
  cases hx : s.parts.find? (fun x => decide (x.id = j)) with
  | none => simp
  | some x =>
    have hk : x.id = j := by simpa using List.find?_some hx
    by_cases hjk : j = k <;> simp [hk, hjk]

theorem State.bulk?_key {k : Nat} {x : Bulk} (h : s.bulk? k = some x) : x.b = k := by
  simpa using List.find?_some h

theorem State.bulk?_modBulk (k j : Nat) (f : Bulk → Bulk) (hf : ∀ x, (f x).b = x.b) :
    (s.modBulk k f).bulk? j = if j = k then (s.bulk? j).map f else s.bulk? j := by
  unfold State.modBulk State.bulk?
  have h := find_map_keep s.bulks (fun x => decide (x.b = j)) (fun x => decide (x.b = k)) f (fun x => by simp [hf])
  simp only [decide_eq_true_eq] at h
  rw [h]
  cases hx : s.bulks.find? (fun x => decide (x.b = j)) with
  | none => simp
  | some x =>
    have hk : x.b = j := by simpa using List.find?_some hx
    by_cases hjk : j = k <;> simp [hk, hjk]

theorem State.block?_key {l i : Nat} {x : Block} (h : s.block? l i = some x) : x.lid = l ∧ x.idx = i := by
  simpa using List.find?_some h

theorem State.block?_modBlock (l i l' i' : Nat) (f : Block → Block) (hf : ∀ x, (f x).lid = x.lid ∧ (f x).idx = x.idx) :
    (s.modBlock l i f).block? l' i' = if l' = l ∧ i' = i then (s.block? l' i').map f else s.block? l' i' := by
  unfold State.modBlock State.block?
  have h := find_map_keep s.blocks (fun x => decide (x.lid = l') && decide (x.idx = i')) (fun x => decide (x.lid = l) && decide (x.idx = i)) f
    (fun x => by simp [hf])
  rw [h]
  cases hx : s.blocks.find? (fun x => decide (x.lid = l') && decide (x.idx = i')) with
  | none => simp
  | some x =>
    have hk : x.lid = l' ∧ x.idx = i' := by simpa using List.find?_some hx
    by_cases hjk : l' = l ∧ i' = i <;> simp [hk, hjk]

@[simp] theorem State.modGroup_block? (g : Gid) (f : Group → Group) (la lb : Nat) : (s.modGroup g f).block? la lb = s.block? la lb := rfl
@[simp] theorem State.modGroup_launch? (g : Gid) (f : Group → Group) (key : Nat) : (s.modGroup g f).launch? key = s.launch? key := rfl
@[simp] theorem State.modGroup_chain? (g : Gid) (f : Group → Group) (key : Nat) : (s.modGroup g f).chain? key = s.chain? key := rfl
@[simp] theorem State.modGroup_world? (g : Gid) (f : Group → Group) (key : Nat) : (s.modGroup g f).world? key = s.world? key := rfl
@[simp] theorem State.modGroup_part? (g : Gid) (f : Group → Group) (key : Nat) : (s.modGroup g f).part? key = s.part? key := rfl
@[simp] theorem State.modGroup_bulk? (g : Gid) (f : Group → Group) (key : Nat) : (s.modGroup g f).bulk? key = s.bulk? key := rfl
@[simp] theorem State.modBlock_group? (l i : Nat) (f : Block → Block) (key : Gid) : (s.modBlock l i f).group? key = s.group? key := rfl
@[simp] theorem State.modBlock_launch? (l i : Nat) (f : Block → Block) (key : Nat) : (s.modBlock l i f).launch? key = s.launch? key := rfl
@[simp] theorem State.modBlock_chain? (l i : Nat) (f : Block → Block) (key : Nat) : (s.modBlock l i f).chain? key = s.chain? key := rfl
@[simp] theorem State.modBlock_world? (l i : Nat) (f : Block → Block) (key : Nat) : (s.modBlock l i f).world? key = s.world? key := rfl
@[simp] theorem State.modBlock_part? (l i : Nat) (f : Block → Block) (key : Nat) : (s.modBlock l i f).part? key = s.part? key := rfl
@[simp] theorem State.modBlock_bulk? (l i : Nat) (f : Block → Block) (key : Nat) : (s.modBlock l i f).bulk? key = s.bulk? key := rfl
@[simp] theorem State.modLaunch_group? (l : Nat) (f : Launch → Launch) (key : Gid) : (s.modLaunch l f).group? key = s.group? key := rfl
@[simp] theorem State.modLaunch_block? (l : Nat) (f : Launch → Launch) (la lb : Nat) : (s.modLaunch l f).block? la lb = s.block? la lb := rfl
@[simp] theorem State.modLaunch_chain? (l : Nat) (f : Launch → Launch) (key : Nat) : (s.modLaunch l f).chain? key = s.chain? key := rfl
@[simp] theorem State.modLaunch_world? (l : Nat) (f : Launch → Launch) (key : Nat) : (s.modLaunch l f).world? key = s.world? key := rfl
@[simp] theorem State.modLaunch_part? (l : Nat) (f : Launch → Launch) (key : Nat) : (s.modLaunch l f).part? key = s.part? key := rfl
@[simp] theorem State.modLaunch_bulk? (l : Nat) (f : Launch → Launch) (key : Nat) : (s.modLaunch l f).bulk? key = s.bulk? key := rfl
@[simp] theorem State.modChain_group? (i : Nat) (f : Chain → Chain) (key : Gid) : (s.modChain i f).group? key = s.group? key := rfl
@[simp] theorem State.modChain_block? (i : Nat) (f : Chain → Chain) (la lb : Nat) : (s.modChain i f).block? la lb = s.block? la lb := rfl
@[simp] theorem State.modChain_launch? (i : Nat) (f : Chain → Chain) (key : Nat) : (s.modChain i f).launch? key = s.launch? key := rfl
@[simp] theorem State.modChain_world? (i : Nat) (f : Chain → Chain) (key : Nat) : (s.modChain i f).world? key = s.world? key := rfl
@[simp] theorem State.modChain_part? (i : Nat) (f : Chain → Chain) (key : Nat) : (s.modChain i f).part? key = s.part? key := rfl
@[simp] theorem State.modChain_bulk? (i : Nat) (f : Chain → Chain) (key : Nat) : (s.modChain i f).bulk? key = s.bulk? key := rfl
@[simp] theorem State.modWorld_group? (w : Nat) (f : World → World) (key : Gid) : (s.modWorld w f).group? key = s.group? key := rfl
@[simp] theorem State.modWorld_block? (w : Nat) (f : World → World) (la lb : Nat) : (s.modWorld w f).block? la lb = s.block? la lb := rfl
@[simp] theorem State.modWorld_launch? (w : Nat) (f : World → World) (key : Nat) : (s.modWorld w f).launch? key = s.launch? key := rfl
@[simp] theorem State.modWorld_chain? (w : Nat) (f : World → World) (key : Nat) : (s.modWorld w f).chain? key = s.chain? key := rfl
@[simp] theorem State.modWorld_part? (w : Nat) (f : World → World) (key : Nat) : (s.modWorld w f).part? key = s.part? key := rfl
@[simp] theorem State.modWorld_bulk? (w : Nat) (f : World → World) (key : Nat) : (s.modWorld w f).bulk? key = s.bulk? key := rfl
@[simp] theorem State.modPart_group? (p : Nat) (f : Partition → Partition) (key : Gid) : (s.modPart p f).group? key = s.group? key := rfl
@[simp] theorem State.modPart_block? (p : Nat) (f : Partition → Partition) (la lb : Nat) : (s.modPart p f).block? la lb = s.block? la lb := rfl
@[simp] theorem State.modPart_launch? (p : Nat) (f : Partition → Partition) (key : Nat) : (s.modPart p f).launch? key = s.launch? key := rfl
@[simp] theorem State.modPart_chain? (p : Nat) (f : Partition → Partition) (key : Nat) : (s.modPart p f).chain? key = s.chain? key := rfl
@[simp] theorem State.modPart_world? (p : Nat) (f : Partition → Partition) (key : Nat) : (s.modPart p f).world? key = s.world? key := rfl
@[simp] theorem State.modPart_bulk? (p : Nat) (f : Partition → Partition) (key : Nat) : (s.modPart p f).bulk? key = s.bulk? key := rfl
@[simp] theorem State.modBulk_group? (b : Nat) (f : Bulk → Bulk) (key : Gid) : (s.modBulk b f).group? key = s.group? key := rfl
@[simp] theorem State.modBulk_block? (b : Nat) (f : Bulk → Bulk) (la lb : Nat) : (s.modBulk b f).block? la lb = s.block? la lb := rfl
@[simp] theorem State.modBulk_launch? (b : Nat) (f : Bulk → Bulk) (key : Nat) : (s.modBulk b f).launch? key = s.launch? key := rfl
@[simp] theorem State.modBulk_chain? (b : Nat) (f : Bulk → Bulk) (key : Nat) : (s.modBulk b f).chain? key = s.chain? key := rfl
@[simp] theorem State.modBulk_world? (b : Nat) (f : Bulk → Bulk) (key : Nat) : (s.modBulk b f).world? key = s.world? key := rfl
@[simp] theorem State.modBulk_part? (b : Nat) (f : Bulk → Bulk) (key : Nat) : (s.modBulk b f).part? key = s.part? key := rfl
@[simp] theorem State.ember_group? (b code core wld : Nat) (data : DWord) (key : Gid) : (s.ember b code core wld data).group? key = s.group? key := rfl
@[simp] theorem State.ember_block? (b code core wld : Nat) (data : DWord) (la lb : Nat) : (s.ember b code core wld data).block? la lb = s.block? la lb := rfl
@[simp] theorem State.ember_launch? (b code core wld : Nat) (data : DWord) (key : Nat) : (s.ember b code core wld data).launch? key = s.launch? key := rfl
@[simp] theorem State.ember_chain? (b code core wld : Nat) (data : DWord) (key : Nat) : (s.ember b code core wld data).chain? key = s.chain? key := rfl
@[simp] theorem State.ember_world? (b code core wld : Nat) (data : DWord) (key : Nat) : (s.ember b code core wld data).world? key = s.world? key := rfl
@[simp] theorem State.ember_part? (b code core wld : Nat) (data : DWord) (key : Nat) : (s.ember b code core wld data).part? key = s.part? key := rfl
@[simp] theorem State.count_group? (k : Nat) (key : Gid) : (s.count k).group? key = s.group? key := rfl
@[simp] theorem State.count_block? (k : Nat) (la lb : Nat) : (s.count k).block? la lb = s.block? la lb := rfl
@[simp] theorem State.count_launch? (k : Nat) (key : Nat) : (s.count k).launch? key = s.launch? key := rfl
@[simp] theorem State.count_chain? (k : Nat) (key : Nat) : (s.count k).chain? key = s.chain? key := rfl
@[simp] theorem State.count_world? (k : Nat) (key : Nat) : (s.count k).world? key = s.world? key := rfl
@[simp] theorem State.count_part? (k : Nat) (key : Nat) : (s.count k).part? key = s.part? key := rfl
@[simp] theorem State.count_bulk? (k : Nat) (key : Nat) : (s.count k).bulk? key = s.bulk? key := rfl

end Sys2Proof.Machine
end

