-- ==== Sys2Proof/Laws/Operands.lean ====
section
/-! SUPPORT. What the shared shape of register forms does: everything that reading operands, writing lanes and retiring can change. -/

namespace Sys2Proof.Machine

/-! ### Lanes -/

theorem mem_lanes {m : Mask} {l : Nat} : l ∈ lanes m ↔ inMask m l = true := by
  unfold lanes inMask
  simp only [List.mem_filter, List.mem_range]
  constructor
  · exact fun h => h.2
  · intro h
    exact ⟨BitVec.lt_of_getLsbD h, h⟩

theorem lanes_nodup (m : Mask) : (lanes m).Nodup := List.Nodup.filter _ List.nodup_range

theorem lanes_lt {m : Mask} {l : Nat} (h : l ∈ lanes m) : l < 64 := by
  unfold lanes at h
  simpa using (List.mem_filter.mp h).1

theorem lanes_ne_nil {m : Mask} (h : m ≠ 0) : lanes m ≠ [] := by
  intro hn
  apply h
  apply BitVec.eq_of_getLsbD_eq
  intro i hi
  have : i ∉ lanes m := by simp [hn]
  rw [mem_lanes] at this
  simpa [inMask] using this

/-! ### One lane after another -/

/-- Updates of keys of one lane each: the lanes' keys are apart. -/
theorem get_foldl_lanes {w : Nat} (U : SMap w → Nat → SMap w) (P : Nat → Nat → Prop) [∀ k l, Decidable (P k l)] (V : Nat → Nat → BitVec w → BitVec w)
    (lane : Nat → Nat) (hU : ∀ m l k, l < 64 → SMap.get (U m l) k = if lane k = l ∧ P k l then V k l (SMap.get m k) else SMap.get m k)
    (act : Mask) (m : SMap w) (k : Nat) :
    SMap.get ((lanes act).foldl U m) k = if inMask act (lane k) ∧ P k (lane k) then V k (lane k) (SMap.get m k) else SMap.get m k := by
  have key : ∀ (ls : List Nat), ls.Nodup → (∀ l ∈ ls, l < 64) → ∀ m : SMap w,
      SMap.get (ls.foldl U m) k = if lane k ∈ ls ∧ P k (lane k) then V k (lane k) (SMap.get m k) else SMap.get m k := by
    intro ls
    induction ls with
    | nil => intros; simp
    | cons a as ih =>
      intro hn h64 m
      obtain ⟨ha, hn⟩ := List.nodup_cons.mp hn
      rw [List.foldl_cons, ih hn (fun l h => h64 l (List.mem_cons_of_mem _ h)), hU _ _ _ (h64 a List.mem_cons_self)]
      by_cases h1 : lane k = a
      · subst h1
        by_cases hp : P k (lane k) <;> simp [ha, hp]
      · by_cases hp : P k (lane k) <;> simp [h1, hp]
  rw [key _ (lanes_nodup act) (fun l h => lanes_lt h)]
  simp only [mem_lanes]

theorem writeReg_v (g : Group) (w64 : Bool) (fresh k lane n : Nat) (x : DWord) (h1 : g.hazard w64 n = false)
    (h2 : k = 2 → g.hazard w64 (n + 1) = false) :
    g.writeReg w64 fresh k lane ⟨.v, n⟩ x =
      { g with v := if k = 2 then SMap.set (SMap.set g.v (n * 64 + lane) (x.setWidth 32)) ((n + 1) * 64 + lane) (x.extractLsb' 32 32)
                    else SMap.set g.v (n * 64 + lane) (x.setWidth 32) } := by
  unfold Group.writeReg Group.writeV
  by_cases hk : k = 2
  · have h3 : ∀ m : SMap 32, ({ g with v := m } : Group).hazard w64 (n + 1) = false := fun _ => h2 hk
    simp [hk, h1, h3]
  · simp [hk, h1]

/-! ### The parts of `writeLanes` -/

section Lanes

variable (c : Ctx) (fresh : Nat) (d : Option (Opnd × Nat)) (f : Nat → LaneOut)

/-- The predicate map after one lane. -/
def laneP (m : SMap 8) (l : Nat) : SMap 8 :=
  match (f l).p with
  | none => m
  | some (i, v) =>
    if i = 0 then m
    else SMap.set m l (BitVec.ofNat 8 ((SMap.get m l).toNat - field (SMap.get m l).toNat i 1 * 2 ^ i + b2n v * 2 ^ i))

def laneF (m : SMap 32) (l : Nat) : SMap 32 := if (f l).fl = 0 then m else SMap.set m l (SMap.get m l ||| (f l).fl)

def laneV (m : SMap 32) (l : Nat) : SMap 32 :=
  match d with
  | some (⟨.v, n⟩, k) =>
    if k = 2 then SMap.set (SMap.set m (n * 64 + l) ((f l).d.setWidth 32)) ((n + 1) * 64 + l) ((f l).d.extractLsb' 32 32)
    else SMap.set m (n * 64 + l) ((f l).d.setWidth 32)
  | _ => m

def laneH (m : SMap 64) (l : Nat) : SMap 64 :=
  match d with
  | some (⟨.h, n⟩, _) => SMap.set m (n * 64 + l) (f l).d
  | _ => m

/-- The s map after the lowest lane. -/
def laneS (m : SMap 32) (ls : List Nat) : SMap 32 :=
  match d, ls with
  | some (⟨.s, n⟩, k), l :: _ =>
    if k = 2 then SMap.set (SMap.set m n ((f l).d.setWidth 32)) (n + 1) ((f l).d.extractLsb' 32 32) else SMap.set m n ((f l).d.setWidth 32)
  | _, _ => m

/-- What one lane writes. -/
def laneStep (g : Group) (l : Nat) : Group :=
  let o := f l
  let g := match o.p with | none => g | some (i, v) => g.setPred l i v
  let g := if o.fl = 0 then g else g.flag l o.fl
  match d with
  | some (dst, k) => if dst.cls = .v || dst.cls = .h then g.writeReg c.w64 fresh k l dst o.d else g
  | none => g

/-- One lane changes the register maps alone, each map by itself. -/
theorem laneStep_eq (g : Group) (l : Nat)
    (hz : ∀ n k, d = some (⟨.v, n⟩, k) → g.hazard c.w64 n = false ∧ (k = 2 → g.hazard c.w64 (n + 1) = false)) :
    laneStep c fresh d f g l =
      { g with p := laneP f g.p l, fpst := laneF f g.fpst l, v := laneV d f g.v l, h := laneH d f g.h l } := by
  have hp : (match (f l).p with | none => g | some (i, v) => g.setPred l i v) = { g with p := laneP f g.p l } := by
    unfold laneP Group.setPred
    split
    · rfl
    · split <;> rfl
  have hf : (if (f l).fl = 0 then { g with p := laneP f g.p l } else ({ g with p := laneP f g.p l } : Group).flag l (f l).fl) =
      { g with p := laneP f g.p l, fpst := laneF f g.fpst l } := by
    unfold laneF Group.flag
    split <;> rfl
  unfold laneStep
  simp only []
  rw [hp, hf]
  rcases hd : d with _ | ⟨⟨cl, n⟩, k⟩
  · rfl
  · cases cl
    · obtain ⟨h1, h2⟩ := hz n k hd
      have := writeReg_v { g with p := laneP f g.p l, fpst := laneF f g.fpst l } c.w64 fresh k l n (f l).d h1 h2
      simp only [laneV, laneH]
      simpa using this
    · rfl
    · simp [laneV, laneH, Group.writeReg]
    · rfl

theorem foldl_laneStep (ls : List Nat) (g : Group)
    (hz : ∀ n k, d = some (⟨.v, n⟩, k) → g.hazard c.w64 n = false ∧ (k = 2 → g.hazard c.w64 (n + 1) = false)) :
    ls.foldl (laneStep c fresh d f) g =
      { g with p := ls.foldl (laneP f) g.p, fpst := ls.foldl (laneF f) g.fpst, v := ls.foldl (laneV d f) g.v, h := ls.foldl (laneH d f) g.h } := by
  induction ls generalizing g with
  | nil => rfl
  | cons l ls ih =>
    rw [List.foldl_cons, laneStep_eq c fresh d f g l hz]
    exact ih _ hz

/-- Writing lanes: one lane after another, then an s destination from the lowest. -/
theorem writeLanes_steps (ls : List Nat) (g : Group) :
    c.writeLanes fresh d f ls g =
      match d, ls with
      | some (dst, k), l :: _ => if dst.cls = .s then (ls.foldl (laneStep c fresh d f) g).writeReg c.w64 fresh k l dst (f l).d
          else ls.foldl (laneStep c fresh d f) g
      | _, _ => ls.foldl (laneStep c fresh d f) g := by
  rcases d with _ | ⟨⟨cl, n⟩, k⟩ <;> cases ls <;> rfl

/-- Writing lanes changes the register maps alone, each map by itself. -/
theorem writeLanes_eq (g : Group) (ls : List Nat)
    (hz : ∀ n k, d = some (⟨.v, n⟩, k) → g.hazard c.w64 n = false ∧ (k = 2 → g.hazard c.w64 (n + 1) = false)) :
    c.writeLanes fresh d f ls g =
      { g with p := ls.foldl (laneP f) g.p, fpst := ls.foldl (laneF f) g.fpst, v := ls.foldl (laneV d f) g.v, h := ls.foldl (laneH d f) g.h,
               s := laneS d f g.s ls } := by
  rw [writeLanes_steps, foldl_laneStep c fresh d f ls g hz]
  rcases d with _ | ⟨⟨cl, n⟩, k⟩
  · rfl
  · cases ls with
    | nil => cases cl <;> rfl
    | cons l ls =>
      cases cl
      · rfl
      · simp only [laneS, Group.writeReg]
        by_cases hk : k = 2 <;> simp [hk]
      · rfl
      · rfl

/-! ### What each map holds afterwards -/

theorem foldl_same {α β : Type} (g : α → β → α) (h : ∀ a b, g a b = a) (l : List β) (a : α) : l.foldl g a = a := by
  induction l generalizing a with
  | nil => rfl
  | cons b l ih => rw [List.foldl_cons, h, ih]

theorem get_laneV (m : SMap 32) (act : Mask) (r l : Nat) (hl : l < 64) :
    SMap.get ((lanes act).foldl (laneV d f) m) (r * 64 + l) =
      match d with
      | some (⟨.v, n⟩, k) =>
        if inMask act l ∧ r = n then (f l).d.setWidth 32
        else if inMask act l ∧ k = 2 ∧ r = n + 1 then (f l).d.extractLsb' 32 32
        else SMap.get m (r * 64 + l)
      | _ => SMap.get m (r * 64 + l) := by
  rcases d with _ | ⟨⟨cl, n⟩, k⟩
  · rw [foldl_same]
    intros; rfl
  · cases cl with
    | v =>
      have hd : (r * 64 + l) / 64 = r ∧ (r * 64 + l) % 64 = l := by omega
      rw [get_foldl_lanes (laneV (some (⟨.v, n⟩, k)) f) (fun q _ => q / 64 = n ∨ (k = 2 ∧ q / 64 = n + 1))
        (fun q l _ => if q / 64 = n then (f l).d.setWidth 32 else (f l).d.extractLsb' 32 32) (fun q => q % 64)]
      · simp only [hd]
        by_cases h1 : inMask act l = true <;> by_cases h2 : r = n <;> by_cases h3 : k = 2 ∧ r = n + 1 <;> simp [h1, h2, h3]
      · intro m' j q hj
        simp only [laneV]
        have e1 : q = n * 64 + j ↔ q % 64 = j ∧ q / 64 = n := by omega
        have e2 : q = (n + 1) * 64 + j ↔ q % 64 = j ∧ q / 64 = n + 1 := by omega
        by_cases hk : k = 2
        · simp only [hk, if_true, SMap.get_set, e1, e2, true_and]
          by_cases a1 : q % 64 = j <;> by_cases a2 : q / 64 = n <;> by_cases a3 : q / 64 = n + 1 <;> simp_all
        · simp only [hk, if_false, SMap.get_set, e1, false_and, or_false]
          by_cases a1 : q % 64 = j <;> by_cases a2 : q / 64 = n <;> simp_all
    | s => rw [foldl_same]; intros; rfl
    | h => rw [foldl_same]; intros; rfl
    | q => rw [foldl_same]; intros; rfl

theorem get_laneH (m : SMap 64) (act : Mask) (r l : Nat) (hl : l < 64) :
    SMap.get ((lanes act).foldl (laneH d f) m) (r * 64 + l) =
      match d with
      | some (⟨.h, n⟩, _) => if inMask act l ∧ r = n then (f l).d else SMap.get m (r * 64 + l)
      | _ => SMap.get m (r * 64 + l) := by
  rcases d with _ | ⟨⟨cl, n⟩, k⟩
  · rw [foldl_same]
    intros; rfl
  · cases cl with
    | h =>
      have hd : (r * 64 + l) / 64 = r ∧ (r * 64 + l) % 64 = l := by omega
      rw [get_foldl_lanes (laneH (some (⟨.h, n⟩, k)) f) (fun q _ => q / 64 = n) (fun _ l _ => (f l).d) (fun q => q % 64)]
      · simp only [hd]
      · intro m' j q hj
        simp only [laneH]
        have e1 : q = n * 64 + j ↔ q % 64 = j ∧ q / 64 = n := by omega
        simp only [SMap.get_set, e1]
    | s => rw [foldl_same]; intros; rfl
    | v => rw [foldl_same]; intros; rfl
    | q => rw [foldl_same]; intros; rfl

theorem get_laneF (m : SMap 32) (act : Mask) (l : Nat) :
    SMap.get ((lanes act).foldl (laneF f) m) l = if inMask act l then SMap.get m l ||| (f l).fl else SMap.get m l := by
  rw [get_foldl_lanes (laneF f) (fun _ _ => True) (fun _ l x => x ||| (f l).fl) id]
  · simp
  · intro m' j q _
    unfold laneF
    split
    · rename_i h
      by_cases hq : q = j
      · subst hq
        rw [h]
        simp
      · simp [hq]
    · by_cases hq : q = j <;> simp [hq, SMap.get_set]

/-- One bit of a byte replaced; a bit beyond the byte replaces nothing. -/
theorem bit_replaced (x : BitVec 8) (i j : Nat) (v : Bool) (hj : j < 8) :
    (BitVec.ofNat 8 (x.toNat - field x.toNat i 1 * 2 ^ i + b2n v * 2 ^ i)).getLsbD j = if j = i then v else x.getLsbD j := by
  by_cases hi : i < 8
  · revert x v
    have : ∀ i < 8, ∀ j < 8, ∀ x : BitVec 8, ∀ v : Bool,
        (BitVec.ofNat 8 (x.toNat - field x.toNat i 1 * 2 ^ i + b2n v * 2 ^ i)).getLsbD j = if j = i then v else x.getLsbD j := by decide +kernel
    exact this i hi j hj
  · have h0 : field x.toNat i 1 = 0 := by
      have hx := x.isLt
      have h2 : (2 : Nat) ^ 8 ≤ 2 ^ i := Nat.pow_le_pow_right (by decide) (by omega)
      unfold field
      rw [Nat.div_eq_of_lt (by omega)]
      simp
    have h1 : b2n v * 2 ^ i % 2 ^ 8 = 0 := by
      obtain ⟨k, hk⟩ : ∃ k, i = 8 + k := ⟨i - 8, by omega⟩
      rw [hk, Nat.pow_add, ← Nat.mul_assoc, Nat.mul_right_comm]
      exact Nat.mul_mod_left _ _
    have h2 : BitVec.ofNat 8 (x.toNat - field x.toNat i 1 * 2 ^ i + b2n v * 2 ^ i) = x := by
      apply BitVec.eq_of_toNat_eq
      rw [h0, BitVec.toNat_ofNat, Nat.zero_mul, Nat.sub_zero, Nat.add_mod, h1]
      have hx := x.isLt
      omega
    rw [h2, if_neg (by omega)]

/-- The predicates of a lane afterwards (R265). -/
theorem get_laneP (g : Group) (act : Mask) (l i : Nat) (hi : i < 8) :
    ({ g with p := (lanes act).foldl (laneP f) g.p } : Group).pred l i =
      match (f l).p with
      | some (j, v) => if inMask act l ∧ i = j ∧ j ≠ 0 then v else g.pred l i
      | none => g.pred l i := by
  have key := get_foldl_lanes (laneP f) (fun _ l => (f l).p.isSome ∧ ((f l).p.getD (0, false)).1 ≠ 0)
    (fun _ l x => BitVec.ofNat 8 (x.toNat - field x.toNat ((f l).p.getD (0, false)).1 1 * 2 ^ ((f l).p.getD (0, false)).1 +
      b2n ((f l).p.getD (0, false)).2 * 2 ^ ((f l).p.getD (0, false)).1)) id
    (by
      intro m' j q _
      unfold laneP
      rcases hj : (f j).p with _ | ⟨n, v⟩
      · by_cases hq : q = j <;> simp [hq]
      · by_cases hn : n = 0
        · by_cases hq : q = j <;> simp [hq, hn]
        · by_cases hq : q = j <;> simp [hq, hn, SMap.get_set]) act g.p l
  unfold Group.pred
  simp only [key, id]
  rcases hl : (f l).p with _ | ⟨n, v⟩
  · simp
  · by_cases hn : n = 0
    · simp [hn]
    · by_cases ha : inMask act l = true
      · simp only [Option.isSome_some, Option.getD_some, ha, hn, ne_eq, not_false_eq_true, and_self, if_true, true_and]
        rw [bit_replaced _ _ _ _ hi]
        by_cases hin : i = n
        · subst hin
          simp [hn]
        · simp [hin]
      · simp [ha]

/-- The s registers afterwards: the value of the lowest lane (R182). -/
theorem get_laneS (m : SMap 32) (act : Mask) (r : Nat) (ha : act ≠ 0) :
    SMap.get (laneS d f m (lanes act)) r =
      match d with
      | some (⟨.s, n⟩, k) =>
        let l := (lanes act).headD 0
        if k = 2 ∧ r = n + 1 then (f l).d.extractLsb' 32 32
        else if r = n then (f l).d.setWidth 32
        else SMap.get m r
      | _ => SMap.get m r := by
  rcases d with _ | ⟨⟨cl, n⟩, k⟩
  · rfl
  · cases hls : lanes act with
    | nil => exact absurd hls (lanes_ne_nil ha)
    | cons l ls =>
      cases cl
      · rfl
      · simp only [laneS, List.headD_cons]
        by_cases hk : k = 2
        · simp only [hk, if_true, SMap.get_set, true_and]
        · simp only [hk, if_false, SMap.get_set, false_and]
      · rfl
      · rfl

end Lanes

/-! ### Retiring -/

/-- A fragment added to a PC table is in it, alone or merged. -/
theorem mem_addFrag (hl : Mask) (fs : List Frag) (f : Frag) (hf : f.mask ≠ 0) :
    ∃ x ∈ addFrag hl fs f, x.pc = f.pc ∧ f.mask &&& ~~~ x.mask = 0 := by
  induction fs with
  | nil =>
    refine ⟨f, ?_, rfl, by simp⟩
    unfold addFrag
    rw [if_neg hf]
    exact List.mem_singleton_self f
  | cons x xs ih =>
    unfold addFrag
    rw [if_neg hf]
    split
    · rename_i hj
      refine ⟨_, List.mem_cons_self, ?_, ?_⟩
      · simp only [Frag.joins, Bool.and_eq_true, decide_eq_true_eq] at hj
        exact hj.1.1
      · simp only []
        apply BitVec.eq_of_getLsbD_eq
        intro i hi
        simp only [BitVec.getLsbD_and, BitVec.getLsbD_not, BitVec.getLsbD_or]
        cases f.mask.getLsbD i <;> simp
    · obtain ⟨y, hy, h⟩ := ih
      exact ⟨y, List.mem_cons_of_mem _ hy, h⟩

@[simp] theorem keepMark_pc (old new : List Frag) (f : Frag) : (keepMark old new f).pc = f.pc := by unfold keepMark; split <;> rfl
@[simp] theorem keepMark_mask (old new : List Frag) (f : Frag) : (keepMark old new f).mask = f.mask := by unfold keepMark; split <;> rfl
@[simp] theorem keepMark_park (old new : List Frag) (f : Frag) : (keepMark old new f).park = f.park := by unfold keepMark; split <;> rfl

/-- What the fragments of a joined table have, but for their marks, the fragments of the table have that they come from. -/
theorem mem_joinFrags {P : Word → Mask → Option (Nat × Park) → Prop} {hl : Mask} {fs news : List Frag}
    (h : ∃ x ∈ addFrags hl fs news, P x.pc x.mask x.park) : ∃ x ∈ joinFrags hl fs news, P x.pc x.mask x.park := by
  obtain ⟨x, hx, hp⟩ := h
  exact ⟨_, List.mem_map_of_mem hx, by simpa using hp⟩

@[simp] theorem marked_pc (mark : Option Mask) (n : Frag) : (n.marked mark).pc = n.pc := by unfold Frag.marked; split <;> rfl
@[simp] theorem marked_mask (mark : Option Mask) (n : Frag) : (n.marked mark).mask = n.mask := by unfold Frag.marked; split <;> rfl
@[simp] theorem marked_park (mark : Option Mask) (n : Frag) : (n.marked mark).park = n.park := by unfold Frag.marked; split <;> rfl

/-- What a fragment that comes in has, but for its mark and its head count, one of those put into the table has. -/
theorem mem_coming {P : Word → Mask → Option (Nat × Park) → Prop} {mark : Option Mask} {head : Nat} {news : List Frag}
    (h : ∃ x ∈ news, P x.pc x.mask x.park) : ∃ x ∈ headed head (news.map (Frag.marked mark)), P x.pc x.mask x.park := by
  have hm : ∃ x ∈ news.map (Frag.marked mark), P x.pc x.mask x.park := by
    obtain ⟨x, hx, hp⟩ := h
    exact ⟨_, List.mem_map_of_mem hx, by simpa using hp⟩
  revert hm
  generalize news.map (Frag.marked mark) = ns
  intro hm
  match ns, hm with
  | [n], ⟨x, hx, hp⟩ =>
    rw [List.mem_singleton] at hx
    subst hx
    show ∃ y ∈ if x.park.isNone then [{ x with head := head }] else [x], P y.pc y.mask y.park
    cases x.park.isNone
    · exact ⟨_, List.mem_singleton_self _, hp⟩
    · exact ⟨_, List.mem_singleton_self _, hp⟩
  | a :: b :: r, hm => exact hm

/-- After an issue the lanes of the fragment stand at the PC of the fragment that comes in (R160). -/
theorem issued_one (g : Group) (pc : Word) (m : Mask) (n : Frag) (hn : n.mask ≠ 0) :
    ∃ f ∈ (g.issued pc m [n]).frags, f.pc = n.pc ∧ n.mask &&& ~~~ f.mask = 0 := by
  unfold Group.issued
  refine mem_joinFrags (P := fun pc mask _ => pc = n.pc ∧ n.mask &&& ~~~ mask = 0) ?_
  have key : ∀ (fs : List Frag) (x : Frag), x.pc = n.pc → x.mask = n.mask →
      ∃ z ∈ addFrags g.hlanes fs [x], z.pc = n.pc ∧ n.mask &&& ~~~ z.mask = 0 := by
    intro fs x hx hxm
    have := mem_addFrag g.hlanes fs x (by rw [hxm]; exact hn)
    rwa [hx, hxm] at this
  simp only [List.map_cons, List.map_nil, headed]
  split
  · exact key _ _ (by simp) (by simp)
  · exact key _ _ (by simp) (by simp)

theorem act_subset (c : Ctx) (hd : Hdr) {l : Nat} (h : inMask (c.act hd) l = true) : inMask c.is.mask l = true := by
  have key : ∀ ls : List Nat, (∀ x ∈ ls, x < 64) → inMask (maskOf ls) l = true → l ∈ ls := by
    intro ls
    induction ls with
    | nil => intro _ h; simp [maskOf, inMask] at h
    | cons a as ih =>
      intro h64 h
      simp only [maskOf, inMask, BitVec.getLsbD_or, Bool.or_eq_true] at h
      rcases h with h | h
      · have hl : l < 64 := BitVec.lt_of_getLsbD h
        simp only [BitVec.getLsbD_ofNat, Bool.and_eq_true, decide_eq_true_eq, Nat.testBit_two_pow] at h
        simp [h.2]
      · exact List.mem_cons_of_mem _ (ih (fun x hx => h64 x (List.mem_cons_of_mem _ hx)) h)
  have h2 := key _ (by intro x hx; exact lanes_lt (List.mem_filter.mp hx).1) h
  exact mem_lanes.mp (List.mem_filter.mp h2).1

theorem mask_ne_zero (c : Ctx) (hd : Hdr) (h : c.act hd ≠ 0) : c.is.mask ≠ 0 := by
  intro h0
  obtain ⟨l, hl⟩ := List.exists_mem_of_ne_nil _ (lanes_ne_nil h)
  have := act_subset c hd (mem_lanes.mp hl)
  simp [h0, inMask] at this

theorem ctx_parts {s : State} {c : Ctx} (h : s.ctx? = some c) :
    s.group? c.gid = some c.g ∧ s.block? c.gid.lid c.gid.blk = some c.b ∧ s.launch? c.gid.lid = some c.l ∧ s.issuer = some c.is := by
  unfold State.ctx? at h
  split at h
  · simp at h
  · rename_i is hi
    unfold State.ctxOf at h
    split at h
    · rename_i g b l hg hb hl
      simp only [Option.some.injEq] at h
      subst h
      exact ⟨hg, hb, hl, hi⟩
    · simp at h

theorem withIssuer_eq {s : State} {c : Ctx} (h : s.ctx? = some c) (f : Ctx → Out) : withIssuer s f = f c := by
  unfold withIssuer
  rw [h]

/-! ### The shared shape of register forms -/

section Shape

variable {s : State} {c : Ctx} {hd : Hdr} {d : Option (Opnd × Nat)} {b : Block} {srcs : List (Opnd × Nat)} {vs : List (Nat → DWord)}

/-- A group with new results that has issued: what `Delivered` says of it. -/
theorem delivered_group (fresh : Nat) (out : Nat → LaneOut) (ha : c.act hd ≠ 0) (hz : ClearOfMatrix c d) (g : Group)
    (hg : g = (c.writeLanes fresh d out (lanes (c.act hd)) { c.g with qwait := false }).issued c.is.pc c.is.mask [mkFrag c.after c.is.mask]) :
    (∀ r l, l < 64 → SMap.get g.v (r * 64 + l) = newV c (c.act hd) d out r l) ∧
    (∀ r, SMap.get g.s r = newS c (c.act hd) d out r) ∧
    (∀ r l, l < 64 → SMap.get g.h (r * 64 + l) = newH c (c.act hd) d out r l) ∧
    (∀ l i, i < 8 → g.pred l i = newP c (c.act hd) out l i) ∧
    (∀ l, SMap.get g.fpst l = newFlags c (c.act hd) out l) ∧
    (g.sc = c.g.sc ∧ g.fpm = c.g.fpm ∧ g.rets = c.g.rets ∧ g.live = c.g.live ∧ g.frame = c.g.frame ∧ g.handler = c.g.handler ∧
      g.arrived = c.g.arrived ∧ g.mats = c.g.mats ∧ g.pause = c.g.pause) ∧
    (∃ f ∈ g.frags, f.pc = c.after ∧ c.is.mask &&& ~~~ f.mask = 0) := by
  have hz' : ∀ n k, d = some (⟨.v, n⟩, k) →
      ({ c.g with qwait := false } : Group).hazard c.w64 n = false ∧ (k = 2 → ({ c.g with qwait := false } : Group).hazard c.w64 (n + 1) = false) := hz
  rw [writeLanes_eq c fresh d out _ _ hz'] at hg
  subst hg
  refine ⟨?_, ?_, ?_, ?_, ?_, ⟨rfl, rfl, rfl, rfl, rfl, rfl, rfl, rfl, rfl⟩, ?_⟩
  · intro r l hl
    exact get_laneV d out c.g.v (c.act hd) r l hl
  · intro r
    exact get_laneS d out c.g.s (c.act hd) r ha
  · intro r l hl
    exact get_laneH d out c.g.h (c.act hd) r l hl
  · intro l i hi
    exact get_laneP out c.g (c.act hd) l i hi
  · intro l
    exact get_laneF out c.g.fpst (c.act hd) l
  · exact issued_one _ _ _ _ (mask_ne_zero c hd ha)

theorem writeReg_gid (g : Group) (w64 : Bool) (fresh k lane : Nat) (o : Opnd) (x : DWord) : (g.writeReg w64 fresh k lane o x).gid = g.gid := by
  have hv : ∀ (g : Group) r y, (g.writeV w64 fresh lane r y).gid = g.gid := by
    intro g r y
    unfold Group.writeV
    split <;> rfl
  unfold Group.writeReg
  cases o.cls
  · simp only []
    split
    · rw [hv, hv]
    · rw [hv]
  · rfl
  · rfl
  · rfl

theorem laneStep_gid (fresh : Nat) (f : Nat → LaneOut) (g : Group) (l : Nat) : (laneStep c fresh d f g l).gid = g.gid := by
  have hs : ∀ (g : Group) (l i : Nat) (v : Bool), (g.setPred l i v).gid = g.gid := by
    intro g l i v
    unfold Group.setPred
    split <;> rfl
  have hf : ∀ (g : Group) (l : Nat) (v : Word), (g.flag l v).gid = g.gid := fun _ _ _ => rfl
  unfold laneStep
  simp only []
  rcases d with _ | ⟨o, k⟩
  · simp only []
    split <;> split <;> simp only [hf, hs]
  · simp only []
    split <;> split <;> split <;> simp only [writeReg_gid, hf, hs]

theorem writeLanes_gid (fresh : Nat) (f : Nat → LaneOut) (ls : List Nat) (g : Group) : (c.writeLanes fresh d f ls g).gid = g.gid := by
  have hfold : (ls.foldl (laneStep c fresh d f) g).gid = g.gid := by
    induction ls generalizing g with
    | nil => rfl
    | cons l ls ih => rw [List.foldl_cons, ih, laneStep_gid]
  rw [writeLanes_steps]
  split
  · split
    · rw [writeReg_gid, hfold]
    · exact hfold
  · exact hfold

theorem unstall_group? (c : Ctx) (s : State) (x : Gid) :
    (unstall c s).group? x = if x = c.gid then (s.group? x).map (fun g => { g with qwait := false }) else s.group? x :=
  State.group?_modGroup s c.gid x (fun g => { g with qwait := false }) (fun _ => rfl)

theorem unstall_block? (c : Ctx) (s : State) (l i : Nat) :
    (unstall c s).block? l i = if l = c.gid.lid ∧ i = c.gid.blk then
      (s.block? l i).map (fun b => { b with stalled := b.stalled.filter fun x => x.1 ≠ c.gid.gi }) else s.block? l i :=
  State.block?_modBlock _ _ _ l i (fun b => { b with stalled := b.stalled.filter fun x => x.1 ≠ c.gid.gi }) (fun _ => ⟨rfl, rfl⟩)

theorem advance_group? (c : Ctx) (news : List Frag) (s : State) (x : Gid) :
    (advance c news s).group? x = if x = c.gid then (s.group? x).map (fun g => g.issued c.is.pc c.is.mask news) else s.group? x :=
  State.group?_modGroup s c.gid x (fun g => g.issued c.is.pc c.is.mask news) (fun _ => rfl)

theorem advance_block? (c : Ctx) (news : List Frag) (s : State) (l i : Nat) : (advance c news s).block? l i = s.block? l i := rfl

theorem retire_group? (c : Ctx) (s : State) (x : Gid) :
    (retire c s).group? x = if x = c.gid then (s.group? x).map (fun g => g.issued c.is.pc c.is.mask [mkFrag c.after c.is.mask])
      else s.group? x := advance_group? c _ s x

theorem retire_block? (c : Ctx) (s : State) (l i : Nat) : (retire c s).block? l i = s.block? l i := rfl

/-- The state after results have been written and the instruction has retired, with the block's queues as given. -/
def delivered (s : State) (c : Ctx) (fresh : Nat) (d : Option (Opnd × Nat)) (out : Nat → LaneOut) (act : Mask) (q : Block → Block) : State :=
  retire c ((((unstall c s).modGroup c.gid (c.writeLanes fresh d out (lanes act)))).modBlock c.gid.lid c.gid.blk q)

theorem delivered_spec (fresh : Nat) (out : Nat → LaneOut) (q : Block → Block) (hctx : s.ctx? = some c) (ha : c.act hd ≠ 0)
    (hz : ClearOfMatrix c d) (hq : ∀ x, (q x).lid = x.lid ∧ (q x).idx = x.idx)
    (hqs : ∀ x : Block, (q x).queues = newQueues b (c.act hd) d out) :
    ∃ g, Delivered s c (c.act hd) d b out (delivered s c fresh d out (c.act hd) q) g := by
  obtain ⟨hg, hb, hl, hi⟩ := ctx_parts hctx
  obtain ⟨h1, h2, h3, h4, h5, h6, h7⟩ := delivered_group (c := c) (hd := hd) (d := d) fresh out ha hz _ rfl
  refine ⟨(c.writeLanes fresh d out (lanes (c.act hd)) { c.g with qwait := false }).issued c.is.pc c.is.mask [mkFrag c.after c.is.mask],
    ?_, h1, h2, h3, h4, h5, h6, h7, ?_, ?_, ?_, ?_⟩
  · unfold delivered
    rw [retire_group?, if_pos rfl, State.modBlock_group?, State.group?_modGroup _ _ _ _ (fun y => writeLanes_gid fresh out _ y),
      if_pos rfl, unstall_group?, if_pos rfl, hg]
    rfl
  · refine ⟨q { c.b with stalled := c.b.stalled.filter fun x => x.1 ≠ c.gid.gi }, ?_, hqs _⟩
    unfold delivered
    rw [retire_block?, State.block?_modBlock _ _ _ _ _ _ hq, if_pos ⟨rfl, rfl⟩, State.modGroup_block?, unstall_block?, if_pos ⟨rfl, rfl⟩, hb]
    rfl
  · simp [delivered, retire, advance, unstall, State.count]
  · intro x hx
    unfold delivered
    rw [retire_group?, if_neg hx, State.modBlock_group?, State.group?_modGroup _ _ _ _ (fun y => writeLanes_gid fresh out _ y),
      if_neg hx, unstall_group?, if_neg hx]
  · simp [delivered, retire, advance, unstall]

theorem modBlock_modBlock (s : State) (l i : Nat) (f g : Block → Block) (hf : ∀ x, (f x).lid = x.lid ∧ (f x).idx = x.idx) :
    (s.modBlock l i f).modBlock l i g = s.modBlock l i fun x => g (f x) := by
  unfold State.modBlock
  simp only [List.map_map]
  congr 1
  apply List.map_congr_left
  intro x _
  simp only [Function.comp]
  by_cases h : x.lid = l ∧ x.idx = i
  · obtain ⟨rfl, rfl⟩ := h
    simp [hf]
  · have h' : x.lid = l → ¬ x.idx = i := fun h1 h2 => h ⟨h1, h2⟩
    by_cases h1 : x.lid = l
    · simp [h1, h' h1]
    · simp [h1]

/-- A register form with any destination but a queue, when its operands are ready. -/
theorem plain_delivers (fresh : Nat) (out : Nat → LaneOut) (hctx : s.ctx? = some c) (ha : c.act hd ≠ 0) (hz : ClearOfMatrix c d)
    (hqs : newQueues b (c.act hd) d out = b.queues) :
    Delivers s c hd d b out (.next (delivered s c fresh d out (c.act hd) fun x => { x with queues := b.queues })) := by
  have h1 : ∀ x : Block, ((fun x : Block => { x with queues := b.queues }) x).queues = newQueues b (c.act hd) d out := by
    intro x
    rw [hqs]
  obtain ⟨g, hg⟩ := delivered_spec (b := b) (hd := hd) (d := d) fresh out (fun x => { x with queues := b.queues }) hctx ha hz
    (fun _ => ⟨rfl, rfl⟩) h1
  exact ⟨_, g, rfl, hg⟩

/-- Everything that a register form can do when its operands are ready: it goes on to a next state in which the results are delivered. -/
theorem alu_delivers (f : Ctx → Nat → List DWord → LaneOut) (h : Ready s c hd d srcs b vs) :
    Delivers s c hd d b (fun l => f c l (vs.map fun x => x l)) (alu hd d srcs f s) := by
  have plain := fun hqs => plain_delivers (b := b) s.fresh (fun l => f c l (vs.map fun x => x l)) h.ctx h.act h.clear hqs
  have room := h.room
  unfold alu
  rw [withIssuer_eq h.ctx]
  simp only [if_neg h.act, h.fetch]
  unfold delivered at plain
  cases d with
  | none => exact plain rfl
  | some x =>
    obtain ⟨⟨cl, n⟩, k⟩ := x
    cases cl with
    | v => exact plain rfl
    | s => exact plain rfl
    | h => exact plain rfl
    | q =>
      obtain ⟨⟨q, hq, hlen⟩, hbe, hst⟩ := room n k rfl
      have hcond : (decide (q.depth ≤ q.entries.length) || c.b.behind c.gid.gi n true) = false := by
        simp [hbe]
        omega
      have hst' : (!s.settled c.gid (c.act hd)) = false := by simp [hst]
      simp only [hq, hcond, hst', Bool.false_eq_true, if_false]
      rw [modBlock_modBlock _ _ _ (fun x => { x with queues := b.queues }) _ (fun _ => ⟨rfl, rfl⟩)]
      obtain ⟨g, hg⟩ := delivered_spec (hd := hd) (b := b) (d := some (⟨.q, n⟩, k)) s.fresh (fun l => f c l (vs.map fun x => x l))
        (fun x => Block.setQueue { x with queues := b.queues } n
          (q.entries ++ [(lanes (c.act hd)).foldl (fun m l => SMap.set m l ((f c l (vs.map fun x => x l)).d.setWidth 32)) []])) h.ctx h.act
        h.clear (fun _ => ⟨rfl, rfl⟩) (fun x => by simp only [newQueues, hq]; rfl)
      exact ⟨_, g, rfl, hg⟩

/-- The same for a meaning that is this shape, with the results of its lanes in any equal form. -/
theorem delivers_of_alu {o : Host.Outcome State Fault Refusal} {f : Ctx → Nat → List DWord → LaneOut} {out : Nat → LaneOut}
    (e : o = alu hd d srcs f s) (h : Ready s c hd d srcs b vs) (hout : ∀ l, out l = f c l (vs.map fun x => x l)) : Delivers s c hd d b out o := by
  have h1 : out = fun l => f c l (vs.map fun x => x l) := funext hout
  rw [h1, e]
  exact alu_delivers f h

end Shape

end Sys2Proof.Machine
end

