-- ==== Sys2Proof/Laws/Control.lean ====
section
/-! SUPPORT. What issuing does to the places of lanes: `addFrag`, `spread`, `issued`, `advance`, `retireTo`, `retire`, `parkAt`. -/

namespace Sys2Proof.Machine

theorem joinPark_none {a b : Option (Nat × Park)} (ha : a = none) : joinPark a b = none := by
  subst ha
  cases b <;> rfl

/-- A lane that stands in a list of fragments, alone or after one more fragment has been added, stands. -/
def standsIn (fs : List Frag) (l : Nat) (pc : Word) : Prop := ∃ f ∈ fs, f.park = none ∧ f.pc = pc ∧ inMask f.mask l = true

theorem inMask_or (a b : Mask) (l : Nat) : inMask (a ||| b) l = (inMask a l || inMask b l) := by
  unfold inMask
  exact BitVec.getLsbD_or

theorem inMask_and (a b : Mask) (l : Nat) : inMask (a &&& b) l = (inMask a l && inMask b l) := by
  unfold inMask
  exact BitVec.getLsbD_and

theorem inMask_zero (l : Nat) : inMask 0 l = false := by
  unfold inMask
  exact BitVec.getLsbD_zero

theorem ne_zero_of_inMask {m : Mask} {l : Nat} (h : inMask m l = true) : m ≠ 0 := by
  intro h0
  rw [h0, inMask_zero] at h
  cases h

theorem inMask_maskOf (ls : List Nat) (h64 : ∀ x ∈ ls, x < 64) (l : Nat) : inMask (maskOf ls) l = true ↔ l ∈ ls := by
  induction ls with
  | nil => simp [maskOf, inMask]
  | cons a as ih =>
    have ih := ih (fun x hx => h64 x (List.mem_cons_of_mem _ hx))
    have ha := h64 a List.mem_cons_self
    simp only [maskOf] at *
    rw [inMask_or, Bool.or_eq_true, ih, List.mem_cons]
    constructor
    · rintro (h | h)
      · unfold inMask at h
        rw [BitVec.getLsbD_ofNat, Nat.testBit_two_pow] at h
        simp only [Bool.and_eq_true, decide_eq_true_eq] at h
        exact .inl h.2.symm
      · exact .inr h
    · rintro (h | h)
      · left
        subst h
        unfold inMask
        rw [BitVec.getLsbD_ofNat, Nat.testBit_two_pow]
        simp [ha]
      · exact .inr h

/-- Act: the lanes of the fragment whose guard holds (R159, R177). -/
theorem inMask_act (c : Ctx) (hd : Hdr) (l : Nat) : inMask (c.act hd) l = true ↔ inMask c.is.mask l = true ∧ c.g.guard hd l = true := by
  unfold Ctx.act
  rw [inMask_maskOf _ (fun x hx => lanes_lt (List.mem_filter.mp hx).1), List.mem_filter, mem_lanes]

theorem standsIn_addFrag_old (hl : Mask) (fs : List Frag) (n : Frag) (l : Nat) (pc : Word) (h : standsIn fs l pc) :
    standsIn (addFrag hl fs n) l pc := by
  induction fs with
  | nil =>
    obtain ⟨f, hf, _⟩ := h
    cases hf
  | cons x xs ih =>
    unfold addFrag
    split
    · exact h
    · split
      · obtain ⟨f, hf, h1, h2, h3⟩ := h
        rcases List.mem_cons.mp hf with rfl | hf
        · exact ⟨_, List.mem_cons_self, joinPark_none h1, h2, by simp [inMask_or, h3]⟩
        · exact ⟨f, List.mem_cons_of_mem _ hf, h1, h2, h3⟩
      · obtain ⟨f, hf, h1, h2, h3⟩ := h
        rcases List.mem_cons.mp hf with rfl | hf
        · exact ⟨f, List.mem_cons_self, h1, h2, h3⟩
        · obtain ⟨y, hy, h⟩ := ih ⟨f, hf, h1, h2, h3⟩
          exact ⟨y, List.mem_cons_of_mem _ hy, h⟩

theorem standsIn_addFrag_new (hl : Mask) (fs : List Frag) (n : Frag) (l : Nat) (hp : n.park = none) (hm : inMask n.mask l = true) :
    standsIn (addFrag hl fs n) l n.pc := by
  have h0 := ne_zero_of_inMask hm
  induction fs with
  | nil =>
    unfold addFrag
    rw [if_neg h0]
    exact ⟨n, List.mem_singleton_self n, hp, rfl, hm⟩
  | cons x xs ih =>
    unfold addFrag
    rw [if_neg h0]
    split
    · rename_i hj
      simp only [Frag.joins, Bool.and_eq_true, decide_eq_true_eq, beq_iff_eq] at hj
      have hx : x.park = none := by
        have := hj.1.2
        rw [hp] at this
        simpa using this
      exact ⟨_, List.mem_cons_self, joinPark_none hx, hj.1.1, by simp [inMask_or, hm]⟩
    · obtain ⟨y, hy, h⟩ := ih
      exact ⟨y, List.mem_cons_of_mem _ hy, h⟩

theorem standsIn_addFrags_old (hl : Mask) (ns fs : List Frag) (l : Nat) (pc : Word) (h : standsIn fs l pc) : standsIn (addFrags hl fs ns) l pc := by
  induction ns generalizing fs with
  | nil => exact h
  | cons n ns ih => exact ih _ (standsIn_addFrag_old hl fs n l pc h)

theorem standsIn_addFrags_new (hl : Mask) (ns fs : List Frag) (l : Nat) (pc : Word) (h : standsIn ns l pc) : standsIn (addFrags hl fs ns) l pc := by
  induction ns generalizing fs with
  | nil =>
    obtain ⟨f, hf, _⟩ := h
    cases hf
  | cons n ns ih =>
    obtain ⟨f, hf, h1, h2, h3⟩ := h
    rcases List.mem_cons.mp hf with rfl | hf
    · exact standsIn_addFrags_old hl ns _ l pc (h2 ▸ standsIn_addFrag_new hl fs f l h1 h3)
    · exact ih _ ⟨f, hf, h1, h2, h3⟩

/-- Each lane of a spread stands at its own next PC (R160). -/
theorem standsIn_spread (next : Nat → Word) (ls : List Nat) (h64 : ∀ x ∈ ls, x < 64) (l : Nat) (h : l ∈ ls) :
    standsIn (spread next ls) l (next l) := by
  induction ls with
  | nil => cases h
  | cons a as ih =>
    unfold spread
    rcases List.mem_cons.mp h with rfl | h
    · refine standsIn_addFrag_new 0 _ (mkFrag (next l) (maskOf [l])) l rfl ?_
      show inMask (maskOf [l]) l = true
      rw [inMask_maskOf [l] (by intro x hx; exact h64 x (by rw [List.mem_singleton.mp hx]; exact List.mem_cons_self))]
      exact List.mem_singleton_self l
    · exact standsIn_addFrag_old 0 _ _ l _ (ih (fun x hx => h64 x (List.mem_cons_of_mem _ hx)) h)

/-- After an issue the lanes of the fragments that come in stand where those stand. -/
theorem issued_stands (g : Group) (pc : Word) (m : Mask) (news : List Frag) (l : Nat) (p : Word) (h : standsIn news l p) :
    (g.issued pc m news).stands l p := by
  unfold Group.issued
  exact mem_joinFrags (P := fun q m pk => pk = none ∧ q = p ∧ inMask m l = true)
    (standsIn_addFrags_new _ _ _ l p (mem_coming (P := fun q m pk => pk = none ∧ q = p ∧ inMask m l = true) h))

theorem sameElsewhere_refl (s : State) (gid : Gid) : SameElsewhere s s gid :=
  ⟨fun _ _ => rfl, rfl, rfl, rfl, rfl, rfl, rfl, rfl, rfl, rfl, rfl⟩

theorem sameElsewhere_modGroup (s : State) (gid : Gid) (f : Group → Group) (hf : ∀ x, (f x).gid = x.gid) : SameElsewhere s (s.modGroup gid f) gid :=
  ⟨fun x hx => by rw [State.group?_modGroup s gid x f hf, if_neg hx], rfl, rfl, rfl, rfl, rfl, rfl, rfl, rfl, rfl, rfl⟩

theorem sameElsewhere_modBlock (s : State) (gid : Gid) (l i : Nat) (f : Block → Block) : SameElsewhere s (s.modBlock l i f) gid :=
  ⟨fun _ _ => rfl, rfl, rfl, rfl, rfl, rfl, rfl, rfl, rfl, rfl, rfl⟩

theorem sameElsewhere_count (s : State) (gid : Gid) (k : Nat) : SameElsewhere s (s.count k) gid :=
  ⟨fun _ _ => rfl, rfl, rfl, rfl, rfl, rfl, rfl, rfl, rfl, rfl, rfl⟩

theorem SameElsewhere.trans {s t u : State} {gid : Gid} (h : SameElsewhere s t gid) (k : SameElsewhere t u gid) : SameElsewhere s u gid :=
  ⟨fun x hx => (k.groups x hx).trans (h.groups x hx), k.mem.trans h.mem, k.pend.trans h.pend, k.chains.trans h.chains, k.launches.trans h.launches,
    k.worlds.trans h.worlds, k.parts.trans h.parts, k.bulks.trans h.bulks, k.pot.trans h.pot, k.ext.trans h.ext, k.now.trans h.now⟩

theorem advance_elsewhere (c : Ctx) (news : List Frag) (s : State) : SameElsewhere s (advance c news s) c.gid :=
  ⟨fun x hx => by rw [advance_group?, if_neg hx], rfl, rfl, rfl, rfl, rfl, rfl, rfl, rfl, rfl, rfl⟩

/-- An advance from a state in which the issuing group alone has changed, in nothing but its return stacks and marks of its own. -/
theorem advance_moved (s s1 : State) (c : Ctx) (news : List Frag) (next : Nat → Word) (g1 : Group) (h1 : s1.group? c.gid = some g1)
    (he : SameElsewhere s s1 c.gid) (hb : s1.blocks = s.blocks) (hr : s1.retired = s.retired) (hregs : SameRegs c.g g1)
    (hk : g1.live = c.g.live ∧ g1.handler = c.g.handler ∧ g1.frame = c.g.frame ∧ g1.arrived = c.g.arrived ∧ g1.mats = c.g.mats)
    (hn : ∀ l, inMask c.is.mask l = true → standsIn news l (next l)) :
    Moved s c next (advance c news s1) (g1.issued c.is.pc c.is.mask news) := by
  refine ⟨?_, ?_, ?_, hk, ?_, ?_, ?_⟩
  · rw [advance_group?, if_pos rfl, h1]
    rfl
  · intro l hl
    exact issued_stands _ _ _ _ _ _ (hn l hl)
  · exact ⟨hregs.v, hregs.s, hregs.h, hregs.p, hregs.sc, hregs.fpm, hregs.fpst⟩
  · exact hb
  · show SMap.set s1.retired c.core (SMap.get s1.retired c.core + 1) = _
    rw [hr]
  · exact he.trans (advance_elsewhere c news s1)

/-! ### Values listed by number -/

theorem look_cons {α : Type} (d : α) (a : Nat) (w : α) (r : List (Nat × α)) (j : Nat) :
    look d ((a, w) :: r) j = if a = j then w else look d r j := rfl

theorem look_drop {α : Type} (d : α) (m : List (Nat × α)) (k j : Nat) (h : k ≠ j) : look d (m.filter fun e => e.1 ≠ k) j = look d m j := by
  induction m with
  | nil => rfl
  | cons e r ih =>
    obtain ⟨a, w⟩ := e
    by_cases ha : a = k
    · subst ha
      rw [List.filter_cons_of_neg (by simp), ih, look_cons, if_neg h]
    · rw [List.filter_cons_of_pos (by simpa using ha), look_cons, look_cons, ih]

theorem look_put {α : Type} (d : α) (m : List (Nat × α)) (k j : Nat) (v : α) : look d (put m k v) j = if j = k then v else look d m j := by
  show look d ((k, v) :: m.filter fun e => e.1 ≠ k) j = _
  rw [look_cons]
  by_cases h : k = j
  · simp [h]
  · rw [if_neg h, if_neg (Ne.symm h), look_drop d m k j h]

theorem look_foldl_put {α : Type} (d : α) (f : α → α) (act : Mask) (m : List (Nat × α)) (l : Nat) :
    look d ((lanes act).foldl (fun r l => put r l (f (look d r l))) m) l = if inMask act l then f (look d m l) else look d m l := by
  have key : ∀ ls : List Nat, ls.Nodup → ∀ m : List (Nat × α),
      look d (ls.foldl (fun r l => put r l (f (look d r l))) m) l = if l ∈ ls then f (look d m l) else look d m l := by
    intro ls
    induction ls with
    | nil => intros; simp
    | cons a as ih =>
      intro hn m
      obtain ⟨h1, h2⟩ := List.nodup_cons.mp hn
      rw [List.foldl_cons, ih h2, look_put]
      by_cases hl : l = a
      · subst hl
        simp [h1]
      · simp [hl]
  rw [key _ (lanes_nodup act)]
  simp only [mem_lanes]

theorem sameRegs_refl (g : Group) : SameRegs g g := ⟨rfl, rfl, rfl, rfl, rfl, rfl, rfl⟩

/-- Every lane goes to its next PC, and nothing else happens. -/
theorem retireTo_moves {s : State} {c : Ctx} (hc : s.ctx? = some c) (next : Nat → Word) : Moves s c next (.next (retireTo c next s)) := by
  obtain ⟨hg, -, -, -⟩ := ctx_parts hc
  have h := advance_moved s s c (spread next (lanes c.is.mask)) next c.g hg (sameElsewhere_refl s _) rfl rfl (sameRegs_refl _)
    ⟨rfl, rfl, rfl, rfl, rfl⟩ (fun l hl => standsIn_spread next _ (fun x hx => lanes_lt hx) l (mem_lanes.mpr hl))
  exact ⟨_, _, rfl, h, rfl⟩

/-- The instruction has no effect but to go on. -/
theorem retire_moves {s : State} {c : Ctx} (hc : s.ctx? = some c) : Moves s c (fun _ => c.after) (.next (retire c s)) := by
  obtain ⟨hg, -, -, -⟩ := ctx_parts hc
  have h := advance_moved s s c [mkFrag c.after c.is.mask] (fun _ => c.after) c.g hg (sameElsewhere_refl s _) rfl rfl (sameRegs_refl _)
    ⟨rfl, rfl, rfl, rfl, rfl⟩ (fun l hl => ⟨_, List.mem_singleton_self _, rfl, rfl, hl⟩)
  exact ⟨_, _, rfl, h, rfl⟩

/-- An advance from a state in which the issuing group has registers of its own written. -/
theorem advance_landed (s s1 : State) (c : Ctx) (news : List Frag) (next : Nat → Word) (g1 : Group) (h1 : s1.group? c.gid = some g1)
    (he : SameElsewhere s s1 c.gid) (hr : s1.retired = s.retired)
    (hk : g1.live = c.g.live ∧ g1.handler = c.g.handler ∧ g1.frame = c.g.frame ∧ g1.arrived = c.g.arrived ∧ g1.mats = c.g.mats ∧ g1.rets = c.g.rets)
    (hn : ∀ l, inMask c.is.mask l = true → standsIn news l (next l)) :
    Landed s c next (advance c news s1) (g1.issued c.is.pc c.is.mask news) := by
  refine ⟨?_, ?_, hk, ?_, ?_⟩
  · rw [advance_group?, if_pos rfl, h1]
    rfl
  · intro l hl
    exact issued_stands _ _ _ _ _ _ (hn l hl)
  · show SMap.set s1.retired c.core (SMap.get s1.retired c.core + 1) = _
    rw [hr]
  · exact he.trans (advance_elsewhere c news s1)

/-- A change of the group's registers, then the next instruction. -/
theorem retire_landed {s : State} {c : Ctx} (hc : s.ctx? = some c) (f : Group → Group) (hf : ∀ x, (f x).gid = x.gid)
    (hk : (f c.g).live = c.g.live ∧ (f c.g).handler = c.g.handler ∧ (f c.g).frame = c.g.frame ∧ (f c.g).arrived = c.g.arrived ∧
      (f c.g).mats = c.g.mats ∧ (f c.g).rets = c.g.rets) :
    Landed s c (fun _ => c.after) (retire c (s.modGroup c.gid f)) ((f c.g).issued c.is.pc c.is.mask [mkFrag c.after c.is.mask]) := by
  obtain ⟨hg, -, -, -⟩ := ctx_parts hc
  refine advance_landed s (s.modGroup c.gid f) c _ _ (f c.g) ?_ (sameElsewhere_modGroup s c.gid f hf) rfl hk
    (fun l hl => ⟨_, List.mem_singleton_self _, rfl, rfl, hl⟩)
  rw [State.group?_modGroup s _ _ f hf, if_pos rfl, hg]
  rfl

/-- The same after queue sources have been popped. -/
theorem retire_popped {s : State} {c : Ctx} (hc : s.ctx? = some c) (f : Group → Group) (hf : ∀ x, (f x).gid = x.gid) (q : Block → Block)
    (hk : (f { c.g with qwait := false }).live = c.g.live ∧ (f { c.g with qwait := false }).handler = c.g.handler ∧
      (f { c.g with qwait := false }).frame = c.g.frame ∧ (f { c.g with qwait := false }).arrived = c.g.arrived ∧
      (f { c.g with qwait := false }).mats = c.g.mats ∧ (f { c.g with qwait := false }).rets = c.g.rets) :
    Landed s c (fun _ => c.after) (retire c (((unstall c s).modGroup c.gid f).modBlock c.gid.lid c.gid.blk q))
      ((f { c.g with qwait := false }).issued c.is.pc c.is.mask [mkFrag c.after c.is.mask]) := by
  obtain ⟨hg, -, -, -⟩ := ctx_parts hc
  refine advance_landed s (((unstall c s).modGroup c.gid f).modBlock c.gid.lid c.gid.blk q) c _ _ (f { c.g with qwait := false }) ?_ ?_ rfl hk
    (fun l hl => ⟨_, List.mem_singleton_self _, rfl, rfl, hl⟩)
  · rw [State.modBlock_group?, State.group?_modGroup _ _ _ f hf, if_pos rfl, unstall_group?, if_pos rfl, hg]
    rfl
  · refine SameElsewhere.trans ?_ (sameElsewhere_modBlock _ _ _ _ _)
    refine SameElsewhere.trans ?_ (sameElsewhere_modGroup _ _ _ hf)
    exact (sameElsewhere_modGroup s c.gid (fun g => { g with qwait := false }) (fun _ => rfl)).trans (sameElsewhere_modBlock _ _ _ _ _)

/-! ### Consecutive registers -/

/-- Keys of one stride written in order. -/
theorem get_foldl_row {w : Nat} (key : Nat → Nat) (hkey : ∀ a b, key a = key b → a = b) (xs : List (BitVec w)) (i : Nat) (m : SMap w) :
    (∀ a, SMap.get (((List.range' i xs.length).zip xs).foldl (fun m e => SMap.set m (key e.1) e.2) m) (key a) =
      if i ≤ a then (xs[a - i]?).getD (SMap.get m (key a)) else SMap.get m (key a)) ∧
    ∀ k, (∀ a, key a ≠ k) → SMap.get (((List.range' i xs.length).zip xs).foldl (fun m e => SMap.set m (key e.1) e.2) m) k = SMap.get m k := by
  induction xs generalizing i m with
  | nil =>
    constructor
    · intro a
      simp
    · intro k _
      simp
  | cons x xs ih =>
    simp only [List.length_cons, List.range'_succ, List.zip_cons_cons, List.foldl_cons]
    obtain ⟨h1, h2⟩ := ih (i + 1) (SMap.set m (key i) x)
    constructor
    · intro a
      rw [h1 a]
      by_cases ha : a = i
      · subst ha
        simp
      · have hne : key a ≠ key i := fun h => ha (hkey _ _ h)
        simp only [SMap.get_set, if_neg hne]
        by_cases hle : i ≤ a
        · have e : a - i = (a - (i + 1)) + 1 := by omega
          rw [if_pos (by omega), if_pos hle, e, List.getElem?_cons_succ]
        · rw [if_neg (by omega), if_neg hle]
    · intro k hk
      rw [h2 k hk, SMap.get_set, if_neg (fun h => hk i h.symm)]

theorem foldl_gid {α : Type} (f : Group → α → Group) (hf : ∀ g a, (f g a).gid = g.gid) (l : List α) (g : Group) : (l.foldl f g).gid = g.gid := by
  induction l generalizing g with
  | nil => rfl
  | cons a l ih => rw [List.foldl_cons, ih, hf]

theorem writeWords_gid (g : Group) (w64 : Bool) (fresh : Nat) (d : Opnd) (f : Nat → List Word) (act : List Nat) :
    (g.writeWords w64 fresh d f act).gid = g.gid := by
  have row : ∀ (l : Nat) (g : Group),
      (((List.range (f l).length).zip (f l)).foldl (fun g e => g.writeReg w64 fresh 1 l ⟨d.cls, d.n + e.1⟩ (e.2.setWidth 64)) g).gid = g.gid :=
    fun l g => foldl_gid _ (fun g e => writeReg_gid _ _ _ _ _ _ _) _ g
  unfold Group.writeWords
  simp only []
  split
  · split
    · exact row _ g
    · rfl
  · exact foldl_gid _ (fun g l => row l g) _ g

/-- `writeWords` to v registers that no matrix instruction holds. -/
theorem writeWords_clear (g : Group) (w64 : Bool) (fresh n : Nat) (f : Nat → List Word) (act : Mask) 
    (hz : ∀ l q, n ≤ q → q < n + (f l).length → g.hazard w64 q = false) :
    ∃ m, g.writeWords w64 fresh ⟨.v, n⟩ f (lanes act) = { g with v := m } ∧
      ∀ q l, l < 64 → SMap.get m (q * 64 + l) =
        if inMask act l = true ∧ n ≤ q then ((f l)[q - n]?).getD (SMap.get g.v (q * 64 + l)) else SMap.get g.v (q * 64 + l) := by
  have row : ∀ (l : Nat) (es : List (Nat × Word)) (g : Group), (∀ e ∈ es, g.hazard w64 (n + e.1) = false) →
      es.foldl (fun g e => g.writeReg w64 fresh 1 l ⟨.v, n + e.1⟩ (e.2.setWidth 64)) g =
        { g with v := es.foldl (fun m e => SMap.set m ((n + e.1) * 64 + l) e.2) g.v } := by
    intro l es
    induction es with
    | nil => intros; rfl
    | cons e es ih =>
      intro g hz
      have h1 : g.writeReg w64 fresh 1 l ⟨.v, n + e.1⟩ (e.2.setWidth 64) = { g with v := SMap.set g.v ((n + e.1) * 64 + l) e.2 } := by
        simp [Group.writeReg, Group.writeV, hz e (List.mem_cons_self ..)]
      rw [List.foldl_cons, List.foldl_cons, h1]
      exact ih { g with v := SMap.set g.v ((n + e.1) * 64 + l) e.2 } fun x hx => hz x (List.mem_cons_of_mem _ hx)
  let U (m : SMap 32) (l : Nat) : SMap 32 :=
    ((List.range (f l).length).zip (f l)).foldl (fun m e => SMap.set m ((n + e.1) * 64 + l) e.2) m
  have all : ∀ (ls : List Nat) (g : Group), (∀ l q, n ≤ q → q < n + (f l).length → g.hazard w64 q = false) →
      ls.foldl (fun g l => ((List.range (f l).length).zip (f l)).foldl (fun g e => g.writeReg w64 fresh 1 l ⟨.v, n + e.1⟩ (e.2.setWidth 64)) g) g =
        { g with v := ls.foldl U g.v } := by
    intro ls
    induction ls with
    | nil => intros; rfl
    | cons l ls ih =>
      intro g hz
      rw [List.foldl_cons, List.foldl_cons, row l _ g (fun e he => hz l _ (Nat.le_add_right _ _) (by
        have := List.mem_range.mp (List.of_mem_zip he).1
        omega))]
      exact ih { g with v := U g.v l } hz
  refine ⟨(lanes act).foldl U g.v, all (lanes act) g hz, ?_⟩
  intro q l hl
  have hd : (q * 64 + l) / 64 = q ∧ (q * 64 + l) % 64 = l := by omega
  rw [get_foldl_lanes U (fun k _ => n ≤ k / 64) (fun k l x => ((f l)[k / 64 - n]?).getD x) (fun k => k % 64)]
  · simp only [hd]
  · intro m j k hj
    have hr := get_foldl_row (fun a => (n + a) * 64 + j) (fun a b h => by omega) (f j) 0 m
    rw [← List.range_eq_range'] at hr
    show SMap.get (U m j) k = _
    by_cases hk : k % 64 = j ∧ n ≤ k / 64
    · have e : k = (n + (k / 64 - n)) * 64 + j := by omega
      rw [if_pos hk]
      have := hr.1 (k / 64 - n)
      rw [← e] at this
      rw [show SMap.get (U m j) k = _ from this]
      simp
    · rw [if_neg hk]
      exact hr.2 k (fun a ha => hk (by omega))

/-- The same where no matrix instruction is outstanding at all. -/
theorem writeWords_v (g : Group) (w64 : Bool) (fresh n : Nat) (f : Nat → List Word) (act : Mask) (hz : ∀ q, g.hazard w64 q = false) :
    ∃ m, g.writeWords w64 fresh ⟨.v, n⟩ f (lanes act) = { g with v := m } ∧
      ∀ q l, l < 64 → SMap.get m (q * 64 + l) =
        if inMask act l = true ∧ n ≤ q then ((f l)[q - n]?).getD (SMap.get g.v (q * 64 + l)) else SMap.get g.v (q * 64 + l) :=
  writeWords_clear g w64 fresh n f act fun _ q _ _ => hz q

/-- `writeWords` to s registers: the words of the lowest lane (R182). -/
theorem writeWords_s (g : Group) (w64 : Bool) (fresh n : Nat) (f : Nat → List Word) (act : Mask) :
    ∃ m, g.writeWords w64 fresh ⟨.s, n⟩ f (lanes act) = { g with s := m } ∧
      ∀ q, SMap.get m q = if act ≠ 0 ∧ n ≤ q then ((f ((lanes act).headD 0))[q - n]?).getD (SMap.get g.s q) else SMap.get g.s q := by
  have row : ∀ (l : Nat) (es : List (Nat × Word)) (g : Group),
      es.foldl (fun g e => g.writeReg w64 fresh 1 l ⟨.s, n + e.1⟩ (e.2.setWidth 64)) g =
        { g with s := es.foldl (fun m e => SMap.set m (n + e.1) e.2) g.s } := by
    intro l es
    induction es with
    | nil => intros; rfl
    | cons e es ih =>
      intro g
      have h1 : g.writeReg w64 fresh 1 l ⟨.s, n + e.1⟩ (e.2.setWidth 64) = { g with s := SMap.set g.s (n + e.1) e.2 } := by
        simp [Group.writeReg]
      rw [List.foldl_cons, List.foldl_cons, h1, ih _]
  by_cases h0 : act = 0
  · subst h0
    refine ⟨g.s, ?_, fun q => by simp⟩
    have : lanes (0 : Mask) = [] := by
      rw [List.eq_nil_iff_forall_not_mem]
      intro l hl
      have := mem_lanes.mp hl
      rw [inMask_zero] at this
      cases this
    rw [this]
    rfl
  · cases hls : lanes act with
    | nil => exact absurd hls (lanes_ne_nil h0)
    | cons l ls =>
      refine ⟨_, row l _ g, ?_⟩
      intro q
      have hr := get_foldl_row (fun a => n + a) (fun a b h => by omega) (f l) 0 g.s
      rw [← List.range_eq_range'] at hr
      simp only [List.headD_cons]
      by_cases hq : n ≤ q
      · have := hr.1 (q - n)
        rw [show n + (q - n) = q by omega] at this
        rw [if_pos ⟨h0, hq⟩, this]
        simp
      · rw [if_neg (fun h => hq h.2)]
        exact hr.2 q (fun a ha => hq (by omega))

end Sys2Proof.Machine
end

