-- ==== Sys2Proof/Laws/Traps.lean ====
section
/-! SUPPORT. What aborting a launch and taking a trap can do. -/

namespace Sys2Proof.Machine

/-- What an abort leaves alone. -/
theorem abort_kept (s : State) (lid cause sub : Nat) (nested td : Bool) :
    (s.abort lid cause sub nested td).groups = s.groups ∧ (s.abort lid cause sub nested td).blocks = s.blocks ∧
    (s.abort lid cause sub nested td).mem = s.mem ∧ (s.abort lid cause sub nested td).pend = s.pend ∧
    (s.abort lid cause sub nested td).worlds = s.worlds ∧ (s.abort lid cause sub nested td).now = s.now ∧
    (s.abort lid cause sub nested td).retired = s.retired ∧ (s.abort lid cause sub nested td).issuer = s.issuer := by
  unfold State.abort
  split
  · simp
  · split
    · simp only []
      split <;> simp
    · simp

theorem abort_group? (s : State) (lid cause sub : Nat) (nested td : Bool) (x : Gid) : (s.abort lid cause sub nested td).group? x = s.group? x := by
  unfold State.group?
  rw [(abort_kept s lid cause sub nested td).1]

/-- A running launch is aborted. -/
theorem abort_status (s : State) (lid cause sub : Nat) (nested td : Bool) (l : Launch) (h : s.launch? lid = some l) (hr : l.status = .running) :
    ∃ y, (s.abort lid cause sub nested td).launch? lid = some y ∧ y.status = .aborting cause sub nested td false (BitVec.ofNat 64 s.now) := by
  unfold State.abort
  simp only [h, hr]
  refine ⟨{ l with status := .aborting cause sub nested td false (BitVec.ofNat 64 s.now), dom := none, holds := [] }, ?_, rfl⟩
  have key : (s.modLaunch lid fun x =>
        { x with status := .aborting cause sub nested td false (BitVec.ofNat 64 s.now), dom := none, holds := [] }).launch? lid =
      some { l with status := .aborting cause sub nested td false (BitVec.ofNat 64 s.now), dom := none, holds := [] } := by
    rw [State.launch?_modLaunch _ _ _ (fun x =>
        { x with status := .aborting cause sub nested td false (BitVec.ofNat 64 s.now), dom := none, holds := [] }) (fun _ => rfl), if_pos rfl, h]
    rfl
  split
  · exact key
  · exact key

theorem get_foldl_set {w : Nat} (f : Nat → BitVec w) (m : Mask) (m0 : SMap w) (l : Nat) :
    SMap.get ((lanes m).foldl (fun a k => SMap.set a k (f k)) m0) l = if inMask m l then f l else SMap.get m0 l := by
  rw [get_foldl_lanes (fun a k => SMap.set a k (f k)) (fun _ _ => True) (fun _ k _ => f k) id]
  · simp
  · intro a j k _
    rw [SMap.get_set]
    by_cases hk : k = j <;> simp [hk]

/-- A group with a trap frame written. -/
def withFrame (c : Ctx) (cause : Nat) (faulting : Mask) (info : DWord) (addr : Nat → DWord) (g : Group) : Group :=
  { g with
    frame := { cause := BitVec.ofNat 32 cause, inst := c.is.inst, mask := faulting, pc := c.is.pc,
               addr := (lanes faulting).foldl (fun m l => SMap.set m l (addr l)) [], info := info } }

/-- Everything that a trap does. -/
theorem takeTrap_taken {s : State} {c : Ctx} (hc : s.ctx? = some c) (cause : Nat) (faulting e : Mask) (info : DWord) (addr : Nat → DWord) :
    ∃ g, TrapTaken s c cause faulting e info addr (takeTrap c cause faulting e info addr s) g := by
  obtain ⟨hg, -, hl, -⟩ := ctx_parts hc
  have hf := State.group?_modGroup s c.gid c.gid (withFrame c cause faulting info addr) (fun _ => rfl)
  rw [if_pos rfl, hg] at hf
  have ho := fun x (hx : x ≠ c.gid) => State.group?_modGroup s c.gid x (withFrame c cause faulting info addr) (fun _ => rfl)
  have haddr : ∀ l, inMask faulting l = true → SMap.get ((lanes faulting).foldl (fun m l => SMap.set m l (addr l)) []) l = addr l := by
    intro l hm
    rw [get_foldl_set, if_pos hm]
  unfold takeTrap
  cases hh : c.g.handler with
  | some h0 =>
    simp only [Option.isSome_some, if_true]
    by_cases hu : cause = Cause.uncorrectable
    all_goals
      first | rw [if_pos hu] | rw [if_neg hu]
      refine ⟨withFrame c cause faulting info addr c.g,
        ⟨?_, ⟨rfl, rfl, rfl, rfl, rfl⟩, haddr, ⟨rfl, rfl, rfl, rfl, rfl, rfl, rfl⟩, ⟨rfl, rfl, rfl⟩, ?_, ?_, ?_, ?_⟩⟩
      · rw [abort_group?]
        exact hf
      · refine ⟨(abort_kept _ _ _ _ _ _).2.2.1, (abort_kept _ _ _ _ _ _).2.2.2.1, (abort_kept _ _ _ _ _ _).2.1, ?_⟩
        intro x hx
        rw [abort_group?]
        have := ho x hx
        rw [if_neg hx] at this
        exact this
      · intro h hn
        rw [hh] at hn
        cases hn
      · intro _
        refine ⟨rfl, hh ▸ rfl, ?_⟩
        first | rw [if_pos hu] | rw [if_neg hu]
        intro l h1 h2
        exact abort_status _ _ _ _ _ _ l h1 h2
      · intro hn
        rw [hh] at hn
        cases hn
  | none =>
    simp only [Option.isSome_none, Bool.false_eq_true, if_false]
    cases hho : c.l.handlerOf cause with
    | none =>
      simp only []
      by_cases hu : cause = Cause.uncorrectable
      · rw [if_pos hu]
        refine ⟨withFrame c cause faulting info addr c.g,
      ⟨?_, ⟨rfl, rfl, rfl, rfl, rfl⟩, haddr, ⟨rfl, rfl, rfl, rfl, rfl, rfl, rfl⟩, ⟨rfl, rfl, rfl⟩, ?_, ?_, ?_, ?_⟩⟩
        · rw [abort_group?]
          exact hf
        · obtain ⟨k1, k2, k3, k4, -⟩ := abort_kept (s.modGroup c.gid (withFrame c cause faulting info addr))
            c.gid.lid Cause.contained cause false false
          refine ⟨k3, k4, k2, ?_⟩
          intro x hx
          rw [abort_group?]
          have := ho x hx
          rw [if_neg hx] at this
          exact this
        · intro h _ hn
          rw [hho] at hn
          cases hn
        · intro hn
          exact absurd hh hn
        · intro _ _
          refine ⟨rfl, hh, ?_⟩
          rw [if_pos hu]
          intro l h1 h2
          exact abort_status _ _ _ _ _ _ l h1 h2
      · rw [if_neg hu]
        refine ⟨withFrame c cause faulting info addr c.g,
      ⟨?_, ⟨rfl, rfl, rfl, rfl, rfl⟩, haddr, ⟨rfl, rfl, rfl, rfl, rfl, rfl, rfl⟩, ⟨rfl, rfl, rfl⟩, ?_, ?_, ?_, ?_⟩⟩
        · rw [abort_group?]
          exact hf
        · obtain ⟨k1, k2, k3, k4, -⟩ := abort_kept (s.modGroup c.gid (withFrame c cause faulting info addr))
            c.gid.lid cause 0 false false
          refine ⟨k3, k4, k2, ?_⟩
          intro x hx
          rw [abort_group?]
          have := ho x hx
          rw [if_neg hx] at this
          exact this
        · intro h _ hn
          rw [hho] at hn
          cases hn
        · intro hn
          exact absurd hh hn
        · intro _ _
          refine ⟨rfl, hh, ?_⟩
          rw [if_neg hu]
          intro l h1 h2
          exact abort_status _ _ _ _ _ _ l h1 h2
    | some h =>
      simp only []
      generalize hF : (fun g : Group => ({ g with handler := if e = 0 then none else some { lanes := e, len := c.is.len } } : Group).issued c.is.pc
        c.is.mask [mkFrag h e, mkFrag (c.is.pc + BitVec.ofNat 32 c.is.len) (c.is.mask &&& ~~~ e)]) = F
      have hFg : ∀ x, (F x).gid = x.gid := by subst hF; intro x; rfl
      have hi := State.group?_modGroup (s.modGroup c.gid (withFrame c cause faulting info addr)) c.gid c.gid F hFg
      rw [if_pos rfl, hf] at hi
      refine ⟨F (withFrame c cause faulting info addr c.g), ⟨hi, ?_, ?_, ?_, ?_, ⟨rfl, rfl, rfl, ?_⟩, ?_, ?_, ?_⟩⟩
      · subst hF; exact ⟨rfl, rfl, rfl, rfl, rfl⟩
      · subst hF; exact haddr
      · subst hF; exact ⟨rfl, rfl, rfl, rfl, rfl, rfl, rfl⟩
      · subst hF; exact ⟨rfl, rfl, rfl⟩
      · intro x hx
        have := State.group?_modGroup (s.modGroup c.gid (withFrame c cause faulting info addr)) c.gid x F hFg
        rw [if_neg hx, ho x hx, if_neg hx] at this
        exact this
      · intro h' _ hh'
        rw [hho] at hh'
        cases hh'
        subst hF
        refine ⟨?_, ?_, rfl, rfl, rfl⟩
        · intro l hl
          refine issued_stands _ _ _ _ _ _ ?_
          by_cases he : inMask e l = true
          · rw [if_pos he]
            exact ⟨_, List.mem_cons_self, rfl, rfl, he⟩
          · rw [if_neg he]
            refine ⟨_, List.mem_cons_of_mem _ (List.mem_singleton_self _), rfl, rfl, ?_⟩
            show inMask (c.is.mask &&& ~~~ e) l = true
            rw [inMask_and, hl]
            have h64 : l < 64 := BitVec.lt_of_getLsbD hl
            have he' : e.getLsbD l = false := by
              unfold inMask at he
              simpa using he
            unfold inMask
            rw [BitVec.getLsbD_not, he']
            simp [h64]
        · intro he
          show (if e = 0 then none else some ({ lanes := e, len := c.is.len } : Handler)) = _
          rw [if_neg he]
      · intro hn
        exact absurd hh hn
      · intro _ hn
        rw [hho] at hn
        cases hn

theorem traps {s : State} {c : Ctx} (hc : s.ctx? = some c) (cause : Nat) (faulting e : Mask) (info : DWord) (addr : Nat → DWord) :
    Traps s c cause faulting e info addr (.next (takeTrap c cause faulting e info addr s)) := by
  obtain ⟨g, h⟩ := takeTrap_taken hc cause faulting e info addr
  exact ⟨_, g, rfl, h⟩

theorem illegalRun_traps {s : State} {c : Ctx} (hc : s.ctx? = some c) (m act : Mask) : TrapsIllegal s c m act (.next (illegalRun c m act s)) :=
  traps hc _ _ _ _ _

/-- Only the addresses of the faulting lanes count. -/
theorem traps_congr {s : State} {c : Ctx} {cause : Nat} {f e : Mask} {info : DWord} {a b : Nat → DWord} {o : Host.Outcome State Fault Refusal}
    (h : Traps s c cause f e info a o) (hab : ∀ l, inMask f l = true → a l = b l) : Traps s c cause f e info b o := by
  obtain ⟨t, g, ho, h⟩ := h
  exact ⟨t, g, ho, ⟨h.found, h.frame, fun l hl => (h.addr l hl).trans (hab l hl), h.regs, h.kept, h.outside, h.entered, h.nested, h.aborted⟩⟩

end Sys2Proof.Machine
end

