-- ==== Sys2Proof/Laws/Settle.lean ====
section
/-! SUPPORT. What arrivals complete when one group of a block converges at once. -/

namespace Sys2Proof.Machine

/-- The parked fragment of a group that converges at once. -/
def parked (c : Ctx) (p : Park) : Frag := { mkFrag c.is.pc c.is.mask with park := some (c.is.len, p) }

theorem mask_and_not (m : Mask) : m &&& ~~~ m = 0 := by
  apply BitVec.eq_of_getLsbD_eq
  intro i hi
  rw [BitVec.getLsbD_and, BitVec.getLsbD_not]
  cases m.getLsbD i <;> simp

/-- Parking every lane of a lone fragment leaves one parked fragment. -/
theorem issued_alone {c : Ctx} {hd : Hdr} {s : State} (h : Alone s c hd) (g : Group) (hf : g.frags = c.g.frags) (p : Park) :
    g.issued c.is.pc c.is.mask [parked c p, mkFrag c.after (c.is.mask &&& ~~~ c.is.mask)] =
      { g with frags := [parked c p], pass := false, stuck := none, ahead := [] } := by
  obtain ⟨f, hfr, h1, h2, h3⟩ := h.frags
  have hm : (parked c p).mask ≠ 0 := h.some_
  have h0 : c.is.mask &&& c.is.mask ≠ 0 := by
    rw [BitVec.and_self]
    exact h.some_
  unfold Group.issued
  have hmine : (decide (f.pc = c.is.pc) && f.park.isNone && decide (f.mask &&& c.is.mask ≠ 0)) = true := by
    rw [h1, h2, h3]
    simp only [decide_true, Option.isNone_none, Bool.true_and, Bool.and_true, decide_eq_true_eq]
    exact h0
  simp only [hf, hfr, List.map_cons, List.map_nil, hmine, if_true, h2, mask_and_not]
  rw [List.filter_cons_of_neg (by simp [h1, h3, (show ¬ c.is.mask = 0#64 from h.some_)]), List.filter_nil]
  have e : ∀ (k : Nat) (mark : Option Mask),
      joinFrags g.hlanes [] (headed k [(parked c p).marked mark, (mkFrag c.after 0).marked mark]) = [parked c p] := by
    intro k mark
    have e0 : (parked c p).marked mark = parked c p := rfl
    have e1 : addFrag g.hlanes [] (parked c p) = [parked c p] := if_neg hm
    have e2 : addFrag g.hlanes [parked c p] ((mkFrag c.after 0).marked mark) = [parked c p] := if_pos rfl
    show (addFrag g.hlanes (addFrag g.hlanes [] ((parked c p).marked mark)) ((mkFrag c.after 0).marked mark)).map _ = _
    rw [e0, e1, e2]
    rfl
  rw [e]

/-! ### What settling a group keeps -/

theorem setPred_gid (g : Group) (l i : Nat) (v : Bool) : (g.setPred l i v).gid = g.gid := by
  unfold Group.setPred
  split <;> rfl

/-- A release moves lanes and changes nothing else of a group but what it holds back for the end of a handler. -/
theorem release_eq (g : Group) (pc : Word) (m : Mask) (len : Nat) :
    ∃ fs fr, g.release pc m len = { g with frags := fs, freed := fr } := by
  unfold Group.release Group.letGo
  simp only []
  split
  · exact ⟨_, _, rfl⟩
  · exact ⟨_, _, rfl⟩

theorem release_gid (g : Group) (pc : Word) (m : Mask) (len : Nat) : (g.release pc m len).gid = g.gid := by
  obtain ⟨_, _, h⟩ := release_eq g pc m len
  rw [h]

/-- No lanes, no lanes held back. -/
theorem loose_zero (g : Group) : g.loose 0 = 0 := by
  unfold Group.loose
  split
  · rfl
  · split
    · rfl
    · exact BitVec.zero_and

/-- With no handler running and no debugger stop, every lane whose wait has ended goes on (R312, R362). -/
theorem loose_calm {g : Group} (h : g.hlanes = 0) (hs : g.stop = none) (m : Mask) : g.loose m = m := by
  unfold Group.loose
  rw [hs]
  exact if_pos h

theorem release_calm {g : Group} (h : g.hlanes = 0) (hs : g.stop = none) (pc : Word) (m : Mask) (len : Nat) : g.release pc m len = g.letGo pc m len := by
  unfold Group.release
  simp only [loose_calm h hs, if_true]

theorem hlanes_none {g : Group} (h : g.handler = none) : g.hlanes = 0 := by
  unfold Group.hlanes
  rw [h]

theorem letGo_gid (g : Group) (pc : Word) (m : Mask) (len : Nat) : (g.letGo pc m len).gid = g.gid := rfl

/-- What one lane of a collective writes. -/
def outStep (w64 : Bool) (fresh : Nat) (d : Option (Opnd × Nat)) (f : Nat → LaneOut) (g : Group) (l : Nat) : Group :=
  let o := f l
  let g := match o.p with | none => g | some (i, v) => g.setPred l i v
  let g := if o.fl = 0 then g else g.flag l o.fl
  match d with
  | some (dst, k) => if dst.cls = .v || dst.cls = .h then g.writeReg w64 fresh k l dst o.d else g
  | none => g

theorem outStep_gid (w64 : Bool) (fresh : Nat) (d : Option (Opnd × Nat)) (f : Nat → LaneOut) (g : Group) (l : Nat) :
    (outStep w64 fresh d f g l).gid = g.gid := by
  have hfl : ∀ (g : Group) (l : Nat) (v : Word), (g.flag l v).gid = g.gid := fun _ _ _ => rfl
  unfold outStep
  rcases d with _ | ⟨o, k⟩
  · simp only []
    split <;> split <;> simp only [hfl, setPred_gid]
  · simp only []
    split <;> split <;> split <;> simp only [writeReg_gid, hfl, setPred_gid]

theorem writeOuts_steps (g : Group) (w64 : Bool) (fresh : Nat) (d : Option (Opnd × Nat)) (f : Nat → LaneOut) (act : List Nat) :
    g.writeOuts w64 fresh d f act =
      match d, act with
      | some (dst, k), l :: _ => if dst.cls = .s then (act.foldl (outStep w64 fresh d f) g).writeReg w64 fresh k l dst (f l).d
          else act.foldl (outStep w64 fresh d f) g
      | _, _ => act.foldl (outStep w64 fresh d f) g := by
  rcases d with _ | ⟨⟨cl, n⟩, k⟩ <;> cases act <;> rfl

theorem writeOuts_gid (g : Group) (w64 : Bool) (fresh : Nat) (d : Option (Opnd × Nat)) (f : Nat → LaneOut) (act : List Nat) :
    (g.writeOuts w64 fresh d f act).gid = g.gid := by
  rw [writeOuts_steps]
  split
  · split
    · rw [writeReg_gid]
      exact foldl_gid _ (outStep_gid _ _ _ _) _ g
    · exact foldl_gid _ (outStep_gid _ _ _ _) _ g
  · exact foldl_gid _ (outStep_gid _ _ _ _) _ g

theorem settle_gid (w64 : Bool) (fresh : Nat) (g : Group) : (g.settle w64 fresh).gid = g.gid := by
  have hc : ∀ (g : Group) (c : Coll), (g.finishColl w64 fresh c).gid = g.gid := by
    intro g c
    unfold Group.finishColl
    exact (release_gid _ _ _ _).trans (writeOuts_gid _ _ _ _ _ _)
  have hm : ∀ (g : Group) (f : Frag), (g.meet f).gid = g.gid := by
    intro g f
    unfold Group.meet
    simp only []
    split
    · rfl
    · split
      · rw [release_gid]
        exact foldl_gid _ (fun g l => setPred_gid _ _ _ _) _ g
      · exact release_gid _ _ _ _
      · rfl
  have ht : ∀ g : Group, g.tretDone.gid = g.gid := by
    intro g
    unfold Group.tretDone
    split
    · rfl
    · simp only []
      split
      · exact foldl_gid _ (fun g e => letGo_gid g _ _ _) _ _
      · rfl
  unfold Group.settle
  simp only []
  rw [foldl_gid _ hm, foldl_gid _ hc, ht]

theorem groupsOf_modGroup (s : State) (gid : Gid) (f : Group → Group) (hf : ∀ x, (f x).gid = x.gid) (lid blk : Nat) :
    (s.modGroup gid f).groupsOf lid blk = (s.groupsOf lid blk).map fun x => if x.gid = gid then f x else x := by
  unfold State.modGroup State.groupsOf
  simp only []
  induction s.groups with
  | nil => rfl
  | cons g gs ih =>
    have hg : (if g.gid = gid then f g else g).gid = g.gid := by
      split
      · exact hf g
      · rfl
    simp only [List.map_cons, List.filter_cons, hg]
    split
    · rw [List.map_cons, ih]
    · exact ih

/-- Settling a block of one group with no open phase, no domain and nobody at a REGROUP settles the group alone. -/
theorem settle_one (s : State) (gid : Gid) (l : Launch) (b : Block) (g : Group) (hl : s.launch? gid.lid = some l) (hb : s.block? gid.lid gid.blk = some b)
    (hph : b.phases = []) (hgs : s.groupsOf gid.lid gid.blk = [g]) (hg : g.gid = gid) (hdom : l.dom = none)
    (hgf : s.group? gid = some g) (hr : (g.settle l.w64 s.fresh).regroupPark = none) :
    settle gid s = s.modGroup gid fun x => x.settle l.w64 s.fresh := by
  have hkeep : ∀ x : Group, (x.settle l.w64 s.fresh).gid = x.gid := settle_gid _ _
  have hs : (g.settle l.w64 s.fresh).gid = gid := (hkeep g).trans hg
  have h1 : (s.modGroup gid fun x => x.settle l.w64 s.fresh).groupsOf gid.lid gid.blk = [g.settle l.w64 s.fresh] := by
    rw [groupsOf_modGroup _ _ (fun x => x.settle l.w64 s.fresh) hkeep, hgs]
    simp [hg]
  have h2 : (s.modGroup gid fun x => x.settle l.w64 s.fresh).settleBars gid.lid gid.blk = s.modGroup gid fun x => x.settle l.w64 s.fresh := by
    unfold State.settleBars
    rw [State.modGroup_block?, hb]
    simp [hph]
  have h3 : (s.modGroup gid fun x => x.settle l.w64 s.fresh).group? gid = some (g.settle l.w64 s.fresh) := by
    rw [State.group?_modGroup _ _ _ (fun x => x.settle l.w64 s.fresh) hkeep, if_pos rfl, hgf]
    rfl
  unfold settle
  simp only [hl]
  rw [h2, h1]
  simp only [List.foldl_cons, List.foldl_nil]
  have h4 : ∀ w, (s.modGroup gid fun x => x.settle l.w64 s.fresh).settleRegroup w (g.settle l.w64 s.fresh).gid =
      s.modGroup gid fun x => x.settle l.w64 s.fresh := by
    intro w
    unfold State.settleRegroup
    rw [hs, h3]
    simp only [hr]
  rw [h4]
  unfold State.settleDomain
  rw [State.modGroup_launch?, hl]
  simp only [hdom]

/-- The group of a lone fragment once all its lanes are parked. -/
def parkedGroup (c : Ctx) (p : Park) (g : Group) : Group := { g with frags := [parked c p], pass := false, stuck := none, ahead := [] }

/-- The state in which the instruction of a lone group has parked every lane and everything that this completes has happened. -/
theorem alone_settle {s : State} {c : Ctx} {hd : Hdr} (h : Alone s c hd) (f : Group → Group) (hf : ∀ x, (f x).gid = x.gid)
    (hfr : (f c.g).frags = c.g.frags) (p : Park)
    (hr : ((parkedGroup c p (f c.g)).settle c.w64 s.fresh).regroupPark = none) :
    (settle c.gid (parkAt c (c.act hd) p (s.modGroup c.gid f))).group? c.gid = some ((parkedGroup c p (f c.g)).settle c.w64 s.fresh) ∧
    (settle c.gid (parkAt c (c.act hd) p (s.modGroup c.gid f))).blocks = s.blocks ∧
    (settle c.gid (parkAt c (c.act hd) p (s.modGroup c.gid f))).retired = SMap.set s.retired c.core (SMap.get s.retired c.core + 1) ∧
    SameElsewhere s (settle c.gid (parkAt c (c.act hd) p (s.modGroup c.gid f))) c.gid := by
  obtain ⟨hg, hb, hl, hi⟩ := ctx_parts h.ctx
  have hgid : c.g.gid = c.gid := by
    have := List.find?_some hg
    simpa using this
  have hiss : (f c.g).issued c.is.pc c.is.mask [parked c p, mkFrag c.after (c.is.mask &&& ~~~ c.is.mask)] = parkedGroup c p (f c.g) :=
    issued_alone h (f c.g) hfr p
  have hnews : parkAt c (c.act hd) p (s.modGroup c.gid f) =
      advance c [parked c p, mkFrag c.after (c.is.mask &&& ~~~ c.is.mask)] (s.modGroup c.gid f) := by
    unfold parkAt
    rw [h.act]
    rfl
  rw [hnews]
  have h1 : (s.modGroup c.gid f).group? c.gid = some (f c.g) := by
    rw [State.group?_modGroup _ _ _ f hf, if_pos rfl, hg]
    rfl
  have h2 : (advance c [parked c p, mkFrag c.after (c.is.mask &&& ~~~ c.is.mask)] (s.modGroup c.gid f)).group? c.gid = some (parkedGroup c p (f c.g)) := by
    rw [advance_group?, if_pos rfl, h1, Option.map_some, hiss]
  have h3 : (advance c [parked c p, mkFrag c.after (c.is.mask &&& ~~~ c.is.mask)] (s.modGroup c.gid f)).groupsOf c.gid.lid c.gid.blk =
      [parkedGroup c p (f c.g)] := by
    show ((s.modGroup c.gid f).modGroup c.gid fun g => g.issued c.is.pc c.is.mask [parked c p, mkFrag c.after (c.is.mask &&& ~~~ c.is.mask)]).groupsOf
      c.gid.lid c.gid.blk = _
    rw [groupsOf_modGroup _ _ (fun g => g.issued c.is.pc c.is.mask [parked c p, mkFrag c.after (c.is.mask &&& ~~~ c.is.mask)]) (fun _ => rfl),
      groupsOf_modGroup _ _ f hf, h.groups]
    simp only [List.map_cons, List.map_nil, hgid, if_true, hf]
    rw [hiss]
  have hb' : (advance c [parked c p, mkFrag c.after (c.is.mask &&& ~~~ c.is.mask)] (s.modGroup c.gid f)).block? c.gid.lid c.gid.blk = some c.b := hb
  have hl' : (advance c [parked c p, mkFrag c.after (c.is.mask &&& ~~~ c.is.mask)] (s.modGroup c.gid f)).launch? c.gid.lid = some c.l := hl
  have hset := settle_one (advance c [parked c p, mkFrag c.after (c.is.mask &&& ~~~ c.is.mask)] (s.modGroup c.gid f)) c.gid c.l c.b
    (parkedGroup c p (f c.g)) hl' hb' h.phases h3 ((hf c.g).trans hgid) h.dom h2 hr
  rw [hset]
  refine ⟨?_, rfl, rfl, ?_⟩
  · rw [State.group?_modGroup _ _ _ (fun x => x.settle c.l.w64 _) (settle_gid _ _), if_pos rfl, h2]
    rfl
  · refine SameElsewhere.trans (SameElsewhere.trans (sameElsewhere_modGroup s c.gid f hf) (advance_elsewhere c
      [parked c p, mkFrag c.after (c.is.mask &&& ~~~ c.is.mask)] (s.modGroup c.gid f))) ?_
    exact sameElsewhere_modGroup _ _ _ (settle_gid _ _)

/-! ### What settling a parked lone group gives -/

theorem metLanes_all (live : Mask) (f : Frag) :
    metLanes live live f = match f.park with
      | some (_, .waitr _ ws) => maskOf (ws.map fun x => x.1)
      | some (_, .sync ws) => maskOf (ws.map fun x => x.1)
      | _ => 0 := by
  have key : ∀ m : Mask, m &&& live &&& ~~~ live = 0 := by
    intro m
    apply BitVec.eq_of_getLsbD_eq
    intro i hi
    simp only [BitVec.getLsbD_and, BitVec.getLsbD_not]
    cases live.getLsbD i <;> simp
  unfold metLanes
  rcases hp : f.park with _ | ⟨n, p⟩
  · rfl
  · cases p <;> simp [key]

theorem maskOf_lanes (m : Mask) : maskOf (lanes m) = m := by
  apply BitVec.eq_of_getLsbD_eq
  intro i hi
  have h1 := inMask_maskOf (lanes m) (fun x hx => lanes_lt hx) i
  rw [mem_lanes] at h1
  unfold inMask at h1
  cases h : m.getLsbD i with
  | false =>
    cases h2 : (maskOf (lanes m)).getLsbD i with
    | false => rfl
    | true => rw [h1.mp h2] at h; cases h
  | true => exact h1.mpr h

/-- Releasing every lane of the only fragment, parked, leaves them at the next instruction. -/
theorem release_alone (c : Ctx) (p : Park) (g : Group) (hf : g.frags = [parked c p]) (h0 : c.is.mask ≠ 0) (hh : g.handler = none)
    (hs : g.stop = none) : g.release c.is.pc c.is.mask c.is.len = { g with frags := [mkFrag c.after c.is.mask] } := by
  rw [release_calm (hlanes_none hh) hs]
  unfold Group.letGo
  have hp : (parked c p).pc = c.is.pc := rfl
  have hm : (parked c p).mask = c.is.mask := rfl
  have hq : (parked c p).park.isSome = true := rfl
  simp only [hf, List.map_cons, List.map_nil, hp, hq, decide_true, Bool.true_and, Bool.and_true, if_true]
  simp only [hm, mask_and_not]
  rw [List.filter_cons_of_neg (by simp)]
  have e : joinFrags g.hlanes [] [mkFrag c.after c.is.mask] = [mkFrag c.after c.is.mask] := by
    show (addFrag g.hlanes [] (mkFrag c.after c.is.mask)).map _ = _
    rw [show addFrag g.hlanes [] (mkFrag c.after c.is.mask) = [mkFrag c.after c.is.mask] from if_neg h0]
    rfl
  show { g with frags := joinFrags g.hlanes [] [mkFrag c.after c.is.mask] } = _
  rw [e]

/-- The lanes that are parked where the only fragment of a group is parked. -/
theorem parkedAt_alone (c : Ctx) (p : Park) (g : Group) : (parkedGroup c p g).parkedAt c.is.pc = c.is.mask := by
  show (if (decide (c.is.pc = c.is.pc) && true) = true then (0 : Mask) ||| c.is.mask else 0) = _
  simp

theorem stands_one (g : Group) (pc : Word) (m : Mask) (h : g.frags = [mkFrag pc m]) (l : Nat) (hl : inMask m l = true) : g.stands l pc :=
  ⟨mkFrag pc m, by rw [h]; exact List.mem_singleton_self _, rfl, rfl, hl⟩

theorem tretDone_none (g : Group) (h : g.handler = none) : g.tretDone = g := by
  unfold Group.tretDone
  rw [h]

/-- Settling a group whose only fragment is parked. -/
theorem settle_parked {c : Ctx} {p : Park} {g : Group} {w64 : Bool} {fresh : Nat} (hc : g.colls = []) (hh : g.handler = none) :
    (parkedGroup c p g).settle w64 fresh = (parkedGroup c p g).meet (parked c p) := by
  unfold Group.settle
  have h0 : (parkedGroup c p g).tretDone = parkedGroup c p g := tretDone_none _ hh
  rw [h0]
  have h1 : (parkedGroup c p g).colls = [] := hc
  have h2 : (parkedGroup c p g).frags = [parked c p] := rfl
  simp only [h1, List.filter_nil, List.foldl_nil, h2, List.foldl_cons]

/-- One predicate written in the lanes of a mask. -/
theorem setPred_foldl (ls : Mask) (g : Group) (pd : Nat) (b : Bool) :
    (lanes ls).foldl (fun g l => g.setPred l pd b) g =
      { g with p := (lanes ls).foldl (laneP (fun _ => { p := some (pd, b) })) g.p } := by
  have : ∀ (xs : List Nat) (g : Group), xs.foldl (fun g l => g.setPred l pd b) g =
      { g with p := xs.foldl (laneP (fun _ => { p := some (pd, b) })) g.p } := by
    intro xs
    induction xs with
    | nil => intro g; rfl
    | cons x xs ih =>
      intro g
      have h1 : g.setPred x pd b = { g with p := laneP (fun _ => { p := some (pd, b) }) g.p x } := by
        unfold Group.setPred laneP
        by_cases h : pd = 0
        · rw [if_pos h]
          simp only []
          rw [if_pos h]
        · rw [if_neg h]
          simp only []
          rw [if_neg h]
      rw [List.foldl_cons, ih, List.foldl_cons, h1]
  exact this _ _

/-- Parked lanes stand parked at their instruction. -/
theorem parkAt_parks {s : State} {c : Ctx} {g0 : Group} (hg : s.group? c.gid = some g0) (m : Mask) (p : Park) (l : Nat) (hl : inMask m l = true) :
    ∃ g, (parkAt c m p s).group? c.gid = some g ∧ ∃ f ∈ g.frags, f.park.isSome = true ∧ f.pc = c.is.pc ∧ inMask f.mask l = true := by
  unfold parkAt
  rw [advance_group?, if_pos rfl, hg]
  refine ⟨_, rfl, ?_⟩
  have h0 : m ≠ 0 := ne_zero_of_inMask hl
  have key : ∀ (hl : Mask) (fs : List Frag) (n : Frag), n.mask ≠ 0 → n.park.isSome = true →
      ∃ x ∈ addFrag hl fs n, x.park.isSome = true ∧ x.pc = n.pc ∧ ∀ l, inMask n.mask l = true → inMask x.mask l = true := by
    intro hl fs n hn hp
    induction fs with
    | nil => exact ⟨n, by unfold addFrag; rw [if_neg hn]; exact List.mem_singleton_self _, hp, rfl, fun _ h => h⟩
    | cons y ys ih =>
      unfold addFrag
      rw [if_neg hn]
      split
      · rename_i hj
        refine ⟨_, List.mem_cons_self, ?_, ?_, ?_⟩
        · unfold Frag.joins at hj
          simp only [Bool.and_eq_true, beq_iff_eq, decide_eq_true_eq] at hj
          have hy : y.park.isSome = true := hj.1.2.trans hp
          rcases hyp : y.park with _ | ⟨k, q⟩
          · rw [hyp] at hy; cases hy
          · rcases hnp : n.park with _ | ⟨k', q'⟩
            · rw [hnp] at hp; cases hp
            · cases q <;> cases q' <;> simp [joinPark, hyp, hnp]
        · unfold Frag.joins at hj
          simp only [Bool.and_eq_true, decide_eq_true_eq] at hj
          exact hj.1.1
        · intro l h
          show inMask (y.mask ||| n.mask) l = true
          rw [inMask_or, h, Bool.or_true]
      · obtain ⟨x, h1, h2⟩ := ih
        exact ⟨x, List.mem_cons_of_mem _ h1, h2⟩
  have keep : ∀ (hl : Mask) (fs : List Frag) (n : Frag) (x : Frag), x ∈ fs → x.park.isSome = true →
      ∃ y ∈ addFrag hl fs n, y.park.isSome = true ∧ y.pc = x.pc ∧ ∀ l, inMask x.mask l = true → inMask y.mask l = true := by
    intro hl fs n x hx hp
    induction fs with
    | nil => cases hx
    | cons y ys ih =>
      unfold addFrag
      split
      · exact ⟨x, hx, hp, rfl, fun _ h => h⟩
      · split
        · rename_i hj
          rcases List.mem_cons.mp hx with rfl | hx
          · refine ⟨_, List.mem_cons_self, ?_, rfl, ?_⟩
            · unfold Frag.joins at hj
              simp only [Bool.and_eq_true, beq_iff_eq, decide_eq_true_eq] at hj
              have hn : n.park.isSome = true := hj.1.2.symm.trans hp
              rcases hyp : x.park with _ | ⟨k, q⟩
              · rw [hyp] at hp; cases hp
              · rcases hnp : n.park with _ | ⟨k', q'⟩
                · rw [hnp] at hn; cases hn
                · cases q <;> cases q' <;> simp [joinPark, hyp, hnp]
            · intro l h
              show inMask (x.mask ||| n.mask) l = true
              rw [inMask_or, h, Bool.true_or]
          · exact ⟨x, List.mem_cons_of_mem _ hx, hp, rfl, fun _ h => h⟩
        · rcases List.mem_cons.mp hx with rfl | hx
          · exact ⟨x, List.mem_cons_self, hp, rfl, fun _ h => h⟩
          · obtain ⟨z, h1, h2⟩ := ih hx
            exact ⟨z, List.mem_cons_of_mem _ h1, h2⟩
  unfold Group.issued
  refine mem_joinFrags (P := fun q k pk => pk.isSome = true ∧ q = c.is.pc ∧ inMask k l = true) ?_
  obtain ⟨x, h1, h2, h3, h4⟩ := key g0.hlanes _ { mkFrag c.is.pc m with park := some (c.is.len, p) } h0 rfl
  obtain ⟨y, h5, h6, h7, h8⟩ := keep g0.hlanes _ (Frag.marked _ (mkFrag c.after (c.is.mask &&& ~~~ m))) x h1 h2
  exact ⟨y, h5, h6, h7.trans h3, h8 l (h4 l hl)⟩

/-- A fragment that is not parked meets nobody. -/
theorem meet_unparked (g : Group) (f : Frag) (hf : f.park = none) : g.meet f = g := by
  unfold Group.meet metLanes
  simp [hf]

/-- Settling a group in which nothing waits changes nothing. -/
theorem settle_calm (g : Group) (w64 : Bool) (fresh : Nat) (hc : g.colls = []) (hf : ∀ f ∈ g.frags, g.meet f = g) (hh : g.handler = none) :
    g.settle w64 fresh = g := by
  have h1 : ∀ fs : List Frag, (∀ f ∈ fs, g.meet f = g) → fs.foldl (fun g f => g.meet f) g = g := by
    intro fs
    induction fs with
    | nil => intro _; rfl
    | cons f fs ih =>
      intro h
      rw [List.foldl_cons, h f List.mem_cons_self]
      exact ih fun x hx => h x (List.mem_cons_of_mem _ hx)
  unfold Group.settle
  rw [tretDone_none _ hh]
  simp only [hc, List.filter_nil, List.foldl_nil]
  exact h1 _ hf

/-- A property of parks that merging keeps holds of every fragment once one more has been added. -/
theorem addFrag_parks (P : Option (Nat × Park) → Prop) (hj : ∀ a b, P a → P b → P (joinPark a b)) (hl : Mask) (fs : List Frag) (n : Frag)
    (h : ∀ f ∈ fs, P f.park) (hn : P n.park) : ∀ f ∈ addFrag hl fs n, P f.park := by
  induction fs with
  | nil =>
    intro f hf
    unfold addFrag at hf
    split at hf
    · cases hf
    · rw [List.mem_singleton.mp hf]
      exact hn
  | cons x xs ih =>
    intro f hf
    unfold addFrag at hf
    split at hf
    · exact h f hf
    · split at hf
      · rcases List.mem_cons.mp hf with rfl | hf
        · exact hj _ _ (h x List.mem_cons_self) hn
        · exact h f (List.mem_cons_of_mem _ hf)
      · rcases List.mem_cons.mp hf with rfl | hf
        · exact h _ List.mem_cons_self
        · exact ih (fun y hy => h y (List.mem_cons_of_mem _ hy)) f hf

theorem addFrags_parks (P : Option (Nat × Park) → Prop) (hj : ∀ a b, P a → P b → P (joinPark a b)) (hl : Mask) (ns fs : List Frag)
    (h : ∀ f ∈ fs, P f.park) (hn : ∀ f ∈ ns, P f.park) : ∀ f ∈ addFrags hl fs ns, P f.park := by
  induction ns generalizing fs with
  | nil => exact h
  | cons n ns ih =>
    exact ih _ (addFrag_parks P hj hl fs n h (hn n List.mem_cons_self)) fun f hf => hn f (List.mem_cons_of_mem _ hf)

theorem issued_parks (P : Option (Nat × Park) → Prop) (hj : ∀ a b, P a → P b → P (joinPark a b)) (g : Group) (pc : Word) (m : Mask) (ns : List Frag)
    (h : ∀ f ∈ g.frags, P f.park) (hn : ∀ f ∈ ns, P f.park) : ∀ f ∈ (g.issued pc m ns).frags, P f.park := by
  have hjoin : ∀ (hl : Mask) (fs news : List Frag), (∀ f ∈ addFrags hl fs news, P f.park) → ∀ f ∈ joinFrags hl fs news, P f.park := by
    intro hl fs news h f hf
    obtain ⟨x, hx, rfl⟩ := List.mem_map.mp hf
    rw [keepMark_park]
    exact h x hx
  have hcome : ∀ (k : Nat) (mark : Option Mask), ∀ f ∈ headed k (ns.map (Frag.marked mark)), P f.park := by
    intro k mark
    have hm : ∀ f ∈ ns.map (Frag.marked mark), P f.park := by
      intro f hf
      obtain ⟨x, hx, rfl⟩ := List.mem_map.mp hf
      rw [marked_park]
      exact hn x hx
    revert hm
    generalize ns.map (Frag.marked mark) = ms
    intro hm f hf
    match ms, hm, hf with
    | [], _, hf => cases hf
    | [n], hm, hf =>
      have hf' : f ∈ if n.park.isNone then [{ n with head := k }] else [n] := hf
      split at hf'
      · rw [List.mem_singleton.mp hf']
        exact hm n List.mem_cons_self
      · exact hm f hf'
    | a :: b :: r, hm, hf => exact hm f hf
  unfold Group.issued
  refine hjoin _ _ _ (addFrags_parks P hj _ _ _ ?_ (hcome _ _))
  intro f hf
  obtain ⟨f0, h0, rfl⟩ := List.mem_map.mp (List.mem_filter.mp hf).1
  have := h f0 h0
  split
  · exact this
  · simp only []
    split
    · exact this
    · exact this

theorem issued_unparked (g : Group) (pc : Word) (m : Mask) (ns : List Frag) (h : ∀ f ∈ g.frags, f.park = none) (hn : ∀ f ∈ ns, f.park = none) :
    ∀ f ∈ (g.issued pc m ns).frags, f.park = none :=
  issued_parks (fun p => p = none) (fun a b ha _ => joinPark_none ha) g pc m ns h hn

/-- The groups of a block after one of them has changed, when it is the only one. -/
theorem groupsOf_one (s : State) (gid : Gid) (g : Group) (f : Group → Group) (hf : ∀ x, (f x).gid = x.gid) (h : s.groupsOf gid.lid gid.blk = [g])
    (hg : g.gid = gid) : (s.modGroup gid f).groupsOf gid.lid gid.blk = [f g] := by
  rw [groupsOf_modGroup _ _ f hf, h]
  simp [hg]

/-- Nothing in a lone calm group converges. -/
theorem converging_calm (s : State) (lid blk : Nat) (g : Group) (h : s.groupsOf lid blk = [g]) (hf : ∀ f ∈ g.frags, f.park = none) :
    s.converging lid blk = false := by
  unfold State.converging
  rw [h]
  simp only [List.any_cons, List.any_nil, Bool.or_false, List.any_eq_false]
  intro f hm
  rw [hf f hm]
  simp

/-- Nobody waits at a REGROUP where nobody waits. -/
theorem regroupPark_none (g : Group) (hf : ∀ f ∈ g.frags, ∀ n b pd, f.park ≠ some (n, .regroup b pd)) : g.regroupPark = none := by
  unfold Group.regroupPark
  rw [List.findSome?_eq_none_iff]
  intro f hm
  rcases hp : f.park with _ | ⟨n, p⟩
  · rfl
  · cases p with
    | regroup b pd => exact absurd hp (hf f hm n b pd)
    | _ => rfl

/-- Settling a block of one calm group changes nothing but the group's form. -/
theorem settle_nothing (s : State) (gid : Gid) (l : Launch) (b : Block) (g : Group) (hl : s.launch? gid.lid = some l)
    (hb : s.block? gid.lid gid.blk = some b) (hph : b.phases = []) (hgs : s.groupsOf gid.lid gid.blk = [g]) (hg : g.gid = gid) (hdom : l.dom = none)
    (hgf : s.group? gid = some g) (hc : g.colls = []) (hf : ∀ f ∈ g.frags, f.park = none) (hh : g.handler = none) :
    ∃ f : Group → Group, (∀ x, (f x).gid = x.gid) ∧ f g = g ∧ settle gid s = s.modGroup gid f := by
  have h1 : g.settle l.w64 s.fresh = g := settle_calm g _ _ hc (fun f hm => meet_unparked g f (hf f hm)) hh
  refine ⟨fun x => x.settle l.w64 s.fresh, settle_gid _ _, h1, ?_⟩
  refine settle_one s gid l b g hl hb hph hgs hg hdom hgf ?_
  rw [h1]
  exact regroupPark_none g fun f hm n b pd => by rw [hf f hm]; simp

/-- The group of an exit: its lanes are live no more. -/
def exitGroup (c : Ctx) (act : Mask) (g : Group) : Group :=
  ({ g with
      live := g.live &&& ~~~ act
      handler := match g.handler with | none => none | some h => some { h with lanes := h.lanes &&& ~~~ act } } : Group).issued c.is.pc c.is.mask
    [mkFrag c.after (c.is.mask &&& ~~~ act)]

/-- The exit of lanes of a lone calm group. -/
theorem exit_settles {s : State} {c : Ctx} {act : Mask} (hc : s.ctx? = some c) (hh : c.g.handler = none) (hco : c.g.colls = []) (hph : c.b.phases = [])
    (hd : c.l.dom = none) (hgs : s.groupsOf c.gid.lid c.gid.blk = [c.g]) (hf : ∀ f ∈ c.g.frags, f.park = none) :
    ∃ t, exitLanes c act s = endGroups c.gid.lid c.gid.blk t ∧ t.group? c.gid = some (exitGroup c act c.g) ∧
      t.groupsOf c.gid.lid c.gid.blk = [exitGroup c act c.g] ∧ (∀ x, x ≠ c.gid → t.group? x = s.group? x) ∧ t.blocks = s.blocks ∧ t.mem = s.mem ∧
      t.launches = s.launches ∧ t.pend.length = s.pend.length := by
  obtain ⟨hg, hb, hl, hi⟩ := ctx_parts hc
  have hgid : c.g.gid = c.gid := by
    have := List.find?_some hg
    simpa using this
  have hFk : ∀ x, (exitGroup c act x).gid = x.gid := fun _ => rfl
  generalize hs1 : s.orphan c.gid act = s1
  have e1 : s1.groups = s.groups ∧ s1.blocks = s.blocks ∧ s1.launches = s.launches ∧ s1.mem = s.mem ∧ s1.pend.length = s.pend.length := by
    subst hs1
    exact ⟨rfl, rfl, rfl, rfl, List.length_map _⟩
  have hg1 : ∀ x, s1.group? x = s.group? x := fun x => by unfold State.group?; rw [e1.1]
  generalize hs2 : (s1.modGroup c.gid (exitGroup c act)).count c.core = s2
  have hg2 : s2.group? c.gid = some (exitGroup c act c.g) := by
    subst hs2
    show (s1.modGroup c.gid (exitGroup c act)).group? c.gid = _
    rw [State.group?_modGroup _ _ _ (exitGroup c act) hFk, if_pos rfl, hg1, hg]
    rfl
  have hgs2 : s2.groupsOf c.gid.lid c.gid.blk = [exitGroup c act c.g] := by
    subst hs2
    show (s1.modGroup c.gid (exitGroup c act)).groupsOf c.gid.lid c.gid.blk = _
    refine groupsOf_one s1 c.gid c.g (exitGroup c act) hFk ?_ hgid
    unfold State.groupsOf
    rw [e1.1]
    exact hgs
  have hl2 : s2.launch? c.gid.lid = some c.l := by
    subst hs2
    show s1.launch? c.gid.lid = _
    unfold State.launch?
    rw [e1.2.2.1]
    exact hl
  have hb2 : s2.block? c.gid.lid c.gid.blk = some c.b := by
    subst hs2
    show s1.block? c.gid.lid c.gid.blk = _
    unfold State.block?
    rw [e1.2.1]
    exact hb
  have ho : s2.oweDomain c.gid = s2 := by
    unfold State.oweDomain
    rw [hl2]
    simp only [hd]
  have hn : s2.oweNext c.gid = s2 := by
    unfold State.oweNext
    rw [hl2]
    simp only [hd]
  have hun : ∀ f ∈ (exitGroup c act c.g).frags, f.park = none := by
    refine issued_unparked _ _ _ _ hf ?_
    intro f hm
    rw [List.mem_singleton.mp hm]
    rfl
  have hh2 : (exitGroup c act c.g).handler = none := by
    show (match c.g.handler with | none => none | some h => some { h with lanes := h.lanes &&& ~~~ act }) = none
    rw [hh]
  obtain ⟨f, hfk, hfg, hset⟩ := settle_nothing s2 c.gid c.l c.b (exitGroup c act c.g) hl2 hb2 hph hgs2 ((hFk c.g).trans hgid) hd hg2 hco hun hh2
  refine ⟨settle c.gid s2, ?_, ?_, ?_, ?_, ?_, ?_, ?_, ?_⟩
  · unfold exitLanes
    simp only [hs1]
    show endGroups _ _ (settle c.gid (match ((s1.modGroup c.gid (exitGroup c act)).count c.core).group? c.gid with
      | some g => if (decide (g.live = 0) && c.g.hasArrived) = true then ((s1.modGroup c.gid (exitGroup c act)).count c.core).oweNext c.gid
          else if (!c.g.hasArrived && g.hasArrived) = true then ((s1.modGroup c.gid (exitGroup c act)).count c.core).oweDomain c.gid
          else (s1.modGroup c.gid (exitGroup c act)).count c.core
      | none => (s1.modGroup c.gid (exitGroup c act)).count c.core)) = _
    rw [hs2, hg2]
    simp only [ho, hn, ite_self]
  · rw [hset, State.group?_modGroup _ _ _ f hfk, if_pos rfl, hg2, Option.map_some, hfg]
  · rw [hset, groupsOf_one s2 c.gid (exitGroup c act c.g) f hfk hgs2 ((hFk c.g).trans hgid), hfg]
  · intro x hx
    rw [hset, State.group?_modGroup _ _ _ f hfk, if_neg hx]
    subst hs2
    show (s1.modGroup c.gid (exitGroup c act)).group? x = _
    rw [State.group?_modGroup _ _ _ (exitGroup c act) hFk, if_neg hx, hg1]
  · rw [hset]
    subst hs2
    exact e1.2.1
  · rw [hset]
    subst hs2
    exact e1.2.2.2.1
  · rw [hset]
    subst hs2
    exact e1.2.2.1
  · rw [hset]
    subst hs2
    exact e1.2.2.2.2

/-- A group without outstanding matrix instructions waits for none. -/
theorem noMats {s : State} {c : Ctx} (hg : s.group? c.gid = some c.g) (hm : c.g.mats = []) (act : Mask) (n : Nat) (k : State → Out) :
    awaitMats c act n s k = k (s.modGroup c.gid fun x => { x with mats := x.mats.drop 0 }) := by
  unfold awaitMats
  rw [hg]
  simp only [hm, List.length_nil, Nat.zero_sub, List.take_nil, List.any_nil, Bool.false_eq_true, if_false, List.find?_nil, List.filter_nil, List.foldl_nil]

theorem modGroup_id (s : State) (gid : Gid) (f : Group → Group) (hf : ∀ x, f x = x) : s.modGroup gid f = s := by
  have : f = id := funext hf
  subst this
  unfold State.modGroup
  simp

/-- A group without chains waits for none. -/
theorem noChains {s : State} {c : Ctx} (h : s.chainsOf c.gid = []) (act : Mask) (n : Nat) (k : State → Out) : awaitChains c act n s k = k s := by
  have h1 : s.retireChains c.gid = s := by
    unfold State.retireChains
    rw [h]
    simp only []
    have : (s.chains.filter fun k => !((s.retirable []).contains k.id)) = s.chains := by
      rw [List.filter_eq_self]
      intro a _
      rfl
    rw [this]
  unfold awaitChains
  simp only [h1, h, List.length_nil, Nat.zero_le, if_true]

/-- Standing somewhere survives the joining of fragments. -/
theorem standsIn_joinFrags {hl : Mask} {fs news : List Frag} {l : Nat} {p : Word} (h : standsIn (addFrags hl fs news) l p) :
    standsIn (joinFrags hl fs news) l p := mem_joinFrags (P := fun q m pk => pk = none ∧ q = p ∧ inMask m l = true) h

theorem letGo_stands (g : Group) (pc : Word) (m : Mask) (len l : Nat) (hl : inMask m l = true) :
    (g.letGo pc m len).stands l (pc + BitVec.ofNat 32 len) :=
  standsIn_joinFrags (standsIn_addFrag_new _ _ (mkFrag (pc + BitVec.ofNat 32 len) m) _ rfl hl)

/-- The lanes that a handler does not keep parked stand at the next instruction when their wait ends. -/
theorem release_stands (g : Group) (pc : Word) (m : Mask) (len l : Nat) (hl : inMask (g.loose m) l = true) :
    (g.release pc m len).stands l (pc + BitVec.ofNat 32 len) := by
  unfold Group.release
  simp only []
  split
  · exact letGo_stands _ _ _ _ _ hl
  · obtain ⟨f, h1, h2⟩ := letGo_stands g pc (g.loose m) len l hl
    exact ⟨f, h1, h2⟩

/-- Parking lanes by an instruction that then settles nothing. -/
theorem parkAt_stands {s : State} {c : Ctx} {g : Group} (hg : s.group? c.gid = some g) (m : Mask) (p : Park) :
    ∃ g', (parkAt c m p s).group? c.gid = some g' ∧ g' = g.issued c.is.pc c.is.mask [{ mkFrag c.is.pc m with park := some (c.is.len, p) },
        mkFrag c.after (c.is.mask &&& ~~~ m)] := by
  unfold parkAt
  rw [advance_group?, if_pos rfl, hg]
  exact ⟨_, rfl, rfl⟩

theorem out_stands (m a : Mask) (l : Nat) (h1 : inMask m l = true) (h2 : inMask a l = false) : inMask (m &&& ~~~ a) l = true := by
  have h64 : l < 64 := BitVec.lt_of_getLsbD h1
  rw [inMask_and, h1]
  unfold inMask at h2 ⊢
  rw [BitVec.getLsbD_not, h2]
  simp [h64]

theorem park_others {g : Group} {c : Ctx} (m : Mask) (p : Park) (l : Nat) (h1 : inMask c.is.mask l = true) (h2 : inMask m l = false) :
    (g.issued c.is.pc c.is.mask [{ mkFrag c.is.pc m with park := some (c.is.len, p) }, mkFrag c.after (c.is.mask &&& ~~~ m)]).stands l c.after :=
  issued_stands _ _ _ _ _ _ ⟨_, List.mem_cons_of_mem _ (List.mem_singleton_self _), rfl, rfl, out_stands _ _ _ h1 h2⟩

/-- The fragments of a group that leave a barrier. -/
def leaveBar (id : Nat) (who : Gid) (but : Mask) (g : Group) : Group :=
  g.frags.foldl (fun g f => match f.park with
    | some (n, .bar i) => if i = id then g.release f.pc (if g.gid = who then f.mask &&& ~~~ but else f.mask) n else g
    | _ => g) g

/-- One step of it. -/
def leaveStep (id : Nat) (who : Gid) (but : Mask) (g : Group) (f : Frag) : Group :=
  match f.park with
  | some (n, .bar i) => if i = id then g.release f.pc (if g.gid = who then f.mask &&& ~~~ but else f.mask) n else g
  | _ => g

theorem leaveBar_eq (id : Nat) (who : Gid) (but : Mask) (g : Group) : leaveBar id who but g = g.frags.foldl (leaveStep id who but) g := rfl

theorem leaveStep_cases (id : Nat) (who : Gid) (but : Mask) (g : Group) (f : Frag) :
    leaveStep id who but g f = g ∨ ∃ pc m n, leaveStep id who but g f = g.release pc m n := by
  unfold leaveStep
  split
  · split
    · exact .inr ⟨_, _, _, rfl⟩
    · exact .inl rfl
  · exact .inl rfl

theorem letGo_keeps (g : Group) (pc : Word) (m : Mask) (len l : Nat) (p : Word) (h : g.stands l p) : (g.letGo pc m len).stands l p := by
  refine standsIn_joinFrags (standsIn_addFrag_old _ _ _ _ _ ?_)
  obtain ⟨f, h1, h2, h3, h4⟩ := h
  refine ⟨f, ?_, h2, h3, h4⟩
  refine List.mem_filter.mpr ⟨List.mem_map.mpr ⟨f, h1, ?_⟩, by simpa using ne_zero_of_inMask h4⟩
  rw [h2]
  simp

theorem release_keeps (g : Group) (pc : Word) (m : Mask) (len l : Nat) (p : Word) (h : g.stands l p) : (g.release pc m len).stands l p := by
  unfold Group.release
  simp only []
  split
  · exact letGo_keeps _ _ _ _ _ _ h
  · obtain ⟨f, h1, h2⟩ := letGo_keeps g pc (g.loose m) len l p h
    exact ⟨f, h1, h2⟩

theorem leaveStep_keeps (id : Nat) (who : Gid) (but : Mask) (fs : List Frag) (g : Group) (l : Nat) (p : Word) (h : g.stands l p) :
    (fs.foldl (leaveStep id who but) g).stands l p := by
  induction fs generalizing g with
  | nil => exact h
  | cons f fs ih =>
    rw [List.foldl_cons]
    apply ih
    rcases leaveStep_cases id who but g f with h1 | ⟨pc, m, n, h1⟩
    · rw [h1]; exact h
    · rw [h1]; exact release_keeps _ _ _ _ _ _ h

theorem leaveBar_keeps (id : Nat) (who : Gid) (but : Mask) (g : Group) (l : Nat) (p : Word) (h : g.stands l p) : (leaveBar id who but g).stands l p :=
  leaveStep_keeps id who but _ g l p h

theorem leaveBar_regs (id : Nat) (who : Gid) (but : Mask) (g : Group) :
    let r := leaveBar id who but g
    r.v = g.v ∧ r.s = g.s ∧ r.h = g.h ∧ r.p = g.p ∧ r.sc = g.sc ∧ r.fpm = g.fpm ∧ r.fpst = g.fpst := by
  have key : ∀ (fs : List Frag) (g : Group), let r := fs.foldl (leaveStep id who but) g
      r.v = g.v ∧ r.s = g.s ∧ r.h = g.h ∧ r.p = g.p ∧ r.sc = g.sc ∧ r.fpm = g.fpm ∧ r.fpst = g.fpst := by
    intro fs
    induction fs with
    | nil => intro g; exact ⟨rfl, rfl, rfl, rfl, rfl, rfl, rfl⟩
    | cons f fs ih =>
      intro g
      rw [List.foldl_cons]
      have := ih (leaveStep id who but g f)
      rcases leaveStep_cases id who but g f with h1 | ⟨pc, m, n, h1⟩
      · rw [h1] at this ⊢; exact this
      · obtain ⟨a, b, h2⟩ := release_eq g pc m n
        rw [h1, h2] at this
        rw [h1, h2]
        exact this
  exact key _ g

theorem leaveStep_gid (id : Nat) (who : Gid) (but : Mask) (g : Group) (f : Frag) : (leaveStep id who but g f).gid = g.gid := by
  rcases leaveStep_cases id who but g f with h1 | ⟨pc, m, n, h1⟩ <;> rw [h1]
  exact release_gid _ _ _ _

theorem leaveStep_hlanes (id : Nat) (who : Gid) (but : Mask) (g : Group) (f : Frag) : (leaveStep id who but g f).hlanes = g.hlanes := by
  rcases leaveStep_cases id who but g f with h1 | ⟨pc, m, n, h1⟩ <;> rw [h1]
  obtain ⟨a, b, h2⟩ := release_eq g pc m n
  rw [h2]
  rfl

theorem leaveStep_stop (id : Nat) (who : Gid) (but : Mask) (g : Group) (f : Frag) : (leaveStep id who but g f).stop = g.stop := by
  rcases leaveStep_cases id who but g f with h1 | ⟨pc, m, n, h1⟩ <;> rw [h1]
  obtain ⟨a, b, h2⟩ := release_eq g pc m n
  rw [h2]

theorem leaveBar_gid (id : Nat) (who : Gid) (but : Mask) (g : Group) : (leaveBar id who but g).gid = g.gid :=
  foldl_gid _ (leaveStep_gid id who but) _ g

theorem leaveBar_frees (id : Nat) (who : Gid) (but : Mask) (g : Group) (f : Frag) (k : Nat) (hf : f ∈ g.frags) (hp : f.park = some (k, .bar id))
    (l : Nat) (hl : inMask f.mask l = true) (hw : g.gid ≠ who) (hh : g.hlanes = 0)
    (hs : g.stop = none) :
    (leaveBar id who but g).stands l (f.pc + BitVec.ofNat 32 k) := by
  have key : ∀ (fs : List Frag) (g : Group), f ∈ fs → g.gid ≠ who → g.hlanes = 0 → g.stop = none →
      (fs.foldl (leaveStep id who but) g).stands l (f.pc + BitVec.ofNat 32 k) := by
    intro fs
    induction fs with
    | nil => intro g h; cases h
    | cons x xs ih =>
      intro g h hg hh hs
      rw [List.foldl_cons]
      rcases List.mem_cons.mp h with rfl | h
      · refine leaveStep_keeps _ _ _ _ _ _ _ ?_
        have : leaveStep id who but g f = g.release f.pc f.mask k := by
          unfold leaveStep
          simp only [hp, if_true, if_neg hg]
        rw [this]
        exact release_stands _ _ _ _ _ (by rw [loose_calm hh hs]; exact hl)
      · exact ih _ h (by rw [leaveStep_gid]; exact hg) (by rw [leaveStep_hlanes]; exact hh) (by rw [leaveStep_stop]; exact hs)
  exact key _ g hf hw hh hs

theorem releaseBar_group? (s : State) (lid blk id : Nat) (who : Gid) (but : Mask) (x : Gid) :
    (s.releaseBar lid blk id who but).group? x =
      (s.group? x).map fun g => if g.gid.lid = lid ∧ g.gid.blk = blk then leaveBar id who but g else g := by
  unfold State.group?
  show (s.groups.map fun g => if (decide (g.gid.lid = lid) && decide (g.gid.blk = blk)) = true then leaveBar id who but g else g).find? _ = _
  induction s.groups with
  | nil => rfl
  | cons g gs ih =>
    have hg : (if (decide (g.gid.lid = lid) && decide (g.gid.blk = blk)) = true then leaveBar id who but g else g).gid = g.gid := by
      split
      · exact leaveBar_gid _ _ _ _
      · rfl
    rw [List.map_cons, List.find?_cons, List.find?_cons, hg]
    by_cases h : g.gid = x
    · simp [h]
    · simp only [h, decide_false]
      exact ih

theorem settle_calm_dom (s : State) (gid : Gid) (l : Launch) (b : Block) (g : Group) (hl : s.launch? gid.lid = some l)
    (hb : s.block? gid.lid gid.blk = some b) (hph : b.phases = []) (hgs : s.groupsOf gid.lid gid.blk = [g]) (hg : g.gid = gid)
    (hgf : s.group? gid = some g) (hset : g.settle l.w64 s.fresh = g) (hr : g.regroupPark = none) (hna : g.hasArrived = false) :
    ∃ f : Group → Group, (∀ x, (f x).gid = x.gid) ∧ f g = g ∧ settle gid s = s.modGroup gid f := by
  refine ⟨fun x => x.settle l.w64 s.fresh, settle_gid _ _, hset, ?_⟩
  have hkeep : ∀ x : Group, (x.settle l.w64 s.fresh).gid = x.gid := settle_gid _ _
  have h1 : (s.modGroup gid fun x => x.settle l.w64 s.fresh).groupsOf gid.lid gid.blk = [g] := by
    rw [groupsOf_modGroup _ _ (fun x => x.settle l.w64 s.fresh) hkeep, hgs]
    simp [hg, hset]
  have h2 : (s.modGroup gid fun x => x.settle l.w64 s.fresh).settleBars gid.lid gid.blk = s.modGroup gid fun x => x.settle l.w64 s.fresh := by
    unfold State.settleBars
    rw [State.modGroup_block?, hb]
    simp [hph]
  have h3 : (s.modGroup gid fun x => x.settle l.w64 s.fresh).group? gid = some g := by
    rw [State.group?_modGroup _ _ _ (fun x => x.settle l.w64 s.fresh) hkeep, if_pos rfl, hgf, Option.map_some, hset]
  unfold settle
  simp only [hl]
  rw [h2, h1]
  simp only [List.foldl_cons, List.foldl_nil]
  have h4 : ∀ w, (s.modGroup gid fun x => x.settle l.w64 s.fresh).settleRegroup w g.gid = s.modGroup gid fun x => x.settle l.w64 s.fresh := by
    intro w
    unfold State.settleRegroup
    rw [hg, h3]
    simp only [hr]
  rw [h4]
  unfold State.settleDomain
  rw [State.modGroup_launch?, hl]
  simp only []
  split
  · rfl
  · rw [if_neg]
    intro h
    rw [List.all_eq_true] at h
    have hm : g ∈ (s.modGroup gid fun x => x.settle l.w64 s.fresh).groups.filter fun x => decide (x.gid.lid = gid.lid) := by
      refine List.mem_filter.mpr ⟨List.mem_of_find?_eq_some h3, by simp [hg]⟩
    have := h g hm
    rw [hna] at this
    cases this

/-- The launch holds no beacon domain. -/
def State.noDom (s : State) (lid : Nat) : Prop := ∀ l, s.launch? lid = some l → l.dom = none

theorem noDom_of_launches {s t : State} {lid : Nat} (h : t.launches = s.launches) (hs : s.noDom lid) : t.noDom lid := by
  intro l hl
  unfold State.launch? at hl
  rw [h] at hl
  exact hs l hl

theorem oweDomain_launches (s : State) (g : Gid) : (s.oweDomain g).launches = s.launches := by
  unfold State.oweDomain
  split
  · rfl
  · split <;> rfl

theorem oweMoved_launches (gs : List Group) (s : State) : (s.oweMoved gs).launches = s.launches := by
  unfold State.oweMoved
  induction gs generalizing s with
  | nil => rfl
  | cons g gs ih =>
    rw [List.foldl_cons, ih]
    split
    · split
      · exact oweDomain_launches _ _
      · rfl
    · rfl

theorem noDom_removeGroup (s : State) (g : Gid) (lid : Nat) (h : s.noDom lid) : (s.removeGroup g).noDom lid := by
  intro l hl
  unfold State.launch? State.removeGroup at hl
  simp only [] at hl
  unfold State.noDom State.launch? at h
  generalize s.launches = ls at h hl
  induction ls with
  | nil => cases hl
  | cons x xs ih =>
    rw [List.map_cons, List.find?_cons] at hl
    rw [List.find?_cons] at h
    have hx : ∀ b : Bool, (if b = true then { x with failed := true } else x).lid = x.lid ∧
        (if b = true then { x with failed := true } else x).dom = x.dom := by
      intro b
      cases b <;> exact ⟨rfl, rfl⟩
    rw [(hx _).1] at hl
    by_cases hq : x.lid = lid
    · subst hq
      simp only [decide_true] at h hl
      have := h x rfl
      cases hl
      exact (hx _).2.trans this
    · simp only [hq, decide_false] at h hl
      exact ih h hl

/-- What REGROUP of a lone group settles. -/
theorem regroup_settles {s : State} {c : Ctx} {hd : Hdr} (h : Alone s c hd) (hh : c.g.handler = none) (blk : Bool) (pd : Nat) :
    ∃ t, settle c.gid (parkAt c (c.act hd) (.regroup blk pd) s) =
        (if blk then t.regroupBlock c.width c.gid.lid c.gid.blk c.is.pc c.is.len pd
          else t.regroupPair c.width c.gid.lid c.gid.blk (c.gid.gi / 2) c.is.pc c.is.len pd) ∧
      t.group? c.gid = some (parkedGroup c (.regroup blk pd) c.g) ∧ t.groupsOf c.gid.lid c.gid.blk = [parkedGroup c (.regroup blk pd) c.g] ∧
      t.blocks = s.blocks ∧ t.retired = SMap.set s.retired c.core (SMap.get s.retired c.core + 1) ∧ SameElsewhere s t c.gid := by
  obtain ⟨hg, hb, hl, hi⟩ := ctx_parts h.ctx
  have hgid : c.g.gid = c.gid := by
    have := List.find?_some hg
    simpa using this
  generalize hG : parkedGroup c (.regroup blk pd) c.g = G
  have hiss : c.g.issued c.is.pc c.is.mask [parked c (.regroup blk pd), mkFrag c.after (c.is.mask &&& ~~~ c.is.mask)] = G := by
    rw [issued_alone h c.g rfl _, ← hG]
    rfl
  have hpark : parkAt c (c.act hd) (.regroup blk pd) s = advance c [parked c (.regroup blk pd), mkFrag c.after (c.is.mask &&& ~~~ c.is.mask)] s := by
    unfold parkAt
    rw [h.act]
    rfl
  generalize hs1 : advance c [parked c (.regroup blk pd), mkFrag c.after (c.is.mask &&& ~~~ c.is.mask)] s = s1
  have h2 : s1.group? c.gid = some G := by
    rw [← hs1, advance_group?, if_pos rfl, hg, Option.map_some, hiss]
  have hGgid : G.gid = c.gid := by rw [← hG]; exact hgid
  have h3 : s1.groupsOf c.gid.lid c.gid.blk = [G] := by
    rw [← hs1]
    show (s.modGroup c.gid fun g => g.issued c.is.pc c.is.mask [parked c (.regroup blk pd), mkFrag c.after (c.is.mask &&& ~~~ c.is.mask)]).groupsOf
      c.gid.lid c.gid.blk = _
    rw [groupsOf_one s c.gid c.g (fun g => g.issued c.is.pc c.is.mask [parked c (.regroup blk pd), mkFrag c.after (c.is.mask &&& ~~~ c.is.mask)])
      (fun _ => rfl) h.groups hgid, hiss]
  have hl1 : s1.launch? c.gid.lid = some c.l := by rw [← hs1]; exact hl
  have hb1 : s1.block? c.gid.lid c.gid.blk = some c.b := by rw [← hs1]; exact hb
  have hset : ∀ w f, G.settle w f = G := by
    intro w f
    refine settle_calm G w f (by rw [← hG]; exact h.colls) ?_ (by rw [← hG]; exact hh)
    intro x hx
    have : x = parked c (.regroup blk pd) := by
      rw [← hG] at hx
      exact List.mem_singleton.mp hx
    subst this
    unfold Group.meet metLanes
    simp only [parked, loose_zero, if_true]
  have hk : ∀ x : Group, (x.settle c.l.w64 s1.fresh).gid = x.gid := settle_gid _ _
  refine ⟨s1.modGroup c.gid fun x => x.settle c.l.w64 s1.fresh, ?_, ?_, ?_, ?_, ?_, ?_⟩
  · rw [hpark, hs1]
    unfold settle
    simp only [hl1]
    have e2 : (s1.modGroup c.gid fun x => x.settle c.l.w64 s1.fresh).settleBars c.gid.lid c.gid.blk = s1.modGroup c.gid fun x => x.settle c.l.w64 s1.fresh := by
      unfold State.settleBars
      rw [State.modGroup_block?, hb1]
      simp [h.phases]
    have e3 : (s1.modGroup c.gid fun x => x.settle c.l.w64 s1.fresh).groupsOf c.gid.lid c.gid.blk = [G] := by
      rw [groupsOf_one s1 c.gid G (fun x => x.settle c.l.w64 s1.fresh) hk h3 hGgid, hset]
    have e4 : (s1.modGroup c.gid fun x => x.settle c.l.w64 s1.fresh).group? c.gid = some G := by
      rw [State.group?_modGroup _ _ _ (fun x => x.settle c.l.w64 s1.fresh) hk, if_pos rfl, h2, Option.map_some, hset]
    rw [e2, e3]
    simp only [List.foldl_cons, List.foldl_nil, hGgid]
    generalize hs2 : (s1.modGroup c.gid fun x => x.settle c.l.w64 s1.fresh) = s2 at e3 e4
    have hl2 : s2.launch? c.gid.lid = some c.l := by rw [← hs2]; exact hl1
    have e5 : G.regroupPark = some (c.is.pc, blk, c.is.len, pd) := by rw [← hG]; rfl
    have e6 : G.live &&& ~~~ (G.regroupAt c.is.pc blk) = 0 := by
      have e7 : G.regroupAt c.is.pc blk = 0 ||| c.is.mask := by
        rw [← hG]
        unfold Group.regroupAt
        show (if (decide (c.is.pc = c.is.pc) && blk == blk) = true then (0 : Mask) ||| c.is.mask else 0) = _
        simp
      have e8 : G.live = c.is.mask := by rw [← hG]; exact h.live
      rw [e7, e8, show (0 : Mask) ||| c.is.mask = c.is.mask by simp, mask_and_not]
    have e9 : G.stop = none := by rw [← hG]; exact h.stop
    have hdom : ∀ t : State, t.noDom c.gid.lid → t.settleDomain c.gid.lid = t := by
      intro t ht
      unfold State.settleDomain
      split
      · rfl
      · rename_i y hy
        rw [ht y hy]
    have h0 : s2.noDom c.gid.lid := by
      intro y hy
      rw [hl2] at hy
      cases hy
      exact h.dom
    have hreg : s2.settleRegroup (if c.l.w64 then 64 else 32) c.gid =
        if blk then s2.regroupBlock c.width c.gid.lid c.gid.blk c.is.pc c.is.len pd
          else s2.regroupPair c.width c.gid.lid c.gid.blk (c.gid.gi / 2) c.is.pc c.is.len pd := by
      unfold State.settleRegroup
      rw [e4]
      simp only [e5, e3]
      rw [if_pos]
      · rfl
      · cases blk
        · simp [hGgid, e6, e9]
        · simp [e6, e9]
    rw [hreg]
    refine hdom _ ?_
    cases blk
    · simp only [Bool.false_eq_true, if_false]
      unfold State.regroupPair
      simp only []
      split
      · split
        · exact noDom_of_launches (oweMoved_launches _ _) (noDom_removeGroup _ _ _ (noDom_of_launches rfl h0))
        · exact noDom_of_launches rfl h0
      · exact noDom_of_launches rfl h0
      · exact noDom_of_launches rfl h0
      · exact h0
    · simp only [if_true]
      unfold State.regroupBlock
      simp only []
      split
      · exact h0
      · split
        · have key : ∀ (gs : List Group) (t : State) (pc : Word) (len pd : Nat), t.noDom c.gid.lid →
              (gs.foldl (fun s g => if g.live = 0 then s.removeGroup g.gid else s.setGroup (g.regrouped pc len pd true)) t).noDom c.gid.lid := by
            intro gs
            induction gs with
            | nil => intro t _ _ _ h; exact h
            | cons g gs ih =>
              intro t pc len pd ht
              rw [List.foldl_cons]
              refine ih _ _ _ _ ?_
              split
              · exact noDom_removeGroup _ _ _ ht
              · exact noDom_of_launches rfl ht
          exact noDom_of_launches (oweMoved_launches _ _) (key _ _ _ _ _ (noDom_of_launches rfl h0))
        · have key : ∀ (gs : List Group) (t : State) (pc : Word) (len pd : Nat), (gs.foldl (fun s g => s.setGroup (g.regrouped pc len pd false)) t).launches = t.launches := by
            intro gs
            induction gs with
            | nil => intros; rfl
            | cons g gs ih =>
              intro t pc len pd
              rw [List.foldl_cons, ih]
              rfl
          exact noDom_of_launches (key _ _ _ _ _) h0
  · rw [State.group?_modGroup _ _ _ (fun x => x.settle c.l.w64 s1.fresh) hk, if_pos rfl, h2, Option.map_some, hset]
  · rw [groupsOf_one s1 c.gid G (fun x => x.settle c.l.w64 s1.fresh) hk h3 hGgid, hset]
  · rw [← hs1]; rfl
  · rw [← hs1]; rfl
  · rw [← hs1]
    exact (advance_elsewhere c _ s).trans (sameElsewhere_modGroup _ _ _ (settle_gid _ _))

theorem no_other {t : State} {gid x : Gid} {G : Group} (h : t.groupsOf gid.lid gid.blk = [G]) (hG : G.gid = gid) (h1 : x.lid = gid.lid) (h2 : x.blk = gid.blk)
    (hx : x ≠ gid) : t.group? x = none := by
  unfold State.group?
  rw [List.find?_eq_none]
  intro y hy he
  have hyx : y.gid = x := by simpa using he
  have : y ∈ t.groupsOf gid.lid gid.blk := List.mem_filter.mpr ⟨hy, by simp [hyx, h1, h2]⟩
  rw [h, List.mem_singleton] at this
  exact hx (hyx.symm.trans ((congrArg Group.gid this).trans hG))

theorem setGroup_group? (t : State) (gid : Gid) (G G' : Group) (h : t.group? gid = some G) (hG' : G'.gid = gid) :
    (t.setGroup G').group? gid = some G' ∧ SameElsewhere t (t.setGroup G') gid := by
  have e : t.setGroup G' = t.modGroup gid fun x => if x.gid = gid then G' else x := by
    unfold State.setGroup State.modGroup
    rw [hG']
    congr 1
    apply List.map_congr_left
    intro y _
    by_cases hy : y.gid = gid <;> simp [hy]
  have hk : ∀ y : Group, (if y.gid = gid then G' else y).gid = y.gid := by
    intro y
    split
    · rename_i h; rw [hG', h]
    · rfl
  have hGg : G.gid = gid := by
    have := List.find?_some h
    simpa using this
  rw [e]
  refine ⟨?_, sameElsewhere_modGroup _ _ _ hk⟩
  rw [State.group?_modGroup _ _ _ (fun y => if y.gid = gid then G' else y) hk, if_pos rfl, h, Option.map_some, if_pos hGg]

end Sys2Proof.Machine
end

