-- ==== Sys2Proof/Laws/Memory.lean ====
section
/-! SUPPORT. What stores at a home change. -/

namespace Sys2Proof.Machine

/-- The groups are as before but for what operand fetches may still see. -/
def OldsOnly (s t : State) : Prop := ∃ F : Group → Group, t.groups = s.groups.map F ∧ ∀ x, ∃ ms os, F x = { x with mats := ms, olds := os } ∧ ms.map Mat.ins = x.mats.map Mat.ins

theorem oldsOnly_of_eq {s t : State} (h : t.groups = s.groups) : OldsOnly s t := ⟨id, by rw [h, List.map_id], fun x => ⟨x.mats, x.olds, rfl, rfl⟩⟩

theorem OldsOnly.trans {s t u : State} (h : OldsOnly s t) (k : OldsOnly t u) : OldsOnly s u := by
  obtain ⟨F, hF, hF'⟩ := h
  obtain ⟨G, hG, hG'⟩ := k
  refine ⟨G ∘ F, by rw [hG, hF, List.map_map], fun x => ?_⟩
  obtain ⟨ms, os, h1, i1⟩ := hF' x
  obtain ⟨ms', os', h2, i2⟩ := hG' (F x)
  refine ⟨ms', os', by show G (F x) = _; rw [h2, h1], ?_⟩
  rw [i2, h1]
  exact i1

/-- A group afterwards is the group before but for what operand fetches may still see; its matrix instructions are the same. -/
theorem OldsOnly.found_ins {s t : State} (h : OldsOnly s t) {x : Gid} {g : Group} (hg : s.group? x = some g) :
    ∃ ms os, t.group? x = some { g with mats := ms, olds := os } ∧ ms.map Mat.ins = g.mats.map Mat.ins := by
  obtain ⟨F, hF, hF'⟩ := h
  have hk : ∀ y, (F y).gid = y.gid := by
    intro y
    obtain ⟨ms, os, h1, -⟩ := hF' y
    rw [h1]
  obtain ⟨ms, os, h1, i1⟩ := hF' g
  refine ⟨ms, os, ?_, i1⟩
  unfold State.group? at hg ⊢
  rw [hF, List.find?_map]
  have : ((fun y : Group => decide (y.gid = x)) ∘ F) = fun y => decide (y.gid = x) := by
    funext y
    simp [hk]
  rw [this, hg, Option.map_some, h1]

theorem OldsOnly.found {s t : State} (h : OldsOnly s t) {x : Gid} {g : Group} (hg : s.group? x = some g) :
    ∃ ms os, t.group? x = some { g with mats := ms, olds := os } := by
  obtain ⟨ms, os, h1, -⟩ := h.found_ins hg
  exact ⟨ms, os, h1⟩

/-- Matrix instructions that are the same name the same registers. -/
theorem hazard_ins {ms : List Mat} {g : Group} (h : ms.map Mat.ins = g.mats.map Mat.ins) (os : List OldByte) (w64 : Bool) (r : Nat) :
    ({ g with mats := ms, olds := os } : Group).hazard w64 r = g.hazard w64 r := by
  have key : ∀ xs : List Mat, (xs.any fun m => m.names w64 r) =
      (xs.map Mat.ins).any fun i => (matRanges w64 i).any fun e => decide (e.1 ≤ r) && decide (r < e.1 + e.2) := by
    intro xs
    rw [List.any_map]
    rfl
  show (ms.any fun m => m.names w64 r) = g.mats.any fun m => m.names w64 r
  rw [key, key, h]

theorem keepOlds_groups (s : State) (src : Writer) (id pa n : Nat) : OldsOnly s (s.keepOlds src id pa n) := by
  unfold State.keepOlds
  split
  · refine ⟨_, rfl, fun x => ?_⟩
    have gen : ∀ (p q : Bool) (m1 : List Mat) (o1 o2 : List OldByte), m1.map Mat.ins = x.mats.map Mat.ins →
        ∃ ms os, (if p = true then ({ x with mats := m1, olds := o1 } : Group)
          else if q = true then { x with olds := o2 } else x) = { x with mats := ms, olds := os } ∧ ms.map Mat.ins = x.mats.map Mat.ins := by
      intro p q m1 o1 o2 hm
      cases p <;> cases q
      · exact ⟨x.mats, x.olds, rfl, rfl⟩
      · exact ⟨x.mats, o2, rfl, rfl⟩
      · exact ⟨m1, o1, rfl, hm⟩
      · exact ⟨m1, o1, rfl, hm⟩
    refine gen _ _ _ _ _ ?_
    rw [List.map_map]
    refine List.map_congr_left fun m _ => ?_
    show Mat.ins (if _ then _ else _) = _
    split <;> rfl
  · exact oldsOnly_of_eq rfl

theorem ember_groups (s : State) (b code core world : Nat) (d : DWord) : (s.ember b code core world d).groups = s.groups := rfl

/-! ### What correcting and fencing leave alone -/

/-- Only the bulkheads' records and the words still to be corrected differ. -/
def Marked (s t : State) : Prop := ∃ bs es, t = { s with bulks := bs, eccSoft := es }

theorem Marked.refl (s : State) : Marked s s := ⟨_, _, rfl⟩

theorem Marked.trans {s t u : State} (h : Marked s t) (k : Marked t u) : Marked s u := by
  obtain ⟨a, b, rfl⟩ := h
  obtain ⟨a', b', rfl⟩ := k
  exact ⟨a', b', rfl⟩

theorem marked_foldl {α : Type} (f : State → α → State) (hf : ∀ s a, Marked s (f s a)) (xs : List α) (s : State) : Marked s (xs.foldl f s) := by
  induction xs generalizing s with
  | nil => exact Marked.refl s
  | cons a xs ih => exact (hf s a).trans (ih (f s a))

theorem marked_modBulk (s : State) (b : Nat) (f : Bulk → Bulk) : Marked s (s.modBulk b f) := ⟨_, _, rfl⟩

theorem scrubBy_marked (s : State) (f : Nat → Bool) (pa n : Nat) : Marked s (s.scrubBy f pa n) := by
  unfold State.scrubBy
  simp only []
  split
  · refine Marked.trans (t := { s with eccSoft := s.eccSoft.filter fun x => !(f x && decide (x + 4 > pa) && decide (x < pa + n)) }) ⟨_, _, rfl⟩
      (marked_foldl _ (fun s x => ?_) _ _)
    split
    · exact (marked_modBulk _ _ _).trans (marked_modBulk _ _ _)
    · exact Marked.refl s
  · exact Marked.refl s

theorem scrub_marked (s : State) (pa n : Nat) : Marked s (s.scrub pa n) := scrubBy_marked s _ pa n

theorem fence_marked (s : State) (b r : Nat) (w : Bool) : Marked s (s.fence b r w) := by
  unfold State.fence
  split
  · split
    · simp only []
      split
      · exact ((marked_modBulk _ _ _).trans (marked_modBulk _ _ _)).trans (marked_modBulk _ _ _)
      · exact (marked_modBulk _ _ _).trans (marked_modBulk _ _ _)
    · exact Marked.refl s
  · exact Marked.refl s

theorem fenceWord_marked (s : State) (pa core world : Nat) : Marked s (s.fenceWord pa core world) := by
  unfold State.fenceWord
  split
  · exact Marked.refl s
  · exact (marked_modBulk _ _ _).trans (fence_marked _ _ _ _)

theorem noteWalk_marked (s : State) (p src va : Nat) : Marked s (s.noteWalk p src va) := by
  unfold State.noteWalk
  split
  · exact Marked.refl s
  · simp only []
    split
    · exact Marked.refl s
    · refine marked_foldl _ (fun t a => ?_) _ _
      split
      · split
        · exact fenceWord_marked _ _ _ _
        · exact Marked.refl _
      · split
        · exact scrub_marked _ _ _
        · exact Marked.refl _

/-- What an agent's failed access leaves alone. -/
theorem fenceAgent_marked (s : State) (m : Master) (p w va n : Nat) : Marked s (s.fenceAgent m p w va n) := by
  unfold State.fenceAgent
  split
  · refine marked_foldl _ (fun t x => ?_) _ _
    split
    · split
      · exact fenceWord_marked _ _ _ _
      · exact Marked.refl _
    · exact Marked.refl _
  · exact marked_foldl _ (fun t x => noteWalk_marked _ _ _ _) _ _
  · exact Marked.refl _

theorem Marked.groups {s t : State} (h : Marked s t) : t.groups = s.groups := by
  obtain ⟨_, _, rfl⟩ := h
  rfl

theorem scrub_groups (s : State) (pa n : Nat) : (s.scrub pa n).groups = s.groups := (scrub_marked s pa n).groups

theorem storeBytes_groups (s : State) (src : Writer) (id pa : Nat) (bs : List Byte) : OldsOnly s (s.storeBytes src id pa bs) := by
  refine (keepOlds_groups s src id pa bs.length).trans (oldsOnly_of_eq ?_)
  unfold State.storeBytes
  generalize s.keepOlds src id pa bs.length = s1
  simp only []
  have h1 : (if pa % 4 = 0 then s1 else s1.scrub pa 1).groups = s1.groups := by
    split
    · rfl
    · exact scrub_groups _ _ _
  generalize (if pa % 4 = 0 then s1 else s1.scrub pa 1) = s2 at h1
  have h2 : (if (pa + bs.length) % 4 = 0 then s2 else s2.scrub (pa + bs.length - 1) 1).groups = s1.groups := by
    split
    · exact h1
    · exact (scrub_groups _ _ _).trans h1
  generalize (if (pa + bs.length) % 4 = 0 then s2 else s2.scrub (pa + bs.length - 1) 1) = s3 at h2
  split
  · exact (fenceWord_marked _ _ _ _).groups.trans h2
  · exact h2

theorem agentWrite_groups (s : State) (m : Master) (p w va : Nat) (bs : List Byte) (t : State) (h : s.agentWrite m p w va bs = some (.ok t)) :
    OldsOnly s t := by
  unfold State.agentWrite at h
  split at h
  · simp at h
  · split at h
    · simp at h
    · split at h
      · simp only [Option.some.injEq, Except.ok.injEq] at h
        subst h
        rename_i ps _ _ _
        have key : ∀ (ps : List Piece) (st : State × List Byte), OldsOnly st.1 (ps.foldl (fun (st : State × List Byte) x =>
            (st.1.storeBytes (.dispatcher p) s.serial x.pa (st.2.take x.len), st.2.drop x.len)) st).1 := by
          intro ps
          induction ps with
          | nil => intro st; exact oldsOnly_of_eq rfl
          | cons x xs ih =>
            intro st
            rw [List.foldl_cons]
            exact (storeBytes_groups _ _ _ _ _).trans (ih _)
        exact key ps (s, bs)
      · simp at h

theorem writeStop_groups (s : State) (w : Nat) : OldsOnly s (s.writeStop w) := by
  unfold State.writeStop
  split
  · exact oldsOnly_of_eq rfl
  · split
    · exact oldsOnly_of_eq rfl
    · simp only []
      split
      · exact oldsOnly_of_eq rfl
      · split
        · exact oldsOnly_of_eq rfl
        · split
          · exact oldsOnly_of_eq rfl
          · rename_i o ho
            cases o with
            | error e => exact oldsOnly_of_eq (fenceAgent_marked _ _ _ _ _ _).groups
            | ok t => exact (agentWrite_groups _ _ _ _ _ _ t ho).trans (oldsOnly_of_eq rfl)

end Sys2Proof.Machine
end

