-- ==== Sys2Proof/Laws/Access.lean ====
section
/-! SUPPORT. What granted accesses do: the checks they pass, the parts of the machine they leave alone, the writes they put in flight. -/

namespace Sys2Proof.Machine

variable {s : State} {c : Ctx} {act : Mask} {sp : Space} {n : Nat} {write reads aligned : Bool} {reqs : List (Nat × Nat)}
  {ps : List (Nat × List Piece)}

/-! ### The checks -/

/-- What the checks of a granted access give: no failure, and the pieces. -/
theorem granted_checks (h : Admitted s c act sp n write reads aligned reqs ps) :
    (∀ {γ : Type} (F : Nat × Nat × Except Fail (List Piece) → Option γ), (∀ a b x, F (a, b, .ok x) = none) →
      (reqs.map fun r => (r.1, r.2, s.checkLane c sp write reads r.1 r.2 n)).filterMap F = []) ∧
    ∀ F : Nat × Nat × Except Fail (List Piece) → Option (Nat × List Piece), (∀ a b x, F (a, b, .ok x) = some (a, x)) →
      (reqs.map fun r => (r.1, r.2, s.checkLane c sp write reads r.1 r.2 n)).filterMap F = ps := by
  have hc := h.check
  clear h
  induction hc with
  | nil => exact ⟨fun _ _ => rfl, fun _ _ => rfl⟩
  | cons h1 _ ih =>
    refine ⟨fun F hF => ?_, fun F hF => ?_⟩
    · rw [List.map_cons, List.filterMap_cons_none (by rw [h1.2]; exact hF _ _ _)]
      exact ih.1 F hF
    · rw [List.map_cons, List.filterMap_cons_some (by rw [h1.2]; exact hF _ _ _), ih.2 F hF, ← h1.1]

theorem laneChecks_granted (h : Admitted s c act sp n write reads aligned reqs ps) :
    s.laneChecks c sp n write reads aligned reqs = reqs.map fun r => (r.1, r.2, s.checkLane c sp write reads r.1 r.2 n) := by
  unfold State.laneChecks
  refine List.map_congr_left fun r hr => ?_
  rw [if_neg]
  intro hx
  simp only [Bool.and_eq_true, decide_eq_true_eq] at hx
  exact hx.2 (h.align hx.1 r hr)

/-- A granted access goes ahead with its pieces. -/
theorem withLanes_granted (h : Admitted s c act sp n write reads aligned reqs ps) (k : List (Nat × List Piece) → Out) :
    withLanes c act sp n write reads aligned reqs s k = k ps := by
  obtain ⟨h1, h2⟩ := granted_checks h
  unfold withLanes
  rw [laneChecks_granted h]
  simp only []
  rw [h1 _ (fun _ _ _ => rfl), h2 _ (fun _ _ _ => rfl), h.atoms]
  rfl

/-- An access that no watchpoint matches goes ahead. -/
theorem watched_none {rd wr : Bool} (hw : Unwatched s c sp n rd wr reqs) (k : State → Out) : watched c sp n rd wr reqs s k = k s := by
  unfold watched
  split
  · rfl
  · rename_i x hx
    split
    · rfl
    · rename_i hn
      simp only [Bool.or_eq_true, Bool.not_eq_true', not_or, decide_eq_true_eq, Bool.not_eq_false] at hn
      rw [hw x hx hn.1.2 hn.2]

theorem outsidePieces_nil (h : ∀ x ∈ ps, ∀ p ∈ x.2, p.outside = false) : outsidePieces (ps.map fun x => x.2) = [] := by
  unfold outsidePieces
  rw [List.flatMap_eq_nil_iff]
  intro e he
  have h1 : e.2 ∈ ps.map fun x => x.2 := (List.of_mem_zip he).2
  obtain ⟨x, hx, hxe⟩ := List.mem_map.mp h1
  rw [List.map_eq_nil_iff, List.filter_eq_nil_iff]
  intro y hy
  have h2 : y.2 ∈ e.2 := (List.of_mem_zip hy).2
  rw [← hxe] at h2
  rw [h x hx y.2 h2]
  exact Bool.false_ne_true

theorem outsideDone_none (h : ∀ x ∈ ps, ∀ p ∈ x.2, p.outside = false) (op : Nat → Piece → ExtOp) (k : State → Out) :
    outsideDone c act sp n write reqs (ps.map fun x => x.2) op s k = k s := by
  unfold outsideDone
  rw [outsidePieces_nil h]
  rfl

theorem outsideMustWait_none (h : ∀ x ∈ ps, ∀ p ∈ x.2, p.outside = false) (release : Bool) : s.outsideMustWait c release ps = false := by
  unfold State.outsideMustWait
  rw [List.any_eq_false]
  intro x hx
  have : x.2.any Piece.outside = false := List.any_eq_false.mpr fun p hp => by rw [h x hx p hp]; exact Bool.false_ne_true
  simp [this]

/-! ### What is left alone -/

/-- Groups, blocks, chains, launches, worlds, ownership, time, memory and the writes in flight are as before. -/
structure Quiet (s t : State) : Prop where
  groups : t.groups = s.groups
  blocks : t.blocks = s.blocks
  launches : t.launches = s.launches
  chains : t.chains = s.chains
  worlds : t.worlds = s.worlds
  pot : t.pot = s.pot
  now : t.now = s.now
  mem : t.mem = s.mem
  pend : t.pend = s.pend
  written : t.written = s.written

theorem Quiet.refl (s : State) : Quiet s s := ⟨rfl, rfl, rfl, rfl, rfl, rfl, rfl, rfl, rfl, rfl⟩

theorem Quiet.trans {s t u : State} (h : Quiet s t) (k : Quiet t u) : Quiet s u :=
  ⟨k.groups.trans h.groups, k.blocks.trans h.blocks, k.launches.trans h.launches, k.chains.trans h.chains, k.worlds.trans h.worlds,
   k.pot.trans h.pot, k.now.trans h.now, k.mem.trans h.mem, k.pend.trans h.pend, k.written.trans h.written⟩

theorem quiet_foldl {α : Type} (f : State → α → State) (hf : ∀ s a, Quiet s (f s a)) (xs : List α) (s : State) : Quiet s (xs.foldl f s) := by
  induction xs generalizing s with
  | nil => exact Quiet.refl s
  | cons a xs ih => exact (hf s a).trans (ih (f s a))

theorem Marked.quiet {s t : State} (h : Marked s t) : Quiet s t := by
  obtain ⟨_, _, rfl⟩ := h
  exact ⟨rfl, rfl, rfl, rfl, rfl, rfl, rfl, rfl, rfl, rfl⟩

theorem scrubBy_quiet (s : State) (f : Nat → Bool) (pa n : Nat) : Quiet s (s.scrubBy f pa n) := (scrubBy_marked s f pa n).quiet
theorem scrub_quiet (s : State) (pa n : Nat) : Quiet s (s.scrub pa n) := (scrub_marked s pa n).quiet
theorem fenceWord_quiet (s : State) (pa core world : Nat) : Quiet s (s.fenceWord pa core world) := (fenceWord_marked s pa core world).quiet
theorem noteWalk_quiet (s : State) (p src va : Nat) : Quiet s (s.noteWalk p src va) := (noteWalk_marked s p src va).quiet

theorem cache_quiet (s : State) (core p va : Nat) : Quiet s (s.cache core p va) := by
  unfold State.cache
  split
  · exact Quiet.refl s
  · split
    · exact Quiet.refl s
    · refine (noteWalk_quiet s _ _ _).trans (t := s.noteWalk p (bulkOf core) va) ?_
      exact ⟨rfl, rfl, rfl, rfl, rfl, rfl, rfl, rfl, rfl, rfl⟩

theorem cachePieces_quiet (s : State) (c : Ctx) (sp : Space) (ps : List Piece) : Quiet s (s.cachePieces c sp ps) := by
  unfold State.cachePieces
  split
  · exact Quiet.refl s
  · refine quiet_foldl _ (fun s p => ?_) ps s
    split
    · exact Quiet.refl s
    · exact cache_quiet _ _ _ _

theorem useArrays_quiet (s : State) (core : Nat) (col store : Bool) (rs : List (Nat × Nat)) : Quiet s (s.useArrays core col store rs) := by
  unfold State.useArrays
  split
  · exact Quiet.refl s
  · exact ⟨rfl, rfl, rfl, rfl, rfl, rfl, rfl, rfl, rfl, rfl⟩

/-- Making room drops leases and nothing else. -/
theorem evict_leases (s : State) (core line : Nat) : ∃ ls, s.evict core line = { s with leases := ls } := by
  unfold State.evict
  simp only []
  repeat' split
  all_goals exact ⟨_, rfl⟩

theorem leasePieces_quiet (s : State) (c : Ctx) (sp : Space) (ps : List Piece) : Quiet s (s.leasePieces c sp ps) := by
  unfold State.leasePieces
  split
  · refine quiet_foldl _ (fun s p => ?_) ps s
    simp only []
    split
    · unfold State.fillParam
      split
      · exact Quiet.refl s
      · obtain ⟨ls, h⟩ := evict_leases s c.core (lineOf p.pa)
        simp only []
        generalize s.evict c.core (lineOf p.pa) = u at h
        subst h
        exact ⟨rfl, rfl, rfl, rfl, rfl, rfl, rfl, rfl, rfl, rfl⟩
    · exact Quiet.refl s
  · exact Quiet.refl s

theorem touchPieces_quiet (s : State) (c : Ctx) (sp : Space) (col store : Bool) (ps : List Piece) : Quiet s (s.touchPieces c sp col store ps) :=
  ((leasePieces_quiet s c sp ps).trans (cachePieces_quiet _ c sp ps)).trans (useArrays_quiet _ _ _ _ _)

theorem dropAnswers_quiet (s : State) (c : Ctx) : Quiet s (s.dropAnswers c) := by
  unfold State.dropAnswers
  split
  · exact ⟨rfl, rfl, rfl, rfl, rfl, rfl, rfl, rfl, rfl, rfl⟩
  · exact Quiet.refl s

theorem Quiet.group? {s t : State} (h : Quiet s t) (x : Gid) : t.group? x = s.group? x := by
  unfold State.group?
  rw [h.groups]

/-- What a quiet change and the retirement of the instruction leave alone. -/
theorem accessed_retire {s t : State} (h : Quiet s t) (c : Ctx) (f : Group → Group) (hf : ∀ x, (f x).gid = x.gid) :
    Accessed s (retire c (t.modGroup c.gid f)) c.gid :=
  ⟨fun x hx => by rw [retire_group?, if_neg hx, State.group?_modGroup _ _ _ f hf, if_neg hx, h.group?],
    h.blocks, h.launches, h.chains, h.worlds, h.pot, h.now⟩

/-! ### Loads -/

/-- What every load does once it is granted and its bytes can be read: registers are written in a quiet state. -/
theorem readAll_granted {col : Bool} {bs : List (Nat × List Byte)} (h : Granted s c act sp n false true aligned reqs ps)
    (hb : s.gatherAll c 0 ps = some bs) (k : List (Nat × List Byte) → State → Out) :
    ∃ t, Quiet s t ∧ readAll c act sp n col aligned reqs s k = k bs t := by
  unfold readAll
  rw [withLanes_granted h.toAdmitted, watched_none h.watch, outsideDone_none h.inside]
  simp only [hb]
  refine ⟨_, ?_, rfl⟩
  refine (dropAnswers_quiet s c).trans (Quiet.trans ?_ (touchPieces_quiet _ _ _ _ _ _))
  refine quiet_foldl _ (fun s p => ?_) _ _
  split
  · exact Quiet.refl s
  · exact scrubBy_quiet _ _ _ _

/-- Registers written to the group of the instruction in a quiet state, then the next instruction. -/
theorem retire_loads {t : State} {m : SMap 32} {F : Nat → Nat → Option Word} (hc : s.ctx? = some c) (hq : Quiet s t) (f : Group → Group)
    (hf : ∀ x, (f x).gid = x.gid) (hm : f c.g = { c.g with v := m })
    (hF : ∀ q l, l < 64 → SMap.get m (q * 64 + l) = (F q l).getD (SMap.get c.g.v (q * 64 + l))) :
    Loads s c F (.next (retire c (t.modGroup c.gid f))) := by
  obtain ⟨hg, -, -, -⟩ := ctx_parts hc
  refine ⟨_, ({ c.g with v := m } : Group).issued c.is.pc c.is.mask [mkFrag c.after c.is.mask], rfl, ?_, ?_, ?_⟩
  · rw [retire_group?, if_pos rfl, State.group?_modGroup _ _ _ f hf, if_pos rfl, hq.group?, hg, ← hm]
    rfl
  · intro l hl
    exact issued_stands _ _ _ _ _ _ ⟨_, List.mem_singleton_self _, rfl, rfl, hl⟩
  · exact ⟨hF, rfl, rfl, rfl, rfl, rfl, rfl, rfl, rfl, rfl, hq.mem, hq.pend, accessed_retire hq c f hf⟩

theorem foldl_writeV {α : Type} (w64 : Bool) (fresh : Nat) (L R : α → Nat) (X : α → Word) (xs : List α) (g : Group)
    (hz : ∀ x ∈ xs, g.hazard w64 (R x) = false) :
    xs.foldl (fun g x => g.writeV w64 fresh (L x) (R x) (X x)) g =
      { g with v := xs.foldl (fun m x => SMap.set m (R x * 64 + L x) (X x)) g.v } := by
  induction xs generalizing g with
  | nil => rfl
  | cons x xs ih =>
    have h1 : g.writeV w64 fresh (L x) (R x) (X x) = { g with v := SMap.set g.v (R x * 64 + L x) (X x) } := by
      simp [Group.writeV, hz x (List.mem_cons_self ..)]
    rw [List.foldl_cons, List.foldl_cons, h1]
    exact ih { g with v := SMap.set g.v (R x * 64 + L x) (X x) } fun y hy => hz y (List.mem_cons_of_mem _ hy)

theorem loadWords_length (sz : Sz) (bs : List Byte) : (loadWords sz bs).length ≤ 4 := by
  cases sz <;> simp [loadWords]

/-- LD and LDS (R237, R238). -/
theorem loadOp_loads {hd : Hdr} {acc : Acc} {k : Nat} {addr : Ctx → Nat → Nat} {bs : List (Nat × List Byte)}
    (h : Granted s c (c.act hd) acc.sp acc.sz.bytes false true (mustAlign acc.ord acc.a16) ((lanes (c.act hd)).map fun l => (l, addr c l)) ps)
    (hb : s.gatherAll c 0 ps = some bs) (hz : ∀ i, i < 4 → c.g.hazard c.w64 (k + i) = false) :
    Loads s c (fun q l => if inMask (c.act hd) l = true ∧ k ≤ q then (loadWords acc.sz (look [] bs l))[q - k]? else none)
      (loadOp hd acc ⟨.v, k⟩ addr s) := by
  unfold loadOp
  rw [withIssuer_eq h.ctx]
  simp only []
  rw [if_neg h.some_]
  obtain ⟨t, hq, e⟩ := readAll_granted (col := acc.col) h hb fun bs s =>
    .next (retire c (s.modGroup c.gid fun g => g.writeWords c.w64 s.fresh ⟨.v, k⟩ (fun l => loadWords acc.sz (look [] bs l)) (lanes (c.act hd))))
  rw [e]
  obtain ⟨m, hm, hget⟩ := writeWords_clear c.g c.w64 t.fresh k (fun l => loadWords acc.sz (look [] bs l)) (c.act hd) (fun l q h1 h2 => by
    have := loadWords_length acc.sz (look [] bs l)
    have h3 := hz (q - k) (by omega)
    rwa [Nat.add_sub_cancel' h1] at h3)
  refine retire_loads h.ctx hq _ (fun x => writeWords_gid _ _ _ _ _ _) hm fun q l hl => ?_
  rw [hget q l hl]
  split <;> rfl

theorem gatherAll_lanes (s : State) (c : Ctx) (i : Nat) (ps : List (Nat × List Piece)) (bs : List (Nat × List Byte)) (h : s.gatherAll c i ps = some bs) :
    bs.map (fun x => x.1) = ps.map fun x => x.1 := by
  induction ps generalizing i bs with
  | nil => unfold State.gatherAll at h; cases h; rfl
  | cons x ps ih =>
    obtain ⟨l, p⟩ := x
    unfold State.gatherAll at h
    split at h
    · rename_i a b h1 h2
      cases h
      simp [ih _ _ h2]
    · cases h

theorem forall2_lanes {s : State} {c : Ctx} {sp : Space} {w r : Bool} {n : Nat} {reqs : List (Nat × Nat)} {ps : List (Nat × List Piece)}
    (h : List.Forall₂ (fun (r' : Nat × Nat) (x : Nat × List Piece) => x.1 = r'.1 ∧ s.checkLane c sp w r r'.1 r'.2 n = .ok x.2) reqs ps) :
    ps.map (fun x => x.1) = reqs.map fun x => x.1 := by
  induction h with
  | nil => rfl
  | cons h1 _ ih => simp [h1.1, ih]

theorem tile_fold (k : Nat) (X : List Byte → Word) (ls : List Nat) (hnd : ls.Nodup) (h64 : ∀ l ∈ ls, l < 64) (i0 : Nat) (h0 : i0 % 16 = 0)
    (bs : List (Nat × List Byte)) (hb : bs.map (fun x => x.1) = ls.flatMap fun l => List.replicate 16 l) (m : SMap 32) (q l : Nat) (hl : l < 64) :
    SMap.get (((List.range' i0 bs.length).zip bs).foldl (fun m e => SMap.set m ((k + e.1 % 16) * 64 + e.2.1) (X e.2.2)) m) (q * 64 + l) =
      if l ∈ ls ∧ k ≤ q ∧ q < k + 16 then X ((bs.filter fun x => x.1 = l).getD (q - k) (0, [])).2 else SMap.get m (q * 64 + l) := by
  induction ls generalizing i0 bs m with
  | nil =>
    have : bs = [] := by simpa using hb
    subst this
    simp
  | cons a ls ih =>
    have hlen : bs.length = 16 + (ls.flatMap fun l => List.replicate 16 l).length := by
      have := congrArg List.length hb
      simp only [List.length_map, List.flatMap_cons, List.length_append, List.length_replicate] at this ⊢
      exact this
    obtain ⟨b1, b2, e, hb1⟩ : ∃ b1 b2, bs = b1 ++ b2 ∧ b1.length = 16 := ⟨bs.take 16, bs.drop 16, (List.take_append_drop 16 bs).symm, by simp; omega⟩
    subst e
    have hsplit : b1.map (fun x => x.1) = List.replicate 16 a ∧ b2.map (fun x => x.1) = ls.flatMap fun l => List.replicate 16 l := by
      rw [List.map_append, List.flatMap_cons] at hb
      exact List.append_inj hb (by simp [hb1])
    have hr : List.range' i0 (b1 ++ b2).length = List.range' i0 16 ++ List.range' (i0 + 16) b2.length := by
      rw [List.length_append, hb1, List.range'_append_1]
    rw [hr, List.zip_append (by simp [hb1]), List.foldl_append,
      ih (List.nodup_cons.mp hnd).2 (fun x hx => h64 x (List.mem_cons_of_mem _ hx)) (i0 + 16) (by omega) b2 hsplit.2]
    have h1 : ∀ x ∈ b1, x.1 = a := by
      intro x hx
      have : x.1 ∈ b1.map (fun x => x.1) := List.mem_map_of_mem hx
      rw [hsplit.1] at this
      exact (List.mem_replicate.mp this).2
    have h2 : ∀ x ∈ b2, x.1 ∈ ls := by
      intro x hx
      have : x.1 ∈ b2.map (fun x => x.1) := List.mem_map_of_mem hx
      rw [hsplit.2, List.mem_flatMap] at this
      obtain ⟨y, hy, hxy⟩ := this
      rw [(List.mem_replicate.mp hxy).2]
      exact hy
    have ha : a ∉ ls := (List.nodup_cons.mp hnd).1
    -- the fold over the first row
    have row : ∀ (j : Nat) (b : List (Nat × List Byte)) (m : SMap 32), (∀ x ∈ b, x.1 = a) → j + b.length ≤ 16 →
        SMap.get (((List.range' (i0 + j) b.length).zip b).foldl (fun m e => SMap.set m ((k + e.1 % 16) * 64 + e.2.1) (X e.2.2)) m) (q * 64 + l) =
        if l = a ∧ k + j ≤ q ∧ q < k + j + b.length then X (b.getD (q - k - j) (0, [])).2 else SMap.get m (q * 64 + l) := by
      intro j b
      induction b generalizing j with
      | nil => intro m _ _; simp
      | cons x b ihb =>
        intro m hx hj
        have hxa := hx x (List.mem_cons_self ..)
        have ha64 := h64 a (List.mem_cons_self ..)
        simp only [List.length_cons] at hj
        rw [List.length_cons, List.range'_succ, List.zip_cons_cons, List.foldl_cons,
          show i0 + j + 1 = i0 + (j + 1) from rfl, ihb (j + 1) _ (fun y hy => hx y (List.mem_cons_of_mem _ hy)) (by omega)]
        rw [SMap.get_set]
        have hm : (i0 + j) % 16 = j := by omega
        simp only [hm, hxa]
        by_cases hla : l = a
        · subst hla
          by_cases hq : q = k + j
          · subst hq
            rw [if_neg (by omega), if_pos rfl, if_pos ⟨rfl, by omega, by omega⟩]
            simp
          · by_cases hq2 : k + j + 1 ≤ q ∧ q < k + j + 1 + b.length
            · rw [if_pos ⟨rfl, by omega, by omega⟩, if_pos ⟨rfl, by omega, by omega⟩]
              have : q - k - j = (q - k - (j + 1)) + 1 := by omega
              rw [this, List.getD_cons_succ]
            · rw [if_neg (by omega), if_neg (by omega), if_neg (by omega)]
        · rw [if_neg (by omega), if_neg (by omega), if_neg (by omega)]
    have row0 := row 0 b1 m h1 (by omega)
    simp only [Nat.add_zero, hb1, Nat.sub_zero] at row0
    rw [row0]
    have hf1 : b1.filter (fun x => decide (x.1 = l)) = if l = a then b1 else [] := by
      split
      · rename_i h; rw [List.filter_eq_self]; intro x hx; simp [h1 x hx, h]
      · rename_i h; rw [List.filter_eq_nil_iff]; intro x hx; simp [h1 x hx, Ne.symm h]
    rw [List.filter_append, hf1]
    by_cases hla : l = a
    · subst hla
      have hf2 : b2.filter (fun x => decide (x.1 = l)) = [] := by
        rw [List.filter_eq_nil_iff]; intro x hx; simp; intro h; exact ha (h ▸ h2 x hx)
      rw [if_neg (by simp [ha]), if_pos rfl, hf2, List.append_nil]
      simp
    · rw [if_neg hla, List.nil_append]
      by_cases hls : l ∈ ls
      · simp [hla, hls]
      · simp [hla, hls]

theorem ownWrite_none (src : Writer → Bool) (pa : Nat) (ps : List Pend) (h : ∀ q ∈ ps, q.touches pa 1 = false) : ownWrite src pa ps = none := by
  induction ps with
  | nil => rfl
  | cons p ps ih =>
    unfold ownWrite
    rw [ih fun q hq => h q (List.mem_cons_of_mem _ hq)]
    simp [h p (List.mem_cons_self ..)]

theorem ownWrite_some (src : Writer → Bool) (pa : Nat) (p : Pend) (ps : List Pend) (hp : p ∈ ps) (hs : src p.src = true) (ht : p.touches pa 1 = true)
    (h : ∀ q ∈ ps, src q.src = true → q.touches pa 1 = true → q ≠ p → q.id < p.id) : ownWrite src pa ps = some p := by
  have key : ∀ ps : List Pend, (∀ q ∈ ps, src q.src = true → q.touches pa 1 = true → q ≠ p → q.id < p.id) →
      (p ∈ ps → ownWrite src pa ps = some p) ∧ (p ∉ ps → ∀ r, ownWrite src pa ps = some r → r.id < p.id ∧ r ≠ p) := by
    intro ps
    induction ps with
    | nil => intro _; exact ⟨fun h => absurd h (List.not_mem_nil), fun _ r hr => by cases hr⟩
    | cons q ps ih =>
      intro h
      obtain ⟨i1, i2⟩ := ih fun q hq => h q (List.mem_cons_of_mem _ hq)
      have hq := h q (List.mem_cons_self ..)
      unfold ownWrite
      by_cases hin : p ∈ ps
      · refine ⟨fun _ => ?_, fun hn => absurd (List.mem_cons_of_mem _ hin) hn⟩
        rw [i1 hin]
        simp only []
        rw [if_neg]
        intro hx
        simp only [Bool.and_eq_true, decide_eq_true_eq] at hx
        by_cases hqp : q = p
        · subst hqp; exact absurd hx.2 (Nat.lt_irrefl _)
        · exact absurd (hq hx.1.1 hx.1.2 hqp) (Nat.lt_asymm hx.2)
      · refine ⟨fun hm => ?_, fun hn r hr => ?_⟩
        · have hqp : q = p := by
            rcases List.mem_cons.mp hm with h | h
            · exact h.symm
            · exact absurd h hin
          subst hqp
          split
          · rename_i r hr
            rw [if_pos]
            simp [hs, ht, (i2 hin r hr).1]
          · simp [hs, ht]
        · have hqp : q ≠ p := fun h => hn (h ▸ List.mem_cons_self ..)
          split at hr
          · rename_i hr'
            split at hr
            · rename_i hx
              cases hr
              simp only [Bool.and_eq_true, decide_eq_true_eq] at hx
              exact ⟨hq hx.1.1 hx.1.2 hqp, hqp⟩
            · cases hr; exact i2 hin _ hr'
          · split at hr
            · rename_i hx
              cases hr
              simp only [Bool.and_eq_true] at hx
              exact ⟨hq hx.1 hx.2 hqp, hqp⟩
            · cases hr
  exact (key ps h).1 hp

theorem readByte_plain (s : State) (src : Writer → Bool) (k pa : Nat) (h : ∀ q ∈ s.pend, q.touches pa 1 = false) :
    s.readByte src k pa = some (Memory.get s.mem pa) := by
  unfold State.readByte
  rw [ownWrite_none _ _ _ h]
  have : s.chainByte pa = none := by
    unfold State.chainByte
    split
    · rw [List.find?_eq_none.mpr fun q hq => by simp [h q hq]]
    · rfl
  simp [this]

theorem readBytes_plain (s : State) (src : Writer → Bool) (k pa n : Nat) (h : ∀ q ∈ s.pend, q.touches pa n = false) :
    s.readBytes src k pa n = some (Memory.read s.mem pa n) := by
  induction n generalizing pa with
  | zero => rfl
  | succ n ih =>
    unfold State.readBytes
    rw [readByte_plain s src k pa, ih (pa + 1)]
    · rfl
    · intro q hq
      have := h q hq
      unfold Pend.touches at this ⊢
      revert this
      cases q.ext.isNone <;> simp <;> omega
    · intro q hq
      have := h q hq
      unfold Pend.touches at this ⊢
      revert this
      cases q.ext.isNone <;> simp <;> omega

theorem laneBytes_plain (s : State) (c : Ctx) (lane pa n : Nat) (ha : c.g.ahead = []) (h : ∀ q ∈ s.pend, q.touches pa n = false) :
    s.laneBytes c lane pa n = some (Memory.read s.mem pa n) := by
  induction n generalizing pa with
  | zero => rfl
  | succ n ih =>
    have he : c.early lane pa = none := by
      unfold Ctx.early
      rw [ha]
      rfl
    unfold State.laneBytes
    simp only [he]
    rw [readByte_plain s _ lane pa, ih (pa + 1)]
    · rfl
    · intro q hq
      have := h q hq
      unfold Pend.touches at this ⊢
      revert this
      cases q.ext.isNone <;> simp <;> omega
    · intro q hq
      have := h q hq
      unfold Pend.touches at this ⊢
      revert this
      cases q.ext.isNone <;> simp <;> omega

theorem gather_plain (s : State) (c : Ctx) (lane i j : Nat) (ps : List Piece) (ha : c.g.ahead = []) (h1 : ∀ p ∈ ps, p.lit = none ∧ p.loc = false ∧ p.outside = false)
    (h2 : ∀ p ∈ ps, ∀ q ∈ s.pend, q.touches p.pa p.len = false) :
    s.gather c lane i j ps = some (ps.flatMap fun p => Memory.read s.mem p.pa p.len) := by
  induction ps generalizing j with
  | nil => rfl
  | cons p ps ih =>
    obtain ⟨a, b, d⟩ := h1 p (List.mem_cons_self ..)
    unfold State.gather
    rw [ih _ (fun q hq => h1 q (List.mem_cons_of_mem _ hq)) (fun q hq => h2 q (List.mem_cons_of_mem _ hq)),
      laneBytes_plain _ _ _ _ _ ha (h2 p (List.mem_cons_self ..))]
    simp [a, b, d]

theorem toNat_app {a b : Nat} (x : BitVec a) (y : BitVec b) : (x ++ y).toNat = x.toNat * 2 ^ b + y.toNat := by
  rw [BitVec.toNat_append, ← Nat.shiftLeft_add_eq_or_of_lt y.isLt, Nat.shiftLeft_eq]

theorem signed_toInt (n v : Nat) (hn : 0 < n) : signed n v = (BitVec.ofNat n v).toInt := by
  unfold signed
  rw [BitVec.toInt_eq_toNat_cond, BitVec.toNat_ofNat]
  have : 2 ^ n = 2 * 2 ^ (n - 1) := by
    rw [← Nat.pow_succ', Nat.succ_eq_add_one, Nat.sub_add_cancel hn]
  split <;> rename_i h1 <;> split <;> rename_i h2 <;> first | rfl | omega

theorem ofBytes_two (b0 b1 : Byte) : ofBytes [b0, b1] = (b1 ++ b0).toNat := by
  rw [toNat_app]; simp [ofBytes]; omega

theorem ofBytes_toBytes (n v : Nat) (bs : List Byte) : ofBytes (toBytes n v ++ bs) = v % 256 ^ n + 256 ^ n * ofBytes bs := by
  induction n generalizing v with
  | zero => simp [toBytes, ofBytes, Nat.mod_one]
  | succ n ih =>
    have h : v % 256 ^ (n + 1) = v % 256 + 256 * (v / 256 % 256 ^ n) := by rw [Nat.pow_succ', Nat.mod_mul]
    simp only [toBytes, List.cons_append, ofBytes, ih, BitVec.toNat_ofNat]
    rw [h, show (2 : Nat) ^ 8 = 256 from rfl, Nat.pow_succ']
    ring

theorem ofBytes_word (w : Word) (bs : List Byte) : ofBytes (toBytes 4 w.toNat ++ bs) = w.toNat + 4294967296 * ofBytes bs := by
  rw [ofBytes_toBytes, Nat.mod_eq_of_lt (by have := w.isLt; omega), show (256 : Nat) ^ 4 = 4294967296 by norm_num]

/-! ### Stores -/

/-- Nothing has changed but what an access leaves behind, and `news` are in flight behind the writes that were; each of them is `ok`. -/
structure Sent (s : State) (ok : Pend → Prop) (news : List Pend) (t : State) : Prop where
  groups : t.groups = s.groups
  blocks : t.blocks = s.blocks
  launches : t.launches = s.launches
  chains : t.chains = s.chains
  worlds : t.worlds = s.worlds
  pot : t.pot = s.pot
  now : t.now = s.now
  mem : t.mem = s.mem
  pend : t.pend = s.pend ++ news
  all : ∀ q ∈ news, ok q

theorem Quiet.sent {s t : State} (h : Quiet s t) (ok : Pend → Prop) : Sent s ok [] t :=
  ⟨h.groups, h.blocks, h.launches, h.chains, h.worlds, h.pot, h.now, h.mem, by rw [h.pend, List.append_nil], fun q hq => absurd hq (List.not_mem_nil)⟩

theorem Sent.trans {s t u : State} {ok : Pend → Prop} {ns ms : List Pend} (h : Sent s ok ns t) (k : Sent t ok ms u) : Sent s ok (ns ++ ms) u :=
  ⟨k.groups.trans h.groups, k.blocks.trans h.blocks, k.launches.trans h.launches, k.chains.trans h.chains, k.worlds.trans h.worlds,
   k.pot.trans h.pot, k.now.trans h.now, k.mem.trans h.mem, by rw [k.pend, h.pend, List.append_assoc],
   fun q hq => (List.mem_append.mp hq).elim (h.all q) (k.all q)⟩

theorem Sent.quiet {s t u : State} {ok : Pend → Prop} {ns : List Pend} (h : Sent s ok ns t) (k : Quiet t u) : Sent s ok ns u := by
  have := h.trans (k.sent ok)
  rwa [List.append_nil] at this

/-- Sending item by item: the cells of the news are those of the items, in order. -/
theorem sent_foldl {α β : Type} (ok : Pend → Prop) (f : State → α → State) (cells : Pend → List β) (want : α → List β)
    (hf : ∀ s a, ∃ news, Sent s ok news (f s a) ∧ news.flatMap cells = want a) (xs : List α) (s : State) :
    ∃ news, Sent s ok news (xs.foldl f s) ∧ news.flatMap cells = xs.flatMap want := by
  induction xs generalizing s with
  | nil => exact ⟨[], (Quiet.refl s).sent ok, rfl⟩
  | cons a xs ih =>
    obtain ⟨n1, h1, e1⟩ := hf s a
    obtain ⟨n2, h2, e2⟩ := ih (f s a)
    exact ⟨n1 ++ n2, h1.trans h2, by rw [List.flatMap_append, e1, e2, List.flatMap_cons]⟩

/-- What a store of a thread's lane puts in flight. -/
def storePend (c : Ctx) (cls : WClass) (q : Pend) : Prop :=
  q.cls = cls ∧ q.lid = c.l.lid ∧ q.core = c.core ∧ q.tc = none ∧ q.ext = none ∧ ∃ bs, q.op = .bytes bs

theorem issue_sent (s : State) (c : Ctx) (src : Writer) (cls : WClass) (va pa : Nat) (bs : List Byte) (after : List Nat) (strong : Bool)
    (full : List Nat) (ent : Nat) (txn : Option Nat) :
    ∃ news, Sent s (storePend c cls) news (s.issue src c.l.lid c.core cls va pa (.bytes bs) after strong full ent txn) ∧
      news.flatMap Pend.cells = ((List.range' pa bs.length).zip bs).map fun x => (src, x.1, x.2) :=
  ⟨[⟨s.serial, src, c.l.lid, c.core, cls, BitVec.ofNat 64 va, pa, .bytes bs, after, strong, none, none, full, ent, txn.getD s.serial, false⟩],
   ⟨rfl, rfl, rfl, rfl, rfl, rfl, rfl, rfl, rfl, fun q hq => by
     rw [List.mem_singleton] at hq
     subst hq
     exact ⟨rfl, rfl, rfl, rfl, rfl, _, rfl⟩⟩, by simp [Pend.cells]⟩

theorem zip_range'_take (a n : Nat) (bs : List Byte) : (List.range' a n).zip (bs.take n) = (List.range' a (bs.take n).length).zip (bs.take n) := by
  have h : (bs.take n).length ≤ n := by simp
  generalize bs.take n = xs at h
  induction xs generalizing a n with
  | nil => simp
  | cons x xs ih =>
    cases n with
    | zero => simp at h
    | succ n =>
      simp only [List.range'_succ, List.length_cons, List.zip_cons_cons]
      rw [ih (a + 1) n (by simpa using h)]

theorem zip_range'_split (a m n : Nat) (bs : List Byte) (h : m ≤ bs.length) :
    (List.range' a (m + n)).zip bs = (List.range' a m).zip (bs.take m) ++ (List.range' (a + m) n).zip (bs.drop m) := by
  conv_lhs => rw [← List.take_append_drop m bs]
  rw [← List.range'_append_1, List.zip_append (by simp [h])]

/-- The units of a write hold its bytes, in order. -/
theorem units_cells (src : Writer) (al whole : Bool) (pa : Nat) (bs : List Byte) :
    ((units al bs whole).flatMap fun u => ((List.range' (pa + u.1) u.2.length).zip u.2).map fun x => (src, x.1, x.2)) =
      ((List.range' pa bs.length).zip bs).map fun x => (src, x.1, x.2) := by
  unfold units
  split
  · split
    · rename_i h
      simp only [Bool.and_eq_true, decide_eq_true_eq] at h
      have h16 := h.1
      simp only [List.flatMap_cons, List.flatMap_nil, List.append_nil, Nat.add_zero]
      rw [← List.map_append]
      congr 1
      have := zip_range'_split pa 8 8 bs (by omega)
      rw [show (bs.take 8).length = 8 by simp; omega, show (bs.drop 8).length = 8 by simp; omega, ← this, h16]
    · simp
  · have key : ∀ (xs : List Byte) (k : Nat), (∀ i, i < xs.length → bs.getD (k + i) 0 = xs.getD i 0) →
        ((List.range' k xs.length).map fun i => (i, [bs.getD i 0])).flatMap
          (fun u => ((List.range' (pa + u.1) u.2.length).zip u.2).map fun x => (src, x.1, x.2)) =
        ((List.range' (pa + k) xs.length).zip xs).map fun x => (src, x.1, x.2) := by
      intro xs
      induction xs with
      | nil => intros; rfl
      | cons x xs ih =>
        intro k hk
        have h0 := hk 0 (by simp)
        simp only [Nat.add_zero, List.getD_cons_zero] at h0
        simp only [List.length_cons, List.range'_succ, List.map_cons, List.flatMap_cons, List.zip_cons_cons]
        rw [h0, ih (k + 1) (fun i hi => by
          have := hk (i + 1) (by simp; omega)
          rw [List.getD_cons_succ] at this
          rw [← this]
          congr 1
          omega)]
        simp [Nat.add_assoc]
    have := key bs 0 (fun i _ => by rw [Nat.zero_add])
    rw [List.range_eq_range']
    simpa using this

theorem issuePiece_sent (s : State) (c : Ctx) (cls : WClass) (lane base : Nat) (strong whole : Bool) (after : List Nat) (p : Piece) (bs : List Byte)
    (al : Bool) (full : List Nat) (ho : p.outside = false) :
    ∃ news, Sent s (storePend c cls) news (s.issuePiece c cls lane base strong whole after p bs al full) ∧
      news.flatMap Pend.cells = ((List.range' p.pa bs.length).zip bs).map fun x => (Writer.thread c.gid lane, x.1, x.2) := by
  unfold State.issuePiece
  simp only [ho]
  rw [if_neg Bool.false_ne_true, ← units_cells _ al whole]
  generalize s.serial = s0
  exact sent_foldl (storePend c cls) _ Pend.cells (fun u : Nat × List Byte =>
    ((List.range' (p.pa + u.1) u.2.length).zip u.2).map fun x => (Writer.thread c.gid lane, x.1, x.2))
    (fun s u => issue_sent s c (.thread c.gid lane) cls (p.va + u.1) (p.pa + u.1) u.2 _ strong _ 0 (some s0)) _ s

theorem zip_places (p : Piece) (ps : List Piece) (bs : List Byte) :
    (placesOf (p :: ps)).zip bs = (List.range' p.pa p.len).zip (bs.take p.len) ++ (placesOf ps).zip (bs.drop p.len) := by
  show (List.range' p.pa p.len ++ placesOf ps).zip bs = _
  by_cases hl : p.len ≤ bs.length
  · conv_lhs => rw [← List.take_append_drop p.len bs]
    rw [List.zip_append (by simp [hl])]
  · rw [List.drop_eq_nil_of_le (by omega), List.zip_nil_right, List.append_nil, List.take_of_length_le (by omega)]
    have : ∀ (xs ys : List Nat) (zs : List Byte), zs.length ≤ xs.length → (xs ++ ys).zip zs = xs.zip zs := by
      intro xs
      induction xs with
      | nil => intro ys zs h; rw [List.length_eq_zero_iff.mp (Nat.le_zero.mp h)]; simp
      | cons x xs ihx =>
        intro ys zs h
        cases zs with
        | nil => simp
        | cons z zs => simp only [List.cons_append, List.zip_cons_cons, ihx ys zs (by simpa using h)]
    exact this _ _ _ (by simp; omega)

theorem writePieces_sent (c : Ctx) (cls : WClass) (lane base : Nat) (strong whole : Bool) (after : List Nat) (al : Bool) (full : List Nat) (ps : List Piece)
    (bs : List Byte) (s : State) (ho : ∀ p ∈ ps, p.outside = false ∧ p.loc = false) :
    ∃ news, Sent s (storePend c cls) news (s.writePieces c cls lane base strong whole after al full ps bs) ∧
      news.flatMap Pend.cells = ((placesOf ps).zip bs).map fun x => (Writer.thread c.gid lane, x.1, x.2) := by
  induction ps generalizing bs s with
  | nil => exact ⟨[], (Quiet.refl s).sent _, by simp [placesOf]⟩
  | cons p ps ih =>
    obtain ⟨h1, h2⟩ := ho p (List.mem_cons_self ..)
    obtain ⟨n1, a1, e1⟩ := issuePiece_sent s c cls lane base strong whole after p (bs.take p.len) al full h1
    obtain ⟨n2, a2, e2⟩ := ih (bs.drop p.len) (s.issuePiece c cls lane base strong whole after p (bs.take p.len) al full)
      (fun q hq => ho q (List.mem_cons_of_mem _ hq))
    unfold State.writePieces
    simp only [h2]
    rw [if_neg Bool.false_ne_true]
    refine ⟨n1 ++ n2, a1.trans a2, ?_⟩
    rw [List.flatMap_append, e1, e2, ← List.map_append, ← zip_range'_take, ← zip_places]

theorem checkPiece_plain {s : State} {m : Master} {core : Option Nat} {p w src : Nat} {can : List Nat} {wr rd at_ : Bool} {va n : Nat} {sent : Bool} {y : Piece}
    (h : s.checkPiece m core p w src can wr rd at_ va n sent = .ok y) : y.loc = false ∧ y.lit = none := by
  unfold State.checkPiece at h
  repeat' split at h
  all_goals first | (cases h; exact ⟨rfl, rfl⟩) | cases h

theorem checkGlobal_plain {s : State} {m : Master} {core : Option Nat} {p w src : Nat} {can : List Nat} {wr rd at_ : Bool} {va n : Nat} {sent : Bool} {ys : List Piece}
    (h : s.checkGlobal m core p w src can wr rd at_ va n sent = .ok ys) : ∀ y ∈ ys, y.loc = false ∧ y.lit = none := by
  unfold State.checkGlobal at h
  generalize (cutPages va n).map (fun c => (c.1 % 2 ^ 64, c.2)) = cs at h
  induction cs generalizing ys with
  | nil => cases h; simp
  | cons x cs ih =>
    rw [List.foldr_cons] at h
    unfold joinChecks at h
    split at h
    · rename_i a as h1 h2
      cases h
      intro y hy
      rcases List.mem_cons.mp hy with e | e
      · subst e; exact checkPiece_plain h1
      · exact ih h2 y e
    all_goals cases h

theorem checkLane_loc {s : State} {c : Ctx} {sp : Space} {wr rd : Bool} {lane a n : Nat} {ys : List Piece} (hs : sp ≠ .loc)
    (h : s.checkLane c sp wr rd lane a n = .ok ys) : ∀ y ∈ ys, y.loc = false := by
  unfold State.checkLane at h
  cases sp with
  | glob => exact fun y hy => (checkGlobal_plain h y hy).1
  | loc => exact absurd rfl hs
  | scr =>
    simp only [] at h
    repeat' split at h
    all_goals first | (cases h; simp) | cases h
  | par =>
    simp only [] at h
    split at h
    · have hcon : ∀ y ∈ (if ((List.range n).filter fun i => decide (a + i < c.l.rcd.argSize)).length = n then [] else
          [{ va := a + ((List.range n).filter fun i => decide (a + i < c.l.rcd.argSize)).length, pa := 0,
             len := n - ((List.range n).filter fun i => decide (a + i < c.l.rcd.argSize)).length,
             lit := some ((c.l.obj.const.drop (a + ((List.range n).filter fun i => decide (a + i < c.l.rcd.argSize)).length - 0x8000)).take
               (n - ((List.range n).filter fun i => decide (a + i < c.l.rcd.argSize)).length)) : Piece }] : List Piece), y.loc = false := by
        intro y hy
        split at hy <;> simp at hy
        simp [hy]
      split at h
      · cases h; exact hcon
      · split at h
        · cases h
        · rename_i ys' hg
          cases h
          intro y hy
          rcases List.mem_append.mp hy with e | e
          · exact (checkGlobal_plain hg y e).1
          · exact hcon y e
    · cases h

/-- The pieces of a granted access outside local storage are not local. -/
theorem granted_loc {s : State} {c : Ctx} {act : Mask} {sp : Space} {n : Nat} {write reads aligned : Bool} {reqs : List (Nat × Nat)}
    {ps : List (Nat × List Piece)} (h : Granted s c act sp n write reads aligned reqs ps) (hs : sp ≠ .loc) :
    ∀ x ∈ ps, ∀ p ∈ x.2, p.outside = false ∧ p.loc = false := by
  intro x hx p hp
  refine ⟨h.inside x hx p hp, ?_⟩
  have hc := h.check
  clear h
  induction hc with
  | nil => cases hx
  | cons h1 _ ih =>
    rcases List.mem_cons.mp hx with e | e
    · subst e; exact checkLane_loc hs h1.2 p hp
    · exact ih e

/-- Registers as they were in a state that has sent writes, then the next instruction. -/
theorem retire_sent {s t : State} {c : Ctx} {ok : Pend → Prop} {news : List Pend} (hc : s.ctx? = some c) (h : Sent s ok news t) :
    ∃ g, (retire c t).group? c.gid = some g ∧ (∀ l, inMask c.is.mask l = true → g.stands l c.after) ∧ SameRegs c.g g ∧
      g.live = c.g.live ∧ g.rets = c.g.rets ∧ g.mats = c.g.mats ∧ (retire c t).mem = s.mem ∧ (retire c t).pend = s.pend ++ news ∧
      Accessed s (retire c t) c.gid := by
  obtain ⟨hg, -, -, -⟩ := ctx_parts hc
  have hgr : ∀ x, t.group? x = s.group? x := fun x => by unfold State.group?; rw [h.groups]
  refine ⟨c.g.issued c.is.pc c.is.mask [mkFrag c.after c.is.mask], ?_, ?_, ⟨rfl, rfl, rfl, rfl, rfl, rfl, rfl⟩, rfl, rfl, rfl, h.mem, h.pend, ?_⟩
  · rw [retire_group?, if_pos rfl, hgr, hg]
    rfl
  · intro l hl
    exact issued_stands _ _ _ _ _ _ ⟨_, List.mem_singleton_self _, rfl, rfl, hl⟩
  · exact ⟨fun x hx => by rw [retire_group?, if_neg hx, hgr], h.blocks, h.launches, h.chains, h.worlds, h.pot, h.now⟩

/-- The pieces of a store put no more writes in flight than its room counts, and send nothing outside the package. -/
theorem issues_len {α : Type} (F : State → α → State) (h : ∀ s a, (F s a).pend.length = s.pend.length + 1 ∧ (F s a).ext = s.ext) (xs : List α) (s : State) :
    (xs.foldl F s).pend.length = s.pend.length + xs.length ∧ (xs.foldl F s).ext = s.ext := by
  induction xs generalizing s with
  | nil => exact ⟨rfl, rfl⟩
  | cons x xs ih =>
    rw [List.foldl_cons, List.length_cons]
    exact ⟨by rw [(ih _).1, (h s x).1]; omega, (ih _).2.trans (h s x).2⟩

theorem units_len (al whole : Bool) (bs : List Byte) : (units al bs whole).length ≤ bs.length + 1 := by
  unfold units
  split
  · split
    · rename_i h
      simp only [Bool.and_eq_true, decide_eq_true_eq] at h
      simp only [List.length_cons, List.length_nil, h.1]
      omega
    · simp only [List.length_cons, List.length_nil]
      omega
  · simp

theorem writePieces_len (c : Ctx) (cls : WClass) (lane base : Nat) (strong whole : Bool) (after : List Nat) (al : Bool) (full : List Nat)
    (ps : List Piece) (bs : List Byte) (s : State) (ho : ∀ p ∈ ps, p.outside = false ∧ p.loc = false) :
    (s.writePieces c cls lane base strong whole after al full ps bs).pend.length ≤ s.pend.length + (ps.map fun p => p.len + 1).sum ∧
    (s.writePieces c cls lane base strong whole after al full ps bs).ext = s.ext := by
  induction ps generalizing bs s with
  | nil => exact ⟨Nat.le_refl _, rfl⟩
  | cons p ps ih =>
    obtain ⟨h1, h2⟩ := ho p List.mem_cons_self
    have k : (s.issuePiece c cls lane base strong whole after p (bs.take p.len) al full).pend.length ≤ s.pend.length + (p.len + 1) ∧
        (s.issuePiece c cls lane base strong whole after p (bs.take p.len) al full).ext = s.ext := by
      unfold State.issuePiece
      simp only [h1]
      rw [if_neg Bool.false_ne_true]
      generalize s.serial = s0
      have hf := issues_len (fun (s : State) (u : Nat × List Byte) => s.issue (.thread c.gid lane) c.l.lid c.core cls (p.va + u.1) (p.pa + u.1) (.bytes u.2)
        (s.mustFollow (.thread c.gid lane) c.l.lid cls base after (p.pa + u.1) u.2.length) strong
        (full.filter fun w => decide (w < p.pa + u.1 + u.2.length) && decide (p.pa + u.1 < w + 4)) 0 (some s0))
        (fun s u => ⟨by show (s.pend ++ [_]).length = _; simp, rfl⟩) (units al (bs.take p.len) whole) s
      refine ⟨?_, hf.2⟩
      have h3 := units_len al whole (bs.take p.len)
      have h4 : (bs.take p.len).length ≤ p.len := by simp
      have h5 := hf.1
      omega
    unfold State.writePieces
    simp only [h2]
    rw [if_neg Bool.false_ne_true]
    obtain ⟨i1, i2⟩ := ih (bs.drop p.len) (s.issuePiece c cls lane base strong whole after p (bs.take p.len) al full)
      (fun q hq => ho q (List.mem_cons_of_mem _ hq))
    refine ⟨?_, i2.trans k.2⟩
    rw [List.map_cons, List.sum_cons]
    omega

/-- Writes that have been put in flight count in the wick counter of their class. -/
theorem Sent.wick {s t : State} {ok : Pend → Prop} {news : List Pend} (h : Sent s ok news t) (he : t.ext = s.ext) (lid core : Nat) (cls : WClass) :
    t.wick lid core cls ≤ s.wick lid core cls + news.length := by
  have ho : t.outAtoms lid core cls = s.outAtoms lid core cls := by
    unfold State.outAtoms State.atomsOut State.block?
    rw [h.groups, h.blocks, he]
  unfold State.wick
  rw [ho, h.pend, List.filter_append, List.length_append]
  have := List.length_filter_le (fun p : Pend => decide (p.lid = lid) && decide (p.core = core) && decide (p.cls = cls)) news
  omega

/-- What every granted store does outside local storage. -/
theorem writeAll_granted {s : State} {c : Ctx} {act : Mask} {sp : Space} {n : Nat} {col aligned release strong whole : Bool} {cls : WClass}
    {reqs : List (Nat × Nat)} {ps : List (Nat × List Piece)} {data : Nat → Nat → List Byte}
    (h : Granted s c act sp n true false aligned reqs ps) (hs : sp ≠ .loc) (hw : s.wick c.l.lid c.core cls + storeRoom ps ≤ 2 ^ 20)
    (hw0 : s.wick c.l.lid c.core cls < 2 ^ 20) (hl : c.l.lid = c.gid.lid) :
    Stores s c cls (storeCells c.gid ps data) (writeAll c act sp n col aligned cls release strong whole reqs data s) := by
  have hin := granted_loc h hs
  generalize hfull : fullWords ((ps.flatMap fun x => x.2).map fun p => (p.pa, p.len)) = full
  have go : ∀ (es : List (Nat × Nat × List Piece)) (t : State), (∀ e ∈ es, ∀ p ∈ e.2.2, p.outside = false ∧ p.loc = false) →
      (∃ news, Sent t (storePend c cls) news (es.foldl (fun t e =>
          t.writePieces c cls e.2.1 s.serial strong whole (if cls = .put then [] else s.orderAfter c e.2.1 release)
            ((reqs.getD e.1 (0, 0)).2 % n = 0) full e.2.2 (data e.1 e.2.1)) t) ∧
        news.flatMap Pend.cells = es.flatMap fun e =>
          ((placesOf e.2.2).zip (data e.1 e.2.1)).map fun x => (Writer.thread c.gid e.2.1, x.1, x.2)) ∧
      (es.foldl (fun t e =>
          t.writePieces c cls e.2.1 s.serial strong whole (if cls = .put then [] else s.orderAfter c e.2.1 release)
            ((reqs.getD e.1 (0, 0)).2 % n = 0) full e.2.2 (data e.1 e.2.1)) t).pend.length ≤
        t.pend.length + (es.map fun e => (e.2.2.map fun p => p.len + 1).sum).sum ∧
      (es.foldl (fun t e =>
          t.writePieces c cls e.2.1 s.serial strong whole (if cls = .put then [] else s.orderAfter c e.2.1 release)
            ((reqs.getD e.1 (0, 0)).2 % n = 0) full e.2.2 (data e.1 e.2.1)) t).ext = t.ext := by
    intro es
    induction es with
    | nil => intro t _; exact ⟨⟨[], (Quiet.refl t).sent _, rfl⟩, Nat.le_refl _, rfl⟩
    | cons e es ih =>
      intro t he
      have he1 := he e List.mem_cons_self
      obtain ⟨n1, a1, e1⟩ := writePieces_sent c cls e.2.1 s.serial strong whole (if cls = .put then [] else s.orderAfter c e.2.1 release)
        ((reqs.getD e.1 (0, 0)).2 % n = 0) full e.2.2 (data e.1 e.2.1) t he1
      obtain ⟨l1, l2⟩ := writePieces_len c cls e.2.1 s.serial strong whole (if cls = .put then [] else s.orderAfter c e.2.1 release)
        ((reqs.getD e.1 (0, 0)).2 % n = 0) full e.2.2 (data e.1 e.2.1) t he1
      obtain ⟨⟨n2, a2, e2⟩, m1, m2⟩ := ih _ fun x hx => he x (List.mem_cons_of_mem _ hx)
      refine ⟨⟨n1 ++ n2, a1.trans a2, by rw [List.flatMap_append, e1, e2, List.flatMap_cons]⟩, ?_, m2.trans l2⟩
      rw [List.foldl_cons, List.map_cons, List.sum_cons]
      omega
  obtain ⟨⟨news, a, e⟩, hlen, hext⟩ := go ((List.range ps.length).zip ps) s fun x hx => hin x.2 (List.of_mem_zip hx).2
  have hroom : (((List.range ps.length).zip ps).map fun e => (e.2.2.map fun p => p.len + 1).sum).sum = storeRoom ps := by
    unfold storeRoom
    have h1 : ((List.range ps.length).zip ps).map (fun e => e.2) = ps := List.map_snd_zip (by simp)
    conv_rhs => rw [← h1, List.map_map]
    rfl
  unfold writeAll
  rw [withLanes_granted h.toAdmitted, watched_none h.watch, outsideMustWait_none h.inside]
  simp only [hfull, Bool.false_or]
  rw [if_neg (by
    intro hx
    simp only [Bool.or_eq_true, decide_eq_true_eq] at hx
    have h1 := a.wick hext c.l.lid c.core cls
    have h2 : news.length ≤ storeRoom ps := by
      have := congrArg List.length a.pend
      rw [List.length_append] at this
      omega
    omega)]
  have a2 := a.quiet (touchPieces_quiet _ c sp col true (ps.flatMap fun x => x.2))
  obtain ⟨g, k1, k2, k3, k4, k5, k6, k7, k8, k9⟩ := retire_sent h.ctx a2
  refine ⟨_, g, news, rfl, k1, k2, k3, k4, k5, k6, k7, k8, ?_, e, k9⟩
  intro q hq
  have := a2.all q hq
  exact ⟨this.1, hl ▸ this.2.1, this.2.2⟩

theorem launch_lid {s : State} {c : Ctx} (h : s.ctx? = some c) : c.l.lid = c.gid.lid := by
  obtain ⟨-, -, hl, -⟩ := ctx_parts h
  unfold State.launch? at hl
  simpa using List.find?_some hl

theorem cutLines_cells (src : Writer) (f a n : Nat) (hf : n = 0 ∨ n + a % 128 ≤ 128 * f) :
    ((cutLines f a n).flatMap fun p => ((List.range' p.1 p.2).map fun x => (src, x, (0 : Byte)))) = (List.range' a n).map fun x => (src, x, 0) := by
  induction f generalizing a n with
  | zero => rw [show n = 0 by rcases hf with h | h <;> omega]; rfl
  | succ f ih =>
    unfold cutLines
    split
    · rename_i h; rw [h]; rfl
    · rename_i hn
      simp only [List.flatMap_cons]
      rw [ih _ _ (by
        rcases hf with hf | hf
        · exact absurd hf hn
        · rcases Nat.le_total n (128 - a % 128) with h | h <;> simp only [Nat.min_eq_left h, Nat.min_eq_right h] <;> omega), ← List.map_append]
      congr 1
      rw [show n = min n (128 - a % 128) + (n - min n (128 - a % 128)) by omega, ← List.range'_append_1]
      congr 2 <;> omega

/-- The value of a byte after cells have been written to local storage in order. -/
def localByte (s : State) (done : List (Writer × Nat × Byte)) (x : Nat) : Byte :=
  match done.reverse.find? fun y => y.2.1 = x with
  | some y => y.2.2
  | none => if (done.any fun y => lineOf y.2.1 = lineOf x) && !s.written.contains (lineOf x) then 0 else Memory.get s.mem x

/-- `t` is `s` with these cells written to local storage. -/
structure LocalDone (s : State) (done : List (Writer × Nat × Byte)) (t : State) : Prop where
  groups : t.groups = s.groups
  blocks : t.blocks = s.blocks
  launches : t.launches = s.launches
  chains : t.chains = s.chains
  worlds : t.worlds = s.worlds
  pot : t.pot = s.pot
  now : t.now = s.now
  pend : t.pend = s.pend
  mem : ∀ x, Memory.get t.mem x = localByte s done x
  written : ∀ ln, t.written.contains ln = (s.written.contains ln || done.any fun y => lineOf y.2.1 = ln)

theorem LocalDone.nil (s : State) : LocalDone s [] s := ⟨rfl, rfl, rfl, rfl, rfl, rfl, rfl, rfl, fun _ => rfl, fun _ => by simp⟩

theorem LocalDone.quiet {s t u : State} {done : List (Writer × Nat × Byte)} (h : LocalDone s done t) (k : Quiet t u) : LocalDone s done u :=
  ⟨k.groups.trans h.groups, k.blocks.trans h.blocks, k.launches.trans h.launches, k.chains.trans h.chains, k.worlds.trans h.worlds,
   k.pot.trans h.pot, k.now.trans h.now, k.pend.trans h.pend, fun x => by rw [k.mem]; exact h.mem x, fun ln => by rw [k.written]; exact h.written ln⟩

/-- The lines of a local write are opened, each the first time it is touched. -/
theorem openLines (t : State) (pa : Nat) (n : Nat) :
    let u := (List.range n).foldl (fun s i =>
      let ln := lineOf (pa + i)
      if s.written.contains ln then s
      else
        { s with
          mem := Memory.zero s.mem (fun a => a / 128 = ln)
          written := ln :: s.written
          eccBad := s.eccBad.filter fun x => lineOf x ≠ ln
          eccSoft := s.eccSoft.filter fun x => lineOf x ≠ ln
          tagBad := s.tagBad.filter fun l => l ≠ ln }) t
    u.groups = t.groups ∧ u.blocks = t.blocks ∧ u.launches = t.launches ∧ u.chains = t.chains ∧ u.worlds = t.worlds ∧ u.pot = t.pot ∧
    u.now = t.now ∧ u.pend = t.pend ∧
    (∀ x, Memory.get u.mem x = if ((List.range n).any fun i => lineOf (pa + i) = lineOf x) && !t.written.contains (lineOf x) then 0 else Memory.get t.mem x) ∧
    ∀ ln, u.written.contains ln = (t.written.contains ln || (List.range n).any fun i => lineOf (pa + i) = ln) := by
  induction n with
  | zero => simp
  | succ n ih =>
    simp only [List.range_succ, List.foldl_append, List.foldl_cons, List.foldl_nil]
    simp only [] at ih
    generalize (List.range n).foldl (fun s i =>
      let ln := lineOf (pa + i)
      if s.written.contains ln then s
      else
        { s with
          mem := Memory.zero s.mem (fun a => a / 128 = ln)
          written := ln :: s.written
          eccBad := s.eccBad.filter fun x => lineOf x ≠ ln
          eccSoft := s.eccSoft.filter fun x => lineOf x ≠ ln
          tagBad := s.tagBad.filter fun l => l ≠ ln }) t = u at ih
    obtain ⟨h1, h2, h3, h4, h5, h6, h7, h8, h9, h10⟩ := ih
    split
    · rename_i hw
      rw [h10] at hw
      refine ⟨h1, h2, h3, h4, h5, h6, h7, h8, fun x => ?_, fun ln => ?_⟩
      · rw [h9 x]
        simp only [List.any_append, List.any_cons, List.any_nil, Bool.or_false]
        by_cases e : lineOf (pa + n) = lineOf x
        · rw [e] at hw
          revert hw
          cases t.written.contains (lineOf x) <;> simp_all
        · simp [e]
      · rw [h10 ln]
        simp only [List.any_append, List.any_cons, List.any_nil, Bool.or_false]
        by_cases e : lineOf (pa + n) = ln
        · rw [e] at hw
          revert hw
          cases t.written.contains ln <;> simp_all
        · simp [e]
    · rename_i hw
      rw [h10] at hw
      refine ⟨h1, h2, h3, h4, h5, h6, h7, h8, fun x => ?_, fun ln => ?_⟩
      · rw [Memory.get_zero, h9 x]
        simp only [List.any_append, List.any_cons, List.any_nil, Bool.or_false]
        by_cases e : lineOf (pa + n) = lineOf x
        · rw [e] at hw
          have e' : x / 128 = lineOf (pa + n) := e.symm
          simp only [Bool.not_eq_true, Bool.or_eq_false_iff] at hw
          rw [hw.1]
          simp [e', e]
        · have e' : ¬ x / 128 = lineOf (pa + n) := fun h => e h.symm
          simp [e', e]
      · show (lineOf (pa + n) :: u.written).contains ln = _
        rw [List.contains_cons, h10 ln]
        simp only [List.any_append, List.any_cons, List.any_nil, Bool.or_false]
        by_cases e : lineOf (pa + n) = ln
        · simp [e]
        · simp [e, Ne.symm e]

/-- The cells of a run of bytes. -/
def runCells (src : Writer) (pa : Nat) (bs : List Byte) : List (Writer × Nat × Byte) := ((List.range' pa bs.length).zip bs).map fun x => (src, x.1, x.2)

theorem runCells_line (src : Writer) (pa : Nat) (bs : List Byte) (f : Nat → Bool) :
    (runCells src pa bs).any (fun y => f y.2.1) = (List.range bs.length).any fun i => f (pa + i) := by
  unfold runCells
  induction bs generalizing pa with
  | nil => rfl
  | cons b bs ih =>
    rw [List.length_cons, List.range'_succ, List.zip_cons_cons, List.map_cons, List.any_cons, ih, List.range_succ_eq_map, List.any_cons, List.any_map]
    congr 1
    congr 1
    funext i
    simp [Nat.add_assoc, Nat.add_comm 1]

theorem runCells_find (src : Writer) (pa : Nat) (bs : List Byte) (x : Nat) :
    (runCells src pa bs).reverse.find? (fun y => decide (y.2.1 = x)) =
      if pa ≤ x ∧ x < pa + bs.length then some (src, x, bs.getD (x - pa) 0) else none := by
  unfold runCells
  induction bs generalizing pa with
  | nil => simp
  | cons b bs ih =>
    rw [List.length_cons, List.range'_succ, List.zip_cons_cons, List.map_cons, List.reverse_cons, List.find?_append, ih]
    by_cases h : pa + 1 ≤ x ∧ x < pa + 1 + bs.length
    · rw [if_pos h, if_pos (by omega), show x - pa = (x - (pa + 1)) + 1 by omega, List.getD_cons_succ]
      rfl
    · rw [if_neg h]
      by_cases e : pa = x
      · subst e
        rw [if_pos (by omega)]
        simp
      · rw [if_neg (by omega)]
        simp [e]

theorem writeLocal_done {s t : State} {done : List (Writer × Nat × Byte)} (h : LocalDone s done t) (src : Writer) (pa : Nat) (bs : List Byte) :
    LocalDone s (done ++ runCells src pa bs) (t.writeLocal pa bs) := by
  have key := openLines t pa bs.length
  unfold State.writeLocal
  simp only [] at key ⊢
  generalize (List.range bs.length).foldl (fun s i =>
      if s.written.contains (lineOf (pa + i)) then s
      else
        { s with
          mem := Memory.zero s.mem (fun a => a / 128 = lineOf (pa + i))
          written := lineOf (pa + i) :: s.written
          eccBad := s.eccBad.filter fun x => lineOf x ≠ lineOf (pa + i)
          eccSoft := s.eccSoft.filter fun x => lineOf x ≠ lineOf (pa + i)
          tagBad := s.tagBad.filter fun l => l ≠ lineOf (pa + i) }) t = u at key
  obtain ⟨h1, h2, h3, h4, h5, h6, h7, h8, h9, h10⟩ := key
  suffices hd : ∀ v : State, Quiet u v → ∀ eb es, LocalDone s (done ++ runCells src pa bs) { v with mem := Memory.write v.mem pa bs, eccBad := eb, eccSoft := es } by
    split
    · exact (hd _ (scrubBy_quiet _ _ _ _) _ _).quiet (fenceWord_quiet _ _ _ _)
    · exact hd _ (scrubBy_quiet _ _ _ _) _ _
  intro v hv eb es
  refine ⟨hv.groups.trans (h1.trans h.groups), hv.blocks.trans (h2.trans h.blocks), hv.launches.trans (h3.trans h.launches),
    hv.chains.trans (h4.trans h.chains), hv.worlds.trans (h5.trans h.worlds), hv.pot.trans (h6.trans h.pot), hv.now.trans (h7.trans h.now),
    hv.pend.trans (h8.trans h.pend), fun x => ?_, fun ln => ?_⟩
  · show Memory.get (Memory.write v.mem pa bs) x = _
    rw [hv.mem]
    rw [Memory.get_write, h9 x]
    unfold localByte
    rw [List.reverse_append, List.find?_append, runCells_find, List.any_append, runCells_line src pa bs (fun a => decide (lineOf a = lineOf x))]
    by_cases hx : pa ≤ x ∧ x < pa + bs.length
    · have hlt : x - pa < bs.length := by omega
      simp only [hx, and_self, if_true, dite_true, Option.some_or]
      simp [hlt]
    · simp only [hx, if_false, dite_false, Option.none_or]
      rw [h.mem x, h.written (lineOf x)]
      unfold localByte
      cases hfd : done.reverse.find? fun y => decide (y.2.1 = x) with
      | some y =>
        have hy : done.any (fun y => decide (lineOf y.2.1 = lineOf x)) = true := by
          have hm := List.mem_of_find?_eq_some hfd
          have hp := List.find?_some hfd
          exact List.any_eq_true.mpr ⟨y, List.mem_reverse.mp hm, by simpa using congrArg lineOf (of_decide_eq_true hp)⟩
        simp [hy]
      | none =>
        simp only []
        cases done.any (fun y => decide (lineOf y.2.1 = lineOf x)) <;> cases s.written.contains (lineOf x) <;>
          cases (List.range bs.length).any (fun i => decide (lineOf (pa + i) = lineOf x)) <;> simp
  · show v.written.contains ln = _
    rw [hv.written, h10 ln, h.written ln, List.any_append, runCells_line src pa bs (fun a => decide (lineOf a = ln)), Bool.or_assoc]

theorem checkLane_local {s : State} {c : Ctx} {wr rd : Bool} {lane a n : Nat} {ys : List Piece}
    (h : s.checkLane c .loc wr rd lane a n = .ok ys) : ∀ y ∈ ys, y.loc = true := by
  unfold State.checkLane at h
  simp only [] at h
  repeat' split at h
  all_goals first | (cases h; simp) | cases h

theorem writePieces_local {s t : State} {done : List (Writer × Nat × Byte)} (h : LocalDone s done t) (c : Ctx) (cls : WClass) (lane base : Nat)
    (strong whole : Bool) (after : List Nat) (al : Bool) (full : List Nat) (ps : List Piece) (bs : List Byte) (hl : ∀ p ∈ ps, p.loc = true) :
    LocalDone s (done ++ ((placesOf ps).zip bs).map fun x => (Writer.thread c.gid lane, x.1, x.2))
      (t.writePieces c cls lane base strong whole after al full ps bs) := by
  induction ps generalizing t done bs with
  | nil => simpa [placesOf, State.writePieces] using h
  | cons p ps ih =>
    unfold State.writePieces
    simp only [hl p (List.mem_cons_self ..)]
    rw [if_pos trivial]
    have h1 := writeLocal_done h (.thread c.gid lane) p.pa (bs.take p.len)
    have h2 := ih h1 (bs.drop p.len) fun q hq => hl q (List.mem_cons_of_mem _ hq)
    rw [List.append_assoc] at h2
    have e : runCells (.thread c.gid lane) p.pa (bs.take p.len) ++ ((placesOf ps).zip (bs.drop p.len)).map (fun x => (Writer.thread c.gid lane, x.1, x.2)) =
        ((placesOf (p :: ps)).zip bs).map fun x => (Writer.thread c.gid lane, x.1, x.2) := by
      unfold runCells
      rw [← List.map_append, ← zip_range'_take]
      exact congrArg _ (zip_places p ps bs).symm
    rw [e] at h2
    exact h2

theorem writePieces_ext {c : Ctx} (cls : WClass) (lane base : Nat) (strong whole : Bool) (after : List Nat) (al : Bool) (full : List Nat)
    (ps : List Piece) (bs : List Byte) (hl : ∀ p ∈ ps, p.loc = true) (t : State) :
    (t.writePieces c cls lane base strong whole after al full ps bs).ext = t.ext := by
  have hsc : ∀ (t : State) (f : Nat → Bool) (pa n : Nat), (t.scrubBy f pa n).ext = t.ext := by
    intro t f pa n
    unfold State.scrubBy
    simp only []
    split
    · have key : ∀ (xs : List Nat) (t : State), (xs.foldl (fun s x => match homeBulk x with
          | some b => (s.modBulk b fun k => { k with corrected := k.corrected + 1 }).ember b 0x01 0xFFFF 0xFF (BitVec.ofNat 64 (x / 4096))
          | none => s) t).ext = t.ext := by
        intro xs
        induction xs with
        | nil => intro t; rfl
        | cons x xs ih =>
          intro t
          rw [List.foldl_cons, ih]
          cases homeBulk x <;> rfl
      exact (key _ _).trans rfl
    · rfl
  have hfw : ∀ (t : State) (a b d : Nat), (t.fenceWord a b d).ext = t.ext := by
    intro t a b d
    unfold State.fenceWord
    split
    · rfl
    · unfold State.fence
      split
      · split
        · simp only []
          split <;> rfl
        · rfl
      · rfl
  have hop : ∀ (xs : List Nat) (f : State → Nat → State), (∀ s i, (f s i).ext = s.ext) → ∀ t, (xs.foldl f t).ext = t.ext := by
    intro xs f hf
    induction xs with
    | nil => intro t; rfl
    | cons x xs ih => intro t; rw [List.foldl_cons, ih, hf]
  have hw : ∀ (t : State) (pa : Nat) (bs : List Byte), (t.writeLocal pa bs).ext = t.ext := by
    intro t pa bs
    unfold State.writeLocal
    simp only []
    have hu : ∀ u : State, u.ext = t.ext → (∀ f eb es, ({ u.scrubBy f pa bs.length with
        mem := Memory.write (u.scrubBy f pa bs.length).mem pa bs, eccBad := eb, eccSoft := es } : State).ext = t.ext) := by
      intro u hu f eb es
      exact (hsc u f pa bs.length).trans hu
    split
    · rw [hfw]
      refine hu _ (hop _ _ (fun s i => ?_) t) _ _ _
      split <;> rfl
    · refine hu _ (hop _ _ (fun s i => ?_) t) _ _ _
      split <;> rfl
  induction ps generalizing t bs with
  | nil => rfl
  | cons p ps ih =>
    unfold State.writePieces
    simp only [hl p List.mem_cons_self]
    rw [if_pos trivial, ih _ fun q hq => hl q (List.mem_cons_of_mem _ hq), hw]

/-- What a granted store to local storage does. -/
theorem writeAll_local {s : State} {c : Ctx} {act : Mask} {n : Nat} {col aligned release strong whole : Bool} {cls : WClass}
    {reqs : List (Nat × Nat)} {ps : List (Nat × List Piece)} {data : Nat → Nat → List Byte}
    (h : Granted s c act .loc n true false aligned reqs ps) (hw : s.wick c.l.lid c.core cls < 2 ^ 20) :
    ∃ t, LocalDone s (storeCells c.gid ps data) t ∧
      writeAll c act .loc n col aligned cls release strong whole reqs data s = .next (retire c t) := by
  have hin : ∀ x ∈ ps, ∀ p ∈ x.2, p.loc = true := by
    intro x hx p hp
    have hc := h.check
    clear h
    induction hc with
    | nil => cases hx
    | cons h1 _ ih =>
      rcases List.mem_cons.mp hx with e | e
      · subst e; exact checkLane_local h1.2 p hp
      · exact ih e
  generalize hfull : fullWords ((ps.flatMap fun x => x.2).map fun p => (p.pa, p.len)) = full
  have go : ∀ (es : List (Nat × Nat × List Piece)) (done : List (Writer × Nat × Byte)) (t : State), LocalDone s done t → t.ext = s.ext →
      (∀ e ∈ es, ∀ p ∈ e.2.2, p.loc = true) →
      LocalDone s (done ++ es.flatMap fun e => ((placesOf e.2.2).zip (data e.1 e.2.1)).map fun x => (Writer.thread c.gid e.2.1, x.1, x.2))
        (es.foldl (fun t e => t.writePieces c cls e.2.1 s.serial strong whole (if cls = .put then [] else s.orderAfter c e.2.1 release)
          ((reqs.getD e.1 (0, 0)).2 % n = 0) full e.2.2 (data e.1 e.2.1)) t) ∧
      (es.foldl (fun t e => t.writePieces c cls e.2.1 s.serial strong whole (if cls = .put then [] else s.orderAfter c e.2.1 release)
          ((reqs.getD e.1 (0, 0)).2 % n = 0) full e.2.2 (data e.1 e.2.1)) t).ext = s.ext := by
    intro es
    induction es with
    | nil => intro done t ht he _; exact ⟨by simpa using ht, he⟩
    | cons e es ih =>
      intro done t ht hx he
      have h0 := he e List.mem_cons_self
      have := ih _ _ (writePieces_local ht c cls e.2.1 s.serial strong whole
        (if cls = .put then [] else s.orderAfter c e.2.1 release) ((reqs.getD e.1 (0, 0)).2 % n = 0) full e.2.2 (data e.1 e.2.1) h0)
        ((writePieces_ext _ _ _ _ _ _ _ _ _ _ h0 t).trans hx) (fun x hx => he x (List.mem_cons_of_mem _ hx))
      rw [List.append_assoc] at this
      rw [List.flatMap_cons]
      exact this
  obtain ⟨hd, hx⟩ := go ((List.range ps.length).zip ps) [] s (LocalDone.nil s) rfl fun x hx => hin x.2 (List.of_mem_zip hx).2
  rw [List.nil_append] at hd
  unfold writeAll
  rw [withLanes_granted h.toAdmitted, watched_none h.watch, outsideMustWait_none h.inside]
  simp only [hfull, Bool.false_or]
  rw [if_neg (by
    intro hlt
    simp only [Bool.or_eq_true, decide_eq_true_eq] at hlt
    have hk : ∀ u : State, LocalDone s (storeCells c.gid ps data) u → u.ext = s.ext → u.wick c.l.lid c.core cls = s.wick c.l.lid c.core cls := by
      intro u hu he
      unfold State.wick State.outAtoms State.atomsOut State.block?
      rw [hu.groups, hu.blocks, hu.pend, he]
    have := hk _ hd hx
    omega)]
  exact ⟨_, hd.quiet (touchPieces_quiet _ c .loc col true (ps.flatMap fun x => x.2)), rfl⟩

theorem LocalDone.landed {s t : State} {c : Ctx} {done : List (Writer × Nat × Byte)} (hc : s.ctx? = some c) (h : LocalDone s done t) :
    ∃ g, (retire c t).group? c.gid = some g ∧ (∀ l, inMask c.is.mask l = true → g.stands l c.after) ∧ SameRegs c.g g ∧
      (retire c t).pend = s.pend ∧ Accessed s (retire c t) c.gid ∧ (∀ x, Memory.get (retire c t).mem x = localByte s done x) ∧
      ∀ ln, (retire c t).written.contains ln = (s.written.contains ln || done.any fun y => lineOf y.2.1 = ln) := by
  obtain ⟨hg, -, -, -⟩ := ctx_parts hc
  have hgr : ∀ x, t.group? x = s.group? x := fun x => by unfold State.group?; rw [h.groups]
  refine ⟨c.g.issued c.is.pc c.is.mask [mkFrag c.after c.is.mask], ?_, ?_, ⟨rfl, rfl, rfl, rfl, rfl, rfl, rfl⟩, h.pend, ?_, h.mem, h.written⟩
  · rw [retire_group?, if_pos rfl, hgr, hg]
    rfl
  · intro l hl
    exact issued_stands _ _ _ _ _ _ ⟨_, List.mem_singleton_self _, rfl, rfl, hl⟩
  · exact ⟨fun x hx => by rw [retire_group?, if_neg hx, hgr], h.blocks, h.launches, h.chains, h.worlds, h.pot, h.now⟩

section Atomics

variable {s : State} {c : Ctx} {act : Mask} {acc : Acc} {ps : List (Nat × List Piece)} {reqs : List (Nat × Nat)} {sh : AtomShape}

theorem granted_length {n : Nat} {sp : Space} {write reads aligned : Bool} (h : Granted s c act sp n write reads aligned reqs ps) :
    reqs.length = ps.length := h.check.length_eq

theorem badWord_nil (h : s.eccBad = []) (pa n : Nat) : s.badWord pa n = false := by
  unfold State.badWord
  rw [h]
  rfl

theorem fails_nil {n : Nat} {sp : Space} {write reads aligned : Bool} (h : Granted s c act sp n write reads aligned reqs ps) (he : s.eccBad = []) :
    sh.fails s (s.laneChecks c sp n write reads aligned reqs) = [] := by
  rw [laneChecks_granted h.toAdmitted]
  unfold AtomShape.fails
  rw [List.filterMap_eq_nil_iff]
  intro e hm
  obtain ⟨r, hr, rfl⟩ := List.mem_map.mp hm
  have hx : ∃ x ∈ ps, s.checkLane c sp write reads r.1 r.2 n = .ok x.2 := by
    have hc := h.check
    clear h hm
    induction hc with
    | nil => cases hr
    | cons h1 _ ih =>
      rcases List.mem_cons.mp hr with e | e
      · subst e; exact ⟨_, List.mem_cons_self, h1.2⟩
      · obtain ⟨x, hx, h2⟩ := ih e
        exact ⟨x, List.mem_cons_of_mem _ hx, h2⟩
  obtain ⟨x, hx, hk⟩ := hx
  have hin := h.inside x hx
  simp only [hk]
  rw [if_neg, if_neg]
  · intro h2
    obtain ⟨p, -, hp2⟩ := List.any_eq_true.mp h2
    rw [badWord_nil he] at hp2
    simp at hp2
  · intro h2
    simp only [Bool.and_eq_true] at h2
    obtain ⟨p, hp, hp2⟩ := List.any_eq_true.mp h2.2
    rw [hin p hp] at hp2
    split at hp2 <;> cases hp2

theorem atomChecks_granted {posted : Bool} (h : Granted s c act acc.sp sh.n true (!posted) true reqs ps)
    (hw : Unwatched s c acc.sp sh.n true true reqs) (he : s.eccBad = []) (k : List (Nat × List Piece) → State → Out) : atomChecks c act acc sh posted reqs s k = k ps s := by
  unfold atomChecks
  simp only [fails_nil (sh := sh) h he, List.isEmpty_nil, if_true]
  rw [withLanes_granted h.toAdmitted, watched_none hw, outsideMustWait_none h.inside, if_neg Bool.false_ne_true]

theorem cutPages_ne {a n : Nat} (hn : 0 < n) : cutPages a n ≠ [] := by
  unfold cutPages cutRuns
  rw [if_neg (by omega)]
  simp

theorem checkGlobal_ne {m : Master} {core : Option Nat} {p w src : Nat} {can : List Nat} {wr rd at_ : Bool} {va n : Nat} {sent : Bool} {ys : List Piece} (hn : 0 < n)
    (h : s.checkGlobal m core p w src can wr rd at_ va n sent = .ok ys) : ys ≠ [] := by
  unfold State.checkGlobal at h
  have hne := cutPages_ne (a := va) hn
  generalize cutPages va n = cs at h hne
  cases cs with
  | nil => exact absurd rfl hne
  | cons x cs =>
    rw [List.map_cons, List.foldr_cons] at h
    unfold joinChecks at h
    split at h
    · cases h; simp
    all_goals cases h

theorem checkLane_ne {sp : Space} {wr rd : Bool} {lane a n : Nat} {ys : List Piece} (hn : 0 < n)
    (h : s.checkLane c sp wr rd lane a n = .ok ys) : ys ≠ [] := by
  unfold State.checkLane at h
  cases sp with
  | glob => exact checkGlobal_ne hn h
  | loc =>
    simp only [] at h
    repeat' split at h
    all_goals first | (cases h; simp) | cases h
  | scr =>
    simp only [] at h
    repeat' split at h
    all_goals first | (cases h; simp) | cases h
  | par =>
    simp only [] at h
    split at h
    · split at h
      · rename_i h0
        cases h
        rw [if_neg (by omega)]
        simp
      · rename_i h0
        split at h
        · cases h
        · rename_i ys' hg
          cases h
          have := checkGlobal_ne (by omega) hg
          simp [this]
    · cases h

/-- Every lane of a granted access has a piece. -/
theorem granted_head {n : Nat} {sp : Space} {write reads aligned : Bool} (h : Granted s c act sp n write reads aligned reqs ps) (hn : 0 < n) :
    ∀ x ∈ ps, x.2 ≠ [] := by
  intro x hx
  have hc := h.check
  clear h
  induction hc with
  | nil => cases hx
  | cons h1 _ ih =>
    rcases List.mem_cons.mp hx with e | e
    · subst e; exact checkLane_ne hn h1.2
    · exact ih e

/-- What an atomic of a lane puts in flight. -/
def atomPend (s : State) (c : Ctx) (op : Nat → WOp) (x : Nat × List Piece) (q : Pend) : Prop :=
  q.src = .thread c.gid x.1 ∧ q.op = op x.1 ∧ q.tc = none ∧ q.ext = none ∧ s.serial ≤ q.id ∧ ∃ p ∈ x.2.head?, q.pa = p.pa ∧ q.va = BitVec.ofNat 64 p.va

theorem issueAtom_sent (s0 t : State) (c : Ctx) (acc : Acc) (cls : WClass) (op : Nat → WOp) (base n : Nat) (after : List Nat)
    (l : Nat) (p : Piece) (rest : List Piece) (hs : s0.serial ≤ t.serial) :
    ∃ q, Sent t (fun _ => True) [q] (t.issueAtom c acc cls l base after (op l) n p) ∧ atomPend s0 c op (l, p :: rest) q ∧ q.id = t.serial ∧
      s0.serial ≤ (t.issueAtom c acc cls l base after (op l) n p).serial ∧ (t.issueAtom c acc cls l base after (op l) n p).ext = t.ext :=
  ⟨⟨t.serial, .thread c.gid l, c.l.lid, c.core, cls, BitVec.ofNat 64 p.va, p.pa, op l, t.mustFollow (.thread c.gid l) c.l.lid cls base after p.pa n,
     acc.ord = .str, none, none, [], 0, t.serial, false⟩,
   ⟨rfl, rfl, rfl, rfl, rfl, rfl, rfl, rfl, rfl, fun _ _ => trivial⟩, ⟨rfl, rfl, rfl, rfl, hs, p, rfl, rfl, rfl⟩, rfl, Nat.le_succ_of_le hs, rfl⟩

theorem posted_sent (s0 : State) (c : Ctx) (acc : Acc) (cls : Piece → WClass) (op : Nat → WOp) (base n : Nat) (after : Nat → List Nat)
    (ps : List (Nat × List Piece)) (hin : ∀ x ∈ ps, ∀ p ∈ x.2, p.outside = false) (hne : ∀ x ∈ ps, x.2 ≠ []) (t : State) (hs : s0.serial ≤ t.serial) :
    ∃ news, Sent t (fun _ => True) news (ps.foldl (fun t x =>
        match x.2 with
        | p :: _ =>
          if p.outside then t else t.issueAtom c acc (cls p) x.1 base (after x.1) (op x.1) n p
        | [] => t) t) ∧ List.Forall₂ (atomPend s0 c op) ps news ∧ (ps.foldl (fun t x =>
        match x.2 with
        | p :: _ =>
          if p.outside then t else t.issueAtom c acc (cls p) x.1 base (after x.1) (op x.1) n p
        | [] => t) t).ext = t.ext := by
  induction ps generalizing t with
  | nil => exact ⟨[], (Quiet.refl t).sent _, List.Forall₂.nil, rfl⟩
  | cons x ps ih =>
    obtain ⟨l, qs⟩ := x
    cases qs with
    | nil => exact absurd rfl (hne _ (List.mem_cons_self ..))
    | cons p rest =>
      obtain ⟨q, a, e, -, hq, hx⟩ := issueAtom_sent s0 t c acc (cls p) op base n (after l) l p rest hs
      obtain ⟨news, a2, e2, hx2⟩ := ih (fun y hy => hin y (List.mem_cons_of_mem _ hy)) (fun y hy => hne y (List.mem_cons_of_mem _ hy)) _ hq
      rw [List.foldl_cons]
      simp only [hin _ (List.mem_cons_self ..) p (List.mem_cons_self ..)]
      rw [if_neg Bool.false_ne_true]
      exact ⟨q :: news, a.trans a2, List.Forall₂.cons e e2, hx2.trans hx⟩

theorem result_sent (s0 : State) (c : Ctx) (acc : Acc) (op : Nat → WOp) (base n : Nat) (after : Nat → List Nat)
    (F : State × List Await → Nat × Nat × List Piece → State × List Await)
    (hF : ∀ st i l p rest, p.outside = false → F st (i, l, p :: rest) =
      (st.1.issueAtom c acc .store l base (after l) (op l) n p, st.2 ++ [⟨l, st.1.serial, p.va, none, false⟩]))
    (ps : List (Nat × List Piece)) (hin : ∀ x ∈ ps, ∀ p ∈ x.2, p.outside = false) (hne : ∀ x ∈ ps, x.2 ≠ []) (k : Nat) (t : State) (as : List Await)
    (hs : s0.serial ≤ t.serial) :
    ∃ u news ls, ((List.range' k ps.length).zip ps).foldl F (t, as) = (u, as ++ ls) ∧ Sent t (fun _ => True) news u ∧
      List.Forall₂ (atomPend s0 c op) ps news ∧
      List.Forall₂ (fun (q : Pend) (x : Await) => q.src = .thread c.gid x.lane ∧ x.id = q.id ∧ x.got = none ∧ x.down = false) news ls := by
  induction ps generalizing t as k with
  | nil => exact ⟨t, [], [], by simp, (Quiet.refl t).sent _, List.Forall₂.nil, List.Forall₂.nil⟩
  | cons x ps ih =>
    obtain ⟨l, qs⟩ := x
    cases qs with
    | nil => exact absurd rfl (hne _ (List.mem_cons_self ..))
    | cons p rest =>
      obtain ⟨q, a, e, hid, hq, -⟩ := issueAtom_sent s0 t c acc .store op base n (after l) l p rest hs
      obtain ⟨u, news, ls, e1, a2, e2, e3⟩ := ih (fun y hy => hin y (List.mem_cons_of_mem _ hy)) (fun y hy => hne y (List.mem_cons_of_mem _ hy))
        (k + 1) _ (as ++ [⟨l, t.serial, p.va, none, false⟩]) hq
      refine ⟨u, q :: news, ⟨l, t.serial, p.va, none, false⟩ :: ls, ?_, a.trans a2, List.Forall₂.cons e e2,
        List.Forall₂.cons ⟨e.1, hid.symm, rfl, rfl⟩ e3⟩
      rw [List.length_cons, List.range'_succ, List.zip_cons_cons, List.foldl_cons, hF _ _ _ _ _ (hin _ (List.mem_cons_self ..) p (List.mem_cons_self ..)),
        e1, List.append_assoc]
      rfl

/-- An atomic with a result whose access is granted. -/
theorem atomResult_leaves {hd : Hdr} {d a : Opnd} {shf : Ctx → AtomShape} {act : Mask} (ha : act = c.act hd)
    (h : Granted s c act acc.sp (shf c).n true true true ((lanes act).map fun l => (l, c.addr s.fresh acc.sp 0 a l)) ps)
    (hn : 0 < (shf c).n) (he : s.eccBad = []) (hw : s.wick c.l.lid c.core .store + ps.length ≤ 2 ^ 20) :
    Leaves s c ps d ((shf c).n / 4) (shf c).op (atomResult hd acc d a shf s) := by
  unfold atomResult
  rw [withIssuer_eq h.ctx]
  simp only []
  rw [← ha, if_neg h.some_, atomChecks_granted (posted := false) h h.watch he, if_neg (Nat.not_lt.mpr hw), outsideDone_none h.inside]
  generalize hr : List.foldl _ (s, ([] : List Await)) _ = res
  rw [List.range_eq_range'] at hr
  obtain ⟨news, ls, a1, e1, e2, e3⟩ : ∃ news ls, Sent s (fun _ => True) news res.1 ∧ res.2 = ls ∧ List.Forall₂ (atomPend s c (shf c).op) ps news ∧
      List.Forall₂ (fun (q : Pend) (x : Await) => q.src = .thread c.gid x.lane ∧ x.id = q.id ∧ x.got = none ∧ x.down = false) news ls := by
    have key : ∀ F, ((List.range' 0 ps.length).zip ps).foldl F (s, []) = res → (∀ st i l p rest, p.outside = false → F st (i, l, p :: rest) =
        (st.1.issueAtom c acc .store l s.serial (s.orderAfter c l (acc.ord ≠ .rlx)) ((shf c).op l) (shf c).n p, st.2 ++ [⟨l, st.1.serial, p.va, none, false⟩])) →
        ∃ news ls, Sent s (fun _ => True) news res.1 ∧ res.2 = ls ∧ List.Forall₂ (atomPend s c (shf c).op) ps news ∧
          List.Forall₂ (fun (q : Pend) (x : Await) => q.src = .thread c.gid x.lane ∧ x.id = q.id ∧ x.got = none ∧ x.down = false) news ls := by
      intro F hr hF
      obtain ⟨u, news, ls, e1, a1, e2, e3⟩ := result_sent s c acc (shf c).op s.serial (shf c).n (fun l => s.orderAfter c l (acc.ord ≠ .rlx)) F hF ps
        h.inside (granted_head h hn) 0 s [] (Nat.le_refl _)
      rw [hr, List.nil_append] at e1
      subst e1
      exact ⟨news, ls, a1, rfl, e2, e3⟩
    refine key _ hr fun st i l p rest hp => ?_
    show (if p.outside = true then _ else _) = _
    rw [if_neg (by rw [hp]; exact Bool.false_ne_true)]
  clear hr
  obtain ⟨u, rs⟩ := res
  simp only at a1 e1
  subst e1
  obtain ⟨hg, hb, hl, -⟩ := ctx_parts h.ctx
  have a2 := a1.quiet ((dropAnswers_quiet u c).trans (touchPieces_quiet _ c acc.sp acc.col false (ps.flatMap fun x => x.2)))
  generalize hv : (u.dropAnswers c).touchPieces c acc.sp acc.col false (ps.flatMap fun x => x.2) = v at a2
  have hgr : ∀ x, v.group? x = s.group? x := fun x => by unfold State.group?; rw [a2.groups]
  -- nothing has landed yet
  have hls : ∃ x r, rs = x :: r ∧ x.got = none ∧ x.down = false := by
    cases e3 with
    | nil =>
      cases e2
      have hc := h.check
      have : lanes act ≠ [] := lanes_ne_nil h.some_
      cases hc' : lanes act with
      | nil => exact absurd hc' this
      | cons y ys => rw [hc'] at hc; cases hc
    | cons h1 _ => exact ⟨_, _, rfl, h1.2.2⟩
  obtain ⟨x, r, hx, hg1, hd1⟩ := hls
  have hland : ∀ f : Group → Group, (∀ y, (f y).gid = y.gid) → (f c.g).stuck = some ⟨c.is.pc, c.is.mask, c.is.len, c.is.inst, .atom d ((shf c).n / 4) (acc.sp = .scr) act rs⟩ →
      (v.modGroup c.gid f).land c.gid = v.modGroup c.gid f := by
    intro f hf hst
    unfold State.land
    rw [State.group?_modGroup v _ _ f hf, if_pos rfl, hgr, hg]
    simp only [Option.map_some, hst]
    rw [if_neg (by rw [hx]; simp [hg1, hd1])]
  rw [hland (fun g => { g with stuck := some ⟨c.is.pc, c.is.mask, c.is.len, c.is.inst, .atom d ((shf c).n / 4) (acc.sp = .scr) act rs⟩, pass := false })
    (fun _ => rfl) rfl]
  refine ⟨_, { c.g with stuck := some ⟨c.is.pc, c.is.mask, c.is.len, c.is.inst, .atom d ((shf c).n / 4) (acc.sp = .scr) act rs⟩, pass := false }, news,
    _, _, rs, rfl, ?_, rfl, e3, ⟨rfl, rfl, rfl, rfl, rfl, rfl, rfl⟩, rfl, e2, a2.pend, a2.mem, ?_⟩
  · rw [State.group?_modGroup v _ _ (fun g => { g with
        stuck := some ⟨c.is.pc, c.is.mask, c.is.len, c.is.inst, .atom d ((shf c).n / 4) (acc.sp = .scr) act rs⟩, pass := false }) (fun _ => rfl),
      if_pos rfl, hgr, hg]
    rfl
  · refine ⟨fun y hy => ?_, a2.blocks, a2.launches, a2.chains, a2.worlds, a2.pot, a2.now⟩
    rw [State.group?_modGroup v _ _ (fun g => { g with
        stuck := some ⟨c.is.pc, c.is.mask, c.is.len, c.is.inst, .atom d ((shf c).n / 4) (acc.sp = .scr) act rs⟩, pass := false }) (fun _ => rfl),
      if_neg hy, hgr]

/-- An atomic without result whose access is granted. -/
theorem atomPosted_posts {hd : Hdr} {a : Opnd} {off : Word} {cls : Ctx → Piece → WClass} {shf : Ctx → AtomShape} {act : Mask} (ha : act = c.act hd)
    (h : Granted s c act acc.sp (shf c).n true false true ((lanes act).map fun l => (l, c.addr s.fresh acc.sp off a l)) ps)
    (hu : Unwatched s c acc.sp (shf c).n true true ((lanes act).map fun l => (l, c.addr s.fresh acc.sp off a l)))
    (hn : 0 < (shf c).n) (he : s.eccBad = []) (hw : ∀ k, s.wick c.l.lid c.core k + ps.length ≤ 2 ^ 20) :
    Posts s c ps (shf c).op (atomPosted hd acc cls off a shf s) := by
  unfold atomPosted
  rw [withIssuer_eq h.ctx]
  simp only []
  rw [← ha, if_neg h.some_, atomChecks_granted (posted := true) h hu he, outsidePieces_nil h.inside]
  show Posts s c ps (shf c).op (outsideDone c act acc.sp (shf c).n true _ _ _ s _)
  rw [outsideDone_none h.inside]
  obtain ⟨news, a1, e1, hx⟩ := posted_sent s c acc (cls c) (shf c).op s.serial (shf c).n (fun l => s.orderAfter c l (acc.ord ≠ .rlx)) ps
    h.inside (granted_head h hn) s (Nat.le_refl _)
  rw [if_neg (by
    intro hy
    obtain ⟨x, -, hx2⟩ := List.any_eq_true.mp hy
    obtain ⟨p, -, hp⟩ := List.any_eq_true.mp hx2
    have h1 := Nat.lt_of_lt_of_le (of_decide_eq_true hp) (a1.wick hx c.l.lid c.core (cls c p))
    have h2 := hw (cls c p)
    have h4 := e1.length_eq
    omega)]
  have a2 := a1.quiet ((dropAnswers_quiet _ c).trans (touchPieces_quiet _ c acc.sp acc.col false (ps.flatMap fun x => x.2)))
  obtain ⟨g, k1, k2, k3, -, -, -, k7, k8, k9⟩ := retire_sent h.ctx a2
  exact ⟨_, g, news, rfl, k1, k2, k3, e1, k8, k7, k9⟩

end Atomics

theorem foldl_tc_ge (P : Pend → Prop) (F : Nat → Pend → Nat) (h0 : ∀ t q, t ≤ F t q) (h1 : ∀ t q x, q.tc = some x → P q → x ≤ F t q)
    (xs : List Pend) (t0 : Nat) : t0 ≤ xs.foldl F t0 ∧ ∀ q ∈ xs, ∀ x, q.tc = some x → P q → x ≤ xs.foldl F t0 := by
  induction xs generalizing t0 with
  | nil => simp
  | cons a xs ih =>
    rw [List.foldl_cons]
    obtain ⟨i1, i2⟩ := ih (F t0 a)
    refine ⟨Nat.le_trans (h0 _ _) i1, fun q hq x hx hh => ?_⟩
    rcases List.mem_cons.mp hq with e | e
    · subst e; exact Nat.le_trans (h1 _ _ _ hx hh) i1
    · exact i2 q e x hx hh

theorem tcOf_ge (s : State) (p : Pend) (delay : Nat) :
    s.now + delay ≤ s.tcOf p delay ∧ look 0 s.lmax (lineOf p.pa) ≤ s.tcOf p delay ∧
    (∀ q ∈ s.pend, ∀ x, q.tc = some x → lineOf q.pa = lineOf p.pa ∨ q.id ∈ p.after → x ≤ s.tcOf p delay) ∧
    (p.strong = true → s.lastStrong p.src < s.tcOf p delay) := by
  have a1 := Nat.le_max_left (s.now + delay) (look 0 s.lmax (lineOf p.pa))
  have a2 := Nat.le_max_right (s.now + delay) (look 0 s.lmax (lineOf p.pa))
  unfold State.tcOf
  simp only []
  generalize hr : List.foldl _ _ s.pend = r
  have key : ∀ F : Nat → Pend → Nat, s.pend.foldl F (max (s.now + delay) (look 0 s.lmax (lineOf p.pa))) = r → (∀ t q, t ≤ F t q) →
      (∀ t q x, q.tc = some x → lineOf q.pa = lineOf p.pa ∨ q.id ∈ p.after → x ≤ F t q) →
      max (s.now + delay) (look 0 s.lmax (lineOf p.pa)) ≤ r ∧
        ∀ q ∈ s.pend, ∀ x, q.tc = some x → lineOf q.pa = lineOf p.pa ∨ q.id ∈ p.after → x ≤ r := by
    intro F hr h0 h1
    rw [← hr]
    exact foldl_tc_ge (fun q => lineOf q.pa = lineOf p.pa ∨ q.id ∈ p.after) F h0 h1 s.pend _
  obtain ⟨h1, h2⟩ := key _ hr (fun t q => by
    split
    · split
      · exact Nat.le_max_left _ _
      · exact Nat.le_refl _
    · exact Nat.le_refl _) (fun t q x hx hh => by
    simp only [hx]
    rw [if_pos (by simpa using hh)]
    exact Nat.le_max_right _ _)
  by_cases hs : p.strong = true
  · rw [if_pos hs]
    refine ⟨by omega, by omega, fun q hq x hx hh => Nat.le_trans (h2 q hq x hx hh) (Nat.le_max_left _ _), fun _ => by omega⟩
  · rw [if_neg hs]
    exact ⟨by omega, by omega, h2, fun h => absurd h hs⟩

theorem mayArrive_iff (s : State) (p : Pend) : s.mayArrive p = true ↔
    p.tc = none ∧ p.ext = none ∧ (∀ i ∈ p.after, ∀ q ∈ s.pend, q.id = i → q.tc ≠ none) ∧ s.parHeld (lineOf p.pa) = false := by
  unfold State.mayArrive
  simp only [Bool.and_eq_true, List.all_eq_true, Bool.or_eq_true, decide_eq_true_eq, Option.isNone_iff_eq_none, Option.isSome_iff_ne_none, and_assoc,
    Bool.not_eq_true']
  constructor
  · rintro ⟨a, b, h, k⟩
    exact ⟨a, b, fun i hi q hq e => (h i hi q hq).resolve_left (by simp [e]), k⟩
  · rintro ⟨a, b, h, k⟩
    refine ⟨a, b, fun i hi q hq => ?_, k⟩
    by_cases e : q.id = i
    · exact Or.inr (h i hi q hq e)
    · exact Or.inl (by simpa using e)

theorem signed_toInt' {w : Nat} (x : BitVec w) (hw : 0 < w) : signed w x.toNat = x.toInt := by
  rw [signed_toInt _ _ hw, BitVec.ofNat_toNat, BitVec.setWidth_eq]

theorem and64 {w : Nat} (hw : w ≤ 64) (m b : BitVec w) : (BitVec.ofNat 64 m.toNat &&& BitVec.ofNat 64 b.toNat).toNat = (m &&& b).toNat := by
  have h1 : m.toNat < 2 ^ 64 := Nat.lt_of_lt_of_le m.isLt (Nat.pow_le_pow_right (by omega) hw)
  have h2 : b.toNat < 2 ^ 64 := Nat.lt_of_lt_of_le b.isLt (Nat.pow_le_pow_right (by omega) hw)
  rw [BitVec.toNat_and, BitVec.toNat_and, BitVec.toNat_ofNat, BitVec.toNat_ofNat, Nat.mod_eq_of_lt h1, Nat.mod_eq_of_lt h2]

theorem or64 {w : Nat} (hw : w ≤ 64) (m b : BitVec w) : (BitVec.ofNat 64 m.toNat ||| BitVec.ofNat 64 b.toNat).toNat = (m ||| b).toNat := by
  have h1 : m.toNat < 2 ^ 64 := Nat.lt_of_lt_of_le m.isLt (Nat.pow_le_pow_right (by omega) hw)
  have h2 : b.toNat < 2 ^ 64 := Nat.lt_of_lt_of_le b.isLt (Nat.pow_le_pow_right (by omega) hw)
  rw [BitVec.toNat_or, BitVec.toNat_or, BitVec.toNat_ofNat, BitVec.toNat_ofNat, Nat.mod_eq_of_lt h1, Nat.mod_eq_of_lt h2]

theorem xor64 {w : Nat} (hw : w ≤ 64) (m b : BitVec w) : (BitVec.ofNat 64 m.toNat ^^^ BitVec.ofNat 64 b.toNat).toNat = (m ^^^ b).toNat := by
  have h1 : m.toNat < 2 ^ 64 := Nat.lt_of_lt_of_le m.isLt (Nat.pow_le_pow_right (by omega) hw)
  have h2 : b.toNat < 2 ^ 64 := Nat.lt_of_lt_of_le b.isLt (Nat.pow_le_pow_right (by omega) hw)
  rw [BitVec.toNat_xor, BitVec.toNat_xor, BitVec.toNat_ofNat, BitVec.toNat_ofNat, Nat.mod_eq_of_lt h1, Nat.mod_eq_of_lt h2]

theorem atomNew_bits (n : Nat) (hn : n = 4 ∨ n = 8) (m b : BitVec (8 * n)) :
    atomNew .add n m.toNat b.toNat = (m + b).toNat ∧ atomNew .minz n m.toNat b.toNat = (if b < m then b else m).toNat ∧
    atomNew .maxz n m.toNat b.toNat = (if m < b then b else m).toNat ∧ atomNew .mins n m.toNat b.toNat = (if b.slt m then b else m).toNat ∧
    atomNew .maxs n m.toNat b.toNat = (if m.slt b then b else m).toNat ∧ atomNew .and n m.toNat b.toNat = (m &&& b).toNat ∧
    atomNew .or n m.toNat b.toNat = (m ||| b).toNat ∧ atomNew .xor n m.toNat b.toNat = (m ^^^ b).toNat ∧
    atomNew .inc n m.toNat b.toNat = (if b ≤ m then 0 else m + 1).toNat ∧ atomNew .dec n m.toNat b.toNat = (if m = 0 ∨ b < m then b else m - 1).toNat := by
  have h0 : 0 < 8 * n := by omega
  have h64 : 8 * n ≤ 64 := by omega
  have hm := m.isLt
  have hb := b.isLt
  have hone : 1 < 2 ^ (8 * n) := Nat.one_lt_two_pow (by omega)
  have e1 : (1 : BitVec (8 * n)).toNat = 1 := by
    show (BitVec.ofNat (8 * n) 1).toNat = 1
    rw [BitVec.toNat_ofNat, Nat.mod_eq_of_lt hone]
  refine ⟨?_, ?_, ?_, ?_, ?_, and64 h64 m b, or64 h64 m b, xor64 h64 m b, ?_, ?_⟩
  · simp only [atomNew, BitVec.toNat_add]
  · simp only [atomNew, BitVec.lt_def]
    split <;> omega
  · simp only [atomNew, BitVec.lt_def]
    split <;> omega
  · simp only [atomNew, signed_toInt' _ h0, BitVec.slt, decide_eq_true_eq]
    split <;> rfl
  · simp only [atomNew, signed_toInt' _ h0, BitVec.slt, decide_eq_true_eq]
    split <;> rfl
  · simp only [atomNew, ge_iff_le, BitVec.le_def]
    split
    · simp
    · rw [BitVec.toNat_add, e1, Nat.mod_eq_of_lt (by omega)]
  · simp only [atomNew]
    by_cases h : m = 0 ∨ b < m
    · rw [if_pos h, if_pos]
      rcases h with h | h
      · simp [h]
      · simp [BitVec.lt_def.mp h]
    · rw [if_neg h, if_neg]
      · have h1 : m.toNat ≠ 0 := fun e => h (Or.inl (BitVec.eq_of_toNat_eq (by simpa using e)))
        rw [BitVec.toNat_sub, e1]
        rw [show 2 ^ (8 * n) - 1 + m.toNat = m.toNat - 1 + 2 ^ (8 * n) by omega, Nat.add_mod_right, Nat.mod_eq_of_lt (by omega)]
      · intro hh
        simp only [Bool.or_eq_true, decide_eq_true_eq] at hh
        rcases hh with hh | hh
        · exact h (Or.inl (BitVec.eq_of_toNat_eq (by simpa using hh)))
        · exact h (Or.inr (BitVec.lt_def.mpr hh))

theorem overwrite_quiet (s : State) (ws : List Nat) : Quiet s (s.overwrite ws) := by
  unfold State.overwrite
  split
  · exact Quiet.refl s
  · exact ⟨rfl, rfl, rfl, rfl, rfl, rfl, rfl, rfl, rfl, rfl⟩

/-- What storing bytes at their home changes besides groups, errors and bulkheads. -/
structure Stored (s : State) (pa : Nat) (bs : List Byte) (t : State) : Prop where
  mem : t.mem = Memory.write s.mem pa bs
  pend : t.pend = s.pend
  leases : t.leases = s.leases
  launches : t.launches = s.launches
  now : t.now = s.now
  blocks : t.blocks = s.blocks
  worlds : t.worlds = s.worlds
  chains : t.chains = s.chains
  pot : t.pot = s.pot

theorem overwrite_leases (s : State) (ws : List Nat) : (s.overwrite ws).leases = s.leases := by
  unfold State.overwrite
  split <;> rfl

theorem Marked.leases {s t : State} (h : Marked s t) : t.leases = s.leases := by
  obtain ⟨_, _, rfl⟩ := h
  rfl

theorem storeBytes_stored (s : State) (src : Writer) (id pa : Nat) (bs : List Byte) : Stored s pa bs (s.storeBytes src id pa bs) := by
  have hk : ∀ u : State, u = s.keepOlds src id pa bs.length →
      u.mem = s.mem ∧ u.pend = s.pend ∧ u.leases = s.leases ∧ u.launches = s.launches ∧ u.now = s.now ∧ u.blocks = s.blocks ∧ u.worlds = s.worlds ∧
      u.chains = s.chains ∧ u.pot = s.pot := by
    rintro u rfl
    unfold State.keepOlds
    split <;> exact ⟨rfl, rfl, rfl, rfl, rfl, rfl, rfl, rfl, rfl⟩
  obtain ⟨h1, h2, h3, h4, h5, h6, h7, h8, h9⟩ := hk _ rfl
  unfold State.storeBytes
  simp only []
  generalize s.keepOlds src id pa bs.length = u at *
  have q1 : Marked u (if pa % 4 = 0 then u else u.scrub pa 1) := by split; exact Marked.refl u; exact scrub_marked _ _ _
  generalize (if pa % 4 = 0 then u else u.scrub pa 1) = u1 at q1 ⊢
  have q2 : Marked u1 (if (pa + bs.length) % 4 = 0 then u1 else u1.scrub (pa + bs.length - 1) 1) := by split; exact Marked.refl u1; exact scrub_marked _ _ _
  generalize (if (pa + bs.length) % 4 = 0 then u1 else u1.scrub (pa + bs.length - 1) 1) = u2 at q2 ⊢
  have q4 := q1.trans q2
  have q3 := q4.quiet
  have fin : ∀ v : State, v.leases = u2.leases → Quiet { u2 with
      mem := Memory.write u2.mem pa bs
      eccBad := v.eccBad
      eccSoft := v.eccSoft
      tagBad := v.tagBad } v → Stored s pa bs v := fun v hl q =>
    ⟨by rw [q.mem]; show Memory.write u2.mem pa bs = _; rw [q3.mem, h1], by rw [q.pend]; exact q3.pend.trans h2, hl.trans (q4.leases.trans h3),
     by rw [q.launches]; exact q3.launches.trans h4, by rw [q.now]; exact q3.now.trans h5, by rw [q.blocks]; exact q3.blocks.trans h6,
     by rw [q.worlds]; exact q3.worlds.trans h7, by rw [q.chains]; exact q3.chains.trans h8, by rw [q.pot]; exact q3.pot.trans h9⟩
  split
  · refine fin _ ((fenceWord_marked _ _ _ _).leases.trans rfl) (Quiet.trans (t := _) ?_ (fenceWord_quiet _ _ _ _))
    exact ⟨rfl, rfl, rfl, rfl, rfl, rfl, rfl, rfl, rfl, rfl⟩
  · exact fin _ rfl ⟨rfl, rfl, rfl, rfl, rfl, rfl, rfl, rfl, rfl, rfl⟩

theorem toBytes_length (n v : Nat) : (toBytes n v).length = n := by
  induction n generalizing v with
  | zero => rfl
  | succ n ih => simp [toBytes, ih]

theorem result_length (p : Pend) (old : List Byte) (h : old.length = p.size) : (p.result old).length = p.size := by
  unfold Pend.result Pend.size at *
  cases hop : p.op <;> simp only [hop, toBytes_length] at *
  split
  · exact toBytes_length _ _
  · exact h

/-- What a write does to memory when it performs at a home that is up. -/
theorem perform_mem (s : State) (p : Pend) (b : Nat) (hb : homeBulk p.pa = some b) (hd : s.isDown b = false) (hs : s.isSealed p.pa = false) :
    ∃ t, s.perform p = t ∧ t.pend = s.pend ∧ t.leases = s.leases ∧ t.launches = s.launches ∧ t.now = s.now ∧ t.blocks = s.blocks ∧ 
      ∀ a, Memory.get t.mem a = if p.pa ≤ a ∧ a < p.pa + p.size then (p.result (Memory.read s.mem p.pa p.size)).getD (a - p.pa) 0
        else Memory.get s.mem a := by
  refine ⟨_, rfl, ?_⟩
  have sq := scrub_quiet s p.pa p.size
  have sl := (scrub_marked s p.pa p.size).leases
  have fin : ∀ (u : State) (bs : List Byte), u.leases = s.leases → Quiet s u → bs = p.result (Memory.read s.mem p.pa p.size) → 
      (u.storeBytes p.src p.id p.pa bs).pend = s.pend ∧ (u.storeBytes p.src p.id p.pa bs).leases = s.leases ∧
      (u.storeBytes p.src p.id p.pa bs).launches = s.launches ∧ (u.storeBytes p.src p.id p.pa bs).now = s.now ∧
      (u.storeBytes p.src p.id p.pa bs).blocks = s.blocks ∧
      ∀ a, Memory.get (u.storeBytes p.src p.id p.pa bs).mem a = if p.pa ≤ a ∧ a < p.pa + p.size then
        (p.result (Memory.read s.mem p.pa p.size)).getD (a - p.pa) 0 else Memory.get s.mem a := by
    intro u bs ul q hbs
    have st := storeBytes_stored u p.src p.id p.pa bs
    refine ⟨st.pend.trans q.pend, st.leases.trans ul, st.launches.trans q.launches, st.now.trans q.now, st.blocks.trans q.blocks, fun a => ?_⟩
    have hlen : bs.length = p.size := by rw [hbs]; exact result_length _ _ (Memory.read_length _ _ _)
    rw [st.mem, q.mem, Memory.get_write, ← hbs]
    simp only [← hlen]
    split
    · rename_i h
      rw [List.getD_eq_getElem _ _ (by omega)]
    · rfl
  unfold State.perform
  simp only [hb, hd]
  rw [if_neg Bool.false_ne_true]
  have hr : p.result (Memory.read s.mem p.pa p.size) = p.result (Memory.read s.mem p.pa p.size) := rfl
  unfold Pend.result Pend.size at hr
  cases hop : p.op with
  | bytes bs =>
    simp only [hs, Bool.false_and]
    rw [if_neg Bool.false_ne_true]
    exact fin _ bs (overwrite_leases s p.full) (overwrite_quiet s p.full) (by simp [Pend.result, hop])
  | sem op v => exact fin _ _ sl sq (by rw [sq.mem]; simp only [Pend.result, hop, Pend.size])
  | rmw op n v => exact fin _ _ sl sq (by rw [sq.mem]; simp only [Pend.result, hop, Pend.size])
  | rmwf op v => exact fin _ _ sl sq (by rw [sq.mem]; simp only [Pend.result, hop, Pend.size])
  | xchg n v => exact fin _ _ sl sq (by simp only [Pend.result, hop])
  | cas n v new =>
    simp only []
    split
    · rename_i h
      rw [sq.mem] at h
      exact fin _ _ sl sq (by simp only [Pend.result, hop, Pend.size]; rw [if_pos h])
    · rename_i h
      rw [sq.mem] at h
      refine ⟨sq.pend, sl, sq.launches, sq.now, sq.blocks, fun a => ?_⟩
      rw [sq.mem]
      simp only [Pend.result, hop]
      rw [show p.size = n by simp [Pend.size, hop], if_neg h]
      split
      · rename_i ha
        rw [List.getD_eq_getElem _ _ (by rw [Memory.read_length]; omega), Memory.read_getElem _ _ _ _ (by omega)]
        congr 1
        omega
      · rfl

theorem mayPerform_iff (s : State) (p : Pend) (T : Nat) (ht : p.tc = some T) (hu : ∀ q ∈ s.pend, q.id = p.id → q = p) :
    s.mayPerform p = true ↔ T ≤ s.now ∧ (∀ i ∈ p.after, ∀ q ∈ s.pend, q.id ≠ i) ∧ (s.lineQueue (lineOf p.pa)).head? = some p := by
  unfold State.mayPerform
  simp only [ht, Bool.and_eq_true, decide_eq_true_eq, List.all_eq_true, and_assoc]
  refine and_congr_right fun _ => and_congr_right fun _ => ?_
  cases hq : s.lineQueue (lineOf p.pa) with
  | nil => simp
  | cons q qs =>
    simp only [decide_eq_true_eq, List.head?_cons, Option.some.injEq]
    refine ⟨fun e => hu q ?_ e, fun e => by rw [e]⟩
    have : q ∈ s.lineQueue (lineOf p.pa) := by rw [hq]; exact List.mem_cons_self ..
    exact (List.mem_filter.mp this).1

theorem mayPerform_of (s : State) (p : Pend) (T : Nat) (ht : p.tc = some T) (h1 : T ≤ s.now) (ha : ∀ i ∈ p.after, ∀ q ∈ s.pend, q.id ≠ i)
    (h2 : (s.lineQueue (lineOf p.pa)).head? = some p) : s.mayPerform p = true := by
  unfold State.mayPerform
  simp only [ht, Bool.and_eq_true, decide_eq_true_eq, List.all_eq_true]
  refine ⟨⟨h1, ha⟩, ?_⟩
  cases hq : s.lineQueue (lineOf p.pa) with
  | nil => rw [hq] at h2; cases h2
  | cons q qs => rw [hq] at h2; cases h2; simp

/-- The v registers after one lane's old value has been written. -/
def landV (n k : Nat) (m : SMap 32) (a : Await) : SMap 32 :=
  if k = 2 then SMap.set (SMap.set m (n * 64 + a.lane) ((a.got.getD 0).setWidth 32)) ((n + 1) * 64 + a.lane) ((a.got.getD 0).extractLsb' 32 32)
  else SMap.set m (n * 64 + a.lane) ((a.got.getD 0).setWidth 32)

theorem foldl_landV (w64 : Bool) (fresh n k : Nat) (ls : List Await) (g : Group) (hz : ∀ r, g.hazard w64 r = false) :
    ls.foldl (fun g (x : Await) => g.writeReg w64 fresh k x.lane ⟨.v, n⟩ (x.got.getD 0)) g = { g with v := ls.foldl (landV n k) g.v } := by
  induction ls generalizing g with
  | nil => rfl
  | cons a ls ih =>
    rw [List.foldl_cons, List.foldl_cons, writeReg_v _ _ _ _ _ _ _ (hz n) (fun _ => hz (n + 1))]
    exact ih { g with v := landV n k g.v a } hz

theorem get_landV (n k : Nat) (m : SMap 32) (a : Await) (r j : Nat) (hj : j < 64) (ha : a.lane < 64) :
    SMap.get (landV n k m a) (r * 64 + j) = if a.lane = j ∧ r = n then (a.got.getD 0).setWidth 32
      else if a.lane = j ∧ k = 2 ∧ r = n + 1 then (a.got.getD 0).extractLsb' 32 32 else SMap.get m (r * 64 + j) := by
  have e1 : r * 64 + j = n * 64 + a.lane ↔ a.lane = j ∧ r = n := by omega
  have e2 : r * 64 + j = (n + 1) * 64 + a.lane ↔ a.lane = j ∧ r = n + 1 := by omega
  unfold landV
  by_cases hk : k = 2
  · rw [if_pos hk, SMap.get_set, SMap.get_set]
    by_cases h1 : a.lane = j <;> by_cases h2 : r = n <;> by_cases h3 : r = n + 1 <;> simp_all
  · rw [if_neg hk, SMap.get_set]
    simp only [e1, hk, false_and, and_false, if_false]

theorem get_foldl_landV (n k : Nat) (ls : List Await) (hnd : (ls.map fun a => a.lane).Nodup) (h64 : ∀ a ∈ ls, a.lane < 64) (m : SMap 32) (r j : Nat)
    (hj : j < 64) :
    (∀ a ∈ ls, a.lane = j → SMap.get (ls.foldl (landV n k) m) (r * 64 + j) = if r = n then (a.got.getD 0).setWidth 32
      else if k = 2 ∧ r = n + 1 then (a.got.getD 0).extractLsb' 32 32 else SMap.get m (r * 64 + j)) ∧
    ((∀ a ∈ ls, a.lane ≠ j) → SMap.get (ls.foldl (landV n k) m) (r * 64 + j) = SMap.get m (r * 64 + j)) := by
  induction ls generalizing m with
  | nil => exact ⟨fun a ha => absurd ha (List.not_mem_nil), fun _ => rfl⟩
  | cons b ls ih =>
    rw [List.map_cons, List.nodup_cons] at hnd
    obtain ⟨i1, i2⟩ := ih hnd.2 (fun a ha => h64 a (List.mem_cons_of_mem _ ha)) (landV n k m b)
    have hb := h64 b (List.mem_cons_self ..)
    have hg := get_landV n k m b r j hj hb
    rw [List.foldl_cons]
    refine ⟨fun a ha haj => ?_, fun h => ?_⟩
    · rcases List.mem_cons.mp ha with e | e
      · subst e
        rw [i2 (fun x hx hxj => hnd.1 (List.mem_map.mpr ⟨x, hx, by rw [hxj, haj]⟩)), hg]
        simp [haj]
      · have hbj : b.lane ≠ j := fun h => hnd.1 (List.mem_map.mpr ⟨a, e, by rw [haj, h]⟩)
        rw [i1 a e haj, hg]
        simp [hbj]
    · rw [i2 fun a ha => h a (List.mem_cons_of_mem _ ha), hg]
      simp [h b (List.mem_cons_self ..)]

theorem perform_olds (s : State) (p : Pend) (b : Nat) (hb : homeBulk p.pa = some b) (hd : s.isDown b = false) (hs : s.isSealed p.pa = false) :
    OldsOnly s (s.perform p) := by
  unfold State.perform
  simp only [hb, hd]
  rw [if_neg Bool.false_ne_true]
  have sq : OldsOnly s (s.scrub p.pa p.size) := oldsOnly_of_eq (scrub_groups s p.pa p.size)
  cases hop : p.op with
  | bytes bs =>
    simp only [hs, Bool.false_and]
    rw [if_neg Bool.false_ne_true]
    exact (oldsOnly_of_eq (overwrite_quiet s p.full).groups).trans (storeBytes_groups _ _ _ _ _)
  | sem op v => exact sq.trans (storeBytes_groups _ _ _ _ _)
  | rmw op n v => exact sq.trans (storeBytes_groups _ _ _ _ _)
  | rmwf op v => exact sq.trans (storeBytes_groups _ _ _ _ _)
  | xchg n v => exact sq.trans (storeBytes_groups _ _ _ _ _)
  | cas n v new =>
    simp only []
    split
    · exact sq.trans (storeBytes_groups _ _ _ _ _)
    · exact sq

theorem nextTc_le (s : State) (line : Nat) (t : Nat) (h : s.nextTc line = some t) :
    ∀ q ∈ s.pend, ∀ T, q.tc = some T → q.ext = none → lineOf q.pa = line → t ≤ T := by
  intro q hq T hT he hl
  unfold State.nextTc at h
  have hm : q ∈ s.lineQueue line := by
    unfold State.lineQueue
    rw [List.mem_filter]
    exact ⟨hq, by simp [hT, he, hl]⟩
  have key : ∀ (F : Option Nat → Pend → Option Nat), (∀ x p, (F x p = x ∧ p.tc = none) ∨ (∃ b, p.tc = some b ∧ ∃ c, F x p = some c ∧ c ≤ b ∧ ∀ a, x = some a → c ≤ a)) →
      ∀ (xs : List Pend) (x : Option Nat) (t : Nat), xs.foldl F x = some t → (∀ a, x = some a → t ≤ a) ∧ ∀ q ∈ xs, ∀ T, q.tc = some T → t ≤ T := by
    intro F hF xs
    induction xs with
    | nil => intro x t h; exact ⟨fun a ha => by rw [List.foldl_nil, ha] at h; cases h; exact Nat.le_refl _, fun q hq => absurd hq (List.not_mem_nil)⟩
    | cons p xs ih =>
      intro x t h
      rw [List.foldl_cons] at h
      obtain ⟨i1, i2⟩ := ih _ _ h
      rcases hF x p with ⟨e, hn⟩ | ⟨b, hb, c, hc, hcb, hca⟩
      · rw [e] at i1
        refine ⟨i1, fun q hq T hT => ?_⟩
        rcases List.mem_cons.mp hq with e2 | e2
        · subst e2; rw [hn] at hT; cases hT
        · exact i2 q e2 T hT
      · have hct := i1 c hc
        refine ⟨fun a ha => Nat.le_trans hct (hca a ha), fun q hq T hT => ?_⟩
        rcases List.mem_cons.mp hq with e2 | e2
        · subst e2; rw [hb] at hT; cases hT; exact Nat.le_trans hct hcb
        · exact i2 q e2 T hT
  refine (key _ (fun x p => ?_) _ _ _ h).2 q hm T hT
  cases hp : p.tc with
  | none => left; cases x <;> simp [hp]
  | some b =>
    right
    refine ⟨b, rfl, ?_⟩
    cases x with
    | none => exact ⟨b, by simp [hp], Nat.le_refl _, fun a ha => by cases ha⟩
    | some a => exact ⟨min a b, by simp [hp], Nat.min_le_right _ _, fun a' ha => by cases ha; exact Nat.min_le_left _ _⟩

theorem nextTc_none (s : State) (line : Nat) (h : s.nextTc line = none) :
    ∀ q ∈ s.pend, ∀ T, q.tc = some T → q.ext = none → lineOf q.pa = line → False := by
  intro q hq T hT he hl
  unfold State.nextTc at h
  have hm : q ∈ s.lineQueue line := by
    unfold State.lineQueue
    rw [List.mem_filter]
    exact ⟨hq, by simp [hT, he, hl]⟩
  have key : ∀ (F : Option Nat → Pend → Option Nat), (∀ x p, F x p = none → x = none ∧ p.tc = none) →
      ∀ (xs : List Pend) (x : Option Nat), xs.foldl F x = none → x = none ∧ ∀ q ∈ xs, q.tc = none := by
    intro F hF xs
    induction xs with
    | nil => intro x h; exact ⟨h, fun q hq => absurd hq (List.not_mem_nil)⟩
    | cons p xs ih =>
      intro x h
      obtain ⟨i1, i2⟩ := ih _ h
      obtain ⟨j1, j2⟩ := hF x p i1
      refine ⟨j1, fun q hq => ?_⟩
      rcases List.mem_cons.mp hq with e | e
      · rw [e]; exact j2
      · exact i2 q e
  have := (key _ (fun x p hx => by
    cases hp : p.tc with
    | none => cases x <;> simp_all
    | some b => cases x <;> simp_all) _ _ h).2 q hm
  rw [hT] at this
  cases this

/-- Making room drops at most leases of lines that nobody owns. -/
theorem evict_frame (s : State) (core line : Nat) :
    ∃ ls, s.evict core line = { s with leases := ls } ∧ (∀ y ∈ ls, y ∈ s.leases) ∧ ∀ y ∈ s.leases, y.owned = true → y ∈ ls := by
  unfold State.evict
  simp only []
  split
  · exact ⟨s.leases, rfl, fun _ h => h, fun _ h _ => h⟩
  · split
    · exact ⟨s.leases, rfl, fun _ h => h, fun _ h _ => h⟩
    · exact ⟨_, rfl, fun y hy => (List.mem_filter.mp hy).1, fun y hy ho => List.mem_filter.mpr ⟨hy, by simp [ho]⟩⟩

/-- What a fill does: nothing, or a lease within its limits beside those that stay. -/
theorem fillLine_cases (s : State) (core line dur : Nat) :
    s.fillLine core line dur = s ∨
    ∃ (ls : List Lease) (e : Nat), (∀ y ∈ ls, y ∈ s.leases) ∧ (∀ y ∈ s.leases, y.owned = true → y ∈ ls) ∧ (∀ y ∈ s.leases, y.line = line → y.owned = false) ∧
      e ≤ s.now + min dur Config.leaseMax ∧ (∀ q ∈ s.pend, ∀ T, q.tc = some T → q.ext = none → lineOf q.pa = line → e ≤ T) ∧
      s.fillLine core line dur = { s with
        leases := ⟨core, line, max e (match ls.find? fun l => l.core = core && l.line = line with | some l => l.tEnd | none => 0), false, none⟩ ::
          ls.filter fun l => !(l.core = core && l.line = line)
        lmax := put s.lmax line (max e (look 0 s.lmax line)) } := by
  unfold State.fillLine
  split
  · exact .inl rfl
  · rename_i hno
    have hfree : ∀ y ∈ s.leases, y.line = line → y.owned = false := by
      intro y hy e
      by_contra ho
      apply hno
      unfold State.noLease
      simp only [Bool.or_eq_true, List.any_eq_true]
      exact Or.inl (Or.inl (Or.inl ⟨y, hy, by simp [e, ho]⟩))
    obtain ⟨ls, he, h1, h2⟩ := evict_frame s core line
    simp only []
    split
    · rename_i t ht
      split
      · exact .inl rfl
      · rw [he]
        exact .inr ⟨ls, min (s.now + min dur Config.leaseMax) t, h1, h2, hfree, Nat.min_le_left _ _,
          fun q hq T a b c => Nat.le_trans (Nat.min_le_right _ _) (nextTc_le s line t ht q hq T a b c), rfl⟩
    · rename_i ht
      split
      · exact .inl rfl
      · rw [he]
        exact .inr ⟨ls, s.now + min dur Config.leaseMax, h1, h2, hfree, Nat.le_refl _, fun q hq T a b c => (nextTc_none s line ht q hq T a b c).elim, rfl⟩

/-- What fills leave alone. -/
theorem fillLine_frame (s : State) (core line dur : Nat) : ∃ ls lm, s.fillLine core line dur = { s with leases := ls, lmax := lm } := by
  rcases fillLine_cases s core line dur with h | ⟨ls, e, -, -, -, -, -, h⟩
  · exact ⟨s.leases, s.lmax, h⟩
  · exact ⟨_, _, h⟩

theorem leasesWithin_refl (s : State) (core : Nat) (ask : Nat → Nat → Prop) : LeasesWithin s s core ask := fun _ hx => Or.inl hx

/-- Owned leases stay. -/
theorem fillLine_owned (s : State) (core line dur : Nat) : ∀ y ∈ s.leases, y.owned = true → y ∈ (s.fillLine core line dur).leases := by
  intro y hy ho
  rcases fillLine_cases s core line dur with h | ⟨ls, e, -, h2, hfree, -, -, h⟩
  · rw [h]; exact hy
  · rw [h]
    have hny : y.line ≠ line := fun e => by rw [hfree y hy e] at ho; cases ho
    exact List.mem_cons_of_mem _ (List.mem_filter.mpr ⟨h2 y hy ho, by simp [hny]⟩)

theorem fillLine_lmax (s : State) (core line dur x : Nat) : look 0 s.lmax x ≤ look 0 (s.fillLine core line dur).lmax x := by
  rcases fillLine_cases s core line dur with h | ⟨ls, e, -, -, -, -, -, h⟩
  · rw [h]
  · rw [h]
    show _ ≤ look 0 (put s.lmax line _) x
    rw [look_put]
    split
    · rename_i e; rw [e]; exact Nat.le_max_right _ _
    · exact Nat.le_refl _

/-- One more fill keeps the leases within their limits. -/
theorem fillLine_within (s t : State) (core line dur : Nat) (ask : Nat → Nat → Prop) (h : LeasesWithin s t core ask) (hask : ask line dur)
    (hown : ∀ y ∈ s.leases, y.owned = true → y ∈ t.leases) (hn : t.now = s.now) (hp : t.pend = s.pend) :
    LeasesWithin s (t.fillLine core line dur) core ask := by
  have hl := fillLine_lmax t core line dur
  have old : ∀ x ∈ t.leases, x ∈ s.leases ∨
      (x.core = core ∧ x.owned = false ∧ (∀ y ∈ s.leases, y.line = x.line → y.owned = false) ∧
        ((∃ d, ask x.line d ∧ x.tEnd ≤ s.now + min d Config.leaseMax ∧ x.tEnd ≤ look 0 (t.fillLine core line dur).lmax x.line ∧
            ∀ q ∈ s.pend, ∀ T, q.tc = some T → q.ext = none → lineOf q.pa = x.line → x.tEnd ≤ T) ∨
          ∃ y ∈ s.leases, y.core = core ∧ y.line = x.line ∧ x.tEnd ≤ y.tEnd)) := by
    intro x hx
    rcases h x hx with h1 | ⟨h1, h2, h3, h4⟩
    · exact Or.inl h1
    · refine Or.inr ⟨h1, h2, h3, h4.imp (fun ⟨d, a, b, c, e⟩ => ⟨d, a, b, Nat.le_trans c (hl _), e⟩) id⟩
  intro x hx
  by_cases hx0 : x ∈ t.leases
  · exact old x hx0
  rcases fillLine_cases t core line dur with hre | ⟨ls, e, hls, -, hfree, he1, he2, hre⟩
  · rw [hre] at hx; exact absurd hx hx0
  generalize t.fillLine core line dur = r at *
  rw [hre] at hx
  rcases List.mem_cons.mp hx with e0 | e0
  · right
    have hline : x.line = line := by rw [e0]
    have htend : x.tEnd = max e (match ls.find? fun l => l.core = core && l.line = line with | some l => l.tEnd | none => 0) := by rw [e0]
    refine ⟨by rw [e0], by rw [e0], fun y hy hyl => ?_, ?_⟩
    · by_contra ho
      have ho : y.owned = true := by simpa using ho
      have := hfree y (hown y hy ho) (by rw [hyl, hline])
      rw [ho] at this
      cases this
    · have first : ∀ z : Nat, x.tEnd = z → z = e → ∃ d, ask x.line d ∧ x.tEnd ≤ s.now + min d Config.leaseMax ∧ x.tEnd ≤ look 0 r.lmax x.line ∧
            ∀ q ∈ s.pend, ∀ T, q.tc = some T → q.ext = none → lineOf q.pa = x.line → x.tEnd ≤ T := by
        intro z hz1 hz2
        rw [hz1, hz2, hline]
        refine ⟨dur, hask, by rw [← hn]; exact he1, ?_, by rw [← hp]; exact he2⟩
        rw [hre]
        show e ≤ look 0 (put t.lmax line _) line
        rw [look_put, if_pos rfl]
        exact Nat.le_max_left _ _
      cases hf : ls.find? fun l => l.core = core && l.line = line with
      | none =>
        rw [hf] at htend
        simp only [Nat.max_zero] at htend
        exact Or.inl (first _ htend rfl)
      | some z =>
        rw [hf] at htend
        simp only at htend
        have hz := List.find?_some hf
        simp only [Bool.and_eq_true, decide_eq_true_eq] at hz
        rcases Nat.le_total z.tEnd e with hle | hle
        · rw [Nat.max_eq_left hle] at htend
          exact Or.inl (first _ htend rfl)
        · rw [Nat.max_eq_right hle] at htend
          rcases old z (hls z (List.mem_of_find?_eq_some hf)) with a | ⟨-, -, -, a⟩
          · exact Or.inr ⟨z, a, hz.1, by rw [hz.2, hline], by rw [htend]⟩
          · rw [htend, hline, ← hz.2]
            exact a
  · exact absurd (hls x (List.mem_filter.mp e0).1) hx0

/-- Fills one after the other. -/
theorem fills_within {α : Type} (s : State) (core : Nat) (ask : Nat → Nat → Prop) (line dur : α → Nat) (ok : α → Bool) (xs : List α)
    (hask : ∀ a ∈ xs, ok a = true → ask (line a) (dur a)) (t : State) (h : LeasesWithin s t core ask)
    (hown : ∀ y ∈ s.leases, y.owned = true → y ∈ t.leases) (hf : ∃ ls lm, t = { s with leases := ls, lmax := lm }) (f : State → α → State)
    (hfa : ∀ u a, (∃ ls lm, u = { s with leases := ls, lmax := lm }) → f u a = if ok a then u.fillLine core (line a) (dur a) else u) :
    LeasesWithin s (xs.foldl f t) core ask ∧ (∀ y ∈ s.leases, y.owned = true → y ∈ (xs.foldl f t).leases) ∧
      ∃ ls lm, xs.foldl f t = { s with leases := ls, lmax := lm } := by
  induction xs generalizing t with
  | nil => exact ⟨h, hown, hf⟩
  | cons a xs ih =>
    rw [List.foldl_cons, hfa t a hf]
    obtain ⟨ls, lm, hfe⟩ := hf
    split
    · rename_i hok
      obtain ⟨ls', lm', e⟩ := fillLine_frame t core (line a) (dur a)
      refine ih (fun b hb => hask b (List.mem_cons_of_mem _ hb)) _
        (fillLine_within s t core (line a) (dur a) ask h (hask a (List.mem_cons_self ..) hok) hown (by rw [hfe]) (by rw [hfe]))
        (fun y hy ho => fillLine_owned t core (line a) (dur a) y (hown y hy ho) ho) ⟨ls', lm', by rw [e, hfe]⟩
    · exact ih (fun b hb => hask b (List.mem_cons_of_mem _ hb)) t h hown ⟨ls, lm, hfe⟩

/-- Translations that are cached leave leases alone. -/
theorem cachePieces_leases (s : State) (c : Ctx) (sp : Space) (ps : List Piece) :
    (s.cachePieces c sp ps).leases = s.leases ∧ (s.cachePieces c sp ps).lmax = s.lmax := by
  have hm : ∀ (u : State) (core p va : Nat), (u.cache core p va).leases = u.leases ∧ (u.cache core p va).lmax = u.lmax := by
    intro u core p va
    unfold State.cache
    split
    · exact ⟨rfl, rfl⟩
    · split
      · exact ⟨rfl, rfl⟩
      · obtain ⟨bs, es, h⟩ := noteWalk_marked u p (bulkOf core) va
        generalize u.noteWalk p (bulkOf core) va = v at h
        subst h
        exact ⟨rfl, rfl⟩
  unfold State.cachePieces
  split
  · exact ⟨rfl, rfl⟩
  · induction ps generalizing s with
    | nil => exact ⟨rfl, rfl⟩
    | cons p ps ih =>
      rw [List.foldl_cons]
      refine (ih _).imp (fun h => h.trans ?_) fun h => h.trans ?_
      · split
        · rfl
        · exact (hm _ _ _ _).1
      · split
        · rfl
        · exact (hm _ _ _ _).2

/-- PREF and LEASE (R241). -/
theorem leaseOp_leases {s : State} {c : Ctx} {hd : Hdr} {off : Word} {a : Opnd} {ps : List (Nat × List Piece)} (dur : Nat → Nat)
    (h : Granted s c (c.act hd) .glob 1 false true false ((lanes (c.act hd)).map fun l => (l, c.addr s.fresh .glob off a l)) ps)
    (ask : Nat → Nat → Prop) (hask : ∀ x ∈ ps, ∀ p ∈ x.2, s.cacheable c.core c.l.part p.pa = true → ask (lineOf p.pa) (dur x.1)) :
    ∃ t g, leaseOp hd off a (fun _ l => dur l) s = .next t ∧ t.group? c.gid = some g ∧ (∀ l, inMask c.is.mask l = true → g.stands l c.after) ∧
      SameRegs c.g g ∧ t.mem = s.mem ∧ t.pend = s.pend ∧ Accessed s t c.gid ∧ LeasesWithin s t c.core ask := by
  unfold leaseOp
  rw [withIssuer_eq h.ctx]
  simp only []
  rw [if_neg h.some_, withLanes_granted h.toAdmitted]
  have inner : ∀ (x : Nat × List Piece), x ∈ ps → ∀ t : State, LeasesWithin s t c.core ask → (∀ y ∈ s.leases, y.owned = true → y ∈ t.leases) →
      (∃ ls lm, t = { s with leases := ls, lmax := lm }) →
      LeasesWithin s (x.2.foldl (fun s p => if s.cacheable c.core c.l.part p.pa then s.fillLine c.core (lineOf p.pa) (dur x.1) else s) t) c.core ask ∧
      (∀ y ∈ s.leases, y.owned = true →
        y ∈ (x.2.foldl (fun s p => if s.cacheable c.core c.l.part p.pa then s.fillLine c.core (lineOf p.pa) (dur x.1) else s) t).leases) ∧
      ∃ ls lm, x.2.foldl (fun s p => if s.cacheable c.core c.l.part p.pa then s.fillLine c.core (lineOf p.pa) (dur x.1) else s) t =
        { s with leases := ls, lmax := lm } := by
    intro x hx t h1 h2 h3
    exact fills_within s c.core ask (fun p : Piece => lineOf p.pa) (fun _ => dur x.1) (fun p => s.cacheable c.core c.l.part p.pa) x.2
      (fun p hp hc => hask x hx p hp hc) t h1 h2 h3 _ (fun u p hu => by
        obtain ⟨ls, lm, rfl⟩ := hu
        rfl)
  have outer : ∀ (xs : List (Nat × List Piece)), (∀ x ∈ xs, x ∈ ps) → ∀ t : State, LeasesWithin s t c.core ask →
      (∀ y ∈ s.leases, y.owned = true → y ∈ t.leases) → (∃ ls lm, t = { s with leases := ls, lmax := lm }) →
      let u := xs.foldl (fun s x => x.2.foldl (fun s p => if s.cacheable c.core c.l.part p.pa then s.fillLine c.core (lineOf p.pa) (dur x.1) else s) s) t
      LeasesWithin s u c.core ask ∧ ∃ ls lm, u = { s with leases := ls, lmax := lm } := by
    intro xs
    induction xs with
    | nil => intro _ t h1 _ h3; exact ⟨h1, h3⟩
    | cons x xs ih =>
      intro hsub t h1 h2 h3
      obtain ⟨i1, i2, i3⟩ := inner x (hsub x (List.mem_cons_self ..)) t h1 h2 h3
      exact ih (fun y hy => hsub y (List.mem_cons_of_mem _ hy)) _ i1 i2 i3
  obtain ⟨o1, ls, lm, o2⟩ := outer ps (fun _ hx => hx) s (leasesWithin_refl s c.core ask) (fun _ hy _ => hy) ⟨s.leases, s.lmax, rfl⟩
  generalize ps.foldl (fun s x => x.2.foldl (fun s p => if s.cacheable c.core c.l.part p.pa then s.fillLine c.core (lineOf p.pa) (dur x.1) else s) s) s = u at o1 o2
  obtain ⟨hg, -, -, -⟩ := ctx_parts h.ctx
  have q := cachePieces_quiet u c .glob (ps.flatMap fun x => x.2)
  obtain ⟨qs, ql⟩ := cachePieces_leases u c .glob (ps.flatMap fun x => x.2)
  have hgr : ∀ x, (u.cachePieces c .glob (ps.flatMap fun x => x.2)).group? x = s.group? x := by
    intro x
    rw [q.group?, o2]
    rfl
  refine ⟨_, c.g.issued c.is.pc c.is.mask [mkFrag c.after c.is.mask], rfl, ?_, ?_, ⟨rfl, rfl, rfl, rfl, rfl, rfl, rfl⟩, ?_, ?_, ?_, ?_⟩
  · rw [retire_group?, if_pos rfl, hgr, hg]
    rfl
  · intro l hl
    exact issued_stands _ _ _ _ _ _ ⟨_, List.mem_singleton_self _, rfl, rfl, hl⟩
  · exact q.mem.trans (by rw [o2])
  · exact q.pend.trans (by rw [o2])
  · exact ⟨fun x hx => by rw [retire_group?, if_neg hx, hgr], q.blocks.trans (by rw [o2]), q.launches.trans (by rw [o2]), q.chains.trans (by rw [o2]),
      q.worlds.trans (by rw [o2]), q.pot.trans (by rw [o2]), q.now.trans (by rw [o2])⟩
  · intro x hx
    have hx' : x ∈ u.leases := by rw [← qs]; exact hx
    have := o1 x hx'
    rw [← ql] at this
    exact this

theorem readPte_kind (s : State) (p src pa k : Nat) (h : s.readPte p src pa = .error k) : k ≤ 5 := by
  unfold State.readPte at h
  repeat' split at h
  all_goals first | (cases h; omega) | cases h

/-- Kinds of PAGE are those of Table 02-5; 5 stands for BULKHEAD-DOWN. -/
theorem walkFrom_kind (s : State) (p src va : Nat) (lvl t k : Nat) (h : s.walkFrom p src va lvl t = .error k) : k ≤ 5 := by
  induction lvl generalizing t with
  | zero =>
    unfold State.walkFrom at h
    simp only [] at h
    split at h
    · rename_i e he
      cases h
      exact readPte_kind _ _ _ _ _ he
    · split at h
      · split at h
        · cases h
        · cases h; omega
      · split at h
        · rename_i e he
          cases h
          exact readPte_kind _ _ _ _ _ he
        · repeat' split at h
          all_goals first | (cases h; omega) | cases h
  | succ lvl ih =>
    unfold State.walkFrom at h
    simp only [] at h
    split at h
    · rename_i e he
      cases h
      exact readPte_kind _ _ _ _ _ he
    · repeat' split at h
      all_goals first | exact ih _ h | (cases h; omega) | cases h

theorem walk_kind (s : State) (p src va k : Nat) (h : s.walk p src va = .error k) : k ≤ 5 := by
  unfold State.walk at h
  split at h
  · cases h; omega
  · simp only [] at h
    split at h
    · exact walkFrom_kind _ _ _ _ _ _ _ h
    · cases h; omega

theorem translate_kind (s : State) (core : Option Nat) (p src va k : Nat) (h : s.translate core p src va = .error k) : k ≤ 5 := by
  have hw : ∀ (r : Except Nat (Nat × Bool × Nat)), r = s.walk p src va → ∀ j, (match r with
      | .ok (pa, w, _) => Except.ok (pa, w)
      | .error k => (.error k : Except Nat (Nat × Bool))) = .error j → j ≤ 5 := by
    intro r hr j hj
    split at hj
    · cases hj
    · cases hj; exact walk_kind s p src va _ hr.symm
  unfold State.translate at h
  simp only [] at h
  generalize hr : s.walk p src va = r at h
  have hj := hw r hr.symm
  clear hw hr
  cases r with
  | ok x =>
    obtain ⟨a, b, c⟩ := x
    simp only [] at h
    repeat' split at h
    all_goals cases h
  | error j =>
    simp only [] at h
    have hj' := hj j rfl
    repeat' split at h
    all_goals first | (cases h; exact hj') | cases h

theorem checkPiece_kind {s : State} {m : Master} {core : Option Nat} {p w src : Nat} {can : List Nat} {wr rd at_ : Bool} {va n k : Nat}
    {sent : Bool} (h : s.checkPiece m core p w src can wr rd at_ va n sent = .error (.page k)) : k ≤ 4 := by
  unfold State.checkPiece at h
  split at h
  · cases h; omega
  · split at h
    · cases h; omega
    · split at h
      · rename_i j hj
        have h5 := translate_kind _ _ _ _ _ _ hj
        split at h
        · cases h
        · cases h; omega
      · repeat' split at h
        all_goals first | (cases h; omega) | cases h

theorem checkGlobal_kind {s : State} {m : Master} {core : Option Nat} {p w src : Nat} {can : List Nat} {wr rd at_ : Bool} {va n k : Nat}
    {sent : Bool} (h : s.checkGlobal m core p w src can wr rd at_ va n sent = .error (.page k)) : k ≤ 4 := by
  unfold State.checkGlobal at h
  generalize (cutPages va n).map (fun c => (c.1 % 2 ^ 64, c.2)) = cs at h
  induction cs with
  | nil => cases h
  | cons x cs ih =>
    rw [List.foldr_cons] at h
    unfold joinChecks at h
    split at h
    · cases h
    · rename_i e f h1 h2
      split at h
      · cases h; exact checkPiece_kind h1
      · cases h; exact ih h2
    · rename_i e _ h1 _
      cases h; exact checkPiece_kind h1
    · rename_i f _ h2 _
      cases h; exact ih h2

theorem checkLane_kind {s : State} {c : Ctx} {sp : Space} {wr rd : Bool} {lane a n k : Nat}
    (h : s.checkLane c sp wr rd lane a n = .error (.page k)) : k ≤ 4 := by
  unfold State.checkLane at h
  cases sp with
  | glob => exact checkGlobal_kind h
  | loc =>
    simp only [] at h
    repeat' split at h
    all_goals cases h
  | scr =>
    simp only [] at h
    repeat' split at h
    all_goals cases h
  | par =>
    simp only [] at h
    split at h
    · split at h
      · cases h
      · split at h
        · rename_i f hf
          cases h
          exact checkGlobal_kind hf
        · cases h
    · cases h

theorem foldl_min_rank (xs : List (Nat × Nat × Fail)) (b r : Nat) (hmin : ∀ x ∈ xs, r ≤ x.2.2.rank) (hb : r ≤ b) (hex : b = r ∨ ∃ x ∈ xs, x.2.2.rank = r) :
    xs.foldl (fun b f => min b f.2.2.rank) b = r := by
  induction xs generalizing b with
  | nil =>
    rcases hex with h | ⟨x, hx, -⟩
    · exact h
    · cases hx
  | cons a xs ih =>
    rw [List.foldl_cons]
    have ha := hmin a (List.mem_cons_self ..)
    refine ih _ (fun x hx => hmin x (List.mem_cons_of_mem _ hx)) (Nat.le_min.mpr ⟨hb, ha⟩) ?_
    rcases hex with h | ⟨x, hx, hxr⟩
    · left; rw [h]; exact Nat.min_eq_left ha
    · rcases List.mem_cons.mp hx with e | e
      · subst e; left; rw [hxr]; exact Nat.min_eq_right hb
      · exact Or.inr ⟨x, e, hxr⟩

theorem rank_le (f : Fail) (hk : ∀ k, f = .page k → k ≤ 4) : f.rank ≤ 12 := by
  cases f with
  | page k => have := hk k rfl; show 2 + k ≤ 12; omega
  | align => decide
  | bounds => decide
  | own => decide
  | unc => decide
  | down => decide

theorem rank_inj (f g : Fail) (hf : ∀ k, f = .page k → k ≤ 4) (hg : ∀ k, g = .page k → k ≤ 4) (h : f.rank = g.rank) : f = g := by
  cases f <;> cases g <;> simp only [Fail.rank] at h <;> first | rfl | (have := hf _ rfl; omega) | (have := hg _ rfl; omega) | (congr 1; omega) | omega

theorem mask_ext {a b : Mask} (h : ∀ l, inMask a l = inMask b l) : a = b := by
  apply BitVec.eq_of_getLsbD_eq
  intro i hi
  have := h i
  unfold inMask at this
  simpa using this

theorem abort_ecc (s : State) (lid cause sub : Nat) (nested td : Bool) :
    (s.abort lid cause sub nested td).eccBad = s.eccBad ∧ (s.abort lid cause sub nested td).eccSoft = s.eccSoft := by
  unfold State.abort
  split
  · simp
  · split
    · simp only []
      split <;> simp
    · simp

theorem takeTrap_ecc (c : Ctx) (cause : Nat) (m e : Mask) (info : DWord) (addr : Nat → DWord) (s : State) :
    (takeTrap c cause m e info addr s).eccBad = s.eccBad ∧ (takeTrap c cause m e info addr s).eccSoft = s.eccSoft := by
  unfold takeTrap
  simp only []
  split
  · split <;> exact abort_ecc _ _ _ _ _ _
  · split
    · split <;> exact abort_ecc _ _ _ _ _ _
    · exact ⟨rfl, rfl⟩

/-- Where no word is in error a walk does nothing besides its result. -/
theorem noteWalk_clean (s : State) (p src va : Nat) (h1 : s.eccBad = []) (h2 : s.eccSoft = []) : s.noteWalk p src va = s := by
  unfold State.noteWalk
  split
  · rfl
  · simp [h1, h2]

/-- What the failing lanes of an access lead to (R17): a trap on the lanes with the failure of the highest precedence. -/
theorem memFault_traps {s : State} {c : Ctx} (hc : s.ctx? = some c) (act : Mask) (sp : Space) (n : Nat) (write : Bool) (fails : List (Nat × Nat × Fail))
    (pages : List (Nat × Nat)) (f : Fail) (m : Mask) (addr : Nat → Nat) (hne : ∃ x ∈ fails, x.2.2 = f) (hmin : ∀ x ∈ fails, f.rank ≤ x.2.2.rank)
    (hk : ∀ x ∈ fails, ∀ k, x.2.2 = .page k → k ≤ 4) (hu : f ≠ .unc) (hwk : f = .page 4 → s.eccBad = [] ∧ s.eccSoft = []) (hcan : c.cancelled = []) (hfl : c.l.rcd.flags.getLsbD 1 = false)
    (hm : ∀ l, inMask m l = true ↔ ∃ x ∈ fails, x.1 = l ∧ x.2.2 = f) (h64 : ∀ x ∈ fails, x.1 < 64) (ha : ∀ x ∈ fails, x.2.1 = addr x.1) :
    Traps s c f.cause m act (memInfo sp n write f.kind) (fun l => BitVec.ofNat 64 (addr l))
      (memFault c act sp n write fails pages s) := by
  obtain ⟨x0, hx0, hx0f⟩ := hne
  have hkf : ∀ k, f = .page k → k ≤ 4 := fun k h => hk x0 hx0 k (hx0f.trans h)
  have hbest : fails.foldl (fun b f => min b f.2.2.rank) 100 = f.rank :=
    foldl_min_rank fails 100 f.rank hmin (Nat.le_trans (rank_le f hkf) (by omega)) (Or.inr ⟨x0, hx0, by rw [hx0f]⟩)
  have hsel : ∀ x, x ∈ (fails.filter fun x => decide (x.2.2.rank = f.rank)) ↔ x ∈ fails ∧ x.2.2 = f := by
    intro x
    rw [List.mem_filter, decide_eq_true_eq]
    exact and_congr_right fun hx => ⟨fun h => rank_inj _ _ (hk x hx) hkf h, fun h => by rw [h]⟩
  unfold memFault
  simp only [hbest, hcan]
  cases hs : fails.filter fun x => decide (x.2.2.rank = f.rank) with
  | nil =>
    have := (hsel x0).mpr ⟨hx0, hx0f⟩
    rw [hs] at this
    cases this
  | cons y ys =>
    obtain ⟨l0, a0, f0⟩ := y
    have hf0 : f0 = f := ((hsel (l0, a0, f0)).mp (by rw [hs]; exact List.mem_cons_self ..)).2
    subst hf0
    have hgone : ((l0, a0, f0) :: ys).filter (fun x => pages.any fun e => decide (e.1 = x.1) && List.contains [] (e.2 / 4096)) = [] := by
      rw [List.filter_eq_nil_iff]
      intro x _
      simp
    simp only [hgone, List.isEmpty_nil, if_true]
    rw [if_neg (by rw [hfl]; simp), ← hs]
    have hpost : ∀ (T : List (Nat × Nat × Fail)) (u : State), (u.eccBad = s.eccBad ∧ u.eccSoft = s.eccSoft) →
        u.afterFault c sp n f0 T = u := by
      intro T u hecc
      unfold State.afterFault
      split
      · exact absurd rfl hu
      · obtain ⟨e1, e2⟩ := hwk rfl
        rw [e1] at hecc
        rw [e2] at hecc
        obtain ⟨e3, e4⟩ := hecc
        induction T with
        | nil => rfl
        | cons x xs ih =>
          have hw : ∀ es : List (Nat × Nat), es.foldl (fun s e => s.noteWalk c.l.part (bulkOf c.core) (e.1 % 2 ^ 64)) u = u := by
            intro es
            induction es with
            | nil => rfl
            | cons e es ih => rw [List.foldl_cons, noteWalk_clean _ _ _ _ e3 e4, ih]
          rw [List.foldl_cons, hw, ih]
      · rfl
    rw [hpost _ _ (takeTrap_ecc _ _ _ _ _ _ _)]
    have hmask : maskOf ((fails.filter fun x => decide (x.2.2.rank = f0.rank)).map fun x => x.1) = m := by
      have h64' : ∀ x ∈ (fails.filter fun x => decide (x.2.2.rank = f0.rank)).map fun x => x.1, x < 64 := by
        intro x hx
        obtain ⟨z, hz, rfl⟩ := List.mem_map.mp hx
        exact h64 z ((hsel z).mp hz).1
      refine mask_ext fun l => ?_
      rw [Bool.eq_iff_iff, inMask_maskOf _ h64', hm, List.mem_map]
      constructor
      · rintro ⟨z, hz, rfl⟩
        obtain ⟨a, b⟩ := (hsel z).mp hz
        exact ⟨z, a, rfl, b⟩
      · rintro ⟨z, a, rfl, b⟩
        exact ⟨z, (hsel z).mpr ⟨a, b⟩, rfl⟩
    rw [hmask]
    have hkd : (match f0 with | .page k => k | _ => 0) = f0.kind := by cases f0 <;> rfl
    refine traps_congr (traps hc f0.cause m act _ _) fun l hl => ?_
    obtain ⟨z, hz, hzl, hzf⟩ := (hm l).mp hl
    have hzs := (hsel z).mpr ⟨hz, hzf⟩
    cases hfd : (fails.filter fun x => decide (x.2.2.rank = f0.rank)).find? fun x => decide (x.1 = l) with
    | none =>
      rw [List.find?_eq_none] at hfd
      exact absurd (by simpa using hzl) (hfd z hzs)
    | some w =>
      have hw := List.mem_of_find?_eq_some hfd
      have hwl := List.find?_some hfd
      simp only [decide_eq_true_eq] at hwl
      rw [← hwl, ← ha w ((hsel w).mp hw).1]

/-- A load or store with failing lanes. -/
theorem withLanes_traps {s : State} {c : Ctx} (hc : s.ctx? = some c) (act : Mask) (sp : Space) (n : Nat) (write reads aligned : Bool) (addr : Nat → Nat)
    (k : List (Nat × List Piece) → Out) (f : Fail) (m : Mask) (bad : Nat → Fail → Prop)
    (hbad : ∀ l x, bad l x ↔ (if aligned = true ∧ addr l % n ≠ 0 then x = .align else s.checkLane c sp write reads l (addr l) n = .error x))
    (hne : ∃ l, inMask act l = true ∧ bad l f) (hmin : ∀ l x, inMask act l = true → bad l x → f.rank ≤ x.rank) (hu : f ≠ .unc)
    (hwk : f = .page 4 → s.eccBad = [] ∧ s.eccSoft = []) (hst : c.g.stuck = none)
    (hfl : c.l.rcd.flags.getLsbD 1 = false) (hm : ∀ l, inMask m l = true ↔ inMask act l = true ∧ bad l f) :
    Traps s c f.cause m act (memInfo sp n write f.kind) (fun l => BitVec.ofNat 64 (addr l))
      (withLanes c act sp n write reads aligned ((lanes act).map fun l => (l, addr l)) s k) := by
  have hcan : c.cancelled = [] := by unfold Ctx.cancelled; rw [hst]
  let chk (l : Nat) : Except Fail (List Piece) :=
    if aligned && addr l % n ≠ 0 then Except.error Fail.align else s.checkLane c sp write reads l (addr l) n
  have hchk : ∀ l x, chk l = .error x ↔ bad l x := by
    intro l x
    rw [hbad]
    show (if _ then _ else _) = _ ↔ _
    by_cases h : aligned = true ∧ addr l % n ≠ 0
    · rw [if_pos h, if_pos (by simpa using h)]
      constructor
      · intro e; cases e; rfl
      · rintro rfl; rfl
    · rw [if_neg h, if_neg (by simpa using h)]
  have hkind : ∀ l x, bad l x → ∀ k, x = .page k → k ≤ 4 := by
    intro l x hb k hx
    rw [hbad] at hb
    split at hb
    · rw [hb] at hx; cases hx
    · rw [hx] at hb; exact checkLane_kind hb
  unfold withLanes State.laneChecks
  rw [List.map_map]
  simp only []
  have hfails : ∀ (F : Nat × Nat × Except Fail (List Piece) → Option (Nat × Nat × Fail)), (∀ a b x, F (a, b, .error x) = some (a, b, x)) →
      (∀ a b x, F (a, b, .ok x) = none) → ∀ y, y ∈ ((lanes act).map fun l => (l, addr l, chk l)).filterMap F ↔
        inMask act y.1 = true ∧ y.2.1 = addr y.1 ∧ bad y.1 y.2.2 := by
    intro F hF1 hF2 y
    rw [List.mem_filterMap]
    constructor
    · rintro ⟨z, hz, hzy⟩
      obtain ⟨l, hl, rfl⟩ := List.mem_map.mp hz
      cases hcl : chk l with
      | ok ps => rw [hcl, hF2] at hzy; cases hzy
      | error x => rw [hcl, hF1] at hzy; cases hzy; exact ⟨mem_lanes.mp hl, rfl, (hchk l x).mp hcl⟩
    · rintro ⟨h1, h2, h3⟩
      refine ⟨(y.1, addr y.1, chk y.1), List.mem_map.mpr ⟨y.1, mem_lanes.mpr h1, rfl⟩, ?_⟩
      rw [(hchk _ _).mpr h3, hF1, ← h2]
  have hcs : (lanes act).map ((fun r : Nat × Nat => (r.1, r.2,
      if aligned && r.2 % n ≠ 0 then Except.error Fail.align else s.checkLane c sp write reads r.1 r.2 n)) ∘ fun l => (l, addr l)) =
      (lanes act).map fun l => (l, addr l, chk l) := rfl
  rw [hcs]
  generalize hfs : ((lanes act).map fun l => (l, addr l, chk l)).filterMap (fun r => match r.2.2 with | .error f => some (r.1, r.2.1, f) | .ok _ => none) = fails
  have hmem : ∀ y, y ∈ fails ↔ inMask act y.1 = true ∧ y.2.1 = addr y.1 ∧ bad y.1 y.2.2 := by
    rw [← hfs]
    exact hfails _ (fun _ _ _ => rfl) (fun _ _ _ => rfl)
  obtain ⟨l0, h0, hb0⟩ := hne
  have hin0 : (l0, addr l0, f) ∈ fails := (hmem _).mpr ⟨h0, rfl, hb0⟩
  have hemp : fails.isEmpty = false := by
    cases fails with
    | nil => cases hin0
    | cons _ _ => rfl
  rw [hemp]
  simp only [Bool.false_and]
  rw [if_neg Bool.false_ne_true, if_neg Bool.false_ne_true]
  refine memFault_traps hc act sp n write fails _ f m addr ⟨_, hin0, rfl⟩ (fun x hx => ?_) (fun x hx => ?_) hu hwk hcan hfl (fun l => ?_) (fun x hx => ?_)
    (fun x hx => ((hmem x).mp hx).2.1)
  · obtain ⟨a, -, b⟩ := (hmem x).mp hx
    exact hmin _ _ a b
  · obtain ⟨-, -, b⟩ := (hmem x).mp hx
    exact hkind _ _ b
  · rw [hm]
    constructor
    · rintro ⟨a, b⟩
      exact ⟨(l, addr l, f), (hmem _).mpr ⟨a, rfl, b⟩, rfl, rfl⟩
    · rintro ⟨x, hx, rfl, rfl⟩
      obtain ⟨a, -, b⟩ := (hmem x).mp hx
      exact ⟨a, b⟩
  · exact lanes_lt (mem_lanes.mpr ((hmem x).mp hx).1)

theorem foldl_max (f : Nat → Nat) (ls : List Nat) (b : Nat) :
    b ≤ (ls.map f).foldl max b ∧ (∀ l ∈ ls, f l ≤ (ls.map f).foldl max b) ∧ ((ls.map f).foldl max b = b ∨ ∃ l ∈ ls, (ls.map f).foldl max b = f l) := by
  induction ls generalizing b with
  | nil => simp
  | cons a ls ih =>
    rw [List.map_cons, List.foldl_cons]
    obtain ⟨h1, h2, h3⟩ := ih (max b (f a))
    refine ⟨Nat.le_trans (Nat.le_max_left _ _) h1, fun l hl => ?_, ?_⟩
    · rcases List.mem_cons.mp hl with e | e
      · rw [e]; exact Nat.le_trans (Nat.le_max_right _ _) h1
      · exact h2 l e
    · rcases h3 with h3 | ⟨l, hl, h3⟩
      · rcases Nat.le_total b (f a) with h | h
        · exact Or.inr ⟨a, List.mem_cons_self .., by rw [h3, Nat.max_eq_right h]⟩
        · exact Or.inl (by rw [h3, Nat.max_eq_left h])
      · exact Or.inr ⟨l, List.mem_cons_of_mem _ hl, h3⟩

theorem look_foldl_set {α : Type} (d : α) (f : Nat → α) (act : Mask) (m : List (Nat × α)) (l : Nat) :
    look d ((lanes act).foldl (fun r l => put r l (f l)) m) l = if inMask act l then f l else look d m l := by
  have key : ∀ ls : List Nat, ∀ m : List (Nat × α), look d (ls.foldl (fun r l => put r l (f l)) m) l = if l ∈ ls then f l else look d m l := by
    intro ls
    induction ls with
    | nil => intros; simp
    | cons a as ih =>
      intro m
      rw [List.foldl_cons, ih, look_put]
      by_cases hl : l = a
      · subst hl
        by_cases h : l ∈ as <;> simp [h]
      · simp [hl]
  rw [key]
  simp only [mem_lanes]

/-- A parked SEMWAIT fragment is there after it has been added, where only SEMWAITs park at its PC. -/
theorem addFrag_semwait (hl : Mask) (cmp : SemCmp) (sc : Bool) (o : Order) (ws : List (Nat × Nat × Nat × DWord)) (len : Nat) (n : Frag) (hn : n.mask ≠ 0)
    (hp : n.park = some (len, .semwait cmp sc o ws)) (fs : List Frag)
    (hfs : ∀ f ∈ fs, f.pc = n.pc → ∀ k x, f.park = some (k, x) → ∃ ws, x = .semwait cmp sc o ws) :
    ∃ y ∈ addFrag hl fs n, ∃ k ws', y.park = some (k, .semwait cmp sc o ws') ∧ (∀ w ∈ ws, w ∈ ws') ∧ y.pc = n.pc ∧
      ∀ l, inMask n.mask l = true → inMask y.mask l = true := by
  induction fs with
  | nil => exact ⟨n, by unfold addFrag; rw [if_neg hn]; exact List.mem_singleton_self _, len, ws, hp, fun _ h => h, rfl, fun _ h => h⟩
  | cons x xs ih =>
    unfold addFrag
    rw [if_neg hn]
    split
    · rename_i hj
      unfold Frag.joins at hj
      simp only [Bool.and_eq_true, beq_iff_eq, decide_eq_true_eq] at hj
      have hx : x.park.isSome = true := by rw [hj.1.2, hp]; rfl
      rcases hxp : x.park with _ | ⟨k, q⟩
      · rw [hxp] at hx; cases hx
      · obtain ⟨ws0, hq⟩ := hfs x (List.mem_cons_self ..) hj.1.1 k q hxp
        subst hq
        refine ⟨_, List.mem_cons_self .., k, ws0 ++ ws, ?_, fun w hw => List.mem_append_right _ hw, hj.1.1, fun l h => ?_⟩
        · simp [joinPark, hxp, hp]
        · show inMask (x.mask ||| n.mask) l = true
          rw [inMask_or, h, Bool.or_true]
    · obtain ⟨y, h1, h2⟩ := ih fun f hf => hfs f (List.mem_cons_of_mem _ hf)
      exact ⟨y, List.mem_cons_of_mem _ h1, h2⟩

/-- A parked fragment stays when an unparked one is added. -/
theorem addFrag_parked (hl : Mask) (n : Frag) (hn : n.park = none) (fs : List Frag) (y : Frag) (hy : y ∈ fs) (hp : y.park.isSome = true) : y ∈ addFrag hl fs n := by
  induction fs with
  | nil => cases hy
  | cons x xs ih =>
    unfold addFrag
    split
    · exact hy
    · split
      · rename_i hj
        unfold Frag.joins at hj
        simp only [Bool.and_eq_true, beq_iff_eq, decide_eq_true_eq] at hj
        rcases List.mem_cons.mp hy with e | e
        · subst e
          rw [hj.1.2, hn] at hp
          cases hp
        · exact List.mem_cons_of_mem _ e
      · rcases List.mem_cons.mp hy with e | e
        · exact e ▸ List.mem_cons_self ..
        · exact List.mem_cons_of_mem _ (ih e)

/-- The lanes of a SEMWAIT wait there with their words. -/
theorem parked_semwait (g : Group) (pc after : Word) (im m : Mask) (len : Nat) (cmp : SemCmp) (sc : Bool) (o : Order) (ws : List (Nat × Nat × Nat × DWord))
    (hm : m ≠ 0) (hfs : ∀ f ∈ g.frags, f.pc = pc → ∀ k x, f.park = some (k, x) → ∃ ws, x = .semwait cmp sc o ws) :
    ∃ y ∈ (g.issued pc im [{ mkFrag pc m with park := some (len, .semwait cmp sc o ws) }, mkFrag after (im &&& ~~~ m)]).frags,
      ∃ k ws', y.park = some (k, .semwait cmp sc o ws') ∧ (∀ w ∈ ws, w ∈ ws') ∧ y.pc = pc ∧ ∀ l, inMask m l = true → inMask y.mask l = true := by
  unfold Group.issued
  refine mem_joinFrags (P := fun q mk pk => ∃ k ws', pk = some (k, .semwait cmp sc o ws') ∧ (∀ w ∈ ws, w ∈ ws') ∧ q = pc ∧
    ∀ l, inMask m l = true → inMask mk l = true) ?_
  generalize hr : List.filter _ (List.map _ g.frags) = rest
  have hrest : ∀ f ∈ rest, f.pc = pc → ∀ k x, f.park = some (k, x) → ∃ ws, x = .semwait cmp sc o ws := by
    intro f hf hpc k x hx
    rw [← hr] at hf
    obtain ⟨f0, hf0, e⟩ := List.mem_map.mp (List.mem_filter.mp hf).1
    have hk : f.pc = f0.pc ∧ f.park = f0.park := by
      rw [← e]
      split
      · exact ⟨rfl, rfl⟩
      · split <;> exact ⟨rfl, rfl⟩
    exact hfs f0 hf0 (hk.1 ▸ hpc) k x (hk.2 ▸ hx)
  obtain ⟨y, hy, k, ws', h1, h2, h3, h4⟩ := addFrag_semwait g.hlanes cmp sc o ws len
    { mkFrag pc m with park := some (len, .semwait cmp sc o ws) } hm rfl rest hrest
  exact ⟨y, addFrag_parked _ (Frag.marked _ (mkFrag after (im &&& ~~~ m))) (by rw [marked_park]; rfl) _ y hy (by rw [h1]; rfl), k, ws', h1, h2, h3, h4⟩

/-- What a read of the semaphores does for one fragment. -/
def semStep (pa : Nat) (gid : Gid) (s : State) (f : Frag) : State :=
  match f.park with
  | some (n, .semwait cmp scr _ ws) => ws.foldl (fun s w => semRead gid f n cmp scr pa w s) s
  | _ => s

theorem semStep_none (pa : Nat) (gid : Gid) (s : State) (f : Frag) (h : f.park = none) : semStep pa gid s f = s := by
  unfold semStep
  rw [h]

theorem foldl_semStep_none (pa : Nat) (gid : Gid) (fs : List Frag) (h : ∀ f ∈ fs, f.park = none) (s : State) : fs.foldl (semStep pa gid) s = s := by
  induction fs with
  | nil => rfl
  | cons f fs ih =>
    rw [List.foldl_cons, semStep_none _ _ _ _ (h f (List.mem_cons_self ..))]
    exact ih fun x hx => h x (List.mem_cons_of_mem _ hx)

/-- Releasing a lane in its group. -/
theorem semRelease_lane (s : State) (g : Group) (hg : s.group? g.gid = some g) (pc : Word) (lane len : Nat) (h64 : lane < 64)
    (hh : g.loose (maskOf [lane]) = maskOf [lane]) :
    ∃ t g', t = s.modGroup g.gid (fun g => g.release pc (maskOf [lane]) len) ∧ t.group? g.gid = some g' ∧ g'.stands lane (pc + BitVec.ofNat 32 len) ∧
      SameRegs g g' ∧ SameElsewhere s t g.gid := by
  have hk : ∀ x : Group, (x.release pc (maskOf [lane]) len).gid = x.gid := fun x => release_gid _ _ _ _
  refine ⟨_, g.release pc (maskOf [lane]) len, rfl, ?_, release_stands _ _ _ _ _ ?_, ?_, sameElsewhere_modGroup s g.gid _ hk⟩
  · rw [State.group?_modGroup s _ _ (fun g => g.release pc (maskOf [lane]) len) hk, if_pos rfl, hg]
    rfl
  · rw [hh]
    exact (inMask_maskOf [lane] (by simpa using h64) lane).mpr (List.mem_singleton_self _)
  · obtain ⟨a, b, h⟩ := release_eq g pc (maskOf [lane]) len
    rw [h]
    exact ⟨rfl, rfl, rfl, rfl, rfl, rfl, rfl⟩

end Sys2Proof.Machine
end

