-- ==== Sys2Proof/Laws/Matrix.lean ====
section
/-! SUPPORT. Matrix instructions: issue and completion. -/

namespace Sys2Proof.Machine
theorem imageFail_cases (scratch o p : Nat) (lens : List Nat) :
    (¬ (o % 4 = 0 ∧ p % 4 = 0) → imageFail scratch o p lens = some .align) ∧
    (o % 4 = 0 ∧ p % 4 = 0 → (¬ ∀ r, r < lens.length → o + r * p + lens.getD r 0 ≤ scratch) → imageFail scratch o p lens = some .bounds) ∧
    (o % 4 = 0 ∧ p % 4 = 0 → (∀ r, r < lens.length → o + r * p + lens.getD r 0 ≤ scratch) → imageFail scratch o p lens = none) := by
  have hz : (((List.range lens.length).zip lens).any fun e => decide (scratch < o + e.1 * p + e.2)) = true ↔
      ¬ ∀ r, r < lens.length → o + r * p + lens.getD r 0 ≤ scratch := by
    rw [List.any_eq_true]
    constructor
    · rintro ⟨⟨r, n⟩, hm, h⟩ ha
      obtain ⟨k, hk, he⟩ := List.mem_iff_getElem.1 hm
      simp at he hk
      obtain ⟨rfl, rfl⟩ := he
      have := ha k hk
      rw [List.getD_eq_getElem _ _ hk] at this
      simp at h
      omega
    · intro h
      push Not at h
      obtain ⟨r, hr, h⟩ := h
      rw [List.getD_eq_getElem _ _ hr] at h
      refine ⟨(r, lens[r]), List.mem_iff_getElem.2 ⟨r, by simpa using hr, by simp⟩, by simpa using h⟩
  unfold imageFail
  refine ⟨fun h => ?_, fun h1 h2 => ?_, fun h1 h2 => ?_⟩
  · rw [if_pos]; simp; omega
  · rw [if_neg (by simp; omega), if_pos (hz.2 h2)]
  · rw [if_neg (by simp; omega), if_neg (fun h => hz.1 h h2)]

/-- The failures of the two scratch operands. -/
def Ctx.failA (c : Ctx) (o : Option MatOp) : Option Fail :=
  match o with
  | some o => if o.areg then none else imageFail c.b.scratch (c.scratchOperand o.a).1 (c.scratchOperand o.a).2 (List.replicate c.width o.aImage)
  | none => none
def Ctx.failB (c : Ctx) (o : Option MatOp) : Option Fail :=
  match o with
  | some o => if o.breg then none else imageFail c.b.scratch (c.scratchOperand o.b).1 (c.scratchOperand o.b).2 ((List.range o.bRows).map o.bRow)
  | none => none

theorem failA_cases (c : Ctx) (o : Option MatOp) :
    (¬ c.aAligned o → c.failA o = some .align) ∧ (c.aAligned o → ¬ c.aInside o → c.failA o = some .bounds) ∧
    (c.aAligned o → c.aInside o → c.failA o = none) := by
  rcases o with _ | o
  · simp [Ctx.aAligned, Ctx.aInside, Ctx.failA]
  · rcases ha : o.areg with _ | _
    · have := imageFail_cases c.b.scratch (c.scratchOperand o.a).1 (c.scratchOperand o.a).2 (List.replicate c.width o.aImage)
      simp only [Ctx.aAligned, Ctx.aInside, Ctx.failA, ha, Option.some.injEq, forall_eq', true_implies, Bool.false_eq_true, if_false]
      have e : ∀ r, r < c.width → (List.replicate c.width o.aImage).getD r 0 = o.aImage := fun r hr => by simp [hr]
      simp only [List.length_replicate] at this
      refine ⟨this.1, fun h h2 => this.2.1 h fun h3 => h2 fun r hr => ?_, fun h h2 => this.2.2 h fun r hr => ?_⟩
      · have := h3 r hr; rwa [e r hr] at this
      · rw [e r hr]; exact h2 r hr
    · simp [Ctx.aAligned, Ctx.aInside, Ctx.failA, ha]

theorem failB_cases (c : Ctx) (o : Option MatOp) :
    (¬ c.bAligned o → c.failB o = some .align) ∧ (c.bAligned o → ¬ c.bInside o → c.failB o = some .bounds) ∧
    (c.bAligned o → c.bInside o → c.failB o = none) := by
  rcases o with _ | o
  · simp [Ctx.bAligned, Ctx.bInside, Ctx.failB]
  · rcases ha : o.breg with _ | _
    · have := imageFail_cases c.b.scratch (c.scratchOperand o.b).1 (c.scratchOperand o.b).2 ((List.range o.bRows).map o.bRow)
      simp only [Ctx.bAligned, Ctx.bInside, Ctx.failB, ha, Option.some.injEq, forall_eq', true_implies, Bool.false_eq_true, if_false]
      have e : ∀ r, r < o.bRows → ((List.range o.bRows).map o.bRow).getD r 0 = o.bRow r := fun r hr => by simp [hr]
      simp only [List.length_map, List.length_range] at this
      refine ⟨this.1, fun h h2 => this.2.1 h fun h3 => h2 fun r hr => ?_, fun h h2 => this.2.2 h fun r hr => ?_⟩
      · have := h3 r hr; rwa [e r hr] at this
      · rw [e r hr]; exact h2 r hr
    · simp [Ctx.bAligned, Ctx.bInside, Ctx.failB, ha]

/-- An instruction has acted, to `s1`, and its lanes go on. -/
theorem retire_at (c : Ctx) {s s1 : State} {g1 : Group} (h1 : s1.group? c.gid = some g1) (he : SameElsewhere s s1 c.gid) :
    (retire c s1).group? c.gid = some (g1.issued c.is.pc c.is.mask [mkFrag c.after c.is.mask]) ∧
    (∀ l, inMask c.is.mask l = true → (g1.issued c.is.pc c.is.mask [mkFrag c.after c.is.mask]).stands l c.after) ∧
    (retire c s1).blocks = s1.blocks ∧ SameElsewhere s (retire c s1) c.gid := by
  refine ⟨?_, fun l hl => issued_stands _ _ _ _ _ _ ⟨_, List.mem_singleton_self _, rfl, rfl, hl⟩, rfl, he.trans (advance_elsewhere c _ s1)⟩
  unfold retire
  rw [advance_group?, if_pos rfl, h1]
  rfl

theorem sameElsewhere_serial (s : State) (n : Nat) (gid : Gid) : SameElsewhere s { s with serial := n } gid :=
  ⟨fun _ _ => rfl, rfl, rfl, rfl, rfl, rfl, rfl, rfl, rfl, rfl, rfl⟩

theorem matIssue_issues {s : State} {c : Ctx} (hc : s.ctx? = some c) (m : Mat) (P : Mat → Prop) (hP : P m) :
    Issues s c P (.next (retire c ({ s with serial := s.serial + 1 }.modGroup c.gid fun g => { g with mats := g.mats ++ [m] }))) := by
  obtain ⟨hg, -, -, -⟩ := ctx_parts hc
  have h1 : ({ s with serial := s.serial + 1 }.modGroup c.gid fun g => { g with mats := g.mats ++ [m] }).group? c.gid =
      some { c.g with mats := c.g.mats ++ [m] } := by
    rw [State.group?_modGroup _ _ _ (fun g => { g with mats := g.mats ++ [m] }) (fun _ => rfl), if_pos rfl]
    show (s.group? c.gid).map _ = _
    rw [hg]; rfl
  obtain ⟨a, b, d, e⟩ := retire_at c h1 ((sameElsewhere_serial s _ _).trans (sameElsewhere_modGroup _ _ (fun g => { g with mats := g.mats ++ [m] }) (fun _ => rfl)))
  exact ⟨_, _, m, rfl, a, rfl, hP, ⟨rfl, rfl, rfl, rfl, rfl, rfl, rfl⟩, b, rfl, rfl, rfl, d, e⟩

theorem matIssue_exec (i : Instr) (ts : Option (Nat × Nat)) (h : matScales i = some ts) (s : State) : exec i s = matIssue i ts s := by
  cases i <;> simp [matScales] at h
  all_goals (subst h; first | (rw [exec_mma]; rfl) | (rw [exec_mmas]; rfl) | (rw [exec_mmasp]; rfl) | (rw [exec_mzero]; rfl))

theorem get_writeAcc (g : Group) (d n : Nat) (f : Nat → Nat → Word) (r i : Nat) (hi : i < 64) :
    SMap.get (g.writeAcc d n f).v (r * 64 + i) = if inMask g.live i = true ∧ d ≤ r ∧ r < d + n then f i (r - d) else SMap.get g.v (r * 64 + i) := by
  have row : ∀ (n l k : Nat) (m : SMap 32), l < 64 → SMap.get ((List.range n).foldl (fun v j => SMap.set v ((d + j) * 64 + l) (f l j)) m) k =
      if k % 64 = l ∧ (d ≤ k / 64 ∧ k / 64 < d + n) then f l (k / 64 - d) else SMap.get m k := by
    intro n l k m hl
    induction n with
    | zero => simp
    | succ n ih =>
      rw [List.range_succ, List.foldl_append, List.foldl_cons, List.foldl_nil, SMap.get_set, ih]
      by_cases h : k = (d + n) * 64 + l
      · subst h
        rw [if_pos rfl, if_pos (by omega)]
        congr 1
        omega
      · rw [if_neg h]
        by_cases h2 : k % 64 = l ∧ (d ≤ k / 64 ∧ k / 64 < d + n)
        · rw [if_pos h2, if_pos (by omega)]
        · rw [if_neg h2, if_neg (by omega)]
  unfold Group.writeAcc
  rw [get_foldl_lanes _ (fun k _ => d ≤ k / 64 ∧ k / 64 < d + n) (fun k l _ => f l (k / 64 - d)) (fun k => k % 64)]
  · have e1 : (r * 64 + i) % 64 = i := by omega
    have e2 : (r * 64 + i) / 64 = r := by omega
    simp only [e1, e2]
  · intro m l k hl
    rw [row n l k m hl]

theorem div_mod_low (a b lo e m : Nat) (h : lo + e ≤ m) : (a + 2 ^ m * b) / 2 ^ lo % 2 ^ e = a / 2 ^ lo % 2 ^ e := by
  obtain ⟨k, rfl⟩ := Nat.exists_eq_add_of_le h
  have : a + 2 ^ (lo + e + k) * b = a + 2 ^ lo * (2 ^ e * (2 ^ k * b)) := by rw [pow_add, pow_add]; ring
  rw [this, Nat.add_mul_div_left _ _ (Nat.two_pow_pos _), Nat.add_mul_mod_self_left]

theorem div_mod_high (a b lo e m : Nat) (h : m ≤ lo) (ha : a < 2 ^ m) : (a + 2 ^ m * b) / 2 ^ lo % 2 ^ e = b / 2 ^ (lo - m) % 2 ^ e := by
  obtain ⟨k, rfl⟩ := Nat.exists_eq_add_of_le h
  rw [pow_add, ← Nat.div_div_eq_div_mul, Nat.add_mul_div_left _ _ (Nat.two_pow_pos _), Nat.div_eq_of_lt ha]
  simp

theorem regBytes_succ (g : Group) (lane r n : Nat) : g.regBytes lane r (n + 1) = toBytes 4 (SMap.get g.v (r * 64 + lane)).toNat ++ g.regBytes lane (r + 1) n := by
  unfold Group.regBytes
  rw [List.range_succ_eq_map, List.flatMap_cons, List.flatMap_map, Nat.add_zero]
  congr 2
  funext i
  rw [show r + Nat.succ i = r + 1 + i by omega]

theorem regBytes_field (g : Group) (lane n : Nat) : ∀ r lo e, lo % 32 + e ≤ 64 → lo + e ≤ 32 * n → 0 < e →
    field (ofBytes (g.regBytes lane r n)) lo e =
      ((SMap.get g.v ((r + lo / 32) * 64 + lane)).toNat + 2 ^ 32 * (SMap.get g.v ((r + lo / 32 + 1) * 64 + lane)).toNat) / 2 ^ (lo % 32) % 2 ^ e := by
  induction n with
  | zero => intro r lo e h1 h2 h3; omega
  | succ n ih =>
    intro r lo e h1 h2 h3
    rw [regBytes_succ, ofBytes_word]
    unfold field
    rw [show (4294967296 : Nat) = 2 ^ 32 from rfl]
    by_cases hlo : 32 ≤ lo
    · rw [div_mod_high _ _ _ _ _ hlo (SMap.get g.v (r * 64 + lane)).isLt]
      have := ih (r + 1) (lo - 32) e (by omega) (by omega) h3
      unfold field at this
      rw [this]
      rw [show r + 1 + (lo - 32) / 32 = r + lo / 32 by omega, show (lo - 32) % 32 = lo % 32 by omega]
    · rw [show lo / 32 = 0 by omega, Nat.add_zero, show lo % 32 = lo by omega]
      rcases n with _ | n
      · rw [div_mod_low _ _ _ _ _ (by omega), div_mod_low _ _ _ _ _ (by omega)]; rfl
      · rw [regBytes_succ, ofBytes_word]
        rw [show (4294967296 : Nat) = 2 ^ 32 from rfl]
        rw [show ∀ x y z : Nat, x + 2 ^ 32 * (y + 2 ^ 32 * z) = x + 2 ^ 32 * y + 2 ^ 64 * z from fun x y z => by ring]
        exact div_mod_low _ _ _ _ _ (by omega)

theorem fragElem_eq (g : Group) (lane r n e k : Nat) (he : 0 < e) (he2 : e ≤ 32) (hk : (k + 1) * e ≤ 32 * n) :
    field (ofBytes (g.regBytes lane r n)) (e * k) e = g.fragElem lane r e k := by
  rw [regBytes_field g lane n r (e * k) e (by omega) (by rw [Nat.mul_comm e k]; rw [Nat.succ_mul] at hk; exact hk) he]
  unfold Group.fragElem
  rw [Nat.mul_comm e k]

theorem MT.fits (t : MT) : 0 < t.bits ∧ t.bits ≤ 32 ∧ t.k * t.bits = 32 * t.regsOf t.k := by cases t <;> decide

theorem frag_map (g : Group) (t : MT) (lane r : Nat) :
    ((List.range t.k).map fun k => field (ofBytes (g.regBytes lane r (t.regsOf t.k))) (t.bits * k) t.bits) = (List.range t.k).map (g.fragElem lane r t.bits) := by
  obtain ⟨h1, h2, h3⟩ := MT.fits t
  refine List.map_congr_left fun k hk => ?_
  rw [List.mem_range] at hk
  refine fragElem_eq g lane r _ _ _ h1 h2 ?_
  rw [← h3]
  exact Nat.mul_le_mul_right _ hk

theorem regBytes_length (g : Group) (lane r n : Nat) : (g.regBytes lane r n).length = 4 * n := by
  induction n generalizing r with
  | zero => rfl
  | succ n ih => rw [regBytes_succ, List.length_append, ih, toBytes_length]; omega

theorem matElem_int (o : MatOp) (sa sb : Word) (as bs : List Nat) (c : Word) (h : o.ty.isInt = true) (f g : Nat → Nat) (n : Nat) :
    matElem o sa sb ((List.range n).map f) as ((List.range n).map g) bs c =
      BitVec.ofInt 32 (c.toInt + ((List.range n).map fun k => signed o.ty.bits (f k) * signed o.ty.bits (g k)).sum) := by
  unfold matElem
  rw [if_pos h]
  simp only []
  have e : (((List.range n).map f).zip ((List.range n).map g)).map (fun p => signed o.ty.bits p.1 * signed o.ty.bits p.2) =
      (List.range n).map fun k => signed o.ty.bits (f k) * signed o.ty.bits (g k) := by
    rw [List.zip_map', List.map_map]; rfl
  rw [e, ← List.sum_eq_foldl, signed_toInt' c (by decide)]
  unfold wrapTo
  apply BitVec.eq_of_toNat_eq
  rw [BitVec.toNat_setWidth, BitVec.toNat_ofNat, BitVec.toNat_ofInt]
  omega

theorem writeAcc_congr (g : Group) (d n : Nat) (f f' : Nat → Nat → Word) (h : ∀ i j, i < 64 → inMask g.live i = true → j < n → f i j = f' i j) :
    g.writeAcc d n f = g.writeAcc d n f' := by
  unfold Group.writeAcc
  congr 1
  refine List.foldl_ext _ _ _ fun v i hi => List.foldl_ext _ _ _ fun v j hj => ?_
  have hi' : i < 64 ∧ inMask g.live i = true := by simpa [lanes, inMask] using hi
  rw [h i j hi'.1 hi'.2 (by simpa using hj)]

theorem matElem_plain (o : MatOp) (sa sb : Word) (a as b bs : List Nat) (c : Word) (h : o.mx = false) :
    matElem o sa sb a as b bs c = matElem o sa sb a [] b [] c := by
  unfold matElem; simp [h]

theorem aRow_reg (s : State) (g : Group) (b : Block) (m : Mat) (o : MatOp) (i : Nat) (ha : o.areg = true) (hsp : o.sparse = false) (hmx : o.mx = false) :
    spreadRow o (s.aRow g b m o i).1 (s.aRow g b m o i).2.1 = (List.range o.ty.k).map (g.fragElem i o.a o.ty.bits) := by
  unfold State.aRow spreadRow
  simp only [ha, hsp, if_true, Bool.false_eq_true, if_false]
  have e1 : o.depth = o.ty.k := by simp [MatOp.depth, MT.depth, hsp]
  have e2 : aRegs o.ty false o.k4 o.mx = o.ty.regsOf o.ty.k := by simp [aRegs, hmx]
  have e3 : (g.regBytes i o.a (o.ty.regsOf o.ty.k)).take o.aData = g.regBytes i o.a (o.ty.regsOf o.ty.k) := by
    refine List.take_of_length_le ?_
    rw [regBytes_length]
    unfold MatOp.aData
    have := (MT.fits o.ty).2.2
    omega
  rw [e1, e2, e3]
  exact frag_map g o.ty i o.a

theorem ctx_modGroup {s : State} {c : Ctx} (hc : s.ctx? = some c) (f : Group → Group) (hf : ∀ x, (f x).gid = x.gid) :
    (s.modGroup c.gid f).ctx? = some { c with g := f c.g } := by
  unfold State.ctx? at hc ⊢
  show (match s.issuer with | none => none | some is => (s.modGroup c.gid f).ctxOf is) = _
  cases hi : s.issuer with
  | none => rw [hi] at hc; cases hc
  | some is =>
    rw [hi] at hc
    simp only [State.ctxOf] at hc ⊢
    cases hg : s.group? is.gid with
    | none => rw [hg] at hc; simp at hc
    | some g =>
      cases hb : s.block? is.gid.lid is.gid.blk with
      | none => rw [hg, hb] at hc; simp at hc
      | some b =>
        cases hl : s.launch? is.gid.lid with
        | none => rw [hg, hb, hl] at hc; simp at hc
        | some l =>
          rw [hg, hb, hl] at hc
          obtain rfl := Option.some.inj hc
          show (match (s.modGroup is.gid f).group? is.gid, s.block? is.gid.lid is.gid.blk, s.launch? is.gid.lid with
            | some g, some b, some l => some (⟨is, g, b, l⟩ : Ctx) | _, _, _ => none) = _
          rw [State.group?_modGroup s _ _ f hf, if_pos rfl, hg, hb, hl]
          rfl

theorem fetchByte_mem (t : State) (g : Group) (m : Mat) (pa : Nat) (h1 : m.olds = []) (h2 : g.olds = []) (h3 : t.chainByte pa = none)
    (h4 : ∀ p ∈ t.pend, ∀ x k, p.src = .thread x k → x = g.gid → ¬ (p.pa ≤ pa ∧ pa < p.pa + p.size)) : t.fetchByte g m pa = Memory.get t.mem pa := by
  have hn : ∀ (F : Writer → Bool), (∀ w, F w = true → ∃ k, w = .thread g.gid k) → ∀ (q : Pend → Bool), ownWrite F pa (t.pend.filter q) = none := by
    intro F hF q
    have key : ∀ ps : List Pend, (∀ p ∈ ps, p ∈ t.pend) → ownWrite F pa ps = none := by
      intro ps
      induction ps with
      | nil => intro _; rfl
      | cons p ps ih =>
        intro hp
        unfold ownWrite
        rw [ih fun q hq => hp q (List.mem_cons_of_mem _ hq)]
        simp only []
        rw [if_neg]
        intro hh
        rw [Bool.and_eq_true] at hh
        obtain ⟨ha, hb⟩ := hh
        obtain ⟨k, hs⟩ := hF _ ha
        refine h4 p (hp p (List.mem_cons_self)) _ k hs rfl ?_
        simp [Pend.touches, meets] at hb
        omega
    exact key _ fun p hp => (List.mem_filter.1 hp).1
  have fin : ∀ (F : Writer → Bool), (∀ w, F w = true → ∃ k, w = .thread g.gid k) → ∀ (q1 q2 : Pend → Bool) (B : Pend → Byte) (C : Pend → Byte → Byte) (x : Byte),
      (match ownWrite F pa (t.pend.filter q2) with
        | some p => C p (match ownWrite F pa (t.pend.filter q1) with | some p => B p | none => x)
        | none => (match ownWrite F pa (t.pend.filter q1) with | some p => B p | none => x)) = x := by
    intro F hF q1 q2 B C x
    rw [hn F hF, hn F hF]
  unfold State.fetchByte
  simp only [h1, h2, h3, List.nil_append, List.filter_nil, List.map_nil, List.length_nil, List.range_zero, List.zip_nil_left, List.foldl_nil]
  refine fin _ ?_ _ _ _ _ _
  intro w hw
  cases w with
  | thread x k => exact ⟨k, by simp at hw; rw [hw]⟩
  | _ => simp at hw

end Sys2Proof.Machine
end

