-- ==== Sys2Proof/Laws/Chain.lean ====
section
/-! SUPPORT. Copy chains: issue, retirement, entries. -/

namespace Sys2Proof.Machine
/-- `retireChains` drops the chains at the front that have completed. -/
theorem mem_retirable (s : State) (ks : List Chain) (h : (ks.map fun k => k.id).Nodup) (k : Chain) (hk : k ∈ ks) :
    k.id ∈ s.retirable ks ↔ k ∈ ks.takeWhile fun k => s.chainDone k && k.stop.isNone := by
  induction ks with
  | nil => cases hk
  | cons x xs ih =>
    rw [List.map_cons, List.nodup_cons] at h
    unfold State.retirable
    rw [List.takeWhile_cons]
    by_cases hx : (s.chainDone x && x.stop.isNone) = true
    · rw [if_pos hx, if_pos hx, List.mem_cons, List.mem_cons]
      rcases List.mem_cons.1 hk with e | e
      · subst e; simp
      · have hne : k.id ≠ x.id := fun e2 => h.1 (e2 ▸ List.mem_map_of_mem (f := fun k : Chain => k.id) e)
        have hne2 : k ≠ x := fun e2 => hne (by rw [e2])
        rw [ih h.2 e]
        simp [hne, hne2]
    · rw [if_neg hx, if_neg hx]; simp

theorem retirable_sub (s : State) (ks : List Chain) : ∀ i ∈ s.retirable ks, ∃ k ∈ ks, k.id = i := by
  induction ks with
  | nil => intro i h; cases h
  | cons x xs ih =>
    intro i h
    unfold State.retirable at h
    split at h
    · rcases List.mem_cons.1 h with e | e
      · exact ⟨x, List.mem_cons_self, e.symm⟩
      · obtain ⟨k, hk, he⟩ := ih i e
        exact ⟨k, List.mem_cons_of_mem _ hk, he⟩
    · cases h

theorem filter_not_takeWhile {α : Type} (p : α → Bool) (q : α → Bool) (ks : List α) (h : ks.Nodup) (hq : ∀ k ∈ ks, q k = true ↔ k ∈ ks.takeWhile p) :
    (ks.filter fun k => !q k) = ks.dropWhile p := by
  induction ks with
  | nil => rfl
  | cons x xs ih =>
    rw [List.nodup_cons] at h
    rw [List.dropWhile_cons]
    by_cases hx : p x = true
    · rw [if_pos hx]
      have : q x = true := (hq x List.mem_cons_self).2 (by rw [List.takeWhile_cons, if_pos hx]; exact List.mem_cons_self)
      rw [List.filter_cons, if_neg (by simp [this])]
      refine ih h.2 fun k hk => ?_
      rw [hq k (List.mem_cons_of_mem _ hk), List.takeWhile_cons, if_pos hx, List.mem_cons]
      have : k ≠ x := fun e => h.1 (e ▸ hk)
      simp [this]
    · rw [if_neg hx]
      refine List.filter_eq_self.2 fun k hk => ?_
      have := hq k hk
      rw [List.takeWhile_cons, if_neg hx] at this
      simpa using this

theorem retireChains_front (s : State) (g : Gid) (h : (s.chains.map fun k => k.id).Nodup) :
    (s.retireChains g).chainsOf g = ((s.chainsOf g).dropWhile fun k => s.chainDone k && k.stop.isNone) ∧
    ∀ k ∈ s.chains, k.gid ≠ g → k ∈ (s.retireChains g).chains := by
  have hnd : ((s.chainsOf g).map fun k => k.id).Nodup := List.Nodup.sublist (List.Sublist.map _ List.filter_sublist) h
  constructor
  · unfold State.chainsOf State.retireChains
    simp only []
    rw [List.filter_comm]
    refine filter_not_takeWhile (fun k => s.chainDone k && k.stop.isNone) (fun k => (s.retirable (s.chainsOf g)).contains k.id) _ (List.Nodup.of_map _ hnd) fun k hk => ?_
    rw [List.contains_iff_mem]
    exact mem_retirable s _ hnd k hk
  · intro k hk hg
    unfold State.retireChains
    refine List.mem_filter.2 ⟨hk, ?_⟩
    simp only [Bool.not_eq_true', List.contains_eq_mem, decide_eq_false_iff_not]
    intro hm
    obtain ⟨y, hy, he⟩ := retirable_sub s _ _ hm
    have hy2 := List.mem_filter.1 hy
    have : y = k := List.inj_on_of_nodup_map h hy2.1 hk he
    subst this
    exact hg (by simpa using hy2.2)

/-- The context with other chains. -/
theorem ctx_chains {s : State} {c : Ctx} (hc : s.ctx? = some c) (cs : List Chain) : ({ s with chains := cs } : State).ctx? = some c := hc

theorem withChain_eq {s : State} {k : Chain} {b : Block} {l : Launch} (h : Running s k b l) (f : Chain → Block → Launch → Out) : withChain s f = f k b l := by
  unfold withChain
  simp only [h.engine, h.chain, h.block, h.launch]

/-- A change of chain `k` after a state that differs from `s` in nothing that matters. -/
theorem modChain_sends {s u : State} {k : Chain} {l : Launch} {news : List Pend} (hk : s.chain? k.id = some k)
    (h : Sent s (fun q => q.src = .chain k.id ∧ q.lid = l.lid ∧ q.core = k.core ∧ q.cls = .chain ∧ q.tc = none ∧ q.ext = none ∧ ∃ bs, q.op = .bytes bs) news u)
    (f : Chain → Chain) (hf : ∀ x, (f x).id = x.id) (k' : Chain) (he : f k = k') (cells : List (Nat × Byte))
    (hc : news.flatMap Pend.cells = cells.map fun e => (Writer.chain k.id, e.1, e.2)) :
    Sends s k k' l cells (.next (u.modChain k.id f)) := by
  have hch : ∀ x, u.chain? x = s.chain? x := fun x => by unfold State.chain?; rw [h.chains]
  refine ⟨_, news, rfl, ?_, ?_, h.pend, h.all, hc, h.mem, h.groups, h.blocks, h.worlds, h.now⟩
  · rw [State.chain?_modChain u _ _ f hf, if_pos rfl, hch, hk, ← he]; rfl
  · intro x hx
    rw [State.chain?_modChain u _ _ f hf, if_neg hx, hch]

theorem quiet_sends {s u : State} {k : Chain} {l : Launch} (hk : s.chain? k.id = some k) (h : Quiet s u) (f : Chain → Chain) (hf : ∀ x, (f x).id = x.id) (k' : Chain)
    (he : f k = k') : Sends s k k' l [] (.next (u.modChain k.id f)) :=
  modChain_sends hk (h.sent _) f hf k' he [] rfl

theorem stopChain_stopped {s u : State} {k : Chain} (hk : s.chain? k.id = some k) (hs : k.stop = none) (h : Quiet s u) (cause addr : Nat) (info : DWord) :
    Stopped s k cause addr info (stopChain k cause addr info u) := by
  have hch : ∀ x, u.chain? x = s.chain? x := fun x => by unfold State.chain?; rw [h.chains]
  have hf : ∀ x : Chain, (x.halt cause (BitVec.ofNat 64 addr) info).id = x.id := by intro x; unfold Chain.halt; split <;> rfl
  refine ⟨_, rfl, ?_, ?_, h.pend, h.mem, h.groups, h.blocks, h.launches⟩
  · rw [State.chain?_modChain u _ _ _ hf, if_pos rfl, hch, hk]
    show some (k.halt _ _ _) = _
    unfold Chain.halt
    rw [hs]
  · intro x hx
    rw [State.chain?_modChain u _ _ _ hf, if_neg hx, hch]

theorem fetched_quiet (s : State) (k : Chain) (l : Launch) (scr col : Bool) (a n : Nat) (ps : List Piece) : Quiet s (s.fetched k l scr col a n ps) := by
  have h1 : ∀ (ps : List Piece) (s : State), Quiet s (ps.foldl (fun s p => s.scrub p.pa p.len) s) := by
    intro ps
    induction ps with
    | nil => exact Quiet.refl
    | cons p ps ih => intro s; exact (scrub_quiet _ _ _).trans (ih _)
  have h2 : ∀ (ps : List Piece) (s : State), Quiet s (ps.foldl (fun s p => s.cache k.core l.part p.va) s) := by
    intro ps
    induction ps with
    | nil => exact Quiet.refl
    | cons p ps ih => intro s; exact (cache_quiet _ _ _ _).trans (ih _)
  unfold State.fetched
  simp only []
  split
  · exact (h1 _ _).trans (useArrays_quiet _ _ _ _ _)
  · exact (h1 _ _).trans (h2 _ _)

theorem forall₂_none {s : State} {k : Chain} {atom : Bool} {ps : List Piece} {bss : List (List Byte)}
    (h : List.Forall₂ (fun p xs => s.chainBytes k atom p = some xs) ps bss)
    (G : Piece → List Byte → List (Nat × Byte)) :
    ((ps.map fun p => (s.chainBytes k atom p).map (G p)).any fun x => x.isNone) = false ∧
    ((ps.map fun p => (s.chainBytes k atom p).map (G p)).flatMap fun x => x.getD []) = ((ps.zip bss).flatMap fun e => G e.1 e.2) := by
  induction h with
  | nil => exact ⟨rfl, rfl⟩
  | cons h _ ih => simp only [List.map_cons, List.any_cons, List.flatMap_cons, List.zip_cons_cons, h, ih.1, ih.2, Option.map_some, Option.isNone_some, Bool.or_self, Option.getD_some, and_self]

theorem readByte_length (s : State) (src : Writer → Bool) (k : Nat) : ∀ n pa bs, s.readBytes src k pa n = some bs → bs.length = n := by
  intro n
  induction n with
  | zero => intro pa bs h; cases h; rfl
  | succ n ih =>
    intro pa bs h
    unfold State.readBytes at h
    split at h
    · rename_i h2
      cases h
      rw [List.length_cons, ih _ _ h2]
    · cases h

theorem range_zip_at (p : Piece) (bs : List Byte) (h : bs.length = p.len) :
    ((List.range p.len).zip bs).map (fun e => (p.pa + e.1, e.2)) = (List.range' p.pa p.len).zip bs := by
  have : (List.range' p.pa p.len) = (List.range p.len).map fun i => p.pa + i := by
    rw [List.range'_eq_map_range]
  rw [this, List.zip_map_left]
  rfl

def ChainPend (k : Chain) (l : Launch) (q : Pend) : Prop :=
  q.src = .chain k.id ∧ q.lid = l.lid ∧ q.core = k.core ∧ q.cls = .chain ∧ q.tc = none ∧ q.ext = none ∧ ∃ bs, q.op = .bytes bs

/-- Do the runs cover [a, a + n) one after the other? -/
def Tiled : List (Nat × Nat) → Nat → Nat → Prop
  | [], _, n => n = 0
  | c :: cs, a, n => c.1 = a ∧ c.2 ≤ n ∧ Tiled cs (a + c.2) (n - c.2)

theorem Tiled.append {ds : List (Nat × Nat)} {m : Nat} : ∀ {cs : List (Nat × Nat)} {a n : Nat}, Tiled cs a n → Tiled ds (a + n) m → Tiled (cs ++ ds) a (n + m) := by
  intro cs
  induction cs with
  | nil => intro a n h h2; obtain rfl : n = 0 := h; simpa using h2
  | cons c cs ih =>
    intro a n h h2
    obtain ⟨e1, e2, e3⟩ := h
    refine ⟨e1, by omega, ?_⟩
    have := ih e3 (by rw [show a + c.2 + (n - c.2) = a + n by omega]; exact h2)
    rw [show n + m - c.2 = n - c.2 + m by omega]
    exact this

theorem tiled_range (w : Nat) : ∀ k a, Tiled ((List.range k).map fun i => (a + w * i, w)) a (w * k) := by
  intro k
  induction k with
  | zero => intro a; rfl
  | succ k ih =>
    intro a
    rw [List.range_succ, List.map_append, Nat.mul_succ]
    exact (ih a).append ⟨rfl, Nat.le_refl _, Nat.sub_self _⟩

theorem cutWords_tiled (pa n : Nat) : Tiled (cutWords pa n) pa n := by
  unfold cutWords
  simp only []
  generalize hlo : min ((pa + 3) / 4 * 4) (pa + n) = lo
  generalize hhi : max lo ((pa + n) / 4 * 4) = hi
  have h1 : pa ≤ lo ∧ lo ≤ hi ∧ hi ≤ pa + n ∧ 4 * ((hi - lo) / 4) = hi - lo := by omega
  have r1 := tiled_range 1 (lo - pa) pa
  have r2 := tiled_range 4 ((hi - lo) / 4) lo
  have r3 := tiled_range 1 (pa + n - hi) hi
  simp only [Nat.one_mul] at r1 r3
  rw [h1.2.2.2] at r2
  have r12 := r1.append (m := hi - lo) (by rw [show pa + (lo - pa) = lo by omega]; exact r2)
  have := r12.append (m := pa + n - hi) (by rw [show pa + (lo - pa + (hi - lo)) = hi by omega]; exact r3)
  rw [show lo - pa + (hi - lo) + (pa + n - hi) = n by omega] at this
  exact this

theorem Tiled.sum : ∀ {cs : List (Nat × Nat)} {a n : Nat}, Tiled cs a n → (cs.map fun c => c.2).sum = n := by
  intro cs
  induction cs with
  | nil => intro a n h; exact h.symm
  | cons c cs ih =>
    intro a n h
    obtain ⟨-, e2, e3⟩ := h
    rw [List.map_cons, List.sum_cons, ih e3]
    omega

/-- A chain reads as many bytes as the piece has. -/
theorem chainBytes_length {s : State} {k : Chain} {atom : Bool} {p : Piece} {bs : List Byte} (h : s.chainBytes k atom p = some bs) : bs.length = p.len := by
  unfold State.chainBytes at h
  simp only [] at h
  split at h
  · exact readByte_length _ _ _ _ _ _ h
  · rw [← (cutWords_tiled p.pa p.len).sum]
    generalize cutWords p.pa p.len = cs at h
    induction cs generalizing bs with
    | nil => cases h; rfl
    | cons c cs ih =>
      rw [List.foldr_cons] at h
      split at h
      · rename_i u v hu hv
        cases h
        rw [List.length_append, ih hv, List.map_cons, List.sum_cons]
        congr 1
        split at hu
        · rename_i e he
          cases hu
          have := List.find?_some he
          simp only [Bool.and_eq_true, decide_eq_true_eq] at this
          exact this.2
        · exact readByte_length _ _ _ _ _ _ hu
      · cases h

/-- What a read of the engine gives. -/
theorem chainRead_reads {s u : State} {k : Chain} {b : Block} {l : Launch} {scr col atom : Bool} {a n : Nat} {bs : List Byte} {at_ : List Nat}
    (h : ChainReads s k b l scr col atom a n bs at_ u) (f : List (Nat × Byte) → State → Out) :
    chainRead k b l scr col atom a n s f = f (at_.zip bs) u ∧ at_.length = bs.length := by
  obtain ⟨ps, bss, h1, h2, h3, h4, rfl, rfl, rfl⟩ := h
  have hl : ∀ (ps : List Piece) (bss : List (List Byte)), List.Forall₂ (fun p xs => s.chainBytes k atom p = some xs) ps bss →
      ((ps.zip bss).flatMap fun e => ((List.range e.1.len).zip e.2).map fun x => (e.1.pa + x.1, x.2)) = (placesOf ps).zip bss.flatten ∧ (placesOf ps).length = bss.flatten.length := by
    intro ps bss h
    induction h with
    | nil => exact ⟨rfl, rfl⟩
    | @cons p xs ps bss h _ ih =>
      have hx := chainBytes_length h
      constructor
      · rw [List.zip_cons_cons, List.flatMap_cons, ih.1, range_zip_at p xs hx, List.flatten_cons]
        show _ = (List.range' p.pa p.len ++ placesOf ps).zip _
        rw [List.zip_append (by simp [hx])]
      · show (List.range' p.pa p.len ++ placesOf ps).length = _
        rw [List.flatten_cons, List.length_append, List.length_append, ih.2, hx]; simp
  obtain ⟨e1, e2⟩ := forall₂_none h4 (fun p bs => ((List.range p.len).zip bs).map fun e => (p.pa + e.1, e.2))
  refine ⟨?_, (hl ps bss h4).2⟩
  unfold chainRead
  rw [h1]
  simp only [h2, Bool.false_eq_true, if_false]
  have hf : ps.find? Piece.outside = none := List.find?_eq_none.2 fun p hp => by simp [h3 p hp]
  rw [hf]
  simp only [e1, Bool.false_eq_true, if_false]
  rw [e2, (hl ps bss h4).1]
  rfl

theorem cutLines_tiled : ∀ f a n, n ≤ f → Tiled (cutLines f a n) a n := by
  intro f
  induction f with
  | zero => intro a n h; obtain rfl : n = 0 := by omega
            rfl
  | succ f ih =>
    intro a n h
    unfold cutLines
    by_cases hn : n = 0
    · rw [if_pos hn]; exact hn
    · rw [if_neg hn]
      exact ⟨rfl, Nat.min_le_left _ _, ih _ _ (by omega)⟩

theorem Tiled.cut {f : Nat × Nat → List (Nat × Nat)} (hf : ∀ c, Tiled (f c) c.1 c.2) : ∀ {cs : List (Nat × Nat)} {a n : Nat}, Tiled cs a n → Tiled (cs.flatMap f) a n := by
  intro cs
  induction cs with
  | nil => intro a n h; exact h
  | cons c cs ih =>
    intro a n h
    obtain ⟨rfl, e2, e3⟩ := h
    have := (hf c).append (ih e3)
    rw [show c.2 + (n - c.2) = n by omega] at this
    exact this

/-- The writes of a run cover it. -/
theorem chainCuts_tiled (sealing : Bool) (pa n : Nat) : Tiled (chainCuts sealing pa n) pa n := by
  unfold chainCuts
  split
  · refine (cutLines_tiled n pa n (Nat.le_refl _)).cut fun c => ?_
    split
    · exact ⟨rfl, Nat.le_refl _, Nat.sub_self _⟩
    · exact cutWords_tiled _ _
  · exact cutWords_tiled _ _

theorem Tiled.bytes (bs : List Byte) (pa : Nat) : ∀ {cs : List (Nat × Nat)} {a n : Nat}, Tiled cs a n → pa ≤ a → n = bs.length - (a - pa) →
    (cs.flatMap fun c => (List.range' c.1 ((bs.drop (c.1 - pa)).take c.2).length).zip ((bs.drop (c.1 - pa)).take c.2)) =
      (List.range' a n).zip (bs.drop (a - pa)) := by
  intro cs
  induction cs with
  | nil => intro a n h _ _; obtain rfl : n = 0 := h; rfl
  | cons c cs ih =>
    intro a n h hp hn
    obtain ⟨rfl, e2, e3⟩ := h
    obtain ⟨a, k⟩ := c
    simp only [List.flatMap_cons] at *
    rw [ih e3 (by omega) (by omega)]
    have e1 : ((bs.drop (a - pa)).take k).length = k := by simp; omega
    rw [e1, show a + k - pa = (a - pa) + k by omega, ← List.drop_drop]
    conv_rhs => rw [show n = k + (n - k) by omega, ← List.range'_append_1, ← List.take_append_drop k (bs.drop (a - pa))]
    rw [List.zip_append (by simp; omega)]

theorem chainWrites_sent (k : Chain) (l : Launch) (ps : List Piece) (ho : ∀ p ∈ ps, p.outside = false) : ∀ (bs : List Byte) (s : State),
    bs.length = (placesOf ps).length →
    ∃ news, Sent s (ChainPend k l) news (s.chainWrites k l ps bs) ∧
      news.flatMap Pend.cells = ((placesOf ps).zip bs).map fun x => (Writer.chain k.id, x.1, x.2) := by
  induction ps with
  | nil => intro bs s _; exact ⟨[], (Quiet.refl s).sent _, by simp [placesOf]⟩
  | cons p ps ih =>
    intro bs s hl
    have hpl : (placesOf (p :: ps)).length = p.len + (placesOf ps).length := by
      show (List.range' p.pa p.len ++ placesOf ps).length = _
      simp
    rw [hpl] at hl
    unfold State.chainWrites
    simp only [ho p List.mem_cons_self, Bool.false_eq_true, if_false]
    have h1 : ∃ news, Sent s (ChainPend k l) news ((chainCuts (s.isSealed p.pa) p.pa p.len).foldl (fun u c =>
          u.issue (.chain k.id) l.lid k.core .chain (p.va + (c.1 - p.pa)) c.1 (.bytes (((bs.take p.len).drop (c.1 - p.pa)).take c.2)) (u.sameBytes (.chain k.id) false c.1 c.2) false [] k.entry (some s.serial)) s) ∧
        news.flatMap Pend.cells = (chainCuts (s.isSealed p.pa) p.pa p.len).flatMap fun c => ((List.range' c.1 (((bs.take p.len).drop (c.1 - p.pa)).take c.2).length).zip (((bs.take p.len).drop (c.1 - p.pa)).take c.2)).map
          fun x => (Writer.chain k.id, x.1, x.2) := by
      generalize s.serial = s0
      refine sent_foldl (ChainPend k l) _ Pend.cells _ (fun s c => ?_) _ s
      exact ⟨[_], ⟨rfl, rfl, rfl, rfl, rfl, rfl, rfl, rfl, rfl, by
        intro q hq
        rw [List.mem_singleton] at hq
        subst hq
        exact ⟨rfl, rfl, rfl, rfl, rfl, rfl, _, rfl⟩⟩, by simp [Pend.cells]⟩
    obtain ⟨n1, a1, e1⟩ := h1
    obtain ⟨n2, a2, e2⟩ := ih (fun q hq => ho q (List.mem_cons_of_mem _ hq)) (bs.drop p.len) _ (by simp; omega)
    refine ⟨n1 ++ n2, a1.trans a2, ?_⟩
    rw [List.flatMap_append, e1, e2, zip_places, List.map_append, ← List.map_flatMap]
    congr 2
    have := (chainCuts_tiled (s.isSealed p.pa) p.pa p.len).bytes (bs.take p.len) p.pa (Nat.le_refl _) (by simp; omega)
    rw [this]; simp

theorem copyBytes_fst : ∀ (ds : List Nat) (xs : List (Nat × Byte)), xs.length = ds.length → (copyBytes xs ds).map (fun e => e.1) = ds ∧ (copyBytes xs ds).length = ds.length := by
  intro ds
  induction ds with
  | nil => intro xs h; cases xs with | nil => exact ⟨rfl, rfl⟩ | cons _ _ => cases h
  | cons d ds ih =>
    intro xs h
    cases xs with
    | nil => cases h
    | cons x xs =>
      obtain ⟨a, v⟩ := x
      obtain ⟨h1, h2⟩ := ih (xs.map fun e => if e.1 = d then (e.1, v) else e) (by simpa using h)
      unfold copyBytes
      exact ⟨by rw [List.map_cons, h1], by rw [List.length_cons, h2]; rfl⟩

theorem zip_unzip {α β : Type} (xs : List (α × β)) : (xs.map fun e => e.1).zip (xs.map fun e => e.2) = xs := by
  induction xs with
  | nil => rfl
  | cons x xs ih => rw [List.map_cons, List.map_cons, List.zip_cons_cons, ih]

theorem placesOf_map (ps : List Piece) : (ps.flatMap fun p => (List.range p.len).map fun i => p.pa + i) = placesOf ps := by
  unfold placesOf
  congr 1
  funext p
  rw [List.range'_eq_map_range]

theorem cache_foldl_quiet (k : Chain) (l : Launch) : ∀ (ps : List Piece) (s : State), Quiet s (ps.foldl (fun s p => s.cache k.core l.part p.va) s) := by
  intro ps
  induction ps with
  | nil => exact Quiet.refl
  | cons p ps ih => intro s; exact (cache_quiet _ _ _ _).trans (ih _)

/-- A change of the chain stored as `y`. -/
theorem modStored_sends {s u : State} {k y : Chain} {l : Launch} {news : List Pend} (hk : s.chain? k.id = some y)
    (h : Sent s (ChainPend k l) news u) (f : Chain → Chain) (hf : ∀ x, (f x).id = x.id) (cells : List (Nat × Byte))
    (hc : news.flatMap Pend.cells = cells.map fun e => (Writer.chain k.id, e.1, e.2)) : Sends s k (f y) l cells (.next (u.modChain k.id f)) := by
  have hch : ∀ x, u.chain? x = s.chain? x := fun x => by unfold State.chain?; rw [h.chains]
  refine ⟨_, news, rfl, ?_, ?_, h.pend, h.all, hc, h.mem, h.groups, h.blocks, h.worlds, h.now⟩
  · rw [State.chain?_modChain u _ _ f hf, if_pos rfl, hch, hk]; rfl
  · intro x hx
    rw [State.chain?_modChain u _ _ f hf, if_neg hx, hch]

/-- The unit is done: `unitDone` moves the stored chain to its next unit. -/
theorem unitDone_sends {s u : State} {k y : Chain} {l : Launch} {news : List Pend} {cells : List (Nat × Byte)} (hk : s.chain? k.id = some y)
    (hy : y.unit = k.unit) (hy2 : y.entry = k.entry)
    (h : Sent s (ChainPend k l) news u) (hc : news.flatMap Pend.cells = cells.map fun e => (Writer.chain k.id, e.1, e.2)) (rows start n : Nat) :
    Sends s k (y.nextUnit rows start n) l cells (unitDone k rows start n u) := by
  have e1 : y.part = k.part := by unfold Chain.part; rw [hy]
  have e2 : y.row = k.row := by unfold Chain.row; rw [hy]
  unfold unitDone gotoEntry
  by_cases h1 : (k.part + 1) * 128 < start % 128 + n
  · rw [if_pos h1]
    have : y.nextUnit rows start n = { y with unit := y.unit + 1, stuck := none, ahead := [] } := by unfold Chain.nextUnit; rw [if_pos (by rw [e1]; exact h1)]
    rw [this]
    exact modStored_sends hk h (fun x => { x with unit := x.unit + 1, stuck := none, ahead := [] }) (fun _ => rfl) _ hc
  · rw [if_neg h1]
    by_cases h2 : k.row + 1 < rows
    · rw [if_pos h2]
      have : y.nextUnit rows start n = { y with unit := (y.row + 1) * 2 ^ 32, stuck := none, ahead := [] } := by
        unfold Chain.nextUnit; rw [if_neg (by rw [e1]; exact h1), if_pos (by rw [e2]; exact h2)]
      rw [this]
      exact modStored_sends hk h (fun x => { x with unit := (x.row + 1) * 2 ^ 32, stuck := none, ahead := [] }) (fun _ => rfl) _ hc
    · rw [if_neg h2]
      have : y.nextUnit rows start n = y.goto (k.entry + 1) := by
        unfold Chain.nextUnit; rw [if_neg (by rw [e1]; exact h1), if_neg (by rw [e2]; exact h2), hy2]
      rw [this]
      exact modStored_sends hk h (fun x => x.goto (k.entry + 1)) (fun _ => rfl) _ hc

/-- The engine's room depends on the writes in flight alone. -/
theorem chainRoom_quiet {s t : State} (h : Quiet s t) (k : Chain) (runs : List (Nat × Nat)) : t.chainRoom k runs = s.chainRoom k runs := by
  unfold State.chainRoom State.wick
  rw [h.pend]
  rfl

theorem chainPut_puts {s : State} {k : Chain} {b : Block} {l : Launch} {scr : Bool} {runs : List (Nat × Nat)} {ps : List Piece}
    (hd : chainDests k b l scr s runs = .ok ps) (ho : ∀ p ∈ ps, p.outside = false ∧ (s.healed k.id).tagSpoilt p = false) (f : List Piece → Out) :
    chainPut k b l scr runs s f = f ps := by
  unfold chainPut
  rw [hd]
  have : ps.find? (s.healed k.id).tagSpoilt = none := List.find?_eq_none.2 fun p hp => by simp [(ho p hp).2]
  simp only [this]

/-- One unit of a copy: `v` is the state before it, in which the index may already have been read. -/
theorem copyUnit_sends {v u : State} {k : Chain} {b : Block} {l : Launch} {h : CHdr} {rows sa n : Nat} {dst : Nat → Nat → List (Nat × Nat)} {bs : List Byte}
    {at_ to_ : List Nat}
    (hr : ChainReads v k b l h.ssp h.so false (chainAddr h.ssp (sa + (blockRange sa n k.part).1 : Nat)) ((blockRange sa n k.part).2 - (blockRange sa n k.part).1) bs at_ u)
    (ht : Targets u k b l h.dsp (dst (blockRange sa n k.part).1 (blockRange sa n k.part).2) to_) (hl : at_.length = to_.length) :
    ∃ u' news, copyUnit k b l h rows sa n dst v = unitDone k rows sa n u' ∧ Sent v (ChainPend k l) news u' ∧
      news.flatMap Pend.cells = (copyBytes (at_.zip bs) to_).map fun e => (Writer.chain k.id, e.1, e.2) := by
  obtain ⟨hroom, ps, hd, ho, rfl⟩ := ht
  have hlen := (chainRead_reads hr (fun _ s => .next s)).2
  have hu : Quiet v u := by obtain ⟨_, _, _, _, _, _, _, _, rfl⟩ := hr; exact fetched_quiet _ _ _ _ _ _ _ _
  rw [chainRoom_quiet hu] at hroom
  unfold copyUnit
  simp only [hroom, Bool.not_true, Bool.false_eq_true, if_false]
  have hr' : ChainReads v k b l h.ssp h.so false (chainAddr h.ssp ((sa : Int) + ((blockRange sa n k.part).1 : Int))) ((blockRange sa n k.part).2 - (blockRange sa n k.part).1) bs at_ u := by
    have : ((sa : Int) + ((blockRange sa n k.part).1 : Int)) = ((sa + (blockRange sa n k.part).1 : Nat) : Int) := by push_cast; rfl
    rw [this]; exact hr
  rw [(chainRead_reads hr' _).1, chainPut_puts hd ho]
  rw [placesOf_map]
  obtain ⟨c1, c2⟩ := copyBytes_fst (placesOf ps) (at_.zip bs) (by simp; omega)
  obtain ⟨news, hs, he⟩ := chainWrites_sent k l ps (fun p hp => (ho p hp).1) ((copyBytes (at_.zip bs) (placesOf ps)).map fun e => e.2) u (by simp [c2])
  have hz : (placesOf ps).zip ((copyBytes (at_.zip bs) (placesOf ps)).map fun e => e.2) = copyBytes (at_.zip bs) (placesOf ps) := by
    have := zip_unzip (copyBytes (at_.zip bs) (placesOf ps))
    rw [c1] at this
    exact this
  rw [hz] at he
  have hs' : Sent v (ChainPend k l) news (u.chainWrites k l ps ((copyBytes (at_.zip bs) (placesOf ps)).map fun e => e.2)) := by
    have := (hu.sent (ChainPend k l)).trans hs
    simpa using this
  refine ⟨_, news, rfl, ?_, he⟩
  split
  · exact hs'.quiet (useArrays_quiet _ _ _ _ _)
  · exact hs'.quiet (cache_foldl_quiet k l ps _)

theorem copyBytes_loop : ∀ (ds xs : List Nat) (m : Nat → Byte), xs.length = ds.length →
    ((copyBytes (xs.map fun a => (a, m a)) ds).foldl (fun m e => Function.update m e.1 e.2) m) =
      (xs.zip ds).foldl (fun m e => Function.update m e.2 (m e.1)) m := by
  intro ds
  induction ds with
  | nil => intro xs m h; cases xs with | nil => rfl | cons _ _ => cases h
  | cons d ds ih =>
    intro xs m h
    cases xs with
    | nil => cases h
    | cons x xs =>
      rw [List.map_cons]
      unfold copyBytes
      rw [List.foldl_cons, List.zip_cons_cons, List.foldl_cons, ← ih xs _ (by simpa using h), List.map_map]
      congr 2
      refine List.map_congr_left fun a _ => ?_
      simp only [Function.comp, Function.update_apply]
      split <;> rfl

theorem chainAddr_run (scr : Bool) (a : Int) (n : Nat) :
    ((List.range' (chainAddr scr a) n).map fun x => x % (if scr then 2 ^ 32 else 2 ^ 64)) =
      (List.range n).map fun t : Nat => ((a + (t : Int)) % ((if scr then 2 ^ 32 else 2 ^ 64 : Nat) : Int)).toNat := by
  rw [List.range'_eq_map_range, List.map_map]
  refine List.map_congr_left fun t _ => ?_
  simp only [Function.comp, chainAddr]
  cases scr <;> simp only [if_true, Bool.false_eq_true, if_false] <;> push_cast <;> omega

theorem elem_runs (e lo hi : Nat) (he : 0 < e) (hl : lo < hi) : ∀ c,
    ((List.range c).flatMap fun x => List.range' (max lo ((lo / e + x) * e)) (min hi ((lo / e + x) * e + e) - max lo ((lo / e + x) * e))) =
      List.range' lo (min hi ((lo / e + c) * e) - lo) := by
  intro c
  have h0 : lo / e * e ≤ lo ∧ lo < lo / e * e + e := ⟨Nat.div_mul_le_self _ _, by have := Nat.lt_div_mul_add (a := lo) he; omega⟩
  induction c with
  | zero =>
    rw [Nat.add_zero, show min hi (lo / e * e) - lo = 0 by omega]; rfl
  | succ c ih =>
    rw [List.range_succ, List.flatMap_append, ih, List.flatMap_singleton]
    have e1 : (lo / e + (c + 1)) * e = (lo / e + c) * e + e := by ring
    have e2 : c = 0 ∨ lo < (lo / e + c) * e := by
      rcases Nat.eq_zero_or_pos c with h | h
      · exact Or.inl h
      · right
        have : (lo / e + 1) * e ≤ (lo / e + c) * e := Nat.mul_le_mul_right _ (by omega)
        rw [Nat.succ_mul] at this; omega
    have e3 : c = 0 → (lo / e + c) * e ≤ lo := by rintro rfl; simpa using h0.1
    rw [e1]
    generalize (lo / e + c) * e = J at *
    by_cases hJ : hi ≤ J
    · rw [show min hi (J + e) - max lo J = 0 by omega, show min hi J = min hi (J + e) by omega]
      simp
    · rcases e2 with h | h
      · have := e3 h
        rw [show min hi J - lo = 0 by omega, show max lo J = lo by omega]
        simp
      · rw [show max lo J = lo + (min hi J - lo) by omega, List.range'_append_1]
        congr 1
        omega

theorem copyRuns (h : CHdr) (dst : Nat) (ds : Int) (i lo hi : Nat) (hl : lo < hi) :
    (copy2dRuns h dst ds i lo hi).flatMap (fun r => (List.range' r.1 r.2).map fun x => x % (if h.dsp then 2 ^ 32 else 2 ^ 64)) =
      (List.range' lo (hi - lo)).map fun j =>
        ((if h.tr then (dst : Int) + (j / h.elem : Nat) * ds + (i * h.elem + j % h.elem : Nat) else (dst : Int) + i * ds + j) % ((if h.dsp then 2 ^ 32 else 2 ^ 64 : Nat) : Int)).toNat := by
  unfold copy2dRuns
  cases htr : h.tr with
  | false =>
    simp only [Bool.false_eq_true, if_false, List.flatMap_cons, List.flatMap_nil, List.append_nil]
    rw [chainAddr_run, List.range'_eq_map_range, List.map_map]
    refine List.map_congr_left fun t _ => ?_
    simp only [Function.comp]
    congr 2
    push_cast; ring
  | true =>
    simp only [if_true]
    have he : 0 < h.elem := Nat.two_pow_pos _
    generalize h.elem = e at he ⊢
    have hr := elem_runs e lo hi he hl ((hi - 1) / e + 1 - lo / e)
    have hc : min hi ((lo / e + ((hi - 1) / e + 1 - lo / e)) * e) = hi := by
      have h1 : lo / e ≤ (hi - 1) / e := Nat.div_le_div_right (by omega)
      rw [show lo / e + ((hi - 1) / e + 1 - lo / e) = (hi - 1) / e + 1 by omega]
      have := Nat.lt_div_mul_add (a := hi - 1) he
      rw [Nat.succ_mul]; omega
    rw [hc] at hr
    rw [← hr, List.map_flatMap, List.flatMap_map]
    congr 1
    funext x
    rw [chainAddr_run, List.range'_eq_map_range, List.map_map]
    refine List.map_congr_left fun t ht => ?_
    rw [List.mem_range] at ht
    simp only [Function.comp]
    have h0 : lo / e * e ≤ lo ∧ lo < lo / e * e + e := ⟨Nat.div_mul_le_self _ _, by have := Nat.lt_div_mul_add (a := lo) he; omega⟩
    have hd : (max lo ((lo / e + x) * e) + t) / e = lo / e + x := by
      refine Nat.div_eq_of_lt_le (by omega) ?_
      rw [Nat.succ_mul]; omega
    have hm : (max lo ((lo / e + x) * e) + t) % e = max lo ((lo / e + x) * e) - (lo / e + x) * e + t := by
      have := Nat.div_add_mod (max lo ((lo / e + x) * e) + t) e
      rw [hd, Nat.mul_comm] at this
      omega
    rw [hd, hm]
    congr 2
    push_cast
    ring

end Sys2Proof.Machine
end

