-- ==== Sys2Proof/Laws/Host.lean ====
section
/-! SUPPORT. Control-page registers, and what the agents outside the cores do. -/

namespace Sys2Proof.Machine
/-- Replacing one field of a number. -/
theorem field_parts (r lo n : Nat) : ∃ low hi, r = low + 2 ^ lo * (field r lo n + 2 ^ n * hi) ∧ low < 2 ^ lo := by
  refine ⟨r % 2 ^ lo, r / 2 ^ lo / 2 ^ n, ?_, Nat.mod_lt _ (Nat.two_pow_pos _)⟩
  unfold field
  have h1 := Nat.div_add_mod r (2 ^ lo)
  have h2 := Nat.div_add_mod (r / 2 ^ lo) (2 ^ n)
  rw [Nat.add_comm (r / 2 ^ lo % 2 ^ n), h2]
  omega

theorem setField_toNat (x : World) (off lo n v : Nat) (h : lo + n ≤ 64) :
    ∃ low hi, (x.reg off).toNat = low + 2 ^ lo * (field (x.reg off).toNat lo n + 2 ^ n * hi) ∧ low < 2 ^ lo ∧
      ((x.setField off lo n v).reg off).toNat = low + 2 ^ lo * (v % 2 ^ n + 2 ^ n * hi) := by
  obtain ⟨low, hi, h1, h2⟩ := field_parts (x.reg off).toNat lo n
  refine ⟨low, hi, h1, h2, ?_⟩
  have hr : ((x.setField off lo n v).reg off) = BitVec.ofNat 64 ((x.reg off).toNat - field (x.reg off).toNat lo n * 2 ^ lo + v % 2 ^ n * 2 ^ lo) := by
    unfold World.setField World.setReg World.reg
    rw [SMap.get_set, if_pos rfl]
  have hlt : (x.reg off).toNat < 2 ^ 64 := (x.reg off).isLt
  generalize hF : field (x.reg off).toNat lo n = F at *
  generalize (x.reg off).toNat = r at *
  have e1 : r - F * 2 ^ lo + v % 2 ^ n * 2 ^ lo = low + 2 ^ lo * (v % 2 ^ n + 2 ^ n * hi) := by
    rw [h1, Nat.mul_add, Nat.mul_add, Nat.mul_comm F, Nat.mul_comm (v % 2 ^ n)]
    omega
  have hb : low + 2 ^ lo * (v % 2 ^ n + 2 ^ n * hi) < 2 ^ 64 := by
    have hv : v % 2 ^ n < 2 ^ n := Nat.mod_lt _ (Nat.two_pow_pos _)
    have hhi : hi < 2 ^ (64 - lo - n) := by
      by_contra hc
      have : 2 ^ (64 - lo - n) ≤ hi := by omega
      have h3 : 2 ^ lo * (2 ^ n * 2 ^ (64 - lo - n)) ≤ 2 ^ lo * (2 ^ n * hi) := Nat.mul_le_mul_left _ (Nat.mul_le_mul_left _ this)
      rw [← pow_add, ← pow_add, show lo + (n + (64 - lo - n)) = 64 by omega] at h3
      rw [h1, Nat.mul_add] at hlt
      omega
    have h4 : v % 2 ^ n + 2 ^ n * hi + 1 ≤ 2 ^ n * 2 ^ (64 - lo - n) := by
      have : 2 ^ n * (hi + 1) ≤ 2 ^ n * 2 ^ (64 - lo - n) := Nat.mul_le_mul_left _ hhi
      rw [Nat.mul_add] at this
      omega
    have h5 : 2 ^ lo * (v % 2 ^ n + 2 ^ n * hi + 1) ≤ 2 ^ lo * (2 ^ n * 2 ^ (64 - lo - n)) := Nat.mul_le_mul_left _ h4
    rw [← pow_add, ← pow_add, show lo + (n + (64 - lo - n)) = 64 by omega, Nat.mul_add] at h5
    omega
  rw [hr, BitVec.toNat_ofNat, e1, Nat.mod_eq_of_lt hb]

/-- A field reads back what was written to it. -/
theorem World.fieldOf_setField (x : World) (off lo n v : Nat) (h : lo + n ≤ 64) : (x.setField off lo n v).fieldOf off lo n = v % 2 ^ n := by
  obtain ⟨low, hi, -, h2, h3⟩ := setField_toNat x off lo n v h
  unfold World.fieldOf field
  rw [h3, Nat.add_mul_div_left _ _ (Nat.two_pow_pos _), Nat.div_eq_of_lt h2, Nat.zero_add, Nat.add_mul_mod_self_left, Nat.mod_mod]

/-- A field beside it is unchanged. -/
theorem World.fieldOf_setField_other (x : World) (off lo n v lo2 n2 : Nat) (h : lo + n ≤ 64) (hd : lo2 + n2 ≤ lo ∨ lo + n ≤ lo2) :
    (x.setField off lo n v).fieldOf off lo2 n2 = x.fieldOf off lo2 n2 := by
  obtain ⟨low, hi, h1, h2, h3⟩ := setField_toNat x off lo n v h
  unfold World.fieldOf
  have hlt : field (x.reg off).toNat lo n < 2 ^ n := Nat.mod_lt _ (Nat.two_pow_pos _)
  rw [h3]
  generalize hr : (x.reg off).toNat = r at *
  generalize field r lo n = F at *
  rw [h1]
  unfold field
  rcases hd with hd | hd
  · rw [div_mod_low _ _ _ _ _ hd, div_mod_low _ _ _ _ _ hd]
  · have hF : ∀ y, low + 2 ^ lo * (y + 2 ^ n * hi) = (low + 2 ^ lo * y) + 2 ^ (lo + n) * hi := by intro y; rw [pow_add]; ring
    have hb : ∀ y, y < 2 ^ n → low + 2 ^ lo * y < 2 ^ (lo + n) := by
      intro y hy
      have : 2 ^ lo * (y + 1) ≤ 2 ^ lo * 2 ^ n := Nat.mul_le_mul_left _ hy
      rw [← pow_add, Nat.mul_add] at this
      omega
    have hv : v % 2 ^ n < 2 ^ n := Nat.mod_lt _ (Nat.two_pow_pos _)
    rw [hF, hF, div_mod_high _ _ _ _ _ hd (hb _ hv), div_mod_high _ _ _ _ _ hd (hb _ hlt)]

theorem World.reg_setField_other (x : World) (off lo n v o : Nat) (h : o ≠ off) : (x.setField off lo n v).reg o = x.reg o := by
  unfold World.setField World.setReg World.reg
  exact SMap.get_set_ne _ _ h

theorem World.setField_w (x : World) (off lo n v : Nat) : (x.setField off lo n v).w = x.w := rfl

/-- What one result for every lane of Act leaves in the group. -/
theorem writeLanes_delivers (c : Ctx) (hd : Hdr) (fresh : Nat) (d : Option (Opnd × Nat)) (out : Nat → LaneOut) (hact : c.act hd ≠ 0) (hz : ClearOfMatrix c d) :
    let g := c.writeLanes fresh d out (lanes (c.act hd)) c.g
    (∀ r l, l < 64 → SMap.get g.v (r * 64 + l) = newV c (c.act hd) d out r l) ∧ (∀ r, SMap.get g.s r = newS c (c.act hd) d out r) ∧
    (∀ r l, l < 64 → SMap.get g.h (r * 64 + l) = newH c (c.act hd) d out r l) ∧ (∀ l j, j < 8 → g.pred l j = newP c (c.act hd) out l j) ∧
    (∀ l, SMap.get g.fpst l = newFlags c (c.act hd) out l) ∧ g.sc = c.g.sc ∧ g.fpm = c.g.fpm ∧ g.live = c.g.live ∧ g.rets = c.g.rets := by
  have hwl := writeLanes_eq c fresh d out c.g (lanes (c.act hd)) hz
  intro g
  have hg : g = _ := hwl
  rw [hg]
  refine ⟨fun r l hl => ?_, fun r => ?_, fun r l hl => ?_, fun l j hj => ?_, fun l => ?_, rfl, rfl, rfl, rfl⟩
  · exact get_laneV _ _ c.g.v (c.act hd) r l hl
  · exact get_laneS _ _ c.g.s (c.act hd) r hact
  · exact get_laneH _ _ c.g.h (c.act hd) r l hl
  · exact get_laneP _ c.g (c.act hd) l j hj
  · exact get_laneF _ c.g.fpst (c.act hd) l

/-- One result for every lane of Act is written, in a state whose groups are as they were, and the lanes go on. -/
theorem retire_lanes {s t : State} {c : Ctx} {hd : Hdr} (hc : s.ctx? = some c) (hact : c.act hd ≠ 0) (ht : t.groups = s.groups) (fresh : Nat) (d : Option (Opnd × Nat))
    (out : Nat → LaneOut) (hz : ClearOfMatrix c d) :
    ∃ g, (retire c (t.modGroup c.gid (c.writeLanes fresh d out (lanes (c.act hd))))).group? c.gid = some g ∧ (∀ l, inMask c.is.mask l = true → g.stands l c.after) ∧
    (∀ r l, l < 64 → SMap.get g.v (r * 64 + l) = newV c (c.act hd) d out r l) ∧ (∀ r, SMap.get g.s r = newS c (c.act hd) d out r) ∧
    (∀ r l, l < 64 → SMap.get g.h (r * 64 + l) = newH c (c.act hd) d out r l) ∧ (∀ l j, j < 8 → g.pred l j = newP c (c.act hd) out l j) ∧
    (∀ l, SMap.get g.fpst l = newFlags c (c.act hd) out l) ∧ g.sc = c.g.sc ∧ g.fpm = c.g.fpm ∧ g.live = c.g.live ∧ g.rets = c.g.rets := by
  obtain ⟨hg, -, -, -⟩ := ctx_parts hc
  have htg : t.group? c.gid = some c.g := by unfold State.group?; rw [ht]; exact hg
  have h1 := State.group?_modGroup t c.gid c.gid (c.writeLanes fresh d out (lanes (c.act hd))) (fun y => writeLanes_gid _ _ _ _)
  rw [if_pos rfl, htg] at h1
  obtain ⟨a, b, d', e⟩ := retire_at c (s := t) h1 (sameElsewhere_modGroup _ _ _ (fun y => writeLanes_gid _ _ _ _))
  obtain ⟨w1, w2, w3, w4, w5, w6⟩ := writeLanes_delivers c hd fresh d out hact hz
  exact ⟨_, a, b, w1, w2, w3, w4, w5, w6⟩

theorem Marked.parts {s t : State} (h : Marked s t) : t.parts = s.parts := by
  obtain ⟨_, _, rfl⟩ := h
  rfl

theorem cachePieces_parts (s : State) (c : Ctx) (sp : Space) (ps : List Piece) : (s.cachePieces c sp ps).parts = s.parts := by
  have hc : ∀ (s : State) core p va, (s.cache core p va).parts = s.parts := by
    intro s core p va
    unfold State.cache
    split
    · rfl
    · split
      · rfl
      · exact (noteWalk_marked s _ _ _).parts
  unfold State.cachePieces
  split
  · rfl
  · induction ps generalizing s with
    | nil => rfl
    | cons p ps ih =>
      rw [List.foldl_cons, ih]
      split
      · rfl
      · exact hc _ _ _ _

theorem dropAnswers_parts (s : State) (c : Ctx) : (s.dropAnswers c).parts = s.parts := by
  unfold State.dropAnswers
  split <;> rfl

/-- Put the bytes of a record in flight. -/
theorem issueRecord_sent {s : State} {p w lid core va : Nat} {bs : List Byte} {ps : List Piece}
    (h : s.checkGlobal .host none p w (agentSource .host p w) [] true false false va bs.length = .ok ps) :
    ∃ news, Sent s (fun _ => True) news (s.issueRecord p w lid core va bs) ∧ news.flatMap Pend.cells = ((placesOf ps).zip bs).map fun e => (Writer.dispatcher p, e.1, e.2) := by
  unfold State.issueRecord
  rw [h]
  simp only []
  clear h
  induction ps generalizing s bs with
  | nil => exact ⟨[], (Quiet.refl s).sent _, by simp [placesOf]⟩
  | cons x ps ih =>
    rw [List.foldl_cons]
    obtain ⟨news, h1, h2⟩ := ih (s := s.issue (.dispatcher p) lid core .other x.va x.pa (.bytes (bs.take x.len)) [] false) (bs := bs.drop x.len)
    have h0 : Sent s (fun _ => True) [⟨s.serial, .dispatcher p, lid, core, .other, BitVec.ofNat 64 x.va, x.pa, .bytes (bs.take x.len), [], false, none, none, [], 0, s.serial, false⟩]
        (s.issue (.dispatcher p) lid core .other x.va x.pa (.bytes (bs.take x.len)) [] false) := ⟨rfl, rfl, rfl, rfl, rfl, rfl, rfl, rfl, rfl, fun _ _ => trivial⟩
    refine ⟨_, h0.trans h1, ?_⟩
    rw [List.flatMap_append, h2, zip_places, List.map_append]
    congr 1
    rw [zip_range'_take]
    simp [Pend.cells]

theorem issueRecord_quiet (s : State) (p w lid core va : Nat) (bs : List Byte) : ∃ news, Sent s (fun _ => True) news (s.issueRecord p w lid core va bs) := by
  cases h : s.checkGlobal .host none p w (agentSource .host p w) [] true false false va bs.length with
  | ok ps => obtain ⟨news, h1, -⟩ := issueRecord_sent h; exact ⟨news, h1⟩
  | error e => refine ⟨[], ?_⟩; unfold State.issueRecord; rw [h]; exact (fenceAgent_marked _ _ _ _ _ _).quiet.sent _

/-- What the replay log leaves alone. -/
structure OnlyLogged (s t : State) : Prop where
  worlds : t.worlds = s.worlds
  mem : t.mem = s.mem
  groups : t.groups = s.groups
  blocks : t.blocks = s.blocks
  chains : t.chains = s.chains
  launches : t.launches = s.launches
  pot : t.pot = s.pot
  now : t.now = s.now
  tlb : t.tlb = s.tlb
  ext : t.ext = s.ext
  galleys : t.galleys = s.galleys
  translating : t.translating = s.translating
  frozen : t.frozen = s.frozen
  fresh : t.fresh = s.fresh

theorem OnlyLogged.refl (s : State) : OnlyLogged s s := ⟨rfl, rfl, rfl, rfl, rfl, rfl, rfl, rfl, rfl, rfl, rfl, rfl, rfl, rfl⟩

theorem OnlyLogged.trans {s t u : State} (h : OnlyLogged s t) (k : OnlyLogged t u) : OnlyLogged s u :=
  ⟨k.worlds.trans h.worlds, k.mem.trans h.mem, k.groups.trans h.groups, k.blocks.trans h.blocks, k.chains.trans h.chains, k.launches.trans h.launches,
   k.pot.trans h.pot, k.now.trans h.now, k.tlb.trans h.tlb, k.ext.trans h.ext, k.galleys.trans h.galleys, k.translating.trans h.translating,
   k.frozen.trans h.frozen, k.fresh.trans h.fresh⟩

theorem Marked.calm {s t : State} (h : Marked s t) : OnlyLogged s t := by
  obtain ⟨_, _, rfl⟩ := h
  exact ⟨rfl, rfl, rfl, rfl, rfl, rfl, rfl, rfl, rfl, rfl, rfl, rfl, rfl, rfl⟩

theorem issueRecord_calm (s : State) (p w lid core va : Nat) (bs : List Byte) : OnlyLogged s (s.issueRecord p w lid core va bs) := by
  unfold State.issueRecord
  split
  · exact (fenceAgent_marked _ _ _ _ _ _).calm
  · rename_i ps hps
    clear hps
    induction ps generalizing s bs with
    | nil => exact OnlyLogged.refl s
    | cons x ps ih =>
      rw [List.foldl_cons]
      exact OnlyLogged.trans (t := s.issue (.dispatcher p) lid core .other x.va x.pa (.bytes (bs.take x.len)) [] false) ⟨rfl, rfl, rfl, rfl, rfl, rfl, rfl, rfl, rfl, rfl, rfl, rfl, rfl, rfl⟩ (ih _ _)

theorem logRun_calm (p w : Nat) : ∀ (n va : Nat) (bs : List Byte) (s : State), OnlyLogged s (s.logRun p w n va bs) := by
  intro n
  induction n with
  | zero => intro va bs s; exact OnlyLogged.refl s
  | succ n ih =>
    intro va bs s
    unfold State.logRun
    split
    · exact OnlyLogged.refl s
    · exact (issueRecord_calm _ _ _ _ _ _ _).trans (ih _ _ _)

theorem modPart_calm (s : State) (p : Nat) (f : Partition → Partition) : OnlyLogged s (s.modPart p f) := ⟨rfl, rfl, rfl, rfl, rfl, rfl, rfl, rfl, rfl, rfl, rfl, rfl, rfl, rfl⟩
theorem modBulk_calm (s : State) (b : Nat) (f : Bulk → Bulk) : OnlyLogged s (s.modBulk b f) := ⟨rfl, rfl, rfl, rfl, rfl, rfl, rfl, rfl, rfl, rfl, rfl, rfl, rfl, rfl⟩
theorem ember_calm (s : State) (b code core wld : Nat) (data : DWord) : OnlyLogged s (s.ember b code core wld data) := ⟨rfl, rfl, rfl, rfl, rfl, rfl, rfl, rfl, rfl, rfl, rfl, rfl, rfl, rfl⟩

theorem logBytes_calm (s : State) (p : Partition) (bs : List Byte) : OnlyLogged s (s.logBytes p bs) :=
  ((logRun_calm _ _ _ _ _ s).trans (logRun_calm _ _ _ _ _ _)).trans (modPart_calm _ _ _)

theorem logMark_calm (s : State) (part : Nat) : OnlyLogged s (s.logMark part) := by
  unfold State.logMark
  split
  · exact OnlyLogged.refl s
  · simp only []
    split
    · exact (logBytes_calm _ _ _).trans (modPart_calm _ _ _)
    · exact modPart_calm _ _ _

theorem logRecord_calm (s : State) (part ty addr : Nat) (payload : List Byte) : OnlyLogged s (s.logRecord part ty addr payload) := by
  unfold State.logRecord
  split
  · exact OnlyLogged.refl s
  · simp only []
    split
    · exact (logBytes_calm _ _ _).trans (modPart_calm _ _ _)
    · exact (logMark_calm _ _).trans (ember_calm _ _ _ _ _ _)

theorem logDue_calm (s : State) (part : Nat) : OnlyLogged s (s.logDue part) := by
  unfold State.logDue
  split
  · exact OnlyLogged.refl s
  · split
    · exact logMark_calm _ _
    · exact OnlyLogged.refl s

theorem logInput_calm (s : State) (part ty addr : Nat) (payload : List Byte) : OnlyLogged s (s.logInput part ty addr payload) := by
  unfold State.logInput
  split
  · exact OnlyLogged.refl s
  · split
    · exact OnlyLogged.refl s
    · exact (logDue_calm _ _).trans (logRecord_calm _ _ _ _ _)

theorem admitCtl_calm (s : State) (w off : Nat) (v : DWord) : OnlyLogged s (s.admitCtl w off v) := by
  unfold State.admitCtl
  split
  · exact OnlyLogged.refl s
  · exact logInput_calm _ _ _ _ _
  · exact logInput_calm _ _ _ _ _

theorem noteHead_world (s : State) (w lvl v : Nat) : ∃ f : World → World, (∀ x, (f x).w = x.w ∧ (∀ off, (f x).reg off = x.reg off) ∧ (f x).taken = x.taken) ∧
    s.noteHead w lvl = s.modWorld w f := by
  have hid : s = s.modWorld w fun x => x := by
    unfold State.modWorld
    have : (s.worlds.map fun x => if x.w = w then x else x) = s.worlds := by
      conv_rhs => rw [← List.map_id s.worlds]
      exact List.map_congr_left fun x _ => by simp
    rw [this]
  unfold State.noteHead
  repeat' split
  all_goals first
    | exact ⟨fun x => { x with barriers := ⟨lvl, _⟩ :: x.barriers }, fun x => ⟨rfl, fun _ => rfl, rfl⟩, rfl⟩
    | exact ⟨fun x => x, fun x => ⟨rfl, fun _ => rfl, rfl⟩, hid⟩

theorem World.field_eq {x y : World} (off lo n : Nat) (h : y.reg off = x.reg off) : y.fieldOf off lo n = x.fieldOf off lo n := by unfold World.fieldOf; rw [h]

theorem World.bit_field (x : World) (off i : Nat) : bit (x.reg off).toNat i = decide (x.fieldOf off i 1 = 1) := by
  unfold bit World.fieldOf field; rfl

/-- A change of world `w` after a calm change. -/
theorem becomes_mod {s t : State} {w : Nat} {x : World} (h : OnlyLogged s t) (hx : s.world? w = some x) (f : World → World) (hf : ∀ z, (f z).w = z.w) (P : World → Prop) (hP : P (f x)) :
    Becomes s w (.next (t.modWorld w f)) P := by
  have hw : ∀ v, t.world? v = s.world? v := fun v => by unfold State.world?; rw [h.worlds]
  refine ⟨_, f x, rfl, ?_, hP, ⟨h.mem, h.groups, h.blocks, h.chains, h.launches, h.pot, fun v hv => ?_, h.now⟩⟩
  · rw [State.world?_modWorld t _ _ f hf, if_pos rfl, hw, hx]; rfl
  · rw [State.world?_modWorld t _ _ f hf, if_neg hv, hw]

/-- The same, then a note of the command at the head. -/
theorem becomes_note {s t : State} {w lvl : Nat} {x : World} (h : OnlyLogged s t) (hx : s.world? w = some x) (f : World → World) (hf : ∀ z, (f z).w = z.w) (P : World → Prop)
    (hP : ∀ y, (∀ off, y.reg off = (f x).reg off) → y.taken = (f x).taken → P y) : Becomes s w (.next ((t.modWorld w f).noteHead w lvl)) P := by
  obtain ⟨g, hg, he⟩ := noteHead_world (t.modWorld w f) w lvl w
  rw [he]
  have e2 : (t.modWorld w f).modWorld w g = t.modWorld w fun x => g (f x) := by
    unfold State.modWorld
    simp only [List.map_map]
    congr 1
    refine List.map_congr_left fun y _ => ?_
    simp only [Function.comp]
    by_cases hy : y.w = w
    · rw [if_pos hy, if_pos (by rw [hf]; exact hy), if_pos hy]
    · rw [if_neg hy, if_neg hy, if_neg hy]
  rw [e2]
  exact becomes_mod h hx _ (fun z => by rw [(hg _).1, hf]) P (hP _ (hg _).2.1 (hg _).2.2)

theorem modWorld_modWorld (t : State) (w : Nat) (f g : World → World) (hf : ∀ z, (f z).w = z.w) : (t.modWorld w f).modWorld w g = t.modWorld w fun x => g (f x) := by
  unfold State.modWorld
  simp only [List.map_map]
  congr 1
  refine List.map_congr_left fun y _ => ?_
  simp only [Function.comp]
  by_cases hy : y.w = w
  · rw [if_pos hy, if_pos (by rw [hf]; exact hy), if_pos hy]
  · rw [if_neg hy, if_neg hy, if_neg hy]

theorem qSize_le (x : World) (lvl : Nat) : x.qSize lvl ≤ 2 ^ 16 := by
  unfold World.qSize ringLog
  refine Nat.pow_le_pow_right (by omega) ?_
  split
  · rename_i h; simp at h; omega
  · omega

theorem qStop_set {x y : World} {lvl : Nat} (hy : y.reg (rQCTL lvl) = (x.setField (rQCTL lvl) 9 1 0).reg (rQCTL lvl)) : y.qStop lvl = false := by
  unfold World.qStop
  rw [World.bit_field, World.field_eq _ _ _ hy, World.fieldOf_setField _ _ _ _ _ (by omega)]
  decide

theorem qEn_stop {x y : World} {lvl v : Nat} (hy : y.reg (rQCTL lvl) = (x.setField (rQCTL lvl) 9 1 v).reg (rQCTL lvl)) : y.qEn lvl = x.qEn lvl := by
  unfold World.qEn
  rw [World.bit_field, World.bit_field, World.field_eq _ _ _ hy, World.fieldOf_setField_other _ _ _ _ _ _ _ (by omega) (by omega)]

theorem qSize_stop {x y : World} {lvl v : Nat} (hy : y.reg (rQCTL lvl) = (x.setField (rQCTL lvl) 9 1 v).reg (rQCTL lvl)) : y.qSize lvl = x.qSize lvl := by
  unfold World.qSize
  rw [World.field_eq _ _ _ hy, World.fieldOf_setField_other _ _ _ _ _ _ _ (by omega) (by omega)]

theorem upd3 (X : World) (a b : List (Nat × Nat)) (c : List BarrierRec) :
    ({ X with taken := a, ready := b, barriers := c } : World).w = X.w ∧ (∀ off, ({ X with taken := a, ready := b, barriers := c } : World).reg off = X.reg off) ∧
    ({ X with taken := a, ready := b, barriers := c } : World).taken = a := ⟨rfl, fun _ => rfl, rfl⟩

theorem passHead_world (s : State) (w lvl : Nat) : ∃ f : World → World, (∀ x, (f x).w = x.w ∧ HeadPassed x (f x) lvl) ∧ s.passHead w lvl = s.modWorld w f := by
  unfold State.passHead
  obtain ⟨g, hg, he⟩ := noteHead_world (s.modWorld w fun x =>
    { (x.setField (rQHEAD lvl) 0 16 ((x.qHead lvl + 1) % x.qSize lvl)) with
      taken := put x.taken lvl (look 0 x.taken lvl + 1), ready := put x.ready lvl 0,
      barriers := x.barriers.filter fun b => b.lvl ≠ lvl }) w lvl w
  rw [he, modWorld_modWorld _ _ _ _ (fun z => (upd3 _ _ _ _).1.trans (World.setField_w _ _ _ _ _))]
  refine ⟨_, fun x => ⟨?_, ?_, ?_, ?_⟩, rfl⟩
  · rw [(hg _).1]; exact (upd3 _ _ _ _).1.trans (World.setField_w _ _ _ _ _)
  · intro off ho
    rw [(hg _).2.1, (upd3 _ _ _ _).2.1]
    exact World.reg_setField_other _ _ _ _ _ _ ho
  · unfold World.qHead
    refine (World.field_eq _ _ _ (((hg _).2.1 _).trans ((upd3 _ _ _ _).2.1 _))).trans ?_
    rw [World.fieldOf_setField _ _ _ _ _ (by omega)]
    exact Nat.mod_eq_of_lt (Nat.lt_of_lt_of_le (Nat.mod_lt _ (Nat.two_pow_pos _)) (qSize_le x lvl))
  · rw [(hg _).2.2, (upd3 _ _ _ _).2.2, look_put, if_pos rfl]

theorem queueSkip_becomes {s t : State} {w lvl : Nat} {x : World} (h : OnlyLogged s t) (hx : s.world? w = some x) (hs : x.qStop lvl = true) :
    Becomes s w (.next (t.queueSkip w lvl)) fun y => SameRegsBut x y [rQCTL lvl, rQHEAD lvl] ∧ y.qStop lvl = false ∧ y.qEn lvl = x.qEn lvl ∧
      y.qHead lvl = (x.qHead lvl + 1) % x.qSize lvl ∧ look 0 y.taken lvl = look 0 x.taken lvl + 1 := by
  have hw : t.world? w = some x := by unfold State.world?; rw [h.worlds]; exact hx
  unfold State.queueSkip
  rw [hw]
  simp only [hs, if_true]
  obtain ⟨f, hf, he⟩ := passHead_world (t.modWorld w fun x => x.setField (rQCTL lvl) 9 1 0) w lvl
  rw [he, modWorld_modWorld _ _ _ _ (fun z => World.setField_w _ _ _ _ _)]
  have hne : rQHEAD lvl ≠ rQCTL lvl := by unfold rQHEAD rQCTL; omega
  obtain ⟨-, h1, h2, h3⟩ := hf (x.setField (rQCTL lvl) 9 1 0)
  refine becomes_mod h hx _ (fun z => (hf _).1.trans (World.setField_w _ _ _ _ _)) _ ⟨fun off ho => ?_, ?_, ?_, ?_, ?_⟩
  · simp only [List.mem_cons, List.not_mem_nil, or_false, not_or] at ho
    exact (h1 off ho.2).trans (World.reg_setField_other _ _ _ _ _ _ ho.1)
  · exact qStop_set (h1 _ hne.symm)
  · exact qEn_stop (h1 _ hne.symm)
  · rw [h2]
    have e1 : (x.setField (rQCTL lvl) 9 1 0).qHead lvl = x.qHead lvl := by
      unfold World.qHead; exact World.field_eq _ _ _ (World.reg_setField_other _ _ _ _ _ _ hne)
    have e2 : (x.setField (rQCTL lvl) 9 1 0).qSize lvl = x.qSize lvl := qSize_stop (v := 0) rfl
    rw [e1, e2]
  · rw [h3]; rfl

theorem reg_setReg (z : World) (off : Nat) (v : DWord) (o : Nat) : (z.setReg off v).reg o = if o = off then v else z.reg o := by
  unfold World.setReg World.reg; rw [SMap.get_set]

theorem queueClear_becomes {s t : State} {w lvl : Nat} {x : World} (h : OnlyLogged s t) (hx : s.world? w = some x) (hs : x.qEn lvl = false) :
    Becomes s w (.next (t.queueClear w lvl)) fun y => SameRegsBut x y [rQCTL lvl, rQHEAD lvl, rQTAIL lvl] ∧ y.qStop lvl = false ∧ y.qEn lvl = false ∧
      y.fieldOf (rQCTL lvl) 16 8 = 0 ∧ y.reg (rQHEAD lvl) = 0 ∧ y.reg (rQTAIL lvl) = 0 := by
  unfold State.queueClear
  have n1 : rQHEAD lvl ≠ rQCTL lvl := by unfold rQHEAD rQCTL; omega
  have n2 : rQTAIL lvl ≠ rQCTL lvl := by unfold rQTAIL rQCTL; omega
  have n3 : rQTAIL lvl ≠ rQHEAD lvl := by unfold rQTAIL rQHEAD; omega
  refine becomes_mod h hx _ (fun z => ?_) _ ?_
  · split
    · rfl
    · refine (upd3 _ _ _ _).1.trans ?_
      exact (World.setField_w (z.setField (rQCTL lvl) 9 1 0) (rQCTL lvl) 16 8 0).trans (World.setField_w z _ _ _ _)
  simp only [hs, Bool.false_eq_true, if_false]
  generalize hz : (x.setField (rQCTL lvl) 9 1 0).setField (rQCTL lvl) 16 8 0 = z
  have hr : ∀ o, o ≠ rQHEAD lvl → o ≠ rQTAIL lvl → ((z.setReg (rQHEAD lvl) 0).setReg (rQTAIL lvl) 0).reg o = z.reg o := fun o h1 h2 => by
    rw [reg_setReg, if_neg h2, reg_setReg, if_neg h1]
  have e9 : z.fieldOf (rQCTL lvl) 9 1 = 0 := by
    rw [← hz, World.fieldOf_setField_other _ _ _ _ _ _ _ (by omega) (by omega), World.fieldOf_setField _ _ _ _ _ (by omega), Nat.zero_mod]
  have e8 : z.fieldOf (rQCTL lvl) 8 1 = x.fieldOf (rQCTL lvl) 8 1 := by
    rw [← hz, World.fieldOf_setField_other _ _ _ _ _ _ _ (by omega) (by omega), World.fieldOf_setField_other _ _ _ _ _ _ _ (by omega) (by omega)]
  have e16 : z.fieldOf (rQCTL lvl) 16 8 = 0 := by rw [← hz, World.fieldOf_setField _ _ _ _ _ (by omega), Nat.zero_mod]
  have eo : ∀ o, o ≠ rQCTL lvl → z.reg o = x.reg o := fun o ho => by rw [← hz, World.reg_setField_other _ _ _ _ _ _ ho, World.reg_setField_other _ _ _ _ _ _ ho]
  unfold SameRegsBut World.qStop World.qEn World.fieldOf
  simp only [(upd3 _ _ _ _).2.1]
  refine ⟨fun off ho => ?_, ?_, ?_, ?_, ?_, ?_⟩
  · simp only [List.mem_cons, List.not_mem_nil, or_false, not_or] at ho
    exact (hr off ho.2.1 ho.2.2).trans (eo _ ho.1)
  · rw [hr (rQCTL lvl) n1.symm n2.symm, World.bit_field, e9]; decide
  · rw [hr (rQCTL lvl) n1.symm n2.symm, World.bit_field, e8, ← World.bit_field]; exact hs
  · rw [hr (rQCTL lvl) n1.symm n2.symm]; exact e16
  · rw [reg_setReg, if_neg n3.symm, reg_setReg, if_pos rfl]
  · rw [reg_setReg, if_pos rfl]

end Sys2Proof.Machine
end

