-- ==== Sys2Proof/Tests/Slice0.lean ====
section
/-! SUPPORT. Tests: words of the spec and what they decode to, terms that are not well-formed, single steps on small states, and states that meet the hypotheses of the statements. -/

namespace Sys2Proof.Tests

/-! ### Words of the spec decode to the instructions they stand for

Words in hexadecimal are those that the spec prints (Tables 07-9, 07-10, 08-2, 08-7, 09-10, 10-2, 10-6, 10-11, 17-5, 17-7, 18-3, 18-8, 19-5, 19-9, and R193's examples); the others are
laid out field by field from Table 07-2 and the encoding table of their group. -/

/-- A word of format R or Q, field by field (Table 07-2): OP, GUARD, MOD, D, A, B, and X or C. -/
def wordR (op guard mod d a b x : Nat) : Nat := op * 2 ^ 54 + guard * 2 ^ 50 + mod * 2 ^ 44 + d * 2 ^ 33 + a * 2 ^ 22 + b * 2 ^ 11 + x
/-- Format I: OP, MOD, D, A, IMM22. -/
def wordI (op mod d a imm : Nat) : Nat := op * 2 ^ 54 + mod * 2 ^ 44 + d * 2 ^ 33 + a * 2 ^ 22 + imm
/-- Format M: OP, MOD, D, A, ORD, OFF16. -/
def wordM (op mod d a ord off : Nat) : Nat := op * 2 ^ 54 + mod * 2 ^ 44 + d * 2 ^ 33 + a * 2 ^ 22 + ord * 2 ^ 16 + off
/-- A pair: EXT with hi fields 0, AUX and IMM-hi, then a word. -/
def wordExt (aux imm w : Nat) : Nat := 2 ^ 54 + aux * 2 ^ 24 + imm + w * 2 ^ 64
def h0 : Hdr := ⟨false, 0, false⟩
def he : Hdr := ⟨false, 0, true⟩
def v (n : Nat) : Opnd := ⟨.v, n⟩
def sr (n : Nat) : Opnd := ⟨.s, n⟩
def hr (n : Nat) : Opnd := ⟨.h, n⟩
/-- Every word of the list decodes to its instruction. -/
def Decodes (l : List (Nat × Instr)) : Prop := ∀ p ∈ l, decodeTableWord 128 p.1 = some p.2
def glb (o : Order) (sc : Scope) : Acc := ⟨.glob, .b32, false, o, sc, false, false⟩

theorem test_words_control : Decodes
  [(0, .nop h0), (0x008804FFFFFFFFFA, .bra ⟨false, 2, false⟩ true 0xFFFFFFFFFA), (0x0084000000000015, .bra ⟨false, 1, false⟩ false 0x15),
   (wordR 0x003 0 0 0 5 0 0x090, .brx h0 true (sr 5)), (4 * 2 ^ 54 + 5, .call h0 5), (wordR 0x005 0 0 0 6 0 0, .callx h0 (v 6)),
   (wordR 0x006 0 0 0 0 0 0, .ret h0), (0x01C00004003FFFFF, .loop h0 (v 2) 0xFFFFFFFF), (0x0200000000000000, .exit h0)] := by unfold Decodes; decide

theorem test_words_waits : Decodes
  [(0x0240800002000064, .waitr h0 1 (v 8) (.imm 100)), (wordR 0x00A 0 0 0 4 0 0x080, .sync h0 (sr 4)), (wordR 0x00B 0 0 0 0 0 0, .yield h0),
   (wordI 0x00F 0 0 0 20, .pause h0 20), (wordI 0x00C 0 0 0 7, .brk h0 7), (wordI 0x00D 0 0 0 9, .trap h0 9), (0x0380000000000001, .tret h0 true),
   (0xC140000E01002800, .emul h0 5 0xE01002800 0)] := by unfold Decodes; decide

theorem test_words_integer : Decodes
  [(0x1000000200401000, .iadd h0 .z32 false (v 1) (v 1) (v 2)), (wordR 0x041 0 5 3 4 5 0, .isub h0 .s32 true (v 3) (v 4) (v 5)),
   (0x1080201400801801, .iaddc h0 .z32 true 1 (v 10) (v 2) (v 3)), (wordR 0x043 0 4 3 4 0 0, .ineg h0 .s32 false (v 3) (v 4)),
   (wordR 0x044 0 0xC 2 4 0 0, .iabs h0 .s64 false (v 2) (v 4)), (wordR 0x045 0 0 3 4 5 0, .imin h0 .z32 (v 3) (v 4) (v 5)),
   (wordR 0x046 0 4 3 4 5 0, .imax h0 .s32 (v 3) (v 4) (v 5)), (wordR 0x047 0 0 3 4 5 0x2A0, .imul h0 .z32 (sr 3) (sr 4) (sr 5)),
   (wordR 0x048 0 4 3 4 5 0, .imulh h0 .s32 (v 3) (v 4) (v 5))] := by unfold Decodes; decide

theorem test_words_integer_more : Decodes
  [(wordR 0x049 0 0 3 4 5 6, .imad h0 .z32 (v 3) (v 4) (v 5) (v 6)), (wordR 0x04A 0 4 2 4 5 6, .imadw h0 .s32 (v 2) (v 4) (v 5) (v 6)),
   (wordR 0x04B 0 4 3 4 5 0, .idiv h0 .s32 (v 3) (v 4) (v 5)), (wordR 0x04C 0 0 3 4 5 0, .irem h0 .z32 (v 3) (v 4) (v 5)),
   (wordR 0x04D 0 4 3 4 5 6, .isad h0 .s32 (v 3) (v 4) (v 5) (v 6)), (wordR 0x04E 0 0 3 4 5 3, .iscadd h0 .z32 (v 3) (v 4) (v 5) 3),
   (wordR 0x04F 0 0x12 3 4 5 6, .idp4 h0 false true (v 3) (v 4) (v 5) (v 6)), (0x1400000400000001, .iaddi h0 .z32 false (v 2) (v 0) 1),
   (wordI 0x051 0 3 4 0x3FFFFF, .imuli h0 .z32 (v 3) (v 4) 0xFFFFFFFF)] := by unfold Decodes; decide

theorem test_words_logic : Decodes
  [(wordR 0x080 0 0 3 4 5 0, .and h0 false (v 3) (v 4) (v 5)), (wordR 0x081 0 8 2 4 6 0, .or h0 true (v 2) (v 4) (v 6)),
   (wordR 0x082 0 0 3 4 5 0, .xor h0 false (v 3) (v 4) (v 5)), (wordR 0x083 0 0 3 4 5 0, .andn h0 false (v 3) (v 4) (v 5)),
   (wordR 0x084 0 0 3 4 5 0, .orn h0 false (v 3) (v 4) (v 5)), (wordR 0x085 0 0 3 4 0 0, .not h0 false (v 3) (v 4)),
   (wordR 0x086 0 0 3 4 5 0, .shl h0 false (v 3) (v 4) (.reg (v 5))), (wordR 0x087 0 0 3 4 5 0x10, .shr h0 false (v 3) (v 4) (.imm 5)),
   (wordR 0x088 0 4 3 4 31 0x10, .sar h0 false (v 3) (v 4) (.imm 31)), (wordR 0x089 0 8 2 4 63 0x10, .rot h0 true (v 2) (v 4) (.imm 63)),
   (0x2280006E0CC19039, .fshl h0 false (v 55) (v 51) (v 50) (v 57))] := by unfold Decodes; decide

theorem test_words_bits : Decodes
  [(wordR 0x08B 0 4 3 4 5 6, .bfx h0 .s32 (v 3) (v 4) (v 5) (v 6)), (wordR 0x08C 0 0 3 4 5 6, .bfi h0 false (v 3) (v 4) (v 5) (v 6)),
   (wordR 0x08D 0 8 3 4 0 0, .popc h0 true (v 3) (v 4)), (wordR 0x08E 0 0 3 4 0 0, .clz h0 false (v 3) (v 4)),
   (wordR 0x08F 0 0 3 4 0 0, .ctz h0 false (v 3) (v 4)), (wordR 0x090 0 0 3 4 0 0, .brev h0 false (v 3) (v 4)),
   (wordR 0x091 0 0 3 4 5 6, .prmt h0 (v 3) (v 4) (v 5) (v 6)), (0x2480400401403828, .icmp h0 .lt .s32 2 (v 5) (sr 7)),
   (wordR 0x093 0 0 1 2 3 8, .plut h0 1 2 3 8), (0x2500001A02C06001, .pick h0 false (v 13) (v 11) (v 12) 1),
   (wordI 0x095 2 3 4 0x55, .lopi h0 .xor false (v 3) (v 4) 0x55)] := by unfold Decodes; decide

theorem test_words_moves : Decodes
  [(wordR 0x0C0 0 1 2 4 0 0, .mov h0 true (v 2) (v 4)), (wordI 0x0C1 0 3 0 0x12345678, .movi h0 false (v 3) 0x12345678),
   (0x3080000000C00000, .movs h0 (v 0) .lane), (0x30C0000A00800000, .movp h0 (.get (v 5) 2)), (0x310000780DC00000, .rdreg h0 .v (v 60) (v 55)),
   (0x314000000D820000, .wrreg h0 .v (v 54) (v 64)), (wordR 0x0CB 0 1 3 0 0 0, .rdmode h0 true (v 3)), (wordR 0x0CC 0 0 0 4 0 0x080, .wrmode h0 false (sr 4)),
   (wordR 0x0CD 0 0 4 3 0 0, .rdsc h0 (v 4) 3), (wordR 0x0CE 0 0 3 5 0 0x080, .wrsc h0 3 (sr 5)), (wordI 0x0CF 0 8 0 16, .addrg h0 (v 8) 16)] := by
  unfold Decodes; decide

theorem test_words_conversions : Decodes
  [(0x3181001400000004, .cvtf h0 .e4m3 .f32 false false false .rne (v 10) (v 0)), (0x3181007C0F000000, .cvtf h0 .e4m3 .f32 false false false .dyn (v 62) (v 60)),
   (wordR 0x0C7 0 4 3 4 0 8, .cvtfi h0 .s32 .f32 .rz (v 3) (v 4)), (wordR 0x0C8 0 0 3 4 1 4, .cvtif h0 .f32 .s32 .rne (v 3) (v 4)),
   (0x3241102803006814, .pack h0 .w8 1 (v 20) (v 12) (v 13) (v 20)), (wordR 0x0CA 0 0x12 3 4 3 0, .unpack h0 .w8 true 3 (v 3) (v 4))] := by unfold Decodes; decide

theorem test_words_float : Decodes
  [(0x400C000800401004, .fadd ⟨false, 3, false⟩ .f32 .rne (v 4) (v 1) (v 2)), (0x4040000000402C24, .fsub h0 .f32 .rne (hr 0) (v 1) (sr 5)),
   (0x4080000000401404, .fmul h0 .f32 .rne (hr 0) (v 1) (v 2)), (0x40C00002EE002801 * 2 ^ 64 + 0x004001002000000E, .ffma he .f32 .ru (hr 1) (v 3000) (v 5) (hr 1)),
   (wordR 0x104 0 0 3 4 5 0, .fmin h0 .f32 (v 3) (v 4) (v 5)), (wordR 0x105 0 4 3 4 5 0, .fmax h0 .f16 (v 3) (v 4) (v 5)),
   (wordR 0x106 0 8 3 4 5 0, .fminm h0 .bf16 (v 3) (v 4) (v 5)), (wordR 0x107 0 0x24 3 4 5 0, .fmaxm h0 .f16x2 (v 3) (v 4) (v 5)),
   (wordR 0x108 0 0 3 4 0 0, .fabs h0 .f32 (v 3) (v 4)), (wordR 0x109 0 0xC 2 4 0 0, .fneg h0 .f64 (v 2) (v 4)),
   (wordR 0x10A 0 0 3 4 5 0, .fcpys h0 .f32 (v 3) (v 4) (v 5))] := by unfold Decodes; decide

theorem test_words_float_more : Decodes
  [(wordR 0x10B 0 2 1 4 5 2, .fcmp h0 .ltu .f32 1 (v 4) (v 5)), (wordR 0x10C 0 0 3 4 0 0, .fclass h0 .f32 (v 3) (v 4)),
   (wordR 0x10D 0 0 3 4 0 0x9, .frint h0 .f32 .rz true (v 3) (v 4)), (wordR 0x10E 0 0 3 4 5 4, .fdiv h0 .f32 .rne (v 3) (v 4) (v 5)),
   (wordR 0x10F 0 0 3 4 0 4, .fsqrt h0 .f32 .rne (v 3) (v 4)), (wordR 0x110 0 0 3 4 0 4, .frcp h0 .rne (v 3) (v 4)),
   (wordR 0x111 0 0 3 4 0 4, .frsq h0 .rne (v 3) (v 4)), (wordR 0x112 0 0 3 4 5 4, .fscale h0 .f32 .rne (v 3) (v 4) (v 5)),
   (wordR 0x113 0 0x25 3 4 5 6, .fdot2 h0 .f16x2 .rne (v 3) (v 4) (v 5) (v 6)), (0x5000000200000504, .fex2 h0 .rne (hr 1) (hr 0)),
   (wordR 0x141 0 0 3 4 0 4, .flg2 h0 .rne (v 3) (v 4))] := by unfold Decodes; decide

theorem test_words_elementary : Decodes
  [(wordR 0x142 0 0 3 4 0 4, .fsinp h0 .rne (v 3) (v 4)), (wordR 0x143 0 0 3 4 0 8, .fcosp h0 .rz (v 3) (v 4)), (wordR 0x144 0 0 3 4 0 0x10, .ftanh h0 .rd (v 3) (v 4)),
   (wordR 0x145 0 0 3 4 0 0, .fsigm h0 .dyn (v 3) (v 4)), (0x5180000800000104, .hmov h0 .f32 .rne false (v 4) (hr 0))] := by unfold Decodes; decide

theorem test_words_lanes : Decodes
  [(0x6000300A00C02020, .shfl h0 .xor false (v 5) (v 3) (v 4) 32), (wordR 0x181 0 0 3 4 7 0x10, .rdlane h0 false (v 3) (v 4) (.imm 7)),
   (wordR 0x182 0 0 3 4 7 0x90, .wrlane h0 (v 3) (sr 4) (.imm 7)), (0x60C0000C00002220, .vote h0 .ballot (.reg (sr 6)) 0 (sr 4)),
   (wordR 0x184 0 0 3 4 5 0x20, .matchl h0 false false (.reg (v 3)) (v 4) (sr 5)), (0x6140400800C0F228, .redux h0 .max .s32 (sr 4) (v 3) (sr 30)),
   (wordR 0x186 0 0 3 4 5 0x24, .fredux h0 .add .f32 .rne (v 3) (v 4) (sr 5)), (wordR 0x187 0 0 3 4 5 0x22, .scan h0 .add .z32 true (v 3) (v 4) (sr 5)),
   (wordR 0x188 0 1 3 4 5 0x24, .fscan h0 .min .f32 .rne false (v 3) (v 4) (sr 5)), (0x6240000400000000, .regroup h0 false 2),
   (wordR 0x18A 0 0 3 1 5 0x20, .elect h0 (v 3) 1 (sr 5))] := by unfold Decodes; decide

theorem test_words_memory : Decodes
  [(0x7002301000800040, .ld h0 ⟨.scr, .b32, true, .plain, .none, false, false⟩ 0x40 (v 8) (v 2)),
   (0x7002200400400000, .ld h0 ⟨.scr, .b32, false, .plain, .none, false, false⟩ 0 (v 2) (v 1)),
   (0x7042800C01260008, .st h0 ⟨.glob, .b64, false, .acqrel, .prt, false, false⟩ 8 (v 6) (v 4)),
   (wordExt 4 0 (wordM 0x1C2 0x22 3 4 0 8), .lds he ⟨.scr, .b32, false, .plain, .none, false, false⟩ 8 (v 3) (sr 4)),
   (wordExt 4 0 (wordM 0x1C3 0x22 3 4 0 8), .sts he ⟨.scr, .b32, false, .plain, .none, false, false⟩ 8 (v 3) (sr 4)),
   (wordExt 4 0 (wordM 0x1C4 0x22 16 4 0 64), .ldt he false 64 (v 16) (sr 4)), (wordExt 4 0 (wordM 0x1C5 0x23 16 4 0 64), .stt he true 64 (v 16) (sr 4)),
   (0x718E000609000000, .put ⟨false, 3, false⟩ (glb .plain .none) 0 (v 3) (v 36)), (wordM 0x1C7 0 0 4 0 0x10, .pref h0 false 0x10 (v 4)),
   (wordM 0x1C8 0 3 4 0 0xFFF0, .lease h0 false 0xFFFFFFF0 (v 3) (v 4)), (wordExt 0x14 0 (wordM 0x1C9 0x22 3 4 0 16), .szero he false 16 (sr 3) (sr 4))] := by
  unfold Decodes; decide

theorem test_words_atomics : Decodes
  [(0x800200140096000B, .atom h0 (glb .rlx .prt) .add (v 10) (v 2) 11), (wordM 0x201 0x20 10 2 0x16 (4 * 2 ^ 11 + 11), .atomf h0 (glb .rlx .prt) .minF32 (v 10) (v 2) 11),
   (0x8082000A08160001, .xchg h0 (glb .rlx .prt) (v 5) (v 32) 1), (wordM 0x203 0x20 5 2 0x16 12, .cas h0 (glb .rlx .prt) (v 5) (v 2) 12),
   (wordM 0x204 0x20 0 2 0x16 (6 * 2 ^ 11 + 11), .red h0 (glb .rlx .prt) .or (v 2) 11), (0x814200001C980074, .redf h0 (glb .rlx .sys) .addF32 (v 114) 116),
   (0x8180000800002010, .backoff h0 (v 4) 16 4)] := by unfold Decodes; decide

theorem test_words_synchronisation : Decodes
  [(wordM 0x240 0x20 0 0 0x26 0, .fence h0 true .acqrel .prt), (wordI 0x241 0 0 0 (64 * 2 ^ 8 + 3), .bar h0 3 64), (wordI 0x242 0 0 0 3, .bararr h0 3 0),
   (0x90C0000000000000, .sstep h0), (wordR 0x244 0 0 0 0 0 0, .sstarr h0), (wordR 0x245 0 0 0 0 0 0, .sstwait h0), (wordR 0x246 0 0 3 5 0 0, .qstat h0 (v 3) 5),
   (0x91C0005406A60000, .semsig h0 .add false .acqrel .prt 0 (v 42) (v 26)), (wordM 0x248 8 42 26 0x26 0, .semwait h0 .ge false .acqrel .prt 0 (v 42) (v 26))] := by
  unfold Decodes; decide

theorem test_words_matrix : Decodes
  [(0xA001020000020712, .mma h0 .e4m3 true true false (some (1, 2)) 256 0 64),
   (0xA041100010003312 * 2 ^ 64 + 0x0040000008000000, .mmas he .e4m3 true false false (some (1, 2)) false true true false 0 64 6),
   (wordExt 0x18 0 (wordR 0x282 0 0x10 256 0 4 0x600), .mmasp he .e4m3 true true false none false false true false true 256 0 4),
   (0xA0C0000000000000, .mwait h0 0), (wordR 0x284 0 0 0 0 0 0, .mfence h0), (wordR 0x285 0 0 64 0 0 0x200, .mzero h0 true 64)] := by unfold Decodes; decide

theorem test_words_system : Decodes
  [(wordR 0x2C0 0 0 0 4 0 0x080, .cpchain h0 (sr 4)), (wordI 0x2C1 0 0 0 2, .cpwait h0 2), (wordR 0x2C2 0 0 3 1 0 0, .cptest h0 (v 3) 1),
   (wordR 0x2C3 0 0 3 4 0 0x080, .launch h0 (v 3) (sr 4)), (wordR 0x2C4 0 0 4 0 0 1, .gettime h0 true (v 4)), (wordR 0x2C5 0 0 4 39 0 0, .perfrd h0 (v 4) 39),
   (wordI 0x2C6 0 0 4 0x1234, .trace h0 (v 4) 0x1234)] := by unfold Decodes; decide

/-- Chain entries (Tables 04-1 to 04-4), field by field. -/
theorem test_entries : ∀ p ∈
  [(0, Instr.chainEnd), (1 + 2 ^ 9 + 64 * 2 ^ 32 + 0x1000 * 2 ^ 128 + 0x200 * 2 ^ 192, .chainCopy1d ⟨false, true, false, false, false, false, 0⟩ 64 0x1000 0x200),
   (0x000000800020AA02 + 0x0000008000000080 * 2 ^ 64 + 0x0000001234000000 * 2 ^ 128 + 0x0000000000001000 * 2 ^ 192,
     .chainCopy2d ⟨false, true, false, true, false, true, 2⟩ 32 128 128 128 0x1234000000 0x1000),
   (3 + 4 * 2 ^ 16 + 16 * 2 ^ 32 + 0x40 * 2 ^ 64 + 256 * 2 ^ 96 + 5 * 2 ^ 128 + 7 * 2 ^ 192, .chainGather ⟨false, false, false, false, false, false, 0⟩ 4 16 0x40 256 5 7),
   (4 + 4 * 2 ^ 16 + 16 * 2 ^ 32 + 0x40 * 2 ^ 64 + 256 * 2 ^ 96 + 5 * 2 ^ 128 + 7 * 2 ^ 192, .chainScatter ⟨false, false, false, false, false, false, 0⟩ 4 16 0x40 256 5 7),
   (5 + 2 ^ 9 + 3 * 2 ^ 14 + 8 * 2 ^ 32 + 9 * 2 ^ 64 + 0x80 * 2 ^ 192, .chainFill ⟨false, true, false, false, false, false, 3⟩ 8 9 0x80),
   (6 + 3 * 2 ^ 16 + 2 * 2 ^ 32, .chainLoop 3 2), (7 + 2 ^ 8 + 2 * 2 ^ 16 + 1 * 2 ^ 32 + 5 * 2 ^ 64 + 0x20 * 2 ^ 128, .ifsem ⟨true, false, false, false, false, false, 0⟩ .ge 1 5 0x20),
   (8 + 2 ^ 16 + 1 * 2 ^ 64, .chainSignal false true 1 0)], decodeEntry p.1 = some p.2 := by decide

/-- Entries that R110 stops: a reserved TYPE, a reserved bit, a scratch address of more than 32 bits, IFSEM 12, BACK 0, SIGNAL with WICK and an address. -/
theorem test_bad_entries : ∀ e ∈ [9, 2 ^ 16, 1 + 2 ^ 8 + 2 ^ (128 + 32), 7 + 12 * 2 ^ 16, 6 + 3 * 2 ^ 16, 8 + 2 ^ 16 + 2 ^ 128], decodeEntry e = none := by decide

/-- Queue commands (Tables 11-2 and 11-3). -/
theorem test_commands : ∀ p ∈
  [(2 + 2 * 2 ^ 8 + 0x1000 * 2 ^ 64 + 7 * 2 ^ 128, Instr.cmdWait .ge 0x1000 7), (3 + 1 * 2 ^ 8 + 0x1000 * 2 ^ 64 + 7 * 2 ^ 128, .cmdSignal .or 0x1000 7), (5, .cmdFence),
   (6 + 5 * 2 ^ 8, .cmdBarrier 5), (4 + 3 * 2 ^ 32 + 1 * 2 ^ 64 + 2 ^ 95 + 0x2000 * 2 ^ 128 + 0x3000 * 2 ^ 192, .replace 3 ⟨1, true, 0x2000, 0x3000⟩)],
  decodeCommand p.1 = some p.2 := by decide

/-! ### Words the decoder refuses, with the reason of Table 07-8, and terms that are not well-formed -/

theorem test_reasons : ∀ p ∈
  [(wordR 0x010 0 0 0 0 0 0, 1), (wordR 0x3F0 0 0 0 0 0 0, 2), (wordR 0x000 0 0 1 0 0 0, 3), (wordR 0x040 0 0 1 1 2 1, 3), (wordR 0x092 0 4 2 5 7 0x38, 4),
   (wordR 0x006 0 0 0 0 0 0 + 2 ^ 43 + 2 ^ 40, 3)], decodeWord false false p.1 none = .error p.2 := by decide

/-- An odd 64-bit register, an s destination from a v source, and h outside the float group break static rules. -/
theorem test_ill_formed : Instr.wf false (.iadd h0 .z64 false (v 1) (v 2) (v 4)) = false ∧ Instr.wf false (.iadd h0 .z32 false (sr 1) (v 2) (v 4)) = false ∧
    Instr.wf false (.iadd h0 .z32 false (hr 1) (v 2) (v 4)) = false ∧ Instr.wf false (.iadd h0 .z32 false (v 1) (v 2) (v 4)) = true := by decide


open Sys2Proof.Machine

/-! ### Small states -/

/-- Four NOPs as TEXT, one thread, which issues the first. -/
def one : State := { State.reset.running [0, 0, 0, 0] with issuer := some ⟨⟨0, 0, 0⟩, 0, 1, 8, 0⟩ }
/-- The state with the running group changed. -/
def oneG (f : Group → Group) : State := one.modGroup ⟨0, 0, 0⟩ f
/-- Two threads in one fragment. -/
def two : State :=
  { (one.modGroup ⟨0, 0, 0⟩ fun g => { g with live := 3, tids := [(0, 0), (1, 1)], frags := [mkFrag 0 3] }) with issuer := some ⟨⟨0, 0, 0⟩, 0, 3, 8, 0⟩ }
def twoG (f : Group → Group) : State := two.modGroup ⟨0, 0, 0⟩ f
def modBlock (s : State) (f : Block → Block) : State := { s with blocks := s.blocks.map f }
def modLaunch (s : State) (f : Launch → Launch) : State := { s with launches := s.launches.map f }
def modWorld (s : State) (f : World → World) : State := { s with worlds := s.worlds.map f }
def modPart (s : State) (f : Partition → Partition) : State := { s with parts := s.parts.map f }
/-- The first 1 GiB of HBM of bulkhead 0, mapped at its own address, owned by partition 0 and usable by every world of it. -/
def mapped (s : State) : State :=
  { modPart s (fun p => { p with ptroot := 0x10001 }) with
    mem := [(0x10000, 0x01), (0x10001, 0x10), (0x10002, 0x01), (0x11000, 0x07)], pot := [⟨0, 0x40000, potOf 0 0 true false false false false 0⟩],
    access := (List.range 116).map fun i => (i, 0x81000001) }
/-- The group after an instruction that goes on. -/
def groupAfter (i : Instr) (s : State) : Option Group := match exec i s with | .next t => t.group? ⟨0, 0, 0⟩ | _ => none
/-- Register `r` of lane `l` after an instruction. -/
def vAfter (i : Instr) (s : State) (r l : Nat) : Option Word := (groupAfter i s).map fun g => SMap.get g.v (r * 64 + l)
/-- Where the fragments of the group stand after an instruction. -/
def pcsAfter (i : Instr) (s : State) : Option (List (Word × Mask)) := (groupAfter i s).map fun g => g.frags.map fun f => (f.pc, f.mask)
/-- v4 = x, v5 = y, v6 = z in lane 0. -/
def regs (x y z : Word) : State := oneG fun g => { g with v := [(4 * 64, x), (5 * 64, y), (6 * 64, z)] }

/-! ### Single instructions on small states: values worked out by hand from the rules -/

theorem test_step_movi : (match step (State.reset.withFetchWord 64 (wordI 0x0C1 0 3 0 0x12345)) with
    | .next t => (t.group? ⟨0, 0, 0⟩).map fun g => (SMap.get g.v (3 * 64), g.frags.map fun f => f.pc) | _ => none) = some (0x12345, [8]) := by decide
theorem test_iadd_wraps : vAfter (.iadd h0 .z32 false (v 3) (v 4) (v 5)) (regs 0xFFFFFFFF 2 0) 3 0 = some 1 := by decide
theorem test_iadd_saturates : vAfter (.iadd h0 .s32 true (v 3) (v 4) (v 5)) (regs 0x7FFFFFFF 1 0) 3 0 = some 0x7FFFFFFF := by decide
theorem test_isub_saturates_at_zero : vAfter (.isub h0 .z32 true (v 3) (v 4) (v 5)) (regs 1 2 0) 3 0 = some 0 := by decide
theorem test_imulh_signed : vAfter (.imulh h0 .s32 (v 3) (v 4) (v 5)) (regs 0xFFFFFFFF 1 0) 3 0 = some 0xFFFFFFFF := by decide
theorem test_idiv_by_zero : vAfter (.idiv h0 .s32 (v 3) (v 4) (v 5)) (regs 7 0 0) 3 0 = some 0xFFFFFFFF := by decide
theorem test_irem_sign : vAfter (.irem h0 .s32 (v 3) (v 4) (v 5)) (regs 0xFFFFFFF9 2 0) 3 0 = some 0xFFFFFFFF := by decide
theorem test_shl_full : vAfter (.shl h0 false (v 3) (v 4) (.imm 32)) (regs 1 0 0) 3 0 = some 0 := by decide
theorem test_sar_full : vAfter (.sar h0 false (v 3) (v 4) (.imm 40)) (regs 0x80000000 0 0) 3 0 = some 0xFFFFFFFF := by decide
theorem test_rot_modulo : vAfter (.rot h0 false (v 3) (v 4) (.imm 33)) (regs 0x80000001 0 0) 3 0 = some 3 := by decide
theorem test_clz_zero : vAfter (.clz h0 false (v 3) (v 4)) (regs 0 0 0) 3 0 = some 32 := by decide
theorem test_brev : vAfter (.brev h0 false (v 3) (v 4)) (regs 1 0 0) 3 0 = some 0x80000000 := by decide
theorem test_destination_is_a_source : vAfter (.isub h0 .z32 false (v 4) (v 5) (v 4)) (regs 3 10 0) 4 0 = some 7 := by decide
theorem test_fadd : vAfter (.fadd h0 .f32 .rne (v 3) (v 4) (v 5)) (regs 0x3F800000 0x40000000 0) 3 0 = some 0x40400000 := by decide
theorem test_fdiv_by_zero_flags : (groupAfter (.fdiv h0 .f32 .rne (v 3) (v 4) (v 5)) (regs 0x3F800000 0 0)).map (fun g => (SMap.get g.v (3 * 64), SMap.get g.fpst 0))
    = some (0x7F800000, flDZ) := by decide
theorem test_fadd_rounds_up : vAfter (.fadd h0 .f32 .ru (v 3) (v 4) (v 5)) (regs 0x3F800000 1 0) 3 0 = vAfter (.fadd h0 .f32 .ru (v 3) (v 4) (v 5)) (regs 0x3F800000 2 0) 3 0 := by
  decide
theorem test_icmp_sets_predicate : (groupAfter (.icmp h0 .lt .s32 2 (v 4) (v 5)) (regs 0xFFFFFFFF 0 0)).map (fun g => (g.pred 0 2, g.pred 0 1)) = some (true, false) := by decide
theorem test_icmp_p0_discards : (groupAfter (.icmp h0 .lt .s32 0 (v 4) (v 5)) (regs 1 0 0)).map (fun g => g.pred 0 0) = some true := by decide
theorem test_bra_back : pcsAfter (.bra h0 false 2) one = some [(16, 1)] := by decide
theorem test_bra_splits : pcsAfter (.bra ⟨false, 1, false⟩ false 3) (twoG fun g => { g with p := [(0, 2)] }) = some [(8, 2), (24, 1)] := by decide
theorem test_call_pushes : (groupAfter (.call h0 2) one).map (fun g => (g.stack 0, g.frags.map fun f => f.pc)) = some ([8], [16]) := by decide
theorem test_ret_pops : pcsAfter (.ret h0) (oneG fun g => { g with rets := [(0, [24, 8])] }) = some [(24, 1)] := by decide
theorem test_movs_lane : (groupAfter (.movs h0 (v 3) .lane) two).map (fun g => (SMap.get g.v (3 * 64), SMap.get g.v (3 * 64 + 1))) = some (0, 1) := by decide
theorem test_wrmode_reserved_rounding : (groupAfter (.wrmode h0 false (sr 4)) (oneG fun g => { g with s := [(4, 7)] })).map (fun g => g.fpm) = some 1 := by decide
theorem test_shfl_exchanges : vAfter (.shfl h0 .xor false (v 3) (v 4) (v 5) 32) (twoG fun g => { g with v := [(256, 10), (257, 11), (320, 1), (321, 1)] }) 3 0 = some 11 := by decide
theorem test_redux_adds : vAfter (.redux h0 .add .z32 (v 3) (v 4) (sr 5)) (twoG fun g => { g with v := [(256, 10), (257, 11)], s := [(5, 3)] }) 3 1 = some 21 := by decide
theorem test_vote_all : (groupAfter (.vote h0 .all (.pred 1) 2 (sr 5)) (twoG fun g => { g with p := [(0, 4)], s := [(5, 3)] })).map (fun g => g.pred 0 1) = some false := by decide
theorem test_trap_without_handler_aborts : (match exec (.trap h0 9) one with
    | .next t => (t.launch? 0).map fun l => l.status | _ => none) = some (.aborting Cause.trap 0 false false false 0) := by decide
theorem test_trap_enters_its_handler :
    (groupAfter (.trap h0 9) (modLaunch one fun l => { l with rcd := { l.rcd with flags := 8 }, obj := { l.obj with kernel := { l.obj.kernel with traph := 16 } } })).map
      (fun g => (g.frags.map (fun f => f.pc), g.frame.pc, g.frame.cause, g.frame.info)) = some ([16], 0, BitVec.ofNat 32 Cause.trap, 9) := by decide
theorem test_store_is_in_flight : (match exec (.st h0 (glb .plain .none) 0x200 (v 3) (v 4)) (mapped (regs 0x100 0 0)) with
    | .next t => some (t.pend.map fun p => (p.pa, p.op), Memory.get t.mem 0x300) | _ => none) = some ([(0x300, .bytes [0, 0, 0, 0])], 0) := by decide
theorem test_load_extends : vAfter (.ld h0 ⟨.glob, .s8, false, .plain, .none, false, false⟩ 0 (v 3) (v 4)) (mapped (regs 0x10000 0 0)) 3 0 = some 1 := by decide
theorem test_load_misaligned_traps : (groupAfter (.ld h0 (glb .acqrel .prt) 0 (v 3) (v 4)) (mapped (regs 0x10001 0 0))).map (fun g => g.frame.cause)
    = some (BitVec.ofNat 32 Cause.align) := by decide
theorem test_atom_add : (groupAfter (.atom h0 (glb .rlx .prt) .add (v 3) (v 4) 6) (mapped (regs 0x100 0 7))).map (fun g => g.stuck.isSome) = some true := by decide
theorem test_regroup_block_packs : (groupAfter (.regroup h0 true 2) (twoG fun g => { g with live := 2, tids := [(1, 1)], frags := [mkFrag 0 2] })).isSome = true := by decide
theorem test_pause : (groupAfter (.pause h0 20) one).map (fun g => g.pause) = some (some 20) := by decide
theorem test_cold_boot : (match exec (.coldBoot 0) State.reset with | .next t => t.boot | _ => 0) = 0x105 := by decide
theorem test_exit_ends_the_block : (match exec (.exit h0) one with | .next t => some (t.groups.length, t.blocks.length) | _ => none) = some (0, 0) := by decide

/-! ### States that meet the hypotheses of the statements -/

theorem below {m : Mask} {l : Nat} (h : inMask m l = true) : l < 64 := by
  rcases Nat.lt_or_ge l 64 with g | g
  · exact g
  · simp [inMask, BitVec.getLsbD_of_ge _ _ g] at h
/-- IntegerResults, BitwiseAndShiftResults, FieldResults, PredicateResults, ConversionResults, FloatResults: three sources, and a v destination of one or two words. -/
theorem test_meets_forms_v : ∃ c b u x y, Ready one c h0 (some (v 3, 2)) [(v 4, 1), (v 6, 2), (sr 5, 1)] b [u, x, y] :=
  ⟨_, _, _, _, _, rfl, by decide, rfl, fun _ _ _ => ⟨rfl, fun _ => rfl⟩, fun _ _ h => by cases h⟩
/-- The same with an h destination and source, an s destination, no destination, and no source. -/
theorem test_meets_forms_other : (∃ c b u, Ready one c h0 (some (hr 1, 1)) [(hr 0, 1)] b [u]) ∧ (∃ c b u, Ready two c h0 (some (sr 3, 2)) [(sr 4, 2)] b [u]) ∧
    (∃ c b u x, Ready one c h0 none [(v 4, 1), (v 5, 1)] b [u, x]) ∧ ∃ c b, Ready one c h0 (some (v 65535, 1)) [] b [] :=
  ⟨⟨_, _, _, rfl, by decide, rfl, (fun _ _ h => by cases h), fun _ _ h => by cases h⟩, ⟨_, _, _, rfl, by decide, rfl, (fun _ _ h => by cases h), fun _ _ h => by cases h⟩,
    ⟨_, _, _, _, rfl, by decide, rfl, (fun _ _ h => by cases h), fun _ _ h => by cases h⟩, ⟨_, _, rfl, by decide, rfl, (fun _ _ _ => ⟨rfl, fun _ => rfl⟩), fun _ _ h => by cases h⟩⟩
/-- Queues of one entry: q0 holds one, q1 none. -/
def queued : State := modBlock one fun b => { b with queues := [⟨0, 1, [[(0, 7)]]⟩, ⟨1, 1, []⟩] }
/-- A queue source with an entry and a queue destination with room. -/
theorem test_meets_forms_queue : ∃ c b u, Ready queued c h0 (some (⟨.q, 1⟩, 1)) [(⟨.q, 0⟩, 1)] b [u] ∧ b.queue? 0 = some ⟨0, 1, []⟩ :=
  ⟨_, _, _, ⟨rfl, by decide, rfl, (fun _ _ h => by cases h), fun n k h => by cases h; exact ⟨⟨_, rfl, by decide⟩, by decide, by decide⟩⟩, by decide⟩
/-- QueueOperandsPopPushAndStall: an entry to pop, no such queue, an empty one, a full one; and a stalled group whose queue has an entry, has none, has room, has none. -/
theorem test_meets_queue_stalls : ∃ c, queued.ctx? = some c ∧ c.act h0 ≠ 0 ∧ c.b.queue? 0 = some ⟨0, 1, [[(0, 7)]]⟩ ∧ c.b.queue? 2 = none ∧ c.b.queue? 1 = some ⟨1, 1, []⟩ ∧
    c.b.behind c.is.gid.gi 0 false = false :=
  ⟨_, rfl, by decide, by decide, by decide, by decide, by decide⟩
theorem test_meets_queue_release : ∀ e ∈ [(0, false), (1, false), (1, true), (0, true)],
    let s := modBlock queued fun b => { b with stalled := [(0, e.1, e.2)] }
    (s.group? ⟨0, 0, 0⟩).isSome ∧ (s.block? 0 0).any (fun b => (b.stalled.find? fun y => y.1 = 0) = some (0, e.1, e.2) ∧ (b.queue? e.1).isSome ∧ b.behind 0 e.1 e.2 = false) := by
  decide
/-- OperandsReadTheirRegisters: nothing outstanding names a register. -/
theorem test_meets_no_hazard : ∃ c, one.ctx? = some c ∧ ∀ q, c.g.hazard c.w64 q = false := ⟨_, rfl, fun _ => rfl⟩
/-- BranchesCallsAndReturns: the last word of TEXT and the first are valid targets; the return stack may hold 255 entries, and one. -/
theorem test_meets_branches : ∃ c, one.ctx? = some c ∧ c.act h0 ≠ 0 ∧ c.act ⟨true, 0, false⟩ = 0 ∧ ValidPc c 24 ∧ ValidPc c 0 ∧ Uniform c h0 (fun _ => 24) ∧
    ∀ l, inMask (c.act h0) l = true → (c.g.stack l).length < 256 :=
  ⟨_, rfl, by decide, by decide, ⟨by decide, by decide, by decide⟩, ⟨by decide, by decide, by decide⟩, fun l k h h' => ⟨by rw [show inMask _ l = inMask _ l from rfl]; exact h.trans h'.symm, rfl⟩,
    fun l _ => by show (look [] ([] : List (Nat × List Word)) l).length < 256; simp [look]⟩
theorem test_meets_returns : ∃ c, (oneG fun g => { g with rets := [(0, [16])] }).ctx? = some c ∧ c.g.stack 0 ≠ [] ∧ ∀ l, inMask (c.act h0) l = true → l = 0 :=
  ⟨_, rfl, by decide, fun l h => (by decide : ∀ l < 64, inMask (1 : Mask) l = true → l = 0) l (below h) h⟩
/-- ControlFlowFaults: a target past TEXT, a full return stack, an empty one, no handler, and a guard that splits the fragment. -/
theorem test_meets_control_faults : ∃ c, (twoG fun g => { g with rets := [(0, List.replicate 256 0)], p := [(0, 2)] }).ctx? = some c ∧ c.act h0 ≠ 0 ∧ ¬ ValidPc c 32 ∧
    ¬ ValidPc c (-8) ∧ ¬ ValidPc c 4 ∧ 256 ≤ (c.g.stack 0).length ∧ c.g.stack 1 = [] ∧ c.g.handler = none ∧ ¬ Uniform c ⟨false, 1, false⟩ (fun _ => 0) :=
  ⟨_, rfl, by decide, fun h => absurd h.2.1 (by decide), fun h => absurd h.1 (by decide), fun h => absurd h.2.2 (by decide), Nat.le_of_eq (List.length_replicate (a := (0 : Word))).symm, by decide, rfl,
    fun h => absurd (h 0 1 (by decide) (by decide)).1 (by decide)⟩
/-- LoopYieldPause: a counter of 2 and one of 1, and the target 0. -/
theorem test_meets_loop : ∃ c, (twoG fun g => { g with v := [(256, 2), (257, 1)] }).ctx? = some c ∧ ClearOfMatrix c (some (v 4, 1)) ∧
    (c.readReg 0 1 0 (v 4)).setWidth 32 - 1 ≠ (0 : Word) ∧ (c.readReg 0 1 1 (v 4)).setWidth 32 - 1 = (0 : Word) ∧ ValidPc c 0 :=
  ⟨_, rfl, fun _ _ _ => ⟨rfl, fun _ => rfl⟩, by decide, by decide, by decide, by decide, by decide⟩
/-- SystemReadResults, SpecialRegisters: no replay, and a replay of the partition. -/
theorem test_meets_replay_times : one.replayFrom 0 = none ∧ (modPart one fun p => { p with replayOn := some (5, 3) }).replayFrom 0 = some (5, 3) ∧
    counterListed 39 = true ∧ counterListed 63 = true ∧ counterListed 64 = false := by decide
/-- RegistersByNumber, TretResumes: a handler in which every lane of the fragment runs, and numbers at the limit of their class. -/
def handling : State := oneG fun g => { g with handler := some ⟨1, 8⟩, v := [(256, 65535), (320, 7)] }
theorem test_meets_handler : ∃ c, handling.ctx? = some c ∧ c.g.handler = some ⟨1, 8⟩ ∧ c.act h0 ≠ 0 ∧ (c.readReg 0 1 0 (v 4)).toNat = RegSel.limit .v ∧ (c.readReg 0 1 0 (v 5)).toNat = RegSel.limit .p :=
  ⟨_, rfl, rfl, by decide, by decide, by decide⟩
theorem alone_one (s : State) (c : Ctx) (h : s.ctx? = some c) (a : c.act h0 = c.is.mask) (m : c.is.mask ≠ 0) (l : c.g.live = c.is.mask)
    (f : c.g.frags.map (fun f => (f.pc, f.mask, f.park)) = [(c.is.pc, c.is.mask, none)]) (k : c.g.colls = [] ∧ c.g.stop = none ∧ c.b.phases = [] ∧ c.l.dom = none)
    (g : s.groupsOf c.gid.lid c.gid.blk = [c.g]) (w : s.settled c.gid (c.act h0) = true) : Alone s c h0 := by
  refine ⟨h, a, m, l, ?_, k.1, k.2.1, k.2.2.1, g, k.2.2.2, w⟩
  match hf : c.g.frags with
  | [] => simp [hf] at f
  | [x] => simp [hf] at f; exact ⟨x, rfl, f.1, f.2.1, f.2.2⟩
  | x :: y :: xs => simp [hf] at f
theorem test_meets_tret : ∃ c, Alone handling c h0 ∧ c.g.handler = some ⟨1, 8⟩ :=
  ⟨_, alone_one _ _ rfl (by decide) (by decide) (by decide) (by decide) (by decide) (by decide) (by decide), rfl⟩
/-- WaitrAndSync, CollectivesDeliver, RegroupOfALoneGroup: two lanes alone, their mask in s5. -/
theorem test_meets_alone : ∃ c, Alone (twoG fun g => { g with s := [(5, 3)] }) c h0 ∧ c.g.handler = none ∧ c.readMask 0 0 (sr 5) = c.is.mask ∧ c.g.mats = [] ∧ c.g.err = none ∧
    c.gid.gi < 32 ∧ ClearOfMatrix c (some (v 3, 2)) :=
  ⟨_, alone_one _ _ rfl (by decide) (by decide) (by decide) (by decide) (by decide) (by decide) (by decide), rfl, by decide, rfl, rfl, by decide, fun _ _ _ => ⟨rfl, fun _ => rfl⟩⟩
/-- CollectiveResults: the lanes of a fragment are below the width. -/
theorem test_meets_collective : ∃ c, two.ctx? = some c ∧ inMask c.is.mask 1 = true ∧ ∀ k, inMask c.is.mask k = true → k < c.width :=
  ⟨_, rfl, by decide, fun k h => (by decide : ∀ k < 64, inMask (3 : Mask) k = true → k < 32) k (below h) h⟩

/-! #### Traps, barriers, supersteps -/

/-- TrapInstructionsTakeTheirTraps, BrkUnderTheDebugRightStops, HandlerOfACause: a handler for traps and one for emulation; a world without and with the debug right. -/
def withHandlers : State :=
  modLaunch one fun l => { l with rcd := { l.rcd with flags := 0x18 }, obj := { l.obj with kernel := { l.obj.kernel with traph := 16, emulh := 24 } } }
theorem test_meets_traps : ∃ c, withHandlers.ctx? = some c ∧ c.act h0 ≠ 0 ∧ (∀ x, withHandlers.world? c.l.world = some x → x.granted = false) ∧ c.g.handler = none ∧
    c.l.handlerOf Cause.trap = some 16 ∧ c.l.handlerOf Cause.emul = some 24 ∧ c.l.handlerOf Cause.uncorrectable = none ∧ c.l.rcd.flags.getLsbD 3 = true ∧
    c.l.rcd.flags.getLsbD 4 = true ∧ c.l.obj.kernel.traph ≠ 0xFFFFFFFF ∧ c.l.obj.kernel.emulh ≠ 0xFFFFFFFF :=
  ⟨_, rfl, by decide, fun x h => by injection h with h; subst h; decide, rfl, by decide, by decide, by decide, by decide, by decide, by decide, by decide⟩
/-- World 0 with the debug right. -/
def granted (s : State) : State := modWorld s fun x => { x with ctl := [(rDBGCTL, 1 <<< 9)] }
theorem test_meets_brk : ∃ c x, (granted one).ctx? = some c ∧ c.act h0 ≠ 0 ∧ (granted one).world? c.l.world = some x ∧ x.granted = true ∧ c.g.stop = none ∧ c.g.mats = [] :=
  ⟨_, _, rfl, by decide, rfl, by decide, rfl, rfl⟩
/-- WaitrAndSync: a lane whose deadline has come at its WAITR, and one that waits on. -/
theorem test_meets_waitr_timeout : let f : Frag := { mkFrag 8 3 with park := some (8, .waitr 1 [(0, 7, 0), (1, 7, 5)]) }
    ∃ g, (twoG fun g => { g with frags := [f] }).group? ⟨0, 0, 0⟩ = some g ∧ g.frags = [f] ∧ f.pc.toNat = 8 ∧ ∀ w ∈ [((0 : Nat), (7 : Mask), (0 : Nat)), (1, 7, 5)], w.1 < 64 ∧ inMask f.mask w.1 = true :=
  ⟨_, rfl, rfl, by decide, by decide⟩
/-- A write of a lane in flight: WAITR, SYNC, BAR, FENCE and GETTIME wait for it. -/
def flying (s : State) : State :=
  { s with serial := 9, pend := [⟨3, .thread ⟨0, 0, 0⟩ 0, 0, 0, .store, 0x300, 0x300, .bytes [1, 2, 3, 4], [], false, none, none, [], 0, 0, false⟩] }
theorem test_meets_unsettled : ∃ c, (flying one).ctx? = some c ∧ c.act h0 ≠ 0 ∧ (flying one).settled c.gid (c.act h0) = false := ⟨_, rfl, by decide, by decide⟩
/-- ExitEndsLanesGroupAndBlock: the last lane of a lone group, and one of two lanes. -/
theorem test_meets_exit_last : ∃ c, one.ctx? = some c ∧ c.act h0 ≠ 0 ∧ c.g.live &&& ~~~ (c.act h0) = 0 ∧ c.g.handler = none ∧ c.g.colls = [] ∧ c.b.phases = [] ∧ c.l.dom = none ∧
    one.groupsOf c.gid.lid c.gid.blk = [c.g] ∧ (∀ f ∈ c.g.frags, f.park = none) ∧ c.g.mats = [] ∧ one.chainsOf c.gid = [] ∧ c.g.err = none :=
  ⟨_, rfl, by decide, by decide, rfl, rfl, rfl, rfl, by decide, by decide, rfl, by decide, rfl⟩
theorem test_meets_exit_some : ∃ c, (twoG fun g => { g with p := [(0, 2)] }).ctx? = some c ∧ c.act ⟨false, 1, false⟩ ≠ 0 ∧ c.g.live &&& ~~~ (c.act ⟨false, 1, false⟩) ≠ 0 ∧
    (∀ f ∈ c.g.frags, f.park = none) := ⟨_, rfl, by decide, by decide, by decide⟩
/-- BarriersWithACount: two lanes short of a count of 3, reaching 2, reaching 3 with one arrived before, and meeting a phase of another count. -/
theorem test_meets_barriers : ∃ c, (modBlock two fun b => { b with phases := [⟨1, 3, 1, []⟩, ⟨2, 4, 2, []⟩] }).ctx? = some c ∧ c.act h0 ≠ 0 ∧ popcount (c.act h0) = 2 ∧
    (c.b.phases.find? fun p => p.id = 0) = none ∧ (c.b.phases.find? fun p => p.id = 1) = some ⟨1, 3, 1, []⟩ ∧
    (modBlock two fun b => { b with phases := [⟨1, 3, 1, []⟩, ⟨2, 4, 2, []⟩] }).settled c.gid (c.act h0) = true :=
  ⟨_, rfl, by decide, by decide, by decide, by decide, by decide⟩
/-- SuperstepsArriveAndWait: no domain; a domain with no lane arrived, a third lane not in Act; a domain with a lane arrived. -/
def stepping3 (arr : Mask) : State :=
  (modLaunch (twoG fun g => { g with live := 7, arrived := arr, frags := [mkFrag 0 3, mkFrag 8 4] }) fun l => { l with dom := some 0 })
theorem test_meets_supersteps : (∃ c, two.ctx? = some c ∧ c.l.dom = none ∧ c.g.err = none) ∧ ∀ arr ∈ [(0 : Mask), 1], ∃ c, (stepping3 arr).ctx? = some c ∧ c.l.dom = some 0 ∧ c.act h0 ≠ 0 ∧
    c.g.arrived = arr ∧ (c.g.arrived ||| c.act h0) &&& c.g.live ≠ c.g.live ∧ c.g.handler = none ∧ c.g.colls = [] ∧ c.b.phases = [] ∧ c.g.err = none ∧
    (stepping3 arr).groupsOf c.gid.lid c.gid.blk = [c.g] ∧ (∀ f ∈ c.g.frags, f.park = none) ∧ (stepping3 arr).settled c.gid (c.act h0) = true := by
  refine ⟨⟨_, rfl, rfl, rfl⟩, fun arr h => ?_⟩
  simp only [List.mem_cons, List.not_mem_nil, or_false] at h
  rcases h with h | h <;> subst h <;> exact ⟨_, rfl, rfl, by decide, rfl, by decide, rfl, rfl, rfl, rfl, by decide, by decide, by decide⟩

/-! #### Memory -/

theorem test_mapped : ((mapped one).checkGlobal .core (some 0) 0 0 0 [] true true false 0x3FFFFFFC 4, (mapped one).checkGlobal .host none 0 0 40 [] true true false 0x300 8)
    = (.ok [{ va := 0x3FFFFFFC, pa := 0x3FFFFFFC, len := 4 }], .ok [{ va := 0x300, pa := 0x300, len := 8 }]) := by decide
/-- LoadsReadTheirBytes, StoresWriteTheirBytes, AtomicsTravelToTheirHomes, LeasesStayWithinTheirLimits, LaunchAndTrace: a granted access to global memory, at the
first byte and at the end of what is mapped, and one to scratch. -/
theorem granted_of (s : State) (c : Ctx) (sp : Space) (n : Nat) (wr rd al : Bool) (a : Nat) (ps : List Piece) (h : s.ctx? = some c) (m : c.act h0 ≠ 0)
    (t : s.atomsDone c.gid (c.act h0) true = true) (al' : a % n = 0) (ch : s.checkLane c sp wr rd 0 a n = .ok ps)
    (w : (s.world? c.l.world).map (fun x => x.granted) = some false) (i : ∀ p ∈ ps, p.outside = false) : Granted s c (c.act h0) sp n wr rd al [(0, a)] [(0, ps)] :=
  ⟨⟨h, m, t, fun _ r hr => by simp at hr; simp [hr, al'], .cons ⟨rfl, ch⟩ .nil, fun x hx g => by simp [hx, g] at w⟩, fun x hx p hp => by simp at hx; subst hx; exact i p hp⟩
theorem test_meets_granted : ∀ a ∈ [0, 0x3FFFFF80], ∀ n ∈ [1, 4, 8, 16, 128], ∃ c ps, Granted (mapped one) c (c.act h0) .glob n true true true [(0, a)] [(0, ps)] ∧
    (∀ p ∈ ps, ∀ q ∈ (mapped one).pend, q.touches p.pa p.len = false) ∧ (∀ q, c.g.hazard c.w64 q = false) ∧ (∀ cls, (mapped one).wick c.l.lid c.core cls < 2 ^ 20) ∧
    (mapped one).eccBad = [] := by
  intro a ha n hn
  simp only [List.mem_cons, List.not_mem_nil, or_false] at ha hn
  rcases ha with ha | ha <;> rcases hn with hn | hn | hn | hn | hn <;> subst ha <;> subst hn <;>
    exact ⟨_, _, granted_of _ _ _ _ _ _ _ _ _ rfl (by decide) (by decide) (by decide) rfl (by decide) (by decide), by decide, fun _ => rfl, fun cls => by cases cls <;> decide, rfl⟩
/-- A block with one square of scratch. -/
def scratchy : State := modBlock one fun b => { b with scratch := 4096 }
theorem test_meets_granted_scratch : ∃ c ps, Granted scratchy c (c.act h0) .scr 16 true true true [(0, 4080)] [(0, ps)] ∧ c.b.scratch < 4096 + 1 :=
  ⟨_, _, granted_of _ _ _ _ _ _ _ _ _ rfl (by decide) (by decide) (by decide) rfl (by decide) (by decide), by decide⟩
/-- A local access, at the end of a slot. -/
theorem test_meets_granted_local : ∃ c ps, Granted one c (c.act h0) .loc 4 true false true [(0, 0x3FFC)] [(0, ps)] :=
  ⟨_, _, granted_of _ _ _ _ _ _ _ _ _ rfl (by decide) (by decide) (by decide) rfl (by decide) (by decide)⟩
/-- FailingAccessesTrapWhole: a page that is not mapped, a misaligned strong access, scratch past its end. -/
theorem test_meets_failing : ∃ c, (mapped one).ctx? = some c ∧ c.act h0 ≠ 0 ∧ c.g.stuck = none ∧ c.l.rcd.flags.getLsbD 1 = false ∧
    (mapped one).checkLane c .glob false true 0 0x40000000 4 = .error (.page 0) ∧ (mapped one).checkLane c .scr false true 0 0 1 = .error .bounds :=
  ⟨_, rfl, by decide, rfl, by decide, by decide, by decide⟩
/-- WritesArriveAndPerform: a write that has not arrived, alone and behind another; one at its time, one before it; a home that is down. -/
theorem test_meets_arrival : ∃ p, (flying one).pend? 3 = some p ∧ p.tc = none ∧ p.ext = none ∧ p.after = [] := ⟨_, rfl, rfl, rfl, rfl⟩
def landing (s : State) (T : Nat) : State := { s with serial := 9, pend := [⟨3, .thread ⟨0, 0, 0⟩ 0, 0, 0, .store, 0x300, 0x300, .rmw .add 4 5, [], false, some T, none, [], 0, 0, false⟩] }
theorem test_meets_completion : ∃ p, (landing one 0).pend? 3 = some p ∧ p.tc = some 0 ∧ (landing one 0).now = 0 ∧ ((landing one 0).lineQueue (lineOf p.pa)).head? = some p ∧
    homeBulk p.pa = some 0 ∧ (landing one 0).waiter 3 = none ∧ (landing one 0).isDown 0 = false ∧ (landing one 0).isSealed p.pa = false ∧ (landing one 1).now < 1 :=
  ⟨_, rfl, rfl, rfl, by decide, by decide, by decide, by decide, by decide, by decide⟩
theorem test_meets_down : ({ landing one 0 with bulks := [] } : State).isDown 0 = true := by decide
/-- AtomicResultsLand: one lane's atomic whose group waits for it, and the same with a second lane still waiting. -/
def awaiting (ls : List Await) : State := { landing one 0 with groups := one.groups.map fun g => { g with stuck := some ⟨0, 1, 8, 0, .atom (v 5) 1 false 1 ls⟩ } }
theorem test_meets_atomic_result : ∀ ls ∈ [[⟨0, 3, 0x300, none, false⟩], [⟨0, 3, 0x300, none, false⟩, ⟨1, 4, 0x304, none, false⟩]], (awaiting ls).waiter 3 = some ⟨0, 0, 0⟩ ∧
    ((awaiting ls).lineQueue 6).head? = (awaiting ls).pend? 3 ∧ (ls.map fun (a : Await) => a.lane).Nodup ∧ ∀ a ∈ ls, a.lane < 64 ∧ a.down = false := by decide
/-- LeasesStayWithinTheirLimits: a line that may be cached, free for ownership. -/
theorem test_meets_ownership : ∃ p, (mapped one).partOfCore 0 = some p ∧ (mapped one).cacheable 0 p.id (6 * 128) = true ∧ look 0 (mapped one).lmax 6 ≤ (mapped one).now ∧
    (mapped one).lineQueue 6 = [] := ⟨_, rfl, by decide, by decide, by decide⟩
/-- BackoffFenceAndSemwait: a lane waits at a semaphore whose value is 0, for 0 (it is released) and for 1 (it waits on). -/
def semaphore (x : DWord) : State := { mapped one with groups := (mapped one).groups.map fun g => { g with frags := [{ mkFrag 0 1 with park := some (8, .semwait .eq false .acqrel [(0, 0x300, 0x300, x)]) }] } }
theorem test_meets_semwait : ∀ x ∈ [(0 : DWord), 1], ∃ g f, (semaphore x).groups = [] ++ g :: [] ∧ g.frags = [] ++ f :: [] ∧ (semaphore x).group? g.gid = some g ∧
    ((semaphore x).launch? g.gid.lid).isSome = true ∧ f.mask = maskOf [0] ∧ f.park = some (8, .semwait .eq false .acqrel [(0, 0x300, 0x300, x)]) ∧
    (semaphore x).semWhere g.gid false 0x300 = .ok 0x300 ∧ (homeBulk 0x300).isSome = true ∧ semTest .eq (BitVec.ofNat 64 (ofBytes (Memory.read (semaphore x).mem 0x300 8))) x = decide (x = 0) := by
  intro x hx
  simp only [List.mem_cons, List.not_mem_nil, or_false] at hx
  rcases hx with hx | hx <;> subst hx <;> exact ⟨_, _, rfl, rfl, by decide, by decide, by decide, rfl, by decide, by decide, by decide⟩

/-! #### Matrix instructions and chains -/

/-- MatrixInstructionsIssueAndComplete: an instruction on register fragments; one on scratch that lies in bounds, one of a misaligned offset, one past the block's scratch; eight
outstanding; a lane that is not in the fragment. -/
def regMma : Instr := .mmas h0 .e4m3 false false false none false false true true 256 0 4
def scrMma : Instr := .mmas h0 .e4m3 false false false none false false false true 256 0 4
def matState (off pitch : Word) : State := modBlock (oneG fun g => { g with s := [(0, off), (1, pitch)] }) fun b => { b with scratch := 4096 }
def mat (i : Instr) (at_ : Nat) (done : Bool) : Mat := ⟨i, 0, 0, 0, 0, 0, 0, 0, at_, done, false, 0, [], 0, []⟩
theorem test_meets_matrix_regs : ∃ c, one.ctx? = some c ∧ matScales regMma = some none ∧ c.g.live &&& ~~~ c.is.mask = 0 ∧ c.aAligned (matOp regMma) ∧ c.bAligned (matOp regMma) ∧
    c.aInside (matOp regMma) ∧ c.bInside (matOp regMma) ∧ c.g.undone < 8 :=
  ⟨_, rfl, rfl, by decide, fun x h a => by injection h with h; subst h; exact absurd a (by decide), fun x h a => by injection h with h; subst h; exact absurd a (by decide),
    fun x h a => by injection h with h; subst h; exact absurd a (by decide), fun x h a => by injection h with h; subst h; exact absurd a (by decide), by decide⟩
theorem test_meets_matrix_scratch : (∃ c, (matState 0 64).ctx? = some c ∧ c.aAligned (matOp scrMma) ∧ c.aInside (matOp scrMma)) ∧
    (∃ c, (matState 2 64).ctx? = some c ∧ ¬ c.aAligned (matOp scrMma)) ∧ ∃ c, (matState 4092 64).ctx? = some c ∧ c.aAligned (matOp scrMma) ∧ ¬ c.aInside (matOp scrMma) := by
  refine ⟨⟨_, rfl, fun x h _ => by injection h with h; subst h; decide, fun x h _ => by injection h with h; subst h; decide⟩, ⟨_, rfl, fun h => ?_⟩,
    ⟨_, rfl, fun x h _ => by injection h with h; subst h; decide, fun h => ?_⟩⟩
  · exact absurd (h _ rfl rfl).1 (by decide)
  · exact absurd (h _ rfl rfl 0 (by decide)) (by decide)
theorem test_meets_matrix_full : (∃ c, (oneG fun g => { g with mats := (List.range 8).map fun i => mat regMma i false }).ctx? = some c ∧ 8 ≤ c.g.undone) ∧
    ∃ c, (twoG fun g => { g with live := 7 }).ctx? = some c ∧ c.g.live &&& ~~~ c.is.mask ≠ 0 := ⟨⟨_, rfl, by decide⟩, ⟨_, rfl, by decide⟩⟩
/-- MATRIX_COMPLETION: the oldest of two, MZERO, and a register form; MatrixWaitsAndFence: one done, one not, one with wrong masks. -/
theorem test_meets_matrix_completion : ∀ i ∈ [Instr.mzero h0 true 64, regMma], ∃ g m, (oneG fun g => { g with mats := [mat i 1 false, mat i 2 false] }).group? ⟨0, 0, 0⟩ = some g ∧
    (g.mats.find? fun m => !m.done) = some m ∧ m.ins = i ∧ m.corrupt = false ∧ m.bad = 0 := by
  intro i h
  simp only [List.mem_cons, List.not_mem_nil, or_false] at h
  rcases h with h | h <;> subst h <;> exact ⟨_, _, rfl, rfl, rfl, rfl, rfl⟩
theorem test_meets_mwait : ∃ c, (oneG fun g => { g with mats := [mat regMma 1 true, { mat regMma 2 true with bad := 1 }, mat regMma 3 false] }).ctx? = some c ∧ c.act h0 ≠ 0 ∧
    (∀ m ∈ c.g.mats.take (c.g.mats.length - 2), m.done = true ∧ m.bad = 0 ∧ m.corrupt = false) ∧ (∃ m ∈ c.g.mats.take (c.g.mats.length - 0), m.done = false) ∧
    (∀ m ∈ c.g.mats.take (c.g.mats.length - 1), m.done = true) ∧ ((c.g.mats.take (c.g.mats.length - 1)).find? fun m => m.bad ≠ 0).isSome = true :=
  ⟨_, rfl, by decide, by decide, ⟨_, List.mem_cons_of_mem _ (List.mem_cons_of_mem _ List.mem_cons_self), rfl⟩, by decide, by decide⟩
/-- A chain of the running group, at entry 1. -/
def link (loops : List (Nat × Nat)) (stop : Option ChainStop) (ended : Bool) : Chain :=
  ⟨5, ⟨0, 0, 0⟩, 1, 0, 0, 0, 1, 0, none, 0, loops, 0, ended, stop, none, []⟩
def chained (k : Chain) : State := { modBlock (mapped one) (fun b => { b with scratch := 4096 }) with engine := some 5, chains := [k] }
theorem runs (k : Chain) (h : k.id = 5) (g : k.gid = ⟨0, 0, 0⟩) : ∃ b l, Running (chained k) k b l := by
  refine ⟨_, _, by simp [chained, h], ?_, by rw [g]; rfl, by rw [g]; rfl⟩
  simp [chained, State.chain?, h]
/-- ChainControlEntries: no loop, a loop at this entry with and without turns left, two loops elsewhere, HOLD. -/
theorem test_meets_chain_control : ∀ loops ∈ [[], [(1, 0)], [(1, 3)], [(0, 1), (0, 2)]], ∃ b l, Running (chained (link loops none false)) (link loops none false) b l :=
  fun _ _ => runs _ rfl rfl
theorem test_meets_chain_semaphore : ∃ b l bs at_ u, Running (chained (link [] none false)) (link [] none false) b l ∧
    ChainReads (chained (link [] none false)) (link [] none false) b l false false true 0x300 8 bs at_ u ∧
    (chained (link [] none false)).chainCheck (link [] none false) b l true true true true 4088 8 = .ok [{ va := 4088, pa := b.scratchPa 4088, len := 8 }] ∧
    (chained (link [] none false)).chainRoom (link [] none false) [(4088, 4)] = true :=
  ⟨_, _, _, _, _, ⟨rfl, rfl, rfl, rfl⟩, ⟨_, _, rfl, by decide, by decide, .cons rfl .nil, rfl, rfl, rfl⟩, by decide, by decide⟩
/-- ChainDataEntriesMoveUnits: a unit of 64 bytes from scratch to global memory; an index and its row; a source that fails. -/
theorem test_meets_chain_copy : ∃ b l bs at_ u to_, Running (chained (link [] none false)) (link [] none false) b l ∧
    ChainReads (chained (link [] none false)) (link [] none false) b l true false false 0 64 bs at_ u ∧ Targets u (link [] none false) b l false [(0x400, 64)] to_ ∧
    at_.length = to_.length ∧ blockRange 0 64 (link [] none false).part = (0, 64) :=
  ⟨_, _, _, _, _, _, ⟨rfl, rfl, rfl, rfl⟩, ⟨_, _, rfl, by decide, by decide, .cons rfl .nil, rfl, rfl, rfl⟩, ⟨by decide, _, rfl, by decide, rfl⟩, by decide, by decide⟩
theorem test_meets_chain_index : ∃ b l ib ia u, ChainReads (chained (link [] none false)) (link [] none false) b l true false false 4092 4 ib ia u ∧ (link [] none false).part = 0 ∧
    (chained (link [] none false)).block? 0 0 = some b ∧ (chained (link [] none false)).launch? 0 = some l :=
  ⟨_, _, _, _, _, ⟨_, _, rfl, by decide, by decide, .cons rfl .nil, rfl, rfl, rfl⟩, by decide, rfl, rfl⟩
theorem test_meets_chain_fails : ∃ b l, Running (chained (link [] none false)) (link [] none false) b l ∧
    (chained (link [] none false)).chainCheck (link [] none false) b l true false true false 4090 8 = .error .bounds ∧ l.rcd.flags.getLsbD 1 = false :=
  ⟨_, _, ⟨rfl, rfl, rfl, rfl⟩, by decide, by decide⟩
/-- ChainsIssueRetireAndReport: none outstanding, one that runs, one that has ended, one that has stopped, eight. -/
theorem test_meets_chains : ∃ c, (chained (link [] none false)).ctx? = some c ∧ c.act h0 ≠ 0 ∧ c.g.err = none ∧ ((one.retireChains c.gid).chainsOf c.gid).length = 0 ∧
    (((chained (link [] none false)).retireChains c.gid).chainsOf c.gid).length = 1 ∧ (((chained (link [] none true)).retireChains c.gid).chainsOf c.gid).length = 0 ∧
    (((chained (link [] (some ⟨4, 0, 0⟩) false)).retireChains c.gid).stoppedChain c.gid).isSome = true ∧
    (({ one with chains := (List.range 8).map fun i => { link [] none false with id := i } } : State).retireChains c.gid).chainsOf c.gid ≠ [] :=
  ⟨_, rfl, by decide, rfl, by decide, by decide, by decide, by decide, by decide⟩
set_option maxRecDepth 8000 in
/-- LaunchAndTrace: a device queue with room and a full one; tracing off, on with room. -/
theorem test_meets_launch : ∃ c p ps, (mapped one).ctx? = some c ∧ (mapped one).part? c.l.part = some p ∧ p.devq.length < 1024 ∧ Granted (mapped one) c (c.act h0) .glob 128 false true true [(0, 0)] ps ∧
    ((mapped one).gather c 0 0 0 (ps.headD (0, [])).2).isSome = true ∧ ClearOfMatrix c (some (v 3, 1)) :=
  ⟨_, _, _, rfl, rfl, by decide, granted_of _ _ _ _ _ _ _ _ [{ va := 0, pa := 0, len := 128 }] rfl (by decide) (by decide) (by decide) rfl (by decide) (by decide), by decide, fun _ _ _ => ⟨rfl, fun _ => rfl⟩⟩
theorem test_meets_trace : ∀ e ∈ [(0 : DWord), 1], ∃ c x, (modWorld one fun x => { x with ctl := SMap.set [] rTRCCTL e }).ctx? = some c ∧
    (modWorld one fun x => { x with ctl := SMap.set [] rTRCCTL e }).world? c.l.world = some x ∧ (x.reg rTRCCTL).getLsbD 0 = decide (e = 1) ∧
    (x.fieldOf rTRCT 0 16 + 1) % 2 ^ ringLog (x.fieldOf rTRCN 0 4) 4 16 ≠ x.fieldOf rTRCH 0 16 % 2 ^ ringLog (x.fieldOf rTRCN 0 4) 4 16 := by
  intro e h
  simp only [List.mem_cons, List.not_mem_nil, or_false] at h
  rcases h with h | h <;> subst h <;> exact ⟨_, _, rfl, rfl, by decide, by decide⟩

/-! #### Queues, control page, debugger -/

/-- QueueRegisterWrites: a queue stopped and enabled, one neither. -/
def queueWorld (ctl : DWord) : State := modWorld (mapped one) fun x => { x with ctl := SMap.set [] (rQCTL 0) ctl }
theorem test_meets_queue_registers : ((queueWorld 0).world? 0).any (fun x => !x.qStop 0 && !x.qEn 0) = true ∧ (List.range 64).any (fun i =>
    ((queueWorld (1 <<< i)).world? 0).any fun x => x.qStop 0) = true ∧ (List.range 64).any (fun i => ((queueWorld (1 <<< i)).world? 0).any fun x => x.qEn 0) = true := by decide
/-- QueueCommandsRun: a command of world 0 at level 0 (and 3), a semaphore it may write that holds 0, one that is not mapped, no launch of the level, a recorded barrier. -/
def taking (lvl : Nat) : State := { mapped one with issuer := none, cmd := some ⟨0, lvl⟩ }
theorem test_meets_command : ∀ lvl ∈ [0, 3], ∃ x p m, (taking lvl).cmd = some ⟨x.w, lvl⟩ ∧ (taking lvl).world? x.w = some x ∧ SemHeld (taking lvl) x true 0x300 p m ∧ p.pa % 4 = 0 ∧
    m = 0 ∧ (taking lvl).checkGlobal .host none x.part x.w (agentSource .host x.part x.w) [] false true false 0x40000000 8 = .error (.page 0) ∧ x.barriers = [] := by
  intro lvl h
  simp only [List.mem_cons, List.not_mem_nil, or_false] at h
  rcases h with h | h <;> subst h <;>
    exact ⟨newWorld 0 0 100 false [], { va := 0x300, pa := 0x300, len := 8 }, 0, rfl, rfl, ⟨by decide, rfl, by decide, by decide, by decide, fun _ => ⟨by decide, by decide⟩⟩, by decide, rfl, by decide, rfl⟩
theorem test_meets_fence_and_barrier : (∃ l ∈ (taking 0).launches, l.world = 0 ∧ l.lvl = some 0) ∧ (∀ l ∈ (taking 3).launches, l.lvl ≠ some 3) ∧
    ((modWorld (taking 0) fun x => { x with barriers := [⟨0, [(1, 0)]⟩, ⟨3, [(1, 2)]⟩] }).world? 0).any (fun x => (x.barriers.find? fun b => b.lvl = 0).isSome) = true :=
  ⟨⟨_, List.mem_cons_self, rfl, rfl⟩, by decide, by decide⟩

/-- A record that the kernel of the running launch takes, with its semaphore at 0x300. -/
def record : LaunchRec :=
  { flags := 0, kidx := 4095, gx := 1, gy := 1, gz := 1, bx := 1, byy := 1, bz := 1, scratch := 0, argSize := 0, mode := 0, argPtr := 0, semAddr := 0x300, semVal := 1, dumpAddr := 0,
    dumpSize := 0, watchdog := 0, rsvd := false }
def kernel0 : Kernel := { entry := 0, traph := 0xFFFFFFFF, emulh := 0xFFFFFFFF, scratch := 0, argSize := 0, mode := 0, widths := 3, queues := [] }
def object0 : Object := { version := 0x0101, isPublic := false, text := [0], const := [], kernel := kernel0, kent := 0, hash := [] }
def key0 : GalleyKey := { code := [], devmode := 0, kent := 0, w64 := false, mode := 1, part := some 0, world := none }
def galley0 : Galley := { id := 8, key := key0, resid := 32, safe := false, reopt := false, gen := 0, used := false, loops := [], since := 0 }
def binding (s : State) : State := modWorld { s with serial := 9 } fun x => { x with imp := [(4095, ⟨⟨0, true, 0, 0⟩, object0⟩)] }
def verdict (s : State) : Nat := match s.world? 0 with
  | none => 0
  | some x => match s.judge x record with | .stop c => 100 + c | .reject c => 200 + c | .translate _ => 300 | .hold => 400 | .start _ _ none => 500 | .start _ _ _ => 501
/-- QueueCommandsRun: a launch record is rejected without its binding, asks for a translation, starts with its galley, and is held while a bulkhead resets. -/
theorem test_meets_launch_record : (taking 0).eccBad = [] ∧ verdict (taking 0) = 200 + 0x10 ∧ verdict (binding (taking 0)) = 300 ∧ verdict { binding (taking 0) with galleys := [galley0] } = 500 ∧
    verdict { modPart (binding (taking 0)) (fun p => { p with bulks := [0, 1] }) with galleys := [galley0] } = 400 ∧ (∀ l ∈ (binding (taking 0)).launches, l.lid ≠ (binding (taking 0)).serial) := by decide
/-- A device queue whose first entry is of another world, and then one of world 0. -/
theorem test_meets_device_queue : ∃ p x, (modPart (mapped one) fun p => { p with devq := [⟨7, [1], 0⟩, ⟨0, [2], 0⟩] }).part? p.id = some p ∧
    (modPart (mapped one) fun p => { p with devq := [⟨7, [1], 0⟩, ⟨0, [2], 0⟩] }).current p = some x ∧
    (modPart (mapped one) fun p => { p with devq := [⟨7, [1], 0⟩, ⟨0, [2], 0⟩] }).serves x = true ∧ p.devq = [⟨7, [1], 0⟩] ++ ⟨0, [2], 0⟩ :: [] ∧ x.w = 0 ∧
    ofBytes [2] % 256 ≠ 1 ∧ ofBytes [1] % 256 = 1 := by
  refine ⟨{ newPart 0 [0] 0 with phase := .frame 0 0 0 100000, ptroot := 0x10001, devq := [⟨7, [1], 0⟩, ⟨0, [2], 0⟩] }, newWorld 0 0 100 false [], ?_, ?_, ?_, rfl, rfl, by decide, by decide⟩ <;> decide
/-- An object of one kernel and one NOP at 0x20000 (R201, R202). -/
def objectBytes : List Byte :=
  toBytes 4 0x50415250 ++ toBytes 2 0x0101 ++ toBytes 2 3 ++ toBytes 8 0 ++
  toBytes 4 1 ++ toBytes 4 64 ++ toBytes 4 8 ++ toBytes 4 0 ++ toBytes 4 2 ++ toBytes 4 72 ++ toBytes 4 64 ++ toBytes 4 0 ++ toBytes 4 6 ++ toBytes 4 136 ++ toBytes 4 1 ++ toBytes 4 0 ++
  toBytes 8 0 ++ toBytes 8 0 ++ toBytes 8 0xFFFFFFFFFFFFFFFF ++ toBytes 16 0 ++ toBytes 4 0 ++ toBytes 4 3 ++ toBytes 24 0 ++ toBytes 1 0
set_option maxRecDepth 8000 in
theorem test_meets_replace : (parseObject (fun o n => some ((objectBytes.drop o).take n)) 0).isSome = true ∧ (parseObject (fun o n => some ((objectBytes.drop o).take n)) 1).isNone = true := by decide
/-- FaultQueueAndControlPage: a record that waits, room in the ring, a full ring; a free identifier; the owner of the partition; an invalidation that is due; entries of the table of plain registers. -/
def faulting (tail : DWord) : State :=
  modWorld { mapped one with groups := one.groups.map fun g => { g with stuck := some ⟨0, 1, 8, 0, .replay [⟨0x40000000, false, 0⟩] [] []⟩ } } fun x =>
    { x with ctl := [(0x300, 0x400), (0x308, 0x104), (0x310, tail)] }
theorem test_meets_fault_record : ((faulting 0).waitingRecord 0).isSome = true ∧ freeId [0, 1] 4 0 = some 2 ∧ rFQBASE = 0x300 ∧ rFQCTL = 0x308 ∧ rFQTAIL = 0x310 := by decide
theorem test_meets_fault_ring : ∃ x y, (faulting 0).world? 0 = some x ∧ (faulting 15).world? 0 = some y ∧ (x.reg rFQCTL).getLsbD 8 = true ∧ (y.reg rFQCTL).getLsbD 8 = true ∧
    ((x.reg rFQTAIL).toNat + 1) % 2 ^ ringLog (x.fieldOf rFQCTL 0 4) 4 12 ≠ (x.reg rFQHEAD).toNat % 2 ^ ringLog (x.fieldOf rFQCTL 0 4) 4 12 ∧
    ((y.reg rFQTAIL).toNat + 1) % 2 ^ ringLog (y.fieldOf rFQCTL 0 4) 4 12 = (y.reg rFQHEAD).toNat % 2 ^ ringLog (y.fieldOf rFQCTL 0 4) 4 12 :=
  ⟨_, _, rfl, rfl, by decide, by decide, by decide, by decide⟩
theorem test_meets_fault_slot : (mapped one).checkGlobal .host none 0 0 40 [] true true false 0x400 32 = .ok [{ va := 0x400, pa := 0x400, len := 32 }] := by decide
theorem test_meets_control_page : (one.owned 0).isSome = true ∧ one.owned 1 = none ∧ ((modPart one fun p => { p with busy := some 1 }).part? 0).any (fun p => p.busy.isSome) = true ∧ one.pend = [] ∧
    one.ext = [] ∧ plainRegs ≠ [] ∧ (∃ l ∈ one.launches, l.part = 0) ∧ (∀ l ∈ ({ one with launches := [] } : State).launches, l.part ≠ 0) ∧ (one.world? 0).any (fun x => !x.torn && !x.granted) = true ∧
    ((granted one).world? 0).any (fun x => x.granted) = true :=
  ⟨by decide, by decide, by decide, rfl, rfl, by decide, ⟨_, List.mem_cons_self, rfl⟩, by decide, by decide, by decide⟩
/-- DebuggerActs: an offer, an offer 1 s old, the right; a running group that a scope names, a halted one, one that owes a result; a breakpoint at its PC; a watchpoint over its address. -/
def debugged (ctl : List (Nat × DWord)) (stop : Option Stop) : State :=
  modWorld { mapped one with groups := one.groups.map fun g => { g with stop := stop } } fun x => { x with ctl := ctl.foldl (fun m e => SMap.set m e.1 e.2) (SMap.set [] rDBGCTL (1 <<< 9)) }
def stop0 : Stop := ⟨.brk, 0, 1, 0, 0, 8, false, false, false, true⟩
theorem test_meets_offer : ((modWorld one fun x => { x with ctl := SMap.set [] rDBGCTL (1 <<< 8), offerTime := some 0 }).world? 0).any (fun x => x.fieldOf rDBGCTL 8 1 = 1 && x.offerTime == some 0) = true ∧
    ({ one with now := 1000000000 } : State).now ≥ 0 + 1000000000 ∧ one.now < 0 + 1000000000 ∧ one.ready = true := by decide
theorem test_meets_halt : ∃ x g l, (debugged [(rDBGHALT, 3)] none).world? 0 = some x ∧ x.granted = true ∧ (debugged [(rDBGHALT, 3)] none).group? ⟨0, 0, 0⟩ = some g ∧
    (debugged [(rDBGHALT, 3)] none).launch? 0 = some l ∧ x.names (x.fieldOf rDBGHALT 0 2) l ⟨0, 0, 0⟩ = true ∧ x.names 0 l ⟨0, 0, 0⟩ = true ∧ g.stop = none ∧ g.owesResult = false ∧ x.sealing = false :=
  ⟨_, _, _, rfl, by decide, rfl, rfl, by decide, by decide, rfl, by decide, by decide⟩
theorem test_meets_halted : ∃ g, (debugged [] (some stop0)).group? ⟨0, 0, 0⟩ = some g ∧ g.stop = some stop0 ∧ stop0.written = true ∧ g.halted = true ∧
    (g.frags.find? fun f => f.pc = stop0.pc && f.park.isNone).isSome = true ∧ ((awaiting []).group? ⟨0, 0, 0⟩).any (fun g => g.owesResult) = true :=
  ⟨_, rfl, rfl, by decide, by decide, by decide, by decide⟩
/-- DBGSEL names register 0 of each class, a register past the limit of p, the PC, and memory, for lane 0 of the running group. -/
theorem test_meets_select : ∃ x l, (debugged [] (some stop0)).world? 0 = some x ∧ (debugged [] (some stop0)).launches = [l] ∧ l.world = 0 ∧ l.tag = 0 ∧ l.status = .running ∧
    (∀ k < 5, (RegSel.ofCode k).isSome = true) ∧ (RegSel.ofCode 3).any (fun c => decide (RegSel.limit c < 65535)) = true ∧ field 5 0 3 = 5 ∧ field 6 0 3 = 6 ∧
    (debugged [] (some stop0)).checkGlobal .copy none 0 0 0 [] false true false 0x300 8 = .ok [{ va := 0x300, pa := 0x300, len := 8 }] ∧
    (debugged [] (some stop0)).tagWrong [{ va := 0x300, pa := 0x300, len := 8 }] = false :=
  ⟨_, _, rfl, rfl, rfl, rfl, rfl, by decide, by decide, by decide, by decide, by decide, by decide⟩
theorem test_meets_breakpoint : ∃ x g l f g1, (debugged [(rBP 7, 1 <<< 63)] none).world? 0 = some x ∧ (debugged [(rBP 7, 1 <<< 63)] none).group? ⟨0, 0, 0⟩ = some g ∧
    (debugged [(rBP 7, 1 <<< 63)] none).launch? 0 = some l ∧ g.next = some (f, g1) ∧ g.pass = false ∧ g.stop = none ∧ l.status = .running ∧ (x.reg (rBP 7)).toNat.testBit 63 = true ∧
    field (x.reg (rBP 7)).toNat 0 32 = f.pc.toNat ∧ field (x.reg (rBP 7)).toNat 32 12 = l.rcd.kidx :=
  ⟨_, _, _, _, _, rfl, rfl, rfl, rfl, rfl, rfl, rfl, by decide, by decide, by decide⟩

/-! #### Special registers, empty Act, handlers -/

/-- ModeFlagPredicateAndLaneWrites: a readable s source, and writes of the lanes done and in flight. -/
theorem test_meets_mode_writes : ∃ c b u, one.ctx? = some c ∧ c.act h0 ≠ 0 ∧ c.fetch one.fresh c.b [(sr 4, 1)] = .ok b [u] ∧ (∀ q, c.g.hazard c.w64 q = false) ∧
    one.settled c.gid (c.act h0) = true := ⟨_, _, _, rfl, by decide, rfl, fun _ => rfl, by decide⟩
theorem none_act : ∀ l < 64, inMask ((two.ctx?.map fun c => c.act ⟨false, 1, false⟩).getD 1) l = false := by decide
/-- EmptyActOnlyGoesOn, BranchesCallsAndReturns: a guard that no lane meets; BRX.U then compares the targets of the lanes, which are equal here and differ there. -/
theorem test_meets_empty_act : ∃ c, two.ctx? = some c ∧ c.act ⟨true, 0, false⟩ = 0 ∧ (Instr.iadd ⟨true, 0, false⟩ .z32 false (v 3) (v 4) (v 5)).isProgram = true ∧
    (Instr.iadd ⟨true, 0, false⟩ .z32 false (v 3) (v 4) (v 5)).flds.hd = ⟨true, 0, false⟩ ∧ c.act ⟨false, 1, false⟩ = 0 ∧
    Uniform c ⟨false, 1, false⟩ (fun l => (c.readReg 0 1 l (v 4)).toNat) :=
  ⟨_, rfl, by decide, rfl, rfl, by decide, fun j k hj hk => ⟨(none_act j (below hj)).trans (none_act k (below hk)).symm, rfl⟩⟩
/-- WaitrAndSync, BackoffFenceAndSemwait: a handler that keeps another lane, or this one, parked. -/
theorem test_meets_loose : ∃ g k, (twoG fun g => { g with handler := some ⟨2, 8⟩ }).group? ⟨0, 0, 0⟩ = some g ∧ g.hlanes ≠ 0 ∧ g.hlanes &&& 1 = 0 ∧ g.loose (maskOf [0]) ≠ maskOf [0] ∧
    one.group? ⟨0, 0, 0⟩ = some k ∧ k.hlanes = 0 ∧ k.loose (maskOf [0]) = maskOf [0] := ⟨_, _, rfl, by decide, by decide, by decide, rfl, by decide, by decide⟩
/-- RegroupOfALoneGroup: no write of a retired group of the pair or of the block is in flight. -/
theorem test_meets_retired : two.retiredSettled ⟨0, 0, 0⟩ false = true ∧ two.retiredSettled ⟨0, 0, 0⟩ true = true := by decide

/-! #### Memory -/

/-- LoadsReadTheirBytes: a unit that lane 0 has read ahead. -/
theorem test_meets_ahead : ∃ c, (oneG fun g => { g with ahead := [⟨0, 0x300, [1, 2, 3, 4]⟩] }).ctx? = some c ∧ c.g.ahead = [⟨0, 0x300, [1, 2, 3, 4]⟩] ∧
    (⟨0x300, 0x300, 4, none, false⟩ : Piece).outside = false := ⟨_, rfl, rfl, by decide⟩
/-- StoresWriteTheirBytes, AtomicsTravelToTheirHomes: room for the writes of the lanes. -/
theorem test_meets_room : ∃ c, (mapped one).ctx? = some c ∧ (mapped one).wick c.l.lid c.core .store + storeRoom [(0, [⟨0x300, 0x300, 4, none, false⟩])] ≤ 2 ^ 20 ∧
    (mapped one).wick c.l.lid c.core .store + (lanes (c.act h0)).length * (4096 / 128 + 2) ≤ 2 ^ 20 := ⟨_, rfl, by decide, by decide⟩
/-- WritesArriveAndPerform: a write that must follow another, which is in flight and which has performed. -/
theorem test_meets_after : ∀ p ∈ (landing one 0).pend, (∀ i ∈ p.after, ∀ q ∈ (landing one 0).pend, q.id ≠ i) ∧
    ∃ i ∈ ({ p with after := [3] } : Pend).after, ∃ q ∈ (landing one 0).pend, q.id = i := by decide
/-- LeasesStayWithinTheirLimits: the set of the line is empty. -/
theorem test_meets_ways : ((mapped one).wayMates 0 6).length < 16 ∧ (((mapped one).wayMates 0 6).filter fun x => x.owned).length < 16 := by decide
/-- BackoffFenceAndSemwait: a semaphore that nobody writes reads as memory. -/
theorem test_meets_sem_bytes : (semaphore 0).readBytes (fun x => x = .thread ⟨0, 0, 0⟩ 0) 0 0x300 8 = some [0, 0, 0, 0, 0, 0, 0, 0] := by decide

/-! #### Launches, blocks, domains -/

/-- LaunchesAndBlocks: a launch of which nothing is left, with a semaphore that may be written and one that is not mapped, that has failed or not. -/
def ended (sem : DWord) (failed : Bool) (st : LStatus) : State :=
  { modLaunch (mapped one) (fun l => { l with rcd := { l.rcd with semAddr := sem }, failed := failed, status := st }) with groups := [], blocks := [], issuer := none, rr := [] }
set_option maxRecDepth 8000 in
theorem test_meets_completed_launch : ∀ st ∈ [LStatus.running, .aborting 5 0 false false false 0, .aborting 5 0 false false true 0, .aborting 5 0 false true false 0],
    ∃ l x, (ended 0x300 false st).launch? 0 = some l ∧ l.status = st ∧ l.rcd.blocks ≤ l.nextBlk ∧ (ended 0x300 false st).pend = [] ∧ (ended 0x300 false st).chains = [] ∧ l.holds = [] ∧
      (ended 0x300 false st).world? l.world = some x ∧ (ended 0x300 false st).inFrame x = true ∧ x.ctx = none ∧ x.fieldOf rSEMFAIL 0 1 = 0 ∧ l.rcd.dumpSize < 64 := by
  intro st h
  simp only [List.mem_cons, List.not_mem_nil, or_false] at h
  rcases h with h | h | h | h <;> subst h <;> exact ⟨_, _, rfl, rfl, by decide, rfl, rfl, rfl, rfl, by decide, rfl, by decide, by decide⟩
set_option maxRecDepth 8000 in
theorem test_meets_semaphore_of_launch :
    (ended 0x300 false .running).checkGlobal .host none 0 0 (agentSource .host 0 0) [] true true false 0x300 8 = .ok [{ va := 0x300, pa := 0x300, len := 8 }] ∧
    (∀ ln ∈ linesOf 0x300 8, (ended 0x300 false .running).lineFree ln = true) ∧
    (ended 0x40000000 true .running).checkGlobal .host none 0 0 (agentSource .host 0 0) [] true true false 0x40000000 8 = .error (.page 0) := by decide
/-- A launch whose only block waits, with room for it on a core. -/
def placing (frozen : List Nat) : State :=
  { modLaunch (mapped one) (fun l => { l with nextBlk := 0 }) with groups := [], blocks := [], issuer := none, rr := [], frozen := frozen }
set_option maxRecDepth 8000 in
theorem test_meets_placement : ∃ p x l, (placing []).part? 0 = some p ∧ (placing []).current p = some x ∧ (placing []).serves x = true ∧ (placing []).launch? 0 = some l ∧ l.part = p.id ∧
    (placing []).waiters x.w = [l] ∧ l.nextBlk + 1 = l.rcd.blocks ∧ ((placing []).findCore p l).isSome = true := ⟨_, _, _, rfl, rfl, by decide, rfl, by decide, rfl, by decide, by decide⟩
theorem test_meets_clearing : ∃ b, (modBlock one fun b => { b with clearing := true }).block? 0 0 = some b ∧ b.clearing = true ∧ one.pend = [] := ⟨_, rfl, rfl, rfl⟩
/-- A domain that drains, and one that ends its step while a lane has not arrived. -/
def beaconing (st : DomState) : State :=
  modPart (modLaunch one fun l => { l with dom := some 0 }) fun p => { p with doms := p.doms.map fun d => if d.idx = 0 then { d with holder := some 0, st := st } else d }
theorem test_meets_domain : ∀ st ∈ [DomState.draining, .ending], ∃ p d l, (beaconing st).part? 0 = some p ∧ p.doms.find? (fun d => d.idx = 0) = some d ∧ d.st = st ∧ d.holder = some l.lid ∧
    (beaconing st).launch? 0 = some l ∧ l.dom = some 0 ∧ ∃ g ∈ (beaconing st).groups, g.gid.lid = l.lid ∧ g.live &&& ~~~ g.arrived ≠ 0 := by
  intro st h
  simp only [List.mem_cons, List.not_mem_nil, or_false] at h
  rcases h with h | h <;> subst h <;> exact ⟨_, _, _, rfl, rfl, rfl, rfl, rfl, rfl, _, List.mem_cons_self, rfl, by decide⟩

/-! #### Galleys -/

/-- GalleysAndTheirQueries: a translation under way that a query waits for; a key of a bound object and an entry that is not valid. -/
theorem test_meets_translation : ∃ x, (modWorld { one with translating := [(0, 4095, key0)] } fun x => { x with query := some key0 }).world? 0 = some x ∧ x.query = some key0 ∧
    (x.reg rTRQ).getLsbD 14 = false ∧ one.findGalley key0 = none ∧ ([(0, 4095, key0)].find? fun (e : Nat × Nat × GalleyKey) => e.1 = 0 && e.2.1 = 4095 && e.2.2.w64 == false) = some (0, 4095, key0) :=
  ⟨_, rfl, rfl, by decide, by decide, by decide⟩
theorem test_meets_query : ∃ x, (binding one).world? 0 = some x ∧ x.query = none ∧ ((binding one).queryKey x 4095 false).isSome = true ∧ (binding one).queryKey x 7 false = none ∧
    (x.reg rTRQ).getLsbD 15 = false ∧ (binding one).translating = [] ∧ ∀ p ∈ (binding one).parts, p.replayOn = none := ⟨_, rfl, rfl, by decide, by decide, by decide, rfl, by decide⟩
/-- A galley that a REPLACE of this instant has discarded, and one that it has not; a group that runs a galley, safe and not. -/
theorem test_meets_galley : ∃ g, ({ one with galleys := [galley0] } : State).galley? 8 = some g ∧ (∃ x ∈ (modWorld one fun x => { x with swaps := (0, [key0]) }).worlds, x.swaps.1 = one.now ∧ g.key ∈ x.swaps.2) ∧
    ∀ x ∈ one.worlds, x.swaps.1 = one.now → g.key ∉ x.swaps.2 := ⟨_, rfl, ⟨_, List.mem_cons_self, rfl, by decide⟩, by decide⟩
theorem test_meets_integrity : ∀ safe ∈ [false, true], let s := { oneG (fun g => { g with safe := safe }) with galleys := [{ galley0 with id := 0 }] }
    ∃ g l b y k, s.group? ⟨0, 0, 0⟩ = some g ∧ g.safe = safe ∧ s.launch? 0 = some l ∧ s.block? 0 0 = some b ∧ s.galley? l.galley = some y ∧ y.safe = false ∧ s.bulk? (bulkOf b.core) = some k ∧ k.st = .running := by
  intro safe h
  simp only [List.mem_cons, List.not_mem_nil, or_false] at h
  rcases h with h | h <;> subst h <;> exact ⟨_, _, _, _, _, rfl, rfl, rfl, rfl, rfl, rfl, rfl, rfl⟩

/-! #### Contexts, frames, worlds, partitions -/

/-- A context of one block and group, of what kind the arguments say. -/
def ctx0 (bad tamper : Bool) : SavedCtx := { groups := one.groups, rr := [⟨0, 0, 0⟩], blocks := one.blocks, chains := [], doms := [], bad := bad, tamper := tamper }
/-- ContextsFramesAndWorlds: a running world in its frame, between frames with and without launches; one that halts with nothing in flight; saved ones. -/
theorem test_meets_preemption : ∃ x, one.world? 0 = some x ∧ x.hostSaved = false ∧ x.showsSaved = false ∧ one.inFrame x = true ∧ x.busy = false ∧ x.ctx = none ∧
    (modPart one fun p => { p with phase := .idle }).inFrame x = false ∧ ∃ l ∈ one.launches, l.world = 0 := ⟨_, rfl, rfl, by decide, by decide, rfl, rfl, by decide, _, List.mem_cons_self, rfl⟩
theorem test_meets_save : ∃ x, (modWorld one fun x => { x with busy := true, hostSaved := true }).world? 0 = some x ∧ x.busy = true ∧
    (modWorld one fun x => { x with busy := true, hostSaved := true }).halted 0 = true ∧ ∀ g ∈ one.groups, g.mats = [] := ⟨_, rfl, rfl, by decide, by decide⟩
theorem test_meets_restore : ∀ k ∈ [(false, false), (true, false), (false, true)],
    let s := { modWorld one (fun x => { x with ctx := some (ctx0 k.1 k.2), hostSaved := true, resuming := true }) with groups := [], blocks := [] }
    ∃ x p c, s.world? 0 = some x ∧ s.part? x.part = some p ∧ x.busy = false ∧ s.canRestore x = true ∧ p.gated = false ∧ s.inFrame x = true ∧ x.ctx = some c ∧ x.resuming = true ∧ x.showsSaved = true ∧
      c.bad = k.1 ∧ c.tamper = k.2 ∧ x.stopq = [] := by
  intro k h
  simp only [List.mem_cons, List.not_mem_nil, or_false] at h
  rcases h with h | h | h <;> subst h <;> exact ⟨_, _, _, rfl, rfl, rfl, by decide, rfl, by decide, rfl, rfl, by decide, rfl, rfl, rfl⟩
/-- Tables with one world in the next slot, another, and none; a frame that has ended, one that has not; a gap with and without a world to come. -/
theorem test_meets_frames : nextSlot [0x80, 0x80, 0x81, 0, 0, 0, 0, 0, 0, 0, 0, 0, 0, 0, 0, 0] 0 = some (1, 0) ∧ nextSlot [0x80, 0x80, 0x81, 0, 0, 0, 0, 0, 0, 0, 0, 0, 0, 0, 0, 0] 1 = some (2, 1) ∧
    nextSlot (List.replicate 16 0) 15 = none ∧ ({ one with now := 100000 } : State).now ≥ 100000 ∧ one.now < 100000 ∧ (∀ x ∈ one.worlds, x.torn = false ∧ x.busy = false ∧ x.ctx = none) ∧
    (∀ b ∈ ({ one with blocks := [] } : State).blocks, b.lid ≠ 0) := by decide
theorem test_meets_frame_set : (one.owned 0).isSome = true ∧ one.ready = true ∧ (one.live? 0).isSome = true ∧ (one.live? 1).isNone = true ∧
    ((modPart one fun p => { p with phase := .idle }).part? 0).any (fun p => decide (p.phase = .idle) && !p.gated && (nextSlot p.frames 15).isNone) = true := by decide
/-- A world number that is free and an area that R14 takes; a partition that may be gated, and one that is. -/
theorem test_meets_world_create : ∃ p, (mapped one).owned 0 = some p ∧ (mapped one).live? 1 = none ∧ (mapped one).lingers 1 = false ∧ (mapped one).owned 1 = none ∧
    ((mapped one).worlds.filter fun x => x.part = p.id && !x.torn).length < 8 ∧ (mapped one).areasOk p [] = false := ⟨_, rfl, by decide, by decide, by decide, by decide, by decide⟩
def area0 : State := { mapped one with pot := [⟨0, 0x100000, poolEntry 0⟩] }
theorem area0_parts (page count : Nat) (h : ((area0.pot.flatMap fun r => [r.page, r.page + r.count]).filter fun x => decide (page < x) && decide (x < page + count)).eraseDups = []) :
    area0.potParts page count = [(page, count, area0.potEntry page)] := by simp [State.potParts, h]
theorem test_meets_area : ∃ p, area0.part? 0 = some p ∧ area0.areasOk p [⟨0, 0⟩] = true := by
  refine ⟨_, rfl, ?_⟩
  simp only [State.areasOk, State.poolOnly]
  rw [List.all_cons, area0_parts _ _ (by decide)]
  decide
theorem test_meets_gate : ∃ p, one.part? 0 = some p ∧ p.gated = false ∧ (∀ b ∈ p.bulks, one.settling b = false) ∧ (∀ l ∈ one.launches, l.part = p.id → l.status = .running) ∧
    ∃ b ∈ p.bulks, (one.bulk? b).isSome = true := ⟨_, rfl, rfl, by decide, by decide, _, List.mem_cons_self, by decide⟩

/-! #### Containment, management -/

/-- Bulkhead 0 in another state. -/
def bulk0 (st : BState) : State := one.modBulk 0 fun b => { b with st := st }
/-- ContainmentAndManagement: a bulkhead in each state; one that no partition holds; a scheduled world. -/
theorem test_meets_containment : ∀ st ∈ [BState.running, .fencing, .fenced, .resetting], ((bulk0 st).bulk? 0).any (fun k => k.st = st) = true ∧ ((bulk0 st).partOf 0).any (fun p => p.autoReset) = true ∧
    (bulk0 st).partOf 1 = none ∧ ((bulk0 st).bulk? 1).isSome = true ∧ (((bulk0 st).partOf 0).bind (bulk0 st).scheduled).isSome = true ∧ ((bulk0 st).owned 0).isSome = true := by decide
theorem test_meets_form : one.mayForm [1] 5 = true ∧ one.mayForm [1, 2] 5 = false ∧ (∀ b ∈ [1], (one.bulk? b).map (fun z => z.st) = some .off) ∧ one.part? 1 = none ∧ one.ready = true := by decide
/-- Pages of the partition: as one part of the table, in its HBM, in its slices, in another's; a change under way. -/
theorem test_meets_pages : area0.potParts 0x200 16 = [(0x200, 16, (poolEntry 0).toNat)] := (area0_parts _ _ (by decide)).trans (by decide)
theorem test_meets_ranges : inBulk 0 0x200 16 = true ∧ inBulk 0 (Config.sliceBase / 4096) 1 = true ∧ inBulk 0 (Config.hbmBytes / 4096) 1 = false ∧
    field (poolEntry 0).toNat 0 5 = 0 ∧ field (poolEntry 0).toNat 13 3 = 0 ∧ (area0.worldOf 0 0).isSome = true ∧ area0.worldOf 0 1 = none := by decide
theorem test_meets_change : let s := area0.beginChange 0x200 16 (poolEntry 0) true
    s.changes = [⟨0x200, 16, poolEntry 0, true, 0⟩] ∧ s.pend = [] ∧ s.lmax = [] := by decide
/-- Two partitions and pages that one may offer the other; an offer of them; a window that is open, and one that closes. -/
def neighbours : State :=
  { area0 with parts := area0.parts ++ [newPart 1 [1] 1], offers := [⟨7, 0, 1, 0x200, 4, true, 0⟩] }
def windowed (closing : Option Nat) : State :=
  let win : Window := { two := true, exporter := 0, importer := 1, pages := 4, base := 0x200 }
  { neighbours with parts := neighbours.parts.map fun p => { p with slots := [⟨0, win, closing⟩] }, bulks := one.bulks.map fun b => { b with st := .running } }
theorem test_meets_windows : (neighbours.owned 0).any (fun p => p.id = 0) = true ∧ (neighbours.part? 1).isSome = true ∧ (neighbours.owned 1).any (fun p => p.id = 1) = true ∧
    (neighbours.offers.find? fun o => o.id = 7 && o.importer = 1).isSome = true ∧ ((neighbours.part? 0).bind Partition.freeSlot) = some 0 ∧ ((neighbours.part? 1).bind Partition.freeSlot) = some 0 ∧
    neighbours.now < 0 + 1000000000 ∧ homeBulk (0x200 * 4096) = some 0 ∧ neighbours.settling 0 = false ∧ (bulk0 .fenced).settling 0 = true := by decide
theorem test_meets_offer_of_pages : neighbours.mayOffer 0 0x200 4 = true := by
  rw [State.mayOffer, show neighbours.potParts 0x200 4 = area0.potParts 0x200 4 from rfl, area0_parts _ _ (by decide)]
  decide
theorem test_meets_window_close : ((windowed none).part? 0).any (fun p => (p.slots.find? fun t => t.idx = 0).isSome) = true ∧
    ((windowed (some 0)).part? 0).any (fun p => (p.slots.find? fun t => t.idx = 0 && t.closing.isSome).isSome) = true ∧ (windowed (some 0)).pend = [] := by decide

/-! #### Evidence, link, fabric, boot -/

/-- EvidenceRequests: a connection before and after each of its steps. -/
theorem test_meets_evidence : ∀ d ∈ [(⟨false, false, false, false, false, [], 0⟩ : Spdm), ⟨true, true, true, true, false, [1], 0⟩, ⟨true, true, true, true, true, [1], 1⟩],
    ((modWorld one fun x => { x with spdm := d }).live? 0).any (fun x => decide (x.spdm = d)) = true ∧ (one.part? 0).isSome = true ∧ one.live? 1 = none := by decide
/-- LinkFabricAndBoot: an interface in each state; an aperture access to mapped memory and to none; a request that waits; a port that is up; images of each kind; a replay. -/
theorem test_meets_interface : ∀ t ∈ [Tdi.unlocked, .locked, .run], ((modWorld one fun x => { x with tdi := t }).live? 0).any (fun x => x.tdi = t) = true := by decide
theorem test_meets_aperture : (mapped one).checkGlobal .host none 0 0 40 [] false true false 0x300 8 = .ok [{ va := 0x300, pa := 0x300, len := 8 }] ∧
    (mapped one).checkGlobal .host none 0 0 40 [] true false false 0x40000000 8 = .error (.page 0) ∧ ((mapped one).part? 0).any (fun p => !p.gated && p.replayOn.isNone) = true ∧ (mapped one).pend = [] := by decide
def asking (host : Bool) : State := one.send 0 0 0x300 (.read 8) |> fun s => { s with ext := s.ext.map fun e => { e with host := host, port := 0, flit := some 0 }, ports := s.ports.map fun q => { q with st := 1 } }
theorem test_meets_request : ((asking true).open? 0 true).any (fun e => e.op ≠ .flush && decide (e.sent + Config.hostTimeout ≤ 50000000)) = true ∧ (asking true).open? 1 true = none ∧
    ((asking false).open? 0 false).any (fun e => e.port = 0 && e.op ≠ .flush) = true ∧ (∃ q ∈ (asking false).ports, q.n = 0 ∧ q.st = 1) ∧ (asking true).pend = [] := by decide
theorem test_meets_fabric : (mapped one).checkGlobal .fabric none 0 0 104 [] true true true 0x300 8 = .ok [{ va := 0x300, pa := 0x300, len := 8 }] ∧ homeBulk 0x300 = some 0 ∧ (mapped one).isDown 0 = false ∧
    (∀ ln ∈ linesOf 0x300 8, (mapped one).lineFree ln = true) ∧ (mapped one).isSealed 0x300 = false := by decide
theorem test_meets_boot : one.staged = none ∧ one.fused ≤ one.firmware ∧ one.ready = true ∧ ({ one with fused := 1 } : State).firmware < 1 ∧
    ((modPart one fun p => { p with replayOn := some (0, 0) }).part? 0).any (fun p => p.replayOn.isSome) = true := by decide

/-! #### Encodings and steps -/

/-- DecodeOfEncodeIsTheInstruction, DecodedWordsAreThoseOfTheEncoder, EntriesAndCommandsReadBack: well-formed instructions, a word that decodes, an entry and a command in range. -/
theorem test_meets_encodings : (Instr.exit h0).wf false = true ∧ (match decodeWord false false 0x0200000000000000 none with | .ok i => decide (i = .exit h0) | _ => false) = true ∧
    (Instr.chainEnd).entryFits = true ∧ entryOk .chainEnd = true ∧ (Instr.cmdBarrier 3).commandFits = true := by decide
/-- StepRunsTheDecodedInstruction, EveryStepEndsWithNobodyActing, EveryStepKeepsMemoryCanonical, NoStepStops: the first turn of a running group. -/
theorem test_meets_step : ∃ g g1 l f, (State.reset.running [0, 0, 0, 0]).agenda = [⟨0, 0, .issue g.gid⟩] ∧ (State.reset.running [0, 0, 0, 0]).group? g.gid = some g ∧
    (State.reset.running [0, 0, 0, 0]).launch? 0 = some l ∧ .issue g.gid ∈ (State.reset.running [0, 0, 0, 0]).primaries ∧ g.next = some (f, g1) ∧
    (State.reset.running [0, 0, 0, 0]).stopsAt g f = none ∧ f.pc.toNat % 8 = 0 ∧ l.obj.text[f.pc.toNat / 8]? = some 0 ∧ field 0 54 10 ≠ 1 :=
  ⟨_, _, _, _, rfl, rfl, rfl, by decide, rfl, by decide, by decide, by decide, by decide⟩
theorem test_meets_memory_canonical : State.reset.MemOk := rfl

/-! #### Windows, waits and the rest -/

/-- The second GiB is a host window. -/
def win (s : State) : State := { mapped s with mem := (mapped s).mem ++ [(0x11008, 0x07), (0x1100E, 0x08)] }
/-- An access to the window whose request 9 is out, with the answer that has come. -/
def asked (r : Option ExtReply) : State :=
  { win (oneG fun g => { g with stuck := some ⟨0, 1, 8, 0, .ext [(0, 9)]⟩ }) with ext := [⟨9, true, 0, 0, 0, 0, 0x100, .read 4, 0, none, none, r⟩], serial := 10 }
theorem admitted_of (s : State) (c : Ctx) (n : Nat) (wr rd al : Bool) (a : Nat) (ps : List Piece) (h : s.ctx? = some c) (m : c.act h0 ≠ 0)
    (t : s.atomsDone c.gid (c.act h0) true = true) (al' : a % n = 0) (ch : s.checkLane c .glob wr rd 0 a n = .ok ps)
    (w : (s.world? c.l.world).map (fun x => x.granted) = some false) : Admitted s c (c.act h0) .glob n wr rd al [(0, a)] [(0, ps)] :=
  ⟨h, m, t, fun _ r hr => by simp at hr; simp [hr, al'], .cons ⟨rfl, ch⟩ .nil, fun x hx g => by simp [hx, g] at w⟩
/-- LoadsReadTheirBytes, StoresWriteTheirBytes, AtomicsTravelToTheirHomes: a window access that nobody has asked for, and one with each answer. -/
theorem test_meets_windows_unasked : ∃ c ps, Admitted (win one) c (c.act h0) .glob 4 true true true [(0, 0x40000100)] [(0, ps)] ∧ windowPieces [(0, ps)] ≠ [] ∧
    (∀ x ∈ windowPieces [(0, ps)], c.request x.1 = none) ∧ (∀ x ∈ [((0 : Nat), ps)], ∃ p, x.2 = [p] ∧ p.outside = true) ∧ (win one).eccBad = [] ∧
    (win one).outsideMustWait c true [(0, ps)] = false ∧ (win one).wick c.l.lid c.core .store + storeRoom [(0, ps)] ≤ 2 ^ 20 :=
  ⟨_, _, admitted_of _ _ _ _ _ _ _ _ rfl (by decide) (by decide) (by decide) rfl (by decide), by decide, by decide, fun x hx => by simp at hx; subst hx; exact ⟨_, rfl, by decide⟩, rfl, by decide, by decide⟩
theorem test_meets_windows_asked : ∀ r ∈ [none, some (.ok [1, 2, 3, 4]), some .ownership, some .down], ∃ c ps,
    Admitted (asked r) c (c.act h0) .glob 4 true true true [(0, 0x40000100)] [(0, ps)] ∧ (∀ x ∈ windowPieces [(0, ps)], c.request x.1 ≠ none ∧ (asked r).replyOf c x.1 = r) ∧
    windowPieces [(0, ps)] ≠ [] ∧ c.l.rcd.flags.getLsbD 1 = false ∧ ∀ q, c.g.hazard c.w64 q = false := by
  intro r h
  simp only [List.mem_cons, List.not_mem_nil, or_false] at h
  rcases h with h | h | h | h <;> subst h <;>
    exact ⟨_, _, admitted_of _ _ _ _ _ _ _ _ rfl (by decide) (by decide) (by decide) rfl (by decide), by decide, by decide, by decide, fun _ => rfl⟩
/-- A window access that must wait: a release behind a write of its own. -/
theorem test_meets_windows_wait : ∃ c, (flying (win one)).ctx? = some c ∧ (flying (win one)).outsideMustWait c true [(0, [⟨0x40000100, Config.hostBase + 0x100, 4, none, false⟩])] = true :=
  ⟨_, rfl, by decide⟩
/-- FailingAccessesTrapOrAreHeld: a page that is not mapped, under a launch that asks for replay in a world whose fault queue is on. -/
def replaying : State := modWorld (modLaunch (mapped one) fun l => { l with rcd := { l.rcd with flags := 2 } }) fun x => { x with ctl := [(0x308, 0x104)] }
theorem test_meets_replay_hold : ∃ c, replaying.ctx? = some c ∧ c.act h0 ≠ 0 ∧ c.g.stuck = none ∧ c.l.rcd.flags.getLsbD 1 = true ∧ replaying.fqEnabled c.l.world = true ∧
    replaying.checkLane c .glob false true 0 0x40000000 4 = .error (.page 0) ∧ replaying.badPages c .glob 0x40000000 4 ≠ [] ∧ (Fail.page 0).rank ≤ (Fail.page 0).rank :=
  ⟨_, rfl, by decide, rfl, by decide, by decide, by decide, by decide, Nat.le_refl _⟩
/-- MatrixInstructionsIssueAndComplete: a form with its A rows in scratch, and a sparse one whose masks are all zero. -/
theorem test_meets_matrix_rows : ∀ i ∈ [scrMma, .mmasp h0 .e4m3 false false false none false false false true false 256 0 4], ∃ g b l m o,
    let s : State := { matState 0 64 with groups := (matState 0 64).groups.map fun g => { g with mats := [mat i 1 false] } }
    s.group? ⟨0, 0, 0⟩ = some g ∧ s.block? 0 0 = some b ∧ s.launch? 0 = some l ∧ b.core ∉ s.frozen ∧ (g.mats.find? fun m => !m.done) = some m ∧ m.corrupt = false ∧ m.dirty = [] ∧
      m.olds = [] ∧ g.olds = [] ∧ s.pend = [] ∧ s.eccBad = [] ∧ s.eccSoft = [] ∧ matOp m.ins = some o ∧ (o.sparse = true → o.depth % 128 = 0) ∧ o.areg = false := by
  intro i h
  simp only [List.mem_cons, List.not_mem_nil, or_false] at h
  rcases h with h | h <;> subst h <;> exact ⟨_, _, _, _, _, rfl, rfl, rfl, by decide, rfl, rfl, rfl, rfl, rfl, rfl, rfl, rfl, rfl, by decide, rfl⟩
/-- BarriersWithACount: two lanes beyond a count of 1, one phase and two; a phase for every live lane at which a lane has arrived, and at which none has. -/
theorem test_meets_barrier_beyond : ∃ c, (modBlock two fun b => { b with phases := [⟨1, 3, 2, []⟩, ⟨2, 0, 1, [(0, 0)]⟩] }).ctx? = some c ∧ c.act h0 ≠ 0 ∧ popcount (c.act h0) = 2 ∧
    (modBlock two fun b => { b with phases := [⟨1, 3, 2, []⟩, ⟨2, 0, 1, [(0, 0)]⟩] }).settled c.gid (c.act h0) = true ∧ (c.b.phases.find? fun p => p.id = 1) = some ⟨1, 3, 2, []⟩ ∧
    (c.b.phases.find? fun p => p.id = 0) = none ∧ (c.b.phases.find? fun p => p.id = 2) = some ⟨2, 0, 1, [(0, 0)]⟩ ∧ inMask (c.act h0) 0 = true ∧ (c.gid.gi, 0) ∈ [(0, 0)] :=
  ⟨_, rfl, by decide, by decide, by decide, by decide, by decide, by decide, by decide, by decide⟩
theorem test_meets_barrier_of_all : ∃ c, (twoG fun g => { g with live := 7, frags := [mkFrag 0 3, mkFrag 8 4] }).ctx? = some c ∧ c.g.live &&& ~~~ (c.act h0) ≠ 0 ∧ c.g.handler = none ∧
    c.g.colls = [] ∧ c.b.phases = [] ∧ c.l.dom = none ∧ ∀ f ∈ c.g.frags, f.park = none := ⟨_, rfl, by decide, rfl, rfl, rfl, rfl, by decide⟩
/-- ConversionResults, FloatResults: the mode of the running group leaves FTZO and NANP off. -/
theorem test_meets_plain : ∃ c, one.ctx? = some c ∧ Plain c.g.fpm := ⟨_, rfl, by decide, by decide⟩
/-- RegistersByNumber: a number above the limit of p. -/
theorem test_meets_number_above : ∃ c, (oneG fun g => { g with handler := some ⟨1, 8⟩, v := [(256, 8)] }).ctx? = some c ∧ c.g.handler ≠ none ∧ 7 < (c.readReg 0 1 0 (v 4)).toNat :=
  ⟨_, rfl, by decide, by decide⟩
/-- QueueCommandsRun: a record whose object is bound, of a partition, with a galley and a semaphore that may be written. -/
theorem test_meets_codes : ∃ x p b0, ({ binding (taking 0) with galleys := [galley0] } : State).world? 0 = some x ∧ (binding (taking 0)).part? x.part = some p ∧
    ({ binding (taking 0) with galleys := [galley0] } : State).semCheck x record.semAddr.toNat = none ∧ (x.imp.find? fun e => e.1 = record.kidx) = some (record.kidx, b0) ∧
    (({ binding (taking 0) with galleys := [galley0] } : State).findGalley (({ binding (taking 0) with galleys := [galley0] } : State).keyOf x
      (({ binding (taking 0) with galleys := [galley0] } : State).boundNow x b0).obj record.w64 record.mode.toNat)).isSome = true :=
  ⟨_, _, _, rfl, rfl, by decide, rfl, by decide⟩
/-- GalleysQueriesAndExports: a world that is not confidential asks for an entry that is valid. -/
theorem test_meets_export : ∃ x k, (binding one).world? 0 = some x ∧ x.conf = false ∧ (binding one).queryKey x 4095 false = some k ∧ k.w64 = false ∧ (x.reg rTRQ).getLsbD 15 = false ∧
    (∀ e ∈ (binding one).translating, ¬(e.1 = 0 ∧ e.2.1 = 4095 ∧ e.2.2.w64 = false)) ∧ ∀ p ∈ (binding one).parts, p.replayOn = none := ⟨_, _, rfl, rfl, rfl, rfl, by decide, by decide, by decide⟩
/-- DebuggerActs: a write of memory for a lane of a halted group, at a line that is free and one that is not; a group in which nothing waits; stop records, at once and behind a write. -/
theorem test_meets_debug_write : ∃ x p, (debugged [(rDBGSEL, 14), (rDBGADR, 0x300)] (some stop0)).world? 0 = some x ∧ x.granted = true ∧ x.torn = false ∧ x.tdi ≠ .run ∧
    (x.reg rDBGSEL).toNat.testBit 5 = false ∧ field (x.reg rDBGSEL).toNat 0 3 = 6 ∧ (x.reg rDBGSEL).toNat.testBit 3 = true ∧ x.dbgExt = none ∧ (x.fieldOf rDBGADR 0 52) % 8 = 0 ∧
    (debugged [] (some stop0)).checkGlobal .copy none 0 0 (agentSource .copy 0 0) [] true false false 0x300 8 = .ok [p] ∧
    (debugged [] (some stop0)).checkGlobal .copy none 0 0 (agentSource .copy 0 0) [] true true false 0x300 8 = .ok [p] ∧ p.outside = false ∧ p.len = 8 ∧ p.pa % 4 = 0 ∧
    (debugged [] (some stop0)).tagWrong [p] = false ∧ (∀ ln ∈ linesOf p.pa 8, (debugged [] (some stop0)).lineFree ln = true) ∧
    ∃ ln ∈ linesOf p.pa 8, ({ debugged [] (some stop0) with lmax := [(6, 50)] } : State).lineFree ln = false :=
  ⟨_, ⟨0x300, 0x300, 8, none, false⟩, rfl, by decide, by decide, by decide, by decide, by decide, by decide, rfl, by decide, by decide, by decide, by decide, rfl, by decide, by decide, by decide, 6, by decide, by decide⟩
theorem test_meets_stop_record : ∀ after ∈ [([] : List Nat), [3]], ∃ x, (modWorld (flying (mapped one)) fun x => { x with stopq := [⟨after, List.replicate 64 0⟩], ctl := SMap.set [] rDBGRC 0x104 }).world? 0 = some x ∧
    x.stopq = ⟨after, List.replicate 64 0⟩ :: [] ∧ (x.reg rDBGRC).toNat.testBit 8 = true ∧
    ((x.reg rDBGRT).toNat + 1) % 2 ^ ringLog (field (x.reg rDBGRC).toNat 0 4) 4 10 ≠ (x.reg rDBGRH).toNat % 2 ^ ringLog (field (x.reg rDBGRC).toNat 0 4) 4 10 ∧
    ((∃ q ∈ (flying (mapped one)).pend, q.id ∈ after) ↔ after = [3]) ∧
    (flying (mapped one)).checkGlobal .host none 0 0 (agentSource .host 0 0) [] true true false 0 64 = .ok [⟨0, 0, 64, none, false⟩] := by
  intro after h
  simp only [List.mem_cons, List.not_mem_nil, or_false] at h
  rcases h with h | h <;> subst h <;> exact ⟨_, rfl, rfl, by decide, by decide, by decide, by decide⟩
/-- Contexts: groups in which nothing waits, a domain of the launch, a scratch word that is bad. -/
theorem test_meets_context : (∀ g ∈ (ctx0 false false).groups, g.stop = none ∧ g.handler = none ∧ g.colls = [] ∧ (∀ f ∈ g.frags, f.park = none) ∧
      ({ one with groups := [], blocks := [] } : State).block? g.gid.lid g.gid.blk = none ∧ ∀ z ∈ ({ one with groups := [], blocks := [] } : State).groups, z.gid.lid ≠ g.gid.lid) ∧
    (∃ b, (ctx0 false false).blocks = [b] ∧ b.phases = [] ∧ b.saved.length ≤ squareCount b.scratch * 4096) ∧
    (∃ b ∈ scratchy.blocks, ({ scratchy with eccBad := [b.scratchPa 0] } : State).badWord (b.scratchPa 0) b.scratch = true) :=
  ⟨by decide, ⟨_, rfl, rfl, by decide⟩, _, List.mem_cons_self, by decide⟩
/-- GATE, dissolving, windows: what makes them wait. -/
theorem test_meets_management_waits : (one.part? 0).any (fun p => !p.gated && p.bulks.any fun b => (bulk0 .fenced).settling b) = true ∧
    (∃ l ∈ (modLaunch one fun l => { l with status := .aborting 5 0 false false false 0 }).launches, l.part = 0 ∧ l.status ≠ .running) ∧
    (∃ q ∈ (flying one).pend, q.ext = none ∧ homeBulk q.pa = some 0) ∧ (∀ q ∈ (flying one).pend, q.atGate 0 = false) :=
  ⟨by decide, ⟨_, List.mem_cons_self, rfl, by decide⟩, ⟨_, List.mem_cons_self, rfl, by decide⟩, by decide⟩
/-- PAGE_ASSIGN: a world that is confidential and one that is not, a SEALED page for each. -/
theorem test_meets_sealed_pages : ∀ conf ∈ [false, true], ((modWorld area0 fun x => { x with conf := conf }).worldOf 0 0).any (fun x => x.conf == conf) = true := by decide
/-- LinkFabricAndBoot: ports that are down and up, a buffer with two flits, a request that waits for a flit, one that a flit has brought; an access off the IDE stream; writes of the host. -/
def linked : State := { mapped one with ports := (mapped one).ports.map fun q => { q with st := 1, out := [(4, 20), (5, 21)], oseq := 6, inbox := [⟨3, Config.packageNumber, 0, 0x300, .write [1, 2]⟩] } }
theorem test_meets_ports : (∃ q ∈ one.ports, q.n = 0 ∧ q.st = 0) ∧ (∃ q, (linked.ports.find? fun q => q.n = 0 && q.st = 1) = some q ∧ ackTo 4 q.out = [(5, 21)] ∧ ackTo 9 q.out = q.out ∧
    ⟨3, Config.packageNumber, 0, 0x300, .write [1, 2]⟩ ∈ q.inbox ∧ ⟨4, Config.packageNumber, 0, 0x300, .write [1, 2]⟩ ∉ q.inbox) ∧ (∀ e ∈ linked.ext, e.host = true ∨ e.flit.isSome = true ∨ e.reply.isSome = true) ∧
    (modWorld one fun x => { x with tdi := .run }).turnsAway 0 false = true ∧ ∃ q ∈ ({ one with pend := (flying one).pend.map fun p => { p with src := .host 0 } } : State).pend, q.src = .host 0 ∧ q.begun = false :=
  ⟨⟨_, List.mem_cons_self, rfl, rfl⟩, ⟨_, rfl, by decide, by decide, List.mem_cons_self, fun h => by simp at h⟩, by decide, by decide, _, List.mem_cons_self, rfl, rfl⟩
/-- StepRunsTheDecodedInstruction: any turn is in turn when no partition replays; a partition that replays takes its turns in the order of its schedule. -/
theorem test_meets_in_turn : (State.reset.running [0, 0, 0, 0]).inTurn (.issue ⟨0, 0, 0⟩) = true ∧ isManaged (.pauseEnd ⟨0, 0, 0⟩) = false ∧ (State.reset.running [0, 0, 0, 0]).mgmt = [] ∧
    ({ modPart one (fun p => { p with replayOn := some (0, 0) }) with frozen := [0] } : State).inTurn (.issue ⟨0, 0, 0⟩) = false ∧
    (modPart one fun p => { p with replayOn := some (0, 0) }).inTurn (.issue ⟨0, 0, 0⟩) = true := by decide
/-- DebuggerActs: a lone halted group in which nothing waits. -/
theorem test_meets_calm : ∃ g, (debugged [] (some stop0)).group? ⟨0, 0, 0⟩ = some g ∧ Calm (debugged [] (some stop0)) g :=
  ⟨_, rfl, by decide, rfl, rfl, rfl, by decide, fun b h => by injection h with h; subst h; rfl, fun l h => by injection h with h; subst h; rfl⟩

/-! #### Points of the rules that are easy to get wrong -/

/-- SHA-384 of the three bytes of "abc" (FIPS 180-4's example). -/
theorem test_sha384 : (sha384 [0x61, 0x62, 0x63]).take 8 = [0xCB, 0x00, 0x75, 0x3F, 0x45, 0xA3, 0x5E, 0x8B] := by decide +kernel
/-- BRX.U whose guard is false in every lane still compares the targets of the lanes (R165, R209). -/
theorem test_brx_uniform_when_idle : (groupAfter (.brx ⟨false, 1, false⟩ true (v 4)) (twoG fun g => { g with v := [(256, 8), (257, 16)] })).map (fun g => g.frame.cause)
    = some (BitVec.ofNat 32 Cause.uniform) := by decide
/-- IADDI of a Z type reads its immediate without a sign (R205, R221): 1 + 0xFFFFFFFF clamps. -/
theorem test_iaddi_saturates : vAfter (.iaddi h0 .z32 true (v 3) (v 4) (-1)) (regs 1 0 0) 3 0 = some 0xFFFFFFFF := by decide
/-- A lane that has read ahead keeps what it read (R79). -/
theorem test_load_read_ahead : vAfter (.ld h0 (glb .plain .none) 0 (v 3) (v 4)) ((mapped (regs 0x300 0 0)).modGroup ⟨0, 0, 0⟩ fun g => { g with ahead := [⟨0, 0x300, [1, 2, 3, 4]⟩] }) 3 0
    = some 0x04030201 := by decide
/-- A write performs at its T_c as time passes (R36). -/
theorem test_time_performs_writes : Memory.get ((landing (mapped one) 5).elapse 10 13).mem 0x300 = 5 := by decide

end Sys2Proof.Tests
end

section
/-! Events at the homes of lines (R36, R46, R53, R73, R75, R85, R86): what the arrival and the completion of a write do, and that each waits until it may
happen. -/

namespace Sys2Proof.Machine

/-! ### Groups wherever they are -/

@[simp] theorem modGroupAny_pend (s : State) (x : Gid) (f : Group → Group) : (s.modGroupAny x f).pend = s.pend := rfl
@[simp] theorem modGroupAny_mem (s : State) (x : Gid) (f : Group → Group) : (s.modGroupAny x f).mem = s.mem := rfl

/-- A resident group is found with its change made. -/
theorem modGroupAny_group?_of_resident {s : State} {x : Gid} {g : Group} (hg : s.group? x = some g) (f : Group → Group) (hf : ∀ y, (f y).gid = y.gid) :
    (s.modGroupAny x f).group? x = some (f g) := by
  calc (s.modGroupAny x f).group? x = (s.modGroup x f).group? x := rfl
    _ = some (f g) := by rw [State.group?_modGroup s x x f hf, if_pos rfl, hg, Option.map_some]

theorem groupAny?_of_resident {s : State} {x : Gid} {g : Group} (hg : s.group? x = some g) : s.groupAny? x = some g := by
  simp [State.groupAny?, hg]

/-! ### Failure of a thread's write (R73, R314) -/

@[simp] theorem failed_gid (g : Group) (va : DWord) (n : Nat) : (g.failed va n).gid = g.gid := rfl
@[simp] theorem failed_frags (g : Group) (va : DWord) (n : Nat) : (g.failed va n).frags = g.frags := rfl

theorem failed_sameRegs (g : Group) (va : DWord) (n : Nat) : SameRegs g (g.failed va n) := ⟨rfl, rfl, rfl, rfl, rfl, rfl, rfl⟩

/-- The first failure is kept; later ones are counted. -/
theorem failed_err (g : Group) (va : DWord) (n : Nat) :
    (g.failed va n).err = some (match g.err with | none => ⟨va, lgSize n, 1⟩ | some e => ⟨e.addr, e.lsize, e.count + 1⟩) := by
  unfold Group.failed
  cases g.err <;> rfl

theorem failWrite_of_thread {s : State} {p : Pend} {x : Gid} {l : Nat} {g : Group} (hsrc : p.src = .thread x l) (hg : s.group? x = some g) :
    s.failWrite p = s.modGroupAny x fun y => y.failed p.va p.size := by
  simp only [State.failWrite, hsrc, groupAny?_of_resident hg]

/-- Nothing but the record of the writer's group tells of the failure: no byte changes, nor what is in flight. -/
theorem failWrite_reports {s : State} {p : Pend} {x : Gid} {l : Nat} {g : Group} (hsrc : p.src = .thread x l) (hg : s.group? x = some g) :
    (s.failWrite p).pend = s.pend ∧ (s.failWrite p).mem = s.mem ∧ (s.failWrite p).group? x = some (g.failed p.va p.size) := by
  rw [failWrite_of_thread hsrc hg]
  exact ⟨modGroupAny_pend .., modGroupAny_mem .., modGroupAny_group?_of_resident hg _ fun y => failed_gid y _ _⟩

/-! ### Arrival -/

/-- What an arrival changes: what is in flight, ownership of the line, and the time of the last strong write, which groups hold (saved ones in worlds). -/
theorem arrive_frame (s : State) (p : Pend) (delay : Nat) : ∃ ls gs ws, s.arrive p delay =
    { s with
      pend := ((s.pend.filter fun q => q.id ≠ p.id).map fun q => if p.sameTxn q then { q with begun := true } else q) ++
        [{ p with tc := some (s.tcOf p delay), begun := true }]
      leases := ls, groups := gs, worlds := ws } := by
  unfold State.arrive
  split
  · split <;> exact ⟨_, _, _, rfl⟩
  · exact ⟨_, _, _, rfl⟩

theorem replayDelay_of_no_replay {s : State} (h : ∀ x ∈ s.parts, x.replayOn = none) (p : Pend) (delay : Nat) : s.replayDelay p delay = delay := by
  have hnone : ∀ q, (s.parts.any fun x => decide (x.id = q) && x.replayOn.isSome) = false := fun q => by
    rw [List.any_eq_false]
    intro x hx
    simp [h x hx]
  unfold State.replayDelay
  cases s.pendPart p <;> simp [hnone]

theorem exec_storeArrival_of_pend? {s : State} {p : Pend} (hp : s.pend? p.id = some p) (delay : Nat) :
    exec (.storeArrival p.id delay) s = .next (if s.mayArrive p then s.reach p (s.replayDelay p delay) else s) := by
  rw [exec_storeArrival]
  simp only [execStoreArrival, hp]

theorem storeArrival_arrives {s : State} {p : Pend} (hp : s.pend? p.id = some p) (delay : Nat) (hmay : s.mayArrive p = true) (hopen : s.turnedAway p = false) :
    exec (.storeArrival p.id delay) s = .next (s.arrive p (s.replayDelay p delay)) := by
  simp [exec_storeArrival_of_pend? hp, hmay, State.reach, hopen]

theorem storeArrival_turned_away {s : State} {p : Pend} (hp : s.pend? p.id = some p) (delay : Nat) (hmay : s.mayArrive p = true)
    (haway : s.turnedAway p = true) (hw : s.waiter p.id = none) :
    exec (.storeArrival p.id delay) s = .next (({ s with pend := s.pend.filter fun q => q.id ≠ p.id } : State).failWrite p) := by
  simp [exec_storeArrival_of_pend? hp, hmay, State.reach, haway, State.failPend, hw]

theorem storeArrival_waits {s : State} {p : Pend} (hp : s.pend? p.id = some p) (delay : Nat) (hmay : s.mayArrive p ≠ true) :
    Waits s (exec (.storeArrival p.id delay) s) := by
  simp [Waits, exec_storeArrival_of_pend? hp, hmay]

/-! ### Completion -/

theorem exec_writeCompletion_of_pend? {s : State} {p : Pend} (hp : s.pend? p.id = some p) :
    exec (.writeCompletion p.id) s = .next (if s.mayPerform p then s.completeWrite p else s) := by
  rw [exec_writeCompletion]
  simp only [execWriteCompletion, hp]

theorem writeCompletion_performs {s : State} {p : Pend} (hp : s.pend? p.id = some p) (hmay : s.mayPerform p = true) (hw : s.waiter p.id = none) :
    exec (.writeCompletion p.id) s = .next (({ s with pend := s.pend.filter fun q => q.id ≠ p.id } : State).perform p) := by
  simp [exec_writeCompletion_of_pend? hp, hmay, State.completeWrite, hw]

theorem writeCompletion_waits {s : State} {p : Pend} (hp : s.pend? p.id = some p) (hmay : s.mayPerform p ≠ true) :
    Waits s (exec (.writeCompletion p.id) s) := by
  simp [Waits, exec_writeCompletion_of_pend? hp, hmay]

theorem perform_of_down {s : State} {p : Pend} {b : Nat} (hb : homeBulk p.pa = some b) (hd : s.isDown b = true) : s.perform p = s.failWrite p := by
  simp only [State.perform, hb, hd, if_true]

/-! ### The statement -/

/-- Settles O31. The bounds on the completion time are those of `tcOf_ge`, the bytes those of `perform_mem`. -/
theorem writesArriveAndPerform : Obligations.WritesArriveAndPerform := by
  unfold Obligations.WritesArriveAndPerform
  constructor
  · intro s p delay hp
    refine ⟨fun htc hext hafter hpar hopen => ?arrives, fun htc hext hafter hpar haway hw x l g hsrc hg => ?away, fun hbehind => ?waits⟩
    case arrives =>
      have hmay : s.mayArrive p = true := (mayArrive_iff s p).mpr ⟨htc, hext, hafter, hpar⟩
      obtain ⟨hdelay, hlmax, hline, hstrong⟩ := tcOf_ge s p (s.replayDelay p delay)
      obtain ⟨ls, gs, ws, harr⟩ := arrive_frame s p (s.replayDelay p delay)
      refine ⟨_, s.tcOf p (s.replayDelay p delay), (storeArrival_arrives hp delay hmay hopen).trans (congrArg _ harr), rfl, fun hno => ?_,
        Nat.le_trans (Nat.le_add_right _ _) hdelay, hlmax, hline, hstrong, rfl, rfl, rfl⟩
      rwa [replayDelay_of_no_replay hno] at hdelay ⊢
    case away =>
      have hmay : s.mayArrive p = true := (mayArrive_iff s p).mpr ⟨htc, hext, hafter, hpar⟩
      obtain ⟨hpend, hmem, hgroup⟩ := failWrite_reports (s := { s with pend := s.pend.filter fun q => q.id ≠ p.id }) hsrc hg
      exact ⟨_, _, storeArrival_turned_away hp delay hmay haway hw, hpend, hmem, hgroup, rfl, failed_sameRegs g _ _, failed_frags g _ _⟩
    case waits =>
      obtain ⟨i, hi, q, hq, hid, hqtc⟩ := hbehind
      refine storeArrival_waits hp delay fun hmay => ?_
      obtain ⟨-, -, hafter, -⟩ := (mayArrive_iff s p).mp hmay
      exact hafter i hi q hq hid hqtc
  · intro s p T b hp hT
    refine ⟨fun hearly huniq => ?waits, fun hdue hhead hafter hb hw => ⟨fun hup hopen => ?performs, fun hdown x l g hsrc hg => ?fails⟩⟩
    case waits =>
      refine writeCompletion_waits hp fun hmay => ?_
      obtain ⟨hdue, hafter, hhead⟩ := (mayPerform_iff s p T hT huniq).mp hmay
      rcases hearly with hlt | hbehind | ⟨i, hi, q, hq, hid⟩
      · omega
      · exact hbehind hhead
      · exact hafter i hi q hq hid
    case performs =>
      have hmay := mayPerform_of s p T hT hdue hafter hhead
      obtain ⟨t, ht, hpend, hleases, hlaunches, hnow, -, hbytes⟩ :=
        perform_mem { s with pend := s.pend.filter fun q => q.id ≠ p.id } p b hb hup hopen
      exact ⟨t, (writeCompletion_performs hp hmay hw).trans (congrArg _ ht), hpend, hbytes, hleases, hlaunches, hnow⟩
    case fails =>
      have hmay := mayPerform_of s p T hT hdue hafter hhead
      obtain ⟨hpend, hmem, hgroup⟩ := failWrite_reports (s := { s with pend := s.pend.filter fun q => q.id ≠ p.id }) hsrc hg
      have hperf := perform_of_down (s := { s with pend := s.pend.filter fun q => q.id ≠ p.id }) hb hdown
      exact ⟨_, _, (writeCompletion_performs hp hmay hw).trans (congrArg _ hperf), hpend, hmem, hgroup, failed_err g _ _, failed_sameRegs g _ _, failed_frags g _ _⟩

end Sys2Proof.Machine
end

section
/-! Fields, counts and permutations (R226, R228, R229): what each lane of BFX, BFI, POPC, CLZ, CTZ, BREV and PRMT computes, bit by bit where the
statement is. -/

namespace Sys2Proof.Machine

/-! ### Bits of an operand -/

theorem bit_eq_testBit (x i : Nat) : bit x i = x.testBit i := by
  rw [Nat.testBit_eq_decide_div_mod_eq]
  rfl

theorem bit_toNat (u : DWord) (i : Nat) : bit u.toNat i = u.getLsbD i := bit_eq_testBit _ _

/-- An operand has, below its width, the bits of its register. -/
theorem bit_natW {w : Bool} (u : DWord) {i : Nat} (hi : i < bitsW w) : bit (natW w u) i = u.getLsbD i := by
  rw [bit_eq_testBit, natW, Nat.testBit_mod_two_pow, decide_eq_true hi, Bool.true_and]
  rfl

theorem bitsW_le (w : Bool) : bitsW w ≤ 64 := by cases w <;> decide

/-- The set bits of an operand are those of its register below the width. -/
theorem filter_bit_natW (w : Bool) (u : DWord) :
    ((List.range (bitsW w)).filter fun i => bit (natW w u) i) = (List.range (bitsW w)).filter fun i => u.getLsbD i :=
  List.filter_congr fun _ hi => bit_natW u (List.mem_range.mp hi)

theorem find?_bit_natW (w : Bool) (u : DWord) :
    ((List.range (bitsW w)).find? fun i => bit (natW w u) i) = (List.range (bitsW w)).find? fun i => u.getLsbD i := by
  rw [← List.head?_filter, ← List.head?_filter, filter_bit_natW]

/-! ### BREV -/

/-- The low `n` bits of a number in reverse order, as BREV adds them up. -/
def revBits (n x : Nat) : Nat := ((List.range n).map fun i => b2n (bit x i) * 2 ^ (n - 1 - i)).sum

theorem revBits_succ (n x : Nat) : revBits (n + 1) x = Nat.bit (bit x n) (revBits n x) := by
  have double : ((List.range n).map fun i => b2n (bit x i) * 2 ^ (n - i)) = (List.range n).map fun i => 2 * (b2n (bit x i) * 2 ^ (n - 1 - i)) :=
    List.map_congr_left fun i hi => by
      have hi : i < n := List.mem_range.mp hi
      rw [show n - i = n - 1 - i + 1 by omega, Nat.pow_succ]
      ring
  calc revBits (n + 1) x = 2 * revBits n x + b2n (bit x n) := by
        simp [revBits, List.range_succ, double, List.sum_map_mul_left]
    _ = Nat.bit (bit x n) (revBits n x) := by cases bit x n <;> rfl

theorem testBit_revBits (n x j : Nat) : (revBits n x).testBit j = (decide (j < n) && bit x (n - 1 - j)) := by
  induction n generalizing j with
  | zero => simp [revBits]
  | succ n ih =>
    rw [revBits_succ]
    cases j with
    | zero => simp
    | succ j => simp [Nat.testBit_bit_succ, ih, show n - 1 - j = n - (j + 1) by omega]

theorem getLsbD_revBits {n : Nat} (hn : n ≤ 64) (u : DWord) (i : Nat) :
    (BitVec.ofNat 64 (revBits n u.toNat)).getLsbD i = (decide (i < n) && u.getLsbD (n - 1 - i)) := by
  rw [BitVec.getLsbD_ofNat, testBit_revBits, bit_toNat]
  by_cases hi : i < n
  · simp [hi, Nat.lt_of_lt_of_le hi hn]
  · simp [hi]

/-! ### PRMT -/

/-- Four values at the places of the bytes of a word. -/
theorem sum_at_bytes (f : Nat → Nat) :
    ((List.range 4).map fun i => f i * 2 ^ (8 * i)).sum = f 0 + f 1 * 2 ^ 8 + f 2 * 2 ^ 16 + f 3 * 2 ^ 24 := by
  rw [List.sum_range_succ, List.sum_range_succ, List.sum_range_succ, List.sum_range_succ, List.range_zero, List.map_nil, List.sum_nil]
  ring

/-! ### What each form delivers -/

section Forms

variable (s : State) (c : Ctx) (hd : Hdr) (b : Block) (w : Bool) (t : IT) (d x y z : Opnd)

theorem bfx_form : Form3 s c hd b (.bfx hd t d x y z) (some (opI t d)) (opI t x) (op1 y) (op1 z) fun _ u p l =>
    let pos := p.toNat % 256
    let e := min (pos + l.toNat % 256) t.bits
    let f := field u.toNat pos (e - pos)
    { d := if e ≤ pos then 0 else wrapTo t.bits (if t.signed then signed (e - pos) f else (f : Int)) } := by
  intro u p l h
  rw [exec_bfx, execBfx]
  refine delivers_of_alu rfl h fun k => ?_
  dsimp only [List.map]
  split <;> rfl

theorem bfi_form : Form3 s c hd b (.bfi hd w d x y z) (some (opW w d)) (opW w x) (opW w y) (op1 z) fun _ u v k =>
    let pos := k.toNat % 256
    let e := min (pos + field k.toNat 8 8) (bitsW w)
    { d := BitVec.ofNat 64 (if e ≤ pos then natW w u
        else natW w u - field (natW w u) pos (e - pos) * 2 ^ pos + v.toNat % 2 ^ (e - pos) * 2 ^ pos) } := by
  intro u v k h
  rw [exec_bfi, execBfi]
  refine delivers_of_alu rfl h fun l => ?_
  dsimp only [List.map]
  split <;> rfl

/-- The shape of the counts: each lane delivers the function of its n-bit operand. -/
theorem countOp_delivers {u : Nat → DWord} (f : Nat → Nat) (h : Ready s c hd (some (op1 d)) [opW w x] b [u]) :
    Delivers s c hd (some (op1 d)) b (fun l => { d := BitVec.ofNat 64 (f (natW w (u l))) }) (countOp hd w d x f s) := by
  rw [countOp]
  exact delivers_of_alu rfl h fun _ => rfl

theorem popc_form : Form1 s c hd b (.popc hd w d x) (some (op1 d)) (opW w x) fun _ u =>
    { d := BitVec.ofNat 64 ((List.range (bitsW w)).filter fun i => u.getLsbD i).length } := by
  intro u h
  rw [exec_popc, execPopc]
  simp only [← filter_bit_natW]
  exact countOp_delivers s c hd b w d x _ h

theorem clz_form : Form1 s c hd b (.clz hd w d x) (some (op1 d)) (opW w x) fun _ u =>
    { d := BitVec.ofNat 64 (if natW w u = 0 then bitsW w else bitsW w - 1 - Nat.log2 (natW w u)) } := by
  intro u h
  rw [exec_clz, execClz]
  exact countOp_delivers s c hd b w d x _ h

theorem ctz_form : Form1 s c hd b (.ctz hd w d x) (some (op1 d)) (opW w x) fun _ u =>
    { d := BitVec.ofNat 64 (((List.range (bitsW w)).find? fun i => u.getLsbD i).getD (bitsW w)) } := by
  intro u h
  rw [exec_ctz, execCtz]
  simp only [← find?_bit_natW]
  exact countOp_delivers s c hd b w d x _ h

theorem brev_form : Form1 s c hd b (.brev hd w d x) (some (opW w d)) (opW w x) fun _ u =>
    { d := BitVec.ofNat 64 (revBits (bitsW w) u.toNat) } := by
  intro u h
  rw [exec_brev, execBrev]
  exact delivers_of_alu rfl h fun _ => rfl

theorem prmt_form : Form3 s c hd b (.prmt hd d x y z) (some (op1 d)) (op1 x) (op1 y) (op1 z) fun _ u v k =>
    let sel (i : Nat) : Nat := permByte (natW false u + natW false v * 2 ^ 32) (field k.toNat (4 * i) 4)
    { d := BitVec.ofNat 64 (sel 0 + sel 1 * 2 ^ 8 + sel 2 * 2 ^ 16 + sel 3 * 2 ^ 24) } := by
  intro u v k h
  rw [exec_prmt, execPrmt]
  refine delivers_of_alu rfl h fun l => ?_
  dsimp only [List.map]
  rw [sum_at_bytes]

end Forms

/-! ### The statement -/

/-- Settles O3: the reversal that BREV needs is `revBits`, whose bits `getLsbD_revBits` gives. -/
theorem fieldResults : Obligations.FieldResults := by
  unfold Obligations.FieldResults
  intro s c hd b w t d x y z
  refine ⟨bfx_form s c hd b t d x y z, bfi_form s c hd b w d x y z, popc_form s c hd b w d x, clz_form s c hd b w d x, ctz_form s c hd b w d x,
    ⟨fun u => BitVec.ofNat 64 (revBits (bitsW w) u.toNat), fun u i hi => ?below, fun u i hi => ?above, brev_form s c hd b w d x⟩, prmt_form s c hd b d x y z⟩
  case below => rw [getLsbD_revBits (bitsW_le w), decide_eq_true hi, Bool.true_and]
  case above => rw [getLsbD_revBits (bitsW_le w), decide_eq_false (Nat.not_lt.mpr hi), Bool.false_and]

end Sys2Proof.Machine
end
